-- ==== Sys2Proof/Word.lean ====
section
/-! DEFINITION. The word types of the Phoica 2800: bytes, 32-bit words, 64-bit words and lane masks (00:R5, 04:R85). -/

namespace Sys2Proof

/-- 8 bits, the smallest addressable unit. -/
abbrev Byte := BitVec 8
/-- 32 bits: a register, an instruction word (00:R5). -/
abbrev Word := BitVec 32
/-- 64 bits: a register pair, a virtual address. -/
abbrev DWord := BitVec 64
/-- One bit per lane of a gang (03:R68). -/
abbrev Mask := BitVec 64

end Sys2Proof
end

