-- ==== Sys2Proof/Config.lean ====
section
/-! DEFINITION. What one Phoica 2800 fixes and the free values: constants of the implementation, and opaque functions
for every value the spec leaves open (04:R101 to R105, 06:R135, 08:R181, 17:R408, 18:R426). Nothing in Lean can evaluate
an opaque constant, so no proof can rest on its value. -/

namespace Sys2Proof.Config

/-- Clusters of the device (00:R1). -/
def clusters : Nat := 24
/-- Cores of a cluster (00:R1). -/
def coresPerCluster : Nat := 8
/-- Cores of the device (00:R1). -/
def cores : Nat := 192
/-- Home slices of the device, 8 per cluster (08:R177). -/
def homeSlices : Nat := 192
/-- HBM stacks (00:R1). -/
def hbmStacks : Nat := 16
/-- Installed HBM bytes: 1,536 GiB (00:R1, 08:R179). -/
def hbmBytes : Nat := 1536 * 2 ^ 30
/-- Host bytes that exist, from address 0 (DESIGN CHOICE, log 3: the spec gives no size of the host's memory). -/
def hostBytes : Nat := 2 ^ 52
/-- The value of a dead register (02:R51). -/
def dead : Word := 0xFFA5A5A5#32

/-- Free value: what a byte of host or peer memory holds that nothing has written, and what the pattern of a memory training leaves in
HBM as it stands there, encrypted (08:R181): by memory type, number of memory trainings and physical address. -/
opaque bootByte : Nat → Nat → Nat → Byte
/-- Free value: the key pair of a KEY that system software has not loaded (08:R179), as 64 bytes, the data key first. -/
opaque keyPair : Nat → BitVec 512
/-- Free value: a byte of what the device writes in a layout of its own, in save areas (16:R392) and the spill table (15:R371), by draw and
physical address. -/
opaque areaByte : Nat → Nat → Byte
/-- Free value: the bits of a special function that 06:R135 leaves open, by function number (1 rsq, 3 exp2, 4 log2, 5 sin,
6 cos, 7 tanh; 16 more for the sign of a zero) and input pattern: a number that selects one of the results that the bounds allow. -/
opaque specialFn : Nat → Word → Nat
/-- Free value: one step of the iteration hash of the spin detector (01:R31), from the hash so far and a value written. -/
opaque spinHash : DWord → Word → DWord
/-- Free value: a byte of a flash slot that the host's recovery programming has written, by draw and byte address (18:R424, R426). -/
opaque flashByte : Nat → Nat → Byte
/-- Free value: a byte of the certificate chain that the flash holds from 0x7C00_0000 on (18:R425). -/
opaque chainByte : Nat → Byte
/-- Free value: whether a signature of a header verifies under the 64-byte firmware public key that the boot ROM holds (18:R424). -/
opaque signatureOk : List Byte → List Byte → Bool
/-- Free value: measured energy of an interval (17:R408), by draw. -/
opaque energy : Nat → BitVec 64
/-- Free value: the charge estimate of a macro-operation, in energy units (17:R412), by draw (DESIGN CHOICE, log 72). -/
opaque chargeEstimate : Nat → BitVec 64
/-- Free value: the measurement of the installed firmware image and the signature of an attestation report (18:R425, R426),
by draw and byte index. -/
opaque reportByte : Nat → Nat → Byte
/-- Free value: the program counter of a context that has ended (14:R341, R346), by identity and draw. -/
opaque endedPc : DWord → Nat → DWord
/-- Free value: any other value the spec leaves open, by draw. -/
opaque freeWord : Nat → Word

end Sys2Proof.Config
end

