-- ==== Sys2Proof/Syntax.lean ====
section
/-! DEFINITION. The instructions and events of the Phoica 2800: one constructor of `Instr` per row of
spec/opcode_table.json. An instruction constructor holds its MOD and IMM prefixes and its fields; an event constructor
holds what identifies the step (which gang, ring, line and so on) and the data that comes from outside the machine. -/

namespace Sys2Proof

/-- A register or port operand (02:R49). -/
inductive Opnd where
  /-- per-thread register v0 to v63 -/
  | v (n : BitVec 6)
  /-- per-gang register s0 to s47 -/
  | s (n : Fin 48)
  /-- capsule register c0 to c7 -/
  | c (n : BitVec 3)
  /-- queue port q0 to q7 -/
  | q (n : BitVec 3)
  deriving DecidableEq, Repr

/-- A MOD prefix's fields (02:R46). -/
structure Mod where
  rnd : BitVec 3
  sat : Bool
  pe : Bool
  pn : Bool
  pk : BitVec 3
  flo : Bool
  deriving DecidableEq, Repr

/-- The prefixes of an instruction: at most one MOD, then at most one IMM payload (02:R48). -/
structure Pfx where
  md : Option Mod
  im : Option (BitVec 27)
  deriving DecidableEq, Repr

/-- A source operand of a short form with its last-use hint (02:R43, R50). -/
structure S1 where
  o : Opnd
  last : Bool
  deriving DecidableEq, Repr

/-- The last source of a short form: register form or immediate form FB:B (02:R43, R45). -/
inductive RI where
  | reg (b : S1)
  | imm (i : BitVec 8)
  deriving DecidableEq, Repr

/-- The second source of `lea` (05:R113). -/
inductive LeaB where
  | i32 (b : S1)
  | n32 (b : S1)
  | i64 (b : S1)
  | imm (i : BitVec 8)
  deriving DecidableEq, Repr

/-- Type and second source of a floating-point member (06:R130). -/
inductive FSrc where
  | f32 (b : S1)
  | bf16 (b : S1)
  | f16 (b : S1)
  | lit (i : BitVec 8)
  deriving DecidableEq, Repr

/-- Type of `fabs` and `fneg` (06:R132). -/
inductive FTy where
  | f32
  | bf16
  | f16
  deriving DecidableEq, Repr

/-- Hint of a long form's source (02:R50). -/
inductive Hint where
  | none
  | keep
  | last
  deriving DecidableEq, Repr

/-- A hinted source operand of a long form (02:R44). -/
structure Hs where
  o : Opnd
  h : Hint
  deriving DecidableEq, Repr

/-- Scoreboard counter and lookahead of a long form (02:R44, R52, R53). -/
structure Lf where
  sb : BitVec 2
  la : BitVec 4
  deriving DecidableEq, Repr

/-- A memory operand: base, optional index with its scale code 1 to 5, offset, scope and order (09:R193). -/
structure MemOp where
  a : Hs
  idx : Option (Hs × BitVec 3)
  ofs : BitVec 7
  sco : BitVec 3
  ord : BitVec 2
  deriving DecidableEq, Repr

/-- Where a run-control query comes from: the hold `rcq` has requested, or the head of command ring `n` (14:R343, R345). -/
inductive QSrc where
  | hold (id : Nat)
  | ring (n : Nat)
  deriving DecidableEq, Repr

/-- One access of the host or of a peer to device memory: `n` bytes at a physical address (10:R239, 18:R414, R421). -/
inductive ExtAcc where
  | read (n : Nat)
  | write (bytes : List Byte) (release : Bool)
  deriving DecidableEq, Repr

/-- What system software sets for the device: a setting at its offset (18:R433), or what it sets through a structure of its own, with the words
that it writes there (DESIGN CHOICE, log 101: no row of their own). -/
inductive SysReg where
  /-- its value -/
  | setting (offset : Nat)
  /-- the key pair of a KEY, eight words, the lowest first (08:R179) -/
  | keyPair (key : BitVec 10)
  /-- a window of a peer port: base, length, KEY, write-enable in bit 0; length 0 takes it away (18:R421) -/
  | window (port num : Nat)
  /-- the KEY of the host's decoder range (18:R414) -/
  | decoderKey
  /-- base, records (15:R371) -/
  | spillTable
  /-- base, bytes (16:R392) -/
  | savePool
  /-- the address of the control block of the delegation ring, of the event ring (16:R401) -/
  | delegRing
  | eventRing
  deriving DecidableEq, Repr

/-- What the host writes, with the words that it writes there (DESIGN CHOICE, log 101: no row of their own). -/
inductive HostReg where
  /-- a register of BAR0 (18:R415) -/
  | bar0 (offset : Nat)
  /-- an entry of the MSI-X vector table: address; data, and above bit 32 the mask (18:R416; PRESUMED, log 102) -/
  | msixEntry (vector : Nat)
  /-- message control of MSI-X: enable in bit 15, function mask in bit 14 (18:R416; PRESUMED, log 102) -/
  | msixControl
  /-- the base of the HDM decoder (18:R414) -/
  | decoderBase
  deriving DecidableEq, Repr

/-- The place where an uncorrectable error is found (03:R78, R79, 08:R180, R190). -/
inductive ErrSite where
  /-- a half of a v register copy (lane given) -/
  | vcopy (gang : Nat) (access : Bool) (reg lane : Nat) (high : Bool)
  /-- a half of an s register copy -/
  | scopy (gang : Nat) (access : Bool) (reg : Nat) (high : Bool)
  /-- a parity-protected register, by its number in the detail of 16:R380, and its lane where each lane has its own -/
  | parity (gang : Nat) (access : Bool) (num lane : Nat)
  /-- a global line, by memory type and line number -/
  | line (mt line : Nat)
  /-- an 8-byte word of a group's scratchpad, operand buffer (1) or accumulator store (2) -/
  | pool (group kind word : Nat)
  /-- a correctable error of a line of a home slice, of a line of an HBM stack, or of a register copy: corrected in place and counted -/
  | sliceFixed (slice : Nat)
  | stackFixed (stack : Nat)
  | copyFixed (gang : Nat) (access : Bool)
  deriving DecidableEq, Repr

/-- One constructor per row of the opcode table. -/
inductive Instr where
  -- page A (05)
  | add (p : Pfx) (u : Bool) (d : Opnd) (a : S1) (b : RI)
  | sub (p : Pfx) (u : Bool) (d : Opnd) (a : S1) (b : RI)
  | mul (p : Pfx) (u : Bool) (d : Opnd) (a : S1) (b : RI)
  | mulhi (p : Pfx) (u : Bool) (d : Opnd) (a : S1) (b : RI)
  | mad (p : Pfx) (u : Bool) (d : Opnd) (a : S1) (b : RI)
  | madhi (p : Pfx) (u : Bool) (d : Opnd) (a : S1) (b : RI)
  | neg (p : Pfx) (w : Bool) (d : Opnd) (a : S1)
  | abs (p : Pfx) (w : Bool) (d : Opnd) (a : S1)
  | min (p : Pfx) (u : Bool) (d : Opnd) (a : S1) (b : RI)
  | max (p : Pfx) (u : Bool) (d : Opnd) (a : S1) (b : RI)
  | lea (p : Pfx) (d : Opnd) (a : S1) (b : LeaB)
  | shl (p : Pfx) (d : Opnd) (a : S1) (b : RI)
  | shr (p : Pfx) (d : Opnd) (a : S1) (b : RI)
  | sra (p : Pfx) (d : Opnd) (a : S1) (b : RI)
  | rotl (p : Pfx) (d : Opnd) (a : S1) (b : RI)
  | and (p : Pfx) (d : Opnd) (a : S1) (b : RI)
  | or (p : Pfx) (d : Opnd) (a : S1) (b : RI)
  | xor (p : Pfx) (d : Opnd) (a : S1) (b : RI)
  | andn (p : Pfx) (d : Opnd) (a : S1) (b : RI)
  | not (p : Pfx) (d : Opnd) (a : S1)
  | clz (p : Pfx) (d : Opnd) (a : S1)
  | ctz (p : Pfx) (d : Opnd) (a : S1)
  | popc (p : Pfx) (d : Opnd) (a : S1)
  | brev (p : Pfx) (d : Opnd) (a : S1)
  | bfx (p : Pfx) (d : Opnd) (a b : S1)
  | bfi (p : Pfx) (d : Opnd) (a b : S1)
  | cmp (p : Pfx) (u : Bool) (c n : BitVec 3) (a : S1) (b : RI)
  | sel (p : Pfx) (d : Opnd) (a : S1) (x : Bool) (n : BitVec 3)
  | selImm (p : Pfx) (d : Opnd) (x : Bool) (n : BitVec 3) (i : BitVec 8)
  | mov (p : Pfx) (w : Bool) (d : Opnd) (a : S1)
  | li (p : Pfx) (w : Bool) (d : Opnd) (i : BitVec 8)
  | cvt (p : Pfx) (pk : BitVec 3) (d : Opnd) (a : S1) (t s : BitVec 4)
  | req (p : Pfx) (w : Bool) (d : Opnd) (a b : S1)
  | pack4 (p : Pfx) (d : Opnd) (a b : S1)
  | unpack4 (p : Pfx) (q4 : Bool) (d : Opnd) (a : S1)
  | dot4 (p : Pfx) (n8 : Bool) (d : Opnd) (a b : S1)
  -- page B, ALU (06)
  | fadd (p : Pfx) (d : Opnd) (a : S1) (b : FSrc)
  | fsub (p : Pfx) (d : Opnd) (a : S1) (b : FSrc)
  | fmul (p : Pfx) (d : Opnd) (a : S1) (b : FSrc)
  | ffma (p : Pfx) (d : Opnd) (a : S1) (b : FSrc)
  | fmin (p : Pfx) (d : Opnd) (a : S1) (b : FSrc)
  | fmax (p : Pfx) (d : Opnd) (a : S1) (b : FSrc)
  | fabs (p : Pfx) (t : FTy) (d : Opnd) (a : S1)
  | fneg (p : Pfx) (t : FTy) (d : Opnd) (a : S1)
  | fcmp (p : Pfx) (c n : BitVec 3) (a : S1) (b : FSrc)
  | fcls (p : Pfx) (y n : BitVec 3) (a : S1) (b : RI)
  | rcp (p : Pfx) (d : Opnd) (a : S1)
  | rsq (p : Pfx) (d : Opnd) (a : S1)
  | sqrt (p : Pfx) (d : Opnd) (a : S1)
  | exp2 (p : Pfx) (d : Opnd) (a : S1)
  | log2 (p : Pfx) (d : Opnd) (a : S1)
  | sin (p : Pfx) (d : Opnd) (a : S1)
  | cos (p : Pfx) (d : Opnd) (a : S1)
  | tanh (p : Pfx) (d : Opnd) (a : S1)
  | rng (p : Pfx) (f : Bool) (d : Opnd)
  | shflIdx (p : Pfx) (d : Opnd) (a b : S1)
  | shflUp (p : Pfx) (d : Opnd) (a b : S1)
  | shflDown (p : Pfx) (d : Opnd) (a b : S1)
  | shflXor (p : Pfx) (d : Opnd) (a b : S1)
  | vote (p : Pfx) (m n : BitVec 3) (x : Bool) (k : BitVec 3)
  | voteBallot (p : Pfx) (d : Opnd) (x : Bool) (k : BitVec 3)
  | red (p : Pfx) (t : BitVec 2) (o : BitVec 3) (d : Opnd) (a : S1)
  | scan (p : Pfx) (t : BitVec 2) (e : Bool) (o : BitVec 3) (d : Opnd) (a : S1)
  | bcast (p : Pfx) (d : Opnd) (a : S1) (n : BitVec 8)
  | bcastNib (p : Pfx) (d : Opnd) (a : S1)
  -- page B, CTL (07)
  | br (p : Pfx) (i : BitVec 8)
  | bk (p : Pfx) (m : BitVec 3) (x : Bool) (n : BitVec 3) (i : BitVec 8)
  | bs (p : Pfx) (c : BitVec 3) (a : S1) (i : BitVec 8)
  | call (p : Pfx) (d : Opnd) (i : BitVec 8)
  | ret (p : Pfx) (a : S1)
  | jmpr (p : Pfx) (link : Option Opnd) (a : S1)
  | exit (p : Pfx)
  | enrol (p : Pfx) (n : BitVec 3)
  | park (p : Pfx) (n : BitVec 3)
  | strike (p : Pfx) (n : BitVec 3)
  | yld (p : Pfx)
  | nop (p : Pfx)
  | wait (p : Pfx) (all fence : Bool) (sb : BitVec 4)
  -- MEM (09)
  | ld (p : Pfx) (l : Lf) (n : BitVec 3) (d : Opnd) (m : MemOp)
  | ldToQueue (p : Pfx) (l : Lf) (n : BitVec 3) (q : BitVec 3) (m : MemOp)
  | st (p : Pfx) (l : Lf) (n : BitVec 3) (m : MemOp) (b : Hs)
  | lds (p : Pfx) (l : Lf) (n : BitVec 2) (d : Opnd) (m : MemOp)
  | sts (p : Pfx) (l : Lf) (n : BitVec 2) (m : MemOp) (b : Hs)
  | cp (p : Pfx) (l : Lf) (n : BitVec 2) (d a : Opnd) (b : Hs) (cv : BitVec 3)
  | pref (p : Pfx) (l : Lf) (slice : Bool) (m : MemOp)
  | cln (p : Pfx) (l : Lf) (toMem : Bool) (m : MemOp)
  | atom (p : Pfx) (l : Lf) (n : BitVec 2) (op : BitVec 7) (d : Opnd) (m : MemOp) (b : Hs)
  | acas (p : Pfx) (l : Lf) (w : Bool) (d : Opnd) (m : MemOp) (b c : Hs)
  | ared (p : Pfx) (l : Lf) (f : Bool) (op : BitVec 7) (m : MemOp) (b : Hs)
  | waitv (p : Pfx) (l : Lf) (w : Bool) (d : Opnd) (m : MemOp) (b : Hs)
  | notify1 (p : Pfx) (l : Lf) (m : MemOp)
  | notifyall (p : Pfx) (l : Lf) (m : MemOp)
  | fence (p : Pfx) (l : Lf) (sco : BitVec 3) (ord : BitVec 2)
  -- MTX (11)
  | fmtres (p : Pfx) (l : Lf) (fmt : BitVec 4) (swz : BitVec 2) (blk : Bool) (d : Opnd) (a : Hs)
  | fmtrel (p : Pfx) (l : Lf) (a : Hs)
  | mld (p : Pfx) (l : Lf) (scl : Bool) (d : Opnd) (a b c : Hs)
  | mldT (p : Pfx) (l : Lf) (scl : Bool) (d : Opnd) (a b c : Hs)
  | mso (p : Pfx) (l : Lf) (scl : Bool) (d : Opnd) (a b c : Hs)
  | mrd (p : Pfx) (l : Lf) (w : BitVec 2) (t : BitVec 7) (d : Opnd) (a : Hs)
  | mclr (p : Pfx) (l : Lf) (st : Bool) (t : BitVec 7)
  | mmac (p : Pfx) (l : Lf) (a b : Hs)
  | mmacI (p : Pfx) (l : Lf) (a b : Hs)
  | mqnt (p : Pfx) (l : Lf) (t : BitVec 7) (e4 sat col : Bool) (a b c : Hs)
  | spick (p : Pfx) (l : Lf) (a b c : Hs)
  | mstat (p : Pfx) (l : Lf) (keep : Bool) (t : BitVec 7) (d : Opnd)
  -- QUE (12, 13)
  | qset (p : Pfx) (l : Lf) (q : BitVec 3) (depth : BitVec 5)
  | qpeek (p : Pfx) (l : Lf) (q : BitVec 3) (d : Opnd)
  | qdrain (p : Pfx) (l : Lf) (q : BitVec 3) (d : Option Opnd)
  | qcount (p : Pfx) (l : Lf) (q : BitVec 3) (sel : BitVec 2) (d : Opnd)
  | qtokTest (p : Pfx) (l : Lf) (q : BitVec 3) (k : BitVec 3)
  | qtokTake (p : Pfx) (l : Lf) (q : BitVec 3) (d : Opnd)
  | spawn (p : Pfx) (l : Lf) (pw : BitVec 4) (a c : Hs)
  | tokput (p : Pfx) (l : Lf) (pw : BitVec 4) (a b c : Hs)
  | dset (p : Pfx) (l : Lf) (d : Opnd) (a b c : Hs)
  | dget (p : Pfx) (l : Lf) (d : Opnd) (a b : Hs)
  | refill (p : Pfx) (l : Lf)
  | itemfin (p : Pfx) (l : Lf)
  | ddrain (p : Pfx) (l : Lf) (a b : Hs)
  | dspill (p : Pfx) (l : Lf) (a b c : Hs)
  -- SYS (14, 15, 16, 17)
  | rcq (p : Pfx) (l : Lf) (d : Opnd) (a : Hs)
  | rcrd (p : Pfx) (l : Lf) (sel : BitVec 3) (acc : Bool) (d : Opnd) (a : Hs)
  | famset (p : Pfx) (l : Lf) (d : Opnd)
  | capo (p : Pfx) (l : Lf) (a : Hs) (i : BitVec 15)
  | capx (p : Pfx) (l : Lf)
  | bar (p : Pfx) (l : Lf) (cnt : BitVec 6) (pair : Bool) (n : BitVec 4)
  | barr (p : Pfx) (l : Lf) (cnt : BitVec 6) (pair : Bool) (n : BitVec 4) (d : Opnd)
  | barw (p : Pfx) (l : Lf) (pair : Bool) (n : BitVec 4) (a : Hs)
  | trapSoft (p : Pfx) (l : Lf) (code : BitVec 12) (a : Option Hs)
  | trapLink (p : Pfx) (l : Lf) (a : Hs)
  | trapGst (p : Pfx) (l : Lf) (mask : BitVec 8)
  | tret (p : Pfx) (l : Lf)
  | tdel (p : Pfx) (l : Lf) (a : Option Hs)
  | sysrd (p : Pfx) (l : Lf) (n : BitVec 8) (d : Opnd)
  | syswr (p : Pfx) (l : Lf) (n : BitVec 8) (a : Hs)
  | brk (p : Pfx) (l : Lf) (code : BitVec 12)
  | pmrd (p : Pfx) (l : Lf) (n : BitVec 2) (sel : BitVec 4) (clr : Bool) (d : Opnd)
  | pmset (p : Pfx) (l : Lf) (n : BitVec 2) (a : Hs)
  | tick (p : Pfx) (l : Lf) (w : Bool) (d : Opnd)
  | enrd (p : Pfx) (l : Lf) (sel : BitVec 2) (d : Opnd)
  -- events (spec/95)
  | clauseBegin (gang : Nat) (access : Bool)
  | longFormComplete (op lat : Nat)
  | queueLoadFill (req : Nat)
  | copyLineLands (op : Nat)
  | matrixOpComplete (op : Nat)
  | homeSliceAct (req : Nat)
  | writeBufferDrain (entry : Nat)
  | promotion (req : Nat)
  | pageWalk (core owner : Nat) (va : DWord) (write : Bool)
  | strokeCommit (gang : Nat)
  | absentLineWake (gang : Nat) (access : Bool)
  | allotmentFill (group line : Nat)
  | accessContextEnd (gang : Nat)
  | trapEntry (gang : Nat) (access : Bool)
  | permitBackoffExpiry (gang : Nat) (access : Bool)
  | directDelegation (gang : Nat) (access : Bool)
  | doubleTrap (gang : Nat) (access : Bool)
  | retry (entry : Nat)
  | skip (entry : Nat)
  | endRes (entry : Nat)
  | queryStop (src : QSrc)
  | queryStep (src : QSrc)
  | queryResume (src : QSrc)
  | queryKill (src : QSrc)
  | queryRead (src : QSrc)
  | queryWrite (src : QSrc)
  | deferredStepClause (gang : Nat) (access : Bool)
  | launchRecordTake (ring : Nat)
  | rootDuneEnqueue (launch cluster : Nat)
  | rootDuneFiring (launch cluster core : Nat)
  | duneFiring (cluster core : Nat)
  | driftExpiry (launch dune : Nat)
  | starving (launch dune : Nat)
  | finalDrain (launch : Nat)
  | ringItemMove (launch dune : Nat)
  | launchCompletion (launch : Nat)
  | launchEndEarly (launch cause : Nat)
  | evictRequest (gang : Nat)
  | evictionDelay (gang : Nat)
  | absentLineLimit (gang : Nat)
  | gangRestore (gang core : Nat)
  | queueDeadlockLimit (gang : Nat)
  | gangAgeing (gang : Nat) (access : Bool)
  | spinDemotion (gang : Nat)
  | referenceTick (cluster : Nat)
  | clusterEnergyAdvance (cluster : Nat)
  | deviceEnergyAdvance
  | currentReservationGrant (cluster : Nat)
  | peerTimeout (req : Nat)
  | peerAccess (port : Nat) (addr : Nat) (acc : ExtAcc)
  | hostAccess (addr : Nat) (acc : ExtAcc)
  | tail (ring : Nat) (t : DWord)
  | rstat (ring : Nat) (w : DWord)
  | ringConfigure (ring : Nat) (cfg : DWord) (owner : Option (Nat × BitVec 10))
  | ringDisable (ring : Nat) (cfg : DWord)
  | deviceSettingWrite (r : SysReg) (w : List DWord)
  | registerWrite (r : HostReg) (w : List DWord)
  | attestation
  | recoveryProgramming
  | attestationDone (ok : Bool)
  | mlogExtend (d : BitVec 256)
  | fuseBlow (n : Nat)
  | deviceReset
  | tlbInvalidation (owner : Nat) (lo hi : DWord)
  | icacheInvalidation (lo hi : Nat)
  | pendingEventPost
  | uncorrectableError (e : ErrSite)
  | contextStoreError (gang : Nat) (access : Bool)
  | hostWriteAcknowledgement (entry : Nat)
  | peerLinkDown (port : Nat)
  | peerLinkUp (port : Nat)
  | flitCrcRetry (port : Nat)
  | functionLevelReset
  | duneRingFaultResolution (launch dune : Nat)
  deriving DecidableEq, Repr

end Sys2Proof
end

