-- ==== Sys2Proof/WellFormed.lean ====
section
/-! DEFINITION. The reasons of INSN (02:R62), the operands each instruction uses, the MOD and IMM fields it accepts, and
`Instr.static`: the reasons for which an instruction's own fields make it ill-formed, whatever kernel holds it. -/

namespace Sys2Proof

/-- Reasons of cause group INSN (02:R62, 07:R158, 11:R256, 12:R298, 13:R313, 14:R345, 15:R369, 16:R382). -/
inductive Reason where
  | badHeader | headerReserved | badClass | emptyClause | streamMismatch | classMismatch | transferNotLast
  | shortClause | orphanPrefix | prefixOrder | prefixKind | modReserved | modNotAccepted | immNotAccepted
  | hint11 | hintOnPort | absentOperand | unassignedForm | unassignedOpcode | poisonRead | reservedField
  | notInAccess | parkNotLast | matrixOperand | queueSide | duneOperand | queryNotLast | capsuleClause | trapReturn
  deriving DecidableEq, Repr

/-- The number of a reason, reported in the detail words (02:R62). -/
def Reason.code : Reason → Nat
  | .badHeader => 1 | .headerReserved => 2 | .badClass => 3 | .emptyClause => 4 | .streamMismatch => 5
  | .classMismatch => 6 | .transferNotLast => 7 | .shortClause => 8 | .orphanPrefix => 9 | .prefixOrder => 10
  | .prefixKind => 11 | .modReserved => 12 | .modNotAccepted => 13 | .immNotAccepted => 14 | .hint11 => 15
  | .hintOnPort => 16 | .absentOperand => 17 | .unassignedForm => 18 | .unassignedOpcode => 19
  | .poisonRead => 20 | .reservedField => 21 | .notInAccess => 22 | .parkNotLast => 23 | .matrixOperand => 24
  | .queueSide => 25 | .duneOperand => 26 | .queryNotLast => 27 | .capsuleClause => 28 | .trapReturn => 29

/-- The lowest of several reasons (02:R63). -/
def Reason.lowest : List Reason → Option Reason
  | [] => none
  | r :: rs => match Reason.lowest rs with
    | none => some r
    | some q => if q.code < r.code then some q else some r

/-- The classes of instructions and clauses (02:R38, R56). -/
inductive Cls where
  | alu | mem | mtx | que | ctl | sys | mix
  deriving DecidableEq, Repr

/-- The 7-bit code of an operand (02:R49). -/
def Opnd.code : Opnd → BitVec 7
  | .v n => 0#1 ++ n
  | .s n => BitVec.ofNat 7 (0x40 + n.val)
  | .c n => 0b1110#4 ++ n
  | .q n => 0b1111#4 ++ n

/-- Whether an operand is a q port. -/
def Opnd.isQ : Opnd → Bool
  | .q _ => true
  | _ => false
/-- Whether an operand is a capsule register. -/
def Opnd.isC : Opnd → Bool
  | .c _ => true
  | _ => false
/-- Whether an operand is a v register. -/
def Opnd.isV : Opnd → Bool
  | .v _ => true
  | _ => false
/-- Whether an operand is an s register. -/
def Opnd.isS : Opnd → Bool
  | .s _ => true
  | _ => false
/-- Whether an operand has a code of 0x70 to 0x7F (02:R50). -/
def Opnd.isPort (o : Opnd) : Bool := o.isQ || o.isC

/-- What an instruction does with an operand: reads it, writes it, or reads and then writes it (02:R43). -/
inductive Role where
  | src | dst | both
  deriving DecidableEq, Repr

/-- Which operands a field admits, and the reason given to the others. -/
inductive Allow where
  /-- pages A and B: v, s, c and q; no c or q for a pair or quad, no q for an operand read and written (05:R108, 15:R355) -/
  | any
  /-- as `any`, but a q port raises reason 21 (06:R140) -/
  | noPort
  /-- v or s, or a q port; c registers in strokes only (09:R191, R200, 15:R355, R357) -/
  | data
  /-- v or s; else reason 17 (09:R196, R204, 13:R313); a c register only as the address of `ld` and `st` in a stroke -/
  | addr
  /-- v or s; else reason 21 (11:R255, 12:R291, 16:R387) -/
  | plain
  /-- v; else reason 21 (06:R145, 11:R268, 12:R293, 14:R347) -/
  | vOnly
  /-- v; else reason 17 (12:R296) -/
  | v17
  /-- s; else reason 21 (07:R149) -/
  | sOnly
  deriving DecidableEq, Repr

/-- One operand of an instruction as it uses it. -/
structure Use where
  o : Opnd
  /-- registers covered -/
  n : Nat
  role : Role
  allow : Allow
  /-- last-use hint -/
  last : Bool
  /-- a last-use or keep hint -/
  hinted : Bool
  /-- only bits [15:0] are read (03:R78) -/
  low : Bool
  /-- the first register must be a multiple of `n` (02:R49) -/
  aligned : Bool
  deriving DecidableEq, Repr

namespace Use
def dst (o : Opnd) (n : Nat) (allow : Allow := .any) : Use :=
  ⟨o, n, .dst, allow, false, false, false, true⟩
def both (o : Opnd) (n : Nat) (low : Bool := false) : Use :=
  ⟨o, n, .both, .any, false, false, low, true⟩
/-- a source of a short form -/
def s1 (a : S1) (n : Nat := 1) (low : Bool := false) (allow : Allow := .any) : Use :=
  ⟨a.o, n, .src, allow, a.last, a.last, low, true⟩
/-- a hinted source of a long form -/
def hs (a : Hs) (n : Nat) (allow : Allow) (low : Bool := false) : Use :=
  ⟨a.o, n, .src, allow, decide (a.h = .last), decide (a.h ≠ .none), low, true⟩
/-- a source without hint field -/
def src (o : Opnd) (n : Nat) (allow : Allow) : Use :=
  ⟨o, n, .src, allow, false, false, false, true⟩
end Use

/-- Sources of an RI operand. -/
def RI.uses (low : Bool := false) : RI → List Use
  | .reg b => [.s1 b 1 low]
  | .imm _ => []
/-- Sources of the second operand of `lea` (05:R113). -/
def LeaB.uses : LeaB → List Use
  | .i32 b | .n32 b => [.s1 b]
  | .i64 b => [.s1 b 2]
  | .imm _ => []
/-- Whether a floating-point operand type is of 16 bits. -/
def FSrc.half : FSrc → Bool
  | .bf16 _ | .f16 _ => true
  | _ => false
/-- Sources of a floating-point second operand (06:R130). -/
def FSrc.uses : FSrc → List Use
  | .f32 b => [.s1 b]
  | .bf16 b | .f16 b => [.s1 b 1 true]
  | .lit _ => []
/-- Whether `fabs` and `fneg` read a 16-bit type. -/
def FTy.half : FTy → Bool
  | .f32 => false
  | _ => true

/-- Words of an element type code of `cvt` (05:R121, R122). -/
def cvtWords (t : BitVec 4) : Nat := if t = 6#4 ∨ t = 7#4 then 2 else 1
/-- Whether a type code names a type of 16 bits or fewer. -/
def cvtLow (t : BitVec 4) : Bool :=
  match t.toNat with
  | 4 | 5 | 6 | 7 | 8 => false
  | _ => true
/-- Registers of the source and of the destination of a `cvt` form (05:R122). -/
def cvtShape (pk : BitVec 3) (t s : BitVec 4) : Nat × Nat :=
  match pk.toNat with
  | 0 => (cvtWords s, cvtWords t)
  | 1 => (2, 1)
  | 2 => (1, 2)
  | 3 => (4, 1)
  | _ => (1, 4)

/-- Uses of a memory operand with a base of `n` registers (09:R191). -/
def MemOp.uses (m : MemOp) (n : Nat) : List Use :=
  [.hs m.a n .addr]
/-- The index of a memory operand: read, or popped, after A and B (09:R196). -/
def MemOp.idxUse (m : MemOp) : List Use :=
  match m.idx with
  | none => []
  | some (c, _) => [.hs c 1 .data]

/-- Registers of a load of member `n` (09:R199). -/
def ldWords (n : BitVec 3) : Nat := match n.toNat with | 5 => 2 | 6 => 4 | _ => 1
/-- Registers of a store of member `n` (09:R200). -/
def stWords (n : BitVec 3) : Nat := match n.toNat with | 3 => 2 | 4 => 4 | _ => 1
/-- Registers a system register number transfers, for an operand (03:R73, 16:R398). -/
def sysWords (n : BitVec 8) (o : Opnd) : Nat :=
  match n.toNat with
  | 0x02 | 0x06 | 0x09 | 0x0B | 0x0C => 2
  | k => if 0x10 ≤ k ∧ k < 0x20 ∧ o.isS then 2 else 1
/-- Payload registers of `spawn` and `tokput` (13:R314). -/
def payUses (pw : BitVec 4) (c : Hs) : List Use :=
  if pw = 0#4 then [] else
  [⟨c.o, min pw.toNat 8, .src, .addr, decide (c.h = .last), decide (c.h ≠ .none), false, false⟩]

/-- The operands an instruction uses: sources in the order in which q ports are popped (05:R108: A before B; 09:R196:
the index last), then the destination. -/
def Instr.uses : Instr → List Use
  | .add _ _ d a b | .sub _ _ d a b | .mul _ _ d a b | .mulhi _ _ d a b | .min _ _ d a b | .max _ _ d a b =>
      .s1 a :: b.uses ++ [.dst d 1]
  | .mad _ _ d a b | .madhi _ _ d a b => .s1 a :: b.uses ++ [.both d 1]
  | .neg _ w d a | .abs _ w d a | .mov _ w d a =>
      let n := if w then 2 else 1
      [.s1 a n, .dst d n]
  | .lea _ d a b => .s1 a 2 :: b.uses ++ [.dst d 2]
  | .shl _ d a b | .shr _ d a b | .sra _ d a b | .rotl _ d a b | .and _ d a b | .or _ d a b | .xor _ d a b
  | .andn _ d a b => .s1 a :: b.uses ++ [.dst d 1]
  | .not _ d a | .clz _ d a | .ctz _ d a | .popc _ d a | .brev _ d a => [.s1 a, .dst d 1]
  | .bfx _ d a b => [.s1 a, .s1 b 1 true, .dst d 1]
  | .bfi _ d a b => [.s1 a, .s1 b 1 true, .both d 1]
  | .cmp _ _ _ _ a b => .s1 a :: b.uses
  | .sel _ d a _ _ => [.s1 a, .dst d 1]
  | .selImm _ d _ _ _ => [.dst d 1]
  | .li _ w d _ => [.dst d (if w then 2 else 1)]
  | .cvt _ pk d a t s =>
      let sh := cvtShape pk t s
      [.s1 a sh.1 (cvtLow s && decide (pk.toNat ≠ 2 ∧ pk.toNat ≠ 4)), .dst d sh.2]
  | .req _ _ d a b => [.s1 a, .s1 b 2, .dst d 1]
  | .pack4 _ d a b => [.s1 a, .s1 b, .dst d 1]
  | .unpack4 _ _ d a => [.s1 a, .dst d 2]
  | .dot4 _ _ d a b => [.s1 a, .s1 b, .both d 1]
  | .fadd _ d a b | .fsub _ d a b | .fmul _ d a b | .fmin _ d a b | .fmax _ d a b =>
      .s1 a 1 b.half :: b.uses ++ [.dst d 1]
  | .ffma _ d a b => .s1 a 1 b.half :: b.uses ++ [.both d 1 b.half]
  | .fabs _ t d a | .fneg _ t d a => [.s1 a 1 t.half, .dst d 1]
  | .fcmp _ _ _ a b => .s1 a 1 b.half :: b.uses
  | .fcls _ y _ a b => .s1 a 1 (decide (y ≠ 0#3)) :: b.uses true
  | .rcp _ d a | .rsq _ d a | .sqrt _ d a | .exp2 _ d a | .log2 _ d a | .sin _ d a | .cos _ d a | .tanh _ d a =>
      [.s1 a, .dst d 1]
  | .rng _ _ d => [.dst d 1]
  | .shflIdx _ d a b | .shflUp _ d a b | .shflDown _ d a b | .shflXor _ d a b =>
      [.s1 a 1 false .noPort, .s1 b, .dst d 1]
  | .vote .. => []
  | .voteBallot _ d _ _ => [.dst d 2]
  | .red _ _ _ d a => [.s1 a, .dst d 1]
  | .scan _ _ _ _ d a => [.s1 a, .dst d 1 .vOnly]
  | .bcast _ d a _ | .bcastNib _ d a => [.s1 a 1 false .noPort, .dst d 1]
  | .br .. | .bk .. | .exit .. | .enrol .. | .park .. | .strike .. | .yld .. | .nop .. | .wait .. => []
  | .bs _ _ a _ => [.s1 a 1 false .sOnly]
  | .call _ d _ => [.dst d 2]
  | .ret _ a => [.s1 a 2]
  | .jmpr _ link a => .s1 a 2 :: (match link with | none => [] | some d => [.dst d 2])
  | .ld _ _ n d m => m.uses 2 ++ m.idxUse ++ [.dst d (ldWords n) .data]
  | .ldToQueue _ _ _ q m => m.uses 2 ++ m.idxUse ++ [.dst (.q q) 1 .data]
  | .st _ _ n m b => m.uses 2 ++ [.hs b (stWords n) .data (decide (n.toNat < 2))] ++ m.idxUse
  | .lds _ _ n d m => m.uses 1 ++ m.idxUse ++ [.dst d (if n = 3#2 then 2 else 1) .data]
  | .sts _ _ n m b => m.uses 1 ++ [.hs b (if n = 3#2 then 2 else 1) .data (decide (n.toNat < 2))] ++ m.idxUse
  | .cp _ _ n d a b _ =>
      [.src a (if n = 0#2 ∨ n = 3#2 then 2 else 1) .addr, .hs b 1 .addr,
       .src d (if n = 1#2 ∨ n = 3#2 then 2 else 1) .addr]
  | .pref _ _ _ m | .cln _ _ _ m => m.uses 2 ++ m.idxUse
  | .atom _ _ n _ d m b =>
      let w := if n = 1#2 then 2 else 1
      m.uses 2 ++ [.hs b w .data] ++ m.idxUse ++ [.dst d w .data]
  | .acas _ _ w d m b c =>
      let w := if w then 2 else 1
      m.uses 2 ++ [.hs b w .data, .hs c w .data] ++ m.idxUse ++ [.dst d w .data]
  | .ared _ _ f op m b => m.uses 2 ++ [.hs b (if !f && op.getLsbD 5 then 2 else 1) .data] ++ m.idxUse
  | .waitv _ _ w d m b =>
      let w := if w then 2 else 1
      m.uses 2 ++ [.hs b w .data] ++ m.idxUse ++ [.dst d w .data]
  | .notify1 _ _ m | .notifyall _ _ m => m.uses 2 ++ m.idxUse
  | .fence .. => []
  | .fmtres _ _ _ _ _ d a => [.hs a 1 .plain, .dst d 1 .plain]
  | .fmtrel _ _ a => [.hs a 1 .plain]
  | .mld _ _ _ d a b c | .mldT _ _ _ d a b c | .mso _ _ _ d a b c =>
      [.hs a 1 .plain, .hs b 2 .plain, .hs c 1 .plain, .src d 1 .plain]
  | .mrd _ _ w _ d a => [.hs a 1 .plain, .dst d (2 ^ (w.toNat % 3)) .vOnly]
  | .mclr .. => []
  | .mmac _ _ a b | .mmacI _ _ a b => [.hs a 1 .plain, .hs b 1 .plain]
  | .mqnt _ _ _ _ _ _ a b c | .spick _ _ a b c => [.hs a 1 .plain, .hs b 1 .plain, .hs c 1 .plain]
  | .mstat _ _ _ _ d => [.dst d 2 .plain]
  | .qset .. => []
  | .qpeek _ _ _ d => [.dst d 1 .vOnly]
  | .qdrain _ _ _ d => match d with | none => [] | some d => [.dst d 1 .plain]
  | .qcount _ _ _ _ d => [.dst d 1 .plain]
  | .qtokTest .. => []
  | .qtokTake _ _ _ d => [.dst d 4 .v17]
  | .spawn _ _ pw a c => .hs a 2 .addr :: payUses pw c
  | .tokput _ _ pw a b c => .hs a 2 .addr :: .hs b 1 .addr :: payUses pw c
  | .dset _ _ d a b c => [.hs a 2 .addr, .hs b 1 .addr, .hs c 2 .addr, .dst d 1 .addr]
  | .dget _ _ d a b => [.hs a 2 .addr, .hs b 1 .addr, .dst d 4 .addr]
  | .refill .. | .itemfin .. => []
  | .ddrain _ _ a b => [.hs a 2 .addr, .hs b 1 .addr]
  | .dspill _ _ a b c => [.hs a 2 .addr, .hs b 1 .addr, .hs c 2 .addr]
  | .rcq _ _ d a => [.hs a 1 .plain, .dst d 1 .plain]
  | .rcrd _ _ _ _ d a => [.hs a 2 .plain, .dst d 2 .plain]
  | .famset _ _ d => [.dst d 1 .vOnly]
  | .capo _ _ a _ => [.hs a 2 .addr]
  | .capx .. | .bar .. => []
  | .barr _ _ _ _ _ d => [.dst d 1 .plain]
  | .barw _ _ _ _ a => [.hs a 1 .plain]
  | .trapSoft _ _ _ a => match a with | none => [] | some a => [.hs a 2 .plain]
  | .trapLink _ _ a => [.hs a 2 .plain]
  | .trapGst .. | .tret .. => []
  | .tdel _ _ a => match a with | none => [] | some a => [.hs a 1 .plain]
  | .sysrd _ _ n d => [.dst d (sysWords n d) .plain]
  | .syswr _ _ n a => [.hs a (sysWords n a.o) .plain]
  | .brk .. => []
  | .pmrd _ _ _ _ _ d => [.dst d 2 .plain]
  | .pmset _ _ _ a => [.hs a 1 .plain]
  | .tick _ _ w d => [.dst d (if w then 2 else 1) .plain]
  | .enrd _ _ _ d => [.dst d 2 .plain]
  | _ => []

/-- The prefixes of an instruction (02:R48); events have none. -/
def Instr.pfx : Instr → Pfx
  | .add p .. | .sub p .. | .mul p .. | .mulhi p .. | .mad p .. | .madhi p .. | .neg p .. | .abs p .. | .min p ..
  | .max p .. | .lea p .. | .shl p .. | .shr p .. | .sra p .. | .rotl p .. | .and p .. | .or p .. | .xor p ..
  | .andn p .. | .not p .. | .clz p .. | .ctz p .. | .popc p .. | .brev p .. | .bfx p .. | .bfi p .. | .cmp p ..
  | .sel p .. | .selImm p .. | .mov p .. | .li p .. | .cvt p .. | .req p .. | .pack4 p .. | .unpack4 p ..
  | .dot4 p .. | .fadd p .. | .fsub p .. | .fmul p .. | .ffma p .. | .fmin p .. | .fmax p .. | .fabs p ..
  | .fneg p .. | .fcmp p .. | .fcls p .. | .rcp p .. | .rsq p .. | .sqrt p .. | .exp2 p .. | .log2 p .. | .sin p ..
  | .cos p .. | .tanh p .. | .rng p .. | .shflIdx p .. | .shflUp p .. | .shflDown p .. | .shflXor p .. | .vote p ..
  | .voteBallot p .. | .red p .. | .scan p .. | .bcast p .. | .bcastNib p .. | .br p .. | .bk p .. | .bs p ..
  | .call p .. | .ret p .. | .jmpr p .. | .exit p | .enrol p .. | .park p .. | .strike p .. | .yld p | .nop p
  | .wait p .. | .ld p .. | .ldToQueue p .. | .st p .. | .lds p .. | .sts p .. | .cp p .. | .pref p .. | .cln p ..
  | .atom p .. | .acas p .. | .ared p .. | .waitv p .. | .notify1 p .. | .notifyall p .. | .fence p ..
  | .fmtres p .. | .fmtrel p .. | .mld p .. | .mldT p .. | .mso p .. | .mrd p .. | .mclr p .. | .mmac p ..
  | .mmacI p .. | .mqnt p .. | .spick p .. | .mstat p .. | .qset p .. | .qpeek p .. | .qdrain p .. | .qcount p ..
  | .qtokTest p .. | .qtokTake p .. | .spawn p .. | .tokput p .. | .dset p .. | .dget p .. | .refill p ..
  | .itemfin p .. | .ddrain p .. | .dspill p .. | .rcq p .. | .rcrd p .. | .famset p .. | .capo p .. | .capx p ..
  | .bar p .. | .barr p .. | .barw p .. | .trapSoft p .. | .trapLink p .. | .trapGst p .. | .tret p .. | .tdel p ..
  | .sysrd p .. | .syswr p .. | .brk p .. | .pmrd p .. | .pmset p .. | .tick p .. | .enrd p .. => p
  | _ => ⟨none, none⟩

/-- The class of an instruction (02:R56); events have none. -/
def Instr.cls : Instr → Option Cls
  | .add .. | .sub .. | .mul .. | .mulhi .. | .mad .. | .madhi .. | .neg .. | .abs .. | .min .. | .max .. | .lea ..
  | .shl .. | .shr .. | .sra .. | .rotl .. | .and .. | .or .. | .xor .. | .andn .. | .not .. | .clz .. | .ctz ..
  | .popc .. | .brev .. | .bfx .. | .bfi .. | .cmp .. | .sel .. | .selImm .. | .mov .. | .li .. | .cvt .. | .req ..
  | .pack4 .. | .unpack4 .. | .dot4 .. | .fadd .. | .fsub .. | .fmul .. | .ffma .. | .fmin .. | .fmax .. | .fabs ..
  | .fneg .. | .fcmp .. | .fcls .. | .rcp .. | .rsq .. | .sqrt .. | .exp2 .. | .log2 .. | .sin .. | .cos ..
  | .tanh .. | .rng .. | .shflIdx .. | .shflUp .. | .shflDown .. | .shflXor .. | .vote .. | .voteBallot .. | .red ..
  | .scan .. | .bcast .. | .bcastNib .. => some .alu
  | .br .. | .bk .. | .bs .. | .call .. | .ret .. | .jmpr .. | .exit .. | .enrol .. | .park .. | .strike .. | .yld ..
  | .nop .. | .wait .. => some .ctl
  | .ld .. | .ldToQueue .. | .st .. | .lds .. | .sts .. | .cp .. | .pref .. | .cln .. | .atom .. | .acas .. | .ared ..
  | .waitv .. | .notify1 .. | .notifyall .. | .fence .. => some .mem
  | .fmtres .. | .fmtrel .. | .mld .. | .mldT .. | .mso .. | .mrd .. | .mclr .. | .mmac .. | .mmacI .. | .mqnt ..
  | .spick .. | .mstat .. => some .mtx
  | .qset .. | .qpeek .. | .qdrain .. | .qcount .. | .qtokTest .. | .qtokTake .. | .spawn .. | .tokput .. | .dset ..
  | .dget .. | .refill .. | .itemfin .. | .ddrain .. | .dspill .. => some .que
  | .rcq .. | .rcrd .. | .famset .. | .capo .. | .capx .. | .bar .. | .barr .. | .barw .. | .trapSoft .. | .trapLink ..
  | .trapGst .. | .tret .. | .tdel .. | .sysrd .. | .syswr .. | .brk .. | .pmrd .. | .pmset .. | .tick ..
  | .enrd .. => some .sys
  | _ => none

/-- Whether an instruction is a transfer (02:R41). -/
def Instr.isTransfer : Instr → Bool
  | .br .. | .bk .. | .bs .. | .call .. | .ret .. | .jmpr .. | .exit .. => true
  | _ => false

/-- The scoreboard counter and lookahead of a long form (02:R44). -/
def Instr.lf : Instr → Option Lf
  | .ld _ l .. | .ldToQueue _ l .. | .st _ l .. | .lds _ l .. | .sts _ l .. | .cp _ l .. | .pref _ l .. | .cln _ l ..
  | .atom _ l .. | .acas _ l .. | .ared _ l .. | .waitv _ l .. | .notify1 _ l .. | .notifyall _ l .. | .fence _ l ..
  | .fmtres _ l .. | .fmtrel _ l .. | .mld _ l .. | .mldT _ l .. | .mso _ l .. | .mrd _ l .. | .mclr _ l ..
  | .mmac _ l .. | .mmacI _ l .. | .mqnt _ l .. | .spick _ l .. | .mstat _ l .. | .qset _ l .. | .qpeek _ l ..
  | .qdrain _ l .. | .qcount _ l .. | .qtokTest _ l .. | .qtokTake _ l .. | .spawn _ l .. | .tokput _ l ..
  | .dset _ l .. | .dget _ l .. | .refill _ l .. | .itemfin _ l .. | .ddrain _ l .. | .dspill _ l .. | .rcq _ l ..
  | .rcrd _ l .. | .famset _ l .. | .capo _ l .. | .capx _ l .. | .bar _ l .. | .barr _ l .. | .barw _ l ..
  | .trapSoft _ l .. | .trapLink _ l .. | .trapGst _ l .. | .tret _ l .. | .tdel _ l .. | .sysrd _ l ..
  | .syswr _ l .. | .brk _ l .. | .pmrd _ l .. | .pmset _ l .. | .tick _ l .. | .enrd _ l .. => some l
  | _ => none

/-- The MOD and IMM fields an instruction accepts. -/
structure Acc where
  rnd : Bool
  sat : Bool
  pe : Bool
  flo : Bool
  im : Bool
  deriving DecidableEq, Repr

/-- Whether an RI operand is in the immediate form. -/
def RI.isImm : RI → Bool
  | .imm _ => true
  | .reg _ => false
/-- Whether a second operand of `lea` is in the immediate form. -/
def LeaB.isImm : LeaB → Bool
  | .imm _ => true
  | _ => false
/-- Whether a floating-point second operand is in the immediate form. -/
def FSrc.isImm : FSrc → Bool
  | .lit _ => true
  | _ => false

/-- What each instruction accepts (05:R109, 06:R129, R147, 07:R150, R149, 09:R195, 11:R255, 12:R291, 13:R313, 15:R369,
R370, R373, 16:R387; 14:R345 to R347 give `rcq`, `rcrd` and `famset` no list, and the rules of their class are taken). -/
def Instr.acc : Instr → Acc
  | .add _ _ _ _ b | .sub _ _ _ _ b | .mul _ _ _ _ b | .mad _ _ _ _ b => ⟨false, true, true, false, b.isImm⟩
  | .neg .. | .abs .. | .pack4 .. | .dot4 .. => ⟨false, true, true, false, false⟩
  | .mulhi _ _ _ _ b | .madhi _ _ _ _ b | .min _ _ _ _ b | .max _ _ _ _ b | .shl _ _ _ b | .shr _ _ _ b
  | .sra _ _ _ b | .rotl _ _ _ b | .and _ _ _ b | .or _ _ _ b | .xor _ _ _ b | .andn _ _ _ b | .cmp _ _ _ _ _ b
  | .fcls _ _ _ _ b => ⟨false, false, true, false, b.isImm⟩
  | .lea _ _ _ b => ⟨false, false, true, false, b.isImm⟩
  | .selImm .. | .li .. => ⟨false, false, true, false, true⟩
  | .cvt _ _ _ _ t _ => ⟨true, decide (t.toNat ≤ 7 ∨ t = 11#4 ∨ t = 13#4), true, false, false⟩
  | .req .. | .rcp .. | .sqrt .. => ⟨true, false, true, false, false⟩
  | .fadd _ _ _ b | .fsub _ _ _ b | .fmul _ _ _ b | .ffma _ _ _ b => ⟨true, false, true, false, b.isImm⟩
  | .fmin _ _ _ b | .fmax _ _ _ b | .fcmp _ _ _ _ b => ⟨false, false, true, false, b.isImm⟩
  | .red _ t o _ _ | .scan _ t _ o _ _ =>
      let f := decide (t = 2#2 ∧ o = 0#3)
      ⟨f, decide (t.toNat < 2 ∧ o = 0#3), true, f, false⟩
  | .br .. | .bk .. | .bs .. | .call .. => ⟨false, false, false, false, true⟩
  | .ret .. | .jmpr .. | .yld .. | .nop .. | .wait .. | .capx .. => ⟨false, false, false, false, false⟩
  | .ld .. | .ldToQueue .. | .st .. | .lds .. | .sts .. | .pref .. | .cln .. | .atom .. | .acas .. | .ared ..
  | .waitv .. | .notify1 .. | .notifyall .. => ⟨false, false, true, false, true⟩
  | _ => ⟨false, false, true, false, false⟩

/-- Reasons 12, 13 and 14 of an instruction's prefixes (02:R46, R47). -/
def Pfx.reasons (p : Pfx) (a : Acc) : List Reason :=
  (match p.md with
   | none => []
   | some m =>
     (if 6 ≤ m.rnd.toNat then [.modReserved] else []) ++
     (if (decide (m.rnd ≠ 0#3) && !a.rnd) || (m.sat && !a.sat) || (m.pe && !a.pe) || (m.flo && !a.flo)
      then [.modNotAccepted] else [])) ++
  (match p.im with
   | none => []
   | some _ => if a.im then [] else [.immNotAccepted])

/-- Reasons 16, 17 and 21 of one operand, without reference to a kernel's register counts and queues. The destination of scan that is not a v
register has reason 21, a c register and a q port too (06:R145; DEDUCED, log 108). A c register in a matrix instruction has reason 21 as a q
port does there (11:R255; DESIGN CHOICE, log 123). -/
def Use.reasons (stroke : Bool) (u : Use) : List Reason :=
  (if u.hinted && u.o.isPort then [.hintOnPort] else []) ++
  (match u.allow with
   | .any => if u.o.isPort && (decide (u.n > 1)) || (u.o.isQ && decide (u.role = .both)) then [.absentOperand] else []
   | .noPort => if u.o.isQ then [.reservedField] else []
   | .data => if (u.o.isPort && decide (u.n > 1)) || (u.o.isC && !stroke) then [.absentOperand] else []
   | .addr => if u.o.isQ || (u.o.isC && !stroke) then [.absentOperand] else []
   | .plain => if u.o.isPort then [.reservedField] else []
   | .vOnly => if u.o.isV then [] else [.reservedField]
   | .v17 => if u.o.isV then [] else [.absentOperand]
   | .sOnly => if u.o.isS then [] else [.reservedField]) ++
  (match u.o with
   | .v k => if (u.aligned && decide (k.toNat % u.n ≠ 0)) || decide (k.toNat + u.n > 64) then [.absentOperand] else []
   | .s k => if (u.aligned && decide (k.val % u.n ≠ 0)) || decide (k.val + u.n > 48) then [.absentOperand] else []
   | _ => [])

/-- Whether a scope and an order may stand in an instruction that accepts the orders `ords` and, with an order, scopes
up to `top` (09:R194). -/
def MemOp.orderOk (sco : BitVec 3) (ord : BitVec 2) (ords : List Nat) (top : Nat) : Bool :=
  ords.contains ord.toNat &&
  (if ord = 0#2 then decide (sco = 0#3)
   else decide (sco.toNat ≤ top) && (decide (sco.toNat < 5) || decide (ord = 1#2) || decide (ord = 3#2)))

/-- Whether the index of a memory operand is legal (09:R193, R194). -/
def MemOp.idxOk (m : MemOp) (may : Bool) : Bool :=
  match m.idx with
  | none => true
  | some (_, sc) => may && decide (1 ≤ sc.toNat ∧ sc.toNat ≤ 5)

def MemOp.ok (m : MemOp) (ords : List Nat) (top : Nat) (may : Bool) : Bool :=
  MemOp.orderOk m.sco m.ord ords top && m.idxOk may

/-- The operations of `atom` and `ared` by member (09:R210). -/
def atomOpOk (int : Bool) (exch : Bool) (op : BitVec 7) : Bool :=
  let o := op.toNat % 16
  !op.getLsbD 6 &&
  (if int then decide (o ≤ 5 ∨ (o = 6 ∧ exch)) else decide (o ≤ 2 ∨ (o = 6 ∧ exch))) &&
  (!op.getLsbD 4 || (int && decide (o = 1 ∨ o = 2)))

/-- Whether a system register number is listed, and whether an operand may name it (03:R73, 16:R398). -/
def sysOk (n : BitVec 8) (o : Opnd) (read : Bool) : Bool :=
  let k := n.toNat
  (decide (k ≤ 6 ∨ (8 ≤ k ∧ k ≤ 13) ∨ (0x10 ≤ k ∧ k < 0x20))) &&
  !(decide (0x10 ≤ k) && o.isV) && !(read && o.isS && decide (k = 9 ∨ k = 10 ∨ k = 12))

/-- Whether a `cvt` form's type codes are within its limits (05:R121, R122). -/
def cvtOk (pk : BitVec 3) (t s : BitVec 4) : Bool :=
  let w16 (x : Nat) := decide (x = 2 ∨ x = 3 ∨ x = 9 ∨ x = 10)
  let w8 (x : Nat) := decide (x = 0 ∨ x = 1 ∨ x = 11 ∨ x = 12)
  let w64 (x : Nat) := decide (x = 6 ∨ x = 7)
  let t := t.toNat
  let s := s.toNat
  decide (t ≤ 13 ∧ s ≤ 13) &&
  (match pk.toNat with
   | 1 => w16 t && !w64 s
   | 2 => w16 s && !w64 t
   | 3 => w8 t && !w64 s
   | 4 => w8 s && !w64 t
   | _ => true)

/-- Field limits of an instruction's own encoding: reason 18 (02:R61) and reason 21, each entry's own. -/
def Instr.fieldReasons : Instr → List Reason :=
  let r (b : Bool) : List Reason := if b then [] else [.reservedField]
  fun
  | .cvt _ pk _ _ t s => (if pk.toNat ≤ 4 then [] else [.unassignedForm]) ++ r (cvtOk pk t s)
  | .fcls _ y _ _ _ => r (decide (y.toNat ≤ 2))
  | .vote _ m _ _ _ => r (decide (m.toNat ≤ 2))
  | .red _ t o _ _ | .scan _ t _ o _ _ =>
      r (if t = 3#2 then decide (3 ≤ o.toNat ∧ o.toNat ≤ 5) else decide (o.toNat ≤ 2))
  | .bk _ m _ _ _ => r (decide (m.toNat ≤ 2))
  | .bs _ c _ _ => r (decide (c.toNat ≤ 5))
  | .ld _ _ n d m => (if n.toNat ≤ 6 then [] else [.unassignedForm]) ++ r (m.ok [0, 1] 6 true && !d.isQ)
  | .ldToQueue _ _ n _ m =>
      (if n.toNat ≤ 6 then [] else [.unassignedForm]) ++ r (m.ok [0] 0 true && decide (n.toNat ≤ 4))
  | .st _ _ n m _ => (if n.toNat ≤ 4 then [] else [.unassignedForm]) ++ r (m.ok [0, 2] 4 true)
  | .lds _ _ _ d m => r (m.ok [0, 1] 2 true && !d.isQ)
  | .sts _ _ _ m _ => r (m.ok [0, 2] 2 true)
  | .cp _ _ _ _ _ _ cv => r (decide (cv ≠ 7#3))
  | .pref _ _ _ m | .cln _ _ _ m => r (m.ok [0] 0 true)
  | .atom _ _ n op _ m _ =>
      r (m.ok [0, 1, 2, 3] 6 false && !op.getLsbD 5 && atomOpOk (decide (n.toNat < 2)) true op)
  | .acas _ _ _ _ m _ _ => r (m.ok [0, 1, 2, 3] 6 false)
  | .ared _ _ f op m _ => r (m.ok [0, 2] 4 false && atomOpOk (!f) false op)
  | .waitv _ _ _ _ m _ => r (m.ok [0, 1] 6 false)
  | .notify1 _ _ m | .notifyall _ _ m => r (m.ok [0, 2] 4 false)
  | .fence _ _ sco ord => r (MemOp.orderOk sco ord [1, 2, 3] 6)
  | .fmtres _ _ f sw _ _ _ => r (decide (1 ≤ f.toNat ∧ f.toNat ≤ 6) && decide (sw ≠ 3#2))
  | .mrd _ _ w _ _ _ => r (decide (w ≠ 3#2))
  | .mqnt _ _ _ e4 sat _ _ _ _ => r (e4 || !sat)
  | .qset _ _ _ n => r (decide (n ≠ 0#5))
  | .qcount _ _ _ k _ => r (decide (k ≠ 3#2))
  | .spawn _ _ pw _ c | .tokput _ _ pw _ _ c =>
      (if pw.toNat ≤ 8 then [] else [.duneOperand]) ++
      r (decide (pw ≠ 0#4) || decide (c = ⟨.v 0#6, .none⟩))
  | .rcrd _ _ k _ _ _ => r (decide (k.toNat ≤ 2))
  | .bar _ _ n _ _ | .barr _ _ n _ _ _ => r (decide (n.toNat ≤ 32))
  | .sysrd _ _ n d => r (sysOk n d true)
  | .syswr _ _ n a => r (sysOk n a.o false)
  | .pmrd _ _ _ k _ _ => r (decide (k.toNat ≤ 12))
  | .enrd _ _ k _ => r (decide (k ≠ 3#2))
  | _ => []

/-- Whether the row is an event of the machine and not an instruction word. -/
def Instr.isEvent (i : Instr) : Bool := i.cls.isNone

/-- The uses of an instruction in its clause: in a stroke the address of `ld` and `st` is a single register, of which the clause's own rules
admit c registers alone (15:R356, R357). -/
def Instr.usesIn (stroke : Bool) (i : Instr) : List Use :=
  match i, stroke with
  | .ld .., true | .ldToQueue .., true | .st .., true => (match i.uses with | [] => [] | u :: us => { u with n := 1, allow := .data } :: us)
  | _, _ => i.uses

/-- The reasons for which an instruction's own fields make it ill-formed; `stroke` is the clause's CAP bit, since `ld`
and `st` name c registers in a capsule stroke (15:R355, R357). -/
def Instr.static (stroke : Bool) (i : Instr) : List Reason :=
  i.pfx.reasons i.acc ++ ((i.usesIn stroke).map (Use.reasons (stroke && (match i with | .ld .. | .ldToQueue .. | .st .. => true | _ => false)))).flatten
    ++ i.fieldReasons

/-- A well-formed instruction: no field of it raises a reason, in a plain clause or in a stroke. -/
def Instr.wf (i : Instr) : Bool :=
  !i.isEvent && ((i.static false).isEmpty || ((i.static true).isEmpty && i.uses.all (·.o.isC)))

end Sys2Proof
end

