-- ==== Sys2Proof/Decode.lean ====
section
/-! DEFINITION. Decoding, total on any words and bytes (02:R36, R43 to R50, R57 to R63), and the encoder written from
the same tables. `decodeRaw` gives the instruction and every reason its words carry; `decode` rejects by reason. -/

namespace Sys2Proof

/-- The fields of a short form (02:R43). -/
structure Short where
  page : Bool
  op : BitVec 7
  d : BitVec 7
  fa : Bool
  a : BitVec 7
  fb : Bool
  b : BitVec 7
  deriving DecidableEq, Repr

/-- The fields of a long form (02:R44). -/
structure Long where
  op : BitVec 7
  d : BitVec 7
  a : BitVec 7
  b : BitVec 7
  sb : BitVec 2
  la : BitVec 4
  ha : BitVec 2
  hb : BitVec 2
  hc : BitVec 2
  c : BitVec 7
  imm : BitVec 15
  deriving DecidableEq, Repr

/-- Fields of a short word (02:R43). -/
def Short.ofWord (w : Word) : Short :=
  { page := w.getLsbD 30, op := w.extractLsb' 23 7, d := w.extractLsb' 16 7, fa := w.getLsbD 15,
    a := w.extractLsb' 8 7, fb := w.getLsbD 7, b := w.extractLsb' 0 7 }

/-- The short word of fields (02:R43). -/
def Short.toWord (f : Short) : Word :=
  0#1 ++ BitVec.ofBool f.page ++ f.op ++ f.d ++ BitVec.ofBool f.fa ++ f.a ++ BitVec.ofBool f.fb ++ f.b

/-- Fields of the two words of a long form (02:R44). -/
def Long.ofWords (w0 w1 : Word) : Long :=
  { op := w0.extractLsb' 23 7, d := w0.extractLsb' 16 7, a := w0.extractLsb' 9 7, b := w0.extractLsb' 2 7,
    sb := w0.extractLsb' 0 2, la := w1.extractLsb' 28 4, ha := w1.extractLsb' 26 2, hb := w1.extractLsb' 24 2,
    hc := w1.extractLsb' 22 2, c := w1.extractLsb' 15 7, imm := w1.extractLsb' 0 15 }

/-- Word 0 of a long form (02:R44). -/
def Long.word0 (f : Long) : Word := 0b10#2 ++ f.op ++ f.d ++ f.a ++ f.b ++ f.sb
/-- Word 1 of a long form (02:R44). -/
def Long.word1 (f : Long) : Word := f.la ++ f.ha ++ f.hb ++ f.hc ++ f.c ++ f.imm

/-- The operand of a 7-bit code (02:R49). -/
def Opnd.ofCode (x : BitVec 7) : Opnd :=
  if h : x.toNat < 0x40 then .v (BitVec.ofNat 6 x.toNat)
  else if h2 : x.toNat < 0x70 then .s ⟨x.toNat - 0x40, by omega⟩
  else if x.toNat < 0x78 then .c (BitVec.ofNat 3 (x.toNat - 0x70))
  else .q (BitVec.ofNat 3 (x.toNat - 0x78))

/-- A hint of two bits; 11 has reason 15 of its own (02:R50). -/
def Hint.ofBits (h : BitVec 2) : Hint :=
  match h.toNat with
  | 1 => .keep
  | 2 => .last
  | _ => .none
def Hint.bits : Hint → BitVec 2
  | .none => 0#2
  | .keep => 1#2
  | .last => 2#2

/-- Reason 21 unless the condition holds (02:R61). -/
def zr (b : Bool) : List Reason := if b then [] else [.reservedField]
/-- Reason 15 of a hint field (02:R50). -/
def hr (h : BitVec 2) : List Reason := if h = 3#2 then [.hint11] else []

namespace Short
def D (f : Short) : Opnd := .ofCode f.d
def A (f : Short) : S1 := ⟨.ofCode f.a, f.fa⟩
def B (f : Short) : S1 := ⟨.ofCode f.b, f.fb⟩
/-- FB:B as an immediate (02:R45). -/
def i8 (f : Short) : BitVec 8 := BitVec.ofBool f.fb ++ f.b
/-- Register or immediate form by bit 0 of the opcode. -/
def ri (f : Short) : RI := if f.op.getLsbD 0 then .imm f.i8 else .reg f.B
def lo (f : Short) : Bool := f.op.getLsbD 0
def hi (f : Short) : Bool := f.op.getLsbD 1
/-- [6:4] and [2:0] of D, as in `cmp` (05:R118). -/
def d64 (f : Short) : BitVec 3 := f.d.extractLsb' 4 3
def d20 (f : Short) : BitVec 3 := f.d.extractLsb' 0 3
/-- D [3] zero. -/
def zD3 (f : Short) : List Reason := zr (!f.d.getLsbD 3)
def zB (f : Short) : List Reason := zr (decide (f.b = 0#7) && !f.fb)
def zA (f : Short) : List Reason := zr (decide (f.a = 0#7) && !f.fa)
def zD (f : Short) : List Reason := zr (decide (f.d = 0#7))
/-- Floating-point type and second source by the member number (06:R130). -/
def fsrc (f : Short) : FSrc :=
  match f.hi, f.lo with
  | false, false => .f32 f.B
  | false, true => .bf16 f.B
  | true, false => .f16 f.B
  | true, true => .lit f.i8
/-- Type of `fabs` and `fneg` (06:R132). -/
def fty (f : Short) : FTy := if f.lo then (if f.b.getLsbD 0 then .f16 else .bf16) else .f32
def zFty (f : Short) : List Reason :=
  zr (!f.fb && (if f.lo then decide (f.b.extractLsb' 1 6 = 0#6) else decide (f.b = 0#7)))
/-- Second source of `lea` (05:R113). -/
def leaB (f : Short) : LeaB :=
  match f.hi, f.lo with
  | false, false => .i32 f.B
  | false, true => .n32 f.B
  | true, false => .i64 f.B
  | true, true => .imm f.i8
/-- A predicate named in a field: [6:4] zero, [3] negate, [2:0] number (05:R119). -/
def zPred (x : BitVec 7) : List Reason := zr (decide (x.extractLsb' 4 3 = 0#3))
end Short

/-- What the words of an instruction are (02:R57 to R61). -/
inductive Fate where
  /-- an instruction, with the reasons that its words give and its constructor does not hold -/
  | instr (i : Instr) (raw : List Reason)
  /-- no instruction, for reason 18 or 19 -/
  | unassigned (c : Cls) (r : Reason)
  /-- an opcode of an EMULATE range (02:R60) -/
  | emulate
  deriving DecidableEq, Repr

/-- Page A (02:R57, 05). -/
def decodeA (p : Pfx) (f : Short) : Fate :=
  match f.op.toNat with
  | 0x00 | 0x01 | 0x02 | 0x03 => .instr (.add p f.hi f.D f.A f.ri) []
  | 0x04 | 0x05 | 0x06 | 0x07 => .instr (.sub p f.hi f.D f.A f.ri) []
  | 0x08 | 0x09 | 0x0A | 0x0B => .instr (.mul p f.hi f.D f.A f.ri) []
  | 0x0C | 0x0D | 0x0E | 0x0F => .instr (.mulhi p f.hi f.D f.A f.ri) []
  | 0x10 | 0x11 | 0x12 | 0x13 => .instr (.mad p f.hi f.D f.A f.ri) []
  | 0x14 | 0x15 | 0x16 | 0x17 => .instr (.madhi p f.hi f.D f.A f.ri) []
  | 0x1C | 0x1D | 0x1E | 0x1F => .instr (.min p f.hi f.D f.A f.ri) []
  | 0x20 | 0x21 | 0x22 | 0x23 => .instr (.max p f.hi f.D f.A f.ri) []
  | 0x18 | 0x19 => .instr (.neg p f.lo f.D f.A) f.zB
  | 0x1A | 0x1B => .instr (.abs p f.lo f.D f.A) f.zB
  | 0x24 | 0x25 | 0x26 | 0x27 => .instr (.lea p f.D f.A f.leaB) []
  | 0x40 | 0x41 => .instr (.shl p f.D f.A f.ri) []
  | 0x42 | 0x43 => .instr (.shr p f.D f.A f.ri) []
  | 0x44 | 0x45 => .instr (.sra p f.D f.A f.ri) []
  | 0x46 | 0x47 => .instr (.rotl p f.D f.A f.ri) []
  | 0x48 | 0x49 => .instr (.and p f.D f.A f.ri) []
  | 0x4A | 0x4B => .instr (.or p f.D f.A f.ri) []
  | 0x4C | 0x4D => .instr (.xor p f.D f.A f.ri) []
  | 0x4E | 0x4F => .instr (.andn p f.D f.A f.ri) []
  | 0x50 => .instr (.not p f.D f.A) f.zB
  | 0x51 => .instr (.clz p f.D f.A) f.zB
  | 0x52 => .instr (.ctz p f.D f.A) f.zB
  | 0x53 => .instr (.popc p f.D f.A) f.zB
  | 0x54 => .instr (.brev p f.D f.A) f.zB
  | 0x55 => .instr (.bfx p f.D f.A f.B) []
  | 0x56 => .instr (.bfi p f.D f.A f.B) []
  | 0x60 | 0x61 | 0x62 | 0x63 => .instr (.cmp p f.hi f.d64 f.d20 f.A f.ri) f.zD3
  | 0x64 => .instr (.sel p f.D f.A (f.b.getLsbD 3) (f.b.extractLsb' 0 3)) (zr (!f.fb) ++ Short.zPred f.b)
  | 0x65 => .instr (.selImm p f.D (f.a.getLsbD 3) (f.a.extractLsb' 0 3) f.i8) (zr (!f.fa) ++ Short.zPred f.a)
  | 0x66 | 0x67 => .instr (.mov p f.lo f.D f.A) f.zB
  | 0x68 | 0x69 => .instr (.li p f.lo f.D f.i8) f.zA
  | 0x70 | 0x71 | 0x72 | 0x73 | 0x74 => .instr (.cvt p (f.op.extractLsb' 0 3) f.D f.A (f.i8.extractLsb' 4 4) (f.i8.extractLsb' 0 4)) []
  | 0x75 | 0x76 | 0x77 => .unassigned .alu .unassignedForm
  | 0x78 | 0x79 => .instr (.req p f.lo f.D f.A f.B) []
  | 0x7A => .instr (.pack4 p f.D f.A f.B) []
  | 0x7B => .instr (.unpack4 p (f.b.getLsbD 0) f.D f.A) (zr (!f.fb && decide (f.b.extractLsb' 1 6 = 0#6)))
  | 0x7C | 0x7D => .instr (.dot4 p f.lo f.D f.A f.B) []
  | _ => .emulate

/-- Page B (02:R58, 06, 07). -/
def decodeB (p : Pfx) (f : Short) : Fate :=
  match f.op.toNat with
  | 0x00 | 0x01 | 0x02 | 0x03 => .instr (.fadd p f.D f.A f.fsrc) []
  | 0x04 | 0x05 | 0x06 | 0x07 => .instr (.fsub p f.D f.A f.fsrc) []
  | 0x08 | 0x09 | 0x0A | 0x0B => .instr (.fmul p f.D f.A f.fsrc) []
  | 0x0C | 0x0D | 0x0E | 0x0F => .instr (.ffma p f.D f.A f.fsrc) []
  | 0x10 | 0x11 | 0x12 | 0x13 => .instr (.fmin p f.D f.A f.fsrc) []
  | 0x14 | 0x15 | 0x16 | 0x17 => .instr (.fmax p f.D f.A f.fsrc) []
  | 0x18 | 0x19 => .instr (.fabs p f.fty f.D f.A) f.zFty
  | 0x1A | 0x1B => .instr (.fneg p f.fty f.D f.A) f.zFty
  | 0x1C | 0x1D | 0x1E | 0x1F => .instr (.fcmp p f.d64 f.d20 f.A f.fsrc) f.zD3
  | 0x20 | 0x21 => .instr (.fcls p f.d64 f.d20 f.A f.ri) f.zD3
  | 0x22 => .instr (.rcp p f.D f.A) f.zB
  | 0x23 => .instr (.rsq p f.D f.A) f.zB
  | 0x24 => .instr (.sqrt p f.D f.A) f.zB
  | 0x25 => .instr (.exp2 p f.D f.A) f.zB
  | 0x26 => .instr (.log2 p f.D f.A) f.zB
  | 0x27 => .instr (.sin p f.D f.A) f.zB
  | 0x28 => .instr (.cos p f.D f.A) f.zB
  | 0x29 => .instr (.tanh p f.D f.A) f.zB
  | 0x40 | 0x41 => .instr (.rng p f.lo f.D) (f.zA ++ f.zB)
  | 0x42 => .instr (.shflIdx p f.D f.A f.B) []
  | 0x43 => .instr (.shflUp p f.D f.A f.B) []
  | 0x44 => .instr (.shflDown p f.D f.A f.B) []
  | 0x45 => .instr (.shflXor p f.D f.A f.B) []
  | 0x46 => .instr (.vote p f.d64 f.d20 (f.a.getLsbD 3) (f.a.extractLsb' 0 3)) (f.zD3 ++ Short.zPred f.a ++ zr (!f.fa) ++ f.zB)
  | 0x47 => .instr (.voteBallot p f.D (f.a.getLsbD 3) (f.a.extractLsb' 0 3)) (Short.zPred f.a ++ zr (!f.fa) ++ f.zB)
  | 0x48 | 0x49 | 0x4A | 0x4B => 
      .instr (.red p (f.op.extractLsb' 0 2) (f.b.extractLsb' 0 3) f.D f.A) (zr (!f.fb && decide (f.b.extractLsb' 3 4 = 0#4)))
  | 0x4C | 0x4D | 0x4E | 0x4F => 
      .instr (.scan p (f.op.extractLsb' 0 2) (f.b.getLsbD 3) (f.b.extractLsb' 0 3) f.D f.A)
        (zr (!f.fb && decide (f.b.extractLsb' 4 3 = 0#3)))
  | 0x50 => .instr (.bcast p f.D f.A f.i8) []
  | 0x51 => .instr (.bcastNib p f.D f.A) f.zB
  | 0x58 => .instr (.br p f.i8) (f.zD ++ f.zA)
  | 0x59 => .instr (.bk p f.d64 (f.d.getLsbD 3) f.d20 f.i8) f.zA
  | 0x5A => .instr (.bs p f.d64 f.A f.i8) (zr (decide (f.d.extractLsb' 0 4 = 0#4)))
  | 0x5B => .instr (.call p f.D f.i8) f.zA
  | 0x5C => .instr (.ret p f.A) (f.zD ++ f.zB)
  | 0x5D => 
      .instr (.jmpr p (if f.b.getLsbD 0 then some f.D else none) f.A)
        (zr (!f.fb && decide (f.b.extractLsb' 1 6 = 0#6)) ++ (if f.b.getLsbD 0 then [] else f.zD))
  | 0x5E => .instr (.exit p) (f.zD ++ f.zA ++ f.zB)
  | 0x5F => .instr (.enrol p f.d20) (zr (decide (f.d.extractLsb' 3 4 = 0#4)) ++ f.zA ++ f.zB)
  | 0x60 => .instr (.park p f.d20) (zr (decide (f.d.extractLsb' 3 4 = 0#4)) ++ f.zA ++ f.zB)
  | 0x61 => .instr (.strike p f.d20) (zr (decide (f.d.extractLsb' 3 4 = 0#4)) ++ f.zA ++ f.zB)
  | 0x62 => .instr (.yld p) (f.zD ++ f.zA ++ f.zB)
  | 0x63 => .instr (.nop p) (f.zD ++ f.zA ++ f.zB)
  | 0x64 => 
      .instr (.wait p (f.b.getLsbD 5) (f.b.getLsbD 4) (f.b.extractLsb' 0 4)) (f.zD ++ f.zA ++ zr (!f.fb && !f.b.getLsbD 6))
  | 0x65 | 0x66 | 0x67 | 0x68 | 0x69 | 0x6A | 0x6B | 0x6C | 0x6D | 0x6E | 0x6F => .unassigned .ctl .unassignedOpcode
  | _ => .emulate

namespace Long
def D (f : Long) : Opnd := .ofCode f.d
def A (f : Long) : Hs := ⟨.ofCode f.a, .ofBits f.ha⟩
def B (f : Long) : Hs := ⟨.ofCode f.b, .ofBits f.hb⟩
def C (f : Long) : Hs := ⟨.ofCode f.c, .ofBits f.hc⟩
def l (f : Long) : Lf := ⟨f.sb, f.la⟩
def lo (f : Long) : Bool := f.op.getLsbD 0
/-- Fields declared zero, with the hint of each operand field (02:R44, R61). -/
def zD (f : Long) : List Reason := zr (decide (f.d = 0#7))
def zA (f : Long) : List Reason := zr (decide (f.a = 0#7)) ++ zr (decide (f.ha = 0#2))
def zB (f : Long) : List Reason := zr (decide (f.b = 0#7)) ++ zr (decide (f.hb = 0#2))
def zC (f : Long) : List Reason := zr (decide (f.c = 0#7)) ++ zr (decide (f.hc = 0#2))
/-- A hint 11 in any of the three fields (02:R50). -/
def h3 (f : Long) : List Reason := hr f.ha ++ hr f.hb ++ hr f.hc
/-- Bits n and up of IMM zero. -/
def zI (f : Long) (n : Nat) : List Reason := zr (decide (f.imm.toNat < 2 ^ n))
def i (f : Long) (lo w : Nat) : BitVec w := f.imm.extractLsb' lo w
def bit (f : Long) (n : Nat) : Bool := f.imm.getLsbD n
/-- The memory operand with an index (09:R193). -/
def mem (f : Long) : MemOp :=
  { a := f.A, idx := if f.i 0 3 = 0#3 then none else some (f.C, f.i 0 3), ofs := f.i 8 7, sco := f.i 5 3, ord := f.i 3 2 }
def zMem (f : Long) : List Reason := if f.i 0 3 = 0#3 then f.zC else []
/-- The memory operand of an instruction that takes no index (09:R194). -/
def mem0 (f : Long) : MemOp := { a := f.A, idx := none, ofs := f.i 8 7, sco := f.i 5 3, ord := f.i 3 2 }
def zMem0 (f : Long) : List Reason := zr (decide (f.i 0 3 = 0#3))
/-- B[6:1] zero and HB zero, for `pref` and `cln` (09:R208). -/
def zB1 (f : Long) : List Reason := zr (decide (f.b.extractLsb' 1 6 = 0#6)) ++ zr (decide (f.hb = 0#2))
end Long

/-- The long map (02:R59, 09, 11 to 17). -/
def decodeL (p : Pfx) (f : Long) : Fate :=
  let ok (i : Instr) (raw : List Reason) : Fate := .instr i (f.h3 ++ raw)
  match f.op.toNat with
  | 0x00 | 0x01 | 0x02 | 0x03 | 0x04 | 0x05 | 0x06 => 
      match f.D with
      | .q q => ok (.ldToQueue p f.l (f.op.extractLsb' 0 3) q f.mem) (f.zB ++ f.zMem)
      | d => ok (.ld p f.l (f.op.extractLsb' 0 3) d f.mem) (f.zB ++ f.zMem)
  | 0x07 => .unassigned .mem .unassignedForm
  | 0x08 | 0x09 | 0x0A | 0x0B | 0x0C => ok (.st p f.l (f.op.extractLsb' 0 3) f.mem f.B) (f.zD ++ f.zMem)
  | 0x0D | 0x0E | 0x0F => .unassigned .mem .unassignedForm
  | 0x10 | 0x11 | 0x12 | 0x13 => ok (.lds p f.l (f.op.extractLsb' 0 2) f.D f.mem) (f.zB ++ f.zMem)
  | 0x14 | 0x15 | 0x16 | 0x17 => ok (.sts p f.l (f.op.extractLsb' 0 2) f.mem f.B) (f.zD ++ f.zMem)
  | 0x18 | 0x19 | 0x1A | 0x1B => ok (.cp p f.l (f.op.extractLsb' 0 2) f.D (.ofCode f.a) f.B (f.i 0 3)) (zr (decide (f.ha = 0#2)) ++ f.zC ++ f.zI 3)
  | 0x1C => ok (.pref p f.l (f.b.getLsbD 0) f.mem) (f.zD ++ f.zB1 ++ f.zMem)
  | 0x1D => ok (.cln p f.l (f.b.getLsbD 0) f.mem) (f.zD ++ f.zB1 ++ f.zMem)
  | 0x1E | 0x1F | 0x20 | 0x21 => ok (.atom p f.l (f.op.extractLsb' 0 2 + 2#2) f.c f.D f.mem0 f.B) (f.zMem0 ++ zr (decide (f.hc = 0#2)))
  | 0x22 | 0x23 => ok (.acas p f.l f.lo f.D f.mem0 f.B f.C) f.zMem0
  | 0x24 | 0x25 => ok (.ared p f.l f.lo f.c f.mem0 f.B) (f.zD ++ f.zMem0 ++ zr (decide (f.hc = 0#2)))
  | 0x26 | 0x27 => ok (.waitv p f.l f.lo f.D f.mem0 f.B) (f.zC ++ f.zMem0)
  | 0x28 => ok (.notify1 p f.l f.mem0) (f.zD ++ f.zB ++ f.zC ++ f.zMem0)
  | 0x29 => ok (.notifyall p f.l f.mem0) (f.zD ++ f.zB ++ f.zC ++ f.zMem0)
  | 0x2A => ok (.fence p f.l (f.i 5 3) (f.i 3 2)) (f.zD ++ f.zA ++ f.zB ++ f.zC ++ zr (decide (f.i 8 7 = 0#7)) ++ f.zMem0)
  | 0x30 => ok (.fmtres p f.l (f.i 0 4) (f.i 4 2) (f.bit 6) f.D f.A) (f.zB ++ f.zC ++ f.zI 7)
  | 0x31 => ok (.fmtrel p f.l f.A) (f.zD ++ f.zB ++ f.zC ++ f.zI 0)
  | 0x32 => ok (.mld p f.l (f.bit 0) f.D f.A f.B f.C) (f.zI 1)
  | 0x33 => ok (.mldT p f.l (f.bit 0) f.D f.A f.B f.C) (f.zI 1)
  | 0x34 => ok (.mso p f.l (f.bit 0) f.D f.A f.B f.C) (f.zI 1)
  | 0x35 => ok (.mrd p f.l (f.i 7 2) (f.i 0 7) f.D f.A) (f.zB ++ f.zC ++ f.zI 9)
  | 0x36 => ok (.mclr p f.l (f.bit 7) (f.i 0 7)) (f.zD ++ f.zA ++ f.zB ++ f.zC ++ f.zI 8)
  | 0x37 => ok (.mmac p f.l f.A f.B) (f.zD ++ f.zC ++ f.zI 0)
  | 0x38 => ok (.mmacI p f.l f.A f.B) (f.zD ++ f.zC ++ f.zI 0)
  | 0x39 => ok (.mqnt p f.l (f.i 0 7) (f.bit 7) (f.bit 8) (f.bit 9) f.A f.B f.C) (f.zD ++ f.zI 10)
  | 0x3A => ok (.spick p f.l f.A f.B f.C) (f.zD ++ f.zI 0)
  | 0x3B => ok (.mstat p f.l (f.bit 7) (f.i 0 7) f.D) (f.zA ++ f.zB ++ f.zC ++ f.zI 8)
  | 0x40 => ok (.qset p f.l (f.i 0 3) (f.i 3 5)) (f.zD ++ f.zA ++ f.zB ++ f.zC ++ f.zI 8)
  | 0x41 => ok (.qpeek p f.l (f.i 0 3) f.D) (f.zA ++ f.zB ++ f.zC ++ f.zI 3)
  | 0x42 => 
      ok (.qdrain p f.l (f.i 0 3) (if f.bit 3 then some f.D else none)) (f.zA ++ f.zB ++ f.zC ++ f.zI 4 ++ if f.bit 3 then [] else f.zD)
  | 0x43 => ok (.qcount p f.l (f.i 0 3) (f.i 3 2) f.D) (f.zA ++ f.zB ++ f.zC ++ f.zI 5)
  | 0x44 => 
      if f.bit 3 then ok (.qtokTake p f.l (f.i 0 3) f.D) (f.zA ++ f.zB ++ f.zC ++ f.zI 4)
      else ok (.qtokTest p f.l (f.i 0 3) (f.d.extractLsb' 0 3)) (f.zA ++ f.zB ++ f.zC ++ f.zI 4 ++ zr (decide (f.d.extractLsb' 3 4 = 0#4)))
  | 0x50 => ok (.spawn p f.l (f.i 0 4) f.A f.C) (f.zD ++ f.zB ++ f.zI 4)
  | 0x51 => ok (.tokput p f.l (f.i 0 4) f.A f.B f.C) (f.zD ++ f.zI 4)
  | 0x52 => ok (.dset p f.l f.D f.A f.B f.C) (f.zI 0)
  | 0x53 => ok (.dget p f.l f.D f.A f.B) (f.zC ++ f.zI 0)
  | 0x54 => ok (.refill p f.l) (f.zD ++ f.zA ++ f.zB ++ f.zC ++ f.zI 0)
  | 0x55 => ok (.itemfin p f.l) (f.zD ++ f.zA ++ f.zB ++ f.zC ++ f.zI 0)
  | 0x56 => ok (.ddrain p f.l f.A f.B) (f.zD ++ f.zC ++ f.zI 0)
  | 0x57 => ok (.dspill p f.l f.A f.B f.C) (f.zD ++ f.zI 0)
  | 0x60 => ok (.rcq p f.l f.D f.A) (f.zB ++ f.zC ++ f.zI 0)
  | 0x61 => ok (.rcrd p f.l (f.i 0 3) (f.bit 3) f.D f.A) (f.zB ++ f.zC ++ f.zI 4)
  | 0x62 => ok (.famset p f.l f.D) (f.zA ++ f.zB ++ f.zC ++ f.zI 0)
  | 0x63 | 0x64 | 0x65 | 0x66 | 0x67 => .unassigned .sys .unassignedOpcode
  | 0x68 => ok (.capo p f.l f.A f.imm) (f.zD ++ f.zB ++ f.zC)
  | 0x69 => ok (.capx p f.l) (f.zD ++ f.zA ++ f.zB ++ f.zC ++ f.zI 0)
  | 0x6A => ok (.bar p f.l (f.i 5 6) (f.bit 4) (f.i 0 4)) (f.zD ++ f.zA ++ f.zB ++ f.zC ++ f.zI 11)
  | 0x6B => ok (.barr p f.l (f.i 5 6) (f.bit 4) (f.i 0 4) f.D) (f.zA ++ f.zB ++ f.zC ++ f.zI 11)
  | 0x6C => ok (.barw p f.l (f.bit 4) (f.i 0 4) f.A) (f.zD ++ f.zB ++ f.zC ++ f.zI 5)
  | 0x6D | 0x6E | 0x6F => .unassigned .sys .unassignedOpcode
  | 0x70 => 
      let z := f.zD ++ f.zB ++ f.zC
      match (f.i 13 2).toNat with
      | 0 =>
        if f.bit 12 then ok (.trapSoft p f.l (f.i 0 12) (some f.A)) z else ok (.trapSoft p f.l (f.i 0 12) none) (z ++ f.zA)
      | 1 => ok (.trapLink p f.l f.A) (z ++ zr (f.bit 12 && decide (f.i 0 12 = 0#12)))
      | 2 => ok (.trapGst p f.l (f.i 0 8)) (z ++ f.zA ++ zr (!f.bit 12 && decide (f.i 8 4 = 0#4)))
      | _ => ok (.trapSoft p f.l (f.i 0 12) none) [.reservedField]
  | 0x71 => ok (.tret p f.l) (f.zD ++ f.zA ++ f.zB ++ f.zC ++ f.zI 0)
  | 0x72 => 
      if f.bit 0 then ok (.tdel p f.l (some f.A)) (f.zD ++ f.zB ++ f.zC ++ f.zI 1)
      else ok (.tdel p f.l none) (f.zD ++ f.zA ++ f.zB ++ f.zC ++ f.zI 1)
  | 0x73 => ok (.sysrd p f.l (f.i 0 8) f.D) (f.zA ++ f.zB ++ f.zC ++ f.zI 8)
  | 0x74 => ok (.syswr p f.l (f.i 0 8) f.A) (f.zD ++ f.zB ++ f.zC ++ f.zI 8)
  | 0x75 => ok (.brk p f.l (f.i 0 12)) (f.zD ++ f.zA ++ f.zB ++ f.zC ++ f.zI 12)
  | 0x76 | 0x77 => .unassigned .sys .unassignedOpcode
  | 0x78 => ok (.pmrd p f.l (f.i 0 2) (f.i 2 4) (f.bit 6) f.D) (f.zA ++ f.zB ++ f.zC ++ f.zI 7)
  | 0x79 => ok (.pmset p f.l (f.i 0 2) f.A) (f.zD ++ f.zB ++ f.zC ++ f.zI 2)
  | 0x7A => ok (.tick p f.l (f.bit 0) f.D) (f.zA ++ f.zB ++ f.zC ++ f.zI 1)
  | 0x7B => ok (.enrd p f.l (f.i 0 2) f.D) (f.zA ++ f.zB ++ f.zC ++ f.zI 2)
  | _ => .emulate

/-- The kinds of a word in instruction position (02:R36). -/
inductive WordKind where
  | short | long | md | im | header | other
  deriving DecidableEq, Repr

/-- Kind by bits [31:28] (02:R36). -/
def wordKind (w : Word) : WordKind :=
  let t := (w.extractLsb' 28 4).toNat
  if t < 8 then .short else if t < 12 then .long
  else if t = 12 then (if w.getLsbD 27 then .im else .md)
  else if t = 13 then .header else .other

/-- The fields of a MOD prefix (02:R46). -/
def Mod.ofWord (w : Word) : Mod :=
  { rnd := w.extractLsb' 24 3, sat := w.getLsbD 23, pe := w.getLsbD 22, pn := w.getLsbD 21,
    pk := w.extractLsb' 18 3, flo := w.getLsbD 17 }
/-- The MOD prefix of fields (02:R46). -/
def Mod.toWord (m : Mod) : Word :=
  0b11000#5 ++ m.rnd ++ BitVec.ofBool m.sat ++ BitVec.ofBool m.pe ++ BitVec.ofBool m.pn ++ m.pk ++ BitVec.ofBool m.flo ++ 0#17
/-- Reason 12 of a MOD word (02:R46). -/
def modReserved (w : Word) : Bool :=
  decide (6 ≤ (w.extractLsb' 24 3).toNat) || decide (w.extractLsb' 0 17 ≠ 0#17)
/-- The IMM prefix of a payload (02:R47). -/
def immWord (x : BitVec 27) : Word := 0b11001#5 ++ x

/-- A hint 11 in a long form that is no instruction is its lowest reason (02:R50, R63). -/
def Fate.hinted (x : Fate) (f : Long) : Fate :=
  match x with
  | .unassigned c r => .unassigned c (if f.h3.isEmpty then r else .hint11)
  | y => y

/-- What the words from one instruction position on are. `pos` counts the prefix words before the instruction, `len` all
its words. -/
inductive DecRes where
  /-- more words are needed -/
  | more
  /-- an encoding fault at word `pos` (02:R63) -/
  | bad (pos : Nat) (r : Reason)
  | fate (f : Fate) (p : Pfx) (pos len : Nat)
  deriving DecidableEq, Repr

/-- The instruction of first word `w`, after `pos` prefix words. -/
def decodeBody (p : Pfx) (w : Word) (rest : List Word) (pos : Nat) : DecRes :=
  match wordKind w with
  | .long => match rest with
    | [] => .more
    | w1 :: _ => .fate ((decodeL p (.ofWords w w1)).hinted (.ofWords w w1)) p pos (pos + 2)
  | _ =>
    let f := Short.ofWord w
    .fate (if f.page then decodeB p f else decodeA p f) p pos (pos + 1)

/-- An IMM prefix with a MOD prefix after it, at word `pos`, and the words after both: the MOD is out of order, or an orphan where one of its own
kind or a header comes next, or a header after one more IMM (02:R48); the lower reason of the two is reported (02:R63). -/
def orderFault (pos : Nat) : List Word → DecRes
  | [] => .more
  | w :: rest => match wordKind w with
    | .md | .header => .bad pos .orphanPrefix
    | .im => (match rest with
      | [] => .more
      | v :: _ => .bad pos (if wordKind v = .header then .orphanPrefix else .prefixOrder))
    | _ => .bad pos .prefixOrder

/-- Decodes the words at an instruction position (02:R36, R48, R62, R63): the prefixes in order, each fault at its word. -/
def decodeRaw : List Word → DecRes
  | [] => .more
  | w0 :: rest => match wordKind w0 with
    | .short | .long => decodeBody ⟨none, none⟩ w0 rest 0
    | .header => .bad 0 .shortClause
    | .other => .bad 0 .prefixKind
    | .im => match rest with
      | [] => .more
      | w1 :: rest1 => match wordKind w1 with
        | .md => orderFault 1 rest1
        | .im | .header => .bad 0 .orphanPrefix
        | .other => .bad 1 .prefixKind
        | .short | .long => decodeBody ⟨none, some (w0.extractLsb' 0 27)⟩ w1 rest1 1
    | .md =>
      let res (r : DecRes) : DecRes := if modReserved w0 then .bad 0 .modReserved else r
      match rest with
      | [] => .more
      | w1 :: rest1 => match wordKind w1 with
        | .md | .header => .bad 0 .orphanPrefix
        | .other => res (.bad 1 .prefixKind)
        | .short | .long => res (decodeBody ⟨some (.ofWord w0), none⟩ w1 rest1 1)
        | .im => match rest1 with
          | [] => .more
          | w2 :: rest2 => match wordKind w2 with
            | .header => .bad 0 .orphanPrefix
            | .md => res (orderFault 2 rest2)
            | .im => res (.bad 1 .orphanPrefix)
            | .other => res (.bad 2 .prefixKind)
            | .short | .long => res (decodeBody ⟨some (.ofWord w0), some (w1.extractLsb' 0 27)⟩ w2 rest2 2)

/-- Why words are refused. -/
inductive Reject where
  | more
  | reason (r : Reason)
  | emulate
  deriving DecidableEq, Repr

/-- The well-formed instruction at the head of a list of words, with the number of its words, or the reason for which the
words are refused, the lowest at the earliest word (02:R63). `stroke` is the clause's CAP bit. -/
def decode (stroke : Bool) (ws : List Word) : Except Reject (Instr × Nat) :=
  match decodeRaw ws with
  | .more => .error .more
  | .bad _ r => .error (.reason r)
  | .fate .emulate _ _ _ => .error .emulate
  | .fate (.unassigned _ r) _ _ _ => .error (.reason r)
  | .fate (.instr i raw) _ _ len =>
    match Reason.lowest (raw ++ i.static stroke) with
    | some r => .error (.reason r)
    | none => .ok (i, len)

/-- The words of bytes in storage order, little-endian (00:R5). -/
def wordsOf : List Byte → List Word
  | a :: b :: c :: d :: rest => (d ++ c ++ b ++ a) :: wordsOf rest
  | _ => []

/-- The bytes of words in storage order (00:R5). -/
def bytesOf : List Word → List Byte
  | [] => []
  | w :: ws => w.extractLsb' 0 8 :: w.extractLsb' 8 8 :: w.extractLsb' 16 8 :: w.extractLsb' 24 8 :: bytesOf ws

/-- Decoding of bytes, total. -/
def decodeBytes (stroke : Bool) (bs : List Byte) : Except Reject (Instr × Nat) := decode stroke (wordsOf bs)

/-- The words of a table number: bit 0 is the least significant bit of the first word. -/
def tableWords (nbits w : Nat) : List Word :=
  let w := w % 2 ^ nbits
  [BitVec.ofNat 32 w, BitVec.ofNat 32 (w / 2 ^ 32), BitVec.ofNat 32 (w / 2 ^ 64), BitVec.ofNat 32 (w / 2 ^ 96)]

/-- The instruction the decoder reads from a table word. -/
def decodeTableWord (nbits w : Nat) : Option Instr :=
  match decodeBytes false (bytesOf (tableWords nbits w)) with
  | .ok (i, _) => some i
  | .error _ => none

/-- A clause header (02:R38). -/
structure Header where
  cap : Bool
  yld : Bool
  wfence : Bool
  wqf : Bool
  wqe : Bool
  wsb : BitVec 4
  access : Bool
  cls : Cls
  count : Nat
  deriving DecidableEq, Repr

/-- The class of a header's code; 111 is reserved (02:R38). -/
def Cls.ofBits (x : BitVec 3) : Option Cls :=
  match x.toNat with
  | 0 => some .alu | 1 => some .mem | 2 => some .mtx | 3 => some .que | 4 => some .ctl | 5 => some .sys | 6 => some .mix
  | _ => none

/-- The checks of a header that its word alone decides, in the order of their reasons (02:R39). -/
def decodeHeader (w : Word) : Except Reason Header :=
  match wordKind w with
  | .im | .md => .error .orphanPrefix
  | .header =>
    match Cls.ofBits (w.extractLsb' 4 3) with
    | cls =>
      if w.extractLsb' 17 11 ≠ 0#11 then .error .headerReserved
      else match cls with
        | none => .error .badClass
        | some c =>
          if w.extractLsb' 0 4 = 0#4 then .error .emptyClause
          else .ok { cap := w.getLsbD 16, yld := w.getLsbD 15, wfence := w.getLsbD 14, wqf := w.getLsbD 13,
                     wqe := w.getLsbD 12, wsb := w.extractLsb' 8 4, access := w.getLsbD 7, cls := c,
                     count := (w.extractLsb' 0 4).toNat }
  | _ => .error .badHeader

/-- The class code of a header (02:R38). -/
def Cls.bits : Cls → BitVec 3
  | .alu => 0#3 | .mem => 1#3 | .mtx => 2#3 | .que => 3#3 | .ctl => 4#3 | .sys => 5#3 | .mix => 6#3

/-- The word of a header (02:R38). -/
def Header.toWord (h : Header) : Word :=
  0b1101#4 ++ 0#11 ++ BitVec.ofBool h.cap ++ BitVec.ofBool h.yld ++ BitVec.ofBool h.wfence ++ BitVec.ofBool h.wqf ++
  BitVec.ofBool h.wqe ++ h.wsb ++ BitVec.ofBool h.access ++ h.cls.bits ++ BitVec.ofNat 4 h.count


/-- Short form with operand fields. -/
def Short.mk3 (page : Bool) (op : BitVec 7) (d : BitVec 7) (a : S1) (fb : Bool) (b : BitVec 7) : Short :=
  ⟨page, op, d, a.last, a.o.code, fb, b⟩
/-- The last source of a short form as FB and B (02:R43, R45). -/
def RI.enc : RI → Bool × BitVec 7
  | .reg b => (b.last, b.o.code)
  | .imm i => (i.getLsbD 7, i.extractLsb' 0 7)
def LeaB.enc : LeaB → BitVec 2 × Bool × BitVec 7
  | .i32 b => (0#2, b.last, b.o.code)
  | .n32 b => (1#2, b.last, b.o.code)
  | .i64 b => (2#2, b.last, b.o.code)
  | .imm i => (3#2, i.getLsbD 7, i.extractLsb' 0 7)
def FSrc.enc : FSrc → BitVec 2 × Bool × BitVec 7
  | .f32 b => (0#2, b.last, b.o.code)
  | .bf16 b => (1#2, b.last, b.o.code)
  | .f16 b => (2#2, b.last, b.o.code)
  | .lit i => (3#2, i.getLsbD 7, i.extractLsb' 0 7)

/-- base + 2·U + I with the fields of a page A arithmetic instruction (05:R111). -/
def encRRI (base : BitVec 5) (u : Bool) (d : Opnd) (a : S1) (b : RI) : Short :=
  .mk3 false (base ++ BitVec.ofBool u ++ BitVec.ofBool b.isImm) d.code a b.enc.1 b.enc.2
/-- Shifts and logic: base + I (05:R114, R115). -/
def encRI (page : Bool) (base : BitVec 6) (d : BitVec 7) (a : S1) (b : RI) : Short :=
  .mk3 page (base ++ BitVec.ofBool b.isImm) d a b.enc.1 b.enc.2
/-- One source, B and FB zero. -/
def encUn (page : Bool) (op : BitVec 7) (d : Opnd) (a : S1) : Short := .mk3 page op d.code a false 0#7
def encRR (page : Bool) (op : BitVec 7) (d : Opnd) (a b : S1) : Short := .mk3 page op d.code a b.last b.o.code
/-- Floating point: base + member (06:R130). -/
def encF (base : BitVec 5) (d : BitVec 7) (a : S1) (b : FSrc) : Short :=
  .mk3 true (base ++ b.enc.1) d a b.enc.2.1 b.enc.2.2
/-- No operand but an immediate FB:B. -/
def encI (page : Bool) (op : BitVec 7) (d : BitVec 7) (i : BitVec 8) : Short :=
  ⟨page, op, d, false, 0#7, i.getLsbD 7, i.extractLsb' 0 7⟩
/-- A predicate field (05:R119). -/
def encPred (x : Bool) (n : BitVec 3) : BitVec 7 := 0#3 ++ BitVec.ofBool x ++ n
def FTy.enc : FTy → Bool × BitVec 7
  | .f32 => (false, 0#7)
  | .bf16 => (true, 0#7)
  | .f16 => (true, 1#7)

/-- The fields of a short form. -/
def encodeShort : Instr → Option Short
  | .add _ u d a b => some (encRRI 0x00#5 u d a b)
  | .sub _ u d a b => some (encRRI 0x01#5 u d a b)
  | .mul _ u d a b => some (encRRI 0x02#5 u d a b)
  | .mulhi _ u d a b => some (encRRI 0x03#5 u d a b)
  | .mad _ u d a b => some (encRRI 0x04#5 u d a b)
  | .madhi _ u d a b => some (encRRI 0x05#5 u d a b)
  | .neg _ w d a => some (encUn false (0b001100#6 ++ BitVec.ofBool w) d a)
  | .abs _ w d a => some (encUn false (0b001101#6 ++ BitVec.ofBool w) d a)
  | .min _ u d a b => some (encRRI 0x07#5 u d a b)
  | .max _ u d a b => some (encRRI 0x08#5 u d a b)
  | .lea _ d a b => some (.mk3 false (0x09#5 ++ b.enc.1) d.code a b.enc.2.1 b.enc.2.2)
  | .shl _ d a b => some (encRI false 0x20#6 d.code a b)
  | .shr _ d a b => some (encRI false 0x21#6 d.code a b)
  | .sra _ d a b => some (encRI false 0x22#6 d.code a b)
  | .rotl _ d a b => some (encRI false 0x23#6 d.code a b)
  | .and _ d a b => some (encRI false 0x24#6 d.code a b)
  | .or _ d a b => some (encRI false 0x25#6 d.code a b)
  | .xor _ d a b => some (encRI false 0x26#6 d.code a b)
  | .andn _ d a b => some (encRI false 0x27#6 d.code a b)
  | .not _ d a => some (encUn false 0x50#7 d a)
  | .clz _ d a => some (encUn false 0x51#7 d a)
  | .ctz _ d a => some (encUn false 0x52#7 d a)
  | .popc _ d a => some (encUn false 0x53#7 d a)
  | .brev _ d a => some (encUn false 0x54#7 d a)
  | .bfx _ d a b => some (encRR false 0x55#7 d a b)
  | .bfi _ d a b => some (encRR false 0x56#7 d a b)
  | .cmp _ u c n a b => some (.mk3 false (0x18#5 ++ BitVec.ofBool u ++ BitVec.ofBool b.isImm) (c ++ 0#1 ++ n) a b.enc.1 b.enc.2)
  | .sel _ d a x n => some (.mk3 false 0x64#7 d.code a false (encPred x n))
  | .selImm _ d x n i => some ⟨false, 0x65#7, d.code, false, encPred x n, i.getLsbD 7, i.extractLsb' 0 7⟩
  | .mov _ w d a => some (encUn false (0x33#6 ++ BitVec.ofBool w) d a)
  | .li _ w d i => some (encI false (0x34#6 ++ BitVec.ofBool w) d.code i)
  | .cvt _ pk d a t s => some (.mk3 false (0xE#4 ++ pk) d.code a (t.getLsbD 3) (t.extractLsb' 0 3 ++ s))
  | .req _ w d a b => some (encRR false (0x3C#6 ++ BitVec.ofBool w) d a b)
  | .pack4 _ d a b => some (encRR false 0x7A#7 d a b)
  | .unpack4 _ q d a => some (.mk3 false 0x7B#7 d.code a false (0#6 ++ BitVec.ofBool q))
  | .dot4 _ n d a b => some (encRR false (0x3E#6 ++ BitVec.ofBool n) d a b)
  | .fadd _ d a b => some (encF 0x00#5 d.code a b)
  | .fsub _ d a b => some (encF 0x01#5 d.code a b)
  | .fmul _ d a b => some (encF 0x02#5 d.code a b)
  | .ffma _ d a b => some (encF 0x03#5 d.code a b)
  | .fmin _ d a b => some (encF 0x04#5 d.code a b)
  | .fmax _ d a b => some (encF 0x05#5 d.code a b)
  | .fabs _ t d a => some (.mk3 true (0x0C#6 ++ BitVec.ofBool t.enc.1) d.code a false t.enc.2)
  | .fneg _ t d a => some (.mk3 true (0x0D#6 ++ BitVec.ofBool t.enc.1) d.code a false t.enc.2)
  | .fcmp _ c n a b => some (encF 0x07#5 (c ++ 0#1 ++ n) a b)
  | .fcls _ y n a b => some (encRI true 0x10#6 (y ++ 0#1 ++ n) a b)
  | .rcp _ d a => some (encUn true 0x22#7 d a)
  | .rsq _ d a => some (encUn true 0x23#7 d a)
  | .sqrt _ d a => some (encUn true 0x24#7 d a)
  | .exp2 _ d a => some (encUn true 0x25#7 d a)
  | .log2 _ d a => some (encUn true 0x26#7 d a)
  | .sin _ d a => some (encUn true 0x27#7 d a)
  | .cos _ d a => some (encUn true 0x28#7 d a)
  | .tanh _ d a => some (encUn true 0x29#7 d a)
  | .rng _ f d => some (encI true (0x20#6 ++ BitVec.ofBool f) d.code 0#8)
  | .shflIdx _ d a b => some (encRR true 0x42#7 d a b)
  | .shflUp _ d a b => some (encRR true 0x43#7 d a b)
  | .shflDown _ d a b => some (encRR true 0x44#7 d a b)
  | .shflXor _ d a b => some (encRR true 0x45#7 d a b)
  | .vote _ m n x k => some ⟨true, 0x46#7, m ++ 0#1 ++ n, false, encPred x k, false, 0#7⟩
  | .voteBallot _ d x k => some ⟨true, 0x47#7, d.code, false, encPred x k, false, 0#7⟩
  | .red _ t o d a => some (.mk3 true (0x12#5 ++ t) d.code a false (0#4 ++ o))
  | .scan _ t e o d a => some (.mk3 true (0x13#5 ++ t) d.code a false (0#3 ++ BitVec.ofBool e ++ o))
  | .bcast _ d a n => some (.mk3 true 0x50#7 d.code a (n.getLsbD 7) (n.extractLsb' 0 7))
  | .bcastNib _ d a => some (encUn true 0x51#7 d a)
  | .br _ i => some (encI true 0x58#7 0#7 i)
  | .bk _ m x n i => some (encI true 0x59#7 (m ++ BitVec.ofBool x ++ n) i)
  | .bs _ c a i => some (.mk3 true 0x5A#7 (c ++ 0#4) a (i.getLsbD 7) (i.extractLsb' 0 7))
  | .call _ d i => some (encI true 0x5B#7 d.code i)
  | .ret _ a => some (.mk3 true 0x5C#7 0#7 a false 0#7)
  | .jmpr _ link a => some (match link with
      | none => .mk3 true 0x5D#7 0#7 a false 0#7
      | some d => .mk3 true 0x5D#7 d.code a false 1#7)
  | .exit _ => some (encI true 0x5E#7 0#7 0#8)
  | .enrol _ n => some (encI true 0x5F#7 (0#4 ++ n) 0#8)
  | .park _ n => some (encI true 0x60#7 (0#4 ++ n) 0#8)
  | .strike _ n => some (encI true 0x61#7 (0#4 ++ n) 0#8)
  | .yld _ => some (encI true 0x62#7 0#7 0#8)
  | .nop _ => some (encI true 0x63#7 0#7 0#8)
  | .wait _ x f k => some (encI true 0x64#7 0#7 (0#2 ++ BitVec.ofBool x ++ BitVec.ofBool f ++ k))
  | _ => none

/-- A long form of operand fields; an absent operand is code 0 without hint. -/
def encL (l : Lf) (op : BitVec 7) (d : BitVec 7) (a b c : Option Hs) (imm : BitVec 15) : Long :=
  let f (x : Option Hs) : BitVec 7 := match x with | none => 0#7 | some h => h.o.code
  let g (x : Option Hs) : BitVec 2 := match x with | none => 0#2 | some h => h.h.bits
  ⟨op, d, f a, f b, l.sb, l.la, g a, g b, g c, f c, imm⟩

/-- IMM of a memory operand (09:R193). -/
def MemOp.imm (m : MemOp) : BitVec 15 :=
  m.ofs ++ m.sco ++ m.ord ++ (match m.idx with | none => 0#3 | some (_, sc) => sc)
def MemOp.c (m : MemOp) : Option Hs := m.idx.map (·.1)

/-- The fields of a long form. -/
def encodeLong : Instr → Option Long
  | .ld _ l n d m => some (encL l (0x0#4 ++ n) d.code (some m.a) none m.c m.imm)
  | .ldToQueue _ l n q m => some (encL l (0x0#4 ++ n) (Opnd.q q).code (some m.a) none m.c m.imm)
  | .st _ l n m b => some (encL l (0x1#4 ++ n) 0#7 (some m.a) (some b) m.c m.imm)
  | .lds _ l n d m => some (encL l (0x04#5 ++ n) d.code (some m.a) none m.c m.imm)
  | .sts _ l n m b => some (encL l (0x05#5 ++ n) 0#7 (some m.a) (some b) m.c m.imm)
  | .cp _ l n d a b cv => some (encL l (0x06#5 ++ n) d.code (some ⟨a, .none⟩) (some b) none (0#12 ++ cv))
  | .pref _ l x m => some { encL l 0x1C#7 0#7 (some m.a) none m.c m.imm with b := 0#6 ++ BitVec.ofBool x }
  | .cln _ l x m => some { encL l 0x1D#7 0#7 (some m.a) none m.c m.imm with b := 0#6 ++ BitVec.ofBool x }
  | .atom _ l n op d m b => some { encL l (0x1E#7 + n.zeroExtend 7) d.code (some m.a) (some b) none m.imm with c := op }
  | .acas _ l w d m b c => some (encL l (0x11#6 ++ BitVec.ofBool w) d.code (some m.a) (some b) (some c) m.imm)
  | .ared _ l f op m b => some { encL l (0x12#6 ++ BitVec.ofBool f) 0#7 (some m.a) (some b) none m.imm with c := op }
  | .waitv _ l w d m b => some (encL l (0x13#6 ++ BitVec.ofBool w) d.code (some m.a) (some b) none m.imm)
  | .notify1 _ l m => some (encL l 0x28#7 0#7 (some m.a) none none m.imm)
  | .notifyall _ l m => some (encL l 0x29#7 0#7 (some m.a) none none m.imm)
  | .fence _ l sco ord => some (encL l 0x2A#7 0#7 none none none (0#7 ++ sco ++ ord ++ 0#3))
  | .fmtres _ l f w k d a => some (encL l 0x30#7 d.code (some a) none none (0#8 ++ BitVec.ofBool k ++ w ++ f))
  | .fmtrel _ l a => some (encL l 0x31#7 0#7 (some a) none none 0#15)
  | .mld _ l x d a b c => some (encL l 0x32#7 d.code (some a) (some b) (some c) (0#14 ++ BitVec.ofBool x))
  | .mldT _ l x d a b c => some (encL l 0x33#7 d.code (some a) (some b) (some c) (0#14 ++ BitVec.ofBool x))
  | .mso _ l x d a b c => some (encL l 0x34#7 d.code (some a) (some b) (some c) (0#14 ++ BitVec.ofBool x))
  | .mrd _ l w t d a => some (encL l 0x35#7 d.code (some a) none none (0#6 ++ w ++ t))
  | .mclr _ l x t => some (encL l 0x36#7 0#7 none none none (0#7 ++ BitVec.ofBool x ++ t))
  | .mmac _ l a b => some (encL l 0x37#7 0#7 (some a) (some b) none 0#15)
  | .mmacI _ l a b => some (encL l 0x38#7 0#7 (some a) (some b) none 0#15)
  | .mqnt _ l t e x k a b c =>
      some (encL l 0x39#7 0#7 (some a) (some b) (some c) (0#5 ++ BitVec.ofBool k ++ BitVec.ofBool x ++ BitVec.ofBool e ++ t))
  | .spick _ l a b c => some (encL l 0x3A#7 0#7 (some a) (some b) (some c) 0#15)
  | .mstat _ l x t d => some (encL l 0x3B#7 d.code none none none (0#7 ++ BitVec.ofBool x ++ t))
  | .qset _ l q n => some (encL l 0x40#7 0#7 none none none (0#7 ++ n ++ q))
  | .qpeek _ l q d => some (encL l 0x41#7 d.code none none none (0#12 ++ q))
  | .qdrain _ l q d => some (match d with
      | none => encL l 0x42#7 0#7 none none none (0#12 ++ q)
      | some d => encL l 0x42#7 d.code none none none (0#11 ++ 1#1 ++ q))
  | .qcount _ l q k d => some (encL l 0x43#7 d.code none none none (0#10 ++ k ++ q))
  | .qtokTest _ l q k => some (encL l 0x44#7 (0#4 ++ k) none none none (0#12 ++ q))
  | .qtokTake _ l q d => some (encL l 0x44#7 d.code none none none (0#11 ++ 1#1 ++ q))
  | .spawn _ l pw a c => some (encL l 0x50#7 0#7 (some a) none (some c) (0#11 ++ pw))
  | .tokput _ l pw a b c => some (encL l 0x51#7 0#7 (some a) (some b) (some c) (0#11 ++ pw))
  | .dset _ l d a b c => some (encL l 0x52#7 d.code (some a) (some b) (some c) 0#15)
  | .dget _ l d a b => some (encL l 0x53#7 d.code (some a) (some b) none 0#15)
  | .refill _ l => some (encL l 0x54#7 0#7 none none none 0#15)
  | .itemfin _ l => some (encL l 0x55#7 0#7 none none none 0#15)
  | .ddrain _ l a b => some (encL l 0x56#7 0#7 (some a) (some b) none 0#15)
  | .dspill _ l a b c => some (encL l 0x57#7 0#7 (some a) (some b) (some c) 0#15)
  | .rcq _ l d a => some (encL l 0x60#7 d.code (some a) none none 0#15)
  | .rcrd _ l k x d a => some (encL l 0x61#7 d.code (some a) none none (0#11 ++ BitVec.ofBool x ++ k))
  | .famset _ l d => some (encL l 0x62#7 d.code none none none 0#15)
  | .capo _ l a i => some (encL l 0x68#7 0#7 (some a) none none i)
  | .capx _ l => some (encL l 0x69#7 0#7 none none none 0#15)
  | .bar _ l k x n => some (encL l 0x6A#7 0#7 none none none (0#4 ++ k ++ BitVec.ofBool x ++ n))
  | .barr _ l k x n d => some (encL l 0x6B#7 d.code none none none (0#4 ++ k ++ BitVec.ofBool x ++ n))
  | .barw _ l x n a => some (encL l 0x6C#7 0#7 (some a) none none (0#10 ++ BitVec.ofBool x ++ n))
  | .trapSoft _ l k a => some (match a with
      | none => encL l 0x70#7 0#7 none none none (0b000#3 ++ k)
      | some a => encL l 0x70#7 0#7 (some a) none none (0b001#3 ++ k))
  | .trapLink _ l a => some (encL l 0x70#7 0#7 (some a) none none (0b011#3 ++ 0#12))
  | .trapGst _ l k => some (encL l 0x70#7 0#7 none none none (0b100#3 ++ 0#4 ++ k))
  | .tret _ l => some (encL l 0x71#7 0#7 none none none 0#15)
  | .tdel _ l a => some (match a with
      | none => encL l 0x72#7 0#7 none none none 0#15
      | some a => encL l 0x72#7 0#7 (some a) none none 1#15)
  | .sysrd _ l n d => some (encL l 0x73#7 d.code none none none (0#7 ++ n))
  | .syswr _ l n a => some (encL l 0x74#7 0#7 (some a) none none (0#7 ++ n))
  | .brk _ l k => some (encL l 0x75#7 0#7 none none none (0#3 ++ k))
  | .pmrd _ l n k x d => some (encL l 0x78#7 d.code none none none (0#8 ++ BitVec.ofBool x ++ k ++ n))
  | .pmset _ l n a => some (encL l 0x79#7 0#7 (some a) none none (0#13 ++ n))
  | .tick _ l w d => some (encL l 0x7A#7 d.code none none none (0#14 ++ BitVec.ofBool w))
  | .enrd _ l k d => some (encL l 0x7B#7 d.code none none none (0#13 ++ k))
  | _ => none

/-- The words of an instruction's prefixes (02:R46 to R48). -/
def Pfx.words (p : Pfx) : List Word :=
  (match p.md with | none => [] | some m => [m.toWord]) ++ (match p.im with | none => [] | some x => [immWord x])

/-- The words of an instruction without its prefixes. -/
def Instr.body (i : Instr) : Option (List Word) :=
  match encodeShort i with
  | some f => some [f.toWord]
  | none => (encodeLong i).map fun f => [f.word0, f.word1]

/-- The words of an instruction: prefixes, then its one or two words; an event has none. -/
def encode (i : Instr) : Option (List Word) := i.body.map fun b => i.pfx.words ++ b

end Sys2Proof
end

