-- ==== Sys2Proof/Machine/Assoc.lean ====
section
/-! DEFINITION. Tables: lists of key and value pairs with strictly rising keys. An absent key has no entry; tables whose
values have a default (bytes that are zero, for one) list no entry equal to it, so equal contents are equal lists. -/

namespace Sys2Proof.Machine

/-- A table by numeric key, its keys strictly rising. -/
abbrev Assoc (α : Type) := List (Nat × α)

namespace Assoc
variable {α : Type}

/-- The entry of a key. -/
def get? : Assoc α → Nat → Option α
  | [], _ => none
  | (j, x) :: t, k => if k = j then some x else get? t k

/-- Whether a key has an entry. -/
def has (t : Assoc α) (k : Nat) : Bool := (get? t k).isSome

/-- The entry of a key, or a default. -/
def getD (t : Assoc α) (k : Nat) (d : α) : α := (get? t k).getD d

/-- Sets the entry of a key. -/
def put : Assoc α → Nat → α → Assoc α
  | [], k, x => [(k, x)]
  | (j, y) :: t, k, x =>
    if k = j then (k, x) :: t else if k < j then (k, x) :: (j, y) :: t else (j, y) :: put t k x

/-- Removes the entry of a key. -/
def del : Assoc α → Nat → Assoc α
  | [], _ => []
  | (j, y) :: t, k => if k = j then del t k else (j, y) :: del t k

/-- Sets the entry of a key of a table with a default: the default is not listed. -/
def putD [DecidableEq α] (t : Assoc α) (k : Nat) (x d : α) : Assoc α := if x = d then del t k else put t k x

/-- Changes an entry that is present. -/
def upd (t : Assoc α) (k : Nat) (f : α → α) : Assoc α :=
  match get? t k with
  | none => t
  | some x => put t k (f x)

/-- The keys in rising order. -/
def keys (t : Assoc α) : List Nat := t.map (·.1)

/-- The entries in rising order of keys. -/
def vals (t : Assoc α) : List α := t.map (·.2)

/-- Keeps the entries that meet a condition. -/
def keep (t : Assoc α) (p : Nat → α → Bool) : Assoc α := t.filter fun e => p e.1 e.2

/-- Changes every entry. -/
def mapVal (t : Assoc α) (f : Nat → α → α) : Assoc α := t.map fun e => (e.1, f e.1 e.2)

/-- A key above every key of the table, for a new entry. -/
def fresh : Assoc α → Nat
  | [] => 0
  | [(k, _)] => k + 1
  | _ :: t => fresh t

/-- Keys strictly above `lo`, and rising. -/
def risingFrom : Nat → Assoc α → Bool
  | _, [] => true
  | lo, (k, _) :: t => decide (lo < k) && risingFrom k t

/-- The canonical form: keys strictly rising. -/
def wf : Assoc α → Bool
  | [] => true
  | (k, _) :: t => risingFrom k t

/-- The canonical form with a default: no entry lists it. -/
def wfD [DecidableEq α] (t : Assoc α) (d : α) : Bool := wf t && t.all fun e => decide (e.2 ≠ d)

end Assoc

end Sys2Proof.Machine
end

