-- ==== Sys2Proof/Machine/State.lean ====
section
/-! DEFINITION. The state of the machine as plain data, everything the spec gives it (INVENTORY.md lists each item with
its rule), the reasons a step stops, and the state after reset. -/

namespace Sys2Proof.Machine

/-- The one fault of the model. -/
inductive Fault where
  /-- never raised: every fault of the manual is a trap that the machine takes (16:R379); kept so that the type has a
  member. Safe. -/
  | none
  deriving DecidableEq, Repr

/-- Why the machine answers no next state. -/
inductive Refusal where
  /-- raised by `exec` for an instruction that has no meaning yet, by its mnemonic. Safe: nothing follows. -/
  | notModelled (mnemonic : String)
  /-- raised by an instruction constructor executed while `cur` names no context of a resident gang: no agent executes
  it, so the spec gives no effect. `step` never does this. Safe. -/
  | noContext
  deriving DecidableEq, Repr

/-- A context of a gang: CTX 0 compute, CTX 1 access (01:R33). -/
structure Site where
  gang : Nat
  access : Bool
  deriving DecidableEq, Repr

/-- Which step of which agent comes next: the issue pipes turn to a context, or an event of the opcode table takes place. -/
inductive Happening where
  | issue (gang : Nat) (access : Bool)
  | event (i : Instr)
  deriving DecidableEq, Repr

/-! ### Memories -/

/-- A translation as a TLB holds it (08:R168, R169). -/
structure TlbEnt where
  owner : Nat
  /-- first virtual address of the page -/
  va : Nat
  /-- bytes of the page -/
  size : Nat
  pa : Nat
  mt : BitVec 2
  key : BitVec 10
  x : Bool
  w : Bool
  u : Bool
  sh : Bool
  /-- the leaf's D bit is set -/
  d : Bool
  deriving DecidableEq, Repr

/-- The release record of a line (10:R232). -/
structure RelRec where
  v : Bool
  rsco : BitVec 3
  rcore : BitVec 8
  rlnch : BitVec 16
  rgid : BitVec 31
  wv : Bool
  wlnch : BitVec 16
  wtag : BitVec 27
  wx : Bool
  deriving DecidableEq, Repr

/-- The record of a line no agent has released: 0 in every field (10:R232). -/
def RelRec.zero : RelRec := ⟨false, 0, 0, 0, 0, false, 0, 0, false⟩

/-- A write in a core's write buffer (10:R221). Entries are keyed in the order in which they entered. -/
structure WbEnt where
  core : Nat
  gang : Nat
  access : Bool
  lane : Nat
  launch : Nat
  mt : BitVec 2
  key : BitVec 10
  pa : Nat
  va : DWord
  bytes : List Byte
  /-- scope of its release, if any -/
  rel : Option (BitVec 3)
  /-- scope of the release as which it counts by earlier release fences of its lane (10:R227) -/
  cum : Nat := 0
  /-- the identity bits [47:17] of its writer -/
  rgid : BitVec 31
  /-- written by a lane of an ordered-mode launch -/
  ordered : Bool
  /-- the long form that waits for it, if any -/
  op : Option Nat
  /-- tick of the I/O die at its issue (18:R422, R433) -/
  io : Nat
  deriving DecidableEq, Repr

/-- A write to host memory accepted at the host port and not yet acknowledged (10:R221, R239). -/
structure HostWr where
  core : Nat
  gang : Nat
  access : Bool
  lane : Nat
  launch : Nat
  op : Option Nat
  deriving DecidableEq, Repr

/-- An owner by its number: root table and KEY (08:R168, R179, 18:R418). -/
structure Owner where
  root : Nat
  /-- KEY under which its root table is read (18:R418) -/
  key : BitVec 10
  deriving DecidableEq, Repr

/-- A line in a home slice (08:R177, R178): whether it is dirty, the KEY it was filled under, and its slice. -/
structure HomeLine where
  dirty : Bool
  key : BitVec 10
  slice : Nat
  deriving DecidableEq, Repr

/-- Bytes of HBM that the device wrote in a layout of its own: a save area (16:R392) or the spill table (15:R371); the free value they hold
is chosen by `draw`. -/
structure Area where
  size : Nat
  draw : Nat
  deriving DecidableEq, Repr

/-- The memories that translation and caches reach (08:R166). -/
structure MemSys where
  /-- bytes written, keyed MT·2^52 + PA; an unlisted byte was never written and reads as a free value (08:R181) -/
  bytes : List (Nat × Byte)
  /-- memory trainings since the device was made: each leaves a pattern of its own in HBM (08:R181) -/
  training : Nat
  /-- by first address -/
  areas : Assoc Area
  /-- key pairs that system software has loaded, by KEY; another one is a free value (08:R179) -/
  keyPairs : Assoc (BitVec 512)
  /-- KEY under which each line was last written, keyed MT·2^45 + line (08:R178, R181) -/
  lineKey : Assoc (BitVec 10)
  /-- poisoned lines (08:R180) -/
  poison : Assoc Unit
  rel : Assoc RelRec
  /-- lines present in home slices (08:R175, R178) -/
  homeTag : Assoc HomeLine
  /-- lines of HBM of which the host holds a copy, as the home slices keep it coherent (10:R239, 18:R413) -/
  hostCopy : Assoc Unit
  /-- lines present in L1 data caches, keyed core·2^47 + line key, with their dirty bit (08:R175) -/
  l1Tag : Assoc Bool
  /-- instruction-cache lines as fetched, keyed core·2^47 + line key (08:R176) -/
  icache : Assoc (List Byte)
  /-- per core (08:R171) -/
  tlb : Assoc (List TlbEnt)
  /-- per cluster (08:R171) -/
  ctlb : Assoc (List TlbEnt)
  /-- translations of host memory that the walkers hold by ATS, keyed cluster·2^40 + page of host memory (18:R413) -/
  ats : Assoc Unit
  /-- the write buffers of all cores (10:R221) -/
  wbuf : Assoc WbEnt
  hostWr : Assoc HostWr
  /-- corrected errors per home slice and per HBM stack (17:R402) -/
  errSlice : Assoc Nat
  errStack : Assoc Nat
  /-- owners by number -/
  owners : Assoc Owner
  deriving DecidableEq, Repr

/-! ### Registers, progress in a clause, and traps -/

/-- A copy of a v or s register that is live (03:R68, R78). -/
structure Reg where
  val : Word
  /-- the low and the high half are poisoned -/
  plo : Bool
  phi : Bool
  deriving DecidableEq, Repr

/-- Where a context stands inside a clause. -/
structure Cursor where
  hdr : Header
  /-- address of the header -/
  at_ : DWord
  /-- number of instructions that have issued -/
  idx : Nat
  /-- address of the next instruction's first word or prefix -/
  ip : DWord
  /-- number of the clause within its context, for lookahead windows -/
  serial : Nat
  /-- lanes that completed the next instruction before a trap at it (09:R197) -/
  done : Mask
  deriving DecidableEq, Repr

/-- The replay of an instruction that let later ones issue (02:R55): where its context continues afterwards, the lanes it is
finished in, and its source registers that later instructions changed, as they stood at its issue (log 73). -/
structure Resume where
  cur : Option Cursor
  pc : DWord
  lanes : Mask
  v : Assoc Reg
  s : Assoc Reg
  deriving DecidableEq, Repr

/-- What a trap reports (16:R379, R380) and where it returns. -/
structure TrapRec where
  cause : Nat
  reason : Nat
  tok : Bool
  x : BitVec 17
  d1 : Word
  d2 : Word
  tra : DWord
  lanes : Mask
  /-- return point -/
  ret : DWord
  /-- clause progress to which it returns; none for a clause position -/
  cur : Option Cursor
  /-- return point of SKIP; none where SKIP acts as END (16:R390) -/
  skip : Option DWord
  /-- clause progress after SKIP -/
  skipCur : Option Cursor
  /-- where the context stood when an instruction that had issued earlier raised the trap (02:R55) -/
  resume : Option Resume
  /-- queues that the raising instruction pops and its active lanes, for the re-issue of tokens (12:R284) -/
  ports : List Nat
  act : Mask
  /-- bytes of the page on which it failed, for XLATE and PROTECT (08:R168, R173) -/
  page : Nat := 4096
  /-- where the raising instruction stands, if the trap returns elsewhere: it is executed again after a back-off (16:R383) -/
  again : Option Cursor := none
  deriving DecidableEq, Repr

/-! ### Launches, dunes and the dispatcher -/

/-- A declared queue: direction and depth (01:R17, 12:R278). -/
structure QDecl where
  ca : Bool
  depth : Nat
  deriving DecidableEq, Repr

/-- A kernel descriptor (01:R17). -/
structure Kern where
  centry : DWord
  aentry : DWord
  tentry : DWord
  width : Nat
  vregs : Nat
  sregs : Nat
  avregs : Nat
  asregs : Nat
  decoupled : Bool
  poisonTrap : Bool
  qdecl : Assoc QDecl
  spadb : Nat
  opndk : Nat
  acct : Nat
  deriving DecidableEq, Repr

/-- An item (13:R300); `serial` numbers a dune's items in order of acceptance. -/
structure Item where
  entry : DWord
  key : Word
  fam : Word
  lin : BitVec 96
  tick : Word
  w : List Word
  serial : Nat
  deriving DecidableEq, Repr

/-- A program dune (13:R299, R302). -/
structure Dune where
  entry : DWord
  key : Word
  cfg : DWord
  ring : DWord
  /-- items in slots of the home cluster's store, head first -/
  store : List Item
  /-- position of the first ring entry (13:R304) -/
  ringPos : Nat
  /-- items in the ring, head first, as they were accepted; what leaves is what its entry then holds -/
  ringed : List Item
  /-- serials of items under a drain mark (13:R319) -/
  covered : List Nat
  /-- in ordered mode, the lineage below which items are under a drain mark: team number and components -/
  mark : Option (List Nat)
  nextSerial : Nat
  /-- the page fault of a ring page, until it is resolved (13:R304) -/
  ringFault : Option TrapRec
  deriving DecidableEq, Repr

/-- The root dune of one cluster (01:R21): the next team of its residue class, and the team items it holds with their TICK. -/
structure Root where
  cursor : Nat
  items : List (Nat × Word)
  deriving DecidableEq, Repr

/-- A barrier (15:R372, R374). -/
structure Barrier where
  phase : Word
  /-- COUNT fixed by the phase's first arrival; 0 `all` -/
  count : Option Nat
  /-- arrivals of the phase, by gang -/
  arrivals : List Nat
  /-- number of the last act on its entry, and whether the entry lies in the spill table (15:R371) -/
  last : Nat
  out : Bool
  deriving DecidableEq, Repr

/-- A live launch: its record (01:R16), descriptor and progress. -/
structure Launch where
  kern : Kern
  teams : Nat
  gpt : Nat
  gangs : Nat
  ptw : BitVec 24
  ordered : Bool
  irq : Bool
  ivec : Nat
  prio : Nat
  seed : DWord
  done : DWord
  params : List Byte
  ring : Nat
  /-- owner number, set for the launch as it is accepted (08:R168) -/
  owner : Nat
  /-- order of acceptance -/
  seq : Nat
  roots : Assoc Root
  dunes : Assoc Dune
  /-- teams numbered so far (01:R14) -/
  nextTeam : Nat
  /-- gangs retired (01:R20) -/
  retired : Nat
  /-- lowest cause of a trap ended by handler exit (16:R440) -/
  exitCause : Option Nat
  /-- a kill action ended a thread -/
  killed : Bool
  /-- the end of 01:R28 has begun, with its cause -/
  ended : Option Nat
  /-- pair-scope barriers, keyed 16·team + number (15:R372) -/
  pairBars : Assoc Barrier
  /-- serials of items covered by the final drain (13:R305), by dune -/
  finalDrain : Assoc (List Nat)
  deriving DecidableEq, Repr

/-- A doorbell ring (18:R417, R418). -/
structure Ring where
  tail : DWord
  head : DWord
  rstat : DWord
  cfg : DWord
  /-- number of the owner that system software binds to it -/
  owner : Option Nat
  deriving DecidableEq, Repr

/-- An entry of the MSI-X vector table (18:R416). -/
structure MsixEntry where
  addr : DWord
  data : Word
  masked : Bool
  deriving DecidableEq, Repr

/-- The MSI-X capability (18:R416): vector table, control, pending bits, and the messages sent that the host has not taken. -/
structure Msix where
  tab : Assoc MsixEntry
  enable : Bool
  masked : Bool
  pending : Assoc Unit
  sent : List (DWord × Word)
  deriving DecidableEq, Repr

/-- The capability at reset: disabled, every entry masked (PRESUMED, log 102). -/
def Msix.reset : Msix := ⟨[], false, false, [], []⟩

structure LaunchSys where
  tab : Assoc Launch
  /-- number assigned last, none since reset (01:R447) -/
  last : Option Nat
  seq : Nat
  rings : Assoc Ring
  /-- MSI-X vectors signalled since the function was reset, in order (18:R416) -/
  msix : List Nat
  msi : Msix
  /-- save-area bytes left in the pool (16:R392, R393) -/
  savePool : Nat
  /-- next save-area address -/
  saveNext : Nat
  deriving DecidableEq, Repr

/-! ### Groups -/

/-- A reservation record that is held (11:R248): V is 1. -/
structure Rec where
  group : Nat
  base : Nat
  len : Nat
  sofs : Nat
  fmt : Nat
  blk : Bool
  swz : Nat
  ldkb : Nat
  rows : Nat
  deriving DecidableEq, Repr

/-- A performance counter (17:R405, R406). -/
structure PerfCtr where
  sel : Word
  count : Nat
  sum : Nat
  mn : Nat
  mx : Nat
  bins : Assoc Nat
  deriving DecidableEq, Repr

/-- A counter as placement leaves it (17:R406). -/
def PerfCtr.clear (sel : Word) : PerfCtr := ⟨sel, 0, 0, 2 ^ 64 - 1, 0, []⟩

/-- A group of gangs (01:R10) and its allotments. -/
structure Group where
  launch : Nat
  team : Nat
  grp : Nat
  /-- the core, or none while the whole group is evicted (01:R26) -/
  core : Option Nat
  /-- the core on which its barrier entries lie: the one on which it is or was last (15:R372; DESIGN CHOICE, log 82) -/
  barCore : Nat
  cluster : Nat
  /-- scratchpad bytes that are not zero (08:R184) -/
  spad : Assoc Byte
  /-- absent scratchpad lines (08:R186) -/
  absent : Assoc Unit
  /-- lines still to be filled after placement or restore (08:R183) -/
  filling : List Nat
  spadPoison : Assoc Unit
  /-- operand-buffer bytes that are not zero (08:R189) -/
  opnd : Assoc Byte
  opndPoison : Assoc Unit
  /-- tile elements that are not zero, keyed tile·8192 + 128·i + j (11:R247) -/
  acc : Assoc Word
  /-- poisoned 8-byte words of the accumulator store -/
  accPoison : Assoc Unit
  /-- tile status words that are not zero (11:R266) -/
  tstat : Assoc (BitVec 64)
  /-- barriers of core scope (15:R372) -/
  bars : Assoc Barrier
  pm : Assoc PerfCtr
  /-- energy estimate (17:R402) -/
  energy : BitVec 64
  /-- reservation records saved while the group is evicted (01:R26) -/
  savedRecs : Assoc Rec
  /-- first address of its save area while it is evicted (16:R392) -/
  savedAt : Nat
  deriving DecidableEq, Repr

/-! ### Gangs, contexts and threads -/

/-- Wait states (01:R23); `running` is never stored: a ready lane of the running path is running (14:R341). -/
inductive WS where
  | running | ready | parked | queueWait | barrier | waitv | capsuleWait | stopped | trapped | evicted
  deriving DecidableEq, Repr

/-- One lane of one context in the context store (14:R323). -/
structure LaneSt where
  pc : DWord
  ws : WS
  under : WS
  /-- held on a rejoin mask (07:R156) -/
  held : Option (BitVec 3)
  pstop : Bool
  pkill : Bool
  pstep : Bool
  deriving DecidableEq, Repr

/-- A trap frame (16:R378). -/
structure Frame where
  path : Mask
  k : Assoc DWord
  trap : TrapRec
  /-- the trap waits for the resolution of its delegation -/
  delegated : Bool
  deriving DecidableEq, Repr

/-- A stroke in progress (15:R357, R359): the holder, the address of its header, the c registers at its start, and its buffered
stores: physical address, bytes and virtual address. -/
structure Stroke where
  lane : Nat
  hdr : DWord
  c : Assoc Word
  stores : List (Nat × List Byte × DWord)
  deriving DecidableEq, Repr

/-- One context of a gang. -/
structure Ctx where
  /-- live v registers, keyed 64·register + lane -/
  v : Assoc Reg
  /-- live s registers -/
  s : Assoc Reg
  /-- predicates and rejoin masks that are not zero -/
  k : Assoc DWord
  j : Assoc DWord
  /-- scoreboard counters that are not zero (02:R52) -/
  sb : Assoc Nat
  /-- lanes whose context has not ended -/
  lanes : Assoc LaneSt
  /-- running path; 0 when there is none (07:R151) -/
  path : Mask
  cur : Option Cursor
  /-- clauses begun -/
  serial : Nat
  gst : Word
  tcg : Word
  tlm : DWord
  tra : DWord
  d0 : Word
  d1 : Word
  d2 : Word
  frame : Option Frame
  /-- back-off count and the tick of the retry (16:R383) -/
  backoff : Nat
  retryAt : Option Nat
  /-- a trap raised and not yet entered -/
  pend : Option TrapRec
  /-- traps of instructions that let later ones issue, still to be taken, in program order (02:R55) -/
  late : List TrapRec
  stroke : Option Stroke
  /-- set while an instruction is replayed that had let later ones issue (02:R55) -/
  resume : Option Resume
  /-- the running path and its clause progress while stepped lanes run a clause ahead of it (07:R160) -/
  aside : Option (Mask × Option Cursor)
  /-- clause progress of lanes that stand inside a clause outside the running path: stopped, stepped or without an item
  (13:R311, 14:R340) -/
  mid : Assoc Cursor
  /-- parity errors found and not yet raised, by `parityKey`: the number of 16:R380, and the lane where each has its own register (03:R79) -/
  parity : Assoc Unit
  /-- erroneous values, by `parityKey`, of registers that the control of the machine holds as well, until the trap of the error has been handled
  or the register is written (03:R79) -/
  spoiled : Assoc DWord
  /-- tick since which the context is parked on absent lines, and the lines: group and line number (08:R187, R188) -/
  parkedAt : Option Nat
  parkedOn : List (Nat × Nat)
  /-- scratchpad lines that faulted lanes of a `cp` still owe: lane, group, line (08:R186, 09:R207) -/
  owed : List (Nat × Nat × Nat)
  /-- per lane the release fences that its next global write follows: the key under which each issued, and its scope (10:R233) -/
  fenced : Assoc (List (Nat × BitVec 3))
  /-- per lane the widest scope of its release fences: each later write of the lane counts as a release at it (10:R227) -/
  relTo : Assoc Nat
  /-- passes that its pipe gave to others since it last issued (a spinning gang: began a clause) while it was ready, and aged (01:R30) -/
  since : Nat
  aged : Bool
  /-- request of its clause of vector work for a current reservation, and whether it is granted (18:R429) -/
  vgrant : Option (Nat × Bool)
  /-- lanes of an evicted gang that wait for their wake condition or, stopped, for a resume: a query's action on the lane ends that (16:R394) -/
  due : Mask
  deriving DecidableEq, Repr

/-- Roles of a capsule link (15:R353). -/
inductive Role2 where
  | none | owner | adopter | contender
  deriving DecidableEq, Repr

/-- A capsule link (15:R353). -/
structure Link where
  role : Role2
  anc : Nat
  /-- KEY of the capsule page, from the translation of `capo` (15:R357, 08:R178) -/
  key : BitVec 10
  /-- anchor's virtual address, for the detail of 16:R380 -/
  va : DWord
  epoch : Word
  stroke : Nat
  adopted : Bool
  delivered : Bool
  capa : DWord
  exit : DWord
  buf : Assoc Word
  deriving DecidableEq, Repr

/-- No capsule (DEDUCED, log 6). -/
def Link.zero : Link := ⟨.none, 0, 0, 0, 0, 0, false, false, 0, 0, []⟩

/-- Lane item states (13:R311). -/
inductive ItemSt where
  /-- the gang takes no items -/
  | no
  | live | finished | empty
  deriving DecidableEq, Repr

/-- A live thread. -/
structure Thread where
  fam : Word
  inh : Word
  lin : BitVec 96
  /-- lineage at creation (06:R138) -/
  clin : BitVec 96
  cnt : Nat
  item : ItemSt
  rngc : DWord
  /-- capsule registers that are not zero -/
  c : Assoc Word
  link : Link
  deriving DecidableEq, Repr

/-- A fault token's record (12:R277, R283): the load and the cause it would have raised. -/
structure Token where
  addr : DWord
  /-- access-slice address of the load's first word or prefix -/
  src : DWord
  size : Nat
  sgn : Bool
  cause : Nat
  reason : Nat
  x : BitVec 17
  d1 : Word
  d2 : Word
  /-- bytes of the page on which it failed -/
  page : Nat
  deriving DecidableEq, Repr

/-- A queue entry (12:R277). -/
inductive QEnt where
  | val (w : Word)
  /-- a load in flight, by its request; `pop` for one that `tret` re-issued, a read of the popping context (12:R284); `io` is the tick of the
  I/O die at its issue (18:R422) -/
  | pend (req : Nat) (addr : DWord) (size : Nat) (sgn : Bool) (src : DWord) (pop : Bool) (io : Nat)
  | tok (t : Token)
  deriving DecidableEq, Repr

/-- A queue of a gang (12:R278). -/
structure Queue where
  ca : Bool
  depth : Nat
  limit : Nat
  ents : Assoc (List QEnt)
  deriving DecidableEq, Repr

/-- The spin detector (01:R31). -/
structure Spin where
  /-- branch word and target -/
  at_ : DWord
  tgt : DWord
  /-- draw of the hash of the iteration under way -/
  hash : DWord
  last : Option DWord
  same : Nat
  /-- lines loaded in the iteration under way, and in the one before it -/
  lines : List Nat
  prev : List Nat
  spinning : Bool
  deriving DecidableEq, Repr

/-- A gang. -/
structure Gang where
  group : Nat
  launch : Nat
  num : Nat
  width : Nat
  /-- core, quadrant 0 to 3 and slot 0 to 63 while resident -/
  core : Option Nat
  quad : Nat
  slot : Nat
  /-- program dune it was fired from (13:R299) -/
  dune : Option Nat
  prio : Nat
  threads : Assoc Thread
  cctx : Ctx
  actx : Option Ctx
  queues : Assoc Queue
  savep : DWord
  /-- tick since which it is evictable (01:R25) -/
  evictable : Option Nat
  /-- queue deadlock: tick of its start, and whether its event was posted (12:R288) -/
  deadlock : Option (Nat × Bool)
  spin : Option Spin
  deriving DecidableEq, Repr

/-! ### Long forms in flight -/

/-- A line of a copy (09:R206): destination line and whether it has landed. -/
structure CopyPart where
  lane : Nat
  /-- destination: scratchpad (group, address) or global (MT·2^52 + PA) -/
  spad : Bool
  group : Nat
  dst : Nat
  key : BitVec 10
  bytes : List Byte
  poison : Bool
  deriving DecidableEq, Repr

/-- A matrix operation as captured at issue (11:R251, R257): what it writes, or what it has yet to read. -/
inductive MatOp where
  /-- bytes for the operand buffer, by offset, with their poison -/
  | load (ws : List (Nat × Byte × Bool))
  /-- bytes of the operand buffer for scratchpads: group, offset, operand-buffer offset -/
  | store (ms : List (Nat × Nat × Nat))
  /-- bytes for scratchpads -/
  | put (ws : List (Nat × Nat × Byte × Bool))
  | mac (int zero : Bool) (tile m n k arow akof brow bkof : Nat) (ra rb : Rec)
  /-- quantising: super-scale pattern and scale codes, groups and offsets of the data, of the statistics, and of the bytes of its record that it
  writes as zero -/
  | quant (tile : Nat) (e4 sat col : Bool) (scale : Nat) (codes : List Nat) (dg d sg st : Nat) (zeros : List (Nat × Nat))
  deriving DecidableEq, Repr

/-- What a long form still has to do. -/
inductive OpData where
  /-- nothing: it completes at once -/
  | none
  /-- requests at home slices, for the lanes in `left` -/
  | home
  /-- a store that completes when its writes are performed -/
  | store
  | copy (parts : List CopyPart) (granted : Bool)
  | matrix (m : MatOp) (group : Nat) (granted : Bool)
  /-- parts of a fence that are not complete: `acq` until the earlier reads have passed their check (09:R218) -/
  | fence (rel acq : Bool) (sco : BitVec 3)
  /-- waits for something else: a hold, an acceptance, an anchor -/
  | wait
  /-- waits for the phase of its arrival at a barrier (15:R374) -/
  | bar
  /-- waits for a later phase than `a` (15:R374) -/
  | barw (a : Word)
  deriving DecidableEq, Repr

/-- A long form in flight (02:R52, R53). -/
structure Op where
  gang : Nat
  access : Bool
  launch : Nat
  core : Nat
  i : Instr
  sb : BitVec 2
  la : Nat
  /-- clause number and index of the instruction in its clause -/
  serial : Nat
  idx : Nat
  /-- clause progress at its issue, to return to on a trap -/
  cur : Cursor
  mix : Bool
  /-- lanes it was issued in, lanes not yet complete, lanes that failed with their trap -/
  lanes : Mask
  left : Mask
  fails : Assoc TrapRec
  data : OpData
  /-- copies of its source registers at issue, and queue entries popped, for a lane that fails -/
  vsrc : Assoc Reg
  ssrc : Assoc Reg
  pops : List (Nat × Nat × QEnt)
  /-- reference tick of its issue -/
  tick : Nat
  /-- samples that performance counters take at its completion, by event code (17:R404, R406) -/
  samples : List (Nat × Nat) := []
  deriving DecidableEq, Repr

/-! ### Home slices -/

/-- An access translated for the home slice, of one lane of a long form (09:R214). -/
structure Req where
  /-- the long form in `ops` -/
  op : Nat
  gang : Nat
  access : Bool
  lane : Nat
  va : DWord
  mt : BitVec 2
  key : BitVec 10
  pa : Nat
  sh : Bool
  /-- the operand words (B, then C), read at issue -/
  b : List Word
  c : List Word
  /-- held by the home slice for a promotion of the releasing core (10:R235) -/
  promoting : Bool
  /-- the releasing core has performed its buffered writes -/
  promoted : Bool
  /-- the long form, once the home slice has accepted its operation and its lane is complete, while the act is still to come (09:R212) -/
  late : Option Op := none
  /-- tick of the I/O die at its issue (18:R422, R433) -/
  io : Nat := 0
  deriving DecidableEq, Repr

/-- A waiter on an address (09:R215): the lane, the width in words, the address as the lane gave it, and whether a notify has woken it while it could not
continue. -/
structure Waiter where
  gang : Nat
  access : Bool
  lane : Nat
  op : Nat
  words : Nat
  va : DWord
  key : BitVec 10
  woken : Bool
  /-- woken by `notify1`, whose wake passes on at a kill -/
  single : Bool
  /-- the read of its wake has been made -/
  read : Bool
  deriving DecidableEq, Repr

/-- A contender of an anchor (15:R365). -/
structure Contender where
  gang : Nat
  lane : Nat
  deriving DecidableEq, Repr

/-- Home slices: pending acts, monitors and contender FIFOs (15:R348, R371). -/
structure HomeSys where
  q : Assoc Req
  /-- waiters by physical address, in order of arrival -/
  monitors : Assoc (List Waiter)
  /-- contenders by anchor address, in order of arrival -/
  fifos : Assoc (List Contender)
  /-- number of the last act on each entry and its slice, by entry: 2·line for waiters, 2·line + 1 for an anchor (15:R371) -/
  lastAct : Assoc (Nat × Nat)
  /-- lines of anchors that are active (15:R352) -/
  anchors : Assoc Unit
  /-- entries that lie in the spill table -/
  spilled : Assoc Unit
  /-- base of the spill table in HBM and the records it can hold; set by system software at boot -/
  spillBase : Nat
  spillCap : Nat
  deriving DecidableEq, Repr

/-- A read that a later acquire fence checks, with the record it met (09:R218, 10:R234). -/
structure Read where
  gang : Nat
  access : Bool
  lane : Nat
  va : DWord
  pa : Nat
  rel : RelRec
  deriving DecidableEq, Repr

/-! ### Cores and control -/

structure CoreSys where
  /-- reservation records that are held, keyed 64·core + number (11:R248) -/
  recs : Assoc Rec
  /-- holders of trap permits, by core (16:R383) -/
  permits : List (Nat × Site)
  /-- gang that is last in the round-robin order of each level, keyed 8·pipe + level; a pipe is 8·core + quadrant, 4 the access pipe
  (01:R29, R449) -/
  last : Assoc Nat
  /-- scratchpad lines held by the matrix engine, keyed group·2^32 + line, with the operation (10:R243) -/
  heldLines : Assoc Nat
  /-- reads that wait for an acquire fence -/
  reads : List Read
  deriving DecidableEq, Repr

/-- What a delegation comes from: a context, or the ring of a dune, named by its launch, the launch's order of acceptance, and its
number (16:R389, 13:R304). -/
inductive DelegSrc where
  | context (x : Site)
  | ring (launch seq dune : Nat)
  deriving DecidableEq, Repr

/-- A delegation entry not yet resolved (16:R389). -/
structure Deleg where
  src : DelegSrc
  trap : TrapRec
  arg : Word
  direct : Bool
  double : Bool
  deriving DecidableEq, Repr

/-- A delegation or event that waits for room in its ring (16:R401). -/
structure Event where
  kind : Nat
  code : Word
  idn : DWord
  addr : DWord
  lanes : DWord
  deriving DecidableEq, Repr

/-- A run-control query in progress (14:R333). -/
structure Hold where
  launch : Nat
  /-- the querying thread's gang and lane, for `rcq` -/
  q : Option (Nat × Nat)
  op : Option Nat
  rec_ : List Byte
  /-- command entry: RESULT, RBUF, TAG, FLAGS, FAMV -/
  result : DWord
  rbuf : DWord
  tag : Word
  flags : Word
  famv : Word
  /-- family words of the querying thread -/
  fams : List Word
  /-- the command ring it was taken from -/
  ring : Nat
  cores : List Nat
  deriving DecidableEq, Repr

/-- A TLB invalidation: owner, range, and the accesses translated through its old entries that were not yet performed, by the keys of their
buffered writes, requests and long forms; it is complete once none of these stands (08:R174). -/
structure Inval where
  owner : Nat
  lo : DWord
  hi : DWord
  waits : List Nat
  deriving DecidableEq, Repr

structure CtlSys where
  holds : Assoc Hold
  delegs : Assoc Deleg
  /-- control blocks of the delegation and event rings, at HBM addresses under KEY 0 (16:R401) -/
  dring : Option Nat
  ering : Option Nat
  /-- events that wait for room -/
  pending : List Event
  /-- status of the last eviction that system software requested: it failed (16:R393) -/
  evictFailed : Bool
  /-- TLB invalidations that are not complete -/
  invals : List Inval
  deriving DecidableEq, Repr

/-! ### Device -/

/-- A request at a cluster's current-reservation arbiter (18:R430). -/
structure ArbReq where
  op : Nat
  demand : Nat
  capsule : Bool
  deriving DecidableEq, Repr

structure Arb where
  q : List ArbReq
  /-- grants held: operation and demand -/
  out : List (Nat × Nat)
  deriving DecidableEq, Repr

/-- A window of a peer port (18:R421). -/
structure Window where
  base : Nat
  len : Nat
  key : BitVec 10
  we : Bool
  deriving DecidableEq, Repr

/-- The boot flash (18:R424): bytes that differ from what an unlisted one reads as, and the draw of the last recovery programming; before
any, an unlisted byte of a slot is erased. -/
structure Flash where
  bytes : Assoc Byte
  draw : Option Nat
  deriving DecidableEq, Repr

/-- A flash slot (18:R424): the fields of its header and where it begins. -/
structure Slot where
  base : Nat
  magic : Word
  hver : Word
  fwver : Nat
  len : Nat
  entry : DWord
  digest : BitVec 256
  deriving DecidableEq, Repr

/-- The attestation mailbox (18:R425, R426). -/
structure Mailbox where
  status : Nat
  nonce : List Byte
  /-- bytes 0x000 to 0x07F of the report -/
  report : List Byte
  /-- draw of its signature -/
  sig : Nat
  mlog : BitVec 256
  serialNo : BitVec 128
  /-- a recovery command is under way -/
  recovery : Bool
  deriving DecidableEq, Repr

structure Device where
  /-- reference counters by cluster, and the I/O die's (17:R403) -/
  ticks : Assoc Nat
  ioTick : Nat
  energy : Assoc (BitVec 64)
  devEnergy : BitVec 64
  /-- advances that each cluster's accumulator and the device's have made (17:R408) -/
  advances : Assoc Nat
  devAdvances : Nat
  /-- energy that clusters have measured since the device accumulator advanced last -/
  measured : Nat
  arb : Assoc Arb
  /-- device settings that differ from their reset value, by offset (18:R433) -/
  settings : Assoc Nat
  /-- peer ports whose link is down -/
  linkDown : Assoc Unit
  /-- KEY to which system software binds the range of the host's HDM decoder (18:R414) -/
  hdmKey : BitVec 10
  /-- base of that decoder in host physical addresses (18:R414) -/
  hdmBase : Nat
  /-- what the last access of the host or of a peer was answered with: bytes read; none where it was refused or had no effect -/
  answer : Option (List Byte)
  /-- windows, keyed 16·port + number -/
  windows : Assoc Window
  fwver : Nat
  err : Nat
  slot : Nat
  stage : Nat
  flash : Flash
  fuses : Nat
  /-- what the ROM copied into resident-core memory, and the offset at which resident core 0 starts it (18:R424) -/
  program : List Byte
  entry : DWord
  /-- DIGEST of the running image -/
  image : BitVec 256
  mbox : Mailbox
  deriving DecidableEq, Repr

/-- The machine. `agenda`, `turn`, `cur`, `nextId` and `draws` are the model's own fields (DESIGN CHOICE, log 1). -/
structure State where
  /-- happenings that come next, in order; with none the model's scheduler chooses -/
  agenda : List Happening
  /-- steps for which the agenda named nothing -/
  turn : Nat
  /-- the context for which an instruction constructor acts -/
  cur : Option Site
  nextId : Nat
  /-- number of free values drawn -/
  draws : Nat
  mem : MemSys
  home : HomeSys
  launches : LaunchSys
  groups : Assoc Group
  gangs : Assoc Gang
  ops : Assoc Op
  cores : CoreSys
  ctl : CtlSys
  dev : Device
  deriving DecidableEq, Repr

/-- The machine right after reset: no launch, nothing resident, memory with nothing listed, rings disabled, settings at
their reset values, boot status 0 (17:R402, 18:R423, R433); what the spec leaves open is in the log (3 to 11). -/
def State.reset : State :=
  { agenda := [], turn := 0, cur := none, nextId := 0, draws := 0
    mem := { bytes := [], training := 0, areas := [], keyPairs := [], lineKey := [], poison := [], rel := [], homeTag := [], hostCopy := [], l1Tag := [], icache := [], tlb := [],
             ctlb := [], ats := [], wbuf := [], hostWr := [], errSlice := [], errStack := [], owners := [] }
    home := { q := [], monitors := [], fifos := [], lastAct := [], anchors := [], spilled := [], spillBase := 2 ^ 37, spillCap := 65536 }
    launches := { tab := [], last := none, seq := 0, rings := [], msix := [], msi := Msix.reset, savePool := 2 ^ 40, saveNext := 2 ^ 38 }
    groups := [], gangs := [], ops := []
    cores := { recs := [], permits := [], last := [], heldLines := [], reads := [] }
    ctl := { holds := [], delegs := [], dring := some 0x10000, ering := some 0x20000, pending := [], evictFailed := false, invals := [] }
    dev := { ticks := [], ioTick := 0, energy := [], devEnergy := 0#64, advances := [], devAdvances := 0, measured := 0, arb := [], settings := [], linkDown := [],
             hdmKey := 0#10, hdmBase := 0, answer := none,
             windows := [], fwver := 0, err := 0, slot := 0, stage := 0, flash := ⟨[], none⟩, fuses := 0, program := [], entry := 0#64, image := 0#256
             mbox := { status := 0, nonce := List.replicate 32 0#8, report := [], sig := 0, mlog := 0#256, serialNo := 0#128, recovery := false } } }

end Sys2Proof.Machine
end

