-- ==== Sys2Proof/Machine/Access.lean ====
section
/-! DEFINITION. Named updates of the state and the lookups that every operation uses: gangs, contexts, groups, launches,
threads and masks of lanes. -/

namespace Sys2Proof.Machine

/-- The state with another `agenda`. -/
def State.setAgenda (s : State) (x : List Happening) : State := { s with agenda := x }
/-- The state with another `turn`. -/
def State.setTurn (s : State) (x : Nat) : State := { s with turn := x }
/-- The state with another `cur`. -/
def State.setCur (s : State) (x : Option Site) : State := { s with cur := x }
/-- The state with another `nextId`. -/
def State.setNextId (s : State) (x : Nat) : State := { s with nextId := x }
/-- The state with another `draws`. -/
def State.setDraws (s : State) (x : Nat) : State := { s with draws := x }
/-- The state with another `mem`. -/
def State.setMem (s : State) (x : MemSys) : State := { s with mem := x }
/-- The state with another `home`. -/
def State.setHome (s : State) (x : HomeSys) : State := { s with home := x }
/-- The state with another `launches`. -/
def State.setLaunches (s : State) (x : LaunchSys) : State := { s with launches := x }
/-- The state with another `groups`. -/
def State.setGroups (s : State) (x : Assoc Group) : State := { s with groups := x }
/-- The state with another `gangs`. -/
def State.setGangs (s : State) (x : Assoc Gang) : State := { s with gangs := x }
/-- The state with another `ops`. -/
def State.setOps (s : State) (x : Assoc Op) : State := { s with ops := x }
/-- The state with another `cores`. -/
def State.setCores (s : State) (x : CoreSys) : State := { s with cores := x }
/-- The state with another `ctl`. -/
def State.setCtl (s : State) (x : CtlSys) : State := { s with ctl := x }
/-- The state with another `dev`. -/
def State.setDev (s : State) (x : Device) : State := { s with dev := x }

/-! ### Masks and bytes -/

/-- The lanes of a mask in rising order (03:R68: bit n for lane n). -/
def lanesOf (m : Mask) : List Nat := (List.range 64).filter fun n => m.getLsbD n

/-- The mask of one lane. -/
def bit (n : Nat) : Mask := BitVec.twoPow 64 n

/-- The mask of a list of lanes. -/
def maskOf (ls : List Nat) : Mask := ls.foldl (fun m n => m ||| bit n) 0#64

/-- The lowest-numbered lane of a mask: the nib of active lanes (03:R81). -/
def lowest (m : Mask) : Option Nat := (lanesOf m).head?

/-- The mask of every lane of a gang of width `w`. -/
def widthMask (w : Nat) : Mask := BitVec.ofNat 64 (2 ^ w - 1)

/-- Little-endian number of bytes (00:R5). -/
def leNat : List Byte → Nat
  | [] => 0
  | b :: bs => b.toNat + 256 * leNat bs

/-- `n` bytes of a number, little-endian (00:R5). -/
def leBytes : Nat → Nat → List Byte
  | 0, _ => []
  | n + 1, x => BitVec.ofNat 8 x :: leBytes n (x / 256)

/-- The bytes of words in rising order. -/
def wordBytes (ws : List Word) : List Byte := (ws.map fun w => leBytes 4 w.toNat).flatten

/-- `n` words of bytes. -/
def bytesWords : Nat → List Byte → List Word
  | 0, _ => []
  | n + 1, bs => BitVec.ofNat 32 (leNat (bs.take 4)) :: bytesWords n (bs.drop 4)

/-- A pair of words as 64 bits, the low word first (00:R5). -/
def dword (lo hi : Word) : DWord := hi ++ lo
/-- The words of 64 bits, the low word first. -/
def dwords (x : DWord) : List Word := [x.extractLsb' 0 32, x.extractLsb' 32 32]

/-- Sign extension of the low `n` bits as an integer (03:R81). -/
def sextInt (x n : Nat) : Int :=
  let y := x % 2 ^ n
  if 2 ^ n ≤ 2 * y then (y : Int) - 2 ^ n else y

/-- An integer as an `n`-bit pattern (03:R81 `wrap`). -/
def wrapNat (x : Int) (n : Nat) : Nat := (x % (2 ^ n : Int)).toNat

/-- An integer as a 32-bit pattern. -/
def wrap32 (x : Int) : Word := BitVec.ofInt 32 x
/-- An integer as a 64-bit pattern. -/
def wrap64 (x : Int) : DWord := BitVec.ofInt 64 x

/-! ### Lookups -/

namespace State

def gang? (s : State) (g : Nat) : Option Gang := s.gangs.get? g
def group? (s : State) (g : Nat) : Option Group := s.groups.get? g
def launch? (s : State) (l : Nat) : Option Launch := s.launches.tab.get? l
def op? (s : State) (o : Nat) : Option Op := s.ops.get? o

def updGang (s : State) (g : Nat) (f : Gang → Gang) : State := s.setGangs (s.gangs.upd g f)
def updGroup (s : State) (g : Nat) (f : Group → Group) : State := s.setGroups (s.groups.upd g f)
def updOp (s : State) (o : Nat) (f : Op → Op) : State := s.setOps (s.ops.upd o f)
def updLaunch (s : State) (l : Nat) (f : Launch → Launch) : State :=
  s.setLaunches { s.launches with tab := s.launches.tab.upd l f }

/-- A fresh key, and the state in which it is used. -/
def freshId (s : State) : Nat × State := (s.nextId, s.setNextId (s.nextId + 1))

/-- A fresh argument for a free value, and the state in which it is used (DESIGN CHOICE, log 1). -/
def draw (s : State) : Nat × State := (s.draws, s.setDraws (s.draws + 1))

end State

/-- The context of a gang. -/
def Gang.ctx? (g : Gang) (access : Bool) : Option Ctx := if access then g.actx else some g.cctx

/-- Changes one context of a gang. -/
def Gang.updCtx (g : Gang) (access : Bool) (f : Ctx → Ctx) : Gang :=
  if access then { g with actx := g.actx.map f } else { g with cctx := f g.cctx }

def State.ctx? (s : State) (x : Site) : Option Ctx :=
  match s.gang? x.gang with
  | none => none
  | some g => g.ctx? x.access

def State.updCtx (s : State) (x : Site) (f : Ctx → Ctx) : State := s.updGang x.gang fun g => g.updCtx x.access f

/-- Changes one thread of a gang. -/
def State.updThread (s : State) (g lane : Nat) (f : Thread → Thread) : State :=
  s.updGang g fun x => { x with threads := x.threads.upd lane f }

/-- Changes one lane of a context. -/
def Ctx.updLane (c : Ctx) (lane : Nat) (f : LaneSt → LaneSt) : Ctx := { c with lanes := c.lanes.upd lane f }

/-- Changes the lanes of a mask. -/
def Ctx.updLanes (c : Ctx) (m : Mask) (f : LaneSt → LaneSt) : Ctx :=
  { c with lanes := c.lanes.mapVal fun n l => if m.getLsbD n then f l else l }

/-- The mask of the lanes that meet a condition. -/
def Ctx.laneMask (c : Ctx) (p : Nat → LaneSt → Bool) : Mask := maskOf (c.lanes.keep p).keys

/-- The cluster of a core (08:R177, 00:R2). -/
def clusterOf (core : Nat) : Nat := core / Config.coresPerCluster
/-- The other core of a pair. -/
def partnerOf (core : Nat) : Nat := if core % 2 = 0 then core + 1 else core - 1

/-- The reference counter of a cluster (17:R403). -/
def State.tick (s : State) (cluster : Nat) : Nat := s.dev.ticks.getD cluster 0

/-- The identity word of a thread (01:R13). -/
def identity (launch team grp num lane : Nat) (access : Bool) : DWord :=
  BitVec.ofNat 16 launch ++ BitVec.ofNat 26 team ++ BitVec.ofNat 1 grp ++ BitVec.ofNat 4 num ++ BitVec.ofNat 6 lane ++
  BitVec.ofBool access ++ 0#10

/-- The identity of a lane of a gang. -/
def State.idn (s : State) (g lane : Nat) (access : Bool) : DWord :=
  match s.gang? g with
  | none => 0#64
  | some x => match s.group? x.group with
    | none => 0#64
    | some r => identity x.launch r.team r.grp x.num lane access

/-- The core of a gang while it is resident. -/
def State.coreOf (s : State) (g : Nat) : Option Nat :=
  match s.gang? g with
  | none => none
  | some x => x.core

/-- The cluster of a gang's group. -/
def State.clusterOfGang (s : State) (g : Nat) : Nat :=
  match s.gang? g with
  | none => 0
  | some x => match s.group? x.group with
    | none => 0
    | some r => r.cluster

/-- The group that the partner window of a group shows: the other group of its team, kept until both have ended (01:R10, 08:R184,
log 31). -/
def State.windowGroup (s : State) (g : Nat) : Option Nat :=
  match s.group? g with
  | none => none
  | some r => ((s.groups.keep fun k x => decide (k ≠ g ∧ x.launch = r.launch ∧ x.team = r.team)).keys).head?

/-- The gangs of a group that have not retired. -/
def State.gangsOf (s : State) (g : Nat) : List Nat := (s.gangs.keep fun _ x => decide (x.group = g)).keys

/-- The other group of a two-group team, unless all its gangs have retired (01:R27). -/
def State.partnerGroup (s : State) (g : Nat) : Option Nat :=
  match s.windowGroup g with
  | none => none
  | some p => if (s.gangsOf p).isEmpty then none else some p

/-- The device settings of 18:R433: range and reset value by offset. -/
def settingRange (ofs : Nat) : Option (Nat × Nat × Nat) :=
  if ofs = 0x0000 then some (0, 1048576, 16384)
  else if ofs = 0x0008 then some (256, 1048576, 4096)
  else if ofs = 0x0010 then some (4096, 16777216, 1048576)
  else if ofs = 0x0018 then some (1000, 100000000, 1000000)
  else if 0x0100 ≤ ofs ∧ ofs < 0x01C0 ∧ ofs % 8 = 0 then some (8, 400, 160)
  else if 0x0200 ≤ ofs ∧ ofs < 0x02C0 ∧ ofs % 8 = 0 then some (0, 7, 3)
  else none

/-- The value of a device setting (18:R433). -/
def State.setting (s : State) (ofs : Nat) : Nat :=
  match settingRange ofs with
  | none => 0
  | some (_, _, r) => s.dev.settings.getD ofs r

end Sys2Proof.Machine
end

