-- ==== Sys2Proof/Machine/Crypt.lean ====
section
/-! DEFINITION. AES-256-XTS, under which the memory controllers keep the lines of HBM (08:R179, R181). The cipher itself is that of
FIPS 197 and IEEE 1619, which the spec names and does not repeat (PRESUMED, log 75). -/

namespace Sys2Proof.Machine

/-! ### The field of AES -/

/-- Multiplication by x modulo x^8 + x^4 + x^3 + x + 1. -/
def xtime (a : Byte) : Byte := if a.getLsbD 7 then (a <<< 1) ^^^ 0x1B#8 else a <<< 1

/-- Product of two elements, over the last `n` bits of the second. -/
def gfMul (a b : Byte) : Nat → Byte
  | 0 => 0#8
  | n + 1 => (if b.getLsbD (7 - n) then a else 0#8) ^^^ gfMul (xtime a) b n

/-- The product of two elements. -/
def gf (a b : Byte) : Byte := gfMul a b 8

/-- The inverse, 0 for 0: the 254th power. -/
def gfInv (a : Byte) : Byte :=
  let a2 := gf a a
  let a4 := gf a2 a2
  let a8 := gf a4 a4
  let a16 := gf a8 a8
  let a32 := gf a16 a16
  let a64 := gf a32 a32
  let a128 := gf a64 a64
  gf a2 (gf a4 (gf a8 (gf a16 (gf a32 (gf a64 a128)))))

/-- The byte substitution and its inverse. -/
def subByte (a : Byte) : Byte :=
  let b := gfInv a
  b ^^^ b.rotateLeft 1 ^^^ b.rotateLeft 2 ^^^ b.rotateLeft 3 ^^^ b.rotateLeft 4 ^^^ 0x63#8
def subByteInv (a : Byte) : Byte := gfInv (a.rotateLeft 1 ^^^ a.rotateLeft 3 ^^^ a.rotateLeft 6 ^^^ 0x05#8)

/-! ### Blocks -/

/-- Bytes, one by one. -/
def xorBytes (a b : List Byte) : List Byte := List.zipWith (· ^^^ ·) a b

/-- Rows of a block, whose bytes stand column by column, rotated: row r by `k`·r columns. -/
def shiftRows (k : Nat) (b : List Byte) : List Byte := (List.range 16).map fun i => b.getD ((i + 4 * k * (i % 4)) % 16) 0#8

/-- Every column times the circulant of four coefficients. -/
def mixColumns (m : List Byte) (b : List Byte) : List Byte :=
  (List.range 16).map fun i => ((List.range 4).map fun j => gf (m.getD ((j + 4 - i % 4) % 4) 0#8) (b.getD (i / 4 * 4 + j) 0#8)).foldl (· ^^^ ·) 0#8

/-- The words of the key schedule of AES-256, newest first: `n` more after those of the key. -/
def expandKey : Nat → List (List Byte)  → List (List Byte)
  | 0, ws => ws
  | n + 1, ws =>
    let i := ws.length
    let t := ws.headD []
    let t := if i % 8 = 0 then
        let r := (t.drop 1 ++ t.take 1).map subByte
        xorBytes r [(List.range (i / 8 - 1)).foldl (fun c _ => xtime c) 0x01#8, 0#8, 0#8, 0#8]
      else if i % 8 = 4 then t.map subByte else t
    expandKey n (xorBytes t (ws.getD 7 []) :: ws)

/-- Consecutive pieces of `k` bytes. -/
def pieces (k : Nat) : Nat → List Byte → List (List Byte)
  | 0, _ => []
  | n + 1, bs => bs.take k :: pieces k n (bs.drop k)

/-- The fifteen round keys of a 32-byte key, first to last. -/
def roundKeys (key : List Byte) : List (List Byte) :=
  pieces 16 15 (expandKey 52 (pieces 4 8 key).reverse).reverse.flatten

/-- Encrypts a block under round keys. -/
def aesEnc (ks : List (List Byte)) (b : List Byte) : List Byte :=
  let b := (List.range 13).foldl (fun b r =>
    xorBytes (mixColumns [2#8, 3#8, 1#8, 1#8] (shiftRows 1 (b.map subByte))) (ks.getD (r + 1) [])) (xorBytes b (ks.getD 0 []))
  xorBytes (shiftRows 1 (b.map subByte)) (ks.getD 14 [])

/-- Decrypts a block under round keys. -/
def aesDec (ks : List (List Byte)) (b : List Byte) : List Byte :=
  let b := (List.range 13).foldl (fun b r =>
    mixColumns [14#8, 11#8, 13#8, 9#8] (xorBytes ((shiftRows 3 b).map subByteInv) (ks.getD (13 - r) []))) (xorBytes b (ks.getD 14 []))
  xorBytes ((shiftRows 3 b).map subByteInv) (ks.getD 0 [])

/-! ### Lines -/

/-- The tweak of the next block: multiplication by x in the field of 2^128. -/
def nextTweak (t : List Byte) : List Byte :=
  let x := 2 * leNat t
  leBytes 16 (if 2 ^ 128 ≤ x then (x - 2 ^ 128) ^^^ 0x87 else x)

/-- The blocks of a data unit, each between two additions of its tweak. -/
def xtsBlocks (f : List Byte → List Byte) : Nat → List Byte → List Byte → List Byte
  | 0, _, _ => []
  | n + 1, t, bs => xorBytes (f (xorBytes (bs.take 16) t)) t ++ xtsBlocks f n (nextTweak t) (bs.drop 16)

/-- A 128-byte line encrypted or decrypted as one data unit: its tweak is PA[51:7] (08:R179). The pair of a KEY is 64 bytes, the data key
first. -/
def xtsEnc (pair : List Byte) (line : Nat) (bs : List Byte) : List Byte :=
  xtsBlocks (aesEnc (roundKeys (pair.take 32))) 8 (aesEnc (roundKeys (pair.drop 32)) (leBytes 16 line)) bs
def xtsDec (pair : List Byte) (line : Nat) (bs : List Byte) : List Byte :=
  xtsBlocks (aesDec (roundKeys (pair.take 32))) 8 (aesEnc (roundKeys (pair.drop 32)) (leBytes 16 line)) bs

end Sys2Proof.Machine
end

