-- ==== Sys2Proof/Machine/Mem.lean ====
section
/-! DEFINITION. Global memory, caches, release records, write buffers, translation and the scratchpad (08, 10:R221 to
R233). -/

namespace Sys2Proof.Machine

/-! ### Bytes of global memory -/

/-- The canonical form of memory: addresses strictly rising. An unlisted byte was never written and reads as a free
value, so no listed byte can equal what an unlisted one reads as (DESIGN CHOICE, log 2). -/
abbrev Memory.wf (m : List (Nat × Byte)) : Bool := Assoc.wf m

/-- Key of a byte: MT·2^52 + PA. -/
def byteKey (mt : BitVec 2) (pa : Nat) : Nat := mt.toNat * 2 ^ 52 + pa
/-- Key of the 128-byte line of a byte. -/
def lineOf (mt : BitVec 2) (pa : Nat) : Nat := mt.toNat * 2 ^ 45 + pa / 128

/-- Home slice of a line of HBM (08:R177). -/
def homeSlice (pa : Nat) (sh : Bool) : Nat :=
  let n := if sh then pa / 4096 * 32 else pa / 128
  let h := ((n % 2 ^ 15) ^^^ (n / 2 ^ 15 % 2 ^ 15)) ^^^ (n / 2 ^ 30 % 2 ^ 15)
  h % 192

namespace MemSys

/-- The key pair of a KEY (08:R179). -/
def pair (m : MemSys) (key : BitVec 10) : List Byte := leBytes 64 (m.keyPairs.getD key.toNat (Config.keyPair key.toNat)).toNat

/-- The area of the device's own that holds a byte of HBM. -/
def areaOf (m : MemSys) (pa : Nat) : Option Area :=
  ((m.areas.keep fun b a => decide (b ≤ pa ∧ pa < b + a.size)).vals).head?

/-- The KEY under which a line of HBM was last written; areas of the device's own are system software's (08:R178, R179). -/
def keyOf (m : MemSys) (pa : Nat) : Option (BitVec 10) :=
  match m.lineKey.get? (lineOf 0#2 pa) with
  | some k => some k
  | none => (m.areaOf pa).map fun _ => 0#10

/-- What the training of memory left in a byte, read through a KEY: in HBM the decryption of its pattern (08:R181). -/
def bootByte (m : MemSys) (mt : BitVec 2) (key : BitVec 10) (pa : Nat) : Byte :=
  if mt = 0#2 then
    (xtsDec (m.pair key) (pa / 128) ((List.range 128).map fun i => Config.bootByte 0 m.training (pa / 128 * 128 + i))).getD (pa % 128) 0#8
  else Config.bootByte mt.toNat 0 pa

/-- One byte through the KEY of its line; `key` reads what was never written. -/
def ownByte (m : MemSys) (mt : BitVec 2) (key : BitVec 10) (pa : Nat) : Byte :=
  match Assoc.get? m.bytes (byteKey mt pa) with
  | some b => b
  | none => match (if mt = 0#2 then m.areaOf pa else none) with
    | some a => Config.areaByte a.draw pa
    | none => m.bootByte mt key pa

/-- A line of HBM written under the KEY `k`, as it reads through another: its ciphertext decrypted (08:R178, R181). -/
def lineAs (m : MemSys) (k key : BitVec 10) (line : Nat) : List Byte :=
  xtsDec (m.pair key) line (xtsEnc (m.pair k) line ((List.range 128).map fun i => m.ownByte 0#2 k (128 * line + i)))

/-- One byte at the home slice, read through a KEY (08:R178, R181). -/
def readByte (m : MemSys) (mt : BitVec 2) (key : BitVec 10) (pa : Nat) : Byte :=
  if mt ≠ 0#2 then m.ownByte mt key pa
  else match m.keyOf pa with
    | none => m.ownByte 0#2 key pa
    | some k => if k = key then m.ownByte 0#2 key pa else (m.lineAs k key (pa / 128)).getD (pa % 128) 0#8

/-- `n` bytes at the home slice. -/
def readBytes (m : MemSys) (mt : BitVec 2) (key : BitVec 10) (pa : Nat) : Nat → List Byte
  | 0 => []
  | n + 1 => m.readByte mt key pa :: m.readBytes mt key (pa + 1) n

/-- Lists bytes of HBM from an address on. -/
def listBytes (base : Nat) : List Byte → List (Nat × Byte) → List (Nat × Byte)
  | [], bs => bs
  | x :: xs, bs => listBytes (base + 1) xs (Assoc.put bs base x)

/-- Tags a line of HBM with the KEY of a write to it; a line of another KEY is refilled under the new one (08:R178). -/
def tagLine (m : MemSys) (mt : BitVec 2) (key : BitVec 10) (pa : Nat) : MemSys :=
  if mt ≠ 0#2 then m
  else
    let l := lineOf mt pa
    let m' := { m with lineKey := m.lineKey.put l key }
    match m.keyOf pa with
    | none => m'
    | some k => if k = key then m' else { m' with bytes := listBytes (pa / 128 * 128) (m.lineAs k key (pa / 128)) m.bytes }

/-- The device writes an area of its own: nothing else is listed there (15:R371, 16:R392). -/
def writeArea (m : MemSys) (base size draw : Nat) : MemSys :=
  let here (pa : Nat) : Bool := decide (base ≤ pa ∧ pa < base + size)
  { m with bytes := Assoc.keep m.bytes fun k _ => !here k
           lineKey := m.lineKey.keep fun l _ => !here (128 * l)
           poison := m.poison.keep fun l _ => !here (128 * l)
           areas := m.areas.put base ⟨size, draw⟩ }

/-- Whether an area reads as the device wrote it: no other agent has written there since, and no line of it is poisoned (16:R392). -/
def areaGood (m : MemSys) (base size : Nat) : Bool :=
  let here (pa : Nat) : Bool := decide (base ≤ pa ∧ pa < base + size)
  !(m.bytes.any fun e => here e.1) && !(m.poison.keys.any fun l => here (128 * l))

/-- System software loads the key pair of a KEY (08:R179): what HBM holds under the KEY reads through the new pair from then on, but for lines
that a home slice holds dirty under it, which are written back with the new pair (DEDUCED, log 103). -/
def loadPair (m : MemSys) (key : BitVec 10) (p : BitVec 512) (draw : Nat) : MemSys :=
  let dirty (l : Nat) : Bool := (m.homeTag.get? l).any fun h => h.dirty && decide (h.key = key)
  let turn (t : MemSys) (l : Nat) : MemSys :=
    let old := (List.range 128).map fun i => m.ownByte 0#2 key (128 * l + i)
    { t with bytes := listBytes (128 * l) (if dirty l then old else xtsDec (t.pair key) l (xtsEnc (m.pair key) l old)) t.bytes }
  let own := if key = 0#10 then m.areas.keys.map (· / 128) else []
  ((m.lineKey.keep fun _ k => decide (k = key)).keys ++ own).foldl turn
    { m with keyPairs := m.keyPairs.put key.toNat p, areas := if key = 0#10 then m.areas.mapVal fun _ a => { a with draw := draw } else m.areas }

/-- Writes one byte at the home slice. -/
def writeByte (m : MemSys) (mt : BitVec 2) (key : BitVec 10) (pa : Nat) (b : Byte) : MemSys :=
  let m := m.tagLine mt key pa
  { m with bytes := Assoc.put m.bytes (byteKey mt pa) b }

/-- Writes bytes at the home slice. -/
def writeBytes (m : MemSys) (mt : BitVec 2) (key : BitVec 10) (pa : Nat) : List Byte → MemSys
  | [] => m
  | b :: bs => (m.writeByte mt key pa b).writeBytes mt key (pa + 1) bs

/-- Whether a line is poisoned (08:R180). -/
def poisoned (m : MemSys) (mt : BitVec 2) (pa : Nat) : Bool := m.poison.has (lineOf mt pa)

/-- A full-line write clears the poison (08:R180). -/
def unpoison (m : MemSys) (mt : BitVec 2) (pa n : Nat) : MemSys :=
  if pa % 128 = 0 ∧ n = 128 then { m with poison := m.poison.del (lineOf mt pa) } else m

/-! ### Caches: tags change no value that an agent reads (08:R175) -/

/-- Fills a line of a core's L1; a full L1 drops its first line (DESIGN CHOICE, log 12). -/
def l1Fill (m : MemSys) (core : Nat) (line : Nat) (dirty : Bool) : MemSys :=
  let k := core * 2 ^ 47 + line
  let t := m.l1Tag.put k (dirty || m.l1Tag.getD k false)
  let mine := t.keep fun x _ => decide (x / 2 ^ 47 = core)
  { m with l1Tag := if mine.length ≤ 8192 then t else t.del ((mine.keys.filter fun x => decide (x ≠ k)).headD k) }

/-- Fills a line of its home slice under a KEY: a line held under another is written back first, and a full slice of 4 MiB drops its first
line (08:R166, R178; DESIGN CHOICE, log 12). Lines of host and peer memory have no KEY. -/
def homeFill (m : MemSys) (mt : BitVec 2) (key : BitVec 10) (sh : Bool) (pa : Nat) (dirty : Bool) : MemSys :=
  let line := lineOf mt pa
  let key := if mt = 0#2 then key else 0#10
  let slice := homeSlice pa sh
  let was := match m.homeTag.get? line with
    | none => false
    | some h => h.dirty && decide (h.key = key)
  let t := m.homeTag.put line ⟨dirty || was, key, slice⟩
  let mine := t.keep fun _ h => decide (h.slice = slice)
  { m with homeTag := if mine.length ≤ 32768 then t else t.del ((mine.keys.filter fun x => decide (x ≠ line)).headD line) }

/-- A write at the home slice: the directory invalidates the copies of other cores and, of a line of HBM, the host's (10:R239, 18:R413), and the
line is dirty there. -/
def dirWrite (m : MemSys) (core : Option Nat) (mt : BitVec 2) (key : BitVec 10) (sh : Bool) (pa : Nat) : MemSys :=
  { m.homeFill mt key sh pa true with
    hostCopy := if mt = 0#2 then m.hostCopy.del (lineOf mt pa) else m.hostCopy
    l1Tag := m.l1Tag.keep fun x _ => !decide (x % 2 ^ 47 = lineOf mt pa ∧ core ≠ some (x / 2 ^ 47)) }

/-! ### Release records (10:R232, R233) -/

/-- The record of a line of HBM. -/
def relOf (m : MemSys) (line : Nat) : RelRec := m.rel.getD line RelRec.zero

/-- Sets a record; the zero record is not listed. -/
def setRel (m : MemSys) (line : Nat) (r : RelRec) : MemSys := { m with rel := m.rel.putD line r RelRec.zero }

end MemSys

/-- Who writes a line, for its release record (10:R233). -/
structure Writer where
  /-- RCORE, RLNCH and RGID of a release -/
  rcore : BitVec 8
  rlnch : BitVec 16
  rgid : BitVec 31
  /-- TEAM and GRP of a lane of a launch, or of an engine for it; none for the host, peers, resident cores, walkers and
  the dispatcher -/
  group : Option (BitVec 27)
  ordered : Bool
  deriving DecidableEq, Repr

/-- The host and peer devices (10:R232) (DEDUCED, log 54). -/
def Writer.host : Writer := ⟨0xFF#8, 0xFFFF#16, 0#31, none, false⟩
/-- Resident cores and the dispatcher (10:R232). -/
def Writer.resident : Writer := ⟨0xFE#8, 0xFFFF#16, 0#31, none, false⟩

/-- The record after a write: `rel` is the scope of a release, `rmw` says that a relaxed write is a read-modify-write,
which leaves the release fields (10:R233). -/
def RelRec.write (r : RelRec) (w : Writer) (rel : Option (BitVec 3)) (rmw : Bool) : RelRec :=
  let r := match rel with
    | some sco => { r with v := true, rsco := sco, rcore := w.rcore, rlnch := w.rlnch, rgid := w.rgid }
    | none => if rmw then r else { r with v := false, rsco := 0, rcore := 0, rlnch := 0, rgid := 0 }
  match w.group with
  | none => r
  | some g =>
    if w.ordered then
      if r.wv ∧ r.wlnch = w.rlnch then { r with wx := r.wx || decide (r.wtag ≠ g) }
      else { r with wv := true, wlnch := w.rlnch, wtag := g, wx := false }
    else { r with wv := false, wlnch := 0, wtag := 0, wx := false }

/-- An ordered-mode atomic raises SCOPE on a line that another group of its launch wrote (10:R233, 01:R34). -/
def RelRec.orderedConflict (r : RelRec) (w : Writer) : Bool :=
  w.ordered && r.wv && decide (r.wlnch = w.rlnch) && (r.wx || decide (w.group ≠ some r.wtag))

/-- A write at the home slice with its record, tags and poison (08:R175, R180, 10:R233). -/
def MemSys.homeWrite (m : MemSys) (core : Option Nat) (w : Writer) (rel : Option (BitVec 3)) (rmw : Bool)
    (mt : BitVec 2) (key : BitVec 10) (pa : Nat) (bs : List Byte) (sh : Bool := false) : MemSys :=
  let line := lineOf mt pa
  let m := ((m.writeBytes mt key pa bs).unpoison mt pa bs.length).dirWrite core mt key sh pa
  if mt = 0#2 then m.setRel line ((m.relOf line).write w rel rmw) else m

/-- The writer of a lane. -/
def State.writer (s : State) (g : Nat) (lane : Nat) (access : Bool) : Writer :=
  match s.gang? g with
  | none => Writer.resident
  | some x =>
    let idn := s.idn g lane access
    { rcore := BitVec.ofNat 8 (x.core.getD 0), rlnch := BitVec.ofNat 16 x.launch, rgid := idn.extractLsb' 17 31,
      group := some (idn.extractLsb' 21 27),
      ordered := match s.launch? x.launch with | none => false | some l => l.ordered }

/-! ### Write buffers (10:R221) -/

/-- Whether two cores are of one pair. -/
def samePair (a b : Nat) : Bool := decide (a / 2 = b / 2)

/-- The entry of a pair's buffers that entered last among those holding a byte. -/
def WbEnt.holds (e : WbEnt) (mt : BitVec 2) (pa : Nat) : Bool :=
  decide (e.mt = mt ∧ e.pa ≤ pa ∧ pa < e.pa + e.bytes.length)

/-- A byte as an agent of a core's pair reads it: from the pair's buffers, else at the home slice (10:R221). -/
def MemSys.pairByte (m : MemSys) (core : Nat) (mt : BitVec 2) (key : BitVec 10) (pa : Nat) : Byte :=
  let hits := m.wbuf.keep fun _ e => samePair e.core core && e.holds mt pa
  match hits.vals.getLast? with
  | some e => e.bytes.getD (pa - e.pa) 0#8
  | none => m.readByte mt key pa

/-- Bytes as an agent of a core's pair reads them. -/
def MemSys.pairBytes (m : MemSys) (core : Nat) (mt : BitVec 2) (key : BitVec 10) (pa : Nat) : Nat → List Byte
  | 0 => []
  | n + 1 => m.pairByte core mt key pa :: m.pairBytes core mt key (pa + 1) n

/-- Whether two entries share a byte. -/
def WbEnt.overlaps (a b : WbEnt) : Bool :=
  decide (a.mt = b.mt ∧ a.pa < b.pa + b.bytes.length ∧ b.pa < a.pa + a.bytes.length)

/-- The lane that made an entry. -/
def WbEnt.lane? (a b : WbEnt) : Bool := decide (a.gang = b.gang ∧ a.access = b.access ∧ a.lane = b.lane)

/-! ### Translation (08:R168 to R172) -/

/-- Kinds of access (16:R380): KIND 00 read, 01 write, 10 clause fetch, 11 read-modify-write. -/
inductive AccKind where
  | read | write | fetch | rmw
  /-- `waitv`: needs a read's permissions and reports KIND 11 (09:R215) -/
  | waitv
  deriving DecidableEq, Repr

def AccKind.code : AccKind → Nat
  | .read => 0 | .write => 1 | .fetch => 2 | .rmw => 3 | .waitv => 3
def AccKind.writes : AccKind → Bool
  | .write | .rmw => true
  | _ => false

/-- A fault of translation or permission: cause 3 XLATE or 4 PROTECT, reason and level (16:R380). -/
structure XFault where
  cause : Nat
  reason : Nat
  level : Nat
  /-- bytes of the page: those that a leaf maps, else 4 KiB (08:R168, R173) (DEDUCED, log 76) -/
  page : Nat := 4096
  deriving DecidableEq, Repr

/-- A translated address. -/
structure Xlat where
  mt : BitVec 2
  key : BitVec 10
  pa : Nat
  sh : Bool
  /-- level of the leaf, and bytes of its page -/
  level : Nat
  page : Nat
  deriving DecidableEq, Repr

/-- Bits [63:57] all equal bit 56 (08:R168). -/
def canonical (va : DWord) : Bool :=
  let t := (va.extractLsb' 56 8).toNat
  decide (t = 0 ∨ t = 255)

/-- Whether a physical address lies in the memory installed for its MT (08:R179, DESIGN CHOICE, log 3). -/
def installed (mt : BitVec 2) (pa : Nat) : Bool :=
  match mt.toNat with
  | 0 => decide (pa < Config.hbmBytes)
  | 1 => decide (pa < Config.hostBytes)
  | _ => decide (pa < 2 ^ 52)

/-- Fields of a page-table entry (08:R169). -/
structure Pte where
  raw : DWord
  deriving DecidableEq, Repr

namespace Pte
def x (e : Pte) : Bool := e.raw.getLsbD 63
def sh (e : Pte) : Bool := e.raw.getLsbD 62
def key (e : Pte) : BitVec 10 := e.raw.extractLsb' 52 10
def pa (e : Pte) : Nat := (e.raw.extractLsb' 12 40).toNat * 4096
def rsv (e : Pte) : Bool := decide (e.raw.extractLsb' 9 3 ≠ 0#3)
def contig (e : Pte) : Bool := e.raw.getLsbD 8
def leaf (e : Pte) : Bool := e.raw.getLsbD 7
def d (e : Pte) : Bool := e.raw.getLsbD 6
def a (e : Pte) : Bool := e.raw.getLsbD 5
def mt (e : Pte) : BitVec 2 := e.raw.extractLsb' 3 2
def u (e : Pte) : Bool := e.raw.getLsbD 2
def w (e : Pte) : Bool := e.raw.getLsbD 1
def v (e : Pte) : Bool := e.raw.getLsbD 0
/-- The fields of a table entry that must be zero (08:R169). -/
def tableOk (e : Pte) : Bool :=
  !e.x && !e.sh && decide (e.key = 0#10) && !e.contig && !e.d && !e.a && decide (e.mt = 0#2)
end Pte

/-- Reads an 8-byte entry of a table in device HBM under a KEY: of a root table its owner's, of another that of the entry which names it, zero
(08:R169, 18:R418) (DEDUCED, log 106). -/
def MemSys.pte (m : MemSys) (key : BitVec 10) (pa : Nat) : Pte := ⟨BitVec.ofNat 64 (leNat (m.readBytes 0#2 key pa 8))⟩

/-- Bytes mapped by a leaf of a level (08:R168). -/
def pageSize (level : Nat) : Nat := if level = 3 then 2 ^ 30 else if level = 4 then 2 ^ 21 else 4096

/-- A CONTIG group: all sixteen entries of the table line agree but in PA[15:12], A and D (08:R168). -/
def MemSys.contigOk (m : MemSys) (key : BitVec 10) (pa : Nat) : Bool :=
  let base := pa / 128 * 128
  let first := m.pte key base
  let core (e : Pte) : Nat := e.raw.toNat &&& (2 ^ 64 - 1 - 0xF000 - 0x60)
  decide (first.pa % 2 ^ 16 = 0) &&
  (List.range 16).all fun i =>
    let e := m.pte key (base + 8 * i)
    e.contig && decide (e.pa / 4096 % 16 = i) && decide (core e = core first)

/-- Bytes of the page that a leaf of a level maps. -/
def Pte.bytes (e : Pte) (level : Nat) : Nat := if e.contig ∧ level = 5 then 65536 else pageSize level

/-- The leaf a walk finds, with the AND of U and W along the walk. -/
structure Leaf where
  e : Pte
  at_ : Nat
  level : Nat
  u : Bool
  w : Bool
  deriving DecidableEq, Repr

/-- The walk from one level's table on, read under `key`, `n` levels left (08:R168 to R170). A poisoned line of a table is read as it stands and raises nothing
(DESIGN CHOICE, log 109). -/
def MemSys.walk (m : MemSys) (va : DWord) : Nat → BitVec 10 → Nat → Bool → Bool → Except XFault Leaf
  | 0, _, _, _, _ => .error ⟨3, 3, 5, 4096⟩
  | n + 1, key, table, u, w =>
    let level := 5 - n
    let at_ := table + 8 * ((va.toNat / 2 ^ (12 + 9 * n)) % 512)
    let e := m.pte key at_
    if !e.v then .error ⟨3, 2, level, 4096⟩
    else if e.rsv then .error ⟨3, 3, level, 4096⟩
    else if !e.leaf then
      if n = 0 ∨ !e.tableOk then .error ⟨3, 3, level, 4096⟩
      else if !installed 0#2 e.pa then .error ⟨3, 4, level, 4096⟩
      else m.walk va n e.key e.pa (u && e.u) (w && e.w)
    else if level ≤ 2 ∨ e.mt = 3#2 ∨ (e.contig ∧ level ≠ 5) ∨ (e.sh ∧ (level ≠ 5 ∨ e.contig)) ∨ e.pa % pageSize level ≠ 0 ∨
        (e.contig ∧ !m.contigOk key at_) then .error ⟨3, 3, level, e.bytes level⟩
    else if !installed e.mt e.pa then .error ⟨3, 4, level, e.bytes level⟩
    else .ok ⟨e, at_, level, u && e.u, w && e.w⟩

/-- Permission of an access through U, W and X (08:R170); `sys` for accesses of resident cores, which U 0 admits. -/
def permitted (kind : AccKind) (sys : Bool) (x w u : Bool) : Option XFault :=
  if !u && !sys then some ⟨4, 1, 0, 4096⟩
  else if kind.writes && !w then some ⟨4, 2, 0, 4096⟩
  else if decide (kind = .fetch) && !x then some ⟨4, 3, 0, 4096⟩
  else none

/-- Adds an entry to a TLB of `cap` entries; a full TLB drops its oldest (DESIGN CHOICE, log 12). -/
def tlbAdd (t : List TlbEnt) (e : TlbEnt) (cap : Nat) : List TlbEnt :=
  let t := t.filter fun x => !decide (x.owner = e.owner ∧ x.va = e.va)
  (if cap ≤ t.length then t.drop 1 else t) ++ [e]

/-- The entry of a TLB for an address. -/
def tlbFind (t : List TlbEnt) (owner va : Nat) (write : Bool) : Option TlbEnt :=
  t.find? fun x => decide (x.owner = owner ∧ x.va ≤ va ∧ va < x.va + x.size) && (x.d || !write)

/-- The address a TLB entry gives. -/
def TlbEnt.xlat (e : TlbEnt) (va : Nat) : Xlat :=
  ⟨e.mt, e.key, e.pa + (va - e.va), e.sh, if e.size = 2 ^ 30 then 3 else if e.size = 2 ^ 21 then 4 else 5, e.size⟩

/-- The number of a cluster's translation of a page of host memory: cluster·2^40 + page. -/
def atsKey (cluster pa : Nat) : Nat := cluster * 2 ^ 40 + pa / 4096

/-- What a translation did: its result, and whether the core's TLB missed and a walk ran (17:R404). -/
structure XRes where
  r : Except XFault Xlat
  missed : Bool
  walked : Bool

/-- The walk of an owner's table for an address. -/
def MemSys.ownerWalk (m : MemSys) (o : Owner) (va : DWord) : Except XFault Leaf := m.walk va 5 o.key o.root true true

/-- A walk with its A and D update, and the fill of both TLBs (08:R171, R172). The walkers of the cluster keep the host's own translation of a page
of host memory (18:R413; DESIGN CHOICE, log 115). -/
def MemSys.pageWalk (m : MemSys) (core owner : Nat) (o : Owner) (kind : AccKind) (sys : Bool) (va : DWord) : Except XFault Xlat × MemSys :=
  match m.ownerWalk o va with
  | .error f => (.error f, m)
  | .ok l =>
    match permitted kind sys l.e.x l.w l.u with
    | some f => (.error { f with level := l.level, page := l.e.bytes l.level }, m)
    | none =>
      let raw := l.e.raw ||| 0x20#64 ||| (if kind.writes then 0x40#64 else 0#64)
      let m := if raw = l.e.raw then m
        else m.homeWrite none Writer.resident none true 0#2 0#10 l.at_ (leBytes 8 raw.toNat)
      let size := l.e.bytes l.level
      let e : TlbEnt := { owner := owner, va := va.toNat / size * size, size := size, pa := l.e.pa / size * size, mt := l.e.mt,
                          key := l.e.key, x := l.e.x, w := l.w, u := l.u, sh := l.e.sh, d := l.e.d || kind.writes }
      let c := clusterOf core
      (.ok (e.xlat va.toNat),
       { m with tlb := m.tlb.put core (tlbAdd (m.tlb.getD core []) e 4096),
                ctlb := m.ctlb.put c (tlbAdd (m.ctlb.getD c []) e 65536),
                ats := if l.e.mt = 1#2 then m.ats.put (atsKey c (e.xlat va.toNat).pa) () else m.ats })

/-- Translates an address for an access of a launch (08:R168 to R172): the core's TLB, the cluster's, then a walk. -/
def MemSys.translate (m : MemSys) (core owner : Nat) (kind : AccKind) (sys : Bool) (va : DWord) : XRes × MemSys :=
  if !canonical va then (⟨.error ⟨3, 1, 0, 4096⟩, false, false⟩, m)
  else
    let use (e : TlbEnt) : Except XFault Xlat :=
      match permitted kind sys e.x e.w e.u with
      | some f => .error { f with level := (e.xlat 0).level, page := e.size }
      | none => .ok (e.xlat va.toNat)
    match tlbFind (m.tlb.getD core []) owner va.toNat kind.writes with
    | some e => (⟨use e, false, false⟩, m)
    | none =>
      match tlbFind (m.ctlb.getD (clusterOf core) []) owner va.toNat kind.writes with
      | some e => (⟨use e, true, false⟩, { m with tlb := m.tlb.put core (tlbAdd (m.tlb.getD core []) e 4096) })
      | none =>
        match m.owners.get? owner with
        | none => (⟨.error ⟨3, 2, 1, 4096⟩, true, true⟩, m)
        | some o =>
          let (r, m) := m.pageWalk core owner o kind sys va
          (⟨r, true, true⟩, m)

/-! ### Instruction fetch (08:R176) -/

/-- A line of code as the core fetches it: from its instruction cache, else filled from memory. 128 KiB hold 1,024 lines;
a full cache drops its first line (DESIGN CHOICE, log 12). A line of the cache has no KEY: a fetch through another KEY finds the line as it was
fetched (DESIGN CHOICE, log 110). A poisoned line is fetched as it stands (DESIGN CHOICE, log 109). -/
def MemSys.codeLine (m : MemSys) (core : Nat) (x : Xlat) : List Byte × MemSys :=
  let k := core * 2 ^ 47 + lineOf x.mt x.pa
  match m.icache.get? k with
  | some bs => (bs, m)
  | none =>
    let bs := m.readBytes x.mt x.key (x.pa / 128 * 128) 128
    let t := m.icache.put k bs
    let mine := t.keep fun j _ => decide (j / 2 ^ 47 = core)
    (bs, { m with icache := if mine.length ≤ 1024 then t else t.del ((mine.keys.filter fun j => decide (j ≠ k)).headD k) })

/-! ### The scratchpad (08:R184 to R190) -/

/-- Where a scratchpad address lies: the group, the offset in its window, and whether the range is read-only. -/
structure SpadRef where
  group : Nat
  ofs : Nat
  ro : Bool
  deriving DecidableEq, Repr

/-- Resolves a scratchpad address of a group (08:R184): its own window, or its partner's. -/
def State.spadRef (s : State) (g : Nat) (a : Nat) : Option SpadRef :=
  match s.group? g with
  | none => none
  | some r => match s.launch? r.launch with
    | none => none
    | some l =>
      if a < l.kern.spadb then some ⟨g, a, decide (a < l.params.length)⟩
      else if 0x1000000 ≤ a ∧ a < 0x1000000 + l.kern.spadb then
        match s.windowGroup g with
        | none => none
        | some p => some ⟨p, a - 0x1000000, decide (a - 0x1000000 < l.params.length)⟩
      else none

/-- One scratchpad byte; a byte not listed is zero (08:R183). -/
def Group.spadByte (g : Group) (a : Nat) : Byte := g.spad.getD a 0#8

/-- `n` scratchpad bytes. -/
def Group.spadBytes (g : Group) (a : Nat) : Nat → List Byte
  | 0 => []
  | n + 1 => g.spadByte a :: g.spadBytes (a + 1) n

/-- Writes scratchpad bytes. -/
def Group.spadPut (g : Group) (a : Nat) : List Byte → Group
  | [] => g
  | b :: bs => ({ g with spad := g.spad.putD a b 0#8 }).spadPut (a + 1) bs

/-- A write of whole 8-byte words clears their poison; a write of fewer bytes leaves it (08:R190). -/
def clearWords (p : Assoc Unit) (a n : Nat) : Assoc Unit :=
  p.keep fun w _ => !decide (a ≤ 8 * w ∧ 8 * w + 8 ≤ a + n)

/-- A scratchpad write with its effect on poison. -/
def Group.spadWrite (g : Group) (a : Nat) (bs : List Byte) : Group :=
  { g.spadPut a bs with spadPoison := clearWords g.spadPoison a bs.length }

/-- Whether a range of bytes touches a poisoned word. -/
def wordsPoisoned (p : Assoc Unit) (a n : Nat) : Bool := p.keys.any fun w => decide (8 * w < a + n ∧ a < 8 * w + 8)

/-- Whether a scratchpad range touches an absent line (08:R187). -/
def Group.absentIn (g : Group) (a n : Nat) : Bool := g.absent.keys.any fun l => decide (128 * l < a + n ∧ a < 128 * l + 128)

/-- The allotment fill of one line after placement (08:R183): the line becomes present. -/
def Group.fillLine (g : Group) (line : Nat) : Group :=
  if g.filling.contains line then { g with absent := g.absent.del line, filling := g.filling.filter fun l => decide (l ≠ line) } else g

end Sys2Proof.Machine
end

