-- ==== Sys2Proof/Machine/Paths.lean ====
section
/-! DEFINITION. Running paths, rejoin masks and the lanes of a context (03:R70, 07:R151 to R157). -/

namespace Sys2Proof.Machine

/-- Whether a thread holds an item where its kernel takes items (03:R70, 13:R311). -/
def ItemSt.inMask : ItemSt → Bool
  | .no | .live | .finished => true
  | .empty => false

/-- The wait state of a lane that may issue: ready, and trapped while the context runs its handler (01:R23, 16:R384). -/
def Ctx.readyWs (c : Ctx) : WS := if c.tcg = 0#32 then .ready else .trapped

/-- The wait state in which one lane may issue: lanes outside a trap frame stay ready. -/
def Ctx.readyOf (c : Ctx) (lane : Nat) : WS :=
  match c.frame with
  | none => .ready
  | some f => if f.path.getLsbD lane then .trapped else .ready

/-- Whether a lane of a context is in its execution mask but for its path: its item and the lanes of the trap frame. -/
def Gang.inMask (g : Gang) (c : Ctx) (lane : Nat) : Bool :=
  (match g.threads.get? lane with | none => true | some t => t.item.inMask) &&
  (match c.frame with | none => true | some f => f.path.getLsbD lane)

/-- Whether a lane belongs to the trap frame of its context. -/
def Ctx.inFrame (c : Ctx) (lane : Nat) : Bool := match c.frame with | none => false | some f => f.path.getLsbD lane

/-- Whether a lane carries a step that is not waiting for a trap to end (07:R160, 14:R323). -/
def Ctx.steps (c : Ctx) (lane : Nat) (l : LaneSt) : Bool := l.pstep && !c.inFrame lane && decide (l.ws ≠ .trapped)

/-- Whether a lane may join a path (07:R151); one that waits at a queue outside a path, since a resume, is tried again (14:R339). A lane that
carries a step runs apart from the paths (07:R160). -/
def Gang.selectable (g : Gang) (c : Ctx) (lane : Nat) (l : LaneSt) : Bool :=
  g.inMask c lane && decide (l.ws = c.readyWs ∨ l.ws = .queueWait) && l.held.isNone && !c.steps lane l

/-- The lanes that completed the instruction at which a group of lanes goes on: those of the group that did, and those outside it with which
they had issued it (09:R197). -/
def Ctx.doneBefore (c : Ctx) (m : Mask) : Mask :=
  let ks := (lanesOf m).filterMap fun n => (c.mid.get? n).map fun j => (n, j.done)
  maskOf ((ks.filter fun p => p.2.getLsbD p.1).map (·.1)) ||| (ks.foldl (fun d p => d ||| p.2) 0#64 &&& ~~~m)

/-- The place inside a clause at which lanes go on together: that of the first, with the lanes that completed its next instruction before. -/
def Ctx.joinMid (c : Ctx) (first : Nat) (m : Mask) : Option Cursor :=
  (c.mid.get? first).map fun k => { k with done := c.doneBefore m }

/-- Whether a context may run or select a path: no trap of it waits for entry, for a permit or for its resolution
(16:R383, R384), and a stroke of it does not wait for its commit (15:R358). -/
def Ctx.free (c : Ctx) : Bool :=
  c.pend.isNone && c.retryAt.isNone &&
  (match c.frame with | none => true | some f => !f.delegated) &&
  (c.stroke.isNone || c.cur.isSome)

/-- The path that was set aside for stepped lanes continues (07:R160, 14:R340). -/
def Ctx.stepBack (c : Ctx) : Ctx :=
  match c.aside with
  | none => c
  | some (p, k) => { c with path := p, cur := if p = 0#64 then none else k, aside := none }

/-- Lanes keep the place inside a clause at which their path stands. -/
def keepMid (t : Assoc Cursor) (out : Mask) (k : Option Cursor) : Assoc Cursor :=
  match k with
  | none => t
  | some k => (lanesOf out).foldl (fun t n => t.put n k) t

/-- Takes lanes out of the running path, and out of the one set aside for stepped lanes; each keeps its place inside a clause (07:R152). -/
def Ctx.leavePath (c : Ctx) (m : Mask) : Ctx :=
  let p := c.path &&& ~~~m
  { c with path := p, cur := if p = 0#64 then none else c.cur
           aside := c.aside.map fun a => (a.1 &&& ~~~m, a.2)
           mid := match c.aside with
             | none => keepMid c.mid (c.path &&& m) c.cur
             | some (q, k) => keepMid (keepMid c.mid (c.path &&& m) c.cur) (q &&& m) k }

/-- Stepped lanes that wait inside their clause step aside, outside a trap: the running path continues (07:R160, 14:R340). -/
def Ctx.stepAside (c : Ctx) : Ctx :=
  let waits := (c.lanes.keep fun n _ => c.path.getLsbD n).vals.any fun l => decide (l.ws = .queueWait ∨ l.ws = .parked ∨ l.ws = .barrier ∨
    l.ws = .waitv ∨ l.ws = .capsuleWait)
  if c.aside.isSome ∧ c.frame.isNone ∧ waits then (c.leavePath c.path).stepBack else c

/-- Selects the running path when a context has none (07:R151): the lowest lane that may join, and every such lane at its
program counter. -/
def Gang.selectPath (g : Gang) (c : Ctx) : Ctx :=
  let c := c.stepAside
  let c := if c.path = 0#64 then c.stepBack else c
  if c.path ≠ 0#64 ∨ !c.free then c
  else
    let able := c.lanes.keep (g.selectable c)
    match able with
    | [] => { c with cur := none }
    | (n, l) :: _ =>
      let m := maskOf (able.keep fun _ x => decide (x.pc = l.pc)).keys
      { c with path := m, cur := c.joinMid n m, mid := c.mid.keep fun k _ => !m.getLsbD k }

/-- Selects a path in a context of the state. -/
def State.selectPath (s : State) (x : Site) : State :=
  s.updGang x.gang fun g => g.updCtx x.access g.selectPath

/-- The program counter of a path. -/
def Ctx.pathPc (c : Ctx) : DWord :=
  match lowest c.path with
  | none => 0#64
  | some n => match c.lanes.get? n with
    | none => 0#64
    | some l => l.pc

/-- Ends the running path for all its lanes (07:R152). -/
def Ctx.endPath (c : Ctx) : Ctx := { c with path := 0#64, cur := none }

/-- Whether every lane of a path can issue; a lane in queue-wait is tried again (07:R152). -/
def Ctx.pathAble (c : Ctx) : Bool :=
  decide (c.path ≠ 0#64) && (c.lanes.keep fun n _ => c.path.getLsbD n).vals.all fun l => decide (l.ws = c.readyWs ∨ l.ws = .queueWait)

/-- Sets the program counter of lanes, which then stand at a clause position. -/
def Ctx.setPc (c : Ctx) (m : Mask) (pc : DWord) : Ctx :=
  { c.updLanes m (fun l => { l with pc := pc }) with mid := c.mid.keep fun k _ => !m.getLsbD k }

/-- Makes lanes ready to issue. -/
def Ctx.wake (c : Ctx) (m : Mask) : Ctx :=
  { c with lanes := c.lanes.mapVal fun k l => if m.getLsbD k then { l with ws := c.readyOf k } else l }

/-- Sets the wait state of lanes. -/
def Ctx.setWs (c : Ctx) (m : Mask) (w : WS) : Ctx := c.updLanes m fun l => { l with ws := w }

/-- A rejoin mask. -/
def Ctx.jmask (c : Ctx) (n : Nat) : DWord := c.j.getD n 0#64

/-- Tests one rejoin mask and releases the lanes held on it (07:R157). Held lanes stand at the clause position after
their `park` (20:R436); a stopped one stays stopped (07:R160) (DEDUCED, log 43). -/
def Ctx.testRejoin (c : Ctx) (n : Nat) : Ctx :=
  let on := c.laneMask fun _ l => decide (l.held = some (BitVec.ofNat 3 n))
  if on = 0#64 ∨ c.jmask n &&& ~~~on ≠ 0#64 then c
  else
    { c with
      lanes := c.lanes.mapVal fun k l =>
        if !on.getLsbD k then l
        else if l.ws = .parked then { l with ws := c.readyOf k, held := none }
        else { l with held := none, under := if l.under = .parked then .ready else l.under }
      j := c.j.del n }

/-- Tests every rejoin mask in order. -/
def Ctx.testRejoins (c : Ctx) : Ctx := (List.range 8).foldl Ctx.testRejoin c

/-- Clears the bits of lanes in every rejoin mask and tests those masks (07:R155, R160). `keepHeld` leaves the bit of the
mask on which a lane is held. -/
def Ctx.strike (c : Ctx) (m : Mask) (keepHeld : Bool) : Ctx :=
  (List.range 8).foldl (fun c n =>
    let on := c.laneMask fun _ l => decide (l.held = some (BitVec.ofNat 3 n))
    let out := if keepHeld then m &&& ~~~on else m
    if c.jmask n &&& out = 0#64 then c
    else { c with j := c.j.putD n (c.jmask n &&& ~~~out) 0#64 }.testRejoin n) c

/-- A lane whose wait in an instruction is met goes on: ready, or on the rejoin mask on which it is held. A stepped lane that waited in the last
instruction of its clause has run its step, and stops (14:R340, 21:R437). -/
def Ctx.goOn (c : Ctx) (lane : Nat) : Ctx :=
  match c.lanes.get? lane with
  | none => c
  | some l =>
    if c.steps lane l && !c.path.getLsbD lane && !c.mid.has lane then
      (c.updLane lane fun l => { l with ws := .stopped, under := .ready, pstep := false }).strike (bit lane) true
    else c.updLane lane fun l => { l with ws := if l.held.isSome then .parked else c.readyOf lane }

/-- Whether the path of a context waits inside a clause. -/
def Ctx.waitsInside (c : Ctx) : Bool :=
  c.lanes.any fun e => c.path.getLsbD e.1 && (match e.2.ws with
    | .parked | .queueWait | .barrier | .waitv | .capsuleWait => true
    | _ => false)

/-- Removes the lanes of a mask from a context (07:R155): its rejoin bits, its path, its copies of v registers. -/
def Ctx.dropLanes (c : Ctx) (m : Mask) : Ctx :=
  let c := (c.updLanes m fun l => { l with held := none }).strike m false
  let c := c.leavePath m
  { c with lanes := c.lanes.keep fun k _ => !m.getLsbD k
           mid := c.mid.keep fun k _ => !m.getLsbD k
           owed := c.owed.filter fun p => !m.getLsbD p.1
           v := c.v.keep fun k _ => !m.getLsbD (k % 64) }

end Sys2Proof.Machine
end

