-- ==== Sys2Proof/Machine/Anchor.lean ====
section
/-! DEFINITION. Anchors of capsules and the monitor entries of home slices (15:R350, R351, R360 to R365, R371). -/

namespace Sys2Proof.Machine

/-! ### Entries and the spill table (15:R371) -/

/-- The number of the entry of a line's waiters, and of the anchor in a line: a line may have both (15:R371). -/
def waitEnt (line : Nat) : Nat := 2 * line
def ancEnt (line : Nat) : Nat := 2 * line + 1

/-- Records of an entry: waiters on addresses of the line, or contenders of the anchor in it. -/
def HomeSys.records (h : HomeSys) (ent : Nat) : Nat :=
  if ent % 2 = 0 then ((h.monitors.keep fun pa _ => decide (pa / 128 = ent / 2)).vals.map List.length).sum
  else ((h.fifos.keep fun pa _ => decide (pa / 128 = ent / 2)).vals.map List.length).sum

/-- Whether an entry is held: by waiters, or by an active anchor. -/
def HomeSys.holds (h : HomeSys) (ent : Nat) : Bool :=
  decide (h.records ent ≠ 0) || (decide (ent % 2 = 1) && h.anchors.has (ent / 2))

/-- Entries that nothing holds are freed. -/
def HomeSys.tidy (h : HomeSys) : HomeSys :=
  { h with lastAct := h.lastAct.keep fun n _ => h.holds n, spilled := h.spilled.keep fun n _ => h.holds n }

/-- Records that lie in the spill table: all of a spilled entry and one for the entry, else those beyond 16. -/
def HomeSys.spillUse (h : HomeSys) : Nat :=
  (h.lastAct.keys.map fun n => if h.spilled.has n then h.records n + 1 else h.records n - 16).sum

/-- Whether one record more of an entry can be kept, beside `bars` records of barriers in the spill table (DESIGN CHOICE, log 8). -/
def HomeSys.roomFor (h : HomeSys) (ent slice bars : Nat) : Bool :=
  let mine := h.lastAct.keep fun n x => decide (x.2 = slice) && !h.spilled.has n
  let more := if h.lastAct.has ent then (if h.spilled.has ent ∨ 16 ≤ h.records ent then 1 else 0)
    else if mine.length < 64 then 0 else 1
  decide (more = 0 ∨ h.spillUse + bars + more ≤ h.spillCap)

/-- The unspilled entry of a slice that has gone longest without an act, other than `ent`. -/
def HomeSys.oldest (h : HomeSys) (slice ent : Nat) : Option Nat :=
  let mine := h.lastAct.keep fun n x => decide (x.2 = slice ∧ n ≠ ent) && !h.spilled.has n
  match mine with
  | [] => none
  | e :: es => some (es.foldl (fun a b => if b.2.1 < a.2.1 then b else a) e).1

/-- An act on an entry: one that nothing holds is freed; it comes back into its slice, and a 65th entry there spills the oldest. The
result names the entry that was spilled. -/
def HomeSys.touch (h : HomeSys) (seq slice ent : Nat) : HomeSys × Option Nat :=
  if !h.holds ent then ({ h with lastAct := h.lastAct.del ent, spilled := h.spilled.del ent }, none)
  else
    let h := { h with lastAct := h.lastAct.put ent (seq, slice), spilled := h.spilled.del ent }
    let mine := h.lastAct.keep fun n x => decide (x.2 = slice) && !h.spilled.has n
    if mine.length ≤ 64 then (h, none)
    else match h.oldest slice ent with
      | none => (h, none)
      | some n => ({ h with spilled := h.spilled.put n () }, some n)

/-! ### Anchor words (15:R350, R351) -/

/-- The KEY under which the line of an anchor lies. -/
def MemSys.ancKey (m : MemSys) (pa : Nat) : BitVec 10 := (m.keyOf pa).getD 0#10

/-- The line of an anchor at its home slice under a KEY, by which its words are read from then on (08:R178). -/
def State.onKey (s : State) (key : BitVec 10) (pa : Nat) : State := s.setMem (s.mem.tagLine 0#2 key pa)

/-- Word `i` of an anchor and its companion record. -/
def MemSys.ancWord (m : MemSys) (pa i : Nat) : DWord :=
  BitVec.ofNat 64 (leNat (m.readBytes 0#2 (m.ancKey pa) (pa + 8 * i) 8))

/-- Writes word `i` of an anchor at the home slice; no other copy of the line remains (08:R175). -/
def MemSys.setAncWord (m : MemSys) (pa i : Nat) (x : DWord) : MemSys :=
  (m.writeBytes 0#2 (m.ancKey pa) (pa + 8 * i) (leBytes 8 x.toNat)).dirWrite none 0#2 (m.ancKey pa) true pa

/-- States of an anchor. -/
inductive AncSt where
  | free | live | stalled | adopted | done
  deriving DecidableEq, Repr

def AncSt.code : AncSt → BitVec 8
  | .free => 0#8 | .live => 1#8 | .stalled => 2#8 | .adopted => 3#8 | .done => 4#8

/-- Fields of word 0. -/
structure Anc0 where
  epoch : Word
  res : BitVec 13
  spill : Bool
  wait : Bool
  adpt : Bool
  stroke : BitVec 8
  state : BitVec 8
  deriving DecidableEq, Repr

def Anc0.ofWord (x : DWord) : Anc0 :=
  ⟨x.extractLsb' 32 32, x.extractLsb' 19 13, x.getLsbD 18, x.getLsbD 17, x.getLsbD 16, x.extractLsb' 8 8,
    x.extractLsb' 0 8⟩

def Anc0.toWord (a : Anc0) : DWord :=
  a.epoch ++ (a.res ++ BitVec.ofBool a.spill ++ BitVec.ofBool a.wait ++ BitVec.ofBool a.adpt ++ a.stroke ++ a.state : BitVec 32)

/-- Word 0 of an anchor. -/
def MemSys.anc0 (m : MemSys) (pa : Nat) : Anc0 := Anc0.ofWord (m.ancWord pa 0)
/-- Changes word 0 of an anchor. -/
def MemSys.updAnc0 (m : MemSys) (pa : Nat) (f : Anc0 → Anc0) : MemSys := m.setAncWord pa 0 (f (m.anc0 pa)).toWord

/-- Whether an anchor line is active (15:R352). -/
def MemSys.ancActive (m : MemSys) (pa : Nat) : Bool := decide ((m.anc0 pa).state ≠ 0#8) || (m.anc0 pa).wait

/-- The contenders of an anchor. -/
def HomeSys.fifo (h : HomeSys) (pa : Nat) : List Contender := h.fifos.getD pa []

/-- Whether WAIT, SPILL and word 9 are those of the FIFO. -/
def State.spillBit (s : State) (pa : Nat) : Bool :=
  let n := (s.home.fifo pa).length
  decide (n ≠ 0) && (s.home.spilled.has (ancEnt (pa / 128)) || decide (16 < n))

/-- WAIT, SPILL and word 9 follow the FIFO (15:R365). -/
def State.ancFlags (s : State) (pa : Nat) : State :=
  let n := (s.home.fifo pa).length
  s.setMem ((s.mem.updAnc0 pa fun a => { a with wait := decide (n ≠ 0), spill := s.spillBit pa }).setAncWord pa 9 (BitVec.ofNat 64 n))

/-- The spill walker writes its table in HBM, of 16 bytes a record: how the table lies there is free (15:R371, 08:R166) (DESIGN CHOICE,
log 8). -/
def State.spillWalk (s : State) : State :=
  let (k, s) := s.draw
  s.setMem (s.mem.writeArea s.home.spillBase (16 * s.home.spillCap) k)

/-- Counts an act on an entry, and keeps the flags of an anchor whose entry it makes spill. An act that touches what is spilled, or spills
something, changes the table. -/
def State.monTouch (s : State) (slice ent : Nat) : State :=
  let (n, s) := s.freshId
  let (h, out) := s.home.touch n slice ent
  let s := if out.isSome ∨ s.home.spilled.has ent ∨ 16 < s.home.records ent then s.spillWalk else s
  let s := s.setHome h
  match out with
  | none => s
  | some k => if k % 2 = 0 ∨ (s.home.fifo (128 * (k / 2))).isEmpty then s else s.ancFlags (128 * (k / 2))

/-- Counts an act on the entry of an anchor, which is held while the anchor is active; its flags follow. -/
def State.ancTouch (s : State) (pa : Nat) : State :=
  let s := s.ancFlags pa
  let active := s.mem.ancActive pa
  let s := s.setHome { s.home with anchors := if active then s.home.anchors.put (pa / 128) () else s.home.anchors.del (pa / 128) }
  let s := s.monTouch (homeSlice pa true) (ancEnt (pa / 128))
  if (s.home.fifo pa).isEmpty then s else s.ancFlags pa

/-- Whether a physical address lies in the line of an active anchor (15:R352). -/
def State.anchorAt (s : State) (mt : BitVec 2) (pa : Nat) : Bool := decide (mt = 0#2) && s.home.anchors.has (pa / 128)

/-! ### Threads by identity -/

/-- The live thread with an identity (compute context). -/
def State.threadOf (s : State) (idn : DWord) : Option (Nat × Nat) :=
  ((s.gangs.map fun e => (e.2.threads.keys.filter fun l => decide (s.idn e.1 l false = idn)).map fun l => (e.1, l)).flatten).head?

/-- A live thread. -/
def State.thread? (s : State) (g lane : Nat) : Option Thread :=
  match s.gang? g with
  | none => none
  | some x => x.threads.get? lane

/-- A lane of a compute context. -/
def State.claneSt (s : State) (g lane : Nat) : Option LaneSt :=
  match s.gang? g with
  | none => none
  | some x => x.cctx.lanes.get? lane

/-- A thread's capsule registers. -/
def Thread.creg (t : Thread) (n : Nat) : Word := t.c.getD n 0#32
/-- All of a thread's capsule registers. -/
def Thread.cregs (t : Thread) : List Word := (List.range 8).map t.creg
/-- A table of eight registers as the state keeps it. -/
def cTable (ws : List Word) : Assoc Word := ((List.range 8).map fun n => (n, ws.getD n 0#32)).filter fun e => decide (e.2 ≠ 0#32)

/-- The checkpoint of an anchor: words 4 to 7 (15:R350). -/
def MemSys.checkpoint (m : MemSys) (pa : Nat) : List Word :=
  bytesWords 8 (m.readBytes 0#2 (m.ancKey pa) (pa + 32) 32)

/-- Writes the checkpoint. -/
def MemSys.setCheckpoint (m : MemSys) (pa : Nat) (ws : List Word) : MemSys :=
  m.writeBytes 0#2 (m.ancKey pa) (pa + 32) (wordBytes ws)

/-- A contender that is neither stopped nor evicted (15:R365). -/
def State.ableContender (s : State) (c : Contender) : Bool :=
  (s.coreOf c.gang).isSome &&
  (match s.claneSt c.gang c.lane with
   | none => false
   | some l => decide (l.ws = .capsuleWait))

/-- The lanes that move with a holder: its path, running or set aside for stepped lanes, or itself (15:R354). -/
def Ctx.withHolder (c : Ctx) (lane : Nat) : Mask :=
  if c.path.getLsbD lane then c.path
  else match c.aside with
    | none => bit lane
    | some (p, _) => if p.getLsbD lane then p else bit lane

/-- The long form of a holder that waits (`capo` or `capx`) has nothing left to do. -/
def State.holderDone (s : State) (g lane : Nat) : State :=
  s.setOps (s.ops.mapVal fun _ o =>
    if o.gang = g ∧ o.access = false ∧ o.lanes.getLsbD lane then
      (match o.i with | .capo .. | .capx .. => { o with left := 0#64 } | _ => o)
    else o)

/-- Acquires an anchor as from FREE (15:R369): `resume` is the clause position after the `capo` clause. -/
def State.acquire (s : State) (pa : Nat) (va : DWord) (g lane : Nat) (capa exit resume : DWord) : State :=
  match s.thread? g lane with
  | none => s
  | some t =>
    let idn := s.idn g lane false
    let m := s.mem.updAnc0 pa fun a => { a with res := 0#13, adpt := false, stroke := 0#8, state := AncSt.live.code }
    let m := (((m.setAncWord pa 1 idn).setAncWord pa 2 resume).setAncWord pa 3 exit).setAncWord pa 8 idn
    let m := m.setCheckpoint pa t.cregs
    let epoch := (m.anc0 pa).epoch
    let s := s.setMem m
    let s := s.updThread g lane fun t => { t with link := ⟨.owner, pa, m.ancKey pa, va, epoch, 0, false, false, capa, exit, []⟩ }
    s.ancTouch pa

/-- Adopts a STALLED anchor (15:R361). -/
def State.adopt (s : State) (pa : Nat) (va : DWord) (g lane : Nat) (capa exit : DWord) : State :=
  if (s.thread? g lane).isNone then s
  else
    let a := s.mem.anc0 pa
    let s := match s.threadOf (s.mem.ancWord pa 8) with
      | none => s
      | some (h, l) => s.updThread h l fun t => { t with link := { t.link with adopted := true } }
    let m := s.mem.updAnc0 pa fun a => { a with epoch := a.epoch + 1#32, state := AncSt.adopted.code, adpt := true }
    let m := m.setAncWord pa 8 (s.idn g lane false)
    let resume := m.ancWord pa 2
    let cp := m.checkpoint pa
    let s := (s.setMem m).updThread g lane fun t =>
      { t with c := cTable cp, link := ⟨.adopter, pa, m.ancKey pa, va, a.epoch + 1#32, a.stroke.toNat, false, false, capa, exit, cTable t.cregs⟩ }
    let s := s.updCtx ⟨g, false⟩ fun c => c.setPc (c.withHolder lane) resume
    s.ancTouch pa

/-- A contender leaves the FIFO of an anchor. -/
def State.leaveFifo (s : State) (pa : Nat) (c : Contender) : State :=
  let f := (s.home.fifo pa).filter fun x => decide (x ≠ c)
  s.setHome { s.home with fifos := if f.isEmpty then s.home.fifos.del pa else s.home.fifos.put pa f }

/-- The anchor passes to a waiting contender, which acquires it as from FREE or adopts it (15:R365). -/
def State.grant (s : State) (pa : Nat) (c : Contender) (adopting : Bool) : State :=
  match s.thread? c.gang c.lane with
  | none => s
  | some t =>
    let s := (s.onKey t.link.key pa).leaveFifo pa c
    let s := s.updCtx ⟨c.gang, false⟩ fun x => x.wake (bit c.lane)
    let resume := match s.claneSt c.gang c.lane with | none => 0#64 | some l => l.pc
    let s := if adopting then s.adopt pa t.link.va c.gang c.lane t.link.capa t.link.exit
      else s.acquire pa t.link.va c.gang c.lane t.link.capa t.link.exit resume
    (s.holderDone c.gang c.lane).selectPath ⟨c.gang, false⟩

/-- The first contender that can take an anchor. -/
def State.firstAble (s : State) (pa : Nat) : Option Contender := (s.home.fifo pa).find? s.ableContender

/-- Marks the anchor of a runner STALLED (15:R360), and lets the first contender that can adopt it (R365). -/
def State.stallAnchor (s : State) (g lane : Nat) : State :=
  match s.thread? g lane with
  | none => s
  | some t =>
    let pa := t.link.anc
    let a := s.mem.anc0 pa
    if (t.link.role = .owner ∨ t.link.role = .adopter) ∧ !t.link.adopted ∧
       (a.state = AncSt.live.code ∨ a.state = AncSt.adopted.code) ∧ s.mem.ancWord pa 8 = s.idn g lane false then
      let s := s.setMem (s.mem.updAnc0 pa fun a => { a with state := AncSt.stalled.code })
      match s.firstAble pa with
      | none => s.ancTouch pa
      | some c => s.grant pa c true
    else s

/-- Whether none of the causes of a stall holds for a runner: it is not stopped, its gang is resident, its context is in no
trap (15:R360). -/
def State.runnerFree (s : State) (g lane : Nat) : Bool :=
  match s.gang? g with
  | none => false
  | some x => x.core.isSome && x.cctx.frame.isNone &&
    (match x.cctx.lanes.get? lane with
     | none => false
     | some l => decide (l.ws ≠ .stopped))

/-- A STALLED anchor whose runner is free again returns to LIVE or ADOPTED (15:R360). -/
def State.unstallAnchor (s : State) (g lane : Nat) : State :=
  match s.thread? g lane with
  | none => s
  | some t =>
    let pa := t.link.anc
    let a := s.mem.anc0 pa
    if (t.link.role = .owner ∨ t.link.role = .adopter) ∧ !t.link.adopted ∧ a.state = AncSt.stalled.code ∧
       s.mem.ancWord pa 8 = s.idn g lane false ∧ s.runnerFree g lane then
      (s.setMem (s.mem.updAnc0 pa fun a => { a with state := if a.adpt then AncSt.adopted.code else AncSt.live.code })).ancTouch pa
    else s

/-- The lanes of a gang whose capsule link names them as runners; one while none of them is stopped (15:R354, R365). -/
def Gang.holders (g : Gang) : List Nat := (g.threads.keep fun _ t => decide (t.link.role = .owner ∨ t.link.role = .adopter)).keys

/-- A lane of a gang that holds an open capsule (15:R354). -/
def Gang.holder? (g : Gang) : Option Nat := g.holders.head?

/-- Stalls the anchors of the gang's holders. -/
def State.stallGang (s : State) (g : Nat) : State :=
  match s.gang? g with
  | none => s
  | some x => x.holders.foldl (fun s l => s.stallAnchor g l) s

/-- Ends the stall of the gang's holders. -/
def State.unstallGang (s : State) (g : Nat) : State :=
  match s.gang? g with
  | none => s
  | some x => x.holders.foldl (fun s l => s.unstallAnchor g l) s

/-- A contender that was resumed or restored takes a FREE anchor in that act (15:R365). -/
def State.contenderBack (s : State) (g lane : Nat) : State :=
  match s.thread? g lane with
  | none => s
  | some t =>
    let pa := t.link.anc
    if t.link.role = .contender ∧ (s.mem.anc0 pa).state = AncSt.free.code ∧ s.ableContender ⟨g, lane⟩ then
      s.grant pa ⟨g, lane⟩ false
    else s

/-- The end of an anchor's instance (15:R363 step 3): EPOCH advances, and the anchor passes to a contender or is FREE. -/
def State.releaseAnchor (s : State) (pa : Nat) : State :=
  let s := s.setMem (s.mem.updAnc0 pa fun a => { a with epoch := a.epoch + 1#32 })
  match s.firstAble pa with
  | some c => s.grant pa c false
  | none =>
    let m := s.mem.updAnc0 pa fun a => { a with state := AncSt.free.code, stroke := 0#8, adpt := false }
    let m := (((m.setAncWord pa 1 0#64).setAncWord pa 2 0#64).setAncWord pa 3 0#64).setAncWord pa 8 0#64
    (s.setMem m).ancTouch pa

end Sys2Proof.Machine
end

