-- ==== Sys2Proof/Machine/Ops.lean ====
section
/-! DEFINITION. Operations that all families share: rings of system software, performance counters, long forms in flight,
barriers' phases, ends of lanes and gangs, and taking a trap and returning from it (16:R379 to R401). -/

namespace Sys2Proof.Machine

/-! ### Protected registers (03:R73, R79) -/

/-- Protected registers of which each lane has its own: identity, family word, counter of `rng`, c registers (03:R73). -/
def perThread (n : Nat) : Bool := decide (n = 0x09 ∨ n = 0x0A ∨ n = 0x0C ∨ 0x70 ≤ n)
/-- The key of the mark of an error: the register's number, for a register of one lane with the lane above it. -/
def parityKey (n lane : Nat) : Nat := if perThread n then 256 * (lane + 1) + n else n

/-- A register as it reads: the value of an error while that stands, else its own (03:R79). -/
def Ctx.seen (c : Ctx) (n lane : Nat) (own : DWord) : DWord := c.spoiled.getD (parityKey n lane) own

/-- The identity word of a lane of a context as it reads. -/
def State.idnSeen (s : State) (x : Site) (lane : Nat) : DWord :=
  match s.ctx? x with
  | none => s.idn x.gang lane x.access
  | some c => c.seen 0x09 lane (s.idn x.gang lane x.access)

/-- The marks that the trap of a parity error takes; none of another trap. -/
def TrapRec.marks (t : TrapRec) : List Nat :=
  if t.cause = 13 ∧ t.reason = 2 then t.x.toNat :: (lanesOf t.lanes).map (parityKey t.x.toNat) else []

/-- The trap of a parity error has been handled: the erroneous value ends, but for one whose mark stands (03:R79). -/
def Ctx.mend (c : Ctx) (t : TrapRec) : Ctx :=
  { c with spoiled := (t.marks.filter fun k => !c.parity.has k).foldl Assoc.del c.spoiled }

/-! ### Rings that the device posts to (16:R401) -/

/-- Reads a 64-bit word of HBM that belongs to system software. -/
def MemSys.sys64 (m : MemSys) (pa : Nat) : Nat := leNat (m.readBytes 0#2 0#10 pa 8)
/-- Reads a 32-bit word of HBM that belongs to system software. -/
def MemSys.sys32 (m : MemSys) (pa : Nat) : Nat := leNat (m.readBytes 0#2 0#10 pa 4)
/-- A write of a resident core or the dispatcher; `rel` makes it a release at sys scope, and without it V is cleared (DEDUCED, log 54). -/
def MemSys.sysWrite (m : MemSys) (pa : Nat) (bs : List Byte) (rel : Bool) : MemSys :=
  m.homeWrite none Writer.resident (if rel then some 4#3 else none) false 0#2 0#10 pa bs

/-- Whether a ring has room: PROD − CONS < 2^N. -/
def MemSys.ringRoom (m : MemSys) (cb : Nat) : Bool :=
  decide ((m.sys64 cb + 2 ^ 64 - m.sys64 (cb + 8)) % 2 ^ 64 < 2 ^ m.sys32 (cb + 24))

/-- Posts an entry of `e` bytes: first the entry, then PROD as a release at sys scope. -/
def MemSys.ringPost (m : MemSys) (cb e : Nat) (bs : List Byte) : MemSys :=
  let prod := m.sys64 cb
  let at_ := m.sys64 (cb + 16) + e * (prod % 2 ^ m.sys32 (cb + 24))
  (m.sysWrite at_ bs false).sysWrite cb (leBytes 8 (prod + 1)) true

/-- An entry of the vector table; one never written is masked (PRESUMED, log 102). -/
def Msix.entry (m : Msix) (v : Nat) : MsixEntry := m.tab.getD v ⟨0#64, 0#32, true⟩
/-- Whether a vector's message is held back. -/
def Msix.held (m : Msix) (v : Nat) : Bool := !m.enable || m.masked || (m.entry v).masked
/-- A vector that is signalled sends its message, or sets its pending bit while it is held back (18:R416). -/
def Msix.signal (m : Msix) (v : Nat) : Msix :=
  if m.held v then { m with pending := m.pending.put v () }
  else { m with pending := m.pending.del v, sent := m.sent ++ [((m.entry v).addr, (m.entry v).data)] }
/-- Pending vectors that are no longer held back send their messages, the lowest first. -/
def Msix.flush (m : Msix) : Msix := (m.pending.keys.filter fun v => !m.held v).foldl Msix.signal m

/-- Signals an MSI-X vector (18:R416). -/
def State.msi (s : State) (v : Nat) : State :=
  s.setLaunches { s.launches with msix := s.launches.msix ++ [v], msi := s.launches.msi.signal v }

/-- The 32 bytes of an event (16:R400). -/
def Event.bytes (e : Event) : List Byte :=
  leBytes 4 e.kind ++ leBytes 4 e.code.toNat ++ leBytes 8 e.idn.toNat ++ leBytes 8 e.addr.toNat ++ leBytes 8 e.lanes.toNat

/-- Whether an event can be posted now. -/
def State.eventRoom (s : State) : Bool :=
  s.ctl.pending.isEmpty && (match s.ctl.ering with | none => false | some cb => s.mem.ringRoom cb)

/-- Writes an event to its ring and signals vector 61. -/
def State.writeEvent (s : State) (e : Event) : State :=
  match s.ctl.ering with
  | none => s
  | some cb => (s.setMem (s.mem.ringPost cb 32 e.bytes)).msi 61

/-- Posts an event, or keeps it pending while the ring is full (16:R401). -/
def State.postEvent (s : State) (e : Event) : State :=
  if s.eventRoom then s.writeEvent e else s.setCtl { s.ctl with pending := s.ctl.pending ++ [e] }

/-! ### Performance counters (17:R404 to R406) -/

/-- Saturating addition below 2^n. -/
def satAdd (n a b : Nat) : Nat := min (a + b) (2 ^ n - 1)

/-- Whether a selector counts an event of a context; `none` for events of no context. -/
def selCounts (sel : Word) (code : Nat) (access : Option Bool) : Bool :=
  let f := (sel.extractLsb' 16 2).toNat
  sel.getLsbD 31 && decide ((sel.extractLsb' 0 8).toNat = code) &&
  (match access with | none => true | some a => decide (f = 0) || decide (f = 2) == a)

/-- One event of weight `w` at a counter in count mode. -/
def PerfCtr.count1 (p : PerfCtr) (w : Nat) : PerfCtr := { p with count := satAdd 64 p.count w }

/-- The histogram bin of a sample. -/
def sampleBin (hbase v : Nat) : Nat := if v < 2 ^ hbase then 0 else min 7 (Nat.log2 v - hbase + 1)

/-- One sample at a counter in sample mode. -/
def PerfCtr.sample1 (p : PerfCtr) (v : Nat) : PerfCtr :=
  let i := sampleBin (p.sel.extractLsb' 8 8).toNat v
  { p with count := satAdd 64 p.count 1, sum := satAdd 64 p.sum v, mn := min p.mn v, mx := max p.mx v,
           bins := p.bins.put i (satAdd 32 (p.bins.getD i 0) 1) }

/-- A count event of a group (none while it is evicted). -/
def Group.event (g : Group) (code w : Nat) (access : Option Bool) : Group :=
  if g.core.isNone ∨ w = 0 then g
  else { g with pm := g.pm.mapVal fun _ p => if selCounts p.sel code access && decide (p.sel.extractLsb' 29 2 = 0#2) then p.count1 w else p }

/-- A sample event of a group: a counter in count mode counts it, one in sample mode takes its value. -/
def Group.sample (g : Group) (code v : Nat) (access : Option Bool) : Group :=
  if g.core.isNone then g
  else { g with pm := g.pm.mapVal fun _ p =>
    if !selCounts p.sel code access then p
    else if p.sel.extractLsb' 29 2 = 0#2 then p.count1 1 else p.sample1 v }

/-- A count event of the group of a gang. -/
def State.pmEvent (s : State) (gang : Nat) (access : Bool) (code w : Nat) : State :=
  match s.gang? gang with
  | none => s
  | some g => s.updGroup g.group fun r => r.event code w (some access)

/-- A sample event of the group of a gang. -/
def State.pmSample (s : State) (gang : Nat) (access : Bool) (code v : Nat) : State :=
  match s.gang? gang with
  | none => s
  | some g => s.updGroup g.group fun r => r.sample code v (some access)

/-- An act of a gang on an entry, with `more` new records: it touches the spill table where the entry or one of its records lies there
(15:R371). -/
def State.spillEvent (s : State) (gang : Nat) (access : Bool) (ent more : Nat) : State :=
  if s.home.spilled.has ent ∨ 16 < s.home.records ent + more then s.pmEvent gang access 0x0F 1 else s

/-! ### Current reservations (18:R429, R430) -/

/-- The arbiter of a cluster. -/
def State.arbOf (s : State) (cluster : Nat) : Arb := s.dev.arb.getD cluster ⟨[], []⟩

/-- Sets the arbiter of a cluster; one without requests and grants is not listed. -/
def State.setArb (s : State) (cluster : Nat) (a : Arb) : State := s.setDev { s.dev with arb := s.dev.arb.putD cluster a ⟨[], []⟩ }

/-- A request joins the queue: those of capsule holders stand before all others, in order of arrival within each part (18:R430). -/
def State.arbRequest (s : State) (cluster : Nat) (r : ArbReq) : State :=
  let a := s.arbOf cluster
  let q := if r.capsule then a.q.filter (·.capsule) ++ [r] ++ a.q.filter fun x => !x.capsule else a.q ++ [r]
  s.setArb cluster { a with q := q }

/-- The grant of a macro-operation ends, or its request is withdrawn. -/
def State.arbEnd (s : State) (cluster op : Nat) : State :=
  let a := s.arbOf cluster
  s.setArb cluster ⟨a.q.filter fun x => decide (x.op ≠ op), a.out.filter fun x => decide (x.1 ≠ op)⟩

/-- Both contexts of every gang. -/
def State.sitesOf (s : State) : List Site := (s.gangs.map fun e => [⟨e.1, false⟩, ⟨e.1, true⟩]).flatten

/-- The reservation of a context's clause of vector work ends with the clause, or with the trap that cuts it. -/
def State.endGrant (s : State) (x : Site) : State :=
  match (s.ctx? x).bind (·.vgrant) with
  | none => s
  | some (k, _) => (s.arbEnd (s.clusterOfGang x.gang) k).updCtx x fun c => { c with vgrant := none }

/-! ### Long forms in flight (02:R52) -/

/-- The long forms of a context that have not completed. -/
def State.opsOf (s : State) (x : Site) : Assoc Op := s.ops.keep fun _ o => decide (o.gang = x.gang ∧ o.access = x.access)

/-- Whether every instruction that a context issued earlier has completed. -/
def State.quiet (s : State) (x : Site) : Bool := (s.opsOf x).isEmpty

/-- A scoreboard counter. -/
def Ctx.sbOf (c : Ctx) (n : Nat) : Nat := c.sb.getD n 0

/-! ### Ends of gangs (01:R27) -/

/-- Bytes of a gang's save area (16:R392). -/
def Kern.saveBytes (k : Kern) (width : Nat) : Nat :=
  8192 + 4 * width * (k.vregs + k.avregs + 8) + 4 * (k.sregs + k.asregs) +
    16 * width * (if k.decoupled then (k.qdecl.vals.map (·.depth)).sum else 0)

/-- Bytes of a group's save area (16:R392). -/
def Kern.groupSaveBytes (k : Kern) : Nat := k.spadb + 1024 * k.opndk + 32776 * k.acct + 2048

/-- The lanes of barrier operations of a group or team become ready: the phase has completed (15:R374). -/
def State.barRelease (s : State) (gangs : List Nat) (pair : Bool) (n : Nat) (phase : Word) : State :=
  let met (o : Op) : Bool := gangs.contains o.gang &&
    (match o.i, o.data with
     | .bar _ _ _ p k, .bar => decide (p = pair ∧ k.toNat = n)
     | .barw _ _ p k _, .barw a => decide (p = pair ∧ k.toNat = n) &&
        (let d := (phase - a).toNat; decide (1 ≤ d ∧ d < 2 ^ 31))
     | _, _ => false)
  let done := s.ops.keep fun _ o => met o
  let s := s.setOps (s.ops.mapVal fun _ o => if met o then { o with left := 0#64, data := .none } else o)
  let s := done.vals.foldl (fun s o => s.updCtx ⟨o.gang, o.access⟩ fun c =>
    (c.lanes.keep fun k l => o.lanes.getLsbD k && decide (l.ws = .barrier)).keys.foldl Ctx.goOn c) s
  -- the lanes that go on join paths together (07:R151)
  done.vals.foldl (fun s o => s.selectPath ⟨o.gang, o.access⟩) s

/-- A barrier that no gang has reached (15:R372). -/
def Barrier.fresh : Barrier := ⟨0#32, none, [], 0, false⟩

/-- The gangs a barrier covers that have not retired. -/
def State.barGangs (s : State) (grp : Nat) (pair : Bool) : List Nat :=
  if pair then s.gangsOf grp ++ (match s.partnerGroup grp with | none => [] | some p => s.gangsOf p) else s.gangsOf grp

/-- Reads a barrier of a group (core scope) or of its team (pair scope). -/
def State.barOf (s : State) (grp : Nat) (pair : Bool) (n : Nat) : Barrier :=
  match s.group? grp with
  | none => Barrier.fresh
  | some r =>
    if pair then
      match s.launch? r.launch with
      | none => Barrier.fresh
      | some l => l.pairBars.getD (16 * r.team + n) Barrier.fresh
    else r.bars.getD n Barrier.fresh

/-- Writes a barrier. -/
def State.setBar (s : State) (grp : Nat) (pair : Bool) (n : Nat) (b : Barrier) : State :=
  match s.group? grp with
  | none => s
  | some r =>
    if pair then s.updLaunch r.launch fun l => { l with pairBars := l.pairBars.putD (16 * r.team + n) b Barrier.fresh }
    else s.updGroup grp fun r => { r with bars := r.bars.putD n b Barrier.fresh }

/-- Whether the current phase has the arrivals it needs (15:R374). -/
def Barrier.full (b : Barrier) (gangs : List Nat) : Bool :=
  match b.count with
  | none => false
  | some 0 => gangs.all fun g => b.arrivals.contains g
  | some k => decide (k ≤ b.arrivals.length)

/-- Whether a barrier has arrivals or waiters in its current phase: it holds an entry of its core (15:R372). -/
def State.barHeld (s : State) (grp : Nat) (pair : Bool) (n : Nat) : Bool :=
  !(s.barOf grp pair n).arrivals.isEmpty ||
  s.ops.vals.any fun o => decide (o.left ≠ 0#64) && (s.barGangs grp pair).contains o.gang &&
    (match o.i with
     | .bar _ _ _ p k | .barw _ _ p k _ => decide (p = pair ∧ k.toNat = n)
     | _ => false)

/-- The core on which the entry of a barrier lies; a pair barrier's on the core of group 0 (15:R372). -/
def State.barCore (s : State) (grp : Nat) (pair : Bool) : Option Nat :=
  match s.group? grp with
  | none => none
  | some r => if pair ∧ r.grp = 1 then (match (s.windowGroup grp).bind s.group? with | none => some r.barCore | some q => some q.barCore)
    else some r.barCore

/-- The barriers that hold entries of a core: group, scope and number, those of evicted groups too (15:R372). -/
def State.barEntries (s : State) (core : Nat) : List (Nat × Bool × Nat) :=
  (s.groups.map fun e => (List.range 32).filterMap fun i =>
    let pair := decide (16 ≤ i)
    if (!pair || decide (e.2.grp = 0) || (s.windowGroup e.1).isNone) && decide (s.barCore e.1 pair = some core) && s.barHeld e.1 pair (i % 16)
      then some (e.1, pair, i % 16) else none).flatten

/-- Barrier entries in the spill table. -/
def State.barSpill (s : State) : Nat :=
  (((s.groups.vals.map (·.barCore)).eraseDups).map fun c =>
    ((s.barEntries c).filter fun e => (s.barOf e.1 e.2.1 e.2.2).out).length).sum

/-- Whether one record more of an entry can be kept at its home slice (POOL 2 where it cannot). A new entry may spill another; the entries of
barriers use the same table (15:R371) (DEDUCED, log 66). -/
def State.roomFor (s : State) (ent slice : Nat) : Bool := s.home.roomFor ent slice s.barSpill

/-- The entries of barriers that stand on a core itself. -/
def State.barInCore (s : State) (core : Nat) : List (Nat × Bool × Nat) := (s.barEntries core).filter fun e => !(s.barOf e.1 e.2.1 e.2.2).out

/-- Whether a barrier's arrival finds an entry. -/
def State.barRoom (s : State) (grp : Nat) (pair : Bool) (n : Nat) : Bool :=
  s.barHeld grp pair n || (match s.barCore grp pair with
    | none => true
    | some c => decide ((s.barInCore c).length < 32 ∨ s.home.spillUse + s.barSpill < s.home.spillCap))

/-- A 33rd entry on a core spills the one that has gone longest without an act (15:R371, R372). -/
def State.barTrim (s : State) (core : Nat) : State :=
  let mine := s.barInCore core
  if mine.length ≤ 32 then s
  else
    let last (e : Nat × Bool × Nat) : Nat := (s.barOf e.1 e.2.1 e.2.2).last
    match mine with
    | [] => s
    | e :: es =>
      let o := es.foldl (fun a b => if last b < last a then b else a) e
      s.spillWalk.setBar o.1 o.2.1 o.2.2 { s.barOf o.1 o.2.1 o.2.2 with out := true }

/-- An act on the entry of a barrier: it comes back to its core, which keeps 32 entries itself (15:R371, R372). -/
def State.barTouch (s : State) (grp : Nat) (pair : Bool) (n : Nat) : State :=
  let (k, s) := s.freshId
  let s := if (s.barOf grp pair n).out then s.spillWalk else s
  let s := s.setBar grp pair n { s.barOf grp pair n with last := k, out := false }
  match s.barCore grp pair with
  | none => s
  | some c => s.barTrim c

/-- An act of a gang on the entry of a barrier. -/
def State.barAct (s : State) (grp gang : Nat) (pair : Bool) (n : Nat) : State :=
  (if (s.barOf grp pair n).out then s.pmEvent gang false 0x0F 1 else s).barTouch grp pair n

/-- Completes the current phase where its arrivals are made: the phase advances, the arrivals are cleared, every waiting gang becomes ready
(15:R374). Gangs that wait for a later phase keep the entry, on which this was an act; else it is free (15:R371, R372). -/
def State.barTest (s : State) (grp : Nat) (pair : Bool) (n : Nat) : State :=
  let b := s.barOf grp pair n
  let gs := s.barGangs grp pair
  if b.full gs then
    let b : Barrier := { b with phase := b.phase + 1#32, count := none, arrivals := [] }
    let s := (s.setBar grp pair n b).barRelease gs pair n b.phase
    if s.barHeld grp pair n then s.barTouch grp pair n else s.setBar grp pair n { b with last := 0, out := false }
  else s

/-- Tests every barrier of a group and its team: at a gang's retirement. -/
def State.barTestAll (s : State) (grp : Nat) : State :=
  (List.range 16).foldl (fun s n => (s.barTest grp false n).barTest grp true n) s

/-- Ends a group whose last gang has ended: its allotments and reservation records return to the core (01:R27). While the other group of
its team goes on, its scratchpad keeps what it held behind that group's partner window, lines held by that group's engine among them
(DEDUCED, log 31; 10:R243). -/
def State.endGroup (s : State) (grp : Nat) : State :=
  match s.group? grp with
  | none => s
  | some r =>
    let area := match r.core, s.launch? r.launch with | none, some l => l.kern.groupSaveBytes | _, _ => 0
    let s := s.setLaunches { s.launches with savePool := s.launches.savePool + area }
    let s := s.setCores { s.cores with recs := s.cores.recs.keep fun _ x => decide (x.group ≠ grp) }
    if (s.partnerGroup grp).isSome then
      s.setGroups (s.groups.put grp { r with core := none, bars := [], opnd := [], opndPoison := [], acc := [], accPoison := [], tstat := [], savedRecs := [] })
    else
      let stays (k : Nat) : Bool := decide (k ≠ grp ∧ some k ≠ s.windowGroup grp)
      let both := s.groups.keep fun k _ => stays k
      let t := s.setCores { s.cores with heldLines := s.cores.heldLines.keep fun k _ => stays (k / 2 ^ 32) }
      (t.setGroups both).updLaunch r.launch fun l => { l with pairBars := l.pairBars.keep fun k _ => decide (k / 16 ≠ r.team) }

/-- Removes a gang, and its group when it was the last; the save area returns to the pool (16:R393). -/
def State.removeGang (s : State) (g : Nat) : State :=
  match s.gang? g with
  | none => s
  | some x =>
    let bytes := match s.launch? x.launch with | none => 0 | some l => l.kern.saveBytes x.width
    let s := s.setGangs (s.gangs.del g)
    let s := s.setLaunches { s.launches with savePool := s.launches.savePool + bytes }
    let s := s.setCores { s.cores with permits := s.cores.permits.filter fun p => decide (p.2.gang ≠ g)
                                       reads := s.cores.reads.filter fun r => decide (r.gang ≠ g) }
    if (s.gangsOf x.group).isEmpty then s.endGroup x.group else s

/-- Whether no lane of a gang is live. -/
def Gang.over (g : Gang) : Bool :=
  g.threads.isEmpty && g.cctx.lanes.isEmpty && (match g.actx with | none => true | some a => a.lanes.isEmpty)

/-- Whether the end of a launch has begun (01:R28). -/
def State.launchEnded (s : State) (launch : Nat) : Bool :=
  match s.launch? launch with
  | none => false
  | some l => l.ended.isSome

/-- Retires a gang that has no live lane and no long form in flight (01:R27, 07:R155); a gang ended with its launch does not retire (R28). -/
def State.tryRetire (s : State) (g : Nat) : State :=
  match s.gang? g with
  | none => s
  | some x =>
    if x.over && (s.ops.keep fun _ o => decide (o.gang = g)).isEmpty && !(s.home.q.vals.any fun r => decide (r.gang = g)) &&
        !s.launchEnded x.launch then
      let s := (s.removeGang g).updLaunch x.launch fun l => { l with retired := l.retired + 1 }
      s.barTestAll x.group
    else s

/-! ### Ends of lanes (07:R155, 12:R287, 15:R365) -/

/-- A waiter leaves every monitor. -/
def HomeSys.dropWaiter (h : HomeSys) (g : Nat) (access : Bool) (lane : Nat) : HomeSys :=
  ({ h with monitors := (h.monitors.mapVal fun _ ws =>
      ws.filter fun w => !decide (w.gang = g ∧ w.access = access ∧ w.lane = lane)).keep fun _ ws => !ws.isEmpty }).tidy

/-- The first waiter on an address that no notify has woken is marked woken, by the wake of a `notify1`, and its read at the home slice is
requested. -/
def State.wakeNext (s : State) (pa : Nat) : State :=
  match (s.home.monitors.getD pa []).find? fun w => !w.woken with
  | none => s
  | some w =>
    let (n, s) := s.freshId
    let mark (v : Waiter) : Waiter := if v.gang = w.gang ∧ v.access = w.access ∧ v.lane = w.lane then { v with woken := true, single := true } else v
    let r : Req := { op := w.op, gang := w.gang, access := w.access, lane := w.lane, va := w.va, mt := 0#2, key := w.key, pa := pa,
                     sh := false, b := [], c := [], promoting := false, promoted := false }
    let s := s.setHome { s.home with monitors := s.home.monitors.upd pa (List.map mark), q := s.home.q.put n r }
    s.setAgenda (.event (.homeSliceAct n) :: s.agenda)

/-- The requests that the `waitv` of a lane has at home slices, its check or the read of its wake, are dropped. -/
def State.dropWaitv (s : State) (g : Nat) (access : Bool) (lane : Nat) : State :=
  s.setHome { s.home with q := s.home.q.keep fun _ r => !(decide (r.gang = g ∧ r.access = access ∧ r.lane = lane) &&
    (match s.op? r.op with | some o => (match o.i with | .waitv .. => true | _ => false) | none => false)) }

/-- A waiter that is killed leaves; the wake of a `notify1` that it was given and has not used passes to the next (09:R217). -/
def State.killWaiter (s : State) (g : Nat) (access : Bool) (lane : Nat) : State :=
  let mine := s.home.monitors.keep fun _ ws => ws.any fun w => decide (w.gang = g ∧ w.access = access ∧ w.lane = lane) && w.woken && w.single
  let s := (s.dropWaitv g access lane).setHome ((s.dropWaitv g access lane).home.dropWaiter g access lane)
  mine.keys.foldl State.wakeNext s

/-- Lanes no longer wait for anything: their requests at home slices that only read, their places in monitors and FIFOs, their
part in long forms that wait (15:R376). -/
def State.forgetLanes (s : State) (g : Nat) (access : Bool) (m : Mask) : State :=
  let s := s.setOps (s.ops.mapVal fun _ o =>
    if o.gang = g ∧ o.access = access then
      match o.data with
      | .wait | .bar | .barw _ => { o with left := o.left &&& ~~~m }
      | .home => (match o.i with | .waitv .. => { o with left := o.left &&& ~~~m } | _ => o)
      | _ => o
    else o)
  (lanesOf m).foldl (fun s n =>
    let s := s.killWaiter g access n
    match s.thread? g n with
    | none => s
    | some t => if !access && decide (t.link.role = .contender) then (s.leaveFifo t.link.anc ⟨g, n⟩).ancTouch t.link.anc else s) s

/-- Entries of the queues of lanes are discarded (12:R287). -/
def Gang.dropEntries (g : Gang) (m : Mask) : Gang :=
  { g with queues := g.queues.mapVal fun _ q => { q with ents := q.ents.keep fun k _ => !m.getLsbD k } }

/-- Lanes of a context end (07:R155): their threads with a compute context, which leaves the access lanes to end at their
next clause boundary (01:R27). -/
def State.endLanes (s : State) (g : Nat) (access : Bool) (m : Mask) : State :=
  let s := s.forgetLanes g access m
  s.updGang g fun x =>
    let x := x.updCtx access fun c => c.dropLanes m
    -- nothing is left to use the entries of a thread that has ended before its access lane does
    if access then x.dropEntries (m &&& ~~~maskOf x.threads.keys)
    else
      -- with its access lane ended before, nothing of the thread is left to use the entries (12:R287)
      let left := match x.actx with | none => 0#64 | some a => a.laneMask fun _ _ => true
      ({ x with threads := x.threads.keep fun k _ => !m.getLsbD k }).dropEntries (m &&& ~~~left)

/-! ### Traps (16:R379 to R390) -/

/-- The detail word d0 (16:R379). -/
def TrapRec.d0 (t : TrapRec) : Word :=
  BitVec.ofNat 8 t.reason ++ (BitVec.ofBool t.tok ++ (BitVec.ofNat 6 ((lowest t.lanes).getD 0) ++ t.x) : BitVec 24)

/-- Permits taken on a core. -/
def State.permits (s : State) (core : Nat) : Nat := (s.cores.permits.filter fun p => decide (p.1 = core)).length
/-- Whether a context holds a permit. -/
def State.hasPermit (s : State) (x : Site) : Bool := s.cores.permits.any fun p => decide (p.2 = x)
/-- Takes a permit. -/
def State.takePermit (s : State) (core : Nat) (x : Site) : State :=
  if s.hasPermit x then s else s.setCores { s.cores with permits := s.cores.permits ++ [(core, x)] }
/-- Returns the permit of a context. -/
def State.returnPermit (s : State) (x : Site) : State :=
  s.setCores { s.cores with permits := s.cores.permits.filter fun p => decide (p.2 ≠ x) }

/-- X of a memory fault: KIND, then a level or the logarithm of a size (16:R380). -/
def kindX (kind : AccKind) (level : Nat) : BitVec 17 := BitVec.ofNat 2 kind.code ++ (BitVec.ofNat 3 level ++ 0#12)

/-- The entry of the delegation queue (16:R389). -/
def TrapRec.delegBytes (t : TrapRec) (idn : DWord) (arg : Word) (direct double : Bool) (frame : Mask) : List Byte :=
  leBytes 8 idn.toNat ++ leBytes 8 t.tra.toNat ++ leBytes 8 t.lanes.toNat ++
  leBytes 4 t.cause ++ leBytes 4 t.d0.toNat ++ leBytes 4 t.d1.toNat ++ leBytes 4 t.d2.toNat ++ leBytes 4 arg.toNat ++
  leBytes 4 ((if direct then 1 else 0) + (if double then 2 else 0)) ++ leBytes 8 frame.toNat ++ leBytes 8 0

/-- Whether the delegation queue has room. -/
def State.delegRoom (s : State) : Bool :=
  match s.ctl.dring with
  | none => false
  | some cb => s.mem.ringRoom cb

/-- Appends an entry to the delegation queue and keeps it until its resolution. -/
def State.postDeleg (s : State) (src : DelegSrc) (idn : DWord) (t : TrapRec) (arg : Word) (direct double : Bool) (frame : Mask) : State :=
  match s.ctl.dring with
  | none => s
  | some cb =>
    let s := s.setMem (s.mem.ringPost cb 64 (t.delegBytes idn arg direct double frame))
    let (n, s) := s.freshId
    s.setCtl { s.ctl with delegs := s.ctl.delegs.put n ⟨src, t, arg, direct, double⟩ }

/-- Delegates the trap of a context. -/
def State.delegate (s : State) (x : Site) (t : TrapRec) (arg : Word) (direct double : Bool) (frame : Mask) : State :=
  s.postDeleg (.context x) (s.idnSeen x ((lowest t.lanes).getD 0)) t arg direct double frame

/-- A delegation entry leaves the queue: its reader counts it consumed (16:R401, DEDUCED, log 24). -/
def State.dropDeleg (s : State) (id : Nat) : State :=
  let s := s.setCtl { s.ctl with delegs := s.ctl.delegs.del id }
  match s.ctl.dring with
  | none => s
  | some cb => s.setMem (s.mem.sysWrite (cb + 8) (leBytes 8 (s.mem.sys64 (cb + 8) + 1)) false)

/-- Writes the trap registers of a context (16:R384). The trap of a parity error takes its mark: it is raised once, at the next instruction or
header, and what its handler executes is no longer that (03:R79; DEDUCED, log 98). -/
def Ctx.trapRegs (c : Ctx) (t : TrapRec) : Ctx :=
  { c with parity := t.marks.foldl Assoc.del c.parity, spoiled := c.spoiled.del 0x01, tcg := BitVec.ofNat 32 t.cause, tlm := t.lanes, d0 := t.d0, d1 := t.d1, d2 := t.d2, tra := t.tra }

/-- The trap frame of a context: return point, mask of the running path, copy of k0 to k7 (16:R378). -/
def Ctx.frameOf (c : Ctx) (t : TrapRec) (delegated : Bool) : Frame := ⟨c.path, c.k, t, delegated⟩

/-- Trap entry, step 4 of 16:R384: the registers and the frame are written, the path continues at TENTRY as one path. -/
def Ctx.enter (c : Ctx) (t : TrapRec) (tentry : DWord) : Ctx :=
  let c := { c.trapRegs t with frame := some (c.frameOf t false), backoff := 0, pend := none, retryAt := none, cur := none, resume := none }
  (c.setWs c.path .trapped).setPc c.path tentry

/-- A trap that is delegated at once: the registers are written, tcg is 0 again, the frame waits for the resolution, its lanes at the return
point (16:R385, R389, 20:R436) (DEDUCED, log 40). -/
def Ctx.enterDelegated (c : Ctx) (t : TrapRec) : Ctx :=
  let c := { c.trapRegs t with tcg := 0#32, frame := some (c.frameOf t true), backoff := 0, pend := none, retryAt := none, cur := none, resume := none }
  (c.setWs c.path .trapped).setPc c.path t.ret

/-- Reference ticks of the n-th back-off (16:R383) (DESIGN CHOICE, log 70). -/
def backoffTicks (n : Nat) : Nat := 256 * 2 ^ (n - 1)

/-- A double trap (16:R386): delegated with DOUBLE 1, an event of KIND 3, and the end of the launch comes next. -/
def State.doubleTrap (s : State) (x : Site) (t : TrapRec) : State :=
  if !s.delegRoom then s
  else
    let frame := match s.ctx? x with | none => 0#64 | some c => (match c.frame with | none => c.path | some f => f.path)
    let launch := match s.gang? x.gang with | none => 0 | some g => g.launch
    let s := s.delegate x t 0#32 false true frame
    let s := s.postEvent ⟨3, BitVec.ofNat 32 t.cause, s.idnSeen x ((lowest t.lanes).getD 0), t.tra, t.lanes⟩
    let s := (s.returnPermit x).updCtx x fun c =>
      { c with pend := none, frame := c.frame.map fun f => { f with delegated := true } }
    s.setAgenda (.event (.launchEndEarly launch t.cause) :: s.agenda)

/-- Whether a context finds no free trap permit (16:R383). -/
def State.noPermit (s : State) (x : Site) (core : Nat) : Bool := !s.hasPermit x && decide (4 ≤ s.permits core)

/-- The c registers return to their values at the start of a stroke, and its stores are discarded (15:R359). -/
def State.rollBack (s : State) (x : Site) : State :=
  match s.ctx? x with
  | none => s
  | some c => match c.stroke with
    | none => s
    | some k => (s.updThread x.gang k.lane fun t => { t with c := k.c }).updCtx x fun c => { c with stroke := none }

/-- Where a context stands, for a trap of an instruction that let later ones issue: at an instruction whose own trap gives way to it, at the
header of a stroke, or where its path is. -/
def Ctx.standing (c : Ctx) : DWord × Option Cursor :=
  match c.stroke, c.pend with
  | some k, _ => (k.hdr, none)
  | none, some t => (match t.again with
    | none => (t.ret, t.cur)
    | some k => (k.ip, some k))
  | none, none => (c.pathPc, c.cur)

/-- The first trap of instructions that let later ones issue becomes the pending one, once all that its context issued has completed
and no other trap of it is under way (02:R55, 16:R384). -/
def State.nextLate (s : State) (x : Site) : State :=
  match s.ctx? x with
  | none => s
  | some c => match c.late with
    | [] => s
    | t :: rest =>
      if !s.quiet x || decide (c.path = 0#64) || c.resume.isSome || c.frame.isSome || c.retryAt.isSome || (c.stroke.isSome && c.cur.isNone) then s
      else
        let (pc, cur) := c.standing
        (s.rollBack x).updCtx x fun c =>
          { c.setWs c.path .trapped with late := rest
                                         pend := some { t with resume := t.resume.map fun r => { r with cur := cur, pc := pc }, skip := some pc, skipCur := cur } }

/-- A path goes into back-off: stops, kills and steps that waited for its trap take effect in its lanes before the retry (14:R339, 16:R383). -/
def State.takeWaiting (s : State) (x : Site) : State :=
  match s.gang? x.gang, s.ctx? x with
  | some g, some c =>
    let on (f : LaneSt → Bool) : Mask := c.laneMask fun n l => c.path.getLsbD n && f l
    let dead := on (·.pkill)
    let stop := on fun l => l.pstop && !l.pkill && !l.pstep
    let step := on fun l => l.pstop && !l.pkill && l.pstep
    let out := dead ||| stop ||| step
    if out = 0#64 then s
    else
      let s := s.updCtx x fun c =>
        let c := c.updLanes stop fun l => { l with ws := .stopped, under := .ready, pstop := false }
        let c := c.updLanes step fun l => { l with ws := .ready, pstop := false }
        let c := (c.leavePath out).strike stop true
        if c.path = 0#64 then { c with retryAt := none, resume := none } else c
      let s := if x.access then s else (lanesOf (dead ||| stop)).foldl (fun s k => s.stallAnchor x.gang k) s
      let s := if x.access ∨ dead = 0#64 then s else s.updLaunch g.launch fun w => { w with killed := true }
      ((s.endLanes x.gang x.access dead).selectPath x).tryRetire x.gang
  | _, _ => s

/-- The entry of a pending trap once every instruction its context issued earlier has completed (16:R383 to R386). -/
def State.tryEnter (s : State) (x : Site) : State :=
  let s := s.nextLate x
  let s := if (s.ctx? x).any (·.pend.isSome) then s.endGrant x else s
  match s.gang? x.gang, s.ctx? x with
  | some g, some c =>
    match c.pend, g.core with
    | some t, some core =>
      if !s.quiet x then s
      else if c.tcg ≠ 0#32 then s.doubleTrap x t
      else if s.noPermit x core then
        let n := min 7 (c.backoff + 1)
        let at_ := s.tick (s.clusterOfGang x.gang) + backoffTicks n
        let pc := match t.again with | none => t.ret | some k => k.ip
        let cur := match t.again with | none => t.cur | some k => some k
        ((s.updCtx x fun c => { c.setPc c.path pc with pend := none, backoff := n, retryAt := some at_, cur := cur, resume := t.resume }).pmEvent
          x.gang x.access 0x0C 1).takeWaiting x
      else if t.cause = 2 ∨ x.access then
        if !s.delegRoom then s.takePermit core x
        else
          let s := s.delegate x t 0#32 true false c.path
          let s := (s.updCtx x fun c => c.enterDelegated t).returnPermit x
          if x.access then s else s.stallGang x.gang
      else
        let tentry := match s.launch? g.launch with | none => 0#64 | some l => l.kern.tentry
        let s := ((s.takePermit core x).updCtx x fun c => c.enter t tentry).pmEvent x.gang x.access 0x0B 1
        if x.access then s else s.stallGang x.gang
    | _, _ => s
  | _, _ => s

/-- A context raises a trap: its path enters state trapped and the trap is entered at once where nothing holds it
(16:R383, R384). -/
def State.raise (s : State) (x : Site) (t : TrapRec) : State :=
  let s := s.rollBack x
  let s := s.updCtx x fun c => { c.setWs c.path .trapped with pend := some t }
  s.tryEnter x

/-- The tokens among the first `k` entries of a sequence turn into loads again. -/
def reissueHead : Nat → List QEnt → State → List QEnt × State
  | k + 1, .tok t :: es, s =>
    let (id, s) := s.freshId
    let (r, s) := reissueHead k es s
    (.pend id t.addr t.size t.sgn t.src true s.dev.ioTick :: r, s)
  | k + 1, e :: es, s =>
    let (r, s) := reissueHead k es s
    (e :: r, s)
  | _, es, s => (es, s)

/-- Tokens that an instruction pops turn into loads again, in the lanes given; `ports` names a port once for each of its pops (12:R284). -/
def State.reissueTokens (s : State) (x : Site) (ports : List Nat) (act : Mask) : State :=
  ports.eraseDups.foldl (fun s q =>
    (lanesOf act).foldl (fun s n =>
      match s.gang? x.gang with
      | none => s
      | some g => match g.queues.get? q with
        | none => s
        | some r => match r.ents.getD n [] with
          | es =>
            let k := (ports.filter fun p => decide (p = q)).length
            let (t, s) := reissueHead k es s
            s.updGang x.gang fun g => { g with queues := g.queues.put q { r with ents := r.ents.put n t } }) s) s

/-- The end of a trap by `tret` or by a resolution (16:R388, R390): the frame's live lanes become the running path at the
return point, none of them held any longer, with pending stops and kills taking effect; those stopped are struck from the rejoin masks (07:R160). `resume` is where the context goes on after a replayed instruction. -/
def State.endTrap (s : State) (x : Site) (pc : DWord) (cur : Option Cursor) (resume : Option Resume) : State :=
  match s.ctx? x with
  | none => s
  | some c => match c.frame with
    | none => s
    | some f =>
      let live := c.laneMask fun n _ => f.path.getLsbD n
      let dead := c.laneMask fun n l => f.path.getLsbD n && l.pkill
      let stop := c.laneMask fun n l => f.path.getLsbD n && l.pstop && !l.pkill && !l.pstep
      let step := c.laneMask fun n l => f.path.getLsbD n && l.pstop && !l.pkill && l.pstep
      let path := live &&& ~~~dead &&& ~~~stop &&& ~~~step
      let s := s.updCtx x fun c =>
        let c := c.setPc live pc
        let c := c.updLanes live fun l => { l with ws := .ready, held := none }
        let c := c.updLanes stop fun l => { l with ws := .stopped, under := .ready, pstop := false }
        let c := c.updLanes step fun l => { l with pstop := false }
        let c := { c with path := path, cur := if path = 0#64 then none else cur, k := f.k, tcg := 0#32, frame := none,
                          resume := if path = 0#64 then none else resume
                          mid := match cur with
                            | none => c.mid
                            | some k => (lanesOf (stop ||| step)).foldl (fun m n => m.put n k) c.mid }
        ({ c with spoiled := c.spoiled.del 0x01 }.mend f.trap).strike stop true
      let s := s.returnPermit x
      let s := if x.access ∨ dead = 0#64 then s
        else match s.gang? x.gang with
          | none => s
          | some g => s.updLaunch g.launch fun w => { w with killed := true }
      let s := s.endLanes x.gang x.access dead
      let s := if x.access then s else s.unstallGang x.gang
      let s := if f.trap.tok then s.reissueTokens x f.trap.ports (f.trap.act &&& path) else s
      (s.selectPath x).tryRetire x.gang

/-- The end of a trap by the exit of the last live lane of its path (16:R440). -/
def State.endTrapByExit (s : State) (x : Site) : State :=
  match s.gang? x.gang, s.ctx? x with
  | some g, some c => match c.frame with
    | none => s
    | some f =>
      if c.tcg = 0#32 ∨ (c.laneMask fun n _ => f.path.getLsbD n) ≠ 0#64 then s
      else
        let s := (s.returnPermit x).updCtx x fun c => { c with tcg := 0#32, frame := none, spoiled := c.spoiled.del 0x01 }.mend f.trap
        let s := s.updLaunch g.launch fun l => { l with exitCause := some (match l.exitCause with
          | none => c.tcg.toNat
          | some k => min k c.tcg.toNat) }
        if x.access then s else s.unstallGang x.gang
  | _, _ => s

end Sys2Proof.Machine
end

