-- ==== Sys2Proof/Machine/Words.lean ====
section
/-! DEFINITION. The fetch of words and instructions, the waits of clause headers, and whether a context is ready (01:R23, 02:R38, R40, 08:R176,
12:R280). -/

namespace Sys2Proof.Machine

/-- A translation for a context, with its TLB events (17:R404). -/
def State.xlat (s : State) (x : Site) (core owner : Nat) (kind : AccKind) (va : DWord) : Except XFault Xlat × State :=
  let (r, m) := s.mem.translate core owner kind false va
  let s := s.setMem m
  let s := if r.missed then s.pmEvent x.gang x.access 0x10 1 else s
  let s := if r.walked then s.pmEvent x.gang x.access 0x11 1 else s
  (r.r, s)

/-- Fetches the word at an address for a context of an owner on a core. -/
def State.fetchWord (s : State) (x : Site) (core owner : Nat) (va : DWord) : Except XFault Word × State :=
  match s.xlat x core owner .fetch va with
  | (.error f, s) => (.error f, s)
  | (.ok t, s) =>
    let (bs, m) := s.mem.codeLine core t
    let o := va.toNat % 128
    (.ok (BitVec.ofNat 32 (leNat ((bs.drop o).take 4))), s.setMem m)

/-- What a fetch of an instruction gives: what its words are, or a fault at one of them. -/
inductive Fetch where
  | ok (ws : List Word) (r : DecRes)
  | fault (va : DWord) (f : XFault)

/-- Fetches words from `va` on until they decide an instruction; `n` words at most are left. A prefix that is at fault whatever comes after it
comes before the fault of a later word's fetch (02:R63). -/
def State.fetchMore (s : State) (x : Site) (core owner : Nat) (va : DWord) : Nat → List Word → Fetch × State
  | 0, ws => (.ok ws (decodeRaw ws), s)
  | n + 1, ws =>
    match decodeRaw ws with
    | .more =>
      match s.fetchWord x core owner (va + BitVec.ofNat 64 (4 * ws.length)) with
      | (.error f, s) => (match decodeRaw (ws ++ [0#32]) with
        | .bad pos r => if pos < ws.length then .ok ws (.bad pos r) else .fault (va + BitVec.ofNat 64 (4 * ws.length)) f
        | _ => .fault (va + BitVec.ofNat 64 (4 * ws.length)) f, s)
      | (.ok w, s) => s.fetchMore x core owner va n (ws ++ [w])
    | r => (.ok ws r, s)

/-- Fetches the instruction at an address: two prefixes and two words, or five words where prefixes are at fault, at
most. -/
def State.fetchInstr (s : State) (x : Site) (core owner : Nat) (va : DWord) : Fetch × State := s.fetchMore x core owner va 5 []

/-! ### Header waits (02:R38, R40, 12:R280) -/

/-- The ports that an instruction pops and pushes once. A `qtok.take`, which pops where the head is a token alone, counts as none (DESIGN CHOICE,
log 116). -/
def instrPorts (i : Instr) : List (Nat × Bool) :=
  i.uses.filterMap fun u => match u.o with
    | .q q => some (q.toNat, decide (u.role = .src))
    | _ => none

/-- Pops and pushes of the next `n` instructions from an address, as far as they can be fetched and are of a known length; one that the hardware
leaves to emulation, or that is unassigned, names no port of its own (02:R40, 12:R280). -/
def State.clausePorts (s : State) (x : Site) (core owner : Nat) : Nat → DWord → List (Nat × Bool)
  | 0, _ => []
  | n + 1, va =>
    match (s.fetchInstr x core owner va).1 with
    | .ok _ (.fate f _ _ len) =>
      (match f with | .instr i _ => instrPorts i | _ => []) ++ s.clausePorts x core owner n (va + BitVec.ofNat 64 (4 * len))
    | _ => []

/-- Whether every queue has what a clause needs in the lanes of a path: ready entries for its pops, or room for its pushes. -/
def Gang.portsReady (g : Gang) (ports : List (Nat × Bool)) (pops : Bool) (m : Mask) : Bool :=
  (List.range 8).all fun q =>
    let need := (ports.filter fun p => decide (p = (q, pops))).length
    decide (need = 0) || (match g.queues.get? q with
      | none => true
      | some r => (lanesOf m).all fun n =>
          let es := r.ents.getD n []
          if pops then decide (need ≤ (es.filter fun t => match t with | .pend .. => false | _ => true).length)
          else decide (es.length + need ≤ r.limit))

/-- Whether the waits that a header selects hold at once. -/
def State.headerReady (s : State) (x : Site) (g : Gang) (c : Ctx) (core owner : Nat) (h : Header) (pc : DWord) : Bool :=
  (!h.wfence || (s.opsOf x).vals.all fun o => match o.data with | .fence .. => false | _ => true) &&
  ((List.range 4).all fun n => !h.wsb.getLsbD n || decide (c.sbOf n = 0)) &&
  (!(h.wqe || h.wqf) ||
    (let ps := s.clausePorts x core owner h.count (pc + 4#64)
     (!h.wqe || g.portsReady ps true c.path) && (!h.wqf || g.portsReady ps false c.path)))

/-- Whether the core of a context is frozen by a run-control hold, or its launch is ending (14:R333, 01:R28). -/
def State.frozen (s : State) (core launch : Nat) : Bool :=
  (s.ctl.holds.vals.any fun h => h.cores.contains core) ||
  (match s.launch? launch with | none => false | some l => l.ended.isSome)

/-- Whether the next clause of a context can begin: its header waits hold, or its header raises (01:R23). -/
def State.clauseReady (s : State) (x : Site) (g : Gang) (c : Ctx) (core : Nat) : Bool :=
  match s.launch? g.launch with
  | none => false
  | some l => match (s.fetchWord x core l.owner c.pathPc).1 with
    | .error _ => true
    | .ok w => match decodeHeader w with
      | .error _ => true
      | .ok h => s.headerReady x g c core l.owner h c.pathPc

/-- Whether a context of a gang is ready at its pipe: every lane of its path may issue, none waits at a queue, and the waits of its next
header hold (01:R23, R30, R449). -/
def State.readyAt (s : State) (x : Site) (g : Gang) : Bool :=
  match g.ctx? x.access, g.core with
  | some c, some core =>
    c.free && c.pathAble && !((c.lanes.keep fun n _ => c.path.getLsbD n).vals.any fun l => decide (l.ws = .queueWait)) &&
      (c.cur.isSome || s.clauseReady x g c core)
  | _, _ => false

/-! ### Levels of a pipe (01:R29, R449) -/

/-- Whether the spin detector of a gang has demoted it. -/
def Env.spinning (g : Gang) : Bool := g.spin.any (·.spinning)

/-- The level of a context at its pipe but for its age: 1 a gang with a lane holding an open capsule, 2 to 5 the priority classes from the
highest, 6 a spinning gang. An access context holds no capsule. -/
def Gang.level (g : Gang) (access : Bool) : Nat :=
  if !access && g.holder?.isSome then 1 else if Env.spinning g then 6 else 5 - min g.prio 3

/-- The pipe of a context on a core: 8·core + quadrant, or the access pipe 4 (01:R449). -/
def pipeOf (core quad : Nat) (access : Bool) : Nat := 8 * core + (if access then 4 else quad)

/-- A gang goes last in the round-robin order of a level of a pipe (01:R29, 02:R38, 07:R164). -/
def State.goLast (s : State) (pipe level gang : Nat) : State :=
  s.setCores { s.cores with last := s.cores.last.put (8 * pipe + level) gang }

end Sys2Proof.Machine
end

