-- ==== Sys2Proof/Machine/Operands.lean ====
section
/-! DEFINITION. How one instruction meets its context: active lanes, operands read, the checks and waits before it issues,
destinations written, and the advance to the next instruction (02:R41 to R55, R61 to R63, 03:R70 to R79, 12:R279 to R287). -/

namespace Sys2Proof.Machine

/-! ### Requests at home slices -/

/-- Whether a long form writes at the home slice, and whether as a read-modify-write. -/
def homeWrites : Instr → Bool
  | .st .. | .atom .. | .acas .. | .ared .. => true
  | _ => false
def isRmw : Instr → Bool
  | .atom .. | .acas .. | .ared .. => true
  | _ => false
/-- Whether it reads there. -/
def homeReads : Instr → Bool
  | .ld .. | .atom .. | .acas .. | .ared .. | .waitv .. => true
  | _ => false

/-- Requests of a context that home slices have still to perform. -/
def State.reqsOf (s : State) (x : Site) : Assoc Req := s.home.q.keep fun _ r => decide (r.gang = x.gang ∧ r.access = x.access)

/-- The long form of a request: in flight, or complete once its operation was accepted (09:R212). -/
def State.reqOp (s : State) (r : Req) : Option Op :=
  match s.op? r.op with
  | some o => some o
  | none => r.late

/-- Scope of an SCO field: `.rem` forms are dev and sys (09:R193). -/
def scopeOf (sco : BitVec 3) : Nat := if sco = 5#3 then 3 else if sco = 6#3 then 4 else sco.toNat

/-- Whether a release at dev or sys scope has to wait for buffered writes of its core's pair that entered before it, or at sys scope for
unacknowledged writes to host memory: happens-before reaches writes of other agents that its agent has seen (10:R228, R229)
(DEDUCED, log 74). -/
def State.pairBehind (s : State) (core sco before : Nat) : Bool :=
  decide (3 ≤ sco) && ((s.mem.wbuf.any fun e => decide (e.1 < before) && samePair e.2.core core) ||
    (decide (sco = 4) && s.mem.hostWr.any fun e => decide (e.1 < before)))

/-- The scope at which a lane's writes count as releases by its release fences; 0 where it has issued none (10:R227). -/
def State.fencedTo (s : State) (x : Site) (lane : Nat) : Nat :=
  match s.ctx? x with
  | none => 0
  | some c => c.relTo.getD lane 0

/-! ### The environment -/

/-- An instruction about to execute: its context as it stands before the instruction has any effect. -/
structure Env where
  x : Site
  g : Gang
  c : Ctx
  l : Launch
  core : Nat
  cur : Cursor
  i : Instr
  /-- address of its first word, and address after its last word -/
  w : DWord
  next : DWord
  /-- lanes of its predicate (03:R70), and those of them that still have to execute it (09:R197) -/
  full : Mask
  act : Mask

/-- Number of words of an instruction without its prefixes (02:R43, R44). -/
def bodyWords (i : Instr) : Nat := if i.lf.isSome then 2 else 1
/-- Number of words of its prefixes (02:R48). -/
def pfxCount (p : Pfx) : Nat := (if p.md.isSome then 1 else 0) + (if p.im.isSome then 1 else 0)

/-- The lane of a path that holds a capsule; only compute contexts have one. While another holder of the gang is stopped, the holder of the
running path acts (15:R354, R365). -/
def Gang.strokeLane (g : Gang) (access : Bool) (path : Mask) : Option Nat :=
  if access then none
  else ((g.threads.keep fun n t => path.getLsbD n && decide (t.link.role = .owner ∨ t.link.role = .adopter)).keys).head?

/-- The lanes of a predicate among others (02:R46) (DEDUCED, log 45). -/
def predLanes (c : Ctx) (p : Pfx) (m : Mask) : Mask :=
  match p.md with
  | none => m
  | some d => if d.pe then (let k := c.k.getD d.pk.toNat 0#64; m &&& (if d.pn then ~~~k else k)) else m

/-- A context as a replayed instruction reads it: the source registers that later instructions changed read as at its issue (02:R55)
(DEDUCED, log 73). -/
def Ctx.asIssued (c : Ctx) : Ctx :=
  match c.resume with
  | none => c
  | some r => { c with v := r.v.foldl (fun t e => t.put e.1 e.2) c.v, s := r.s.foldl (fun t e => t.put e.1 e.2) c.s }

/-- The environment of the instruction for which `cur` acts; a replayed one acts in the lanes that it had left (02:R55, 09:R197). The lanes
that completed it before count among its lanes even where they have left the path since: the lowest of all is its nib (03:R71). -/
def env? (i : Instr) (s : State) : Option Env :=
  match s.cur with
  | none => none
  | some x => match s.gang? x.gang with
    | none => none
    | some g => match g.ctx? x.access, g.core, s.launch? g.launch with
      | some c, some core, some l => match c.cur with
        | none => none
        | some cur =>
          if c.path = 0#64 then none
          else
            let base := if cur.hdr.cap then (match g.strokeLane x.access c.path with | none => 0#64 | some h => bit h) else c.path
            let full := match c.resume with
              | some r => (c.laneMask fun n _ => r.lanes.getLsbD n) ||| cur.done
              | none => predLanes c i.pfx base ||| cur.done
            let c := c.asIssued
            let w := cur.ip + BitVec.ofNat 64 (4 * pfxCount i.pfx)
            some { x := x, g := g, c := c, l := l, core := core, cur := cur, i := i, w := w,
                   next := w + BitVec.ofNat 64 (4 * bodyWords i), full := full, act := full &&& ~~~cur.done }
      | _, _, _ => none

namespace Env

/-- Whether the instruction is the last of its clause. -/
def last (e : Env) : Bool := decide (e.cur.hdr.count ≤ e.cur.idx + 1)
/-- Whether its clause is a stroke. -/
def stroke (e : Env) : Bool := e.cur.hdr.cap
/-- The gang's width. -/
def width (e : Env) : Nat := e.g.width
/-- The lowest-numbered active lane. -/
def nib (e : Env) : Option Nat := lowest e.full
/-- Active lanes in rising order. -/
def lanes (e : Env) : List Nat := lanesOf e.act
/-- The operands the instruction uses. -/
def uses (e : Env) : List Use := e.i.uses

/-! ### Immediates (02:R45) -/

/-- The value of an immediate of `n` bits, with the payload of an IMM prefix above it. -/
def immOf (p : Pfx) (n : Nat) (i : BitVec n) : DWord :=
  match p.im with
  | none => i.signExtend 64
  | some q => (q ++ i).signExtend 64

/-! ### Reading (02:R51, 03:R71, R81, 05:R108) -/

/-- Entries of a queue in a lane. -/
def entries (e : Env) (q : BitVec 3) (lane : Nat) : List QEnt :=
  match e.g.queues.get? q.toNat with
  | none => []
  | some r => r.ents.getD lane []

/-- Which pop of its queue the k-th use is: earlier source uses of the same port pop first, so that one port as A and B pops two entries, A
the first (DEDUCED, log 92). -/
def popPos (e : Env) (k : Nat) : Nat :=
  match e.uses[k]? with
  | none => 0
  | some u => ((e.uses.take k).filter fun v => decide (v.o = u.o ∧ v.role = .src)).length

/-- A live copy of word `j` of an operand; none for a dead register, and for c registers and ports. -/
def copy (e : Env) (o : Opnd) (j lane : Nat) : Option Reg :=
  match o with
  | .v n => e.c.v.get? (64 * (n.toNat + j) + lane)
  | .s n => e.c.s.get? (n.val + j)
  | _ => none

/-- Word `j` of an operand in a lane, for the `pos`-th pop of a port; a dead register reads as 0xFFA5_A5A5. -/
def read (e : Env) (o : Opnd) (j pos lane : Nat) : Word :=
  match o with
  | .v _ | .s _ => match e.copy o j lane with
    | none => Config.dead
    | some r => r.val
  | .c n => match e.g.threads.get? lane with
    | none => 0#32
    | some t => t.creg n.toNat
  | .q n => match (e.entries n lane)[pos]? with
    | some (.val w) => w
    | _ => Config.dead

/-- Word `j` of the k-th used operand. -/
def val (e : Env) (k j lane : Nat) : Word :=
  match e.uses[k]? with
  | none => 0#32
  | some u => e.read u.o j (e.popPos k) lane

/-- The first word of the k-th used operand. -/
def word (e : Env) (k lane : Nat) : Word := e.val k 0 lane
/-- A pair as 64 bits, the low word in the even register. -/
def pair (e : Env) (k lane : Nat) : DWord := dword (e.val k 0 lane) (e.val k 1 lane)
/-- The words of the k-th operand. -/
def words (e : Env) (k n lane : Nat) : List Word := (List.range n).map fun j => e.val k j lane

/-- The k-th operand where it is a register form, else the immediate. -/
def ri (e : Env) (b : RI) (k lane : Nat) : Word :=
  match b with
  | .reg _ => e.word k lane
  | .imm i => (immOf e.i.pfx 8 i).setWidth 32

/-- Whether a use reads its operand. -/
def useReads (u : Use) : Bool := decide (u.role ≠ .dst)

/-- Instructions that one lane executes, the nib (11:R254, 15:R369, R373, 16:R387, R389, 17:R411). -/
def nibOnly : Instr → Bool
  | .fmtres .. | .fmtrel .. | .mld .. | .mldT .. | .mso .. | .mmac .. | .mmacI .. | .mqnt .. | .spick .. | .capo ..
  | .barw .. | .tdel .. | .rcq .. | .pmset .. | .trapSoft .. | .bcastNib .. => true
  | _ => false

/-- The lane from which `shfl` takes a value for a lane, with the amount `n` (06:R141). -/
def shflLane (i : Instr) (lane n : Nat) : Int :=
  match i with
  | .shflIdx .. => n
  | .shflUp .. => (lane : Int) - n
  | .shflDown .. => (lane : Int) + n
  | .shflXor .. => (lane ^^^ n : Nat)
  | _ => lane

/-- The lane whose A `shfl` delivers to a lane: the source lane where it is active, else the lane itself. -/
def shflSource (e : Env) (lane : Nat) : Nat :=
  let t := shflLane e.i lane (e.word 1 lane).toNat
  if 0 ≤ t ∧ t < e.width ∧ e.act.getLsbD t.toNat then t.toNat else lane

/-- Whether the test of `sel` passes in a lane (05:R119). -/
def selTest (e : Env) (x : Bool) (n : BitVec 3) (lane : Nat) : Bool := (e.c.k.getD n.toNat 0#64).getLsbD lane ^^ x

/-- The lanes in which the k-th use is read: the active lanes, but for instructions that need fewer (06:R140). -/
def useLanes (e : Env) (k : Nat) : Mask :=
  if nibOnly e.i then (match lowest e.act with | none => 0#64 | some n => bit n)
  else match e.i with
    | .sel _ _ _ x n => maskOf (e.lanes.filter (e.selTest x n))
    | .bcast _ _ _ n => e.act &&& bit n.toNat
    | .shflIdx .. | .shflUp .. | .shflDown .. | .shflXor .. => if k = 0 then maskOf (e.lanes.map e.shflSource) else e.act
    | _ => e.act

/-- Whether a use reads a dead register in a lane. -/
def deadUse (e : Env) (u : Use) (lane : Nat) : Bool :=
  useReads u && (u.o.isV || u.o.isS) && (List.range u.n).any fun j => (e.copy u.o j lane).isNone

/-- Whether a lane reads a dead register (03:R51). -/
def deadIn (e : Env) (lane : Nat) : Bool :=
  (e.uses.zipIdx).any fun u => (e.useLanes u.2).getLsbD lane && e.deadUse u.1 lane

/-- The first poisoned half that a use reads in a lane: the register's operand code and whether it is the high half. -/
def poisonUse (e : Env) (u : Use) (lane : Nat) : Option (Nat × Bool) :=
  if !useReads u then none
  else ((List.range u.n).filterMap fun j =>
    match e.copy u.o j lane with
    | none => none
    | some r =>
      if r.plo then some (u.o.code.toNat + j, false)
      else if r.phi && !u.low then some (u.o.code.toNat + j, true) else none).head?

/-- The first poisoned half that a lane reads, in the order of the operands, registers rising, the low half first: X of the trap names it (16:R380;
DESIGN CHOICE, log 121); a last-use hint reads it in every active lane, but for an instruction that one lane executes,
which reads in that lane only (03:R78, 11:R254). -/
def poisonIn (e : Env) (lane : Nat) : Option (Nat × Bool) :=
  ((e.uses.zipIdx).filterMap fun u =>
    if (if u.1.last && !nibOnly e.i then e.act else e.useLanes u.2).getLsbD lane then e.poisonUse u.1 lane else none).head?

/-! ### Trap records (16:R379, R380, R384) -/

/-- A trap at this instruction: recorded at the first prefix, returning to it, or to the header of a stroke. -/
def trap (e : Env) (cause reason : Nat) (lanes : Mask) (x : BitVec 17) (d1 d2 : Word) : TrapRec :=
  { cause := cause, reason := reason, tok := false, x := x, d1 := d1, d2 := d2, tra := e.cur.ip, lanes := lanes
    ret := if e.stroke then e.cur.at_ else e.cur.ip
    cur := if e.stroke then none else some e.cur
    skip := if e.stroke then none else some e.next
    skipCur := if e.last then none else some { e.cur with idx := e.cur.idx + 1, ip := e.next, done := 0#64 }
    resume := e.c.resume, ports := [], act := e.act }

/-- A virtual address as the detail words hold it. -/
def vaD2 (va : DWord) : Word := (va.extractLsb' 32 25).setWidth 32

/-- Whether SAT is set, and the rounding mode in force with a default (02:R46, 04:R93). -/
def sat (e : Env) : Bool := match e.i.pfx.md with | some m => m.sat | none => false
def flo (e : Env) : Bool := match e.i.pfx.md with | some m => m.flo | none => false

/-- A trap whose detail is a virtual address. -/
def trapVa (e : Env) (cause reason : Nat) (lanes : Mask) (x : BitVec 17) (va : DWord) : TrapRec :=
  e.trap cause reason lanes x (va.setWidth 32) (vaD2 va)

/-- The words of the instruction with its prefixes. -/
def text (e : Env) : List Word := (encode e.i).getD []

/-- INSN with a reason of the instruction's encoding (02:R62, R63, 16:R380): reason 12 at its MOD prefix, any other at its
first word. Its lanes are the active ones (R63), for reason 20 of an instruction that the nib alone executes too (DESIGN CHOICE, log 124). -/
def insn (e : Env) (r : Reason) : TrapRec :=
  let n := if r = .modReserved then 0 else pfxCount e.i.pfx
  let t := e.trap 1 r.code e.full 0#17 (e.text.getD n 0#32)
    (if r ≠ .modReserved ∧ bodyWords e.i = 2 then e.text.getD (n + 1) 0#32 else 0#32)
  { t with tra := if r = .modReserved then e.cur.ip else e.w, skip := if r = .modReserved then none else t.skip }

/-! ### Reasons that depend on the clause, the kernel and the context (02:R41, R49, R56, 03:R69, 12:R279, 15:R369) -/

/-- Whether an operand lies outside what the context declares. -/
def absentUse (e : Env) (u : Use) : Bool :=
  match u.o with
  | .v n => decide ((if e.x.access then min e.l.kern.avregs 32 else e.l.kern.vregs) < n.toNat + u.n)
  | .s n => decide ((if e.x.access then min e.l.kern.asregs 16 else e.l.kern.sregs) < n.val + u.n)
  | .c _ => e.x.access
  | .q n => !e.g.queues.has n.toNat

/-- Whether a queue's consumer is this context; an undeclared one has none. -/
def consumes (e : Env) (q : BitVec 3) : Bool :=
  match e.g.queues.get? q.toNat with
  | none => true
  | some r => decide (r.ca = e.x.access)

/-- Whether a port is used from the wrong side (12:R279). -/
def wrongSide (e : Env) (u : Use) : Bool :=
  match u.o with
  | .q n => e.g.queues.has n.toNat && (if useReads u then !e.consumes n else e.consumes n)
  | _ => false

/-- Instructions that raise reason 22 in an access context. -/
def computeOnly (i : Instr) : Bool :=
  decide (i.cls = some .mtx) ||
  (match i with
   | .rng .. | .spawn .. | .tokput .. | .dset .. | .dget .. | .refill .. | .itemfin .. | .ddrain .. | .dspill ..
   | .rcq .. | .rcrd .. | .famset .. | .capo .. | .capx .. | .bar .. | .barr .. | .barw .. => true
   | .sysrd _ _ n _ | .syswr _ _ n _ => decide (n.toNat = 0x0C)
   | _ => false)

/-- The queue that a queue instruction names, and whether only its consumer may execute it. -/
def queueOf (i : Instr) : Option (BitVec 3 × Bool) :=
  match i with
  | .qset _ _ q _ | .qcount _ _ q _ _ => some (q, false)
  | .qpeek _ _ q _ | .qdrain _ _ q _ | .qtokTest _ _ q _ | .qtokTake _ _ q _ => some (q, true)
  | _ => none

/-- Whether an instruction is of the class of its clause or may stand in it (02:R41). -/
def classOk (e : Env) : Bool :=
  decide (e.cur.hdr.cls = .mix) || decide (e.i.cls = some e.cur.hdr.cls) || (e.i.isTransfer && e.last) ||
  (match e.i with | .nop _ => true | _ => false)

/-- The reasons of INSN that depend on where the instruction stands, but for reason 20. -/
def dynamic (e : Env) : List Reason :=
  let r (b : Bool) (x : Reason) : List Reason := if b then [x] else []
  r (!e.classOk) .classMismatch ++
  r (e.i.isTransfer && !e.last) .transferNotLast ++
  r ((e.i.usesIn e.stroke).any e.absentUse) .absentOperand ++
  r (match queueOf e.i with | some (q, _) => !e.g.queues.has q.toNat | none => false) .absentOperand ++
  r (e.x.access && computeOnly e.i) .notInAccess ++
  r (e.uses.any e.wrongSide) .queueSide ++
  r (match queueOf e.i with | some (q, true) => !e.consumes q | _ => false) .queueSide ++
  r (match e.i with
     | .bcast _ _ _ n => decide (e.width ≤ n.toNat)
     | .ldToQueue _ _ _ q _ => (!e.x.access || match e.g.queues.get? q.toNat with | none => false | some r => r.ca)
     | .qset _ _ q d => decide (d = 0#5) || (match e.g.queues.get? q.toNat with | none => false | some r => decide (r.depth < d.toNat))
     | _ => false) .reservedField ++
  r (match e.i with | .park .. => !e.last | _ => false) .parkNotLast ++
  r (match e.i with | .rcq .. => !e.last | _ => false) .queryNotLast ++
  r (match e.i with | .capo .. | .capx .. => decide (e.cur.hdr.count ≠ 1) | _ => false) .capsuleClause ++
  r (match e.i with
     | .tret .. | .tdel .. => !e.last || decide (e.c.tcg = 0#32)
     | .brk .. => !e.last
     | _ => false) .trapReturn

/-- Reason 20: a dead register read under POISONTRAP (02:R51). -/
def poisonTrap (e : Env) : List Reason := if e.l.kern.poisonTrap && e.lanes.any e.deadIn then [.poisonRead] else []

/-! ### Strokes (15:R356) -/

/-- Instructions that a stroke may hold. -/
def strokeOk : Instr → Bool
  | .cmp .. | .sel .. | .selImm .. | .fcmp .. | .fcls .. => false
  | .rng .. | .shflIdx .. | .shflUp .. | .shflDown .. | .shflXor .. | .vote .. | .voteBallot .. | .red .. | .scan ..
  | .bcast .. | .bcastNib .. => false
  | .nop _ => true
  | .ld _ _ n _ _ | .ldToQueue _ _ n _ _ => decide (n.toNat ≤ 4)
  | .st _ _ n _ _ => decide (n.toNat ≤ 2)
  | i => decide (i.cls = some .alu)

/-- The holder of the stroke in the running path; a path without it passes through with no effect (15:R354). -/
def holder (e : Env) : Option Nat := e.g.strokeLane e.x.access e.c.path

/-- The lowest reason of CAPSULE that an instruction of a stroke meets in its holder. -/
def strokeReason (e : Env) : Option Nat :=
  if !e.stroke || e.holder.isNone then none
  else if !strokeOk e.i || (match e.i.pfx.md with | some m => m.pe | none => false) then some 4
  else if e.uses.any fun u => !u.o.isC then some 5
  else none

/-- CAPSULE in a stroke: the holder alone, the detail of its link (15:R354, R368, 16:R380). -/
def strokeTrap (e : Env) (reason : Nat) : TrapRec :=
  let link := match e.holder with
    | none => Link.zero
    | some h => match e.g.threads.get? h with | none => Link.zero | some t => t.link
  e.trapVa 9 reason (match e.holder with | none => e.full | some h => bit h) (BitVec.ofNat 17 link.stroke) link.va

/-! ### Waits before issue (02:R41, R52 to R55, 09:R218, 10:R222 to R226) -/

/-- Whether an instruction accesses memory (10:R226); a fence is no access (09:R218). -/
def isAccess (i : Instr) : Bool :=
  (decide (i.cls = some .mem) && (match i with | .fence .. => false | _ => true)) || (match i with | .mld .. | .mldT .. | .mso .. | .mqnt .. | .spick .. | .mmac .. | .mmacI .. => true | _ => false)

/-- Whether it is a load or an atomic, which an acquire fence waits for (09:R218). -/
def readsMemory : Instr → Bool
  | .ldToQueue .. | .lds .. => true
  | i => homeReads i

/-- Whether it accesses global memory. -/
def isGlobal : Instr → Bool
  | .lds .. | .sts .. | .fence .. => false
  | .cp _ _ n .. => decide (n ≠ 2#2)
  | i => decide (i.cls = some .mem)

/-- Whether it writes memory. -/
def isWrite : Instr → Bool
  | .st .. | .sts .. | .cp .. | .atom .. | .acas .. | .ared .. | .mso .. | .mqnt .. | .spick .. => true
  | _ => false

/-- The order of an instruction: whether it has acquire and release parts, and its scope. -/
def orderOf : Instr → Bool × Bool × BitVec 3
  | .ld _ _ _ _ m | .st _ _ _ m _ | .lds _ _ _ _ m | .sts _ _ _ m _ | .atom _ _ _ _ _ m _ | .acas _ _ _ _ m _ _
  | .ared _ _ _ _ m _ | .waitv _ _ _ _ m _ | .notify1 _ _ m | .notifyall _ _ m => (m.ord.getLsbD 0, m.ord.getLsbD 1, m.sco)
  | .fence _ _ sco ord => (ord.getLsbD 0, ord.getLsbD 1, sco)
  | _ => (false, false, 0#3)

/-- Registers that a long form in flight has yet to write. -/
def opDst (o : Op) : List Use := o.i.uses.filter fun u => decide (u.role ≠ .src)

/-- Whether two uses share a register. -/
def shares (u v : Use) : Bool :=
  match u.o, v.o with
  | .v a, .v b => decide (a.toNat < b.toNat + v.n ∧ b.toNat < a.toNat + u.n)
  | .s a, .s b => decide (a.val < b.val + v.n ∧ b.val < a.val + u.n)
  | .c a, .c b => decide (a = b)
  | _, _ => false

/-- The long forms of its context that an instruction has to consider: a `waitv` whose waiting lanes have left the path (stopped
ones) is none of them (07:R160, 09:R217). -/
def ahead (e : Env) (s : State) : List Op :=
  (s.opsOf e.x).vals.filter fun o => match o.i with
    | .waitv .. => decide (o.left &&& e.c.path ≠ 0#64)
    | _ => true

/-- Register hazards (02:R54). -/
def hazard (e : Env) (s : State) : Bool :=
  (e.ahead s).any fun o => (opDst o).any fun d => e.uses.any fun u => shares u d

/-- Whether a long form has acquire order that later accesses still wait for: a fence's acquire part, or any other acquire (09:R218,
10:R226). -/
def acquiring (o : Op) : Bool :=
  match o.data with
  | .fence _ acq _ => (orderOf o.i).1 && (acq || decide (o.left ≠ 0#64))
  | _ => (orderOf o.i).1

/-- Whether a trap of an instruction issued earlier is known and comes first: nothing after that instruction has an effect (16:R384). -/
def trapComing (e : Env) (s : State) : Bool :=
  ((s.opsOf e.x).vals.any fun o => !o.fails.isEmpty) || (!e.c.late.isEmpty && e.c.resume.isNone && decide (e.c.tcg = 0#32))

/-- Whether an access that a context issued under a key below `before` is not yet performed at a scope (10:R221): a request at a home
slice, a write in its buffer, a write to host memory. -/
def unperformed (s : State) (x : Site) (sco before : Nat) : Bool :=
  ((s.reqsOf x).any fun e => decide (e.1 < before)) ||
  (s.mem.wbuf.any fun e => decide (e.1 < before ∧ e.2.gang = x.gang ∧ e.2.access = x.access) && decide (3 ≤ sco)) ||
  (s.mem.hostWr.any fun e => decide (e.1 < before ∧ e.2.gang = x.gang ∧ e.2.access = x.access) && decide (sco = 4 ∨ sco = 6))

/-- Whether loads into queues of a context are still in flight (10:R223, R230). -/
def pendingLoads (e : Env) : Bool :=
  e.x.access && e.g.queues.vals.any fun q => !q.ca && q.ents.vals.any fun es => es.any fun t => (match t with | .pend .. => true | _ => false)

/-- Whether an active lane has a read at a home slice that is not performed; a read-modify-write reads (10:R223). -/
def readsAhead (e : Env) (s : State) : Bool :=
  (s.reqsOf e.x).vals.any fun r => e.act.getLsbD r.lane && (match s.reqOp r with | none => false | some o => homeReads o.i)

/-- Whether it pushes to a `ca` queue: what the access context stores from there follows the accesses before the push (10:R230). -/
def pushesData (e : Env) : Bool :=
  !e.x.access && e.uses.any fun u => u.o.isQ && decide (u.role = .dst)

/-- Instructions that wait until every earlier instruction of their context has completed (03:R77, 14:R345, 15:R369,
R370, 16:R387 to R399). -/
def waitsAll (e : Env) : Bool :=
  match e.i with
  | .trapSoft .. | .trapLink .. | .trapGst .. | .tret .. | .tdel .. | .brk .. | .capo .. | .capx .. | .rcq .. | .bar ..
  | .barr .. | .barw .. | .pmrd .. | .pmset .. => true
  | .sysrd _ _ n _ | .syswr _ _ n _ => decide (n = 0#8 ∨ n = 0x0C#8 ∨ (0x10 ≤ n.toNat ∧ n.toNat < 0x18))
  | .wait _ all _ _ => all
  | _ => false

/-- Whether the instruction does not issue yet. -/
def mustWait (e : Env) (s : State) : Bool :=
  let mine := e.ahead s
  let clause := mine.filter fun o => decide (o.serial = e.cur.serial)
  let (_, rel, sco) := orderOf e.i
  let fence := match e.i with | .fence .. => true | _ => false
  let released := mine.any fun o => match o.data with | .fence r _ _ => r | _ => false
  -- clause order and lookahead (02:R41, R53)
  (clause.any fun o => o.mix || decide (o.idx + o.la < e.cur.idx)) ||
  -- the waits of the header hold as the first instruction issues (02:R40)
  (decide (e.cur.idx = 0 ∧ e.cur.done = 0#64) && e.c.resume.isNone &&
    !s.headerReady e.x e.g e.c e.core e.l.owner e.cur.hdr e.cur.at_) ||
  -- scoreboard counter at 63 (02:R52)
  (match e.i.lf with | none => false | some l => decide (63 ≤ e.c.sbOf l.sb.toNat)) ||
  e.hazard s || e.trapComing s ||
  (mine.any fun o => match o.i with | .rcq .. => true | _ => false) ||
  -- acquires and fences (09:R218, 10:R226)
  (isAccess e.i && mine.any acquiring) ||
  (released && (isWrite e.i || (rel && !fence) || e.pushesData)) ||
  -- releases
  (rel && !fence && (mine.any (fun o => isAccess o.i) || unperformed s e.x (scopeOf sco) s.nextId)) ||
  -- a write follows the reads before it; a read-modify-write is held at its home slice (10:R223)
  (((isWrite e.i && !isRmw e.i) || e.pushesData) && e.readsAhead s) ||
  (isWrite e.i && e.pendingLoads) ||
  -- an item is accepted after every earlier access is performed at dev scope, and what its creator has seen (13:R312, 10:R228)
  ((match e.i with | .spawn .. | .tokput .. => true | _ => false) &&
    (mine.any (fun o => isAccess o.i) || unperformed s e.x 3 s.nextId || s.pairBehind e.core 3 s.nextId)) ||
  (e.waitsAll && !(s.opsOf e.x).isEmpty) ||
  -- an arrival waits until every earlier access is performed at the barrier's scope, core or pair (15:R375)
  ((match e.i with | .bar .. | .barr .. => true | _ => false) && unperformed s e.x 2 s.nextId)

/-! ### Queue ports (12:R281) -/

/-- State of one pop or push in one lane. -/
inductive Port where
  | ready | waiting
  | token (t : Token)
  | ended (reason : Nat)

/-- Whether the access context of a lane has ended, for its compute context; an access lane outlives its compute lane only up to its
next clause boundary, and raises nothing (01:R27, 12:R287). -/
def otherEnded (e : Env) (lane : Nat) : Bool :=
  !e.x.access && (match e.g.actx with
    | none => true
    | some a => !a.lanes.has lane)

/-- The head that the k-th use pops in a lane. -/
def popState (e : Env) (k : Nat) (q : BitVec 3) (lane : Nat) : Port :=
  match (e.entries q lane)[e.popPos k]? with
  | some (.val _) => .ready
  | some (.tok t) => .token t
  | some (.pend ..) => .waiting
  | none => if e.otherEnded lane then .ended 1 else .waiting

/-- The room that a push needs in a lane. -/
def pushState (e : Env) (q : BitVec 3) (lane : Nat) : Port :=
  if e.otherEnded lane then .ended 2
  else match e.g.queues.get? q.toNat with
    | none => .waiting
    | some r => if (e.entries q lane).length < r.limit then .ready else .waiting

/-- A load into a queue, whose push has rules of its own (12:R282). -/
def isQueueLoad : Instr → Bool
  | .ldToQueue .. => true
  | _ => false

/-- The ports in the order in which they are examined: queue, and the state in each active lane. -/
def ports (e : Env) : List (BitVec 3 × List (Nat × Port)) :=
  let idx := List.range e.uses.length
  let at_ (k : Nat) (src : Bool) : Option (BitVec 3 × List (Nat × Port)) :=
    match e.uses[k]? with
    | some u => match u.o with
      | .q q => if decide (u.role = .src) = src ∧ (src ∨ !isQueueLoad e.i) then
          some (q, e.lanes.map fun n => (n, if src then e.popState k q n else e.pushState q n)) else none
      | _ => none
    | none => none
  idx.filterMap (at_ · true) ++ idx.filterMap (at_ · false)

/-- The trap of a token (12:R283). -/
def tokenTrap (e : Env) (st : List (Nat × Port)) (t : Token) : TrapRec :=
  let same (u : Token) : Bool := decide (u.cause = t.cause) && (decide (t.cause ≠ 3 ∧ t.cause ≠ 4) || decide (u.page = t.page ∧ u.addr.toNat / t.page = t.addr.toNat / t.page))
  let m := maskOf ((st.filter fun p => match p.2 with | .token u => same u | _ => false).map (·.1))
  -- AOFF belongs to the detail of XLATE, PROTECT and ALIGN (16:R380)
  let aoff := if 3 ≤ t.cause ∧ t.cause ≤ 5 then BitVec.ofNat 19 (((t.src - e.l.kern.aentry).toNat) / 4) else 0#19
  { e.trap t.cause t.reason m (t.x ||| (aoff.extractLsb' 0 12).setWidth 17) t.d1
      (t.d2 ||| ((aoff.extractLsb' 12 7).setWidth 32 <<< 25)) with
    tok := true
    ports := (e.uses.filterMap fun u => match u.o, u.role with | .q n, .src => some n.toNat | _, _ => none) }

/-- The first condition that decides among settled ports: a token trap or QUEUE (12:R281, R287). -/
def portTrap (e : Env) : List (BitVec 3 × List (Nat × Port)) → Option TrapRec
  | [] => none
  | (q, st) :: rest =>
    match st.find? fun p => (match p.2 with | .token _ | .ended _ => true | _ => false) with
    | some (_, .token t) => some (e.tokenTrap st t)
    | some (_, .ended r) =>
      let m := maskOf ((st.filter fun p => match p.2 with | .ended _ => true | _ => false).map (·.1))
      some (e.trap 7 r m (BitVec.ofNat 17 q.toNat) 0#32 0#32)
    | _ => e.portTrap rest

/-- Whether a port is settled in every lane. -/
def settled (st : List (Nat × Port)) : Bool := st.all fun p => (match p.2 with | .waiting => false | _ => true)

/-! ### The gate -/

/-- What comes before an instruction's own effect. -/
inductive Gate where
  | raise (t : TrapRec)
  /-- it does not issue; `queue` says that its context enters queue-wait -/
  | hold (queue : Bool)
  | go

/-- Whether an instruction is of a kind that may set flags of `gst`: it accumulates into them, whether or not it sets one (03:R74, R79)
(DEDUCED, log 81). -/
def mayFlag (e : Env) : Bool :=
  e.i.pfx.md.any (·.sat) || e.lanes.any e.deadIn ||
  (match e.i with
   | .fabs .. | .fneg .. | .cvt .. | .req .. | .fadd .. | .fsub .. | .fmul .. | .ffma .. | .fmin .. | .fmax .. | .fcmp .. | .rcp .. | .rsq .. | .sqrt ..
   | .exp2 .. | .log2 .. | .sin .. | .cos .. | .tanh .. | .red .. | .scan .. => true
   | _ => false)

/-- Numbers of parity-protected registers that the instruction reads or changes (03:R79, 16:R380). -/
def protectedRegs (e : Env) : List Nat :=
  let ks := (List.range 8).map (0x10 + ·)
  let cs := (List.range 8).map (0x70 + ·)
  (match e.i.pfx.md with | some m => if m.pe then [0x10 + m.pk.toNat] else [] | none => []) ++
  (match e.i.lf with | some l => [0x20 + l.sb.toNat] | none => []) ++
  (e.uses.filterMap fun u => match u.o with | .c n => some (0x70 + n.toNat) | _ => none) ++
  (if e.mayFlag then [0] else []) ++
  (match e.i with
   | .sysrd _ _ n _ | .syswr _ _ n _ => [n.toNat]
   | .cmp _ _ _ n .. | .sel _ _ _ _ n | .selImm _ _ _ n _ | .fcmp _ _ n .. | .fcls _ _ n .. | .bk _ _ _ n _ => [0x10 + n.toNat]
   | .vote _ _ n _ k => [0x10 + n.toNat, 0x10 + k.toNat]
   | .voteBallot _ _ _ k | .qtokTest _ _ _ k => [0x10 + k.toNat]
   | .enrol _ n | .park _ n | .strike _ n => [0x18 + n.toNat]
   | .exit _ => 0x01 :: (List.range 8).map (0x18 + ·) ++
       (if e.g.threads.vals.any (fun t => decide (t.item ≠ .no)) then [0x0A] else [])
   | .wait _ _ _ sb => ((List.range 4).filter fun n => sb.getLsbD n).map (0x20 + ·)
   | .trapGst .. => [0]
   | .tret .. => 0x01 :: ks
   | .tdel .. => [0x01, 0x02, 0x03, 0x04, 0x05, 0x06, 0x09]
   | .brk .. => [0x09]
   | .capo .. => 0x09 :: cs
   | .capx .. => [0x09, 0x17] ++ cs
   | .famset .. => [0x09, 0x0A]
   | .spawn .. | .tokput .. | .refill .. | .rcq .. | .rcrd .. => [0x0A]
   | .rng .. => [0x0B, 0x0C] ++ (if e.l.ordered then [] else [0x09])
   | _ => [])

/-- The poisoned copies read in active lanes: HWERR reason 1 at the lowest (03:R78). -/
def copyTrap (e : Env) : Option TrapRec :=
  match e.lanes.filterMap fun n => (e.poisonIn n).map fun p => (n, p) with
  | [] => none
  | (n, r, hi) :: rest =>
    some (e.trap 13 1 (maskOf (n :: rest.map (·.1))) (BitVec.ofNat 17 (r + if hi then 128 else 0)) 0#32 0#32)

/-- The lanes in which an instruction meets the error of a protected register: of a register of one lane, those that read or change it; of another
every active lane, also where the nib alone executes the instruction (11:R256, 16:R380; DESIGN CHOICE, log 124). -/
def parityLanes (e : Env) (n : Nat) : Option Mask :=
  if !perThread n then (if e.c.parity.has n then some e.act else none)
  else match (if nibOnly e.i then e.lanes.take 1 else e.lanes).filter fun k => e.c.parity.has (parityKey n k) with
    | [] => none
    | ls => some (maskOf ls)

/-- HWERR reason 2 for a parity-protected register with an error: of several the first in the order of `protectedRegs`. It comes before the reads of
poisoned copies, reason 1: the spec gives no order of these (DESIGN CHOICE, log 121). -/
def parityTrap (e : Env) : Option TrapRec :=
  (e.protectedRegs.filterMap fun n => (e.parityLanes n).map fun m => e.trap 13 2 m (BitVec.ofNat 17 n) 0#32 0#32).head?

/-- The checks and waits before an instruction has any effect. -/
def gate (e : Env) (s : State) : Gate :=
  match Reason.lowest (if e.i.pfx.md.any (fun m => decide (6 ≤ m.rnd.toNat)) then [.modReserved]
      else e.i.static e.stroke ++ e.dynamic) with
  | some r =>
    if r.code < 20 ∨ !e.l.kern.poisonTrap then .raise (e.insn r)
    else if e.hazard s then .hold false
    else .raise (e.insn ((Reason.lowest (r :: e.poisonTrap)).getD r))
  | none =>
    match e.strokeReason with
    | some r => .raise (e.strokeTrap r)
    | none =>
      if e.mustWait s then .hold false
      else match e.poisonTrap with
        | r :: _ => .raise (e.insn r)
        | [] =>
          match e.parityTrap with
          | some t => .raise t
          | none => match e.copyTrap with
            | some t => .raise t
            | none =>
              let ps := e.ports
              if !(ps.all fun p => settled p.2) then .hold true
              else match e.portTrap ps with
                | some t => .raise t
                | none => .go

/-! ### Effects common to all instructions (02:R51, 12:R281) -/

/-- The lanes of one queue pop `n` entries. -/
def popLanes (g : Gang) (q n : Nat) (lanes : List Nat) : Gang :=
  { g with queues := g.queues.upd q fun r => { r with ents := lanes.foldl (fun t k => t.put k ((t.getD k []).drop n)) r.ents } }

/-- Whether a replayed instruction reads a register as at its issue, so that its hint has no part in what stands there now. -/
def replayed (e : Env) (v : Bool) (k : Nat) : Bool := e.c.resume.any fun r => if v then r.v.has k else r.s.has k

/-- Sources are consumed in lanes that execute: the PZ flag, pops, last-use hints. An s register dies only where no lane is
left to execute (`all`). -/
def settle (e : Env) (s : State) (m : Mask) (all : Bool) : State :=
  if m = 0#64 then s
  else
    let ls := lanesOf m
    let pz := ls.any e.deadIn
    let kill (c : Ctx) (u : Use) : Ctx :=
      if !u.last then c
      else match u.o with
        | .v n => { c with v := (List.range u.n).foldl (fun t j => ls.foldl (fun t k =>
            if e.replayed true (64 * (n.toNat + j) + k) then t else t.del (64 * (n.toNat + j) + k)) t) c.v }
        | .s n => if all then { c with s := (List.range u.n).foldl (fun t j => if e.replayed false (n.val + j) then t else t.del (n.val + j)) c.s } else c
        | _ => c
    let s := s.updCtx e.x fun c =>
      let c := if pz then { c with gst := c.gst ||| 0x40#32 } else c
      e.uses.foldl kill c
    let pops := e.uses.filterMap fun u => match u.o, u.role with | .q n, .src => some n.toNat | _, _ => none
    if pops.isEmpty then s else s.updGang e.x.gang fun g => pops.foldl (fun g q => popLanes g q 1 ls) g

/-- What an instruction that may fail after its issue read: live copies of its source registers, and the queue entries that it popped. -/
def taken (e : Env) : Assoc Reg × Assoc Reg × List (Nat × Nat × QEnt) :=
  let us := e.uses.filter useReads
  (us.foldl (fun t u => match u.o with
    | .v n => (List.range u.n).foldl (fun t j => e.lanes.foldl (fun t k =>
        match e.c.v.get? (64 * (n.toNat + j) + k) with | none => t | some r => t.put (64 * (n.toNat + j) + k) r) t) t
    | _ => t) [],
   us.foldl (fun t u => match u.o with
    | .s n => (List.range u.n).foldl (fun t j => match e.c.s.get? (n.val + j) with | none => t | some r => t.put (n.val + j) r) t
    | _ => t) [],
   (List.range e.uses.length).foldl (fun l k => match e.uses[k]? with
    | some u => (match u.o, u.role with
      | .q q, .src => l ++ e.lanes.filterMap fun n => ((e.entries q n)[e.popPos k]?).map fun t => (q.toNat, n, t)
      | _, _ => l)
    | none => l) [])

/-- Values written in a gang's compute context extend the hash of its spin detector (01:R31). -/
def hashWrites (g : Gang) (access : Bool) (ws : List Word) : Gang :=
  match access, g.spin with
  | true, _ | _, none => g
  | false, some p => { g with spin := some { p with hash := ws.foldl Config.spinHash p.hash } }

end Env

/-- Writes the words of a destination in lanes (03:R71): an s register once, with the value of lane `nib`, where that lane
is among them. A write makes the copy live and clears its poison (03:R68, R78). -/
def State.writeReg (s : State) (x : Site) (o : Opnd) (n : Nat) (lanes : List Nat) (nib : Option Nat) (vals : Nat → List Word) : State :=
  let live (w : Word) : Reg := ⟨w, false, false⟩
  match o with
  | .v r => s.updGang x.gang fun g =>
      let g := Env.hashWrites g x.access ((lanes.map fun k => (vals k).take n).flatten)
      g.updCtx x.access fun c => { c with v := lanes.foldl (fun t k =>
        (List.range n).foldl (fun t j => t.put (64 * (r.toNat + j) + k) (live ((vals k).getD j 0#32))) t) c.v }
  | .s r => match nib with
    | none => s
    | some k =>
      if !lanes.contains k then s
      else s.updGang x.gang fun g =>
        let g := Env.hashWrites g x.access ((vals k).take n)
        g.updCtx x.access fun c => { c with s := (List.range n).foldl (fun t j => t.put (r.val + j) (live ((vals k).getD j 0#32))) c.s }
  | .c r => lanes.foldl (fun s k => s.updThread x.gang k fun t => { t with c := t.c.putD r.toNat ((vals k).getD 0 0#32) 0#32 }) s
  | .q r => s.updGang x.gang fun g => { g with queues := g.queues.upd r.toNat fun q =>
      { q with ents := lanes.foldl (fun t k => t.put k (t.getD k [] ++ [.val ((vals k).getD 0 0#32)])) q.ents } }

/-- The lanes in which a `waitv` of a context is in flight. -/
def State.waitvLanes (s : State) (x : Site) : Mask :=
  (s.opsOf x).vals.foldl (fun m o => match o.i with | .waitv .. => m ||| o.left | _ => m) 0#64

/-- A clause boundary of a context: stepped lanes of the path stop, and a holder among them stalls its anchor (07:R160, 14:R340). One that
waits in the last instruction of its clause, a `waitv` or an arrival at a barrier, returns to that wait and stops when it is met (14:R340,
21:R437); of a `waitv` in flight nobody sees whether its check is made (14:R334). One that waits for a capsule stops at once (15:R362; DESIGN
CHOICE, log 122). -/
def State.stopStepped (s : State) (x : Site) (split : Ctx → Ctx) : State :=
  let s := s.updCtx x fun c =>
    let st := c.path &&& c.laneMask c.steps
    if st = 0#64 then split c
    else
      let wv := st &&& s.waitvLanes x
      let wait := wv ||| (st &&& c.laneMask fun _ l => decide (l.ws = .barrier ∨ l.ws = .waitv))
      let halt := st &&& ~~~wait
      let under (l : LaneSt) : WS := match l.ws with
        | .parked => .parked | .capsuleWait => .capsuleWait
        | _ => .ready
      let c := (((c.updLanes halt fun l => { l with ws := .stopped, under := under l, pstep := false }).setWs wv .waitv).leavePath st)
      ((split c).strike halt true).stepBack
  match s.gang? x.gang with
  | none => s
  | some g =>
    if x.access then s
    else ((g.threads.keep fun n t => decide (t.link.role = .owner ∨ t.link.role = .adopter) &&
        (g.cctx.lanes.get? n).any fun l => decide (l.ws = .stopped)).keys).foldl (fun s h => s.stallAnchor x.gang h) s

namespace Env

/-- Writes the instruction's destination in its active lanes. -/
def writeDst (e : Env) (s : State) (vals : Nat → List Word) : State :=
  match e.uses.getLast? with
  | none => s
  | some u => s.writeReg e.x u.o u.n e.lanes e.nib vals

/-- Sets bits of a predicate in the active lanes. -/
def writePred (e : Env) (s : State) (n : BitVec 3) (p : Nat → Bool) : State :=
  s.updGang e.x.gang fun g =>
    let g := hashWrites g e.x.access (e.lanes.map fun k => if p k then 1#32 else 0#32)
    g.updCtx e.x.access fun c =>
      let on := maskOf (e.lanes.filter p)
      { c with k := c.k.putD n.toNat ((c.k.getD n.toNat 0#64 &&& ~~~e.act) ||| on) 0#64 }

/-- Sets flags of `gst`. -/
def flags (e : Env) (s : State) (f : Word) : State := if f = 0#32 then s else s.updCtx e.x fun c => { c with gst := c.gst ||| f }

/-- Losses of decoupling (12:R286): an access-context instruction that pops a `ca` port, but for the data of `st`, `sts`. -/
def losses (e : Env) : Nat :=
  if !e.x.access then 0
  else
    let srcs := e.uses.filter fun u => u.o.isQ && decide (u.role = .src)
    let data (u : Use) : Bool := match e.i with | .st _ _ _ _ b | .sts _ _ _ _ b => decide (b.o = u.o) | _ => false
    let n := srcs.length
    match e.i with
    | .st .. | .sts .. => if n ≤ (if srcs.any data then 1 else 0) then 0 else 1
    | _ => if n = 0 then 0 else 1

/-- Passes of an instruction through its pipe (01:R11). -/
def passes (e : Env) : Nat := e.width / 16

/-- The pipe of a context on its core. -/
def pipe (e : Env) : Nat := pipeOf e.core e.g.quad e.x.access

/-- Passes of a pipe age the other contexts that are ready there; time between a freeze and its release does not count (01:R30, R449,
14:R335). -/
def ageOthers (e : Env) (s : State) (n : Nat) (g : Gang) : Gang :=
  if g.core ≠ some e.core ∨ (!e.x.access ∧ g.quad ≠ e.g.quad) ∨ s.frozen e.core g.launch then g
  else if s.readyAt ⟨n, e.x.access⟩ g then g.updCtx e.x.access fun c => { c with since := c.since + e.passes }
  else g

/-- An event of the instruction counts in the group of its gang, which may have ended with it (17:R404). -/
def event (e : Env) (s : State) (code w : Nat) : State := s.updGroup e.g.group fun r => r.event code w (some e.x.access)

/-- The passes of an instruction are counted (17:R404). -/
def passed (e : Env) (s : State) : State := e.event s 0x04 e.passes

/-- Bookkeeping of an instruction that has issued: its passes, the rotation of its level, ageing; a gang that issues is not evictable
(01:R25, R29, R30) (DEDUCED, log 26). -/
def issued (e : Env) (s : State) : State :=
  let s := e.event (e.passed s) 0x08 (if e.act = 0#64 then 0 else e.losses)
  let s := s.setGangs (s.gangs.mapVal fun n g => if n = e.x.gang then { g with evictable := none, deadlock := none } else e.ageOthers s n g)
  let s := if spinning e.g then s else s.updCtx e.x fun c => { c with since := 0, aged := false }
  s.goLast e.pipe (if e.c.aged then 0 else e.g.level e.x.access) e.x.gang

/-- The end of a clause: `f` sets where the lanes of the path stand and `split` what remains of the path; after YIELD the gang goes last
in its level; a stroke waits for its commit; stepped lanes stop (02:R38, R42, 07:R152, R160, 15:R358). -/
def closeClause (e : Env) (s : State) (f split : Ctx → Ctx) : State :=
  let s := if e.cur.hdr.yld then s.goLast e.pipe (e.g.level e.x.access) e.x.gang else s
  let s := (s.updCtx e.x fun c => { f c with cur := none }).endGrant e.x
  match s.ctx? e.x with
  | none => s
  | some c =>
    if c.stroke.isSome then s.setAgenda (.event (.strokeCommit e.x.gang) :: s.agenda) else s.stopStepped e.x split

/-- The end of a clause whose path continues as one. -/
def endClause (e : Env) (s : State) (pc : DWord) : State := e.closeClause s (fun c => c.setPc c.path pc) id

/-- The advance past an instruction that has issued: the next one of its clause, or the end of the clause. After a replay
the context continues where it stood (02:R55). -/
def advance (e : Env) (s : State) : State :=
  match e.c.resume with
  | some r => s.updCtx e.x fun c => { (c.setPc c.path r.pc) with cur := r.cur, resume := none }
  | none =>
    if e.last then e.endClause s e.next
    else s.updCtx e.x fun c =>
      { (c.updLanes c.path fun l => { l with pc := e.next }) with cur := some { e.cur with idx := e.cur.idx + 1, ip := e.next, done := 0#64 } }

end Env

/-- What an instruction's own meaning answers. -/
inductive Res where
  /-- it has issued: the context advances past it -/
  | done (s : State)
  /-- it raises a trap -/
  | raise (s : State) (t : TrapRec)
  /-- it does not issue -/
  | hold (s : State)
  /-- it has issued and has set where the context continues -/
  | moved (s : State)

/-- Lanes of the path enter a wait state at an instruction that does not issue; a stepped group steps aside, and a context that is left with
no path selects one (07:R151, 14:R340). -/
def State.blockPath (s : State) (x : Site) (m : Mask) (w : WS) : State := (s.updCtx x fun c => c.setWs m w).selectPath x

/-- Executes an instruction: its gate, its meaning, its advance (DESIGN CHOICE, log 50). -/
def run (i : Instr) (s : State) (body : Env → State → Res) : Host.Outcome State Fault Refusal :=
  match env? i s with
  | none => .refused .noContext
  | some e =>
    match e.gate s with
    | .raise t => .next (s.raise e.x t)
    | .hold q => .next (if q then s.blockPath e.x e.c.path .queueWait else s)
    | .go =>
      match body e (s.updCtx e.x fun c => c.wake c.path) with
      | .done t => .next ((e.advance (e.issued t)).selectPath e.x)
      | .raise t r => .next ((e.passed t).raise e.x r)
      | .hold t => .next t
      | .moved t => .next ((e.issued t).selectPath e.x)

end Sys2Proof.Machine
end

