-- ==== Sys2Proof/Machine/Flags.lean ====
section
/-! DEFINITION. Flags of `gst`, clamps that set SAT, rounding modes and conditions (03:R74, R81, 04:R93, R99, R103, 05:R118). -/

namespace Sys2Proof.Machine

/-- Flags of `gst` (03:R74). -/
def fNV : Word := 0x01#32
def fDZ : Word := 0x02#32
def fOF : Word := 0x04#32
def fUF : Word := 0x08#32
def fNX : Word := 0x10#32
def fSAT : Word := 0x20#32
def fPZ : Word := 0x40#32
def fEMPTY : Word := 0x80#32

/-- Clamps to a range; SAT where the clamp changes the value (03:R81). -/
def clamp (lo hi x : Int) : Int × Word := if x < lo then (lo, fSAT) else if hi < x then (hi, fSAT) else (x, 0#32)

/-- Range of an integer type of `n` bits (04:R85). -/
def intRange (signed : Bool) (n : Nat) : Int × Int := if signed then (-(2 ^ (n - 1)), 2 ^ (n - 1) - 1) else (0, 2 ^ n - 1)

/-- An exact result as an `n`-bit integer: clamped with SAT, else wrapped (04:R99). -/
def intDeliver (sat signed : Bool) (n : Nat) (x : Int) : Int × Word :=
  if sat then clamp (intRange signed n).1 (intRange signed n).2 x else (x, 0#32)

/-- Rounding modes (04:R93). -/
inductive Rm where
  | rne | rtz | rdn | rup | rna
  deriving DecidableEq, Repr

/-- The mode of a MOD RND field; 0 leaves the default (02:R46). -/
def Rm.of (rnd : BitVec 3) (default : Rm) : Rm :=
  match rnd.toNat with
  | 1 => .rne | 2 => .rtz | 3 => .rdn | 4 => .rup | 5 => .rna | _ => default

/-- The mode in force (03:R81 `mode()`). -/
def Env.mode (e : Env) (default : Rm) : Rm :=
  match e.i.pfx.md with
  | some m => Rm.of m.rnd default
  | none => default

/-- Whether rounding moves the magnitude up from a quotient `q` with remainder `r` of `d` (04:R93). -/
def Rm.up (m : Rm) (neg : Bool) (q r d : Nat) : Bool :=
  match m with
  | .rne => decide (2 * r > d) || (decide (2 * r = d) && decide (q % 2 = 1))
  | .rtz => false
  | .rdn => neg && decide (r ≠ 0)
  | .rup => !neg && decide (r ≠ 0)
  | .rna => decide (2 * r ≥ d) && decide (r ≠ 0)

/-- A rational rounded to an integer (04:R99): its magnitude is `n / d`. -/
def roundInt (m : Rm) (neg : Bool) (n d : Nat) : Int :=
  let q := n / d
  let q := if m.up neg q (n % d) d then q + 1 else q
  if neg then -(q : Int) else q

/-- The conditions of `cmp` (05:R118). -/
def cmpCond (c : BitVec 3) (a b : Int) (wa wb : Word) : Bool :=
  match c.toNat with
  | 0 => decide (a = b) | 1 => decide (a ≠ b) | 2 => decide (a < b) | 3 => decide (a ≤ b)
  | 4 => decide (a > b) | 5 => decide (a ≥ b) | 6 => decide (wa &&& wb ≠ 0#32) | _ => decide (wa &&& wb = 0#32)

/-- A result of one word in every active lane: sources are consumed, the destination written, flags set. -/
def Env.alu (e : Env) (s : State) (f : Nat → List Word × Word) : Res :=
  .done (e.flags (e.writeDst (e.settle s e.act true) fun n => (f n).1) (e.lanes.foldl (fun x n => x ||| (f n).2) 0#32))

/-- A result of one word without flags. -/
def Env.alu1 (e : Env) (s : State) (f : Nat → Word) : Res := e.alu s fun n => ([f n], 0#32)

end Sys2Proof.Machine
end

