-- ==== Sys2Proof/Machine/Forms.lean ====
section
/-! DEFINITION. Long forms in flight: their issue, the lanes that fail, their completion, and traps raised after later
instructions have issued (02:R52 to R55, 09:R173, R197, R198, 16:R381). -/

namespace Sys2Proof.Machine

/-! ### Lanes that fail -/

/-- Whether a lane's failure is named by the same trap as another's (09:R173, 13:R314, 16:R381). -/
def TrapRec.same (t u : TrapRec) : Bool :=
  let page (r : TrapRec) : Nat × Nat := (r.page, (dword r.d1 (r.d2 &&& 0x1FFFFFF#32)).toNat / r.page)
  decide (t.cause = u.cause) &&
  (decide (t.cause ≠ 3 ∧ (t.cause ≠ 4 ∨ t.reason = 6 ∨ t.reason = 8)) ||
    (decide (page t = page u) && decide (t.x.extractLsb' 15 2 = u.x.extractLsb' 15 2))) &&
  (decide (t.cause ≠ 8) || decide (t.reason = u.reason))

/-- The mask of failing lanes. -/
def failMask (fails : Assoc TrapRec) : Mask := maskOf fails.keys

/-- The trap of failing lanes: that of the lowest, with every lane that failed alike. -/
def joinFails (fails : Assoc TrapRec) : Option TrapRec :=
  match fails with
  | [] => none
  | (_, t) :: _ => some { t with lanes := failMask (fails.keep fun _ u => t.same u) }

/-- An instruction whose lanes have completed but for those that fail: it is done, or its trap returns to the lanes left. -/
def Env.part (e : Env) (s : State) (fails : Assoc TrapRec) : Res :=
  match joinFails fails with
  | none => .done s
  | some t =>
    .raise s { t with cur := if e.stroke then none else some { e.cur with done := e.cur.done ||| (e.act &&& ~~~(failMask fails)) } }

/-- Lanes of an instruction read poisoned words: their trap comes before it has any effect, in any lane (03:R78, 08:R190). -/
def State.allFail (s : State) (bad : Assoc TrapRec) : Res :=
  match joinFails bad with
  | none => .done s
  | some t => .raise s t

/-! ### Issue -/

/-- Whether an instruction stands in a MIX clause, where the next waits for its completion (02:R41). -/
def Env.mix (e : Env) : Bool := decide (e.cur.hdr.cls = .mix)

/-- A long form enters flight: its scoreboard counter rises (02:R52). -/
def Env.issueOp (e : Env) (s : State) (lanes left : Mask) (data : OpData) : Nat × State :=
  let (id, s) := s.freshId
  match e.i.lf with
  | none => (id, s)
  | some l =>
    let t := e.taken
    let home := decide (data = .home)
    let o : Op := { gang := e.x.gang, access := e.x.access, launch := e.g.launch, core := e.core, i := e.i, sb := l.sb, la := l.la.toNat,
                    serial := e.cur.serial, idx := e.cur.idx, cur := e.cur, mix := e.mix, lanes := lanes, left := left, fails := [],
                    data := data, vsrc := if home then t.1 else [], ssrc := if home then t.2.1 else []
                    pops := if home then t.2.2 else [], tick := s.tick (clusterOf e.core) }
    let s := s.updCtx e.x fun c => { c with sb := c.sb.putD l.sb.toNat (c.sbOf l.sb.toNat + 1) 0 }
    (id, s.setOps (s.ops.put id o))

/-- A long form whose effect is made at issue and that completes by itself. -/
def Env.launchOp (e : Env) (s : State) (lanes : Mask) : State :=
  if lanes = 0#64 then s else (e.issueOp s lanes 0#64 .none).2

/-- A long form that writes its destination in its active lanes. -/
def Env.longWrite (e : Env) (s : State) (vals : Nat → List Word) : Res :=
  .done (e.launchOp (e.writeDst (e.settle s e.act true) vals) e.act)

/-- CAPSULE at an instruction: the detail of the holder's link (16:R380). -/
def Env.capsuleTrap (e : Env) (reason lane : Nat) : TrapRec :=
  let link := match e.g.threads.get? lane with | none => Link.zero | some t => t.link
  e.trapVa 9 reason (bit lane) (BitVec.ofNat 17 link.stroke) link.va

/-! ### Release records and the scope checker (10:R220, R233 to R235) -/

/-- Whether a scope of a lane covers another lane of its launch, by core and identity bits [47:17] (10:R220). -/
def covers (sco coreA coreB : Nat) (gidA gidB : BitVec 31) : Bool :=
  match sco with
  | 0 => decide (gidA = gidB)
  | 1 => decide (coreA = coreB ∨ gidA >>> 4 = gidB >>> 4)
  | 2 => samePair coreA coreB || decide (gidA >>> 5 = gidB >>> 5)
  | _ => true

/-- What the check of an acquire answers. -/
inductive Acq where
  | pass
  | promote
  | fail
  deriving DecidableEq, Repr

/-- The check of an acquire read against a record (10:R234, R235). -/
def acquireCheck (r : RelRec) (launch core : Nat) (gid : BitVec 31) (sco : BitVec 3) : Acq :=
  let rc := r.rcore.toNat
  if !r.v ∨ (r.rlnch.toNat ≠ launch ∧ rc < 0xFE) then .pass
  else
    let a := scopeOf sco
    let reach := if rc = 0xFF then decide (4 ≤ a) else if rc = 0xFE then decide (3 ≤ a) else covers a core rc gid r.rgid
    let back := if rc = 0xFF then decide (4 ≤ r.rsco.toNat) else if rc = 0xFE then decide (3 ≤ r.rsco.toNat)
      else covers r.rsco.toNat rc core r.rgid gid
    if reach ∧ back then .pass
    else if (sco = 5#3 ∨ sco = 6#3) ∧ reach ∧ r.rsco.toNat < 3 ∧ rc < 192 then .promote
    else .fail

/-- X of SCOPE reason 1 (16:R380). -/
def scopeX (r : RelRec) (sco : BitVec 3) : BitVec 17 := r.rcore ++ (r.rsco ++ (sco ++ 0#3))

/-! ### Completion -/

/-- The trap of a long form in lanes that failed after its issue. -/
def Op.trap (o : Op) (cause reason : Nat) (lanes : Mask) (x : BitVec 17) (d1 d2 : Word) : TrapRec :=
  { cause := cause, reason := reason, tok := false, x := x, d1 := d1, d2 := d2, tra := o.cur.ip, lanes := lanes, ret := o.cur.ip
    cur := some o.cur, skip := none, skipCur := none, resume := none, ports := [], act := o.lanes }

/-- A trap of a long form whose detail is a virtual address. -/
def Op.trapVa (o : Op) (cause reason : Nat) (lanes : Mask) (x : BitVec 17) (va : DWord) : TrapRec :=
  o.trap cause reason lanes x (va.setWidth 32) (Env.vaD2 va)

/-- Whether every access that its context issued before a fence is performed at its scope, and what its agent has seen with them (09:R218). -/
def State.allPerformed (s : State) (id : Nat) (o : Op) (sco : BitVec 3) : Bool :=
  let x : Site := ⟨o.gang, o.access⟩
  !((s.opsOf x).any fun e => decide (e.1 < id) && Env.isAccess e.2.i) && !Env.unperformed s x (scopeOf sco) id &&
    !s.pairBehind o.core (scopeOf sco) id

/-- Whether a fence's release part is complete. It is a release, so it waits for the release parts of earlier fences (09:R218, 10:R245). -/
def State.fenceReleased (s : State) (id : Nat) (o : Op) (sco : BitVec 3) : Bool :=
  s.allPerformed id o sco && (s.opsOf ⟨o.gang, o.access⟩).all fun e => match e.2.data with
    | .fence true _ a => decide (id ≤ e.1) || s.allPerformed e.1 e.2 a
    | _ => true

/-- Whether every earlier load and atomic of a fence's context has completed (09:R218). -/
def State.readsDone (s : State) (id : Nat) (o : Op) : Bool :=
  !((s.opsOf ⟨o.gang, o.access⟩).any fun e => decide (e.1 < id) && Env.readsMemory e.2.i) &&
  !((s.reqsOf ⟨o.gang, o.access⟩).any fun e => decide (e.1 < id))

/-- Whether a long form has nothing left to do. -/
def State.opDone (s : State) (id : Nat) (o : Op) : Bool :=
  decide (o.left = 0#64) &&
  (match o.data with
   | .copy ps _ => ps.isEmpty
   | .matrix .. => false
   | .fence rel acq sco => !acq && (!rel || s.fenceReleased id o sco)
   | _ => true)

/-- Whether a long form can complete now: its gang is resident or gone. -/
def State.opReady (s : State) (id : Nat) : Bool :=
  match s.op? id with
  | none => false
  | some o => s.opDone id o && (match s.gang? o.gang with | none => true | some g => g.core.isSome || s.launchEnded g.launch)

/-- The code of the latency that a long form gives at completion (17:R404), and the least that it can be: an access with no other traffic takes
no less (17:R409). A multiply-accumulate gives its occupancy as the engine finishes it, a query its latency as its hold ends. -/
def opSample (i : Instr) : Option (Nat × Nat) :=
  match i with
  | .ld .. | .ldToQueue .. => some (0x40, 24)
  | .lds .. => some (0x41, 18)
  | _ => none

/-- Gives back to failing lanes what the instruction took at issue: entries that it popped, and registers that its hints killed. What
later instructions wrote in its source registers stays; the replay reads those as at its issue (DEDUCED, log 73). -/
def State.giveBack (s : State) (o : Op) (m : Mask) : State × Resume :=
  let x : Site := ⟨o.gang, o.access⟩
  let hinted (k : Nat) (v : Bool) : Bool := o.i.uses.any fun u => u.last && (match u.o with
    | .v n => v && decide (n.toNat ≤ k ∧ k < n.toNat + u.n)
    | .s n => !v && decide (n.val ≤ k ∧ k < n.val + u.n)
    | _ => false)
  match s.ctx? x with
  | none => (s, ⟨none, 0#64, m, [], []⟩)
  | some c =>
    let vs := o.vsrc.keep fun k _ => m.getLsbD (k % 64)
    let backV (k : Nat) : Bool := (c.v.get? k).isNone && hinted (k / 64) true
    let backS (k : Nat) : Bool := (c.s.get? k).isNone && hinted k false
    let s := s.updCtx x fun c =>
      { c with v := (vs.keep fun k _ => backV k).foldl (fun t e => t.put e.1 e.2) c.v
               s := (o.ssrc.keep fun k _ => backS k).foldl (fun t e => t.put e.1 e.2) c.s }
    let s := s.updGang o.gang fun g => (o.pops.reverse.filter fun p => m.getLsbD p.2.1).foldl (fun g p =>
      { g with queues := g.queues.upd p.1 fun q => { q with ents := q.ents.put p.2.1 (p.2.2 :: q.ents.getD p.2.1 []) } }) g
    (s, ⟨none, 0#64, m, vs.keep fun k r => !backV k && decide (c.v.get? k ≠ some r), o.ssrc.keep fun k r => !backS k && decide (c.s.get? k ≠ some r)⟩)

/-- Whether an instruction stands before another in program order, by their clauses. -/
def Cursor.before (a b : Cursor) : Bool := decide (a.serial < b.serial ∨ (a.serial = b.serial ∧ a.idx < b.idx))

/-- A trap among those of instructions that let later ones issue, in program order. -/
def TrapRec.insertLate (t : TrapRec) : List TrapRec → List TrapRec
  | [] => [t]
  | u :: us => match t.cur, u.cur with
    | some a, some b => if a.before b then t :: u :: us else u :: t.insertLate us
    | _, _ => u :: t.insertLate us

/-- The trap of lanes that failed after later instructions had issued: `tret` finishes the instruction and continues where
the context stood (02:R55). In a handler it is a double trap. -/
def State.lateTrap (s : State) (o : Op) : State :=
  let x : Site := ⟨o.gang, o.access⟩
  match s.ctx? x with
  | none => s
  | some c =>
    let fails := o.fails.keep fun n _ => c.lanes.has n
    match joinFails fails with
    | none => s.tryEnter x
    | some t =>
      let m := failMask fails
      let (s, r) := s.giveBack o m
      let t := { t with cur := some { o.cur with done := o.cur.done ||| (o.lanes &&& ~~~m) }, resume := some r }
      if c.tcg ≠ 0#32 then s.raise x t
      else (s.updCtx x fun c => { c with late := t.insertLate c.late }).tryEnter x

/-- The checks of the reads that an acquire fence makes acquires, once those reads have completed: the first failing read of each lane,
and those that need a promotion (09:R218, 10:R234). -/
def State.fenceChecks (s : State) (o : Op) (sco : BitVec 3) : Assoc TrapRec × List Read :=
  let mine := s.cores.reads.filter fun r => decide (r.gang = o.gang ∧ r.access = o.access) && o.lanes.getLsbD r.lane
  let check (r : Read) : Acq := acquireCheck r.rel o.launch o.core ((s.idn o.gang r.lane o.access).extractLsb' 17 31) sco
  (mine.foldl (fun t r => if check r = .fail ∧ !t.has r.lane then t.put r.lane (o.trapVa 6 1 (bit r.lane) (scopeX r.rel sco) r.va) else t) [],
   mine.filter fun r => decide (check r = .promote))

/-- The acquire part of a fence: its checks, and the promotions that they ask for (09:R218, 10:R235). -/
def State.fenceAcquire (s : State) (id : Nat) (o : Op) (rel : Bool) (sco : BitVec 3) : State :=
  let (fails, prom) := s.fenceChecks o sco
  let prom := prom.filter fun r => !fails.has r.lane
  let s := s.updOp id fun o => { o with fails := fails, left := maskOf (prom.map (·.lane)), data := .fence rel false sco }
  prom.foldl (fun s r =>
    let (k, s) := s.freshId
    let q : Req := { op := id, gang := o.gang, access := o.access, lane := r.lane, va := r.va, mt := 0#2, key := 0#10, pa := r.pa
                     sh := false, b := [r.rel.rcore.setWidth 32], c := [], promoting := true, promoted := false }
    s.setHome { s.home with q := s.home.q.put k q }) s

/-- A long form completes: its counter falls, its sample is taken, its failing lanes raise their trap; its gang may retire
or enter a trap that waited (02:R52, 17:R406). -/
def State.finishOp (s : State) (id lat : Nat) (o : Op) : State :=
  let x : Site := ⟨o.gang, o.access⟩
  let s := s.setOps (s.ops.del id)
  let s := s.updCtx x fun c => { c with sb := c.sb.putD o.sb.toNat (c.sbOf o.sb.toNat - 1) 0 }
  let s := match opSample o.i with
    | none => s
    | some (code, least) => s.pmSample o.gang o.access code (max least lat)
  let s := o.samples.foldl (fun s w => s.pmSample o.gang o.access w.1 w.2) s
  let s := if o.fails.isEmpty then s.tryEnter x else s.lateTrap o
  (s.selectPath x).tryRetire o.gang

/-- The completion of a long form that has nothing left to do; a fence whose earlier reads have completed makes their checks first. -/
def State.completeOp (s : State) (id lat : Nat) : State :=
  match s.op? id with
  | none => s
  | some o =>
    if s.opReady id then s.finishOp id lat o
    else match o.data with
      | .fence rel true sco => if s.readsDone id o ∧ (s.coreOf o.gang).isSome then s.fenceAcquire id o rel sco else s
      | _ => s

/-- LONG_FORM_COMPLETE: `lat` is the latency in core cycles that a sample records (DEDUCED, log 30). -/
def execLongFormComplete (op lat : Nat) (s : State) : Host.Outcome State Fault Refusal := .next (s.completeOp op lat)

end Sys2Proof.Machine
end

