-- ==== Sys2Proof/Machine/Global.lean ====
section
/-! DEFINITION. Accesses to global memory from the issuing side: addresses, translation and checks of each lane, write-buffer
entries, requests to home slices, and the scope checker (09:R196, R197, 10:R220 to R235). -/

namespace Sys2Proof.Machine

/-! ### Addresses and checks of a lane -/

/-- The byte offset of a memory operand (09:R193). -/
def Env.memOfs (e : Env) (m : MemOp) : DWord := Env.immOf e.i.pfx 7 m.ofs

/-- The index of a memory operand, scaled; `k` is its use (09:R196). -/
def Env.memIdx (e : Env) (m : MemOp) (k lane : Nat) : DWord :=
  match m.idx with
  | none => 0#64
  | some (_, sc) => wrap64 ((e.word k lane).toInt * 2 ^ (sc.toNat - 1))

/-- The global address of a lane. -/
def Env.gaddr (e : Env) (m : MemOp) (k lane : Nat) : DWord := e.pair 0 lane + e.memIdx m k lane + e.memOfs m
/-- The scratchpad address of a lane. -/
def Env.saddr (e : Env) (m : MemOp) (k lane : Nat) : Nat :=
  (e.word 0 lane + (e.memIdx m k lane).setWidth 32 + (e.memOfs m).setWidth 32).toNat

/-- ALIGN for data of `n` bytes. -/
def Env.alignTrap (e : Env) (kind : AccKind) (n lane : Nat) (va : DWord) : TrapRec := e.trapVa 5 1 (bit lane) (kindX kind (Nat.log2 n)) va

/-- ALIGN, PROTECT or HWERR at a scratchpad address (16:R380). -/
def Env.spadTrap (e : Env) (cause reason lane : Nat) (x : BitVec 17) (a : Nat) : TrapRec :=
  e.trap cause reason (bit lane) x (BitVec.ofNat 32 a) 0#32

/-- The port of a peer address (18:R420). -/
def peerPort (pa : Nat) : Nat := pa / 2 ^ 48 % 16

/-- Whether the owner of peer memory refuses an access: its windows are its own, so the answer is free (18:R421; DESIGN CHOICE, log 37). -/
def State.peerRefuses (s : State) : Bool × State :=
  let (k, s) := s.draw
  ((Config.freeWord k).getLsbD 0, s)

/-- A failed check of an access: cause, reason, X, and the bytes of the page concerned. -/
structure VaFault where
  cause : Nat
  reason : Nat
  x : BitVec 17
  page : Nat
  deriving DecidableEq, Repr

/-- The checks of one access of `n` bytes: alignment, translation and permission, device HBM where `hbm` asks for it (09:R215, R216), the
peer's link and its answer. -/
def State.checkVa (s : State) (x : Site) (core owner : Nat) (kind : AccKind) (n : Nat) (va : DWord) (hbm : Bool := false) :
    Except VaFault Xlat × State :=
  if va.toNat % n ≠ 0 then (.error ⟨5, 1, kindX kind (Nat.log2 n), 4096⟩, s)
  else match s.xlat x core owner kind va with
    | (.error f, s) => (.error ⟨f.cause, f.reason, kindX kind f.level, f.page⟩, s)
    | (.ok t, s) =>
      if hbm ∧ t.mt ≠ 0#2 then (.error ⟨4, 7, kindX kind t.level, t.page⟩, s)
      else if t.mt ≠ 2#2 then (.ok t, s)
      else if s.dev.linkDown.has (peerPort t.pa) then (.error ⟨16, 1, BitVec.ofNat 17 (peerPort t.pa), 4096⟩, s)
      else match s.peerRefuses with
        | (true, s) => (.error ⟨16, 2, BitVec.ofNat 17 (peerPort t.pa), 4096⟩, s)
        | (false, s) => (.ok t, s)

/-- The checks of one lane's access. -/
def Env.checkLane (e : Env) (s : State) (kind : AccKind) (n lane : Nat) (va : DWord) (hbm : Bool := false) : Except TrapRec Xlat × State :=
  match s.checkVa e.x e.core e.l.owner kind n va hbm with
  | (.error f, s) => (.error { e.trapVa f.cause f.reason (bit lane) f.x va with page := f.page }, s)
  | (.ok t, s) => (.ok t, s)

/-- The checks of every active lane, in increasing lane number. -/
def Env.checkLanes (e : Env) (s : State) (kind : AccKind) (n : Nat) (va : Nat → DWord) (hbm : Bool := false) :
    List (Nat × Except TrapRec Xlat) × State :=
  e.lanes.foldl (fun (t : List (Nat × Except TrapRec Xlat) × State) lane =>
    let r := e.checkLane t.2 kind n lane (va lane) hbm
    (t.1 ++ [(lane, r.1)], r.2)) ([], s)

/-- Lanes that fail. -/
def failsOf (xs : List (Nat × Except TrapRec Xlat)) : Assoc TrapRec :=
  xs.filterMap fun p => match p.2 with | .error t => some (p.1, t) | .ok _ => none
/-- Lanes that pass. -/
def passesOf (xs : List (Nat × Except TrapRec Xlat)) : List (Nat × Xlat) :=
  xs.filterMap fun p => match p.2 with | .error _ => none | .ok x => some (p.1, x)

/-! ### Sizes -/

/-- Bytes of an `ld` or of a `st` by its member (09:R199, R200). -/
def ldSize (n : BitVec 3) : Nat := match n.toNat with | 0 | 1 => 1 | 2 | 3 => 2 | 4 => 4 | 5 => 8 | _ => 16
def stSize (n : BitVec 3) : Nat := 2 ^ n.toNat

/-- Bytes that a request touches. -/
def reqBytes (i : Instr) : Nat :=
  match i with
  | .ld _ _ n _ _ => ldSize n
  | .st _ _ n _ _ => stSize n
  | .atom _ _ n _ _ _ _ => if n = 1#2 then 8 else 4
  | .ared _ _ f op _ _ => if !f && op.getLsbD 5 then 8 else 4
  | .acas _ _ w _ _ _ _ | .waitv _ _ w _ _ _ => if w then 8 else 4
  | _ => 4

/-! ### Lines that engines own, buffered writes (10:R221, R242) -/

/-- Whether a copy in flight owns a global line: one of its destination lines has yet to land. -/
def State.lineOwned (s : State) (line : Nat) : Bool :=
  s.ops.vals.any fun o => match o.data with
    | .copy ps _ => ps.any fun p => !p.spad && decide (lineOf (BitVec.ofNat 2 (p.dst / 2 ^ 52)) (p.dst % 2 ^ 52) = line)
    | _ => false

/-- Whether the buffers of a core's pair hold every byte of a range. -/
def MemSys.pairHoldsAll (m : MemSys) (core : Nat) (mt : BitVec 2) (pa n : Nat) : Bool :=
  (List.range n).all fun i => m.wbuf.vals.any fun e => samePair e.core core && e.holds mt (pa + i)

/-- Whether the buffers of a core's pair hold a byte of a range. -/
def MemSys.pairHolds (m : MemSys) (core : Nat) (mt : BitVec 2) (pa n : Nat) : Bool :=
  m.wbuf.vals.any fun e => samePair e.core core && decide (e.mt = mt ∧ e.pa < pa + n ∧ pa < e.pa + e.bytes.length)

/-! ### Records of a lane's reads and writes (10:R233, R234) -/

/-- The wider of two scopes that a write is given (DESIGN CHOICE, log 77). -/
def widerScope (a b : Option (BitVec 3)) : Option (BitVec 3) :=
  match a, b with
  | some a, some b => some (if scopeOf a < scopeOf b then b else a)
  | some a, none => some a
  | none, b => b

/-- Whether a write or notify of a lane, issued between two keys, is still to act at its home slice. -/
def State.writesBetween (s : State) (x : Site) (lane lo hi : Nat) : Bool :=
  (s.reqsOf x).any fun e => decide (lo < e.1 ∧ e.1 < hi ∧ e.2.lane = lane) && (match s.reqOp e.2 with
    | none => false
    | some o => homeWrites o.i || (match o.i with | .notify1 .. | .notifyall .. => true | _ => false))

/-- Whether a write issued under the key `k` is the first global write of its lane after a release fence (10:R233). -/
def State.firstAfter (s : State) (x : Site) (lane k : Nat) (m : Nat × BitVec 3) : Bool := decide (m.1 < k) && !s.writesBetween x lane m.1 k

/-- The scope at which a lane's global write, issued under the key `k`, is a release: its own order, or a release fence of which it is the
first write (10:R233). -/
def State.relScope (s : State) (x : Site) (lane k : Nat) (own : Option (BitVec 3)) : Option (BitVec 3) :=
  match s.ctx? x with
  | none => own
  | some c => ((c.fenced.getD lane []).filter (s.firstAfter x lane k)).foldl (fun a m => widerScope a (some m.2)) own

/-- A global write of a lane, issued under the key `k`, has been made. -/
def State.wrote (s : State) (x : Site) (lane k : Nat) : State :=
  s.updCtx x fun c =>
    let left := (c.fenced.getD lane []).filter fun m => !s.firstAfter x lane k m
    { c with fenced := if left.isEmpty then c.fenced.del lane else c.fenced.put lane left }

/-- A read that later acquire fences check: only one whose record takes part matters, and of a lane's reads that met one record of one line the
first (09:R218, 10:R234, R235). -/
def State.noteRead (s : State) (x : Site) (launch lane : Nat) (va : DWord) (pa : Nat) (r : RelRec) : State :=
  if r.v ∧ (r.rlnch.toNat = launch ∨ 0xFE ≤ r.rcore.toNat) ∧
      !(s.cores.reads.any fun q => decide (q.gang = x.gang ∧ q.access = x.access ∧ q.lane = lane ∧ q.pa / 128 = pa / 128 ∧ q.rel = r)) then
    s.setCores { s.cores with reads := s.cores.reads ++ [⟨x.gang, x.access, lane, va, pa, r⟩] }
  else s

/-- Whether a request of a lane, issued under a key below `before`, touches bytes (10:R222). -/
def State.pendingOver (s : State) (x : Site) (lane before : Nat) (mt : BitVec 2) (pa n : Nat) : Bool :=
  s.home.q.any fun e => decide (e.1 < before ∧ e.2.gang = x.gang ∧ e.2.access = x.access ∧ e.2.lane = lane ∧ e.2.mt = mt) &&
    (match s.reqOp e.2 with | none => false | some o => decide (e.2.pa < pa + n ∧ pa < e.2.pa + reqBytes o.i))

/-- Whether two accesses, of which one is not translated yet, may touch a common byte: none crosses a page (10:R222) (DEDUCED, log 78). -/
def mayOverlap (a : DWord) (m : Nat) (b : DWord) (n : Nat) : Bool :=
  decide (a.toNat % 4096 < b.toNat % 4096 + n ∧ b.toNat % 4096 < a.toNat % 4096 + m)

/-- Whether a pending load into a queue, issued under a key below `before`, is an access of a lane of a context and may touch bytes: one that
`tret` re-issued is a read of the popping context (10:R222, 12:R284). -/
def Gang.queueLoadOver (g : Gang) (access : Bool) (lane before : Nat) (va : DWord) (n : Nat) : Bool :=
  g.queues.vals.any fun q => (q.ents.getD lane []).any fun t => (match t with
    | .pend r a m _ _ pop _ => decide (r < before ∧ (if pop then q.ca else !q.ca) = access) && mayOverlap a m va n
    | _ => false)

/-- Whether a lower lane of the same load into a queue has yet to read bytes that a lane's may touch (09:R201). -/
def State.lowerLaneFirst (s : State) (req lane : Nat) (va : DWord) (n : Nat) : Bool :=
  s.ops.vals.any fun o => (match o.i with | .ldToQueue .. => true | _ => false) &&
    (o.pops.any fun p => match p.2.2 with | .pend r .. => decide (r = req) | _ => false) &&
    o.pops.any fun p => decide (p.2.1 < lane) && o.left.getLsbD p.2.1 &&
      (match p.2.2 with | .pend _ a m .. => mayOverlap a m va n | _ => false)

/-- A line loaded by a compute context is recorded by the spin detector; a ninth line resets it (01:R31). -/
def State.noteLine (s : State) (x : Site) (line : Nat) : State :=
  if x.access then s
  else s.updGang x.gang fun g => { g with spin := match g.spin with
    | none => none
    | some p => if p.lines.contains line then some p else if 8 ≤ p.lines.length then none else some { p with lines := p.lines ++ [line] } }

/-! ### Issue of an access -/

/-- An access whose lanes fail, are done now, or have requests at home slices; `more` completes otherwise. `eff` makes the
effects of the lanes done now, given the long form's key. -/
def Env.access (e : Env) (s : State) (fails : Assoc TrapRec) (now more : Mask) (reqs : List (Nat × Xlat)) (va : Nat → DWord)
    (b c : Nat → List Word) (eff : Nat → State → State) : Res :=
  let rm := maskOf (reqs.map (·.1))
  if rm = 0#64 then
    if now = 0#64 then e.part s fails
    else
      let s := e.settle s now fails.isEmpty
      let (id, s) := e.issueOp s now more (if more = 0#64 then .none else .store)
      e.part (eff id s) fails
  else
    let s := e.settle s e.act true
    let (id, s) := e.issueOp s e.act (rm ||| more) .home
    let s := s.updOp id fun o => { o with fails := fails }
    let s := reqs.foldl (fun s p =>
      let (k, s) := s.freshId
      let r : Req := { op := id, gang := e.x.gang, access := e.x.access, lane := p.1, va := va p.1, mt := p.2.mt, key := p.2.key,
                       pa := p.2.pa, sh := p.2.sh, b := b p.1, c := c p.1, promoting := false, promoted := false, io := s.dev.ioTick }
      s.setHome { s.home with q := s.home.q.put k r }) s
    .done (eff id s)

/-- No words. -/
def noWords (_ : Nat) : List Word := []

end Sys2Proof.Machine
end

