-- ==== Sys2Proof/Machine/MemOps.lean ====
section
/-! DEFINITION. Loads, stores, scratchpad accesses, prefetch, clean and fences (09:R199 to R203, R208, R209, R218, 15:R357). -/

namespace Sys2Proof.Machine

/-! ### Values of loads and stores -/

/-- The words that bytes give to a destination: narrow values zero- or sign-extended. -/
def extendBytes (signed : Bool) (bs : List Byte) : List Word :=
  if bs.length < 4 then
    [if signed then wrap32 (sextInt (leNat bs) (8 * bs.length)) else BitVec.ofNat 32 (leNat bs)]
  else bytesWords (bs.length / 4) bs

/-- Whether a member of `ld` is signed. -/
def ldSigned (n : BitVec 3) : Bool := decide (n = 1#3 ∨ n = 3#3)

/-- The bytes that a store of `n` bytes takes from its B operand, use `k`. -/
def Env.storeBytes (e : Env) (k n lane : Nat) : List Byte := (wordBytes (e.words k ((n + 3) / 4) lane)).take n

/-! ### Request records (12:R276, R277) -/

/-- Whether an entry is the pending one of a request. -/
def QEnt.isReq (req : Nat) : QEnt → Bool
  | .pend r .. => decide (r = req)
  | _ => false

/-- The queue, the lane and the entry of a request that a gang's queues still hold. -/
def Gang.findPend (g : Gang) (req : Nat) : Option (Nat × Nat × QEnt) :=
  ((g.queues.map fun q => (q.2.ents.map fun l => (l.2.filter (QEnt.isReq req)).map fun t => (q.1, l.1, t)).flatten).flatten).head?

/-- Requests of loads into queues whose entries were discarded before their data arrived: they keep their records until then (12:R287, R294). -/
def State.discarded (s : State) : List (Nat × Nat) :=
  (s.ops.vals.map fun o => match o.i with
    | .ldToQueue .. => o.pops.filterMap fun p => (match p.2.2 with
      | .pend r .. => if o.left.getLsbD p.2.1 ∧ ((s.gang? o.gang).bind fun g => g.findPend r).isNone then some (r, o.core) else none
      | _ => none)
    | _ => []).flatten

/-- Request records of a core in use: by pending entries and tokens of queues, by discarded loads into queues, and by the lanes of every other
load that has not completed (00:R2, 12:R276, R277). -/
def State.queueRecords (s : State) (core : Nat) : Nat :=
  ((s.gangs.vals.filter fun g => decide (g.core = some core)).map fun g => (g.queues.vals.map fun q =>
    (q.ents.vals.map fun es => (es.filter fun t => match t with | .val _ => false | _ => true).length).sum).sum).sum +
  (s.discarded.filter fun p => decide (p.2 = core)).length +
  (s.ops.vals.map fun o => match o.i with
    | .ld .. => if o.core = core then (lanesOf o.lanes).length else 0
    | _ => 0).sum

/-! ### Accesses of a stroke (15:R357) -/

/-- The offset into the capsule page of a stroke's access; `k` is the use of its index. -/
def Env.strokeOfs (e : Env) (m : MemOp) (k lane : Nat) : Nat :=
  (e.word 0 lane + (e.memIdx m k lane).setWidth 32 + (e.memOfs m).setWidth 32).toNat

/-- The checks of a stroke's access: the physical address and the virtual address of the same byte. -/
def Env.strokeAddr (e : Env) (s : State) (kind : AccKind) (m : MemOp) (n lane o : Nat) : Except TrapRec (Nat × DWord) :=
  let link := match e.g.threads.get? lane with | none => Link.zero | some t => t.link
  let pa := link.anc / 4096 * 4096 + o
  let va := (link.va &&& ~~~0xFFF#64) + BitVec.ofNat 64 o
  if 4096 ≤ o ∨ o / 128 = link.anc % 4096 / 128 ∨ m.ord ≠ 0#2 then
    .error { e.capsuleTrap 6 lane with d1 := BitVec.ofNat 32 o, d2 := 0#32 }
  else if o % n ≠ 0 then .error (e.alignTrap kind n lane va)
  else if !kind.writes ∧ s.mem.poisoned 0#2 pa then .error (e.trapVa 13 3 (bit lane) 0#17 va)
  else .ok (pa, va)

/-- The latest store of a stroke that holds a byte. -/
def Stroke.own (k : Stroke) (pa : Nat) : Option (Nat × List Byte × DWord) :=
  (k.stores.filter fun t => decide (t.1 ≤ pa ∧ pa < t.1 + t.2.1.length)).getLast?

/-- A byte as a stroke reads it: its own latest store, else the home slice through the KEY of the capsule page. -/
def Stroke.byte (k : Stroke) (m : MemSys) (key : BitVec 10) (pa : Nat) : Byte :=
  match k.own pa with
  | some t => t.2.1.getD (pa - t.1) 0#8
  | none => m.readByte 0#2 key pa

/-- A load of a stroke, in its holder; it meets the record of its line, for a later acquire fence (10:R234, 15:R366). -/
def Env.strokeLoad (e : Env) (s : State) (m : MemOp) (n : Nat) (signed : Bool) : Res :=
  match e.nib, e.c.stroke with
  | some lane, some k =>
    match e.strokeAddr s .read m n lane (e.strokeOfs m 1 lane) with
    | .error t => .raise s t
    | .ok (pa, va) =>
      if s.lineOwned (lineOf 0#2 pa) ∨ 2048 ≤ s.queueRecords e.core then .hold s
      else
        let key := match e.g.threads.get? lane with | none => 0#10 | some t => t.link.key
        let bs := (List.range n).map fun i => k.byte s.mem key (pa + i)
        let s := if (List.range n).all fun i => (k.own (pa + i)).isSome then s
          else s.noteRead e.x e.g.launch lane va pa (s.mem.relOf (lineOf 0#2 pa))
        e.longWrite s fun _ => extendBytes signed bs
  | _, _ => .done s

/-- A store of a stroke, kept until the commit. -/
def Env.strokeStore (e : Env) (s : State) (m : MemOp) (n : Nat) : Res :=
  match e.nib with
  | some lane =>
    match e.strokeAddr s .write m n lane (e.strokeOfs m 2 lane) with
    | .error t => .raise s t
    | .ok (pa, va) =>
      let bs := e.storeBytes 1 n lane
      let s := (e.settle s e.act true).updCtx e.x fun c =>
        { c with stroke := c.stroke.map fun k => { k with stores := k.stores ++ [(pa, bs, va)] } }
      .done (e.launchOp s e.act)
  | none => .done s

/-! ### Loads (09:R199) -/

/-- What a lane of a relaxed load reads now, with the records and lines that it meets. -/
def State.readLane (s : State) (x : Site) (core launch lane n : Nat) (va : DWord) (t : Xlat) : List Byte × State :=
  let bs := s.mem.pairBytes core t.mt t.key t.pa n
  let line := lineOf t.mt t.pa
  let all := s.mem.pairHoldsAll core t.mt t.pa n
  let s := s.setMem ((s.mem.l1Fill core line false).homeFill t.mt t.key t.sh t.pa false)
  let s := s.noteLine x line
  (bs, if t.mt = 0#2 ∧ !all then s.noteRead x launch lane va t.pa (s.mem.relOf line) else s)

/-- Whether a load of a lane meets a poisoned line (08:R180). -/
def State.readPoison (s : State) (core n : Nat) (t : Xlat) : Bool :=
  s.mem.poisoned t.mt t.pa && !s.mem.pairHoldsAll core t.mt t.pa n

/-- Lanes whose line is poisoned fail. -/
def Env.poisonFails (e : Env) (s : State) (n : Nat) (va : Nat → DWord) (xs : List (Nat × Except TrapRec Xlat)) :
    List (Nat × Except TrapRec Xlat) :=
  xs.map fun p => match p.2 with
    | .ok t => if t.mt = 0#2 ∧ s.readPoison e.core n t then (p.1, .error (e.trapVa 13 3 (bit p.1) 0#17 (va p.1))) else p
    | .error _ => p

/-- A load outside a stroke: relaxed lanes read device memory at issue, once earlier accesses of theirs to the same bytes are performed;
acquires, and remote loads from host and peer memory, are performed later (09:R199, 10:R222). -/
def Env.load (e : Env) (s : State) (m : MemOp) (n : Nat) (signed : Bool) : Res :=
  if e.act = 0#64 then .done s
  else
    let va := e.gaddr m 1
    let (xs, s) := e.checkLanes s .read n va
    let acq := decide (m.ord ≠ 0#2)
    let home (t : Xlat) : Bool := acq || decide (t.mt ≠ 0#2)
    let xs := if acq then xs else e.poisonFails s n va xs
    let ok := passesOf xs
    let now := ok.filter fun p => !home p.2
    if now.any fun p => s.lineOwned (lineOf p.2.mt p.2.pa) || s.pendingOver e.x p.1 s.nextId p.2.mt p.2.pa n ||
        e.g.queueLoadOver e.x.access p.1 s.nextId (va p.1) n then .hold s
    else if 2048 < s.queueRecords e.core + ok.length then .hold s
    else
      let nowMask := maskOf (now.map (·.1))
      e.access s (failsOf xs) nowMask 0#64 (ok.filter fun p => home p.2) va noWords noWords fun _ s =>
        let (vals, s) := now.foldl (fun (r : Assoc (List Word) × State) p =>
          let (bs, s) := r.2.readLane e.x e.core e.g.launch p.1 n (va p.1) p.2
          (r.1.put p.1 (extendBytes signed bs), s)) ([], s)
        match e.uses.getLast? with
        | none => s
        | some u => s.writeReg e.x u.o u.n (now.map (·.1)) e.nib fun k => vals.getD k []

def execLd (p : Pfx) (l : Lf) (n : BitVec 3) (d : Opnd) (m : MemOp) (s : State) :=
  run (.ld p l n d m) s fun e s =>
    if e.stroke then e.strokeLoad s m (ldSize n) (ldSigned n) else e.load s m (ldSize n) (ldSigned n)

/-! ### Loads into queues (09:R202, 12:R277, R282) -/

def execLdToQueue (p : Pfx) (l : Lf) (n : BitVec 3) (q : BitVec 3) (m : MemOp) (s : State) :=
  run (.ldToQueue p l n q m) s fun e s =>
    let room := e.lanes.all fun k => match e.pushState q k with | .ready => true | _ => false
    if e.act = 0#64 then .done s
    else if !room then .hold (s.blockPath e.x e.c.path .queueWait)
    else if 2048 < s.queueRecords e.core + e.lanes.length then .hold s
    else
      let size := ldSize n
      let s := e.settle s e.act true
      let (s, made) := e.lanes.foldl (fun (r : State × List (Nat × Nat × QEnt)) k =>
        let (id, s) := r.1.freshId
        let t := QEnt.pend id (e.gaddr m 1 k) size (ldSigned n) e.cur.ip false s.dev.ioTick
        (s.updGang e.x.gang fun g => { g with queues := g.queues.upd q.toNat fun r => { r with ents := r.ents.put k (r.ents.getD k [] ++ [t]) } },
         r.2 ++ [(q.toNat, k, t)])) (s, [])
      let (id, s) := e.issueOp s e.act e.act .store
      .done (s.updOp id fun o => { o with pops := made })

/-- The request's lane of its long form is done. -/
def State.queueLoadDone (s : State) (req : Nat) : State :=
  s.setOps (s.ops.mapVal fun _ o => match o.i with
    | .ldToQueue .. => (match o.pops.find? fun p => p.2.2.isReq req with
      | some p => { o with left := o.left &&& ~~~bit p.2.1 }
      | none => o)
    | _ => o)

/-- The read of a pending entry, in the context that issued it or, re-issued, in the one that pops (12:R282, R284, R289): a value
or a token; none while the line is held (DEDUCED, log 35). -/
def State.fillEntry (s : State) (gang : Nat) (g : Gang) (core req q lane : Nat) (va : DWord) (size : Nat) (sgn : Bool) (src : DWord) (pop : Bool) :
    Option (QEnt × State) :=
  let ca := match g.queues.get? q with | none => false | some r => r.ca
  let x : Site := ⟨gang, if pop then ca else !ca⟩
  let owner := match s.launch? g.launch with | none => 0 | some l => l.owner
  let token (c r : Nat) (xw : BitVec 17) (page : Nat) : QEnt :=
    .tok { addr := va, src := src, size := size, sgn := sgn, cause := c, reason := r, x := xw, d1 := va.setWidth 32, d2 := Env.vaD2 va, page := page }
  if g.queueLoadOver x.access lane req va size || s.lowerLaneFirst req lane va size then none
  else match s.checkVa x core owner .read size va with
  | (.error f, s) => some (token f.cause f.reason f.x f.page, s)
  | (.ok t, s) =>
    if s.lineOwned (lineOf t.mt t.pa) || s.pendingOver x lane req t.mt t.pa size then none
    else if s.readPoison core size t then some (token 13 3 0#17 4096, s)
    else
      let (bs, s) := s.readLane x core g.launch lane size va t
      some (.val ((extendBytes sgn bs).headD 0#32), s)

/-- The data of a load into a queue arrives: its entry becomes a value, or a token where a check fails. -/
def State.queueLoadFill (s : State) (req : Nat) : State :=
  match s.gangs.find? fun e => (e.2.findPend req).isSome with
  | none => s.queueLoadDone req
  | some (k, g) => match g.findPend req, g.core with
    | some (q, lane, .pend _ va size sgn src pop _), some core =>
      (match s.fillEntry k g core req q lane va size sgn src pop with
       | none => s
       | some (t, s) =>
         let s := s.updGang k fun g => { g with queues := g.queues.upd q fun r =>
           { r with ents := r.ents.upd lane (List.map fun u => if u.isReq req then t else u) } }
         s.queueLoadDone req)
    | _, _ => s

/-- QUEUE_LOAD_FILL. -/
def execQueueLoadFill (req : Nat) (s : State) : Host.Outcome State Fault Refusal := .next (s.queueLoadFill req)

/-! ### Stores (09:R200, 10:R221) -/

/-- A store enters the write buffer of its core. -/
def Env.bufferStore (e : Env) (s : State) (id lane n : Nat) (va : DWord) (t : Xlat) (rel : Option (BitVec 3)) (wait : Bool) : State :=
  let w := s.writer e.x.gang lane e.x.access
  let ent : WbEnt := { core := e.core, gang := e.x.gang, access := e.x.access, lane := lane, launch := e.g.launch, mt := t.mt, key := t.key,
                       pa := t.pa, va := va, bytes := e.storeBytes 1 n lane
                       rel := s.relScope e.x lane id rel, cum := s.fencedTo e.x lane, rgid := w.rgid, ordered := w.ordered
                       op := if wait then some id else none, io := s.dev.ioTick }
  let (k, s) := s.freshId
  (s.setMem { (s.mem.l1Fill e.core (lineOf t.mt t.pa) true) with wbuf := s.mem.wbuf.put k ent }).wrote e.x lane id

/-- Lanes that release to peer memory below sys fail (10:R240): by the order of the instruction itself; a relaxed write after a release fence is
no such release (DESIGN CHOICE, log 112). -/
def Env.peerRelease (e : Env) (rel : Option (BitVec 3)) (va : Nat → DWord) (xs : List (Nat × Except TrapRec Xlat)) :
    List (Nat × Except TrapRec Xlat) :=
  xs.map fun p => match p.2 with
    | .ok t => if t.mt = 2#2 ∧ rel.any (fun a => decide (scopeOf a < 4)) then (p.1, .error (e.trapVa 6 3 (bit p.1) 0#17 (va p.1))) else p
    | .error _ => p

/-- A store outside a stroke: its lanes enter the write buffer, but for pages with SH 1. -/
def Env.store (e : Env) (s : State) (m : MemOp) (n : Nat) : Res :=
  if e.act = 0#64 then .done s
  else
    let va := e.gaddr m 2
    let (xs, s) := e.checkLanes s .write n va
    let rel := if m.ord = 0#2 then none else some m.sco
    let xs := e.peerRelease rel va xs
    let ok := passesOf xs
    let buf := ok.filter fun p => !p.2.sh
    if buf.any fun p => s.pendingOver e.x p.1 s.nextId p.2.mt p.2.pa n then .hold s else
    let near := rel.isSome && decide (m.sco.toNat ≤ 2)
    let mask := maskOf (buf.map (·.1))
    e.access s (failsOf xs) mask (if near then 0#64 else mask) (ok.filter fun p => p.2.sh) va
      (fun k => e.words 1 ((n + 3) / 4) k) noWords fun id s =>
        buf.foldl (fun s p => e.bufferStore s id p.1 n (va p.1) p.2 rel (!near)) s

def execSt (p : Pfx) (l : Lf) (n : BitVec 3) (m : MemOp) (b : Hs) (s : State) :=
  run (.st p l n m b) s fun e s => if e.stroke then e.strokeStore s m (stSize n) else e.store s m (stSize n)

/-! ### Scratchpad loads and stores (09:R203, 08:R184 to R190) -/

/-- Cycles beyond one that bank conflicts cost a pass over scratchpad words, each a group and a word number: groups lie in scratchpads of their
own cores, with banks of their own (08:R185). -/
def passCycles (ws : List (Nat × Nat)) : Nat :=
  let ws := ws.eraseDups
  let banks := (ws.map fun w => (w.1, w.2 % 32)).eraseDups
  (banks.foldl (fun k b => max k (ws.filter fun w => decide (w.1 = b.1 ∧ w.2 % 32 = b.2)).length) 0) - 1

/-- Cycles beyond one per pass that bank conflicts cost lanes at scratchpad addresses, `n` bytes each (08:R185). -/
def bankCycles (width n : Nat) (as : List (Nat × SpadRef)) : Nat :=
  ((List.range (width / 16)).map fun p =>
    passCycles ((as.filter fun a => decide (a.1 / 16 = p)).map fun a =>
      (List.range ((a.2.ofs + n - 1) / 8 - a.2.ofs / 8 + 1)).map fun i => (a.2.group, a.2.ofs / 8 + i)).flatten).sum

/-- A context parks until absent lines are present (08:R187). -/
def Env.parkOn (e : Env) (s : State) (ls : List (Nat × Nat)) : State :=
  (s.blockPath e.x e.c.path .parked).updCtx e.x fun c =>
    { c with parkedAt := some (c.parkedAt.getD (s.tick (clusterOf e.core))), parkedOn := ls.eraseDups }

/-- The checks of a scratchpad access of a lane. -/
def Env.spadLane (e : Env) (s : State) (kind : AccKind) (n lane a : Nat) : Except TrapRec SpadRef :=
  if a % n ≠ 0 then .error (e.spadTrap 5 1 lane (kindX kind (Nat.log2 n)) a)
  else match s.spadRef e.g.group a with
    | none => .error (e.spadTrap 4 4 lane (kindX kind 0) a)
    | some r => if r.ro && kind.writes then .error (e.spadTrap 4 5 lane (kindX kind 0) a) else .ok r

/-- Absent lines that a range of a group's scratchpad touches. -/
def State.absentLines (s : State) (r : SpadRef) (n : Nat) : List (Nat × Nat) :=
  match s.group? r.group with
  | none => []
  | some g => (g.absent.keys.filter fun l => decide (128 * l < r.ofs + n ∧ r.ofs < 128 * l + 128)).map fun l => (r.group, l)

/-- Whether the matrix engine holds a line that a range touches (10:R243). -/
def State.spadHeld (s : State) (r : SpadRef) (n : Nat) : Bool :=
  s.cores.heldLines.keys.any fun k => decide (k / 2 ^ 32 = r.group ∧ 128 * (k % 2 ^ 32) < r.ofs + n ∧ r.ofs < 128 * (k % 2 ^ 32) + 128)

/-- Whether a range of a group's scratchpad holds a poisoned word. -/
def State.spadPoisoned (s : State) (r : SpadRef) (n : Nat) : Bool :=
  match s.group? r.group with
  | none => false
  | some g => wordsPoisoned g.spadPoison r.ofs n

/-- Bytes of a group's scratchpad. -/
def State.spadBytes (s : State) (r : SpadRef) (n : Nat) : List Byte :=
  match s.group? r.group with
  | none => []
  | some g => g.spadBytes r.ofs n

/-- A scratchpad access: the checks of its lanes, its waits, then `eff` for the lanes that pass (09:R197). A lane that reads a poisoned word
raises HWERR before the instruction has any effect: no lane completes (08:R190, 03:R78). -/
def Env.spad (e : Env) (s : State) (m : MemOp) (kind : AccKind) (n k : Nat) (eff : List (Nat × SpadRef) → State → State) : Res :=
  if e.act = 0#64 then .done s
  else
    let xs := e.lanes.map fun lane => (lane, e.spadLane s kind n lane (e.saddr m k lane))
    let ok := xs.filterMap fun p => match p.2 with | .ok r => some (p.1, r) | .error _ => none
    let absent := (ok.map fun p => s.absentLines p.2 n).flatten
    if absent ≠ [] then .hold (e.parkOn s absent)
    else if ok.any fun p => s.spadHeld p.2 n then .hold s
    else
      let bad : Assoc TrapRec := if kind.writes then [] else
        (ok.filter fun p => s.spadPoisoned p.2 n).map fun p => (p.1, e.spadTrap 13 4 p.1 0#17 (e.saddr m k p.1))
      let fails : Assoc TrapRec := xs.filterMap fun p => match p.2 with
        | .error t => some (p.1, t)
        | .ok _ => none
      let mask := maskOf (ok.map (·.1))
      let s := s.pmEvent e.x.gang e.x.access 0x0E (bankCycles e.width n ok)
      if !bad.isEmpty then s.allFail bad
      else if mask = 0#64 then e.part s fails
      else e.part (eff ok (e.launchOp (e.settle s mask fails.isEmpty) mask)) fails

def execLds (p : Pfx) (l : Lf) (n : BitVec 2) (d : Opnd) (m : MemOp) (s : State) :=
  run (.lds p l n d m) s fun e s =>
    let size := 2 ^ n.toNat
    e.spad s m .read size 1 fun go t =>
      t.writeReg e.x d (if size = 8 then 2 else 1) (go.map (·.1)) e.nib fun k =>
        match go.find? fun p => decide (p.1 = k) with
        | none => []
        | some p => extendBytes false (s.spadBytes p.2 size)

def execSts (p : Pfx) (l : Lf) (n : BitVec 2) (m : MemOp) (b : Hs) (s : State) :=
  run (.sts p l n m b) s fun e s =>
    let size := 2 ^ n.toNat
    e.spad s m .write size 2 fun go s =>
      go.foldl (fun s p => s.updGroup p.2.group fun g => g.spadWrite p.2.ofs (e.storeBytes 1 size p.1)) s

/-! ### Prefetch and clean (09:R208, R209) -/

def execPref (p : Pfx) (l : Lf) (slice : Bool) (m : MemOp) (s : State) :=
  run (.pref p l slice m) s fun e s =>
    let (xs, s) := e.checkLanes s .read 1 (e.gaddr m 1)
    let s := e.settle s e.act true
    .done (s.setMem ((passesOf xs).foldl (fun t p =>
      let line := lineOf p.2.mt p.2.pa
      let t := t.homeFill p.2.mt p.2.key p.2.sh p.2.pa false
      if slice then t else t.l1Fill e.core line false) s.mem))

/-- A line is written back: from a core's L1 to its home slice, or from the home slice to its memory. -/
def MemSys.cleanLine (m : MemSys) (core : Nat) (t : Xlat) (toMem : Bool) : MemSys :=
  let line := lineOf t.mt t.pa
  if toMem then { m with homeTag := m.homeTag.upd line fun h => { h with dirty := false } }
  else if m.l1Tag.getD (core * 2 ^ 47 + line) false then
    { m.homeFill t.mt t.key t.sh t.pa true with l1Tag := m.l1Tag.upd (core * 2 ^ 47 + line) fun _ => false }
  else m

def execCln (p : Pfx) (l : Lf) (toMem : Bool) (m : MemOp) (s : State) :=
  run (.cln p l toMem m) s fun e s =>
    if e.act = 0#64 then .done s
    else
      let (xs, s) := e.checkLanes s .read 1 (e.gaddr m 1)
      let ok := passesOf xs
      e.access s (failsOf xs) (maskOf (ok.map (·.1))) 0#64 [] (e.gaddr m 1) noWords noWords fun _ s =>
        s.setMem (ok.foldl (fun t p => t.cleanLine e.core p.2 toMem) s.mem)

/-! ### Fences (09:R218, 10:R234, R235) -/

/-- A fence waits for nothing to issue: its parts complete later. The next global write of its lanes is a release where it has a release
part. -/
def execFence (p : Pfx) (l : Lf) (sco : BitVec 3) (ord : BitVec 2) (s : State) :=
  run (.fence p l sco ord) s fun e s =>
    if e.act = 0#64 then .done s
    else
      let s := if ord.getLsbD 1 then s.updCtx e.x fun c =>
        { c with fenced := e.lanes.foldl (fun t n =>
                   t.put n (t.getD n [] ++ [(s.nextId, BitVec.ofNat 3 (scopeOf sco))])) c.fenced
                 relTo := e.lanes.foldl (fun t n => t.putD n (max (t.getD n 0) (scopeOf sco)) 0) c.relTo } else s
      .done (e.issueOp s e.act 0#64 (.fence (ord.getLsbD 1) (ord.getLsbD 0) sco)).2

end Sys2Proof.Machine
end

