-- ==== Sys2Proof/Machine/Num.lean ====
section
/-! DEFINITION. Floating-point formats, exact values and rounding (04:R82 to R103). -/

namespace Sys2Proof.Machine

/-- A floating-point format (04:R82): widths of exponent and mantissa, and whether it has infinities. -/
structure Fmt where
  eb : Nat
  mb : Nat
  inf : Bool
  deriving DecidableEq, Repr

namespace Fmt
def f32 : Fmt := ⟨8, 23, true⟩
def bf16 : Fmt := ⟨8, 7, true⟩
def f16 : Fmt := ⟨5, 10, true⟩
def e5m2 : Fmt := ⟨5, 2, true⟩
def e4m3 : Fmt := ⟨4, 3, false⟩

/-- Exponent bias. -/
def bias (f : Fmt) : Int := 2 ^ (f.eb - 1) - 1
/-- Exponent of the quantum of subnormals. -/
def minQ (f : Fmt) : Int := 1 - f.bias - f.mb
/-- Bits of a pattern. -/
def bits (f : Fmt) : Nat := 1 + f.eb + f.mb
/-- The sign bit of a pattern. -/
def signBit (f : Fmt) : Nat := 2 ^ (f.eb + f.mb)
/-- The pattern of +∞; E4M3 has none. -/
def infPat (f : Fmt) : Nat := (2 ^ f.eb - 1) * 2 ^ f.mb
/-- The canonical NaN. -/
def nanPat (f : Fmt) : Nat := if f.inf then f.infPat + 2 ^ (f.mb - 1) else f.signBit - 1
/-- The largest finite value's pattern. -/
def maxPat (f : Fmt) : Nat := if f.inf then f.infPat - 1 else f.signBit - 2
end Fmt

/-- A value as an operand gives it (03:R81): a NaN, an infinity, or the exact value (−1)^neg · m · 2^e. -/
inductive Ext where
  | nan (signalling : Bool)
  | inf (neg : Bool)
  | fin (neg : Bool) (m : Nat) (e : Int)
  deriving DecidableEq, Repr

/-- Decodes a pattern (04:R83). -/
def Fmt.decode (f : Fmt) (p : Nat) : Ext :=
  let p := p % 2 ^ f.bits
  let neg := decide (f.signBit ≤ p)
  let q := p % f.signBit
  let e := q / 2 ^ f.mb
  let m := q % 2 ^ f.mb
  if f.inf ∧ e = 2 ^ f.eb - 1 then
    if m = 0 then .inf neg else .nan (decide (m < 2 ^ (f.mb - 1)))
  else if !f.inf ∧ q = f.signBit - 1 then .nan false
  else if e = 0 then .fin neg m f.minQ
  else .fin neg (2 ^ f.mb + m) (f.minQ + (e - 1 : Nat))

/-- Whether a value is a signalling NaN: NV (04:R100). -/
def Ext.nv : Ext → Word
  | .nan true => fNV
  | _ => 0#32
def Ext.isNan : Ext → Bool
  | .nan _ => true
  | _ => false
def Ext.neg : Ext → Ext
  | .fin n m e => .fin (!n) m e
  | .inf n => .inf (!n)
  | x => x

/-- Shifts a magnitude to a quantum `q`: quotient, remainder and divisor. -/
def toQuantum (m : Nat) (e q : Int) : Nat × Nat × Nat :=
  if q ≤ e then (m * 2 ^ (e - q).toNat, 0, 1)
  else (m / 2 ^ (q - e).toNat, m % 2 ^ (q - e).toNat, 2 ^ (q - e).toNat)

/-- The pattern, without sign, of a magnitude `m · 2^q` that has at most the format's mantissa width. -/
def Fmt.magPat (f : Fmt) (m : Nat) (q : Int) : Nat :=
  if m = 0 then 0
  else
    let l := Nat.log2 m
    let e := (l : Int) + q
    if e < 1 - f.bias then (toQuantum m q f.minQ).1
    else (e + f.bias).toNat * 2 ^ f.mb + ((toQuantum m q (e - f.mb)).1 - 2 ^ f.mb)

/-- Whether a magnitude `m · 2^q` exceeds the largest finite value. -/
def Fmt.tooBig (f : Fmt) (m : Nat) (q : Int) : Bool := decide (f.maxPat < f.magPat m q)

/-- Rounds a finite exact value (04:R94 to R97): the pattern and its flags. `sat` is the overflow choice of E4M3 (R96). -/
def Fmt.round (f : Fmt) (m : Rm) (sat : Bool) (neg : Bool) (x : Nat) (e : Int) : Nat × Word :=
  let s := if neg then f.signBit else 0
  if x = 0 then (s, 0#32)
  else
    let q := max ((Nat.log2 x : Int) + e - f.mb) f.minQ
    let (n, r, d) := toQuantum x e q
    let n := if m.up neg n r d then n + 1 else n
    let inexact := decide (r ≠ 0)
    if f.tooBig n q then
      let away := match m with
        | .rne | .rna => true
        | .rtz => false
        | .rdn => neg
        | .rup => !neg
      if !f.inf ∧ sat then (s + f.maxPat, fSAT ||| fNX)
      else if !away then (s + f.maxPat, fOF ||| fNX)
      else if f.inf then (s + f.infPat, fOF ||| fNX)
      else (f.nanPat, fOF ||| fNX ||| fNV)
    else
      let tiny := decide (n < 2 ^ f.mb ∧ q = f.minQ)
      (s + f.magPat n q, if inexact then (if tiny then fUF ||| fNX else fNX) else 0#32)

/-- A value delivered in a format (04:R100, R102). -/
def Fmt.deliver (f : Fmt) (m : Rm) (sat : Bool) : Ext → Nat × Word
  | .nan s => (f.nanPat, if s then fNV else 0#32)
  | .inf neg =>
    if f.inf then ((if neg then f.signBit else 0) + f.infPat, 0#32)
    else if sat then ((if neg then f.signBit else 0) + f.maxPat, fSAT)
    else (f.nanPat, fNV)
  | .fin neg x e => f.round m sat neg x e

/-! ### Exact arithmetic (04:R98, R100) -/

/-- A signed integer of a value at a quantum not above its exponent. -/
def scaled (neg : Bool) (m : Nat) (e q : Int) : Int :=
  let x : Int := (m * 2 ^ (e - q).toNat : Nat)
  if neg then -x else x

/-- The exact sum; ∞ − ∞ is a NaN that the operation itself makes. A zero sum takes its sign from the mode (04:R98). -/
def Ext.add (m : Rm) (a b : Ext) : Ext × Word :=
  match a, b with
  | .nan x, .nan y => (.nan false, if x || y then fNV else 0#32)
  | .nan x, _ => (.nan false, if x then fNV else 0#32)
  | _, .nan y => (.nan false, if y then fNV else 0#32)
  | .inf x, .inf y => if x = y then (.inf x, 0#32) else (.nan false, fNV)
  | .inf x, .fin .. => (.inf x, 0#32)
  | .fin .., .inf y => (.inf y, 0#32)
  | .fin n x e, .fin k y g =>
    let q := min e g
    let t := scaled n x e q + scaled k y g q
    if t = 0 then
      (.fin (if x = 0 ∧ y = 0 ∧ n = k then n else decide (m = .rdn)) 0 0, 0#32)
    else (.fin (decide (t < 0)) t.natAbs q, 0#32)

/-- The exact product; 0 · ∞ is a NaN that the operation itself makes. -/
def Ext.mul (a b : Ext) : Ext × Word :=
  match a, b with
  | .nan x, .nan y => (.nan false, if x || y then fNV else 0#32)
  | .nan x, _ => (.nan false, if x then fNV else 0#32)
  | _, .nan y => (.nan false, if y then fNV else 0#32)
  | .inf x, .inf y => (.inf (x != y), 0#32)
  | .inf x, .fin n m _ => if m = 0 then (.nan false, fNV) else (.inf (x != n), 0#32)
  | .fin n m _, .inf y => if m = 0 then (.nan false, fNV) else (.inf (n != y), 0#32)
  | .fin n x e, .fin k y g => (.fin (n != k) (x * y) (e + g), 0#32)

/-- A comparison of two values that are no NaN; −0 equals +0. -/
def Ext.cmp (a b : Ext) : Ordering :=
  let key : Ext → Int × Nat × Int := fun
    | .nan _ => (0, 0, 0)
    | .inf n => (if n then -1 else 1, 0, 0)
    | .fin _ m e => (0, m, e)
  match a, b with
  | .fin n x e, .fin k y g =>
    let q := min e g
    compare (scaled n x e q) (scaled k y g q)
  | _, _ => compare (key a).1 (key b).1

/-- Sign of a value, for the order of zeros. -/
def Ext.isNeg : Ext → Bool
  | .nan _ => false
  | .inf n => n
  | .fin n _ _ => n

/-- `fmin` and `fmax` on patterns (06:R131). -/
def Fmt.minmax (f : Fmt) (mx : Bool) (a b : Nat) : Nat × Word :=
  let x := f.decode a
  let y := f.decode b
  let nv := x.nv ||| y.nv
  if x.isNan && y.isNan then (f.nanPat, nv)
  else if x.isNan then (b, nv)
  else if y.isNan then (a, nv)
  else
    let less := match x.cmp y with
      | .lt => true
      | .gt => false
      | .eq => x.isNeg && !y.isNeg
    (if less != mx then a else b, nv)

/-- A quotient `n / d` with `n > 0`, at least 40 significant bits of it and a sticky bit: magnitude and exponent. -/
def sticky (n d : Nat) : Nat × Int :=
  let k := Nat.log2 d + 64
  let q := n * 2 ^ k / d
  (2 * q + (if n * 2 ^ k % d = 0 then 0 else 1), -((k : Int) + 1))

/-- The integer square root of `n`, bit by bit from bit `k` down. -/
def isqrt (n : Nat) : Nat → Nat → Nat
  | 0, r => if (r + 1) * (r + 1) ≤ n then r + 1 else r
  | k + 1, r => isqrt n k (if (r + 2 ^ (k + 1)) * (r + 2 ^ (k + 1)) ≤ n then r + 2 ^ (k + 1) else r)

end Sys2Proof.Machine
end

