-- ==== Sys2Proof/Machine/Home.lean ====
section
/-! DEFINITION. Accesses performed at home slices: atomics, compare and swap, waiting and notifying, acquires, and the events of
the write buffers, promotions and walks (09:R210 to R217, 10:R221, R233 to R235, R240, 15:R352, R371, 18:R422). -/

namespace Sys2Proof.Machine

/-! ### Read-modify-writes (09:R210, R211) -/

/-- The new value of an integer atomic of `n` bytes, on patterns. -/
def rmwInt (n op : Nat) (signed : Bool) (old b : Nat) : Nat :=
  let v (x : Nat) : Int := if signed then sextInt x (8 * n) else x
  match op with
  | 0 => (old + b) % 2 ^ (8 * n)
  | 1 => if v b < v old then b else old
  | 2 => if v old < v b then b else old
  | 3 => old &&& b
  | 4 => old ||| b
  | 5 => old ^^^ b
  | _ => b

/-- Whether a pattern is a signalling NaN. -/
def Fmt.signalling (f : Fmt) (p : Nat) : Bool := match f.decode p with | .nan true => true | _ => false

/-- The new value of a floating-point atomic; a minimum or maximum with a signalling NaN is the canonical NaN (DEDUCED, log 95). -/
def rmwFloat (f : Fmt) (op old b : Nat) : Nat :=
  let minmax (mx : Bool) : Nat := if f.signalling old || f.signalling b then f.nanPat else (f.minmax mx old b).1
  match op with
  | 0 => (f.deliver .rne false (Ext.add .rne (f.decode old) (f.decode b)).1).1
  | 1 => minmax false
  | 2 => minmax true
  | _ => b

/-- The new value of a `.bf16x2` atomic, half by half. -/
def rmwHalves (op old b : Nat) : Nat :=
  rmwFloat Fmt.bf16 op (old % 65536) (b % 65536) + 65536 * rmwFloat Fmt.bf16 op (old / 65536) (b / 65536)

/-- Bytes and function of a member of `atom`. -/
def atomForm (n : BitVec 2) (op : BitVec 7) : Nat × (Nat → Nat → Nat) :=
  let o := (op.extractLsb' 0 4).toNat
  match n.toNat with
  | 0 => (4, rmwInt 4 o (op.getLsbD 4))
  | 1 => (8, rmwInt 8 o (op.getLsbD 4))
  | 2 => (4, rmwFloat Fmt.f32 o)
  | _ => (4, rmwHalves o)

/-- Bytes and function of a member of `ared`. -/
def aredForm (f : Bool) (op : BitVec 7) : Nat × (Nat → Nat → Nat) :=
  if f then atomForm (if op.getLsbD 5 then 3#2 else 2#2) op else atomForm (if op.getLsbD 5 then 1#2 else 0#2) op

/-! ### Issue -/

/-- An instruction whose lanes all act at home slices. `b` and `c` are the uses of its operands, of `w` words each. -/
def Env.homeIssue (e : Env) (s : State) (m : MemOp) (kind : AccKind) (n : Nat) (hbm : Bool) (b c : Option Nat) : Res :=
  if e.act = 0#64 then .done s
  else
    let va := e.gaddr m 0
    let (xs, s) := e.checkLanes s kind n va hbm
    let (_, isRel, sco) := Env.orderOf e.i
    let xs := if isRmw e.i then e.peerRelease (if isRel then some sco else none) va xs else xs
    let ws (k : Option Nat) (lane : Nat) : List Word := match k with
      | none => []
      | some k => e.words k (n / 4) lane
    e.access s (failsOf xs) 0#64 0#64 (passesOf xs) va (ws b) (ws c) fun _ s => s

def execAtom (p : Pfx) (l : Lf) (n : BitVec 2) (op : BitVec 7) (d : Opnd) (m : MemOp) (b : Hs) (s : State) :=
  run (.atom p l n op d m b) s fun e s => e.homeIssue s m .rmw (atomForm n op).1 false (some 1) none

def execAcas (p : Pfx) (l : Lf) (w : Bool) (d : Opnd) (m : MemOp) (b c : Hs) (s : State) :=
  run (.acas p l w d m b c) s fun e s => e.homeIssue s m .rmw (if w then 8 else 4) false (some 1) (some 2)

def execAred (p : Pfx) (l : Lf) (f : Bool) (op : BitVec 7) (m : MemOp) (b : Hs) (s : State) :=
  run (.ared p l f op m b) s fun e s => e.homeIssue s m .rmw (aredForm f op).1 false (some 1) none

def execWaitv (p : Pfx) (l : Lf) (w : Bool) (d : Opnd) (m : MemOp) (b : Hs) (s : State) :=
  run (.waitv p l w d m b) s fun e s => e.homeIssue s m .waitv (if w then 8 else 4) true (some 1) none

def execNotify1 (p : Pfx) (l : Lf) (m : MemOp) (s : State) :=
  run (.notify1 p l m) s fun e s => e.homeIssue s m .read 4 true none none

def execNotifyall (p : Pfx) (l : Lf) (m : MemOp) (s : State) :=
  run (.notifyall p l m) s fun e s => e.homeIssue s m .read 4 true none none

/-! ### Write buffers (10:R221) -/

/-- A lane of a long form has reached its completion point. -/
def State.opLane (s : State) (op lane : Nat) : State := s.updOp op fun o => { o with left := o.left &&& ~~~bit lane }

/-- A lane of a long form fails. -/
def State.opFail (s : State) (op lane : Nat) (t : TrapRec) : State :=
  s.updOp op fun o => { o with left := o.left &&& ~~~bit lane, fails := o.fails.put lane t }

/-- Who made an entry. -/
def WbEnt.writer (w : WbEnt) : Writer :=
  ⟨BitVec.ofNat 8 w.core, BitVec.ofNat 16 w.launch, w.rgid, some (w.rgid.extractLsb' 4 27), w.ordered⟩

/-- Whether an entry can leave now: no earlier write of its pair shares a byte with it or has to be seen before its release, no engine owns its line, and the line
is no active anchor; the link of a peer's port is up (10:R221, R242, 15:R352). -/
def State.drainable (s : State) (k : Nat) (w : WbEnt) : Bool :=
  !(s.mem.wbuf.any fun e => decide (e.1 < k) && samePair e.2.core w.core && e.2.overlaps w) &&
  !s.lineOwned (lineOf w.mt w.pa) && !s.anchorAt w.mt w.pa && !(w.rel.any fun a => s.pairBehind w.core (scopeOf a) k) &&
  !s.pairBehind w.core w.cum k &&
  !(decide (w.mt = 2#2) && s.dev.linkDown.has (peerPort w.pa))

/-- An entry leaves the buffer and is performed at dev scope; a write to host memory then waits for its acknowledgement. -/
def State.drain (s : State) (k : Nat) : State :=
  match s.mem.wbuf.get? k with
  | none => s
  | some w =>
    if !s.drainable k w then s
    else
      let m := s.mem.homeWrite (some w.core) w.writer w.rel false w.mt w.key w.pa w.bytes
      let s := s.setMem { m with wbuf := m.wbuf.del k }
      let sys : Bool := match w.op with
        | none => false
        | some o => (match s.op? o with | none => false | some o => decide ((Env.orderOf o.i).2.2 = 4#3))
      let s := if w.mt = 1#2 then
          s.setMem { s.mem with hostWr := s.mem.hostWr.put k ⟨w.core, w.gang, w.access, w.lane, w.launch, if sys then w.op else none⟩ }
        else s
      match w.op with
      | none => s
      | some o => if w.mt = 1#2 ∧ sys then s else s.opLane o w.lane

/-- Every entry that meets a condition leaves, in the order of entry. -/
def State.drainAll (s : State) (p : WbEnt → Bool) : State := (s.mem.wbuf.keep fun _ w => p w).keys.foldl State.drain s

/-- WRITE_BUFFER_DRAIN. -/
def execWriteBufferDrain (entry : Nat) (s : State) : Host.Outcome State Fault Refusal := .next (s.drain entry)

/-- HOST_WRITE_ACKNOWLEDGEMENT: a write to host memory is performed at sys scope. -/
def execHostWriteAcknowledgement (entry : Nat) (s : State) : Host.Outcome State Fault Refusal :=
  match s.mem.hostWr.get? entry with
  | none => .next s
  | some w =>
    let t := s.setMem { s.mem with hostWr := s.mem.hostWr.del entry }
    .next (match w.op with | none => t | some o => t.opLane o w.lane)

/-! ### Promotion (10:R235) -/

/-- Whether a request waits for a promotion of a core that has not been made. -/
def Req.waitsPromotion (r : Req) : Bool := r.promoting && !r.promoted

/-- The releasing core performs its buffered writes at dev scope; the record's scope becomes dev. A fence's lane is done with the last promotion
that its reads ask for: the reads themselves were made before. -/
def State.promote (s : State) (k : Nat) : State :=
  match s.home.q.get? k with
  | none => s
  | some r =>
    if !r.waitsPromotion then s
    else
      let line := lineOf r.mt r.pa
      let core := match s.op? r.op with
        | some o => (match o.data with
          | .fence .. => (r.b.headD 0#32).toNat
          | _ => (s.mem.relOf line).rcore.toNat)
        | none => (s.mem.relOf line).rcore.toNat
      let t := s.drainAll fun w => samePair w.core core
      if t.mem.wbuf.vals.any fun w => decide (w.core = core) then s
      else
        let s := t
        let c := s.mem.relOf line
        let s := if c.v ∧ c.rcore.toNat = core ∧ c.rsco.toNat < 3 then s.setMem (s.mem.setRel line { c with rsco := 3#3 }) else s
        match s.op? r.op with
        | some o => (match o.data with
          | .fence .. =>
            let q := s.home.q.del k
            let s := s.setHome { s.home with q := q }
            if q.vals.any fun p => decide (p.op = r.op ∧ p.lane = r.lane) then s else s.opLane r.op r.lane
          | _ => s.setHome { s.home with q := s.home.q.put k { r with promoted := true } })
        | none => s.setHome { s.home with q := s.home.q.del k }

/-- PROMOTION. -/
def execPromotion (req : Nat) (s : State) : Host.Outcome State Fault Refusal := .next (s.promote req)

/-! ### Acts at a home slice (09:R214 to R217, 10:R233, R234) -/

/-- A request is done; with the last one of a gang that is over, the gang retires. -/
def State.reqDone (s : State) (k : Nat) (r : Req) : State :=
  let s := (s.setHome { s.home with q := s.home.q.del k }).opLane r.op r.lane
  if r.late.isSome then s.tryRetire r.gang else s


/-- Whether a lane of a context is live. -/
def State.laneLive (s : State) (x : Site) (lane : Nat) : Bool :=
  match s.ctx? x with
  | none => false
  | some c => c.lanes.has lane

/-- Writes the destination of a long form in one lane. -/
def State.opWrite (s : State) (o : Op) (lane : Nat) (ws : List Word) : State :=
  match o.i.uses.getLast? with
  | none => s
  | some u =>
    if !s.laneLive ⟨o.gang, o.access⟩ lane then s
    else s.writeReg ⟨o.gang, o.access⟩ u.o u.n [lane] (lowest (o.cur.done ||| o.lanes)) fun _ => ws

/-- What the checks of an act answer. -/
inductive Check where
  | pass
  | promote
  | fail (t : TrapRec)

/-- The check of an acquire at its act. -/
def State.acquireAct (s : State) (o : Op) (lane : Nat) (va : DWord) (mt : BitVec 2) (pa : Nat) : Check :=
  let (acq, _, sco) := Env.orderOf o.i
  if !acq ∨ mt ≠ 0#2 then .pass
  else
    let r := s.mem.relOf (lineOf mt pa)
    match acquireCheck r o.launch o.core ((s.idn o.gang lane o.access).extractLsb' 17 31) sco with
    | .pass => .pass
    | .promote => .promote
    | .fail => .fail (o.trapVa 6 1 (bit lane) (scopeX r sco) va)

/-- The checks of one lane's act, in order: an atomic of an ordered-mode launch, the acquire, an active anchor, poison. -/
def State.reqCheck (s : State) (o : Op) (r : Req) : Check :=
  let w := s.writer o.gang r.lane o.access
  if isRmw o.i && decide (r.mt = 0#2) && (s.mem.relOf (lineOf r.mt r.pa)).orderedConflict w then
    .fail (o.trapVa 6 2 (bit r.lane) 0#17 r.va)
  else match s.acquireAct o r.lane r.va r.mt r.pa with
    | .fail t => .fail t
    | .promote => .promote
    | .pass =>
      if homeWrites o.i && s.anchorAt r.mt r.pa then
        .fail (o.trapVa 9 10 (bit r.lane) (match s.thread? o.gang r.lane with | none => 0#17 | some t => BitVec.ofNat 17 t.link.stroke) r.va)
      else if homeReads o.i && s.readPoison o.core (reqBytes o.i) ⟨r.mt, r.key, r.pa, r.sh, 0, 0⟩ then .fail (o.trapVa 13 3 (bit r.lane) 0#17 r.va)
      else .pass

/-- The writer of a request: its lane, on the core of its long form, while its gang is evicted too (10:R233). -/
def State.reqWriter (s : State) (o : Op) (lane : Nat) : Writer :=
  let w := s.writer o.gang lane o.access
  if (s.gang? o.gang).isNone then w else { w with rcore := BitVec.ofNat 8 o.core }

/-- A write of a lane at the home slice. -/
def State.reqWrite (s : State) (k : Nat) (o : Op) (r : Req) (bs : List Byte) (rmw : Bool) : State :=
  let own := if (Env.orderOf o.i).2.1 then some (Env.orderOf o.i).2.2 else none
  let x : Site := ⟨o.gang, o.access⟩
  let rel := s.relScope x r.lane k own
  (s.setMem (s.mem.homeWrite none (s.reqWriter o r.lane) (rel.map fun a => BitVec.ofNat 3 (scopeOf a)) rmw r.mt r.key r.pa bs r.sh)).wrote x r.lane k

/-- A lane that waits in a `waitv` continues. -/
def State.waiterGo (s : State) (x : Site) (lane : Nat) : State :=
  s.updCtx x fun c => if (c.lanes.get? lane).any fun l => decide (l.ws = .waitv) then c.goOn lane else c

/-- A request fails; a stepped lane that its `waitv` kept waiting goes on. -/
def State.reqFail (s : State) (k : Nat) (r : Req) (t : TrapRec) : State :=
  let s := s.setHome { s.home with q := s.home.q.del k }
  let s := match s.op? r.op with
    | some o => (match o.i with | .waitv .. => s.waiterGo ⟨r.gang, r.access⟩ r.lane | _ => s)
    | none => s
  s.opFail r.op r.lane t

/-- A read at the home slice, with the record it meets. -/
def State.reqRead (s : State) (o : Op) (r : Req) (n : Nat) : List Byte × State :=
  let line := lineOf r.mt r.pa
  let bs := s.mem.readBytes r.mt r.key r.pa n
  let s := s.setMem (s.mem.homeFill r.mt r.key r.sh r.pa false)
  (bs, if r.mt = 0#2 then s.noteRead ⟨o.gang, o.access⟩ o.launch r.lane r.va r.pa (s.mem.relOf line) else s)

/-- The result of a read-modify-write of a lane: the old value is delivered, the new one written. -/
def State.rmwAct (s : State) (k : Nat) (o : Op) (r : Req) (n : Nat) (f : Nat → Option Nat) (out : Bool) : State :=
  let (bs, s) := s.reqRead o r n
  let s := match f (leNat bs) with
    | none => s
    | some v => s.reqWrite k o r (leBytes n v) true
  let s := if out then s.opWrite o r.lane (bytesWords (n / 4) bs) else s
  s.reqDone k r


/-- Whether a lane is stopped. -/
def State.laneStopped (s : State) (x : Site) (lane : Nat) : Bool :=
  match s.ctx? x with
  | none => false
  | some c => (match c.lanes.get? lane with | none => false | some l => decide (l.ws = .stopped))

/-- Changes the record of a waiter, or removes it. -/
def HomeSys.setWaiter (h : HomeSys) (pa : Nat) (w : Waiter) (f : Option Waiter) : HomeSys :=
  let ws := (h.monitors.getD pa []).filterMap fun v => if v.gang = w.gang ∧ v.access = w.access ∧ v.lane = w.lane then f else some v
  { h with monitors := if ws.isEmpty then h.monitors.del pa else h.monitors.put pa ws }.tidy

/-- A waiter is woken: its read is made in the same act where its gang is resident; the read of an evicted one is made at its
restore, and one that needs a promotion is held for it (09:R215, R217). -/
def State.wake (s : State) (pa : Nat) (w : Waiter) (single : Bool) (req : Option Nat) : State :=
  let x : Site := ⟨w.gang, w.access⟩
  let mark (s : State) (read : Bool := false) : State :=
    s.setHome (s.home.setWaiter pa w (some { w with woken := true, single := single, read := read }))
  let drop (s : State) : State := match req with
    | none => s
    | some k => s.setHome { s.home with q := s.home.q.del k }
  match s.op? w.op with
  | none => drop (s.setHome (s.home.setWaiter pa w none))
  | some o =>
    if (s.coreOf w.gang).isNone then drop (mark s)
    else
      let r : Req := { op := w.op, gang := w.gang, access := w.access, lane := w.lane, va := w.va, mt := 0#2, key := w.key, pa := pa, sh := false
                       b := [], c := [], promoting := true, promoted := false }
      match s.acquireAct o w.lane w.va 0#2 pa with
      | .promote =>
        let (k, s) := match req with
          | some k => (k, s)
          | none => s.freshId
        (mark s).setHome { (mark s).home with q := (mark s).home.q.put k r }
      | .fail t => drop (((s.setHome (s.home.setWaiter pa w none)).waiterGo x w.lane).opFail w.op w.lane t)
      | .pass =>
        if s.mem.poisoned 0#2 pa then
          drop (((s.setHome (s.home.setWaiter pa w none)).waiterGo x w.lane).opFail w.op w.lane (o.trapVa 13 3 (bit w.lane) 0#17 w.va))
        else
          let (bs, s) := s.reqRead o r (4 * w.words)
          let s := drop (s.opWrite o w.lane (bytesWords w.words bs))
          if s.laneStopped x w.lane then mark s true
          else ((s.setHome (s.home.setWaiter pa w none)).waiterGo x w.lane).opLane w.op w.lane

/-- A stopped waiter that a notify woke continues at its resume (09:R217). -/
def State.resumeWaiter (s : State) (x : Site) (lane : Nat) : State :=
  let mine := s.home.monitors.keep fun _ ws => ws.any fun w => decide (w.gang = x.gang ∧ w.access = x.access ∧ w.lane = lane) && w.woken
  mine.foldl (fun s e => match e.2.find? fun w => decide (w.gang = x.gang ∧ w.access = x.access ∧ w.lane = lane) with
    | none => s
    | some w => if w.read then (s.setHome (s.home.setWaiter e.1 w none)).opLane w.op lane else s) s

/-- A notify ends the spin demotion of every gang that recorded the line, in the iteration under way or the one before it (01:R31)
(DEDUCED, log 83). -/
def State.unspin (s : State) (line : Nat) : State :=
  let calm (p : Spin) : Spin := if p.spinning && (p.lines ++ p.prev).contains line then { p with spinning := false, same := 0 } else p
  s.setGangs (s.gangs.mapVal fun _ g => { g with spin := g.spin.map calm })

/-- The act of a notify in one lane: a release of its own, or the first global write of its lane after a release fence, sets the record of
the line (10:R233). -/
def State.notifyAct (s : State) (k : Nat) (o : Op) (r : Req) (all : Bool) : State :=
  let line := lineOf r.mt r.pa
  let x : Site := ⟨o.gang, o.access⟩
  let own := if (Env.orderOf o.i).2.1 then some (Env.orderOf o.i).2.2 else none
  let s := match s.relScope x r.lane k own with
    | none => s
    | some sco =>
      let w := s.reqWriter o r.lane
      let c := s.mem.relOf line
      (s.setMem (s.mem.setRel line { c with v := true, rsco := sco, rcore := w.rcore, rlnch := w.rlnch, rgid := w.rgid })).wrote x r.lane k
  let ws := (s.home.monitors.getD r.pa []).filter fun w => !w.woken
  let ent := waitEnt (r.pa / 128)
  let s := match s.home.lastAct.get? ent with
    | none => s
    | some t => (s.spillEvent o.gang o.access ent 0).monTouch t.2 ent
  let woken := if all then ws else ws.take 1
  let s := woken.foldl (fun s w => s.wake r.pa w (!all) none) s
  -- the lanes that go on join paths together (07:R151)
  let s := woken.foldl (fun s w => s.selectPath ⟨w.gang, w.access⟩) s
  (s.unspin line).reqDone k r

/-- The check of a `waitv` in one lane. -/
def State.waitvAct (s : State) (k : Nat) (o : Op) (r : Req) : State :=
  let words := r.b.length
  let (bs, t) := s.reqRead o r (4 * words)
  let vs := bytesWords words bs
  let ent := waitEnt (r.pa / 128)
  let slice := homeSlice r.pa r.sh
  if vs ≠ r.b then ((t.opWrite o r.lane vs).waiterGo ⟨r.gang, r.access⟩ r.lane).reqDone k r
  else if !s.roomFor ent slice then s.reqFail k r (o.trapVa 15 2 (bit r.lane) 0#17 r.va)
  else
    let w : Waiter := ⟨r.gang, r.access, r.lane, r.op, words, r.va, r.key, false, false, false⟩
    let t := t.spillEvent r.gang r.access ent 1
    let s := t.setHome { t.home with monitors := t.home.monitors.put r.pa (t.home.monitors.getD r.pa [] ++ [w]), q := t.home.q.del k }
    let s := s.updCtx ⟨r.gang, r.access⟩ fun c => c.updLane r.lane fun l => if l.ws = .stopped then { l with under := .waitv } else { l with ws := .waitv }
    (s.monTouch slice ent).selectPath ⟨r.gang, r.access⟩

/-- The act of one request whose checks pass. -/
def State.reqAct (s : State) (k : Nat) (o : Op) (r : Req) : State :=
  let num (ws : List Word) : Nat := leNat (wordBytes ws)
  match o.i with
  | .ld _ _ n _ m =>
    let near := s.mem.pairBytes o.core r.mt r.key r.pa (ldSize n)
    let (bs, s) := s.reqRead o r (ldSize n)
    -- a relaxed read is served from the buffers of its pair (10:R221)
    let bs := if m.ord = 0#2 then near else bs
    let line := lineOf r.mt r.pa
    let s := (s.setMem (s.mem.l1Fill o.core line false)).noteLine ⟨o.gang, o.access⟩ line
    (s.opWrite o r.lane (extendBytes (ldSigned n) bs)).reqDone k r
  | .st _ _ n _ _ => (s.reqWrite k o r ((wordBytes r.b).take (stSize n)) false).reqDone k r
  | .atom _ _ n op _ _ _ => s.rmwAct k o r (atomForm n op).1 (fun x => some ((atomForm n op).2 x (num r.b))) true
  | .ared _ _ f op m _ =>
    -- a relaxed one is complete once it is accepted; the addition is an act of its own (09:R198, R212), but in ordered mode, where the check of
    -- 10:R233 is made in the act that writes and has to be precise (DEDUCED, log 99)
    if m.ord = 0#2 ∧ r.late.isNone ∧ !(s.writer o.gang r.lane o.access).ordered then (s.setHome { s.home with q := s.home.q.put k { r with late := some o } }).opLane r.op r.lane
    else s.rmwAct k o r (aredForm f op).1 (fun x => some ((aredForm f op).2 x (num r.b))) false
  | .acas _ _ w _ _ _ _ => s.rmwAct k o r (if w then 8 else 4) (fun x => if x = num r.b then some (num r.c) else none) true
  | .waitv .. => s.waitvAct k o r
  | .notify1 .. => s.notifyAct k o r false
  | .notifyall .. => s.notifyAct k o r true
  | _ => s.reqDone k r

/-- The request of the read of a wake, where it waits for a promotion. -/
def HomeSys.wakeReq (h : HomeSys) (pa : Nat) (w : Waiter) : Option Nat :=
  ((h.q.keep fun _ r => decide (r.op = w.op ∧ r.gang = w.gang ∧ r.access = w.access ∧ r.lane = w.lane ∧ r.pa = pa)).keys).head?

/-- The woken waiter to which a request belongs: then it is the read of its wake. -/
def HomeSys.wakeOf (h : HomeSys) (r : Req) : Option Waiter :=
  (h.monitors.getD r.pa []).find? fun w => decide (w.gang = r.gang ∧ w.access = r.access ∧ w.lane = r.lane ∧ w.op = r.op) && w.woken

/-- One request: its checks, then its act. -/
def State.reqOne (s : State) (k : Nat) : State :=
  match s.home.q.get? k with
  | none => s
  | some r => match s.reqOp r with
    | none => s.setHome { s.home with q := s.home.q.del k }
    | some o => if r.late.isSome then s.reqAct k o r else match s.home.wakeOf r with
      | some w => (s.wake r.pa w w.single (some k)).selectPath ⟨w.gang, w.access⟩
      | none => match s.reqCheck o r with
        | .fail t => s.reqFail k r t
        | .promote => s.setHome { s.home with q := s.home.q.put k { r with promoting := true, promoted := false } }
        | .pass => s.reqAct k o r

/-- Whether a request counts as a release and has to wait for writes that its agent has seen: by its own order, or, a write or a notify, by an
earlier release fence of its lane (10:R227, R228). -/
def State.reqReleases (s : State) (k : Nat) (r : Req) (o : Op) : Bool :=
  let (_, rel, sco) := Env.orderOf o.i
  let writes := homeWrites o.i || (match o.i with | .notify1 .. | .notifyall .. => true | _ => false)
  (rel && s.pairBehind o.core (scopeOf sco) k) || (writes && s.pairBehind o.core (s.fencedTo ⟨o.gang, o.access⟩ r.lane) k)

/-- Whether an earlier request of the same lane comes first: one to the same bytes, a read before a write, a read-modify-write before
another (10:R222, R223, R226). -/
def State.reqBehind (s : State) (k : Nat) (r : Req) (o : Op) : Bool :=
  s.home.q.any fun e => decide (e.1 < k ∧ e.2.gang = r.gang ∧ e.2.access = r.access ∧ e.2.lane = r.lane) &&
    (match s.reqOp e.2 with
     | none => false
     | some p => decide (e.2.mt = r.mt ∧ e.2.pa < r.pa + reqBytes o.i ∧ r.pa < e.2.pa + reqBytes p.i) ||
        (homeReads p.i && homeWrites o.i) || (isRmw p.i && isRmw o.i))

/-- Whether a request can act now: it waits for no promotion, no engine owns its line, its pair holds no earlier write to its
bytes (a relaxed load is served from there), no earlier access of its lane comes first, a release has the writes before it performed, the
peer's link is up, and its gang is resident; data of a load also arrives for an evicted gang (16:R394). -/
def State.reqReady (s : State) (k : Nat) (r : Req) : Bool :=
  match s.reqOp r with
  | none => true
  | some o =>
    let relaxed := match o.i with | .ld _ _ _ _ m => decide (m.ord = 0#2) | _ => false
    !r.waitsPromotion && !s.lineOwned (lineOf r.mt r.pa) && (relaxed || !s.mem.pairHolds o.core r.mt r.pa (reqBytes o.i)) &&
    !s.reqBehind k r o && !((s.gang? r.gang).any fun g => g.queueLoadOver r.access r.lane k r.va (reqBytes o.i)) && !s.reqReleases k r o &&
    !(decide (r.mt = 2#2) && s.dev.linkDown.has (peerPort r.pa)) && !(r.late.isSome && s.anchorAt r.mt r.pa) &&
    ((s.coreOf r.gang).isSome || (s.gang? r.gang).isNone || (s.home.wakeOf r).isSome || r.late.isSome ||
      (match o.i with | .ld .. => true | _ => false))

/-- The requests of the same long form to the same line, in increasing lane number. -/
def HomeSys.sameAct (h : HomeSys) (r : Req) : List Nat :=
  (h.q.keep fun _ p => decide (p.op = r.op ∧ lineOf p.mt p.pa = lineOf r.mt r.pa)).keys

/-- HOME_SLICE_ACT: the lanes of an instruction that address one line act one after another. -/
def State.homeAct (s : State) (k : Nat) : State :=
  match s.home.q.get? k with
  | none => s
  | some r =>
    let ks := s.home.sameAct r
    if ks.all fun j => (match s.home.q.get? j with | none => true | some p => s.reqReady j p) then ks.foldl State.reqOne s else s

def execHomeSliceAct (req : Nat) (s : State) : Host.Outcome State Fault Refusal := .next (s.homeAct req)

/-! ### Walks and peers -/

/-- PAGE_WALK: a walker of the core's cluster translates a page of an owner and fills both TLBs (08:R171, R172). -/
def execPageWalk (core owner : Nat) (va : DWord) (write : Bool) (s : State) : Host.Outcome State Fault Refusal :=
  if !canonical va then .next s
  else match s.mem.owners.get? owner with
    | none => .next s
    | some o => .next (s.setMem (s.mem.pageWalk core owner o (if write then .write else .read) false va).2)

/-- The bytes that a request would write where its owner performs it. -/
def State.reqBytesNow (s : State) (o : Op) (r : Req) : Option (List Byte) :=
  let num (ws : List Word) : Nat := leNat (wordBytes ws)
  let old (n : Nat) : Nat := leNat (s.mem.readBytes r.mt r.key r.pa n)
  match o.i with
  | .st _ _ n _ _ => some ((wordBytes r.b).take (stSize n))
  | .atom _ _ n op _ _ _ => some (leBytes (atomForm n op).1 ((atomForm n op).2 (old (atomForm n op).1) (num r.b)))
  | .ared _ _ f op _ _ => some (leBytes (aredForm f op).1 ((aredForm f op).2 (old (aredForm f op).1) (num r.b)))
  | .acas _ _ w _ _ _ _ =>
    let n := if w then 8 else 4
    if old n = num r.b then some (leBytes n (num r.c)) else none
  | _ => none

/-- The write of a request to peer memory that has no response, where its owner may have performed it (18:R422; DESIGN CHOICE, log 36). -/
def State.lateWrite (s : State) (k : Nat) (o : Op) (r : Req) : State :=
  match s.reqBytesNow o r with
  | none => s
  | some bs =>
    let (d, s) := s.draw
    if (Config.freeWord d).getLsbD 0 then s.reqWrite k o r bs (isRmw o.i) else s

/-- Whether the peer timeout of an access has passed, in ticks of the I/O die (18:R422, R433). -/
def State.peerLate (s : State) (io : Nat) : Bool := decide (io + s.setting 0x0018 ≤ s.dev.ioTick)

/-- A load into a queue from peer memory that has no response leaves a token (12:R282, 18:R422). -/
def State.queueTimeout (s : State) (req : Nat) : State :=
  match s.gangs.find? fun e => (e.2.findPend req).isSome with
  | none => s
  | some (k, g) => match g.findPend req, g.core, s.launch? g.launch with
    | some (q, lane, .pend _ va size sgn src _ io), some core, some l =>
      (match s.xlat ⟨k, true⟩ core l.owner .read va with
       | (.error _, _) => s
       | (.ok t, s) =>
         if t.mt ≠ 2#2 ∨ !s.peerLate io then s
         else
           let u : QEnt := .tok { addr := va, src := src, size := size, sgn := sgn, cause := 16, reason := 3, x := BitVec.ofNat 17 (peerPort t.pa)
                                  d1 := va.setWidth 32, d2 := Env.vaD2 va, page := 4096 }
           (s.updGang k fun g => { g with queues := g.queues.upd q fun r =>
             { r with ents := r.ents.upd lane (List.map fun e => if e.isReq req then u else e) } }).queueLoadDone req)
    | _, _, _ => s

/-- PEER_TIMEOUT: an access to peer memory, pending at the port, in a write buffer or for a queue, has had no response within the timeout
(18:R422). -/
def execPeerTimeout (req : Nat) (s : State) : Host.Outcome State Fault Refusal :=
  match s.home.q.get? req with
  | some r =>
    if r.mt ≠ 2#2 ∨ !s.peerLate r.io then .next s
    else (match s.op? r.op with
      | none => .next s
      | some o => .next ((s.lateWrite req o r).reqFail req r (o.trapVa 16 3 (bit r.lane) (BitVec.ofNat 17 (peerPort r.pa)) r.va)))
  | none => match s.mem.wbuf.get? req with
    | none => .next (s.queueTimeout req)
    | some w =>
      if w.mt ≠ 2#2 ∨ !s.peerLate w.io then .next s
      else
        let (k, s) := s.draw
        let m := if (Config.freeWord k).getLsbD 0 then s.mem.homeWrite (some w.core) w.writer w.rel false w.mt w.key w.pa w.bytes else s.mem
        let t := s.setMem { m with wbuf := m.wbuf.del req }
        (match w.op with
         | none => .next t
         | some k => match s.op? k with
           | none => .next t
           | some o => .next (t.opFail k w.lane (o.trapVa 16 3 (bit w.lane) (BitVec.ofNat 17 (peerPort w.pa)) w.va)))

end Sys2Proof.Machine
end

