-- ==== Sys2Proof/Machine/Barriers.lean ====
section
/-! DEFINITION. Barriers (15:R372 to R376). -/

namespace Sys2Proof.Machine

/-- The number of a gang at barriers: arrivals are kept by gang. An arrival in the current phase fixes COUNT where it is the first
(15:R374). -/
def Barrier.arrive (b : Barrier) (gang count : Nat) : Barrier :=
  { b with count := some (b.count.getD count), arrivals := b.arrivals ++ [gang] }

/-- An arrival, and the test of the phase. -/
def State.arrive (s : State) (grp gang : Nat) (pair : Bool) (n count : Nat) : State :=
  let s := s.setBar grp pair n ((s.barOf grp pair n).arrive gang count)
  (s.barAct grp gang pair n).barTest grp pair n

/-- POOL 2 in the lowest active lane: the spill table is full (15:R371). A barrier has no address, so the detail words are free (DESIGN CHOICE, log 25). -/
def Env.barPool (e : Env) (s : State) : Res :=
  let (a, s) := s.draw
  let (b, s) := s.draw
  .raise s (e.trap 15 2 (match e.nib with | none => 0#64 | some k => bit k) 0#17 (Config.freeWord a) (Config.freeWord b))

/-- The lanes of an instruction wait at a barrier. -/
def Env.barWait (e : Env) (s : State) (d : OpData) : State :=
  ((e.issueOp (e.settle s e.act true) e.act e.act d).2).updCtx e.x fun c => c.setWs e.act .barrier

def execBar (p : Pfx) (l : Lf) (cnt : BitVec 6) (pair : Bool) (n : BitVec 4) (s : State) :=
  run (.bar p l cnt pair n) s fun e s =>
    if e.act = 0#64 then .done s
    else if !s.barRoom e.g.group pair n.toNat then e.barPool s
    else .done ((e.barWait s .bar).arrive e.g.group e.x.gang pair n.toNat cnt.toNat)

def execBarr (p : Pfx) (l : Lf) (cnt : BitVec 6) (pair : Bool) (n : BitVec 4) (d : Opnd) (s : State) :=
  run (.barr p l cnt pair n d) s fun e s =>
    if e.act = 0#64 then .done s
    else if !s.barRoom e.g.group pair n.toNat then e.barPool s
    else
      let phase := (s.barOf e.g.group pair n.toNat).phase
      .done ((e.writeDst (e.settle s e.act true) fun _ => [phase]).arrive e.g.group e.x.gang pair n.toNat cnt.toNat)

/-- Whether a phase lies after `a`. -/
def phasePast (phase a : Word) : Bool := decide (1 ≤ (phase - a).toNat ∧ (phase - a).toNat < 2 ^ 31)

def execBarw (p : Pfx) (l : Lf) (pair : Bool) (n : BitVec 4) (a : Hs) (s : State) :=
  run (.barw p l pair n a) s fun e s =>
    match e.nib with
    | none => .done s
    | some k =>
      let w := e.word 0 k
      let act (s : State) : State := if s.barHeld e.g.group pair n.toNat then s.barAct e.g.group e.x.gang pair n.toNat else s
      if phasePast (s.barOf e.g.group pair n.toNat).phase w then .done (act (e.launchOp (e.settle s e.act true) e.act))
      else .done (act (e.barWait s (.barw w)))

end Sys2Proof.Machine
end

