-- ==== Sys2Proof/Machine/Fetch.lean ====
section
/-! DEFINITION. Clause positions, header checks and waits, and the fetch of instructions (02:R39, R40, R63, 07:R154, 08:R176,
15:R356, R368). -/

namespace Sys2Proof.Machine

/-! ### Clause begin -/

/-- A trap at a clause position: it returns to the header, and SKIP acts as END (16:R384, R390). -/
def headerTrap (c : Ctx) (cause reason : Nat) (lanes : Mask) (pc : DWord) (x : BitVec 17) (d1 d2 : Word) : TrapRec :=
  { cause := cause, reason := reason, tok := false, x := x, d1 := d1, d2 := d2, tra := pc, lanes := lanes, ret := pc, cur := none,
    skip := none, skipCur := none, resume := none, ports := [], act := c.path }

/-- A fault of a fetch: KIND 10, at the address fetched; it returns to where the path stands (07:R154, 16:R380). -/
def fetchTrap (c : Ctx) (f : XFault) (va tra ret : DWord) (cur : Option Cursor) : TrapRec :=
  { headerTrap c f.cause f.reason c.path tra (0b10#2 ++ BitVec.ofNat 3 f.level ++ 0#12) (va.setWidth 32) (Env.vaD2 va) with
    ret := ret, cur := cur, resume := c.resume }

/-- Whether a word is the first of `capx`, which alone may follow a holder's strokes (15:R368). -/
def isCapxWord (w : Word) : Bool := decide (w.extractLsb' 23 9 = 0b101101001#9)

/-- Whether the instruction at an address is `capx`, behind `n` prefixes at most (02:R48, 15:R368); else the fault of a word's fetch. -/
def State.capxAt (s : State) (x : Site) (core owner : Nat) : Nat → DWord → Except (DWord × XFault) Bool
  | n, va => match (s.fetchWord x core owner va).1 with
    | .error f => .error (va, f)
    | .ok w =>
      if isCapxWord w then .ok true
      else match n with
        | 0 => .ok false
        | n + 1 => (match wordKind w with
          | .md | .im => s.capxAt x core owner n (va + 4#64)
          | _ => .ok false)

/-- The checks of a header in its context (02:R39, 15:R356, R368). -/
def State.headerCheck (s : State) (x : Site) (g : Gang) (c : Ctx) (l : Launch) (core : Nat) (w : Word) (pc : DWord) :
    Except TrapRec Header :=
  let insn (r : Reason) : TrapRec := headerTrap c 1 r.code c.path pc 0#17 w 0#32
  match decodeHeader w with
  | .error r => .error (insn r)
  | .ok h =>
    if h.access ≠ x.access ∨ (h.access ∧ !l.kern.decoupled) then .error (insn .streamMismatch)
    else if h.cap ∧ x.access then .error (insn .notInAccess)
    else
      let holder := g.strokeLane x.access c.path
      let link := match holder with
        | none => Link.zero
        | some n => match g.threads.get? n with | none => Link.zero | some t => t.link
      let cap (r : Nat) (m : Mask) : TrapRec := headerTrap c 9 r m pc (BitVec.ofNat 17 link.stroke) (link.va.setWidth 32) (Env.vaD2 link.va)
      match holder with
        | none => .ok h
        | some n =>
          if h.cap ∧ h.cls ≠ .alu ∧ h.cls ≠ .mem ∧ h.cls ≠ .mix then .error (cap 4 (bit n))
          else if h.cap ∨ c.tcg ≠ 0#32 then .ok h
          else match s.capxAt x core l.owner 2 (pc + 4#64) with
            | .ok true => .ok h
            | .ok false => .error (cap 8 (bit n))
            -- it may be the `capx` clause: the fault of its fetch comes first, and the header is checked again after it (07:R154)
            | .error (va, f) => .error (fetchTrap c f va va pc none)

/-- The parity errors that a header meets: scoreboard counters it waits for (03:R79). -/
def headerParity (c : Ctx) (h : Header) : Option Nat :=
  (List.range 4).find? fun n => h.wsb.getLsbD n && c.parity.has (0x20 + n)

/-- Begins a clause: the cursor stands at its first instruction; in a stroke, the holder's c registers are kept for a roll
back (15:R357, R359). -/
def Gang.openClause (g : Gang) (x : Site) (h : Header) (pc : DWord) : Gang :=
  let holder := (g.ctx? x.access).bind fun c => g.strokeLane x.access c.path
  g.updCtx x.access fun c =>
    let cur : Cursor := { hdr := h, at_ := pc, idx := 0, ip := pc + 4#64, serial := c.serial + 1, done := 0#64 }
    let c := (c.wake c.path).updLanes c.path fun l => { l with pc := pc + 4#64 }
    { c with cur := some cur, serial := c.serial + 1, since := 0, aged := false
             stroke := if h.cap then (match holder with
               | none => none
               | some n => match g.threads.get? n with
                 | none => none
                 | some t => some ⟨n, pc, t.c, []⟩) else none }

/-- Access lanes whose threads have ended (01:R27). -/
def Gang.orphans (g : Gang) : Mask :=
  match g.actx with
  | none => 0#64
  | some a => a.laneMask fun n _ => !g.threads.has n

/-- Whether a lane outside the running path stands inside a clause, or in a trap. A stopped lane of an ended thread, which no query can resume,
stands nowhere (14:R325). -/
def Ctx.insideClause (c : Ctx) (lane : Nat) (l : LaneSt) : Bool :=
  decide (l.ws = .trapped) || (c.mid.has lane && decide (l.ws ≠ .stopped)) || c.aside.any fun a => a.1.getLsbD lane && a.2.isSome

/-- Those of them that end at a clause boundary of the path: a lane that stands inside a clause ends at its own boundary. -/
def Gang.orphansAtEnd (g : Gang) : Mask :=
  match g.actx with
  | none => 0#64
  | some a => g.orphans &&& ~~~a.laneMask a.insideClause

/-- Whether a path holds stepped lanes. -/
def Ctx.stepping (c : Ctx) : Bool := decide (c.path &&& c.laneMask c.steps ≠ 0#64)

/-- Whether every port of the instruction is settled, and a load into a queue has room (12:R281, R282). -/
def Env.queuesSettled (e : Env) : Bool :=
  e.ports.all (fun p => Env.settled p.2) &&
  (match e.i with
   | .ldToQueue _ _ _ q _ => e.lanes.all fun k => (match e.pushState q k with | .ready => true | _ => false)
   | .qpeek _ _ q _ | .qtokTest _ _ q _ | .qtokTake _ _ q _ => Env.settled (e.lanes.map fun n => (n, e.popState e.uses.length q n))
   | _ => true)

/-- The active lanes whose own ports are not settled. -/
def Env.queueLanes (e : Env) : Mask :=
  let waits (p : Port) : Bool := match p with | .waiting => true | _ => false
  maskOf (e.lanes.filter fun n =>
    e.ports.any (fun p => p.2.any fun t => decide (t.1 = n) && waits t.2) ||
    (match e.i with
     | .ldToQueue _ _ _ q _ => waits (e.pushState q n)
     | .qpeek _ _ q _ | .qtokTest _ _ q _ | .qtokTake _ _ q _ => waits (e.popState e.uses.length q n)
     | _ => false))

/-- The lanes, of a path or of a group apart from it that stands at a place inside a clause, that wait at a queue for an entry or for room of
their own. -/
def State.queueStuck (s : State) (x : Site) (core owner : Nat) (m : Mask) (k : Cursor) : Mask :=
  match (s.fetchInstr x core owner k.ip).1 with
  | .ok _ (.fate (.instr i _) _ _ _) =>
    (match env? i ((s.setCur (some x)).updCtx x fun c => { c with path := m, cur := some k }) with
     | none => 0#64
     | some e => e.queueLanes)
  | _ => 0#64

/-- Whether the wait at a queue of lanes that stand inside a clause outside the path is met: their instruction can issue (14:R340). -/
def State.queueMet (s : State) (x : Site) (core owner : Nat) (m : Mask) (k : Cursor) : Bool :=
  match (s.fetchInstr x core owner k.ip).1 with
  | .ok _ (.fate (.instr i _) _ _ _) =>
    (match env? i ((s.setCur (some x)).updCtx x fun c => { c with path := m, cur := some k }) with
     | none => false
     | some e => e.queuesSettled)
  | _ => true

/-- Whether a run-control query that a context issued is under way: no later instruction of it issues before that has completed (14:R345). -/
def State.querying (s : State) (x : Site) : Bool :=
  (s.opsOf x).vals.any fun o => match o.i with | .rcq .. => true | _ => false

/-- The stepped lanes that can run now, outside the path: the group of the lowest lane whose clause can begin or go on (07:R160,
14:R340, R345). -/
def State.stepGroup (s : State) (x : Site) : Option (Mask × Option Cursor) :=
  if s.querying x then none
  else match s.gang? x.gang with
  | none => none
  | some g => match g.ctx? x.access, g.core, s.launch? g.launch with
    | some c, some core, some l =>
      let able := c.lanes.keep fun n p => c.steps n p && !c.path.getLsbD n && g.selectable c n { p with pstep := false }
      let group (p : LaneSt) : Mask := maskOf (able.keep fun _ q => decide (q.pc = p.pc)).keys
      let ready (n : Nat) (p : LaneSt) : Bool := match c.joinMid n (group p) with
        | some k => !(able.any fun e => (group p).getLsbD e.1 && decide (e.2.ws = .queueWait)) || s.queueMet x core l.owner (group p) k
        | none => (match (s.fetchWord x core l.owner p.pc).1 with
          | .error _ => true
          | .ok w => match decodeHeader w with
            | .error _ => true
            | .ok h => s.headerReady x g { c with path := group p } core l.owner h p.pc)
      match able.find? fun e => ready e.1 e.2 with
      | none => none
      | some (n, p) => some (group p, c.joinMid n (group p))
    | _, _, _ => none

/-- DEFERRED_STEP_CLAUSE: at a clause boundary, or while the running path waits inside a clause (DEDUCED, log 100), stepped lanes that can run
become the path, ahead of the running path, which is set aside. -/
def execDeferredStepClause (gang : Nat) (access : Bool) (s : State) : Host.Outcome State Fault Refusal :=
  let x : Site := ⟨gang, access⟩
  match s.ctx? x, s.stepGroup x with
  | some c, some (m, k) =>
    if (c.cur.isSome ∧ (c.stroke.isSome ∨ !c.waitsInside)) ∨ !c.free ∨ c.aside.isSome then .next s
    else .next (s.updCtx x fun c => { c with path := m, cur := k, aside := some (c.path, c.cur), mid := c.mid.keep fun n _ => !m.getLsbD n })
  | _, _ => .next s

/-- Whether a trap of an instruction issued earlier is known: no clause begins before it (16:R384). -/
def State.trapAhead (s : State) (x : Site) (c : Ctx) : Bool :=
  ((s.opsOf x).vals.any fun o => !o.fails.isEmpty) || (!c.late.isEmpty && c.resume.isNone && decide (c.tcg = 0#32))

/-- A clause of vector work, one of class ALU in a compute context (DESIGN CHOICE, log 91), requests a current reservation of its cluster's arbiter
before it starts; its demand is 1 A (18:R429). -/
def State.requestClause (s : State) (x : Site) (g : Gang) (c : Ctx) (core : Nat) : State :=
  if c.vgrant.isSome then s
  else
    let (k, s) := s.freshId
    let s := (s.updCtx x fun c => { c with vgrant := some (k, false) }).arbRequest (clusterOf core) ⟨k, 1, g.holders.any c.path.getLsbD⟩
    s.setAgenda (.event (.currentReservationGrant (clusterOf core)) :: s.agenda)

/-- CLAUSE_BEGIN: at a clause position, checks the header and lets the clause's first instruction issue next once the waits
of the header hold (02:R39, R40) (DESIGN CHOICE, log 41). -/
def State.beginClause (s : State) (x : Site) : State :=
  let s := s.selectPath x
  match s.gang? x.gang with
  | none => s
  | some g => match g.ctx? x.access, g.core, s.launch? g.launch with
    | some c, some core, some l =>
      if !c.free ∨ c.cur.isSome ∨ s.trapAhead x c then s
      else if c.aside.isNone ∧ (s.stepGroup x).isSome then s.setAgenda (.event (.deferredStepClause x.gang x.access) :: s.agenda)
      else if !c.pathAble ∨ (s.frozen core g.launch ∧ !c.stepping) then s
      else if x.access ∧ g.orphansAtEnd ≠ 0#64 then s.setAgenda (.event (.accessContextEnd x.gang) :: s.agenda)
      else
        let pc := c.pathPc
        match s.fetchWord x core l.owner pc with
        | (.error f, s) => s.raise x (fetchTrap c f pc pc pc none)
        | (.ok w, s) => match s.headerCheck x g c l core w pc with
          | .error t => s.raise x t
          | .ok h => match headerParity c h with
            | some n => s.raise x (headerTrap c 13 2 c.path pc (BitVec.ofNat 17 (0x20 + n)) 0#32 0#32)
            | none =>
              if !s.headerReady x g c core l.owner h pc then
                if c.stepping then (s.updCtx x fun c => (c.leavePath c.path).stepBack).selectPath x else s
              else if h.cls = .alu ∧ !x.access ∧ c.vgrant.map (·.2) ≠ some true then s.requestClause x g c core
              else
                let s := (s.updGang x.gang fun g => g.openClause x h pc).pmEvent x.gang x.access 0x03 1
                s.setAgenda (.issue x.gang x.access :: s.agenda)
    | _, _, _ => s

/-- CLAUSE_BEGIN. -/
def execClauseBegin (gang : Nat) (access : Bool) (s : State) : Host.Outcome State Fault Refusal := .next (s.beginClause ⟨gang, access⟩)

/-! ### Issue -/

/-- What comes of an issue: a new state, or the execution of an instruction. -/
inductive Issue where
  | state (s : State)
  | exec (i : Instr) (s : State)

/-- The trap of words that are no instruction (02:R62, R63): INSN at the word at fault, or EMULATE. -/
def encodingTrap (e : Env) (ws : List Word) (r : Reason) (pos : Nat) (long : Bool) : TrapRec :=
  let atPfx := decide (r.code = 8 ∨ (9 ≤ r.code ∧ r.code ≤ 12))
  let t := e.trap 1 r.code e.full 0#17 (ws.getD pos 0#32) (if long then ws.getD (pos + 1) 0#32 else 0#32)
  { t with tra := e.cur.ip + BitVec.ofNat 64 (4 * pos), skip := if atPfx then none else t.skip }

/-- The environment of words that are no instruction: a placeholder instruction of their length, with their prefixes. -/
def wordEnv (s : State) (x : Site) (p : Pfx) (long : Bool) : Option Env :=
  env? (if long then .famset p ⟨0#2, 0#4⟩ (.v 0#6) else .not p (.v 0#6) ⟨.v 0#6, false⟩) (s.setCur (some x))

/-- EMULATE (16:R380): X holds LS and OP, the detail words the instruction's words. -/
def emulateTrap (e : Env) (ws : List Word) (pos : Nat) : TrapRec :=
  let w := ws.getD pos 0#32
  let long := decide (wordKind w = .long)
  e.trap 2 0 e.act ((w.extractLsb' 23 9).setWidth 17) w (if long then ws.getD (pos + 1) 0#32 else 0#32)

/-- Whether an opcode of an EMULATE range is a matrix-range opcode in a MIX clause of an access context (02:R56, R61). -/
def Env.matrixStream (e : Env) (ws : List Word) (pos : Nat) : Bool :=
  let w := ws.getD pos 0#32
  e.x.access && decide (e.cur.hdr.cls = .mix) && decide (wordKind w = .long) && decide (0x3C ≤ (w.extractLsb' 23 7).toNat ∧ (w.extractLsb' 23 7).toNat ≤ 0x3F)

/-- The issue pipe turns to a context: its clause begins, or its next instruction is fetched and executed. Words that are unassigned report the
reason of that alone, whatever prefixes stand before them: which of them such a form would accept is stated nowhere (02:R46, R63; DESIGN CHOICE,
log 119). -/
def State.issue (s : State) (x : Site) : Issue :=
  let s := s.selectPath x
  match s.gang? x.gang with
  | none => .state s
  | some g => match g.ctx? x.access, g.core, s.launch? g.launch with
    | some c, some core, some l =>
      if !c.free ∨ !c.pathAble then .state s
      else match c.cur with
        | none => .state (s.beginClause x)
        | some cur =>
          match s.fetchInstr x core l.owner cur.ip with
          | (.fault va f, s) =>
            .state (s.raise x (if cur.hdr.cap then fetchTrap c f va cur.ip cur.at_ none else fetchTrap c f va cur.ip cur.ip (some cur)))
          | (.ok ws r, s) => match r with
            | .more => .state s
            | .bad pos q => match wordEnv s x ⟨none, none⟩ false with
              | none => .state s
              | some e => .state (s.raise x (encodingTrap e ws q pos false))
            | .fate f p pos _ =>
              let long := decide (wordKind (ws.getD pos 0#32) = .long)
              match f with
              | .emulate => match wordEnv s x p long with
                | none => .state s
                | some e =>
                  if e.stroke ∧ e.holder.isSome then .state (s.raise x (e.strokeTrap 4))
                  else if e.matrixStream ws pos then .state (s.raise x (encodingTrap e ws .notInAccess pos long))
                  else if e.act = 0#64 then .state ((e.advance (e.issued s)).selectPath x)
                  else .state (s.raise x (emulateTrap e ws pos))
              | .unassigned k q => match wordEnv s x p long with
                | none => .state s
                | some e =>
                  let bad := !(decide (e.cur.hdr.cls = .mix) || decide (e.cur.hdr.cls = k))
                  .state (s.raise x (encodingTrap e ws (if bad then .classMismatch else q) pos long))
              | .instr i raw =>
                let s := s.setCur (some x)
                if raw.isEmpty then .exec i s
                else match env? i s with
                  | none => .state s
                  | some e => match Reason.lowest (raw ++ i.static e.stroke ++ e.dynamic) with
                    | none => .exec i s
                    | some q =>
                      if q.code < 20 ∨ !e.l.kern.poisonTrap then .state (s.raise x (encodingTrap e ws q pos long))
                      else if e.hazard s then .state s
                      else .state (s.raise x (encodingTrap e ws ((Reason.lowest (q :: e.poisonTrap)).getD q) pos long))
    | _, _, _ => .state s

end Sys2Proof.Machine
end

