-- ==== Sys2Proof/Machine/Capsule.lean ====
section
/-! DEFINITION. The capsule instructions and the commit of strokes (15:R349 to R370). -/

namespace Sys2Proof.Machine

/-! ### Displaced holders (15:R362, R364) -/

/-- A thread leaves its capsule: the ROLE of its link alone changes (15:R353, R362, R363). -/
def Link.leave (k : Link) : Link := { k with role := .none }

/-- Sets a bit of k7 in one lane of a compute context. -/
def State.setK7 (s : State) (g lane : Nat) (b : Bool) : State :=
  s.updGang g fun x => (Env.hashWrites x false [if b then 1#32 else 0#32]).updCtx false fun c =>
    let k := c.k.getD 7 0#64
    { c with k := c.k.putD 7 (if b then k ||| bit lane else k &&& ~~~bit lane) 0#64 }

/-- The holder's path continues at an address; a context without a path selects one at once (07:R151). -/
def State.holderTo (s : State) (g lane : Nat) (pc : DWord) : State :=
  ((s.updCtx ⟨g, false⟩ fun c => (c.setPc (c.withHolder lane) pc).wake (bit lane)).holderDone g lane).selectPath ⟨g, false⟩

/-- A displaced holder that has met its adoption: an adopter restarts its own `capo`, an owner with its delivery takes the exit, an
owner without waits for it. -/
def State.displaced (s : State) (g lane : Nat) : State :=
  match s.thread? g lane with
  | none => s
  | some t =>
    let k := t.link
    if k.role = .adopter then
      (s.updThread g lane fun t => { t with c := k.buf, link := t.link.leave }).holderTo g lane k.capa
    else if k.delivered then
      ((s.updThread g lane fun t => { t with c := k.buf, link := t.link.leave }).setK7 g lane true).holderTo g lane k.exit
    else s.updCtx ⟨g, false⟩ fun c => c.setWs (bit lane) .capsuleWait

/-- Delivery of a final checkpoint to a displaced owner (15:R364); an owner that waits for it goes on. -/
def State.deliver (s : State) (pa : Nat) (owner : DWord) (cp : List Word) : State :=
  match s.threadOf owner with
  | none => s
  | some (g, lane) => match s.thread? g lane with
    | none => s
    | some t =>
      if t.link.role ≠ .owner ∨ t.link.anc ≠ pa then s
      else
        let s := s.updThread g lane fun t => { t with link := { t.link with buf := cTable cp, delivered := true } }
        match s.claneSt g lane with
        | none => s
        | some l => if l.ws = .capsuleWait then s.displaced g lane else s

/-- A displaced owner that was stopped or evicted while it waited takes a delivery that has come (15:R362). -/
def State.deliveredBack (s : State) (g lane : Nat) : State :=
  match s.thread? g lane, s.claneSt g lane with
  | some t, some l => if t.link.role = .owner ∧ t.link.delivered ∧ l.ws = .capsuleWait then s.displaced g lane else s
  | _, _ => s

/-! ### Acts on an anchor (15:R358, R363, R366) -/

/-- Whether an anchor still matches the link of its runner. -/
def State.linkMatches (s : State) (g lane : Nat) (k : Link) : Bool :=
  let a := s.mem.anc0 k.anc
  decide ((k.role = .owner ∨ k.role = .adopter) ∧ (a.state = AncSt.live.code ∨ a.state = AncSt.adopted.code) ∧ a.epoch = k.epoch ∧
    a.stroke.toNat = k.stroke ∧ s.mem.ancWord k.anc 8 = s.idn g lane false)

/-- The record of a line as a release at dev scope by a lane. -/
def State.releaseLine (s : State) (g lane line : Nat) : State :=
  s.setMem (s.mem.setRel line ((s.mem.relOf line).write (s.writer g lane false) (some 3#3) false))

/-- Whether an act on an anchor has to wait, as a release at dev scope does: accesses of the context, or writes of others that its core's pair
buffers, are not performed at dev scope, an engine owns a line, or a line has an addition that was accepted and is to come (15:R352, R366)
(DEDUCED, log 67). -/
def State.actWaits (s : State) (x : Site) (lines : List Nat) : Bool :=
  Env.unperformed s x 3 s.nextId || ((s.coreOf x.gang).any fun k => s.pairBehind k 3 s.nextId) || lines.any s.lineOwned ||
    s.home.q.vals.any fun r => r.late.isSome && lines.contains (lineOf r.mt r.pa)

/-- HWERR at an anchor whose line is poisoned (08:R180, 15:R359). -/
def State.anchorPoison (s : State) (pa : Nat) : Bool := s.mem.poisoned 0#2 pa

/-- The line of an anchor. -/
def Link.line (k : Link) : Nat := lineOf 0#2 k.anc

/-- The close of an instance (15:R363). -/
def State.closeCapsule (s : State) (g lane : Nat) (k : Link) (next : DWord) : State :=
  match s.thread? g lane with
  | none => s
  | some t =>
    let s := s.setMem ((s.mem.updAnc0 k.anc fun a => { a with state := AncSt.done.code }).setCheckpoint k.anc t.cregs)
    let s := s.releaseLine g lane k.line
    let owner := s.mem.ancWord k.anc 1
    let s := if owner ≠ s.mem.ancWord k.anc 8 then s.deliver k.anc owner t.cregs else s
    let s := if k.role = .owner then ((s.updThread g lane fun t => { t with link := t.link.leave }).setK7 g lane false).holderTo g lane next
      else (s.updThread g lane fun t => { t with c := k.buf, link := t.link.leave }).holderTo g lane k.capa
    s.releaseAnchor k.anc

/-! ### `capo` (15:R349, R351, R369) -/

/-- Whether an anchor breaks 15:R351. -/
def State.badAnchor (s : State) (pa : Nat) : Bool :=
  let a := s.mem.anc0 pa
  let n := (s.home.fifo pa).length
  decide (4 < a.state.toNat ∨ 32 < a.stroke.toNat ∨ a.res ≠ 0#13) ||
  (decide (a.state = 0#8) &&
    (decide (s.mem.ancWord pa 8 ≠ 0#64) || ((List.range 6).any fun i => decide (s.mem.ancWord pa (10 + i) ≠ 0#64)) ||
     decide (a.wait ≠ decide (n ≠ 0) ∨ a.spill ≠ s.spillBit pa ∨ s.mem.ancWord pa 9 ≠ BitVec.ofNat 64 n)))

/-- CAPSULE at an anchor that a `capo` names (DEDUCED, log 68). -/
def Env.anchorTrap (e : Env) (reason lane : Nat) (va : DWord) : TrapRec :=
  let link := match e.g.threads.get? lane with | none => Link.zero | some t => t.link
  e.trapVa 9 reason (bit lane) (BitVec.ofNat 17 link.stroke) va

def execCapo (p : Pfx) (l : Lf) (a : Hs) (i : BitVec 15) (s : State) :=
  run (.capo p l a i) s fun e s =>
    match lowest e.act with
    | none => .done s
    | some n =>
      let va := e.pair 0 n
      let exit := e.w + 4#64 * i.signExtend 64
      if va.toNat % 128 ≠ 0 then .raise s (e.alignTrap .write 128 n va)
      else match s.xlat e.x e.core e.l.owner .write va with
        | (.error f, s) => .raise s (e.trapVa f.cause f.reason (bit n) (kindX .write f.level) va)
        | (.ok t, s) =>
          let pa := t.pa
          let line := lineOf 0#2 pa
          let role := match e.g.threads.get? n with | none => Role2.none | some t => t.link.role
          if !t.sh ∨ t.mt ≠ 0#2 then .raise s (e.anchorTrap 1 n va)
          else if role ≠ .none then .raise s (e.anchorTrap 3 n va)
          else if s.actWaits e.x [line] then .hold s
          else if s.anchorPoison pa then .raise s (e.trapVa 13 3 (bit n) 0#17 va)
          else if (s.onKey t.key pa).badAnchor pa then .raise s (e.anchorTrap 2 n va)
          else
            let s := s.onKey t.key pa
            let st := (s.mem.anc0 pa).state
            let ent := ancEnt (pa / 128)
            let more := decide (st ≠ AncSt.stalled.code) && (decide (st ≠ AncSt.free.code) || !s.home.lastAct.has ent)
            if more ∧ !s.roomFor ent (homeSlice pa true) then .raise s (e.trapVa 15 2 (bit n) 0#17 va)
            else
              let s := (e.settle s e.act true).spillEvent e.x.gang false ent (if more then 1 else 0)
              -- the lanes of the path stand after the clause; an adoption moves them to its resume address
              let s := s.updCtx e.x fun c => c.setPc c.path e.next
              if st = AncSt.free.code then
                .moved (e.closeClause (e.launchOp (s.acquire pa va e.x.gang n e.cur.at_ exit e.next) (bit n)) id id)
              else if st = AncSt.stalled.code then
                .moved (e.closeClause (e.launchOp (s.adopt pa va e.x.gang n e.cur.at_ exit) (bit n)) id id)
              else
                let s := (e.issueOp s (bit n) (bit n) .wait).2
                let s := s.updThread e.x.gang n fun u =>
                  { u with link := { u.link with role := .contender, anc := pa, key := t.key, va := va, capa := e.cur.at_, exit := exit } }
                let s := s.updCtx e.x fun c => c.updLane n fun l => { l with ws := .capsuleWait }
                let s := s.setHome { s.home with fifos := s.home.fifos.put pa (s.home.fifo pa ++ [⟨e.x.gang, n⟩]) }
                .moved (e.closeClause (s.ancTouch pa) id id)

/-! ### `capx` (15:R370) -/

def execCapx (p : Pfx) (l : Lf) (s : State) :=
  run (.capx p l) s fun e s =>
    match e.holder with
    | none => .done s
    | some h =>
      if !e.act.getLsbD h then .done s
      else match e.g.threads.get? h with
        | none => .done s
        | some t =>
          let k := t.link
          -- the lanes of the path stand after the clause; what comes of the capsule moves them
          let after (s : State) : State := s.updCtx e.x fun c => c.setPc c.path e.next
          if k.adopted then
            let wait := decide (k.role = .owner) && !k.delivered
            let s := (e.issueOp (after s) (bit h) (if wait then bit h else 0#64) (if wait then .wait else .none)).2
            .moved (e.closeClause (s.displaced e.x.gang h) id id)
          else if s.anchorPoison k.anc then .raise s (e.trapVa 13 3 (bit h) 0#17 k.va)
          else if !(s.onKey k.key k.anc).linkMatches e.x.gang h k then .raise s (e.capsuleTrap 2 h)
          else if s.actWaits e.x [k.line] then .hold s
          else
            let s := (s.onKey k.key k.anc).spillEvent e.x.gang false (ancEnt (k.anc / 128)) 0
            let s := e.launchOp (after s) (bit h)
            .moved (e.closeClause (s.closeCapsule e.x.gang h k e.next) id id)

/-! ### Commits (15:R358, R359, R362) -/

/-- A trap raised by a commit, CAPSULE or HWERR: recorded at the stroke's header, to which it returns. -/
def commitTrap (c : Ctx) (k : Stroke) (link : Link) (cause reason : Nat) (va : DWord) : TrapRec :=
  headerTrap c cause reason (bit k.lane) k.hdr (if cause = 9 then BitVec.ofNat 17 link.stroke else 0#17) (va.setWidth 32) (Env.vaD2 va)

/-- The scope of the releases of a commit: dev, or that of an earlier release fence if it is wider (10:R233, 15:R366). -/
def State.strokeScope (s : State) (x : Site) (lane : Nat) : BitVec 3 :=
  match s.relScope x lane s.nextId (some 3#3) with
  | none => 3#3
  | some a => BitVec.ofNat 3 (scopeOf a)

/-- A path goes on after its stroke. -/
def State.strokeOver (s : State) (x : Site) : State :=
  ((s.updCtx x fun c => { c with stroke := none }).stopStepped x id).selectPath x

/-- STROKE_COMMIT: once the stroke's instructions have completed and the context's accesses are performed at dev scope, its stores and its
checkpoint are committed as one act, or the stroke is rolled back with a trap; a displaced holder meets its adoption. -/
def execStrokeCommit (gang : Nat) (s : State) : Host.Outcome State Fault Refusal :=
  let x : Site := ⟨gang, false⟩
  match s.ctx? x with
  | none => .next s
  | some c => match c.stroke with
    | none => .next s
    | some k => match s.thread? gang k.lane with
      | none => .next (s.strokeOver x)
      | some t =>
        if c.cur.isSome ∨ c.pend.isSome ∨ !s.quiet x ∨ (s.coreOf gang).isNone then .next s
        else if t.link.adopted then .next ((s.displaced gang k.lane).strokeOver x)
        else if s.anchorPoison t.link.anc then .next (s.raise x (commitTrap c k t.link 13 3 t.link.va))
        else if !(s.onKey t.link.key t.link.anc).linkMatches gang k.lane t.link then .next (s.raise x (commitTrap c k t.link 9 2 t.link.va))
        else if t.link.stroke = 32 then .next (s.raise x (commitTrap c k t.link 9 7 t.link.va))
        else if s.actWaits x (t.link.line :: k.stores.map fun w => lineOf 0#2 w.1) then .next s
        else match k.stores.find? fun w => s.anchorAt 0#2 w.1 with
          | some (_, _, va) => .next (s.raise x (commitTrap c k t.link 9 10 va))
          | none =>
            let w := s.writer gang k.lane false
            let s := s.onKey t.link.key t.link.anc
            let m := k.stores.foldl (fun (m : MemSys) p => m.homeWrite none w (some (s.strokeScope x k.lane)) false 0#2 t.link.key p.1 p.2.1 true) s.mem
            let pa := t.link.anc
            let m := (m.setCheckpoint pa t.cregs).updAnc0 pa fun a => { a with stroke := a.stroke + 1#8 }
            let s := (s.setMem (m.setAncWord pa 2 c.pathPc)).releaseLine gang k.lane t.link.line
            let s := if k.stores.isEmpty then s else s.wrote x k.lane s.nextId
            let s := s.updThread gang k.lane fun t => { t with link := { t.link with stroke := t.link.stroke + 1 } }
            .next (((s.strokeOver x).spillEvent gang false (ancEnt (pa / 128)) 0).ancTouch pa)

end Sys2Proof.Machine
end

