-- ==== Sys2Proof/Machine/Items.lean ====
section
/-! DEFINITION. Dunes as data: lineages, items, spill rings, readiness, enqueue and take (13:R299 to R311). -/

namespace Sys2Proof.Machine

/-! ### Lineages (13:R301) -/

/-- DEPTH. -/
def linDepth (l : BitVec 96) : Nat := (l.extractLsb' 67 3).toNat
/-- ROOT and the components below DEPTH, in order of comparison. -/
def linKey (l : BitVec 96) : List Nat :=
  (l.extractLsb' 70 26).toNat :: (List.range (min 5 (linDepth l))).map fun i => (l.extractLsb' (52 - 13 * i) 13).toNat

/-- Whether a lineage sorts before another: the first difference decides, and a proper prefix sorts first. -/
def linLess : List Nat → List Nat → Bool
  | [], [] => false
  | [], _ :: _ => true
  | _ :: _, [] => false
  | x :: xs, y :: ys => decide (x < y) || (decide (x = y) && linLess xs ys)

/-- Whether a lineage is a prefix of another. -/
def linPrefix (a b : List Nat) : Bool := decide (b.take a.length = a)

/-- A lineage extended by one component. Outside ordered mode, a sixth component or a count above 8,191 records DEPTH 5 and
the low 13 bits (DEDUCED, log 38). -/
def linExtend (l : BitVec 96) (n : Nat) : BitVec 96 :=
  let d := linDepth l
  let i := min d 4
  let depth := if n ≤ 8191 then min (d + 1) 5 else 5
  let keep := l &&& ~~~(BitVec.ofNat 96 (7 * 2 ^ 67)) &&& ~~~(BitVec.ofNat 96 (0x1FFF * 2 ^ (52 - 13 * i)))
  keep ||| BitVec.ofNat 96 (depth * 2 ^ 67) ||| BitVec.ofNat 96 ((n % 8192) * 2 ^ (52 - 13 * i))

/-- The lineage of a thread of a launch record: ROOT its team, DEPTH 1, C0 its GRP, GANG and LANE. -/
def linRoot (team grp num lane : Nat) : BitVec 96 :=
  BitVec.ofNat 96 (team * 2 ^ 70 + 2 ^ 67 + (grp * 1024 + num * 64 + lane) * 2 ^ 52)

/-! ### Items and configuration (13:R300, R302) -/

/-- The 64 bytes of an item. -/
def Item.bytes (x : Item) : List Byte :=
  leBytes 8 x.entry.toNat ++ leBytes 4 x.key.toNat ++ leBytes 4 x.fam.toNat ++ leBytes 12 x.lin.toNat ++
  leBytes 4 x.tick.toNat ++ wordBytes (x.w.take 8)

/-- An item read from a ring entry; its serial is kept beside the ring. -/
def Item.ofBytes (bs : List Byte) (serial : Nat) : Item :=
  { entry := BitVec.ofNat 64 (leNat (bs.take 8)), key := BitVec.ofNat 32 (leNat ((bs.drop 8).take 4))
    fam := BitVec.ofNat 32 (leNat ((bs.drop 12).take 4)), lin := BitVec.ofNat 96 (leNat ((bs.drop 16).take 12)),
    tick := BitVec.ofNat 32 (leNat ((bs.drop 28).take 4)), w := bytesWords 8 (bs.drop 32), serial := serial }

def Dune.drift (d : Dune) : Nat := (d.cfg.extractLsb' 40 24).toNat
def Dune.home (d : Dune) : Nat := (d.cfg.extractLsb' 11 5).toNat
def Dune.spread (d : Dune) : Bool := d.cfg.getLsbD 10
def Dune.cls (d : Dune) : Nat := (d.cfg.extractLsb' 8 2).toNat
def Dune.crest (d : Dune) : Nat := (d.cfg.extractLsb' 0 7).toNat
/-- Entries of the ring: 2^N, none with N 0 (13:R320). -/
def Dune.ringCap (d : Dune) : Nat :=
  let n := (d.ring.extractLsb' 0 5).toNat
  if n = 0 then 0 else 2 ^ n
/-- The sequence of a dune as it was accepted (13:R304): readiness and order go by it; what leaves is what its ring entry then holds. -/
def Dune.items (d : Dune) : List Item := d.store ++ d.ringed
/-- Items in store and ring. -/
def Dune.count (d : Dune) : Nat := d.items.length

/-- The configuration of a new dune (13:R302). -/
def duneConfig (cluster prio width : Nat) : DWord := BitVec.ofNat 64 (2048 * 2 ^ 40 + cluster * 2 ^ 11 + prio * 2 ^ 8 + width)

/-- A dune without items. -/
def Dune.fresh (entry : DWord) (key : Word) (cfg : DWord) : Dune :=
  { entry := entry, key := key, cfg := cfg, ring := 0#64, store := [], ringPos := 0, ringed := [], covered := [],
    mark := none, nextSerial := 0, ringFault := none }

/-! ### Accesses of the dispatcher (01:R19, 13:R304): translated as a launch's, without a core -/

/-- A translation for the dispatcher: the walk, with its update of A and D, and no TLB fill. -/
def MemSys.dispXlat (m : MemSys) (owner : Nat) (kind : AccKind) (va : DWord) : Except XFault Xlat × MemSys :=
  if !canonical va then (.error ⟨3, 1, 0, 4096⟩, m)
  else match m.owners.get? owner with
    | none => (.error ⟨3, 2, 1, 4096⟩, m)
    | some o =>
      let (r, n) := m.pageWalk 0 owner o kind false va
      (r, { n with tlb := m.tlb, ctlb := m.ctlb })

/-- Reads bytes that lie in one page for the dispatcher. -/
def MemSys.dispRead (m : MemSys) (owner : Nat) (va : DWord) (n : Nat) : Except XFault (List Byte) :=
  match (m.dispXlat owner .read va).1 with
  | .error f => .error f
  | .ok x => .ok (m.readBytes x.mt x.key x.pa n)

/-- Address of the ring entry at a position (13:R304). -/
def Dune.ringVa (d : Dune) (i : Nat) : DWord :=
  (d.ring &&& ~~~0xFFF#64) + BitVec.ofNat 64 (64 * (i % d.ringCap))

/-- The fault of a ring page, at an address, as it is delegated: no lane and no instruction raise it (13:R304). -/
def ringTrap (kind : AccKind) (f : XFault) (va : DWord) : TrapRec :=
  { cause := f.cause, reason := f.reason, tok := false, x := kindX kind f.level, d1 := va.extractLsb' 0 32, d2 := va.extractLsb' 32 32
    tra := 0#64, lanes := 0#64, ret := 0#64, cur := none, skip := none, skipCur := none, resume := none, ports := [], act := 0#64, page := f.page }

/-- What the ring's entries hold from a position on, for the items that were accepted there. -/
def MemSys.ringRead (m : MemSys) (owner : Nat) (d : Dune) : Nat → List Item → Except TrapRec (List Item)
  | _, [] => .ok []
  | i, x :: xs =>
    match m.dispRead owner (d.ringVa i) 64 with
    | .error f => .error (ringTrap .read f (d.ringVa i))
    | .ok bs => match m.ringRead owner d (i + 1) xs with
      | .error t => .error t
      | .ok r => .ok (Item.ofBytes bs x.serial :: r)

/-- The first items of a dune, as store and ring hold them. -/
def MemSys.headItems (m : MemSys) (owner : Nat) (d : Dune) (n : Nat) : Except TrapRec (List Item) :=
  match m.ringRead owner d d.ringPos (d.ringed.take (n - d.store.length)) with
  | .error t => .error t
  | .ok r => .ok (d.store.take n ++ r)

/-- Writes items to consecutive ring entries. -/
def MemSys.ringPuts (m : MemSys) (owner : Nat) (d : Dune) : Nat → List Item → Except TrapRec MemSys
  | _, [] => .ok m
  | i, x :: xs => match m.dispXlat owner .write (d.ringVa i) with
    | (.error f, _) => .error (ringTrap .write f (d.ringVa i))
    | (.ok t, m) => (m.homeWrite none Writer.resident none false t.mt t.key t.pa x.bytes).ringPuts owner d (i + 1) xs

/-! ### Slots (13:R299, R304, 01:R21) -/

/-- Slots of a cluster's dune store that are neither reserved nor hold items. -/
def State.freeSlots (s : State) (cluster : Nat) : Nat :=
  8192 - (s.launches.tab.map fun e =>
    (if e.2.roots.has cluster then 64 else 0) +
    ((e.2.dunes.keep fun _ d => decide (d.home = cluster)).vals.map fun d => d.store.length).sum).sum

/-- Changes a dune. -/
def State.updDune (s : State) (l d : Nat) (f : Dune → Dune) : State :=
  s.updLaunch l fun x => { x with dunes := x.dunes.upd d f }

/-- A dune of a launch. -/
def State.dune? (s : State) (l d : Nat) : Option Dune :=
  match s.launch? l with
  | none => none
  | some x => x.dunes.get? d

/-- The number of the dune of an entry and a key. -/
def Launch.findDune (l : Launch) (entry : DWord) (key : Word) : Option Nat :=
  ((l.dunes.keep fun _ d => decide (d.entry = entry ∧ d.key = key)).keys).head?

/-- A ring page has failed: its fault, once, is delegated to the resident cores, or waits for room in their queue (13:R304, 16:R401)
(DEDUCED, log 60). -/
def State.ringFails (s : State) (l d : Nat) (t : TrapRec) : State :=
  if (s.dune? l d).any fun u => u.ringFault.isSome then s else
  let s := s.updDune l d fun u => { u with ringFault := some t }
  match s.launch? l with
  | none => s
  | some w => if s.delegRoom then s.postDeleg (.ring l w.seq d) (identity l 0 0 0 0 false) t 0#32 true false 0#64 else s

/-- Delegations of the fault of a dune's ring that are not yet resolved. -/
def State.ringDelegs (s : State) (launch dune : Nat) : List Nat :=
  (s.ctl.delegs.keep fun _ d => match d.src with
    | .ring l seq u => decide (l = launch ∧ u = dune) && (s.launch? launch).any fun w => decide (w.seq = seq)
    | .context _ => false).keys

/-- A place in a sequence in lineage order, after items of equal lineage. -/
def placeOf (x : Item) : List Item → Nat
  | [] => 0
  | y :: ys => if linLess (linKey x.lin) (linKey y.lin) then 0 else placeOf x ys + 1

/-- A list with an item put in at a place. -/
def insertAt {α : Type} (n : Nat) (x : α) (xs : List α) : List α := xs.take n ++ x :: xs.drop n

/-- What comes of placing an item. -/
inductive Placed where
  | ok (s : State)
  /-- DUNE reason 1 -/
  | full
  /-- a ring page fails: the enqueue waits -/
  | fault (t : TrapRec)

/-- Places an item (13:R304): in the store while the ring is empty and a slot is free, else in the ring. In ordered mode the sequence is in
lineage order: items after it move up by one place, the last of the store into the ring. -/
def State.placeItem (s : State) (l d : Nat) (x : Item) : Placed :=
  match s.launch? l, s.dune? l d with
  | some w, some u =>
    let x := { x with serial := u.nextSerial }
    let at_ := if w.ordered then placeOf x u.items else u.count
    match u.ringFault with
    | some t => .fault t
    | none =>
      let n := u.store.length
      if u.ringed.isEmpty ∧ 0 < s.freeSlots u.home then
        .ok (s.updDune l d fun u => { u with store := insertAt at_ x u.store, nextSerial := u.nextSerial + 1 })
      else if u.ringCap ≤ u.ringed.length then .full
      else
        -- the ring's entries from the first that changes: what they hold moves up
        let k := at_ - n
        match s.mem.ringRead w.owner u (u.ringPos + k) (u.ringed.drop k) with
        | .error t => .fault t
        | .ok old =>
          let new := if at_ < n then (u.store.drop (n - 1)) ++ old else x :: old
          match s.mem.ringPuts w.owner u (u.ringPos + k) new with
          | .error t => .fault t
          | .ok m =>
            let xs := insertAt at_ x u.items
            .ok ((s.setMem m).updDune l d fun u =>
              { u with store := xs.take n, ringed := xs.drop n, nextSerial := u.nextSerial + 1 })
  | _, _ => .full

/-- Removes the first `n` items of a dune. -/
def Dune.dropHead (u : Dune) (n : Nat) : Dune :=
  let k := n - u.store.length
  let gone := (u.items.take n).map (·.serial)
  { u with store := u.store.drop n, ringPos := u.ringPos + min k u.ringed.length, ringed := u.ringed.drop k
           covered := u.covered.filter fun c => !gone.contains c }

/-! ### Readiness and ordered mode (13:R305, R310) -/

/-- Lineages of pending items and threads of a launch outside a dune; `skip` names lanes of a gang whose FINISHED items are left out. -/
def State.pendingLins (s : State) (l : Nat) (w : Launch) (d : Nat) (skip : Nat → Nat → Bool) : List (List Nat) :=
  let inDunes := (w.dunes.filter fun e => decide (e.1 ≠ d)).map fun e => e.2.items.map fun x => linKey x.lin
  let held := (s.gangs.filter fun e => decide (e.2.launch = l)).map fun e =>
    ((e.2.threads.keep fun n t => !(skip e.1 n && decide (t.item = .finished)) && t.item.inMask).vals).map fun t => linKey t.lin
  let teams := (w.roots.map fun e => (e.2.items.map (·.1) ++ (if e.2.cursor < w.teams then [e.2.cursor] else [])).map fun t => [t])
  inDunes.flatten ++ held.flatten ++ teams.flatten

/-- Whether an item may leave its dune in ordered mode: every pending item that sorts before it is a prefix of it. -/
def State.itemPasses (s : State) (l : Nat) (w : Launch) (d : Nat) (skip : Nat → Nat → Bool) (x : Item) : Bool :=
  (s.pendingLins l w d skip).all fun p => !linLess p (linKey x.lin) || linPrefix p (linKey x.lin)

/-- Age of an item (13:R305). -/
def State.itemAge (s : State) (u : Dune) (x : Item) : Nat := ((BitVec.ofNat 32 (s.tick u.home)) - x.tick).toNat

/-- Whether the final drain under way, or a drain mark, covers an item (13:R305, R319) (DEDUCED, log 32). -/
def Launch.covers (w : Launch) (d : Nat) (u : Dune) (x : Item) : Bool :=
  u.covered.contains x.serial ||
  (match u.mark with | none => false | some m => w.ordered && linLess (linKey x.lin) m) ||
  (w.finalDrain.getD d []).contains x.serial

/-- Whether the launch is in its final drain: it lasts until the items that began it have left (13:R305). -/
def Launch.draining (w : Launch) : Bool :=
  w.dunes.any fun e => e.2.items.any fun x => (w.finalDrain.getD e.1 []).contains x.serial

/-- The number of items that a firing of a dune takes. In ordered mode none before the last of them may leave; in the final drain the
most that may (DEDUCED, log 32). -/
def State.batchSize (s : State) (l : Nat) (w : Launch) (d : Nat) (u : Dune) : Nat :=
  let n := min u.count w.kern.width
  let ok (k : Nat) : Bool := match u.items[k - 1]? with
    | none => false
    | some x => s.itemPasses l w d (fun _ _ => false) x
  if !w.ordered ∨ ok n then n
  else if !w.draining then 0
  else (((List.range n).map fun k => n - k).find? ok).getD 0

/-- READY of a dune (13:R305, R310). -/
def State.duneReady (s : State) (l : Nat) (w : Launch) (d : Nat) (u : Dune) : Bool :=
  match u.items with
  | [] => false
  | x :: _ =>
    (decide (u.crest ≤ u.count) || (decide (u.drift ≠ 0) && !w.ordered && decide (u.drift ≤ s.itemAge u x)) || w.covers d u x || w.draining) &&
    decide (s.batchSize l w d u ≠ 0) && w.ended.isNone

/-- The age test of STARVING. -/
def State.duneAged (s : State) (l : Nat) (w : Launch) (d : Nat) (u : Dune) : Bool :=
  match u.items with
  | [] => false
  | x :: _ => s.duneReady l w d u && decide (u.drift ≠ 0) && !w.ordered && decide (2 * u.drift < s.itemAge u x)

/-- Whether the dune ranks as starving (13:R305, R306, R319): by its age, its drain mark, or the final drain. -/
def State.duneStarving (s : State) (l : Nat) (w : Launch) (d : Nat) (u : Dune) : Bool :=
  s.duneAged l w d u || w.draining || u.items.any (w.covers d u)

/-! ### Takes (13:R308, R311) -/

/-- Forgets the lineage mark of a dune once no item under it is left (13:R319). -/
def State.unmark (s : State) (l d : Nat) : State :=
  match s.launch? l, s.dune? l d with
  | some w, some u => match u.mark with
    | none => s
    | some m =>
      if w.ordered ∧ u.items.any (fun x => linLess (linKey x.lin) m) then s else s.updDune l d fun u => { u with mark := none }
  | _, _ => s

/-- The key and the payload of an item, v0 to v8 as far as the kernel declares them. -/
def Item.words (x : Item) (vregs : Nat) : List Word := (x.key :: x.w.take 8).take vregs

/-- Delivers an item to a lane. -/
def Ctx.deliverItem (c : Ctx) (vregs lane : Nat) (x : Item) : Ctx :=
  { c with v := (x.words vregs).zipIdx.foldl (fun t p => t.put (64 * p.2 + lane) ⟨p.1, false, false⟩) c.v }

/-- What lanes of a gang take. -/
inductive Take where
  /-- the items of the first of the lanes -/
  | items (xs : List Item) (s : State)
  /-- a ring page fails: the take waits for it -/
  | fault (launch dune : Nat) (t : TrapRec)

/-- The number of items that lanes take from the head of a dune. In ordered mode the last of them may leave its dune; the FINISHED items of
the lanes that are filled are left out of that test (13:R310) (DEDUCED, log 59). -/
def State.takeSize (s : State) (g l : Nat) (w : Launch) (d : Nat) (u : Dune) (lanes : List Nat) : Nat :=
  let n := min u.count lanes.length
  let ok (k : Nat) : Bool := match u.items[k - 1]? with
    | none => false
    | some x => s.itemPasses l w d (fun h n => decide (h = g) && (lanes.take k).contains n) x
  if !w.ordered then n else (((List.range n).map fun k => n - k).find? ok).getD 0

/-- Takes of lanes of a gang from its source dune, in one act (13:R311): each lane filled becomes LIVE with its item. -/
def State.takeItems (s : State) (g : Nat) (lanes : List Nat) : Take :=
  match s.gang? g with
  | none => .items [] s
  | some x => match x.dune, s.launch? x.launch with
    | some d, some w => match w.dunes.get? d with
      | none => .items [] s
      | some u =>
        let n := s.takeSize g x.launch w d u lanes
        match s.mem.headItems w.owner u n with
        | .error t => .fault x.launch d t
        | .ok xs =>
          let s := (s.updDune x.launch d fun u => u.dropHead n).unmark x.launch d
          .items xs ((xs.zip lanes).foldl (fun s p =>
            (s.updThread g p.2 fun t => { t with lin := p.1.lin, cnt := 0, item := .live }).updGang g fun q =>
              (Env.hashWrites q false (p.1.words w.kern.vregs)).updCtx false fun c => c.deliverItem w.kern.vregs p.2 p.1) s)
    | _, _ => .items [] s

end Sys2Proof.Machine
end

