-- ==== Sys2Proof/Machine/Control.lean ====
section
/-! DEFINITION. Transfers, the end of lanes, rejoin masks, waits (07:R148 to R165) and the spin detector (01:R31). -/

namespace Sys2Proof.Machine

/-! ### The spin detector (01:R31) -/

/-- A detector that starts to watch a branch. -/
def Spin.start (w t : DWord) : Spin := ⟨w, t, 0#64, none, 0, [], [], false⟩

/-- One more iteration of the branch watched: its hash against the one before; lines are recorded anew. -/
def Spin.iterate (p : Spin) : Spin :=
  let n := if p.last = some p.hash then p.same + 1 else 1
  { p with hash := 0#64, last := some p.hash, same := n, lines := [], prev := p.lines, spinning := p.spinning && decide (p.last = some p.hash) }

/-- Whether a transfer is a branch, which alone arms the detector. -/
def isBranch : Instr → Bool
  | .br .. | .bk .. | .bs .. => true
  | _ => false
/-- Whether a transfer is a call: a loop that calls is not left by it. -/
def isCall : Instr → Bool
  | .call .. => true
  | .jmpr _ link _ => link.isSome
  | _ => false

/-- A transfer of a compute context meets the detector, which watches that context alone (DEDUCED, log 97): a taken backward branch arms it or
ends an iteration, and from the eighth like iteration on the gang is demoted next. A transfer other than a call that stands in the loop and goes
out of it, or the branch where it is not taken, leaves the loop and ends the watch (DEDUCED, log 96). -/
def Env.spin (e : Env) (s : State) (target : Option DWord) : State :=
  if e.x.access then s
  else
    let near (t : DWord) : Bool := isBranch e.i && decide ((e.w - t).toNat ≤ 128 ∧ e.w ≠ t)
    let inside (p : Spin) (a : DWord) : Bool := decide ((a - p.tgt).toNat ≤ (p.at_ - p.tgt).toNat)
    match target with
    | some t =>
      if near t then
        match e.g.spin with
        | some p =>
          if p.at_ = e.w ∧ p.tgt = t then
            let q := p.iterate
            let s := s.updGang e.x.gang fun g => { g with spin := some q }
            if 8 ≤ q.same ∧ !q.spinning ∧ e.g.holder?.isNone then s.setAgenda (.event (.spinDemotion e.x.gang) :: s.agenda) else s
          else s.updGang e.x.gang fun g => { g with spin := some (Spin.start e.w t) }
        | none => s.updGang e.x.gang fun g => { g with spin := some (Spin.start e.w t) }
      else match e.g.spin with
        | some p => if isCall e.i ∨ !inside p e.w ∨ inside p t then s else s.updGang e.x.gang fun g => { g with spin := none }
        | none => s
    | none => match e.g.spin with
      | some p => if p.at_ = e.w then s.updGang e.x.gang fun g => { g with spin := none } else s
      | none => s

/-! ### Transfers (07:R153) -/

/-- Lanes of a list on the page of the lowest (DEDUCED, log 44). -/
def samePage (va : Nat → DWord) : List Nat → List Nat
  | [] => []
  | n :: ns => n :: ns.filter fun k => decide ((va k).toNat / 4096 = (va n).toNat / 4096)

/-- A transfer: lanes that go continue at their targets, the others after the instruction; a bad target raises in its lanes
and changes nothing. `link` receives the address after the instruction; `event` counts it where it goes (17:R404). -/
def Env.transfer (e : Env) (s : State) (t : Nat → DWord) (go : Nat → Bool) (link : Option Opnd) (event : Nat := 0) : Res :=
  let gone := e.lanes.filter go
  let odd := gone.filter fun n => decide ((t n).toNat % 4 ≠ 0)
  let far := gone.filter fun n => !canonical (t n)
  match odd, far with
  | n :: _, _ => .raise s (e.trapVa 5 2 (maskOf odd) (0b10#2 ++ 2#3 ++ 0#12) (t n))
  | [], n :: _ => .raise s (e.trapVa 3 1 (maskOf (samePage t far)) (0b10#2 ++ 0#15) (t n))
  | [], [] =>
    let s := e.settle (if event = 0 then s else s.pmEvent e.x.gang e.x.access event 1) e.act true
    let s := match link with
      | none => s
      | some d => s.writeReg e.x d 2 e.lanes e.nib fun _ => dwords e.next
    let s := e.spin s (gone.head?.map t)
    let pcOf (n : Nat) : DWord := if gone.contains n then t n else e.next
    let stay : DWord := match e.nib with
      | none => e.next
      | some n => pcOf n
    .moved (e.closeClause s
      (fun c => { (c.setPc c.path 0#64) with lanes := c.lanes.mapVal fun n l => if c.path.getLsbD n then { l with pc := pcOf n } else l })
      (fun c => c.leavePath (c.laneMask fun n l => c.path.getLsbD n && decide (l.pc ≠ stay))))

/-- The target of a displacement, in words from the instruction word. -/
def Env.disp (e : Env) (i : BitVec 8) : DWord := e.w + 4#64 * Env.immOf e.i.pfx 8 i

def execBr (p : Pfx) (i : BitVec 8) (s : State) := run (.br p i) s fun e s => e.transfer s (fun _ => e.disp i) (fun _ => true) none

/-- The choice of `bk`: lane by lane, any or all. -/
def bkGo (m : BitVec 3) (yes act : Mask) (n : Nat) : Bool :=
  match m.toNat with
  | 0 => yes.getLsbD n
  | 1 => decide (yes ≠ 0#64)
  | _ => decide (yes = act)

def execBk (p : Pfx) (m : BitVec 3) (x : Bool) (n : BitVec 3) (i : BitVec 8) (s : State) :=
  run (.bk p m x n i) s fun e s =>
    let yes := maskOf (e.lanes.filter (e.selTest x n))
    e.transfer s (fun _ => e.disp i) (bkGo m yes e.act) none

/-- The conditions of `bs` against zero (07:R149). -/
def bsCond (c : BitVec 3) (x : Int) : Bool :=
  match c.toNat with
  | 0 => decide (x = 0) | 1 => decide (x ≠ 0) | 2 => decide (x < 0) | 3 => decide (x ≥ 0) | 4 => decide (x > 0)
  | _ => decide (x ≤ 0)

def execBs (p : Pfx) (c : BitVec 3) (a : S1) (i : BitVec 8) (s : State) :=
  run (.bs p c a i) s fun e s => e.transfer s (fun _ => e.disp i) (fun n => bsCond c (e.word 0 n).toInt) none

def execCall (p : Pfx) (d : Opnd) (i : BitVec 8) (s : State) :=
  run (.call p d i) s fun e s => e.transfer s (fun _ => e.disp i) (fun _ => true) (some d)

def execRet (p : Pfx) (a : S1) (s : State) :=
  run (.ret p a) s fun e s => e.transfer s (e.pair 0) (fun _ => true) none 0x05

def execJmpr (p : Pfx) (link : Option Opnd) (a : S1) (s : State) :=
  run (.jmpr p link a) s fun e s => e.transfer s (e.pair 0) (fun _ => true) link 0x06

/-! ### Ending lanes (07:R155, 13:R311, 16:R440) -/

/-- What one lane's `exit` comes to. -/
inductive Leaves where
  | go (s : State)
  /-- its take waits for a ring page -/
  | fault (launch dune : Nat) (t : TrapRec)

/-- A lane exits. Where its gang takes items it makes one take first: with an item it restarts at the item's ENTRY, ready and pending (13:R311).
One that exits in a trap handler leaves the trap frame, as it does not return (16:R388) (DEDUCED, log 18). -/
def Env.exitLane (e : Env) (s : State) (lane : Nat) : Leaves :=
  let ends := Leaves.go (s.endLanes e.x.gang e.x.access (bit lane))
  let takes := !e.x.access && (s.thread? e.x.gang lane).any fun t => decide (t.item ≠ .no)
  if !takes then ends
  else match s.takeItems e.x.gang [lane] with
    | .fault l d t => .fault l d t
    | .items [] _ => ends
    | .items (it :: _) s => .go (s.updCtx ⟨e.x.gang, false⟩ fun c =>
        let c : Ctx := { c with frame := c.frame.map fun (f : Frame) => ({ f with path := f.path &&& ~~~bit lane } : Frame) }
        let c := ((c.updLanes (bit lane) fun l => { l with held := none }).strike (bit lane) false).leavePath (bit lane)
        (c.setPc (bit lane) it.entry).wake (bit lane))

/-- Lanes exit one after another. -/
def Env.exitLanes (e : Env) : List Nat → State → Leaves
  | [], s => .go s
  | n :: ns, s => match e.exitLane s n with
    | .go s => e.exitLanes ns s
    | .fault l d t => .fault l d t

/-- Ends the active lanes; where a take waits for a ring page, the whole instruction waits. -/
def Env.leave (e : Env) (s : State) : Res :=
  match e.exitLanes e.lanes s with
  | .fault l d t => .hold (s.ringFails l d t)
  | .go u => .moved ((e.closeClause u (fun c => c.setPc c.path e.next) id).endTrapByExit e.x |>.tryRetire e.x.gang)

def execExit (p : Pfx) (s : State) :=
  run (.exit p) s fun e s =>
    match e.holder with
    | some h => if e.act.getLsbD h then .raise s (e.capsuleTrap 9 h) else e.leave s
    | none => e.leave s

/-! ### Rejoin masks (07:R156, R157) -/

def execEnrol (p : Pfx) (n : BitVec 3) (s : State) :=
  run (.enrol p n) s fun e s => .done (s.updCtx e.x fun c => { c with j := c.j.putD n.toNat (c.jmask n.toNat ||| e.act) 0#64 })

def execStrike (p : Pfx) (n : BitVec 3) (s : State) :=
  run (.strike p n) s fun e s => .done (s.updCtx e.x fun c =>
    { c with j := c.j.putD n.toNat (c.jmask n.toNat &&& ~~~e.act) 0#64 }.testRejoin n.toNat)

/-- `park`: enrolled lanes are held at the clause position after it, the others pass, and the path ends. -/
def execPark (p : Pfx) (n : BitVec 3) (s : State) :=
  run (.park p n) s fun e s =>
    .moved (e.closeClause s
      (fun c =>
        let on := e.act &&& c.jmask n.toNat
        (c.setPc c.path e.next).updLanes on fun l => { l with ws := .parked, held := some n })
      (fun c => (c.endPath).testRejoin n.toNat))

/-! ### Waits (07:R163, R164) -/

/-- `yield`: the gang goes to the back of the round-robin order of its level (01:R29). -/
def execYld (p : Pfx) (s : State) := run (.yld p) s fun e s => .done (s.goLast e.pipe (e.g.level e.x.access) e.x.gang)

def execNop (p : Pfx) (s : State) := run (.nop p) s fun _ s => .done s

/-- Whether the conditions that `wait` selects hold; the wait for all earlier instructions is `Env.waitsAll`. -/
def Env.waitMet (e : Env) (s : State) (fence : Bool) (sb : BitVec 4) : Bool :=
  ((List.range 4).all fun k => !sb.getLsbD k || decide (e.c.sbOf k = 0)) &&
  (!fence || (s.opsOf e.x).vals.all fun o => match o.data with | .fence .. => false | _ => true)

def execWait (p : Pfx) (all fence : Bool) (sb : BitVec 4) (s : State) :=
  run (.wait p all fence sb) s fun e s => if e.waitMet s fence sb then .done s else .hold s

end Sys2Proof.Machine
end

