-- ==== Sys2Proof/Machine/IntAlu.lean ====
section
/-! DEFINITION. Integer, logic, bit-field, compare, select and move instructions (05:R111 to R120, R124 to R126). -/

namespace Sys2Proof.Machine

/-- A word read as `.i32` or `.n32`. -/
def asInt (u : Bool) (w : Word) : Int := if u then w.toNat else w.toInt

/-- One of R111's instructions with a clamp: `f` gives the exact result. -/
def Env.arith (e : Env) (s : State) (u sat : Bool) (b : RI) (f : Int → Int → Int) : Res :=
  e.alu s fun n =>
    let r := intDeliver sat (!u) 32 (f (asInt u (e.word 0 n)) (asInt u (e.ri b 1 n)))
    ([wrap32 r.1], r.2)

/-- The addend of `mad`, `madhi`, `dot4`, `bfi`, `ffma`: D read as a source, the last use. -/
def Env.addend (e : Env) (n : Nat) : Word := e.word (e.uses.length - 1) n

def execAdd (p : Pfx) (u : Bool) (d : Opnd) (a : S1) (b : RI) (s : State) :=
  run (.add p u d a b) s fun e s => e.arith s u e.sat b fun x y => x + y
def execSub (p : Pfx) (u : Bool) (d : Opnd) (a : S1) (b : RI) (s : State) :=
  run (.sub p u d a b) s fun e s => e.arith s u e.sat b fun x y => x - y
def execMul (p : Pfx) (u : Bool) (d : Opnd) (a : S1) (b : RI) (s : State) :=
  run (.mul p u d a b) s fun e s => e.arith s u e.sat b fun x y => x * y
def execMulhi (p : Pfx) (u : Bool) (d : Opnd) (a : S1) (b : RI) (s : State) :=
  run (.mulhi p u d a b) s fun e s => e.arith s u false b fun x y => x * y / 2 ^ 32
def execMad (p : Pfx) (u : Bool) (d : Opnd) (a : S1) (b : RI) (s : State) :=
  run (.mad p u d a b) s fun e s => e.alu s fun n =>
    let r := intDeliver e.sat (!u) 32 (asInt u (e.word 0 n) * asInt u (e.ri b 1 n) + asInt u (e.addend n))
    ([wrap32 r.1], r.2)
def execMadhi (p : Pfx) (u : Bool) (d : Opnd) (a : S1) (b : RI) (s : State) :=
  run (.madhi p u d a b) s fun e s => e.alu1 s fun n =>
    wrap32 ((asInt u (e.word 0 n) * asInt u (e.ri b 1 n) + asInt u (e.addend n)) / 2 ^ 32)
def execMin (p : Pfx) (u : Bool) (d : Opnd) (a : S1) (b : RI) (s : State) :=
  run (.min p u d a b) s fun e s => e.arith s u false b fun x y => if x ≤ y then x else y
def execMax (p : Pfx) (u : Bool) (d : Opnd) (a : S1) (b : RI) (s : State) :=
  run (.max p u d a b) s fun e s => e.arith s u false b fun x y => if x ≥ y then x else y

/-- `neg` and `abs` (05:R112). -/
def Env.unary (e : Env) (s : State) (w : Bool) (f : Int → Int) : Res :=
  e.alu s fun n =>
    if w then
      let r := intDeliver e.sat true 64 (f (e.pair 0 n).toInt)
      (dwords (wrap64 r.1), r.2)
    else
      let r := intDeliver e.sat true 32 (f (e.word 0 n).toInt)
      ([wrap32 r.1], r.2)

def execNeg (p : Pfx) (w : Bool) (d : Opnd) (a : S1) (s : State) :=
  run (.neg p w d a) s fun e s => e.unary s w fun x => -x
def execAbs (p : Pfx) (w : Bool) (d : Opnd) (a : S1) (s : State) :=
  run (.abs p w d a) s fun e s => e.unary s w fun x => if x < 0 then -x else x

def execLea (p : Pfx) (d : Opnd) (a : S1) (b : LeaB) (s : State) :=
  run (.lea p d a b) s fun e s => e.alu s fun n =>
    let y : DWord := match b with
      | .i32 _ => (e.word 1 n).signExtend 64
      | .n32 _ => (e.word 1 n).setWidth 64
      | .i64 _ => e.pair 1 n
      | .imm i => Env.immOf p 8 i
    (dwords (e.pair 0 n + y), 0#32)

/-! ### Shifts, logic, bit counts and fields (05:R114 to R117) -/

/-- Shifts by 32 or more fill the word (05:R114). -/
def shlW (a n : Word) : Word := if 32 ≤ n.toNat then 0#32 else a <<< n.toNat
def shrW (a n : Word) : Word := if 32 ≤ n.toNat then 0#32 else a >>> n.toNat
def sraW (a n : Word) : Word := a.sshiftRight (min n.toNat 31)
def rotlW (a n : Word) : Word := a.rotateLeft (n.toNat % 32)

/-- An instruction of two words. -/
def Env.logic (e : Env) (s : State) (b : RI) (f : Word → Word → Word) : Res := e.alu1 s fun n => f (e.word 0 n) (e.ri b 1 n)

def execShl (p : Pfx) (d : Opnd) (a : S1) (b : RI) (s : State) := run (.shl p d a b) s fun e s => e.logic s b shlW
def execShr (p : Pfx) (d : Opnd) (a : S1) (b : RI) (s : State) := run (.shr p d a b) s fun e s => e.logic s b shrW
def execSra (p : Pfx) (d : Opnd) (a : S1) (b : RI) (s : State) := run (.sra p d a b) s fun e s => e.logic s b sraW
def execRotl (p : Pfx) (d : Opnd) (a : S1) (b : RI) (s : State) := run (.rotl p d a b) s fun e s => e.logic s b rotlW
def execAnd (p : Pfx) (d : Opnd) (a : S1) (b : RI) (s : State) := run (.and p d a b) s fun e s => e.logic s b fun x y => x &&& y
def execOr (p : Pfx) (d : Opnd) (a : S1) (b : RI) (s : State) := run (.or p d a b) s fun e s => e.logic s b fun x y => x ||| y
def execXor (p : Pfx) (d : Opnd) (a : S1) (b : RI) (s : State) := run (.xor p d a b) s fun e s => e.logic s b fun x y => x ^^^ y
def execAndn (p : Pfx) (d : Opnd) (a : S1) (b : RI) (s : State) := run (.andn p d a b) s fun e s => e.logic s b fun x y => x &&& ~~~y
def execNot (p : Pfx) (d : Opnd) (a : S1) (s : State) := run (.not p d a) s fun e s => e.alu1 s fun n => ~~~(e.word 0 n)

/-- Bits of a word from bit 0 on. -/
def bitsOf (w : Word) : List Bool := (List.range 32).map w.getLsbD
/-- Leading zero bits (05:R116). -/
def clzW (w : Word) : Word := BitVec.ofNat 32 ((bitsOf w).reverse.takeWhile (!·)).length
/-- Trailing zero bits. -/
def ctzW (w : Word) : Word := BitVec.ofNat 32 ((bitsOf w).takeWhile (!·)).length
/-- One bits. -/
def popcW (w : Word) : Word := BitVec.ofNat 32 ((bitsOf w).filter id).length
/-- Bits reversed. -/
def brevW (w : Word) : Word := w.reverse

def execClz (p : Pfx) (d : Opnd) (a : S1) (s : State) := run (.clz p d a) s fun e s => e.alu1 s fun n => clzW (e.word 0 n)
def execCtz (p : Pfx) (d : Opnd) (a : S1) (s : State) := run (.ctz p d a) s fun e s => e.alu1 s fun n => ctzW (e.word 0 n)
def execPopc (p : Pfx) (d : Opnd) (a : S1) (s : State) := run (.popc p d a) s fun e s => e.alu1 s fun n => popcW (e.word 0 n)
def execBrev (p : Pfx) (d : Opnd) (a : S1) (s : State) := run (.brev p d a) s fun e s => e.alu1 s fun n => brevW (e.word 0 n)

/-- Position and width of a field (05:R117). -/
def fieldOf (b : Word) : Nat × Nat :=
  let p := (b.extractLsb' 0 5).toNat
  (p, min (min (b.extractLsb' 5 6).toNat 32) (32 - p))

/-- `bfx` of two words. -/
def bfxW (a b : Word) : Word :=
  let (p, w) := fieldOf b
  if w = 0 then 0#32
  else
    let f := a.toNat / 2 ^ p % 2 ^ w
    if b.getLsbD 11 then wrap32 (sextInt f w) else BitVec.ofNat 32 f

/-- `bfi` of two words into a third. -/
def bfiW (a b d : Word) : Word :=
  let (p, w) := fieldOf b
  let m : Word := BitVec.ofNat 32 ((2 ^ w - 1) * 2 ^ p)
  (d &&& ~~~m) ||| ((a <<< p) &&& m)

def execBfx (p : Pfx) (d : Opnd) (a b : S1) (s : State) := run (.bfx p d a b) s fun e s => e.alu1 s fun n => bfxW (e.word 0 n) (e.word 1 n)
def execBfi (p : Pfx) (d : Opnd) (a b : S1) (s : State) :=
  run (.bfi p d a b) s fun e s => e.alu1 s fun n => bfiW (e.word 0 n) (e.word 1 n) (e.addend n)

/-! ### Compare, select, move (05:R118 to R120) -/

def execCmp (p : Pfx) (u : Bool) (c n : BitVec 3) (a : S1) (b : RI) (s : State) :=
  run (.cmp p u c n a b) s fun e s =>
    .done (e.writePred (e.settle s e.act true) n fun k =>
      let x := e.word 0 k
      let y := e.ri b 1 k
      cmpCond c (asInt u x) (asInt u y) x y)

/-- `sel` writes D in the lanes that pass its test; an s register, only when the lowest active lane passes (05:R119). A source
marked as last used is dead in every active lane, before D is written: where it is also D, it is dead in the lanes whose test fails
(DESIGN CHOICE, log 107). -/
def Env.select (e : Env) (s : State) (x : Bool) (n : BitVec 3) (f : Nat → Word) : Res :=
  let s := e.settle s e.act true
  match e.uses.getLast? with
  | none => .done s
  | some u => .done (s.writeReg e.x u.o 1 (e.lanes.filter (e.selTest x n)) e.nib fun k => [f k])

def execSel (p : Pfx) (d : Opnd) (a : S1) (x : Bool) (n : BitVec 3) (s : State) :=
  run (.sel p d a x n) s fun e s => e.select s x n fun k => e.word 0 k
def execSelImm (p : Pfx) (d : Opnd) (x : Bool) (n : BitVec 3) (i : BitVec 8) (s : State) :=
  run (.selImm p d x n i) s fun e s => e.select s x n fun _ => (Env.immOf p 8 i).setWidth 32

def execMov (p : Pfx) (w : Bool) (d : Opnd) (a : S1) (s : State) :=
  run (.mov p w d a) s fun e s => e.alu s fun n => (e.words 0 (if w then 2 else 1) n, 0#32)
def execLi (p : Pfx) (w : Bool) (d : Opnd) (i : BitVec 8) (s : State) :=
  run (.li p w d i) s fun e s => e.alu s fun _ => ((dwords (Env.immOf p 8 i)).take (if w then 2 else 1), 0#32)

/-! ### Requantisation, nibbles, dot products (05:R124 to R126) -/

/-- `req` of a word with its multiplier and control word. -/
def reqW (m : Rm) (w4 : Bool) (a mul ctl : Word) : Word × Word :=
  let p := a.toInt * mul.toInt
  let d := 2 ^ (31 + (ctl.extractLsb' 0 6).toNat)
  let t := roundInt m (decide (p < 0)) p.natAbs d
  let nx := if p.natAbs % d = 0 then 0#32 else fNX
  let n := if w4 then 4 else 8
  let r := clamp (intRange true n).1 (intRange true n).2 (t + (ctl.extractLsb' 16 8).toInt)
  (wrap32 r.1, nx ||| r.2)

def execReq (p : Pfx) (w : Bool) (d : Opnd) (a b : S1) (s : State) :=
  run (.req p w d a b) s fun e s => e.alu s fun n =>
    let r := reqW (e.mode .rne) w (e.word 0 n) (e.val 1 0 n) (e.val 1 1 n)
    ([r.1], r.2)

/-- Byte `i` of a word, and nibble `i`. -/
def byteAt (w : Word) (i : Nat) : Byte := w.extractLsb' (8 * i) 8
def nibbleAt (w : Word) (i : Nat) : BitVec 4 := w.extractLsb' (4 * i) 4

/-- A word of bytes, lowest first, and of nibbles. -/
def ofBytes (f : Nat → Byte) : Word := f 3 ++ f 2 ++ f 1 ++ f 0
def ofNibbles (f : Nat → BitVec 4) : Word := f 7 ++ f 6 ++ f 5 ++ f 4 ++ f 3 ++ f 2 ++ f 1 ++ f 0

/-- `pack4` (05:R125). -/
def pack4W (sat : Bool) (a b : Word) : Word × Word :=
  let x (i : Nat) : Int := (if i < 4 then byteAt a i else byteAt b (i - 4)).toInt
  let r (i : Nat) := intDeliver sat true 4 (x i)
  (ofNibbles fun i => BitVec.ofInt 4 (r i).1, (List.range 8).foldl (fun f i => f ||| (r i).2) 0#32)

def execPack4 (p : Pfx) (d : Opnd) (a b : S1) (s : State) :=
  run (.pack4 p d a b) s fun e s => e.alu s fun n =>
    let r := pack4W e.sat (e.word 0 n) (e.word 1 n)
    ([r.1], r.2)

/-- `unpack4` (05:R125). -/
def unpack4W (q4 : Bool) (a : Word) (hi : Nat) : Word :=
  ofBytes fun i => let x := nibbleAt a (4 * hi + i); if q4 then x.setWidth 8 else x.signExtend 8

def execUnpack4 (p : Pfx) (q4 : Bool) (d : Opnd) (a : S1) (s : State) :=
  run (.unpack4 p q4 d a) s fun e s => e.alu s fun n => ([unpack4W q4 (e.word 0 n) 0, unpack4W q4 (e.word 0 n) 1], 0#32)

/-- The dot product of four bytes (05:R126). -/
def dot4Sum (n8 : Bool) (a b : Word) : Int :=
  ((List.range 4).map fun i => (if n8 then ((byteAt a i).toNat : Int) else (byteAt a i).toInt) * (byteAt b i).toInt).sum

def execDot4 (p : Pfx) (n8 : Bool) (d : Opnd) (a b : S1) (s : State) :=
  run (.dot4 p n8 d a b) s fun e s => e.alu s fun n =>
    let r := intDeliver e.sat true 32 ((e.addend n).toInt + dot4Sum n8 (e.word 0 n) (e.word 1 n))
    ([wrap32 r.1], r.2)

end Sys2Proof.Machine
end

