-- ==== Sys2Proof/Machine/Convert.lean ====
section
/-! DEFINITION. `cvt` and the conversions of 04:R102 (05:R121 to R123). -/

namespace Sys2Proof.Machine

/-- An element type of `cvt` (05:R121). -/
inductive Ty where
  | int (signed : Bool) (bits : Nat)
  | flt (f : Fmt)
  deriving DecidableEq, Repr

/-- The type of a code (05:R121). -/
def Ty.ofCode (c : BitVec 4) : Ty :=
  match c.toNat with
  | 0 => .int true 8 | 1 => .int false 8 | 2 => .int true 16 | 3 => .int false 16 | 4 => .int true 32 | 5 => .int false 32
  | 6 => .int true 64 | 7 => .int false 64 | 8 => .flt .f32 | 9 => .flt .bf16 | 10 => .flt .f16 | 11 => .flt .e4m3
  | 12 => .flt .e5m2 | _ => .int true 4

/-- Bits of an element. -/
def Ty.bits : Ty → Nat
  | .int _ n => n
  | .flt f => f.bits

/-- An element of a pattern converted to another type: the pattern of the result, within its width, and flags (04:R102). -/
def cvtElem (m : Option Rm) (sat : Bool) (src dst : Ty) (p : Nat) : Nat × Word :=
  match src, dst with
  | .int sg n, .int sd k =>
    let x := if sg then sextInt p n else ((p % 2 ^ n : Nat) : Int)
    let r := intDeliver sat sd k x
    (wrapNat r.1 k, r.2)
  | .int sg n, .flt f =>
    let x := if sg then sextInt p n else ((p % 2 ^ n : Nat) : Int)
    f.round (m.getD .rne) sat (decide (x < 0)) x.natAbs 0
  | .flt f, .int sd k =>
    let (lo, hi) := intRange sd k
    match f.decode p with
    | .nan _ => (0, fNV)
    | .inf neg => (wrapNat (if neg then lo else hi) k, fNV)
    | .fin neg x e =>
      let (n, d) := if 0 ≤ e then (x * 2 ^ e.toNat, 1) else (x, 2 ^ (-e).toNat)
      let y := roundInt (m.getD .rtz) neg n d
      if y < lo then (wrapNat lo k, fNV) else if hi < y then (wrapNat hi k, fNV)
      else (wrapNat y k, if n % d = 0 then 0#32 else fNX)
  | .flt f, .flt g => g.deliver (m.getD .rne) sat (f.decode p)

/-- A narrow result as it stands in a register: signed integers are sign-extended, every other type is zero-extended
(04:R86). -/
def Ty.place (t : Ty) (p : Nat) : Word :=
  match t with
  | .int true n => wrap32 (sextInt p n)
  | _ => BitVec.ofNat 32 p

/-- The words of one element outside packed forms. -/
def Ty.words (t : Ty) (p : Nat) : List Word := if t.bits = 64 then dwords (BitVec.ofNat 64 p) else [t.place p]

/-- Source elements of a `cvt` form (05:R122). -/
def cvtSrc (pk : BitVec 3) (src : Ty) (ws : List Word) : List Nat :=
  match pk.toNat with
  | 0 => [if src.bits = 64 then (dword (ws.getD 0 0#32) (ws.getD 1 0#32)).toNat else (ws.getD 0 0#32).toNat]
  | 2 => [((ws.getD 0 0#32).extractLsb' 0 16).toNat, ((ws.getD 0 0#32).extractLsb' 16 16).toNat]
  | 4 => (List.range 4).map fun i => (byteAt (ws.getD 0 0#32) i).toNat
  | _ => ws.map (·.toNat)

/-- Destination words of a `cvt` form (05:R122). -/
def cvtDst (pk : BitVec 3) (dst : Ty) (xs : List Nat) : List Word :=
  match pk.toNat with
  | 0 => dst.words (xs.getD 0 0)
  | 1 => [BitVec.ofNat 16 (xs.getD 1 0) ++ BitVec.ofNat 16 (xs.getD 0 0)]
  | 3 => [ofBytes fun i => BitVec.ofNat 8 (xs.getD i 0)]
  | _ => xs.map dst.place

/-- The rounding mode of MOD, if it names one. -/
def Env.modeOpt (e : Env) : Option Rm :=
  match e.i.pfx.md with
  | none => none
  | some m => if m.rnd = 0#3 then none else some (Rm.of m.rnd .rne)

def execCvt (p : Pfx) (pk : BitVec 3) (d : Opnd) (a : S1) (t sc : BitVec 4) (s : State) :=
  run (.cvt p pk d a t sc) s fun e s => e.alu s fun n =>
    let src := Ty.ofCode sc
    let dst := Ty.ofCode t
    let rs := (cvtSrc pk src (e.words 0 (cvtShape pk t sc).1 n)).map (cvtElem e.modeOpt e.sat src dst)
    (cvtDst pk dst (rs.map (·.1)), rs.foldl (fun f r => f ||| r.2) 0#32)

end Sys2Proof.Machine
end

