-- ==== Sys2Proof/Machine/Power.lean ====
section
/-! DEFINITION. Current reservations and energy: the arbiter of a cluster and the accumulators (17:R402, R408, R412,
18:R429, R430). -/

namespace Sys2Proof.Machine

/-- The context whose clause of vector work made a request (18:R429). -/
def State.arbClause (s : State) (k : Nat) : Option Site :=
  s.sitesOf.find? fun x => match s.ctx? x with
    | none => false
    | some c => decide (c.vgrant.map (·.1) = some k) && !c.lanes.isEmpty

/-- Whether the macro-operation of a request still exists. -/
def State.arbLive (s : State) (k : Nat) : Bool := s.ops.has k || (s.arbClause k).isSome

/-- Whether the head of the queue can be granted. -/
def State.arbCan (s : State) (cluster : Nat) : Bool :=
  let a := s.arbOf cluster
  let out := a.out.filter fun x => s.arbLive x.1
  match a.q with
  | [] => false
  | r :: _ => out.isEmpty || decide ((out.map (·.2)).sum + r.demand ≤ s.setting (0x0100 + 8 * cluster))

/-- A macro-operation may start. -/
def OpData.grant : OpData → OpData
  | .copy ps _ => .copy ps true
  | .matrix m g _ => .matrix m g true
  | d => d

/-- What a grant to a macro-operation of a context counts: its charge estimate in the energy of its group, and its wait, a value that timing
decides. The wait of an instruction's request is sampled as the instruction completes, that of a clause of vector work now (17:R404, R406,
R412). -/
def State.granted (s : State) (x : Site) (op : Nat) : State :=
  let (n, s) := s.draw
  let (k, s) := s.draw
  let wait := (Config.freeWord k).toNat
  let s := match s.gang? x.gang with
    | none => s
    | some g => s.updGroup g.group fun r => { r with energy := r.energy + Config.chargeEstimate n }
  let s := s.pmEvent x.gang x.access 0x0A wait
  if (s.op? op).isSome then s.updOp op fun o => { o with samples := o.samples ++ [(0x44, wait)] } else s.pmSample x.gang x.access 0x44 wait

/-- CURRENT_RESERVATION_GRANT: the head is granted, or dropped where its macro-operation is over; a clause of vector work begins next. -/
def execCurrentReservationGrant (cluster : Nat) (s : State) : Host.Outcome State Fault Refusal :=
  let a := s.arbOf cluster
  match a.q with
  | [] => .next s
  | r :: rest =>
    if !s.arbCan cluster then .next s
    else
      let t := (s.setArb cluster ⟨rest, a.out ++ [(r.op, r.demand)]⟩).updOp r.op fun o => { o with data := o.data.grant }
      match t.op? r.op with
      | some o => .next (t.granted ⟨o.gang, o.access⟩ r.op)
      | none => match s.arbClause r.op with
        | none => .next (s.setArb cluster { a with q := rest })
        | some x =>
          let t := (t.updCtx x fun c => { c with vgrant := some (r.op, true) }).granted x r.op
          .next (t.setAgenda (.issue x.gang x.access :: t.agenda))

/-- An accumulator with what was measured: it never decreases (17:R408). -/
def accumulate (a : BitVec 64) (e : Nat) : BitVec 64 := BitVec.ofNat 64 (satAdd 64 a.toNat e)

/-- Whether a cluster's accumulator has an advance to make: one for each 256 reference ticks (17:R408). -/
def State.clusterDue (s : State) (cluster : Nat) : Bool := decide (s.dev.advances.getD cluster 0 < s.tick cluster / 256)
/-- Whether the device accumulator has one to make: one for each 1,024 ticks of the I/O die. -/
def State.deviceDue (s : State) : Bool := decide (s.dev.devAdvances < s.dev.ioTick / 1024)

/-- CLUSTER_ENERGY_ADVANCE: an accumulator whose interval is over advances by the energy measured. -/
def execClusterEnergyAdvance (cluster : Nat) (s : State) : Host.Outcome State Fault Refusal :=
  if Config.clusters ≤ cluster ∨ !s.clusterDue cluster then .next s
  else
    let (n, s) := s.draw
    let d := s.dev
    .next (s.setDev { d with energy := d.energy.put cluster (accumulate (d.energy.getD cluster 0#64) (Config.energy n).toNat)
                             advances := d.advances.put cluster (d.advances.getD cluster 0 + 1)
                             measured := d.measured + (Config.energy n).toNat })

/-- DEVICE_ENERGY_ADVANCE: once its interval is over, the device accumulator advances by the sum of what the clusters measured since its last
advance and of what the I/O die, the ports and the HBM stacks measured (DEDUCED, log 104). -/
def execDeviceEnergyAdvance (s : State) : Host.Outcome State Fault Refusal :=
  if !s.deviceDue then .next s
  else
    let (n, s) := s.draw
    let d := s.dev
    .next (s.setDev { d with devEnergy := accumulate d.devEnergy (d.measured + (Config.energy n).toNat)
                             devAdvances := d.devAdvances + 1, measured := 0 })

end Sys2Proof.Machine
end

