-- ==== Sys2Proof/Machine/Copy.lean ====
section
/-! DEFINITION. Copies and the copy engine (09:R204 to R207, 10:R242 to R245, 08:R186, R190). -/

namespace Sys2Proof.Machine

/-! ### Conversions (09:R205) -/

/-- Source type, destination type and SAT of a conversion; none copies bytes. -/
def cpConv (cv : BitVec 3) : Option (Fmt × Fmt × Bool) :=
  match cv.toNat with
  | 1 => some (.f32, .bf16, false) | 2 => some (.f32, .f16, false) | 3 => some (.bf16, .f32, false) | 4 => some (.f16, .f32, false)
  | 5 => some (.f32, .e4m3, true) | 6 => some (.f32, .e4m3, false)
  | _ => none

/-- Bytes of a source and of a destination element. -/
def cpSizes (cv : BitVec 3) : Nat × Nat :=
  match cpConv cv with
  | none => (1, 1)
  | some (a, b, _) => (a.bits / 8, b.bits / 8)

/-- Converts bytes element by element, rounding to nearest even; `n` elements at most. -/
def cpElems (a b : Fmt) (sat : Bool) : Nat → List Byte → List Byte
  | 0, _ => []
  | n + 1, bs =>
    match bs with
    | [] => []
    | _ => leBytes (b.bits / 8) (b.deliver .rne sat (a.decode (leNat (bs.take (a.bits / 8))))).1 ++ cpElems a b sat n (bs.drop (a.bits / 8))

/-- The destination bytes of a source range. -/
def cpBytes (cv : BitVec 3) (bs : List Byte) : List Byte :=
  match cpConv cv with
  | none => bs
  | some (a, b, sat) => cpElems a b sat bs.length bs

/-! ### Ranges -/

/-- A piece of a range within one page, or a whole scratchpad range: where it lies and how many bytes. -/
structure Span where
  spad : Bool
  group : Nat
  /-- scratchpad offset, or MT·2^52 + PA -/
  at_ : Nat
  key : BitVec 10
  n : Nat
  va : DWord
  deriving DecidableEq, Repr

/-- The pieces of a global range, page by page, with their checks (09:R206, 15:R352). -/
def Env.globalSpans (e : Env) (lane : Nat) (kind : AccKind) : Nat → DWord → Nat → State → Except TrapRec (List Span) × State
  | 0, _, _, s => (.ok [], s)
  | k + 1, va, n, s =>
    if n = 0 then (.ok [], s)
    else
      let here := min n (4096 - va.toNat % 4096)
      match e.checkLane s kind 1 lane va with
      | (.error t, s) => (.error t, s)
      | (.ok x, s) =>
        let lines := (List.range ((x.pa + here - 1) / 128 - x.pa / 128 + 1)).map fun i => x.pa / 128 + i
        match if kind.writes then lines.find? fun l => s.anchorAt x.mt (128 * l) else none with
        | some l =>
          let t := e.capsuleTrap 10 lane
          let w := va + BitVec.ofNat 64 (128 * l - x.pa)
          (.error { t with d1 := w.setWidth 32, d2 := Env.vaD2 w }, s)
        | none => match e.globalSpans lane kind k (va + BitVec.ofNat 64 here) (n - here) s with
          | (.error t, s) => (.error t, s)
          | (.ok r, s) => (.ok (⟨false, 0, x.mt.toNat * 2 ^ 52 + x.pa, x.key, here, va⟩ :: r), s)

/-- A scratchpad range with its checks; its last byte lies in the same window. -/
def Env.spadSpan (e : Env) (s : State) (lane : Nat) (kind : AccKind) (a n : Nat) : Except TrapRec Span :=
  match s.spadRef e.g.group a, s.spadRef e.g.group (a + n - 1) with
  | some r, some q =>
    if q.group ≠ r.group ∨ q.ofs ≠ r.ofs + n - 1 then .error (e.spadTrap 4 4 lane (kindX kind 0) a)
    else if r.ro && kind.writes then .error (e.spadTrap 4 5 lane (kindX kind 0) a)
    else .ok ⟨true, r.group, r.ofs, 0#10, n, 0#64⟩
  | _, _ => .error (e.spadTrap 4 4 lane (kindX kind 0) a)

/-- The pieces of a range. -/
def Env.cpSpans (e : Env) (s : State) (lane : Nat) (kind : AccKind) (spad : Bool) (a : DWord) (n : Nat) : Except TrapRec (List Span) × State :=
  if spad then ((match e.spadSpan s lane kind (a.toNat % 2 ^ 32) n with | .error t => .error t | .ok r => .ok [r]), s)
  else e.globalSpans lane kind (n / 4096 + 2) a n s

/-- Scratchpad lines of a piece: group and line. -/
def Span.spadLines (p : Span) : List (Nat × Nat) :=
  if p.spad then (List.range ((p.at_ + p.n - 1) / 128 - p.at_ / 128 + 1)).map fun i => (p.group, p.at_ / 128 + i) else []

/-- Whether two ranges share a byte. -/
def Span.meets (p q : Span) : Bool :=
  decide (p.spad = q.spad ∧ p.group = q.group ∧ p.at_ < q.at_ + q.n ∧ q.at_ < p.at_ + p.n)

/-- A byte of a piece as the engine reads it: written by an earlier lane of the same instruction, else where it lies. -/
def State.spanByte (s : State) (core : Nat) (done : List CopyPart) (p : Span) (i : Nat) : Byte :=
  let a := p.at_ + i
  match (done.filter fun d => decide (d.spad = p.spad ∧ d.group = p.group ∧ d.dst ≤ a ∧ a < d.dst + d.bytes.length)).getLast? with
  | some d => d.bytes.getD (a - d.dst) 0#8
  | none =>
    if p.spad then (match s.group? p.group with | none => 0#8 | some g => g.spadByte a)
    else s.mem.pairByte core (BitVec.ofNat 2 (a / 2 ^ 52)) p.key (a % 2 ^ 52)

/-- What a line of a copy does to the poison of the line or 8-byte word that holds a byte: a whole one clears it, a poisoned one sets it
(08:R180, R190). -/
def CopyPart.taint (d : CopyPart) (a : Nat) (bad : Bool) : Bool :=
  let unit := if d.spad then 8 else 128
  let u := a / unit
  if d.dst < unit * (u + 1) ∧ unit * u < d.dst + d.bytes.length then
    d.poison || (bad && !decide (d.dst ≤ unit * u ∧ unit * (u + 1) ≤ d.dst + d.bytes.length))
  else bad

/-- Whether a byte of a piece lies in a poisoned line or word, as earlier lanes of the same instruction leave it (09:R206, R207). -/
def State.spanPoison (s : State) (done : List CopyPart) (p : Span) (i : Nat) : Bool :=
  let a := p.at_ + i
  let was := if p.spad then (match s.group? p.group with | none => false | some g => g.spadPoison.has (a / 8))
    else s.mem.poisoned (BitVec.ofNat 2 (a / 2 ^ 52)) (a % 2 ^ 52)
  (done.filter fun d => decide (d.spad = p.spad ∧ d.group = p.group)).foldl (fun b d => d.taint a b) was

/-- The bytes of a piece, and which are poisoned. -/
def State.spanBytes (s : State) (core : Nat) (done : List CopyPart) (p : Span) : List (Byte × Bool) :=
  (List.range p.n).map fun i => (s.spanByte core done p i, s.spanPoison done p i)

/-- The lines of a destination piece with their bytes, `n` of them at most. -/
def Span.parts (p : Span) (lane : Nat) : Nat → Nat → List (Byte × Bool) → List CopyPart
  | 0, _, _ => []
  | k + 1, i, bs =>
    if p.n ≤ i then []
    else
      let here := min (p.n - i) (128 - (p.at_ + i) % 128)
      ⟨lane, p.spad, p.group, p.at_ + i, p.key, (bs.take here).map (·.1), (bs.take here).any (·.2)⟩ :: p.parts lane k (i + here) (bs.drop here)

/-- The lines of a lane's destination. -/
def destParts (lane : Nat) : List Span → List (Byte × Bool) → List CopyPart
  | [], _ => []
  | p :: ps, bs => p.parts lane (p.n / 128 + 2) 0 bs ++ destParts lane ps (bs.drop p.n)

/-! ### Issue (09:R206, R207) -/

/-- What the checks of a lane give: nothing to do, the pieces of its source and destination, or its trap with the scratchpad
lines that its issue clears. -/
inductive CpLane where
  | empty
  | ok (src dst : List Span)
  | bad (t : TrapRec) (clear : List (Nat × Nat))

/-- The checks of a lane of `cp` (DEDUCED, log 33). A lane that fails clears its destination lines where its destination passes its checks; a lane
that fails for ALIGN or at its destination clears none (DESIGN CHOICE, log 114). -/
def Env.cpLane (e : Env) (s : State) (n : BitVec 2) (cv : BitVec 3) (lane : Nat) : CpLane × State :=
  let srcSpad := decide (n = 1#2 ∨ n = 2#2)
  let dstSpad := decide (n = 0#2 ∨ n = 2#2)
  let src : DWord := if srcSpad then (e.word 0 lane).setWidth 64 else e.pair 0 lane
  let dst : DWord := if dstSpad then (e.word 2 lane).setWidth 64 else e.pair 2 lane
  let len := (e.word 1 lane).toNat
  let dlen := len / (cpSizes cv).1 * (cpSizes cv).2
  if len % 4 ≠ 0 ∨ 2 ^ 20 < len ∨ src.toNat % 4 ≠ 0 ∨ dst.toNat % 4 ≠ 0 then
    let atDst := decide (dst.toNat % 4 ≠ 0)
    let x := kindX (if atDst then .write else .read) 2
    let a := if atDst then dst else src
    (.bad (if (if atDst then dstSpad else srcSpad) then e.spadTrap 5 3 lane x a.toNat else e.trapVa 5 3 (bit lane) x a) [], s)
  else if len = 0 then (.empty, s)
  else
    match e.cpSpans s lane .read srcSpad src len with
    | (.error t, s) => (.bad t (match e.cpSpans s lane .write dstSpad dst dlen with
      | (.ok ds, _) => (ds.map Span.spadLines).flatten
      | _ => []), s)
    | (.ok ss, s) => match e.cpSpans s lane .write dstSpad dst dlen with
      | (.error t, s) => (.bad t [], s)
      | (.ok ds, s) => (.ok ss ds, s)

/-- The checks of every active lane. -/
def Env.cpLanes (e : Env) (s : State) (n : BitVec 2) (cv : BitVec 3) : List (Nat × CpLane) × State :=
  e.lanes.foldl (fun (t : List (Nat × CpLane) × State) lane =>
    let r := e.cpLane t.2 n cv lane
    (t.1 ++ [(lane, r.1)], r.2)) ([], s)

/-- Clears the presence bits of scratchpad lines (08:R186). -/
def State.clearLines (s : State) (ls : List (Nat × Nat)) : State :=
  ls.foldl (fun s l => s.updGroup l.1 fun g => { g with absent := g.absent.put l.2 () }) s

/-- Whether a home slice has an access to a line that it has accepted, or holds for a promotion: it reached the line first and is performed first
(10:R242). -/
def State.lineBusy (s : State) (line : Nat) : Bool :=
  s.home.q.vals.any fun r => (r.late.isSome || r.promoting) && decide (lineOf r.mt r.pa = line)

/-- Whether a piece of a lane waits: a line that an engine owns or holds, an earlier access of the lane to its bytes at a home slice, and for a
destination an access that reached its line first, or a buffered write of the pair. -/
def Env.spanHeld (e : Env) (s : State) (lane : Nat) (dst : Bool) (p : Span) : Bool :=
  if p.spad then s.spadHeld ⟨p.group, p.at_, false⟩ p.n
  else
    let mt := BitVec.ofNat 2 (p.at_ / 2 ^ 52)
    let pa := p.at_ % 2 ^ 52
    ((List.range ((pa + p.n - 1) / 128 - pa / 128 + 1)).any fun i =>
      let line := lineOf mt (128 * (pa / 128 + i))
      s.lineOwned line || (dst && s.lineBusy line)) ||
    s.pendingOver e.x lane s.nextId mt pa p.n || (dst && s.mem.pairHolds e.core mt pa p.n)

/-- The words of the engine's work: the destination lines of the lanes that pass, one lane after another. -/
def Env.cpParts (e : Env) (s : State) (cv : BitVec 3) (jobs : List (Nat × List Span × List Span)) : List CopyPart :=
  jobs.foldl (fun done j =>
    let src := (j.2.1.map (s.spanBytes e.core done)).flatten
    let out := cpBytes cv (src.map (·.1))
    let sizes := cpSizes cv
    -- a destination byte is poisoned with the source bytes of its element
    let bad (i : Nat) : Bool := ((src.drop (i / sizes.2 * sizes.1)).take sizes.1).any (·.2)
    let any := src.any (·.2)
    done ++ destParts j.1 j.2.2 (out.zipIdx.map fun b => (b.1, any && bad b.2))) []

/-- `cp`: it parks on absent lines of its sources. Its destination lines, those behind the partner window too, are cleared at issue and need not be
present (08:R186, R187; DESIGN CHOICE, log 127). -/
def execCp (p : Pfx) (l : Lf) (n : BitVec 2) (d a : Opnd) (b : Hs) (cv : BitVec 3) (s : State) :=
  run (.cp p l n d a b cv) s fun e s =>
    if e.act = 0#64 then .done s
    else
      let (xs, s) := e.cpLanes s n cv
      let jobs := xs.filterMap fun x => match x.2 with | .ok ss ds => some (x.1, ss, ds) | _ => none
      let absent := (jobs.map fun j => (j.2.1.map fun q => if q.spad then s.absentLines ⟨q.group, q.at_, false⟩ q.n else []).flatten).flatten
      if absent ≠ [] then .hold (e.parkOn s absent)
      else if jobs.any fun j => j.2.1.any (e.spanHeld s j.1 false) || j.2.2.any (e.spanHeld s j.1 true) then .hold s
      else
        let fails : Assoc TrapRec := xs.filterMap fun x => match x.2 with | .bad t _ => some (x.1, t) | _ => none
        let cut := (xs.map fun x => match x.2 with | .bad _ ls => ls | .ok _ ds => (ds.map Span.spadLines).flatten | .empty => []).flatten
        let parts := e.cpParts s cv jobs
        let ok := e.act &&& ~~~failMask fails
        -- lines of faulting lanes are owed until the lanes are replayed
        let owed := (xs.map fun x => match x.2 with | .bad _ ls => ls.map fun q => (x.1, q) | _ => []).flatten
        let s := (s.clearLines cut).updCtx e.x fun c => { c with owed := (c.owed.filter fun q => !e.act.getLsbD q.1) ++ owed }
        if ok = 0#64 then e.part s fails
        else
          let (id, s) := e.issueOp (e.settle s ok fails.isEmpty) ok 0#64 (.copy parts false)
          e.part (if parts.isEmpty then s else s.arbRequest (clusterOf e.core) ⟨id, 2, !e.x.access && e.g.holders.any ok.getLsbD⟩) fails

/-! ### Landing (09:R206, R207, 08:R186, R190) -/

/-- Whether a copy other than `op` has still to land bytes in a scratchpad line. -/
def State.lineAwaited (s : State) (op group line : Nat) (before : Bool) : Bool :=
  s.ops.any fun o => decide (if before then o.1 < op else o.1 ≠ op) && (match o.2.data with
    | .copy ps _ => ps.any fun p => p.spad && decide (p.group = group ∧ p.dst / 128 = line)
    | _ => false)

/-- Whether faulted lanes of a `cp` have yet to copy to a scratchpad line (08:R186, 09:R207). -/
def State.lineOwed (s : State) (group line : Nat) : Bool :=
  s.gangs.vals.any fun g => g.cctx.owed.any (fun p => decide (p.2 = (group, line))) ||
    (match g.actx with | none => false | some a => a.owed.any fun p => decide (p.2 = (group, line)))

/-- A line of a copy lands. -/
def State.landPart (s : State) (id : Nat) (o : Op) (p : CopyPart) (rest : List CopyPart) : State :=
  if p.spad then
    s.updGroup p.group fun g =>
      let g := g.spadWrite p.dst p.bytes
      let words := (List.range ((p.dst + p.bytes.length - 1) / 8 - p.dst / 8 + 1)).map fun i => p.dst / 8 + i
      let g := if p.poison then { g with spadPoison := words.foldl (fun t w => t.put w ()) g.spadPoison } else g
      if (rest.any fun q => q.spad && decide (q.group = p.group ∧ q.dst / 128 = p.dst / 128)) || s.lineAwaited id p.group (p.dst / 128) false ||
          g.filling.contains (p.dst / 128) || s.lineOwed p.group (p.dst / 128) then g
      else { g with absent := g.absent.del (p.dst / 128) }
  else
    let mt := BitVec.ofNat 2 (p.dst / 2 ^ 52)
    let pa := p.dst % 2 ^ 52
    let m := s.mem.homeWrite none (s.writer o.gang p.lane o.access) none false mt p.key pa p.bytes
    s.setMem (if p.poison then { m with poison := m.poison.put (lineOf mt pa) () } else m)

/-- COPY_LINE_LANDS: the next line of a copy that holds its reservation lands; lines of one engine land in the order of issue, one that counts as a
release lands after the writes that its agent has seen (10:R227, R228), and a line of peer memory lands while the link of its port is up: a copy
raises nothing after its issue (09:R207, 18:R422).
After 32 lines the next batch requests its own reservation (18:R429). -/
def execCopyLineLands (op : Nat) (s : State) : Host.Outcome State Fault Refusal :=
  match s.op? op with
  | none => .next s
  | some o => match o.data with
    | .copy (p :: rest) true =>
      if (p.spad && s.lineAwaited op p.group (p.dst / 128) true) ||
         (!p.spad && s.pairBehind o.core (s.fencedTo ⟨o.gang, o.access⟩ p.lane) op) || (!p.spad && decide (p.dst / 2 ^ 52 = 2) && s.dev.linkDown.has (peerPort (p.dst % 2 ^ 52))) then .next s
      else
        let s := s.landPart op o p rest
        let cluster := clusterOf o.core
        if rest.isEmpty then .next ((s.updOp op fun o => { o with data := .copy [] true }).arbEnd cluster op)
        else if rest.length % 32 = 0 then
          let held := !o.access && (match s.gang? o.gang with | none => false | some g => g.holders.any o.lanes.getLsbD)
          .next (((s.updOp op fun o => { o with data := .copy rest false }).arbEnd cluster op).arbRequest cluster ⟨op, 2, held⟩)
        else .next (s.updOp op fun o => { o with data := .copy rest true })
    | _ => .next s

end Sys2Proof.Machine
end

