-- ==== Sys2Proof/Machine/Counters.lean ====
section
/-! DEFINITION. The counter instructions (17:R403 to R412). -/

namespace Sys2Proof.Machine

/-- A counter of a group: one never set is clear, its selector 0 (17:R402, R405). -/
def Group.counter (g : Group) (n : Nat) : PerfCtr := g.pm.getD n (PerfCtr.clear 0#32)

/-- The field of a counter that `pmrd` reads. -/
def PerfCtr.field (p : PerfCtr) (sel : Nat) : DWord :=
  match sel with
  | 0 => BitVec.ofNat 64 p.count
  | 1 => BitVec.ofNat 64 p.sum
  | 2 => BitVec.ofNat 64 p.mn
  | 3 => BitVec.ofNat 64 p.mx
  | 12 => p.sel.setWidth 64
  | k => BitVec.ofNat 64 (p.bins.getD (k - 4) 0)

def execPmrd (p : Pfx) (l : Lf) (n : BitVec 2) (sel : BitVec 4) (clr : Bool) (d : Opnd) (s : State) :=
  run (.pmrd p l n sel clr d) s fun e s =>
    -- a read with CLR comes before the events of its cycle, one without after them, its own passes among them (17:R407)
    match e.nib, (if clr then s else e.passed s).group? e.g.group with
    | some _, some g =>
      let c := g.counter n.toNat
      let s := if clr then s.updGroup e.g.group fun g => { g with pm := g.pm.put n.toNat (PerfCtr.clear c.sel) } else s
      e.longWrite s fun _ => dwords (c.field sel.toNat)
    | _, _ => .done s

/-- Event codes (17:R404). -/
def pmCode (n : Nat) : Bool := decide (n ≤ 0x11 ∨ (0x40 ≤ n ∧ n ≤ 0x44))

/-- Whether a selector word keeps its limits (17:R405). -/
def selectorOk (w : Word) : Bool :=
  let code := (w.extractLsb' 0 8).toNat
  let mode := w.extractLsb' 29 2
  pmCode code && decide ((w.extractLsb' 8 8).toNat ≤ 40 ∧ w.extractLsb' 16 2 ≠ 3#2 ∧ w.extractLsb' 18 11 = 0#11 ∧
    (mode = 0#2 ∨ (mode = 1#2 ∧ 0x40 ≤ code)))

def execPmset (p : Pfx) (l : Lf) (n : BitVec 2) (a : Hs) (s : State) :=
  run (.pmset p l n a) s fun e s =>
    match e.nib with
    | none => .done s
    | some k =>
      let w := e.word 0 k
      if !selectorOk w then .raise s { e.insn .reservedField with lanes := bit k }
      else .done ((e.settle s e.act true).updGroup e.g.group fun g => { g with pm := g.pm.put n.toNat (PerfCtr.clear w) })

def execTick (p : Pfx) (l : Lf) (w : Bool) (d : Opnd) (s : State) :=
  run (.tick p l w d) s fun e s => e.longWrite s fun _ => dwords (BitVec.ofNat 64 (s.tick (clusterOf e.core)))

/-- What `enrd` reads: the cluster's accumulator, the device's, or the group's estimate. -/
def Env.energyOf (e : Env) (s : State) (sel : BitVec 2) : DWord :=
  if sel = 0#2 then s.dev.energy.getD (clusterOf e.core) 0#64
  else if sel = 1#2 then s.dev.devEnergy
  else match s.group? e.g.group with
    | none => 0#64
    | some g => g.energy

def execEnrd (p : Pfx) (l : Lf) (sel : BitVec 2) (d : Opnd) (s : State) :=
  run (.enrd p l sel d) s fun e s => e.longWrite s fun _ => dwords (e.energyOf s sel)

end Sys2Proof.Machine
end

