-- ==== Sys2Proof/Machine/Queues.lean ====
section
/-! DEFINITION. The queue instructions (12:R292 to R296). -/

namespace Sys2Proof.Machine

/-- The states of the heads of a queue in the active lanes. -/
def Env.heads (e : Env) (q : BitVec 3) : List (Nat × Env.Port) := e.lanes.map fun n => (n, e.popState e.uses.length q n)

/-- Waits for settled heads: a token trap (where `tokens`) or QUEUE reason 1, else `eff` (12:R281, R283, R287). -/
def Env.atHeads (e : Env) (s : State) (q : BitVec 3) (tokens : Bool) (eff : State → Res) : Res :=
  if e.act = 0#64 then .done s
  else
    let st := e.heads q
    if !Env.settled st then .hold (s.blockPath e.x e.c.path .queueWait)
    else
      let st := if tokens then st else st.filter fun p => match p.2 with | .token _ => false | _ => true
      match e.portTrap [(q, st)] with
      | some t => .raise s (if t.tok then { t with ports := [q.toNat] } else t)
      | none => eff s

def execQset (p : Pfx) (l : Lf) (q : BitVec 3) (depth : BitVec 5) (s : State) :=
  run (.qset p l q depth) s fun e s =>
    if e.act = 0#64 then .done s
    else .done (s.updGang e.x.gang fun g => { g with queues := g.queues.upd q.toNat fun r => { r with limit := depth.toNat } })

def execQpeek (p : Pfx) (l : Lf) (q : BitVec 3) (d : Opnd) (s : State) :=
  run (.qpeek p l q d) s fun e s => e.atHeads s q true fun s => e.longWrite s fun n => [e.read (.q q) 0 0 n]

def execQdrain (p : Pfx) (l : Lf) (q : BitVec 3) (d : Option Opnd) (s : State) :=
  run (.qdrain p l q d) s fun e s =>
    let s := s.updGang e.x.gang fun g => { g with queues := g.queues.upd q.toNat fun r => { r with ents := r.ents.keep fun k _ => !e.act.getLsbD k } }
    .done (match d with
      | none => s
      | some _ => e.writeDst s fun n => [BitVec.ofNat 32 (e.entries q n).length])

/-- A count of a queue in a lane (12:R295). -/
def Env.queueCount (e : Env) (q : BitVec 3) (sel : BitVec 2) (lane : Nat) : Nat :=
  let es := e.entries q lane
  match sel.toNat with
  | 0 => es.length
  | 1 => (es.filter fun t => match t with | .pend .. => false | _ => true).length
  | _ => (match e.g.queues.get? q.toNat with | none => 0 | some r => r.limit) - es.length

def execQcount (p : Pfx) (l : Lf) (q : BitVec 3) (sel : BitVec 2) (d : Opnd) (s : State) :=
  run (.qcount p l q sel d) s fun e s => .done (e.writeDst s fun n => [BitVec.ofNat 32 (e.queueCount q sel n)])

/-- The token at the head of a queue in a lane. -/
def Env.headToken (e : Env) (q : BitVec 3) (lane : Nat) : Option Token :=
  match e.entries q lane with
  | .tok t :: _ => some t
  | _ => none

def execQtokTest (p : Pfx) (l : Lf) (q : BitVec 3) (k : BitVec 3) (s : State) :=
  run (.qtokTest p l q k) s fun e s => e.atHeads s q false fun s =>
    .done (e.launchOp (e.writePred s k fun n => (e.headToken q n).isSome) e.act)

/-- The 128 bits of a token taken (12:R296). -/
def Token.words (t : Token) : List Word :=
  let sz : BitVec 2 := match t.size with | 1 => 0 | 2 => 1 | _ => 2
  [t.addr.extractLsb' 0 32, t.addr.extractLsb' 32 32, t.src.extractLsb' 2 30 ++ sz,
   BitVec.ofBool true ++ (BitVec.ofBool t.sgn ++ (BitVec.ofNat 5 t.cause ++ t.src.extractLsb' 32 25))]

def execQtokTake (p : Pfx) (l : Lf) (q : BitVec 3) (d : Opnd) (s : State) :=
  run (.qtokTake p l q d) s fun e s => e.atHeads s q false fun s =>
    let ls := e.lanes.filter fun n => (e.headToken q n).isSome
    let s := s.updGang e.x.gang fun g => Env.popLanes g q.toNat 1 ls
    e.longWrite s fun n => match e.headToken q n with
      | none => [0#32, 0#32, 0#32, 0#32]
      | some t => t.words

end Sys2Proof.Machine
end

