-- ==== Sys2Proof/Machine/Evict.lean ====
section
/-! DEFINITION. Which gangs are evictable, their eviction and their restore (01:R18, R24 to R26, 08:R187, R188, 10:R237, 12:R289,
16:R392 to R394). The saved state of an evicted gang or group is its record without a core. -/

namespace Sys2Proof.Machine

/-! ### Room on a core (01:R11, R18, 08:R182) -/

/-- Bytes of an allotment of a partition word: 0 REG, 1 SPAD, 2 OPND, 3 ACC. -/
def ptwBytes (w : BitVec 24) (i : Nat) : Nat := 65536 * (w.extractLsb' (18 - 6 * i) 6).toNat

/-- A gang's register demand. -/
def Kern.regBytes (k : Kern) : Nat := k.width * (k.vregs + k.avregs) * 4 + (k.sregs + k.asregs) * 4

/-- The groups and the resident gangs of a core, with their launches. -/
def State.groupsOn (s : State) (core : Nat) : List (Group × Launch) :=
  s.groups.vals.filterMap fun r => if r.core = some core then (s.launch? r.launch).map fun l => (r, l) else none
def State.gangsOn (s : State) (core : Nat) : List (Gang × Launch) :=
  s.gangs.vals.filterMap fun g => if g.core = some core then (s.launch? g.launch).map fun l => (g, l) else none

/-- Whether `n` gangs of a kernel fit a core beside what is resident. -/
def State.gangsFit (s : State) (core : Nat) (w : BitVec 24) (k : Kern) (n : Nat) : Bool :=
  let gs := s.gangsOn core
  decide (gs.length + n ≤ 64 ∧ (gs.map fun g => g.1.width).sum + n * k.width ≤ 4096 ∧
    (gs.map fun g => g.2.kern.regBytes).sum + n * k.regBytes ≤ ptwBytes w 0)

/-- Whether the allotments of one more group fit a core: the core is empty or hosts groups of the same word. -/
def State.allotsFit (s : State) (core : Nat) (w : BitVec 24) (k : Kern) : Bool :=
  let gs := s.groupsOn core
  gs.all (fun g => decide (g.2.ptw = w)) &&
  decide ((gs.map fun g => g.2.kern.spadb).sum + k.spadb ≤ ptwBytes w 1 ∧
    (gs.map fun g => 1024 * g.2.kern.opndk).sum + 1024 * k.opndk ≤ ptwBytes w 2 ∧
    (gs.map fun g => 32768 * g.2.kern.acct).sum + 32768 * k.acct ≤ ptwBytes w 3)

/-- Whether a run-control hold keeps a core (14:R333). -/
def State.coreHeld (s : State) (core : Nat) : Bool := s.ctl.holds.vals.any fun h => h.cores.contains core

/-- Whether a group of `n` gangs fits a core. -/
def State.groupFits (s : State) (core : Nat) (w : BitVec 24) (k : Kern) (n : Nat) : Bool :=
  !s.coreHeld core && s.gangsFit core w k n && s.allotsFit core w k

/-- A quadrant with the fewest gangs of a core, and its first free slot (DESIGN CHOICE, log 15). -/
def State.pickSlot (s : State) (core : Nat) : Nat × Nat :=
  let gs := (s.gangsOn core).map (·.1)
  let n (q : Nat) : Nat := (gs.filter fun g => decide (g.quad = q)).length
  let q := (List.range 4).foldl (fun a b => if n b < n a then b else a) 0
  (q, ((List.range 16).map (16 * q + ·)).find? (fun k => gs.all fun g => decide (g.slot ≠ k)) |>.getD (16 * q))

/-! ### Evictable gangs (01:R24) -/

/-- Whether the instruction at which a context stands does not issue now. -/
def Env.bodyHolds (e : Env) (s : State) : Bool :=
  match e.i with
  | .qpeek _ _ q _ | .qtokTest _ _ q _ | .qtokTake _ _ q _ => !Env.settled (e.heads q)
  | .ldToQueue _ _ _ q _ => !(e.lanes.all fun k => match e.pushState q k with | .ready => true | _ => false)
  | .wait _ _ fence sb => !e.waitMet s fence sb
  | _ => false

/-- Whether no lane of a context can issue: it may select no path, or what stands before its path waits. -/
def State.ctxBlocked (s : State) (x : Site) : Bool :=
  let s := s.selectPath x
  match s.gang? x.gang with
  | none => true
  | some g => match g.ctx? x.access, g.core, s.launch? g.launch with
    | some c, some core, some l =>
      (s.stepGroup x).isNone && (decide (c.path = 0#64) || !(c.free && c.pathAble) ||
      (match c.cur with
       | none => (match (s.fetchWord x core l.owner c.pathPc).1 with
         | .ok w => (match decodeHeader w with
           | .ok h => !s.headerReady x g c core l.owner h c.pathPc
           | .error _ => false)
         | .error _ => false)
       | some cur => (match (s.fetchInstr x core l.owner cur.ip).1 with
         | .ok _ (.fate (.instr i _) _ _ _) => (match env? i (s.setCur (some x)) with
           | none => true
           | some e => (match e.gate s with
             | .hold _ => true
             | .raise _ => false
             | .go => e.bodyHolds s))
         | _ => false)))
    | _, _, _ => true

/-- Whether a load into a queue by a resident gang is from host or peer memory. -/
def State.remoteAddr (s : State) (x : Site) (va : DWord) : Bool :=
  match (s.gang? x.gang).bind fun g => g.core, (s.gang? x.gang).bind fun g => s.launch? g.launch with
  | some core, some l => (match (s.xlat x core l.owner .read va).1 with
    | .ok t => decide (t.mt ≠ 0#2)
    | .error _ => false)
  | _, _ => false

/-- Whether what a long form waits for in lanes of a mask is data of host or peer memory, of a load or of a load into a queue; the loads into
queues of an evicted gang are issued again at its restore and keep nothing waiting (12:R289). -/
def State.remoteOp (s : State) (x : Site) (m : Mask) (e : Nat × Op) : Bool :=
  match e.2.i with
  | .ld .. => (s.home.q.vals.filter fun r => decide (r.op = e.1)).all fun r => decide (r.mt ≠ 0#2)
  | .ldToQueue .. => (e.2.pops.filter fun p => m.getLsbD p.2.1).all fun p => (match p.2.2 with
    | .pend _ va .. => s.remoteAddr x va
    | _ => false)
  | _ => false

/-- Whether a lane waits on loads from host or peer memory only (01:R24). A lane of the path waits with its path: for what is in flight in any lane
of it, and on a remote load of its context, though it has no part in that load or has been served. -/
def State.remoteWait (s : State) (x : Site) (lane : Nat) : Bool :=
  let path := match s.ctx? x with | none => 0#64 | some c => c.path
  let flying := (s.opsOf x).keep fun _ o => decide (o.left ≠ 0#64)
  let m := if path.getLsbD lane then path else bit lane
  let mine := flying.keep fun _ o => decide (o.left &&& m ≠ 0#64)
  mine.all (s.remoteOp x m) && (if path.getLsbD lane then flying.any fun e => s.remoteOp x e.2.left e else !mine.isEmpty)

/-- Whether a context has been parked on absent lines for longer than the limit (08:R188). -/
def State.parkedLong (s : State) (c : Ctx) (cluster : Nat) : Bool :=
  match c.parkedAt with
  | none => false
  | some t => decide (t + s.setting 0x0008 < s.tick cluster)

/-- Whether every live lane of a context waits in one of the states that count. -/
def State.lanesWait (s : State) (x : Site) (g : Gang) (c : Ctx) : Bool :=
  c.lanes.all fun e =>
    (match g.threads.get? e.1 with | none => false | some t => decide (t.item = .empty)) ||
    (match e.2.ws with
     | .parked => e.2.held.isSome || s.parkedLong c (s.clusterOfGang x.gang)
     | .queueWait | .barrier | .waitv | .capsuleWait | .stopped => true
     | .ready => s.remoteWait x e.1
     | _ => false)

/-- Whether a gang is evictable (01:R24); one with a context in a trap never is (16:R386, R394). -/
def State.evictableNow (s : State) (n : Nat) : Bool :=
  match s.gang? n with
  | none => false
  | some g =>
    g.core.isSome && !g.over &&
    [false, true].all fun a => match g.ctx? a with
      | none => true
      | some c => decide (c.tcg = 0#32) && c.frame.isNone && c.pend.isNone && c.retryAt.isNone && c.stroke.isNone &&
          s.lanesWait ⟨n, a⟩ g c && s.ctxBlocked ⟨n, a⟩

/-- Keeps the instant since which a gang has been evictable (01:R25). -/
def State.noteEvictable (s : State) (n : Nat) : State :=
  if s.evictableNow n then s.updGang n fun g => { g with evictable := some (g.evictable.getD (s.tick (s.clusterOfGang n))) }
  else s.updGang n fun g => { g with evictable := none }

/-! ### Eviction (01:R25, R26) -/

/-- Whether a long form of an evicted gang may stay in flight: it waits for something outside the gang, or is a copy. -/
def State.opStays (s : State) (id : Nat) (o : Op) : Bool :=
  s.opDone id o ||
  (match o.data with
   | .wait | .bar | .barw _ | .copy .. => true
   | .store => (match o.i with | .ldToQueue .. => true | _ => false)
   | .home => (match o.i with
     | .ld .. => (s.home.q.vals.filter fun r => decide (r.op = id)).all fun r => decide (r.mt ≠ 0#2)
     | .waitv .. => (lanesOf o.left).all fun n =>
         s.home.monitors.vals.any fun ws => ws.any fun w => decide (w.op = id ∧ w.lane = n)
     | _ => false)
   | _ => false)

/-- Whether a group still has operations of the matrix engine in flight (11:R258). -/
def State.groupMatrix (s : State) (grp : Nat) : Bool :=
  s.ops.vals.any fun o => match o.data with | .matrix _ k _ => decide (k = grp) | _ => false

/-- The area of a gang or group is written by the device; what it holds is the device's own (16:R392). -/
def State.writeSave (s : State) (base bytes : Nat) : State :=
  let (k, s) := s.draw
  s.setMem (s.mem.writeArea base bytes k)

/-- Writes the saved context of an evicted gang: at its eviction, and after a query's action on it (14:R322). -/
def State.saveContext (s : State) (n : Nat) : State :=
  match s.gang? n with
  | none => s
  | some g => match s.launch? g.launch with
    | none => s
    | some l => s.writeSave g.savep.toNat (l.kern.saveBytes g.width)

/-- Saves a group's allotments with its records, in an area of their own (01:R26, 16:R392, R393) (DESIGN CHOICE, log 42). -/
def State.saveGroup (s : State) (grp core bytes : Nat) : State :=
  let mine := s.cores.recs.filter fun r => decide (r.1 / 64 = core ∧ r.2.group = grp)
  let at_ := s.launches.saveNext
  let s := s.updGroup grp fun r => { r with core := none, savedRecs := mine.map fun e => (e.1 % 64, e.2), savedAt := at_ }
  let s := s.setCores { s.cores with recs := s.cores.recs.keep fun k x => !decide (k / 64 = core ∧ x.group = grp) }
  (s.setLaunches { s.launches with savePool := s.launches.savePool - bytes, saveNext := at_ + bytes }).writeSave at_ bytes

/-- Every lane of a context of a gang that is evicted waits for its wake condition, or, stopped, for a resume (16:R394). -/
def Ctx.allDue (c : Ctx) : Ctx := { c with due := c.laneMask fun _ _ => true, vgrant := none }

/-- Evicts a gang; none where it cannot be: it is not evictable, work of it is under way, its core is held, or the pool has no area for its
group's allotments. The buffered writes of its pair of cores are performed first, those that it has read among them (10:R224, R237); its holder's
anchor is marked (15:R360) (DESIGN CHOICE, log 9). -/
def State.evictGang (s : State) (n : Nat) : Option State :=
  if !s.evictableNow n then none
  else match s.gang? n with
  | none => none
  | some g => match g.core, s.launch? g.launch with
    | some core, some l =>
      let s := s.drainAll fun w => samePair w.core core
      let last := (s.gangsOf g.group).all fun k => decide (k = n) || (s.coreOf k).isNone
      let bytes := l.kern.groupSaveBytes
      if s.coreHeld core ∨ (s.mem.wbuf.vals.any fun w => samePair w.core core) ∨
         (s.ops.any fun o => decide (o.2.gang = n) && !s.opStays o.1 o.2) ∨
         (last ∧ (s.launches.savePool < bytes ∨ s.groupMatrix g.group)) then none
      else
        let s := s.updGang n fun g => { g with core := none, evictable := none, cctx := g.cctx.allDue, actx := g.actx.map Ctx.allDue }
        let s := (s.stallGang n).saveContext n
        some (if last then s.saveGroup g.group core bytes else s)
    | _, _ => none

/-- EVICT_REQUEST: system software requests an eviction; where it cannot be made it completes with a failure status and changes nothing
else (16:R393). -/
def execEvictRequest (gang : Nat) (s : State) : Host.Outcome State Fault Refusal :=
  .next (match s.evictGang gang with
    | some t => t.setCtl { t.ctl with evictFailed := false }
    | none => s.setCtl { s.ctl with evictFailed := true })

/-- Puts an entry before the first that it precedes. -/
def insertBy {α : Type} (le : α → α → Bool) (x : α) : List α → List α
  | [] => [x]
  | y :: ys => if le y x then y :: insertBy le x ys else x :: y :: ys

/-- Sorts a list; entries that tie keep their order. -/
def sortBy {α : Type} (le : α → α → Bool) (xs : List α) : List α := xs.foldl (fun t x => insertBy le x t) []

/-- The gangs of a cluster that a firing of a class may evict, evictable for the delay, the longest first (01:R25). -/
def State.victims (s : State) (cluster cls : Nat) : List Nat :=
  let now := s.tick cluster
  let able := s.gangs.filter fun e => match e.2.core, e.2.evictable with
    | some c, some t => decide (clusterOf c = cluster ∧ e.2.prio ≤ cls ∧ s.setting 0x0000 ≤ now - t) && s.evictableNow e.1
    | _, _ => false
  sortBy (fun a b => decide ((a.2.evictable.getD 0) ≤ b.2.evictable.getD 0)) able |>.map (·.1)

/-- Evicts one gang for a firing that finds no room; a gang that cannot be evicted is passed over (16:R393). -/
def State.evictFor (s : State) (cluster cls : Nat) : Option State := ((s.victims cluster cls).filterMap s.evictGang).head?

/-! ### Restore (01:R26, 16:R394) -/

/-- Whether a lane in capsule-wait can go on: a contender of a FREE anchor, or an owner with its delivery (15:R362, R365). -/
def State.capsuleMet (s : State) (n lane : Nat) : Bool :=
  match s.thread? n lane with
  | none => true
  | some t => match t.link.role with
    | .contender => decide ((s.mem.anc0 t.link.anc).state = AncSt.free.code)
    | .owner => t.link.delivered
    | _ => true

/-- Whether a lane of an evicted gang waits for something outside its gang that has not come; a query's action on the lane ends its wait. -/
def State.waitsOutside (s : State) (x : Site) (c : Ctx) (lane : Nat) (l : LaneSt) : Bool :=
  c.due.getLsbD lane && match l.ws with
  | .stopped | .barrier => true
  | .capsuleWait => !s.capsuleMet x.gang lane
  | .waitv => !(s.home.monitors.vals.any fun ws => ws.any fun w => decide (w.gang = x.gang ∧ w.access = x.access ∧ w.lane = lane) && w.woken)
  | .parked => l.held.isNone && c.parkedOn.any fun p => match s.group? p.1 with
      | none => false
      | some r => r.absent.has p.2 && !r.filling.contains p.2
  | .ready => s.remoteWait x lane
  | _ => false

/-- Whether a lane of an evicted gang can go on at a restore; one at a queue can where a load into a queue of its gang is to be issued again
(12:R289). -/
def State.canGoOn (s : State) (x : Site) (g : Gang) (c : Ctx) (lane : Nat) (l : LaneSt) : Bool :=
  !c.due.getLsbD lane ||
  ((match g.threads.get? lane with | none => true | some t => t.item.inMask) &&
   (match l.ws with
    | .ready | .waitv | .parked | .capsuleWait => l.held.isNone && !s.waitsOutside x c lane l
    | .queueWait => g.queues.vals.any fun q => (q.ents.getD lane []).any fun t => (match t with | .pend .. => true | _ => false)
    | _ => false))

/-- Whether a gang may be restored: every lane that waits for something outside the gang has met it, and one can go on (DEDUCED, log 20). -/
def State.restorable (s : State) (n : Nat) : Bool :=
  match s.gang? n with
  | none => false
  | some g =>
    g.core.isNone &&
    ([false, true].all fun a => match g.ctx? a with
      | none => true
      | some c => c.lanes.all fun e => !s.waitsOutside ⟨n, a⟩ c e.1 e.2) &&
    [false, true].any fun a => match g.ctx? a with
      | none => false
      | some c => c.lanes.any fun e => s.canGoOn ⟨n, a⟩ g c e.1 e.2

/-- Whether a saved group fits a core (01:R18): its allotments, all its gangs, and the numbers of its reservation records (DEDUCED, log 20). -/
def State.savedFits (s : State) (core grp : Nat) (r : Group) (l : Launch) : Bool :=
  s.groupFits core l.ptw l.kern (s.gangsOf grp).length && r.savedRecs.keys.all fun k => !s.cores.recs.has (64 * core + k)

/-- Returns a saved group to a core: its lines are filled again, its records stand as they were, and the entries of its barriers come to the
core, which keeps 32 (15:R372). -/
def State.returnGroup (s : State) (grp core : Nat) : State :=
  match s.group? grp with
  | none => s
  | some r =>
    let bytes := match s.launch? r.launch with | none => 0 | some l => l.kern.groupSaveBytes
    let lines := List.range ((match s.launch? r.launch with | none => 0 | some l => l.kern.spadb) / 128)
    let fill := lines.filter fun k => !r.absent.has k || r.filling.contains k
    let s := s.setCores { s.cores with recs := r.savedRecs.foldl (fun t e => t.put (64 * core + e.1) e.2) s.cores.recs }
    let s := s.updGroup grp fun r => { r with core := some core, barCore := core, savedRecs := [], absent := lines.map fun k => (k, ()), filling := fill }
    let s := s.setLaunches { s.launches with savePool := s.launches.savePool + bytes }
    (List.range 32).foldl (fun s _ => s.barTrim core) s

/-- The cores on which the groups of a gang's team that are wholly evicted return, where they fit: the group itself on `core`, the
other group of its team on the other core of the pair. -/
def State.returnGroups (s : State) (grp core : Nat) : Option State :=
  match s.group? grp with
  | none => none
  | some r => match s.launch? r.launch with
    | none => none
    | some l =>
      match r.core with
      | some c => if c = core then some s else none
      | none =>
        if clusterOf core ≠ r.cluster ∨ (l.gpt = 2 ∧ (s.partnerGroup grp).isSome ∧ core % 2 ≠ r.grp) then none
        else if !s.savedFits core grp r l then none
        else match s.partnerGroup grp with
          | none => some (s.returnGroup grp core)
          | some p => match s.group? p with
            | none => none
            | some q => match q.core with
              | some c => if c = partnerOf core then some (s.returnGroup grp core) else none
              | none => if s.savedFits (partnerOf core) p q l then some ((s.returnGroup grp core).returnGroup p (partnerOf core)) else none

/-- What a restored gang meets again: woken waiters read, contenders take a FREE anchor, an owner takes its delivery, its holder's anchor is no longer stalled. -/
def State.comeBack (s : State) (n : Nat) : State :=
  let woken := (s.home.monitors.map fun e => (e.2.filter fun w => decide (w.gang = n) && w.woken).map fun w => (e.1, w)).flatten
  let s := woken.foldl (fun s p => s.wake p.1 p.2 p.2.single (s.home.wakeReq p.1 p.2)) s
  let s := (s.selectPath ⟨n, false⟩).selectPath ⟨n, true⟩
  let lanes := match s.gang? n with | none => [] | some g => g.threads.keys
  (lanes.foldl (fun s k => (s.contenderBack n k).deliveredBack n k) s).unstallGang n

/-- Whether a query of scope launch holds a launch: none of its gangs is restored (14:R335). -/
def State.launchHeld (s : State) (n : Nat) : Bool :=
  s.ctl.holds.vals.any fun h => decide (h.launch = n ∧ leNat (h.rec_.take 8) / 2 ^ 14 % 4 = 3)

/-- Whether the areas that a restore reads are as the device wrote them: the gang's, and those of the groups that return with it
(16:R392). -/
def State.areasGood (s : State) (g : Gang) (l : Launch) : Bool :=
  s.mem.areaGood g.savep.toNat (l.kern.saveBytes g.width) &&
  ((g.group :: (s.partnerGroup g.group).toList).all fun k => match s.group? k with
    | none => true
    | some r => r.core.isSome || s.mem.areaGood r.savedAt l.kern.groupSaveBytes)

/-- What a context holds again at its restore: pending loads into queues are issued again by their producers (12:R289). -/
def Gang.rebuilt (g : Gang) (core quad slot : Nat) (savep : DWord) (io : Nat) : Gang :=
  let again : QEnt → QEnt
    | .pend r a n b f _ _ => .pend r a n b f false io
    | e => e
  { g with core := some core, quad := quad, slot := slot, evictable := none, deadlock := none, savep := savep
           cctx := { g.cctx with due := 0#64 }, actx := g.actx.map fun c => { c with due := 0#64 }
           queues := g.queues.mapVal fun _ q => { q with ents := q.ents.mapVal fun _ es => es.map again } }

/-- Restores a gang on a core, where it may be restored and fits. Its area returns to the pool, and it is given one as at its placement
(16:R393; DEDUCED, log 84). It waits for request records of the core for its pending loads into queues and its tokens (12:R277, R289; DEDUCED,
log 117). A damaged area ends its launch instead (16:R392). -/
def State.restoreGang (s : State) (n core : Nat) : State :=
  if !s.restorable n ∨ Config.cores ≤ core then s
  else match s.gang? n with
  | none => s
  | some g => match s.launch? g.launch with
    | none => s
    | some l =>
      if l.ended.isSome ∨ s.coreHeld core ∨ s.launchHeld g.launch then s
      else match s.returnGroups g.group core with
        | none => s
        | some t =>
          if !t.gangsFit core l.ptw l.kern 1 then s
          else if !s.areasGood g l then s.setAgenda (.event (.launchEndEarly g.launch 13) :: s.agenda)
          else
            let (q, k) := t.pickSlot core
            let at_ := t.launches.saveNext
            let t := t.setLaunches { t.launches with saveNext := at_ + l.kern.saveBytes g.width }
            let t := t.updGang n fun g => g.rebuilt core q k (BitVec.ofNat 64 at_) s.dev.ioTick
            let t := t.setOps (t.ops.mapVal fun _ o => if o.gang = n then { o with core := core } else o)
            if 2048 < t.queueRecords core then s else t.comeBack n

/-- GANG_RESTORE. -/
def execGangRestore (gang core : Nat) (s : State) : Host.Outcome State Fault Refusal := .next (s.restoreGang gang core)

/-! ### Absent lines (08:R187, R188) -/

/-- ABSENT_LINE_WAKE: once every line is present, the context issues its instruction again. -/
def execAbsentLineWake (gang : Nat) (access : Bool) (s : State) : Host.Outcome State Fault Refusal :=
  let x : Site := ⟨gang, access⟩
  match s.ctx? x, s.coreOf gang with
  | some c, some _ =>
    if c.parkedAt.isNone ∨ (c.parkedOn.any fun p => match s.group? p.1 with | none => false | some r => r.absent.has p.2) then .next s
    else .next ((s.updCtx x fun c =>
      { c with parkedAt := none, parkedOn := []
               lanes := c.lanes.mapVal fun n l =>
                 if l.held.isSome then l
                 else if l.ws = .parked then { l with ws := c.readyOf n } else l }).selectPath x)
  | _, _ => .next s

/-- ABSENT_LINE_LIMIT: a gang parked on absent lines beyond the limit becomes evictable. -/
def execAbsentLineLimit (gang : Nat) (s : State) : Host.Outcome State Fault Refusal := .next (s.noteEvictable gang)

end Sys2Proof.Machine
end

