-- ==== Sys2Proof/Machine/Place.lean ====
section
/-! DEFINITION. Placement of teams and fired gangs, and the ranking of ready dunes (01:R10 to R14, R18, R21, R22, R33, 03:R72,
08:R183, 13:R306, R308). -/

namespace Sys2Proof.Machine

/-! ### Placement -/

/-- A lane ready at an address. -/
def LaneSt.ready (pc : DWord) : LaneSt := ⟨pc, .ready, .ready, none, false, false, false⟩

/-- A context at placement (03:R72): every register dead, every other item zero. -/
def Ctx.fresh (lanes : List Nat) (pc : DWord) : Ctx :=
  { v := [], s := [], k := [], j := [], sb := [], lanes := lanes.map fun n => (n, LaneSt.ready pc), path := 0#64, cur := none,
    serial := 0, gst := 0#32, tcg := 0#32, tlm := 0#64, tra := 0#64, d0 := 0#32, d1 := 0#32, d2 := 0#32, frame := none,
    backoff := 0, retryAt := none, pend := none, late := [], stroke := none, resume := none, aside := none, mid := [], parity := [], spoiled := [],
    parkedAt := none, parkedOn := [], owed := [], fenced := [], relTo := [], since := 0, aged := false, vgrant := none, due := 0#64 }

/-- A thread at its creation. -/
def Thread.fresh (fam : Word) (lin : BitVec 96) (item : ItemSt) : Thread :=
  { fam := fam, inh := fam, lin := lin, clin := lin, cnt := 0, item := item, rngc := 0#64, c := [], link := Link.zero }

/-- A group at placement (08:R183): its parameter bytes, every other byte zero, every line still to be filled. -/
def Group.placed (l : Launch) (launch team grp core : Nat) : Group :=
  let lines := List.range (l.kern.spadb / 128)
  let bytes := (List.range l.params.length).zip l.params
  { launch := launch, team := team, grp := grp, core := some core, barCore := core, cluster := clusterOf core
    spad := bytes.filter fun p => decide (p.2 ≠ 0#8), absent := lines.map fun k => (k, ()), filling := lines, spadPoison := []
    opnd := [], opndPoison := [], acc := [], accPoison := [], tstat := [], bars := [], pm := [], energy := 0#64, savedRecs := [], savedAt := 0 }

/-- A gang at placement: both contexts start in one act, its save area is allocated, its queues are as declared (01:R33, 12:R278,
16:R393). -/
def State.placeGang (s : State) (grp launch : Nat) (l : Launch) (num core : Nat) (dune : Option Nat) (prio : Nat)
    (threads : Assoc Thread) (cctx : Ctx) : State :=
  let k := l.kern
  let (quad, slot) := s.pickSlot core
  let queue (d : QDecl) : Queue := { ca := d.ca, depth := d.depth, limit := d.depth, ents := [] }
  let queues := if k.decoupled then k.qdecl.map fun e => (e.1, queue e.2) else []
  let (n, s) := s.freshId
  let g : Gang := { group := grp, launch := launch, num := num, width := k.width, core := some core, quad := quad, slot := slot
                    dune := dune, prio := prio, threads := threads, cctx := cctx
                    actx := if k.decoupled then some (Ctx.fresh threads.keys k.aentry) else none
                    queues := queues, savep := BitVec.ofNat 64 s.launches.saveNext, evictable := none, deadlock := none, spin := none }
  let bytes := k.saveBytes k.width
  let s := s.setLaunches { s.launches with savePool := s.launches.savePool - bytes, saveNext := s.launches.saveNext + bytes }
  s.setGangs (s.gangs.put n g)

/-- Places a group of a team of the launch record, with every gang of it. -/
def State.placeGroup (s : State) (launch : Nat) (l : Launch) (team grp core : Nat) : State :=
  let (id, s) := s.freshId
  let s := s.setGroups (s.groups.put id (Group.placed l launch team grp core))
  (List.range l.gangs).foldl (fun s num =>
    let lanes := List.range l.kern.width
    let threads := lanes.map fun n => (n, Thread.fresh 0#32 (linRoot team grp num n) .no)
    s.placeGang id launch l num core none l.prio threads (Ctx.fresh lanes l.kern.centry)) s

/-- Whether a team fits with its first group on a core; the second goes to the other core of the pair (01:R18). -/
def State.teamFits (s : State) (l : Launch) (core : Nat) : Bool :=
  decide (l.gpt * l.gangs * l.kern.saveBytes l.kern.width ≤ s.launches.savePool) && s.groupFits core l.ptw l.kern l.gangs &&
  (decide (l.gpt ≠ 2) || (decide (core % 2 = 0) && s.groupFits (partnerOf core) l.ptw l.kern l.gangs))

/-- Whether a fired gang fits a core. -/
def State.firedFits (s : State) (l : Launch) (core : Nat) : Bool :=
  decide (l.kern.saveBytes l.kern.width ≤ s.launches.savePool) && s.groupFits core l.ptw l.kern 1

/-- The cores of a cluster. -/
def coresOf (cluster : Nat) : List Nat := (List.range Config.coresPerCluster).map (Config.coresPerCluster * cluster + ·)

/-- Places every gang of a team in one act. -/
def State.placeTeam (s : State) (launch : Nat) (l : Launch) (team core : Nat) : State :=
  let s := s.placeGroup launch l team 0 core
  if l.gpt = 2 then s.placeGroup launch l team 1 (partnerOf core) else s

/-! ### Team numbers of fired gangs (01:R14, 13:R310) -/

/-- The lowest number, from `k` on, that no live team and no team still to be placed has. -/
def lowestTeam (taken : List Nat) (waiting : Nat → Bool) : Nat → Nat → Option Nat
  | 0, _ => none
  | n + 1, k => if taken.contains k ∨ waiting k then lowestTeam taken waiting n (k + 1) else some k

/-- Whether a team of the launch record is not yet placed. -/
def Launch.teamWaits (l : Launch) (t : Nat) : Bool :=
  decide (t < l.teams) && (match l.roots.get? (t % Config.clusters) with
    | none => false
    | some r => decide (r.cursor ≤ t) || r.items.any fun i => decide (i.1 = t))

/-- The team number of a gang to be fired (DEDUCED, log 58). -/
def State.freshTeam (s : State) (launch : Nat) (l : Launch) : Option Nat :=
  if l.nextTeam ≤ 0x3FFFFFF then some l.nextTeam
  else if l.ordered then none
  else
    let taken := (s.groups.vals.filter fun r => decide (r.launch = launch)).map (·.team)
    lowestTeam taken l.teamWaits (2 ^ 26) 0

/-! ### Firing a program dune (13:R306, R308, 01:R22) -/

/-- Fires a program dune onto a core: lane i holds item i of the batch, in a one-gang group of a fresh team. A ring page that fails holds
the firing. -/
def State.fireDune (s : State) (launch d core : Nat) : State :=
  match s.launch? launch, s.dune? launch d with
  | some l, some u => match s.freshTeam launch l with
    | none => s
    | some team =>
      let n := s.batchSize launch l d u
      match s.mem.headItems l.owner u n with
      | .error t => s.ringFails launch d t
      | .ok xs =>
        let xs := xs.zipIdx
        let s := (s.updDune launch d fun u => u.dropHead n).unmark launch d
        let s := s.updLaunch launch fun l => { l with nextTeam := if l.nextTeam ≤ 0x3FFFFFF then l.nextTeam + 1 else l.nextTeam }
        let (id, s) := s.freshId
        let s := s.setGroups (s.groups.put id (Group.placed l launch team 0 core))
        let threads := xs.map fun p => (p.2, Thread.fresh p.1.fam p.1.lin .live)
        let c := xs.foldl (fun c p => (c.deliverItem l.kern.vregs p.2 p.1).setPc (bit p.2) p.1.entry) (Ctx.fresh (xs.map (·.2)) u.entry)
        s.placeGang id launch l 0 core (some d) u.cls threads c
  | _, _ => s

/-! ### Ranking (13:R306, 01:R21) -/

/-- A ready dune of a cluster as its firing engine ranks it; a root dune counts as number 1,024. -/
structure Ranked where
  launch : Nat
  dune : Nat
  starving : Bool
  cls : Nat
  count : Nat
  age : Nat
  seq : Nat
  deriving DecidableEq, Repr

/-- Whether a dune ranks before another. -/
def Ranked.before (a b : Ranked) : Bool :=
  if a.starving ≠ b.starving then a.starving
  else if a.cls ≠ b.cls then decide (b.cls < a.cls)
  else if a.count ≠ b.count then decide (b.count < a.count)
  else if a.age ≠ b.age then decide (b.age < a.age)
  else if a.dune ≠ b.dune then decide (a.dune < b.dune)
  else decide (a.seq ≤ b.seq)

/-- The ready dunes of a launch homed in a cluster. -/
def State.readyOf (s : State) (cluster launch : Nat) (l : Launch) : List Ranked :=
  let root := match l.roots.get? cluster with
    | none => []
    | some r => match r.items with
      | [] => []
      | (_, t) :: _ => [⟨launch, 1024, false, l.prio, r.items.length, ((BitVec.ofNat 32 (s.tick cluster)) - t).toNat, l.seq⟩]
  let progs := l.dunes.filterMap fun e =>
    let u := e.2
    if u.home = cluster ∧ u.ringFault.isNone ∧ s.duneReady launch l e.1 u then
      some ⟨launch, e.1, s.duneStarving launch l e.1 u, u.cls, u.count,
        (match u.items with | [] => 0 | x :: _ => s.itemAge u x), l.seq⟩
    else none
  if l.ended.isSome then [] else root ++ progs

/-- The ready dunes of a cluster, first to fire first. -/
def State.ranking (s : State) (cluster : Nat) : List Ranked :=
  sortBy Ranked.before ((s.launches.tab.map fun e => s.readyOf cluster e.1 e.2).flatten)

/-- Whether what a dune fires fits a core. -/
def State.rankedFits (s : State) (r : Ranked) (core : Nat) : Bool :=
  match s.launch? r.launch with
  | none => false
  | some l => if r.dune = 1024 then s.teamFits l core else (s.freshTeam r.launch l).isSome && s.firedFits l core

/-- Whether a dune may fire outside its cluster: root dunes, and dunes with SPREAD. -/
def State.rankedSpread (s : State) (r : Ranked) : Bool :=
  decide (r.dune = 1024) || (match s.dune? r.launch r.dune with | none => false | some u => u.spread)

/-- The cores among which a firing chooses: those that fit in the home cluster, else in the first cluster with room in the order
home + 1, home + 2 and so on. -/
def State.fireCores (s : State) (cluster : Nat) (r : Ranked) : List Nat :=
  let able (c : Nat) : List Nat := (coresOf c).filter (s.rankedFits r)
  let order := if s.rankedSpread r then (List.range Config.clusters).map fun i => (cluster + i) % Config.clusters else [cluster]
  ((order.map able).find? fun cs => !cs.isEmpty).getD []

/-- Fires a ranked dune onto a core. -/
def State.fireRanked (s : State) (cluster core : Nat) (r : Ranked) : State :=
  if r.dune ≠ 1024 then s.fireDune r.launch r.dune core
  else match s.launch? r.launch with
  | none => s
  | some l => match l.roots.get? cluster with
    | none => s
    | some q => match q.items with
      | [] => s
      | (team, _) :: rest =>
        let s := s.placeTeam r.launch l team core
        s.updLaunch r.launch fun l =>
          { l with roots := if rest.isEmpty ∧ l.teams ≤ q.cursor then l.roots.del cluster else l.roots.put cluster { q with items := rest } }

/-- What a firing engine does: the first dune of the ranking that fits fires, onto `core` where that is among the cores it may choose and
`pick` allows it. Before a dune is passed over, one gang that qualifies is evicted for it (01:R25). -/
def State.engine (s : State) (cluster core : Nat) (pick : Ranked → Bool) : List Ranked → State
  | [] => s
  | r :: rs =>
    let go (t : State) : Option State :=
      let cs := t.fireCores cluster r
      if cs.isEmpty then none else some (if pick r ∧ cs.contains core then t.fireRanked cluster core r else t)
    match go s with
    | some t => t
    | none => match s.evictFor cluster r.cls with
      | none => s.engine cluster core pick rs
      | some t => match go t with
        | some t => t
        | none => t.engine cluster core pick rs

/-- ROOT_DUNE_FIRING: the team item at the head of a root dune is placed, its first group on a core. -/
def execRootDuneFiring (launch cluster core : Nat) (s : State) : Host.Outcome State Fault Refusal :=
  .next (s.engine cluster core (fun r => decide (r.launch = launch ∧ r.dune = 1024)) (s.ranking cluster))

/-- DUNE_FIRING: a firing engine fires the first ready program dune whose gang fits, onto a core. -/
def execDuneFiring (cluster core : Nat) (s : State) : Host.Outcome State Fault Refusal :=
  .next (s.engine cluster core (fun r => decide (r.dune ≠ 1024)) (s.ranking cluster))

/-- ROOT_DUNE_ENQUEUE: the next team of its residue class enters a root dune that holds fewer than 64 items. -/
def execRootDuneEnqueue (launch cluster : Nat) (s : State) : Host.Outcome State Fault Refusal :=
  match s.launch? launch with
  | none => .next s
  | some l => match l.roots.get? cluster with
    | none => .next s
    | some r =>
      if r.items.length < 64 ∧ r.cursor < l.teams ∧ l.ended.isNone then
        .next (s.updLaunch launch fun l =>
          { l with roots := l.roots.put cluster ⟨r.cursor + Config.clusters, r.items ++ [(r.cursor, BitVec.ofNat 32 (s.tick cluster))]⟩ })
      else .next s

/-- The firing of a cluster that is possible now, with the lowest core it may choose. -/
def State.firing? (s : State) (cluster : Nat) : Option Instr :=
  ((s.ranking cluster).filterMap fun r => match s.fireCores cluster r with
    | [] => none
    | core :: _ => some (if r.dune = 1024 then .rootDuneFiring r.launch cluster core else .duneFiring cluster core)).head?

/-- The firing engine of a cluster looks at its dunes. -/
def State.engineLooks (s : State) (cluster : Nat) : State :=
  match s.firing? cluster with
  | none => s
  | some i => s.setAgenda (.event i :: s.agenda)

/-- EVICTION_DELAY: a gang's evictable time has reached the delay; the engine of its cluster looks again. -/
def execEvictionDelay (gang : Nat) (s : State) : Host.Outcome State Fault Refusal :=
  let s := s.noteEvictable gang
  let c := s.clusterOfGang gang
  match s.gang? gang with
  | none => .next s
  | some g => match g.evictable with
    | none => .next s
    | some t =>
      if s.setting 0x0000 ≤ s.tick c - t then
        .next (match (s.ranking c).head? with
          | none => s
          | some r => if r.dune = 1024 then s.setAgenda (.event (.rootDuneFiring r.launch c (Config.coresPerCluster * c)) :: s.agenda)
            else s.setAgenda (.event (.duneFiring c (Config.coresPerCluster * c)) :: s.agenda))
      else .next s

/-- DRIFT_EXPIRY: the head item of a dune has reached DRIFT in age: the dune is ready, and the engine of its home looks. -/
def execDriftExpiry (launch dune : Nat) (s : State) : Host.Outcome State Fault Refusal :=
  match s.launch? launch, s.dune? launch dune with
  | some l, some u => .next (if s.duneReady launch l dune u then s.engineLooks u.home else s)
  | _, _ => .next s

/-- STARVING: the head item of a ready dune exceeds twice DRIFT in age: the dune ranks as starving, and the engine looks. -/
def execStarving (launch dune : Nat) (s : State) : Host.Outcome State Fault Refusal :=
  match s.launch? launch, s.dune? launch dune with
  | some l, some u => .next (if s.duneStarving launch l dune u then s.engineLooks u.home else s)
  | _, _ => .next s

/-- Whether a launch meets the three conditions of the final drain, and none is under way (13:R305). -/
def State.finalDue (s : State) (launch : Nat) (l : Launch) : Bool :=
  l.ended.isNone && !l.draining && decide (l.roots.isEmpty) && !(s.gangs.vals.any fun g => decide (g.launch = launch) && !g.threads.isEmpty) &&
  l.dunes.vals.any fun u => decide (u.count ≠ 0)

/-- FINAL_DRAIN: every item of the launch's dunes is covered. -/
def execFinalDrain (launch : Nat) (s : State) : Host.Outcome State Fault Refusal :=
  match s.launch? launch with
  | none => .next s
  | some l =>
    if s.finalDue launch l then
      .next (s.updLaunch launch fun l =>
        { l with finalDrain := (l.dunes.filter fun e => decide (e.2.count ≠ 0)).map fun e => (e.1, e.2.items.map (·.serial)) })
    else .next s

/-- RING_ITEM_MOVE: the first item of a dune's ring moves into a free slot, as its entry then holds it. -/
def execRingItemMove (launch dune : Nat) (s : State) : Host.Outcome State Fault Refusal :=
  match s.launch? launch, s.dune? launch dune with
  | some l, some u =>
    if u.ringed.isEmpty ∨ u.ringFault.isSome ∨ s.freeSlots u.home = 0 then .next s
    else match s.mem.ringRead l.owner u u.ringPos (u.ringed.take 1) with
      | .error t => .next (s.ringFails launch dune t)
      | .ok xs => .next (s.updDune launch dune fun u =>
          { u with store := u.store ++ xs, ringPos := u.ringPos + 1, ringed := u.ringed.drop 1 })
  | _, _ => .next s

/-- DUNE_RING_FAULT_RESOLUTION: the delegation of the fault is consumed, and enqueues and firings of the dune proceed (DEDUCED, log 60). -/
def execDuneRingFaultResolution (launch dune : Nat) (s : State) : Host.Outcome State Fault Refusal :=
  .next (((s.ringDelegs launch dune).foldl State.dropDeleg s).updDune launch dune fun u => { u with ringFault := none })

end Sys2Proof.Machine
end

