-- ==== Sys2Proof/Machine/Launch.lean ====
section
/-! DEFINITION. Launches: records and descriptors, acceptance, the filling of allotments, completion, and the end of a launch before its
work is done (01:R16 to R20, R27, R28, R447, R448, 08:R182, R183). -/

namespace Sys2Proof.Machine

/-! ### Records and descriptors (01:R16, R17) -/

/-- A little-endian field of a record. -/
def fieldAt (bs : List Byte) (ofs n : Nat) : Nat := leNat ((bs.drop ofs).take n)
/-- Whether bytes `a` to `b − 1` are zero. -/
def zeroAt (bs : List Byte) (a b : Nat) : Bool := ((bs.take b).drop a).all fun x => decide (x = 0#8)
/-- A 64-bit field. -/
def fieldD (bs : List Byte) (ofs : Nat) : DWord := BitVec.ofNat 64 (fieldAt bs ofs 8)

/-- Whether a launch record keeps the limits of 01:R16. -/
def recordOk (r : List Byte) : Bool :=
  zeroAt r 0x26 0x28 && zeroAt r 0x38 0x80 &&
  decide (fieldAt r 0x00 8 % 64 = 0 ∧ fieldAt r 0x10 4 % 16 = 0 ∧ fieldAt r 0x10 4 ≤ 65536 ∧
    1 ≤ fieldAt r 0x14 4 ∧ fieldAt r 0x14 4 ≤ 67108864 ∧ 1 ≤ fieldAt r 0x18 2 ∧ fieldAt r 0x18 2 ≤ 2 ∧
    1 ≤ fieldAt r 0x1A 2 ∧ fieldAt r 0x1A 2 ≤ 16 ∧ fieldAt r 0x1C 4 < 2 ^ 24 ∧ fieldAt r 0x20 4 < 4 ∧
    fieldAt r 0x24 1 ≤ 3 ∧ fieldAt r 0x25 1 ≤ 59 ∧ (2 ≤ fieldAt r 0x20 4 ∨ fieldAt r 0x25 1 = 0))

/-- An entry address: canonical and a multiple of 4. -/
def entryOk (va : DWord) : Bool := canonical va && decide (va.toNat % 4 = 0)

/-- Whether a queue declaration keeps its limits. -/
def qdeclOk (q : Nat) : Bool := decide (q = 0) || decide (2 ^ 15 ≤ q ∧ q / 32 % 512 = 0 ∧ 1 ≤ q % 32 ∧ q % 32 ≤ 16)

/-- Whether a kernel descriptor keeps the limits of 01:R17. -/
def kernOk (d : List Byte) (plen : Nat) : Bool :=
  let dec := decide (fieldAt d 0x1D 1 % 2 = 1)
  zeroAt d 0x1E 0x20 && zeroAt d 0x3C 0x40 && entryOk (fieldD d 0x00) && entryOk (fieldD d 0x10) &&
  (if dec then entryOk (fieldD d 0x08) else decide (fieldD d 0x08 = 0#64)) &&
  decide (fieldAt d 0x18 1 ≤ 2 ∧ 1 ≤ fieldAt d 0x19 1 ∧ fieldAt d 0x19 1 ≤ 64 ∧ 1 ≤ fieldAt d 0x1A 1 ∧ fieldAt d 0x1A 1 ≤ 48 ∧
    fieldAt d 0x1D 1 < 4 ∧ fieldAt d 0x34 4 % 128 = 0 ∧ plen ≤ fieldAt d 0x34 4) &&
  (if dec then decide (1 ≤ fieldAt d 0x1B 1 ∧ fieldAt d 0x1B 1 ≤ 32 ∧ 1 ≤ fieldAt d 0x1C 1 ∧ fieldAt d 0x1C 1 ≤ 16)
   else decide (fieldAt d 0x1B 1 = 0 ∧ fieldAt d 0x1C 1 = 0)) &&
  (!dec || (List.range 8).all fun i => qdeclOk (fieldAt d (0x20 + 2 * i) 2))

/-- The kernel that a descriptor describes. -/
def Kern.ofBytes (d : List Byte) : Kern :=
  let dec := decide (fieldAt d 0x1D 1 % 2 = 1)
  let q (i : Nat) : Option (Nat × QDecl) :=
    let w := fieldAt d (0x20 + 2 * i) 2
    if dec ∧ 2 ^ 15 ≤ w then some (i, ⟨decide (w / 2 ^ 14 % 2 = 1), w % 32⟩) else none
  { centry := fieldD d 0x00, aentry := fieldD d 0x08, tentry := fieldD d 0x10, width := 16 * 2 ^ fieldAt d 0x18 1
    vregs := fieldAt d 0x19 1, sregs := fieldAt d 0x1A 1, avregs := fieldAt d 0x1B 1, asregs := fieldAt d 0x1C 1, decoupled := dec
    poisonTrap := decide (fieldAt d 0x1D 1 / 2 % 2 = 1), qdecl := (List.range 8).filterMap q, spadb := fieldAt d 0x34 4
    opndk := fieldAt d 0x38 2, acct := fieldAt d 0x3A 2 }

/-- The partition word of a launch: the record's, else the descriptor's, else the default (16/16/8/8). -/
def launchPtw (r d : List Byte) : Nat :=
  if fieldAt r 0x1C 4 ≠ 0 then fieldAt r 0x1C 4 else if fieldAt d 0x30 4 ≠ 0 then fieldAt d 0x30 4 else 0x00410208

/-- Whether a partition word is valid (08:R182). -/
def ptwOk (n : Nat) : Bool :=
  let f (i : Nat) : Nat := n / 2 ^ (6 * i) % 64
  decide (n < 2 ^ 24 ∧ f 0 + f 1 + f 2 + f 3 = 48 ∧ 4 ≤ f 3 ∧ 8 ≤ f 2)

/-- Whether a group of `n` gangs fits an empty core (01:R18). -/
def fitsEmpty (w : BitVec 24) (k : Kern) (n : Nat) : Bool :=
  decide (n ≤ 64 ∧ n * k.width ≤ 4096 ∧ n * k.regBytes ≤ ptwBytes w 0 ∧ k.spadb ≤ ptwBytes w 1 ∧ 1024 * k.opndk ≤ ptwBytes w 2 ∧
    32768 * k.acct ≤ ptwBytes w 3)

/-! ### Reads of the dispatcher (01:R19) -/

/-- Reads `n` bytes from `va` on, page by page; none where a page fails. -/
def MemSys.dispReads (m : MemSys) (owner : Nat) : Nat → DWord → Nat → Option (List Byte) × MemSys
  | 0, _, n => (if n = 0 then some [] else none, m)
  | k + 1, va, n =>
    if n = 0 then (some [], m)
    else
      let here := min n (4096 - va.toNat % 4096)
      match m.dispXlat owner .read va with
      | (.error _, m) => (none, m)
      | (.ok t, m) => match m.dispReads owner k (va + BitVec.ofNat 64 here) (n - here) with
        | (none, m) => (none, m)
        | (some bs, m) => (some (m.readBytes t.mt t.key t.pa here ++ bs), m)

/-! ### Completion words (01:R20, 18:R416, R417) -/

/-- A ring at reset: disabled (18:R417, R418) (DESIGN CHOICE, log 4). -/
def Ring.zero : Ring := ⟨0#64, 0#64, 0#64, 0#64, none⟩

/-- Sets bits of a ring's RSTAT; a bit that becomes 1 signals vector 63. -/
def State.ringFlag (s : State) (ring : Nat) (f : DWord) : State :=
  match s.launches.rings.getD ring Ring.zero with
  | r =>
    let t := s.setLaunches { s.launches with rings := s.launches.rings.put ring { r with rstat := r.rstat ||| f } }
    if r.rstat &&& f = f then t else t.msi 63

/-- The owner number of a ring; one that names no owner where none is bound (18:R418). -/
def State.ringOwner (s : State) (ring : Nat) : Nat := ((s.launches.rings.getD ring Ring.zero).owner).getD s.mem.owners.fresh

/-- Writes a completion word as a release at sys scope, or sets DROP where it can no longer be written. -/
def State.writeDone (s : State) (ring owner : Nat) (done : DWord) (word : Nat) (irq : Option Nat) : State :=
  match s.mem.dispXlat owner .write done with
  | (.error _, m) => (s.setMem m).ringFlag ring 2#64
  | (.ok t, m) =>
    let s := s.setMem (m.homeWrite none Writer.resident (some 4#3) false t.mt t.key t.pa (leBytes 8 word))
    match irq with
    | none => s
    | some v => s.msi v

/-- The end of a launch: its completion word is written and its number returns (01:R447). -/
def State.finishLaunch (s : State) (n : Nat) (l : Launch) (outcome cause : Nat) : State :=
  let s := s.writeDone l.ring l.owner l.done (l.retired * 2 ^ 32 + outcome * 32 + cause) (if l.irq then some l.ivec else none)
  s.setLaunches { s.launches with tab := s.launches.tab.del n }

/-! ### Acceptance (01:R19, R21, R447) -/

/-- The first launch number from `k` on that no live launch holds; 0xFFFF is no number. -/
def freeLaunch (tab : Assoc Launch) : Nat → Nat → Option Nat
  | 0, _ => none
  | n + 1, k => if tab.has (k % 0xFFFF) then freeLaunch tab n (k + 1) else some (k % 0xFFFF)

/-- A ring's fields (18:R418). -/
def Ring.en (r : Ring) : Bool := r.cfg.getLsbD 63
def Ring.command (r : Ring) : Bool := r.cfg.getLsbD 62
def Ring.key (r : Ring) : BitVec 10 := r.cfg.extractLsb' 52 10
def Ring.base (r : Ring) : Nat := (r.cfg.extractLsb' 12 40).toNat * 4096
def Ring.size (r : Ring) : Nat := 2 ^ (r.cfg.extractLsb' 0 5).toNat

/-- The entry at the head of a ring. -/
def State.ringEntry (s : State) (r : Ring) : List Byte := s.mem.readBytes 0#2 r.key (r.base + 128 * (r.head.toNat % r.size)) 128

/-- The head of a ring advances by one. -/
def State.ringTaken (s : State) (ring : Nat) : State :=
  s.setLaunches { s.launches with rings := s.launches.rings.upd ring fun r => { r with head := r.head + 1#64 } }

/-- A launch from its record, its descriptor and its parameter bytes. -/
def Launch.ofRecord (r d ps : List Byte) (ring owner seq : Nat) : Launch :=
  let teams := fieldAt r 0x14 4
  let flags := fieldAt r 0x20 4
  { kern := Kern.ofBytes d, teams := teams, gpt := fieldAt r 0x18 2, gangs := fieldAt r 0x1A 2, ptw := BitVec.ofNat 24 (launchPtw r d)
    ordered := decide (flags % 2 = 1), irq := decide (flags / 2 % 2 = 1), ivec := fieldAt r 0x25 1, prio := fieldAt r 0x24 1
    seed := fieldD r 0x28, done := fieldD r 0x30, params := ps, ring := ring, owner := owner, seq := seq
    roots := ((List.range Config.clusters).filter fun c => decide (c < teams)).map fun c => (c, ⟨c, []⟩)
    dunes := [], nextTeam := teams, retired := 0, exitCause := none, killed := false, ended := none, pairBars := [], finalDrain := [] }

/-- A refused record: OUTCOME 001 with the cause of the failed check (DEDUCED, log 64). -/
def State.refuse (s : State) (ring : Nat) (r : List Byte) (cause : Nat) : State :=
  s.writeDone ring (s.ringOwner ring) (fieldD r 0x30) (32 + cause) (if 2 ≤ fieldAt r 0x20 4 % 4 ∧ fieldAt r 0x25 1 ≤ 59 then some (fieldAt r 0x25 1) else none)

/-- The checks of a record and its acceptance (DEDUCED, log 65). -/
def State.takeRecord (s : State) (ring : Nat) (r : List Byte) : State :=
  let done := fieldD r 0x30
  let owner := s.ringOwner ring
  match s.mem.dispXlat owner .write done with
  | (.error _, m) => (s.setMem m).ringFlag ring 2#64
  | (.ok _, m) =>
    let s := s.setMem m
    if done.toNat % 8 ≠ 0 then s.ringFlag ring 2#64
    else
      let plen := fieldAt r 0x10 4
      match s.mem.dispReads owner 2 (fieldD r 0x00) 64 with
      | (none, m) => (s.setMem m).refuse ring r 3
      | (some d, m) => match m.dispReads owner (plen / 4096 + 2) (fieldD r 0x08) plen with
        | (none, m) => (s.setMem m).refuse ring r 3
        | (some ps, m) =>
          let s := s.setMem m
          if !recordOk r ∨ !kernOk d plen then s.refuse ring r 1
          else
            let l := Launch.ofRecord r d ps ring owner s.launches.seq
            if !ptwOk (launchPtw r d) ∨ !fitsEmpty l.ptw l.kern l.gangs then s.refuse ring r 15
            else match freeLaunch s.launches.tab 0xFFFF (match s.launches.last with | none => 0 | some k => k + 1) with
              | none => s
              | some n => s.setLaunches { s.launches with tab := s.launches.tab.put n l, last := some n, seq := s.launches.seq + 1 }

/-- Whether the dispatcher takes a record from a ring now: none while every launch number is held, of which the spec says nothing (DESIGN CHOICE,
log 79). -/
def State.takesRecord (s : State) (ring : Nat) : Bool :=
  match s.launches.rings.get? ring with
  | none => false
  | some r => r.en && !r.command && decide (r.head.toNat < r.tail.toNat ∧ s.dev.stage = 4 ∧ s.launches.tab.length < 0xFFFF) &&
      (List.range Config.clusters).all fun c => decide (64 ≤ s.freeSlots c)

/-- LAUNCH_RECORD_TAKE. -/
def execLaunchRecordTake (ring : Nat) (s : State) : Host.Outcome State Fault Refusal :=
  if !s.takesRecord ring then .next s
  else match s.launches.rings.get? ring with
  | none => .next s
  | some r => .next ((s.ringTaken ring).takeRecord ring (s.ringEntry r))

/-! ### Allotments and access contexts (08:R183, 01:R27) -/

/-- Whether a copy in flight has still to land in a scratchpad line. -/
def State.lineAwaits (s : State) (group line : Nat) : Bool :=
  s.ops.vals.any fun o => match o.data with
    | .copy ps _ => ps.any fun p => p.spad && decide (p.group = group ∧ p.dst / 128 = line)
    | _ => false

/-- ALLOTMENT_FILL: a line is filled; it becomes present unless it is owed to a copy. -/
def execAllotmentFill (group line : Nat) (s : State) : Host.Outcome State Fault Refusal :=
  match s.group? group with
  | none => .next s
  | some g =>
    if g.core.isNone then .next s
    else
      .next (s.updGroup group fun g => if s.lineAwaits group line || s.lineOwed group line then { g with filling := g.filling.filter fun k => decide (k ≠ line) } else g.fillLine line)

/-- The access lanes of ended threads that end now: at a clause boundary of the path; inside a clause, on the path or apart from it, those that
wait at a queue for an entry or for room that their thread can no longer bring (DEDUCED, log 21). -/
def State.endingAccess (s : State) (gang : Nat) (g : Gang) (a : Ctx) : Mask :=
  let stuck (m : Mask) (k : Cursor) : Mask := match g.core, s.launch? g.launch with
    | some core, some l => g.orphans &&& m &&& a.laneMask (fun _ l => decide (l.ws = .queueWait)) &&& s.queueStuck ⟨gang, true⟩ core l.owner m k
    | _, _ => 0#64
  let apart := a.mid.foldl (fun m e => if a.path.getLsbD e.1 then m else m ||| stuck (bit e.1) e.2) 0#64
  (match a.cur with
   | some k => stuck a.path k
   | none => g.orphansAtEnd) ||| apart

/-- ACCESS_CONTEXT_END: the access context ends in lanes whose threads have ended; their queue entries are discarded (01:R27, 12:R287). -/
def execAccessContextEnd (gang : Nat) (s : State) : Host.Outcome State Fault Refusal :=
  match s.gang? gang with
  | none => .next s
  | some g => match g.actx with
    | none => .next s
    | some a =>
      let m := s.endingAccess gang g a
      if m = 0#64 then .next s
      else .next (((s.endLanes gang true m).selectPath ⟨gang, true⟩).tryRetire gang)

/-! ### Completion (01:R20, R27) -/

/-- Whether nothing of a launch is in flight: no long form, no buffered write, no write to host memory without its acknowledgement,
no relaxed reduction whose act at the home slice is still to come (09:R212). -/
def State.launchQuiet (s : State) (n : Nat) : Bool :=
  !(s.ops.vals.any fun o => decide (o.launch = n)) && !(s.mem.wbuf.vals.any fun w => decide (w.launch = n)) &&
  !(s.mem.hostWr.vals.any fun w => decide (w.launch = n)) &&
  !(s.home.q.vals.any fun r => r.late.any fun o => decide (o.launch = n))

/-- Whether a launch is complete. -/
def State.launchDone (s : State) (n : Nat) (l : Launch) : Bool :=
  l.ended.isNone && l.roots.isEmpty && !(s.groups.vals.any fun r => decide (r.launch = n)) &&
  !(s.gangs.vals.any fun g => decide (g.launch = n)) && (l.dunes.vals.all fun u => decide (u.count = 0)) && s.launchQuiet n

/-- LAUNCH_COMPLETION. -/
def execLaunchCompletion (launch : Nat) (s : State) : Host.Outcome State Fault Refusal :=
  match s.launch? launch with
  | none => .next s
  | some l =>
    if !s.launchDone launch l then .next s
    else if l.killed then .next (s.finishLaunch launch l 2 0)
    else match l.exitCause with
      | some c => .next (s.finishLaunch launch l 3 c)
      | none => .next (s.finishLaunch launch l 0 0)

/-! ### The end of a launch before its work is done (01:R28) -/

/-- Whether a context stands where a freeze leaves it: at a clause boundary with no stepped clause to run first, waiting inside a clause, or
in a trap that waits (14:R333, R334, R438). -/
def State.ctxFrozen (s : State) (x : Site) : Bool :=
  match s.ctx? x with
  | none => true
  | some c =>
    (s.coreOf x.gang).isNone || (!(c.free && (s.stepGroup x).isSome) &&
    (decide (c.path = 0#64 ∧ c.stroke.isNone ∧ c.cur.isNone) || c.waitsInside || c.pend.isSome || c.retryAt.isSome ||
    (match c.frame with | none => false | some f => f.delegated) || (c.cur.isNone && c.stroke.isNone && !c.stepping)))

/-- The gangs of a launch. -/
def State.gangsOfLaunch (s : State) (n : Nat) : List Nat := (s.gangs.keep fun _ g => decide (g.launch = n)).keys

/-- Whether every context of a gang stands frozen. -/
def State.gangFrozen (s : State) (g : Nat) : Bool := s.ctxFrozen ⟨g, false⟩ && s.ctxFrozen ⟨g, true⟩

/-- Every thread of a gang ends; its long forms wait for nothing more. Its places in monitors and FIFOs stay until the last act. -/
def State.endThreads (s : State) (g : Nat) : State :=
  let s := s.setOps (s.ops.mapVal fun _ o =>
    if o.gang ≠ g then o
    else match o.data with
      | .wait | .bar | .barw _ => { o with left := 0#64 }
      | .home => (match o.i with
        | .waitv .. | .ld .. => { o with left := 0#64 }
        | _ => o)
      | .store => (match o.i with | .ldToQueue .. => { o with left := 0#64 } | _ => o)
      | _ => o)
  let clear (c : Ctx) : Ctx := { c.dropLanes (maskOf c.lanes.keys) with stroke := none, pend := none, late := [], retryAt := none, aside := none, resume := none }
  s.updGang g fun x => { x with threads := [], cctx := clear x.cctx, actx := x.actx.map clear, queues := x.queues.mapVal fun _ q => { q with ents := [] } }

/-- Whether an anchor names a thread of a launch. -/
def State.anchorOf (s : State) (n line : Nat) : Bool :=
  let pa := 128 * line
  let mine (x : DWord) : Bool := decide ((x.extractLsb' 48 16).toNat = n)
  decide ((s.mem.anc0 pa).state ≠ AncSt.free.code) && (mine (s.mem.ancWord pa 1) || mine (s.mem.ancWord pa 8))

/-- The gangs of an ended launch leave every monitor entry and every contender FIFO. -/
def State.leaveTables (s : State) (gs : List Nat) : State :=
  let s := s.setHome { s.home with monitors := (s.home.monitors.mapVal fun _ ws => ws.filter fun w => !gs.contains w.gang).keep fun _ ws => !ws.isEmpty }
  let s := s.setHome s.home.tidy
  s.home.fifos.foldl (fun s e => ((e.2.filter fun c => gs.contains c.gang).foldl (fun s c => s.leaveFifo e.1 c) s).ancTouch e.1) s

/-- The last acts: tables and areas are freed, anchors closed, the completion word written (DEDUCED, log 63). -/
def State.endLaunch (s : State) (n : Nat) (l : Launch) (cause : Nat) : State :=
  let gs := s.gangsOfLaunch n
  let s := s.leaveTables gs
  let anchors := s.home.anchors.keys.filter (s.anchorOf n)
  let s := gs.foldl State.removeGang s
  let s := anchors.foldl (fun s line => s.releaseAnchor (128 * line)) s
  s.finishLaunch n l 2 cause

/-- LAUNCH_END_EARLY: the end of a launch begins, with its cause; once every gang of it stands at a clause boundary its threads end; once
everything issued is performed the last acts follow. -/
def execLaunchEndEarly (launch cause : Nat) (s : State) : Host.Outcome State Fault Refusal :=
  match s.launch? launch with
  | none => .next s
  | some l => match l.ended with
    | none => .next (s.updLaunch launch fun l => { l with ended := some cause })
    | some c =>
      let gs := s.gangsOfLaunch launch
      let live := gs.any fun g => match s.gang? g with | none => false | some x => !x.over
      if live then
        if gs.all s.gangFrozen then .next (gs.foldl State.endThreads s) else .next s
      else if s.launchQuiet launch then .next (s.endLaunch launch l c) else .next s

end Sys2Proof.Machine
end

