-- ==== Sys2Proof/Machine/Device.lean ====
section
/-! DEFINITION. The outside world: doorbell rings, BAR0, the mailbox, boot, device settings, host and peer accesses, links, invalidations
and errors (18:R413 to R433, 08:R174, R176, R180, 03:R78, R79, 16:R397). -/

namespace Sys2Proof.Machine

/-! ### Rings (18:R417 to R419) -/

/-- Sets a ring. -/
def State.setRing (s : State) (ring : Nat) (r : Ring) : State := s.setLaunches { s.launches with rings := s.launches.rings.put ring r }
/-- A ring. -/
def State.ringOf (s : State) (ring : Nat) : Ring := s.launches.rings.getD ring Ring.zero

/-- CFG as a write sets it: bits [11:5] read 0, and N outside 1 to 16 leaves EN 0. -/
def cfgWord (w : DWord) : DWord :=
  let n := (w.extractLsb' 0 5).toNat
  let w := w &&& ~~~0xFE0#64
  if 1 ≤ n ∧ n ≤ 16 then w else w &&& ~~~(1#64 <<< 63)

/-- TAIL: a write that posts entries, or sets ERR. -/
def execTail (ring : Nat) (t : DWord) (s : State) : Host.Outcome State Fault Refusal :=
  if 64 ≤ ring then .next s
  else
    let r := s.ringOf ring
    if r.tail.toNat < t.toNat ∧ (t - r.head).toNat ≤ r.size then .next (s.setRing ring { r with tail := t })
    else .next (s.ringFlag ring 1#64)

/-- RSTAT: bits written as 1 clear. -/
def execRstat (ring : Nat) (w : DWord) (s : State) : Host.Outcome State Fault Refusal :=
  if 64 ≤ ring then .next s
  else
    let r := s.ringOf ring
    .next (s.setRing ring { r with rstat := r.rstat &&& ~~~(w &&& 3#64) })

/-- A write of CFG: of a ring that is not served it sets every field; of a served ring it can only clear EN. -/
def State.writeCfg (s : State) (ring : Nat) (w : DWord) : State :=
  let r := s.ringOf ring
  if !r.en then s.setRing ring ⟨0#64, 0#64, 0#64, cfgWord w, r.owner⟩
  else if w.getLsbD 63 then s
  else s.setRing ring { r with cfg := r.cfg &&& ~~~(1#64 <<< 63) }

/-- Binds a ring to an owner: one owner number for one root table and KEY (08:R168). -/
def State.bindOwner (s : State) (ring root : Nat) (key : BitVec 10) : State :=
  let (n, s) := match (s.mem.owners.keep fun _ o => decide (o = ⟨root, key⟩)).keys with
    | n :: _ => (n, s)
    | [] => (s.mem.owners.fresh, s.setMem { s.mem with owners := s.mem.owners.put s.mem.owners.fresh ⟨root, key⟩ })
  s.setRing ring { s.ringOf ring with owner := some n }

/-- RING_CONFIGURE: system software writes CFG and binds a launch ring that is not served to its owner. -/
def execRingConfigure (ring : Nat) (cfg : DWord) (owner : Option (Nat × BitVec 10)) (s : State) : Host.Outcome State Fault Refusal :=
  if 64 ≤ ring then .next s
  else
    let t := match owner with
      | none => s
      | some (root, key) => if (s.ringOf ring).en then s else s.bindOwner ring root key
    .next (t.writeCfg ring cfg)

/-- RING_DISABLE: a write of CFG with EN 0. -/
def execRingDisable (ring : Nat) (cfg : DWord) (s : State) : Host.Outcome State Fault Refusal :=
  if 64 ≤ ring then .next s else .next (s.writeCfg ring (cfg &&& ~~~(1#64 <<< 63)))

/-! ### Settings and registers (18:R415, R426, R433) -/

/-- A write of a setting: a value outside the range sets its nearer end. -/
def State.writeSetting (s : State) (offset : Nat) (w : DWord) : State :=
  match settingRange offset with
  | none => s
  | some (lo, hi, d) =>
    let v := min hi (max lo w.toNat)
    s.setDev { s.dev with settings := if v = d then s.dev.settings.del offset else s.dev.settings.put offset v }

/-- System software loads a key pair; areas that the device keeps under KEY 0 are lost with the pair under which they were written. -/
def State.loadPair (s : State) (key : BitVec 10) (p : BitVec 512) : State :=
  let (n, s) := s.draw
  s.setMem (s.mem.loadPair key p n)

/-- A word of what is written; one that is left out is zero. -/
def wordAt (w : List DWord) (i : Nat) : DWord := w.getD i 0#64

/-- A key pair from its eight words, the lowest first. -/
def pairOf (w : List DWord) : BitVec 512 := BitVec.ofNat 512 ((List.range 8).foldr (fun i n => (wordAt w i).toNat + 2 ^ 64 * n) 0)

/-- A window of a peer port from its words (18:R421). -/
def windowFrom (w : List DWord) : Window :=
  ⟨(wordAt w 0).toNat, (wordAt w 1).toNat, (wordAt w 2).setWidth 10, (wordAt w 3).getLsbD 0⟩

/-- DEVICE_SETTING_WRITE: system software writes a setting, or what it sets through a structure of its own. The spill table and the save-area pool
are set at boot: not while a launch lives. -/
def execDeviceSettingWrite (r : SysReg) (w : List DWord) (s : State) : Host.Outcome State Fault Refusal :=
  let boot := s.launches.tab.isEmpty
  .next (match r with
  | .setting offset => s.writeSetting offset (wordAt w 0)
  | .keyPair key => s.loadPair key (pairOf w)
  | .window port num =>
    if 16 ≤ port ∨ 16 ≤ num then s
    else s.setDev { s.dev with windows := if wordAt w 1 = 0#64 then s.dev.windows.del (16 * port + num)
                                          else s.dev.windows.put (16 * port + num) (windowFrom w) }
  | .decoderKey => s.setDev { s.dev with hdmKey := (wordAt w 0).setWidth 10 }
  | .spillTable => if boot then s.setHome { s.home with spillBase := (wordAt w 0).toNat, spillCap := (wordAt w 1).toNat } else s
  | .savePool => if boot then s.setLaunches { s.launches with savePool := (wordAt w 1).toNat, saveNext := (wordAt w 0).toNat } else s
  | .delegRing => s.setCtl { s.ctl with dring := some (wordAt w 0).toNat }
  | .eventRing => s.setCtl { s.ctl with ering := some (wordAt w 0).toNat })

/-- Writes the mailbox. -/
def State.setMbox (s : State) (m : Mailbox) : State := s.setDev { s.dev with mbox := m }

/-- A write of BAR0: NONCE holds what is written; every other offset without behaviour of its own ignores it. -/
def State.writeBar0 (s : State) (offset : Nat) (w : DWord) : State :=
  if 0x10020 ≤ offset ∧ offset < 0x10040 ∧ offset % 8 = 0 then
    let m := s.dev.mbox
    let k := offset - 0x10020
    s.setMbox { m with nonce := m.nonce.take k ++ leBytes 8 w.toNat ++ m.nonce.drop (k + 8) }
  else s

/-- REGISTER_WRITE: the host writes a register of BAR0, the MSI-X table or control (PRESUMED, log 102), or the base of its decoder. -/
def execRegisterWrite (r : HostReg) (w : List DWord) (s : State) : Host.Outcome State Fault Refusal :=
  let m := s.launches.msi
  let set (m : Msix) : State := s.setLaunches { s.launches with msi := m.flush }
  .next (match r with
  | .bar0 offset => s.writeBar0 offset (wordAt w 0)
  | .msixEntry v => if 64 ≤ v then s
    else set { m with tab := m.tab.put v ⟨wordAt w 0, (wordAt w 1).setWidth 32, (wordAt w 1).getLsbD 32⟩ }
  | .msixControl => set { m with enable := (wordAt w 0).getLsbD 15, masked := (wordAt w 0).getLsbD 14 }
  | .decoderBase => s.setDev { s.dev with hdmBase := (wordAt w 0).toNat })

/-- ATTESTATION: COMMAND 1, ignored while an operation is under way. -/
def execAttestation (s : State) : Host.Outcome State Fault Refusal :=
  let m := s.dev.mbox
  if m.status = 1 then .next s else .next (s.setMbox { m with status := 1, recovery := false })

/-- RECOVERY_PROGRAMMING: COMMAND 2, ignored while an operation is under way. -/
def execRecoveryProgramming (s : State) : Host.Outcome State Fault Refusal :=
  let m := s.dev.mbox
  if m.status = 1 then .next s else .next (s.setMbox { m with status := 1, recovery := true })

/-- The signed part of a report (18:R426). -/
def Device.reportHead (d : Device) : List Byte :=
  d.mbox.nonce ++ leBytes 16 d.mbox.serialNo.toNat ++ leBytes 8 d.fwver ++ leBytes 8 d.fuses ++ digestBytes d.image ++ digestBytes d.mbox.mlog

/-- A byte of the report: its head, then the signature. -/
def Mailbox.reportByte (m : Mailbox) (ofs : Nat) : Byte :=
  if ofs < 128 then m.report.getD ofs 0#8 else if ofs < 128 + 29792 then Config.reportByte m.sig (ofs - 128) else 0#8

/-- Boot status (18:R423). -/
def Device.bootStatus (d : Device) : DWord :=
  BitVec.ofNat 8 d.fwver ++ (0#44 ++ (BitVec.ofNat 4 d.err ++ (0#2 ++ (BitVec.ofNat 2 d.slot ++ BitVec.ofNat 4 d.stage))))

/-- A byte of the attestation mailbox as the host reads it: COMMAND is WO and reads zero (18:R426, 00:R7). -/
def Mailbox.byte (m : Mailbox) (ofs : Nat) : Byte :=
  if 0x08 ≤ ofs ∧ ofs < 0x10 then (leBytes 8 m.status).getD (ofs - 0x08) 0#8
  else if 0x20 ≤ ofs ∧ ofs < 0x40 then m.nonce.getD (ofs - 0x20) 0#8
  else if 0x1000 ≤ ofs then m.reportByte (ofs - 0x1000)
  else 0#8

/-- The registers of a doorbell page as the host reads them (18:R417). -/
def Ring.page (r : Ring) : List Byte := leBytes 8 r.tail.toNat ++ leBytes 8 r.head.toNat ++ leBytes 8 r.rstat.toNat ++ leBytes 8 r.cfg.toNat

/-- A byte of BAR0 as the host reads it: each register returns its fields, and every other offset zero (18:R415, 00:R7). No register of it
changes with a read. -/
def State.bar0Byte (s : State) (ofs : Nat) : Byte :=
  if ofs < 8 then (leBytes 8 s.dev.bootStatus.toNat).getD ofs 0#8
  else if 0x10000 ≤ ofs ∧ ofs < 0x20000 then s.dev.mbox.byte (ofs - 0x10000)
  else if 0x100000 ≤ ofs ∧ ofs < 0x140000 then (s.ringOf ((ofs - 0x100000) / 0x1000)).page.getD (ofs % 0x1000) 0#8
  else 0#8

/-- A 64-bit register of BAR0 as the host reads it. -/
def State.bar0 (s : State) (ofs : Nat) : DWord := BitVec.ofNat 64 (leNat ((List.range 8).map fun i => s.bar0Byte (ofs + i)))

/-- A byte of the flash: slots as last programmed, the reserved area of slot A erased, the certificate chain in slot B (18:R424, R425). -/
def Flash.byte (f : Flash) (a : Nat) : Byte :=
  match f.bytes.get? a with
  | some b => b
  | none =>
    if 0x7C000000 ≤ a then Config.chainByte a
    else if 0x3C000000 ≤ a ∧ a < 0x40000000 then 0xFF#8
    else match f.draw with
      | none => 0xFF#8
      | some k => Config.flashByte k a

/-- `n` bytes of the flash. -/
def Flash.read (f : Flash) (a n : Nat) : List Byte := (List.range n).map fun i => f.byte (a + i)

/-- A slot's header (18:R424). -/
def Flash.slot (f : Flash) (n : Nat) : Slot :=
  let b := 0x40000000 * n
  ⟨b, BitVec.ofNat 32 (leNat (f.read b 4)), BitVec.ofNat 32 (leNat (f.read (b + 4) 4)), leNat (f.read (b + 8) 8), leNat (f.read (b + 16) 8),
   BitVec.ofNat 64 (leNat (f.read (b + 24) 8)), BitVec.ofNat 256 (leNat (f.read (b + 32) 32).reverse)⟩

/-- Recovery programming: the host rewrites both slots; what it writes is free. -/
def Flash.program (f : Flash) (k : Nat) : Flash :=
  ⟨f.bytes.keep fun a _ => decide (0x3C000000 ≤ a % 0x40000000), some k⟩

/-- ATTESTATION_DONE: the operation ends; a report takes NONCE and MLOG now, a recovery leaves rewritten slots. -/
def execAttestationDone (ok : Bool) (s : State) : Host.Outcome State Fault Refusal :=
  if s.dev.mbox.status ≠ 1 then .next s
  else if !ok then .next ((s.setMbox { s.dev.mbox with status := 3 }).msi 62)
  else if s.dev.mbox.recovery then
    let (k, s) := s.draw
    let s := s.setDev { s.dev with flash := s.dev.flash.program k }
    .next ((s.setMbox { s.dev.mbox with status := 2 }).msi 62)
  else
    let (k, s) := s.draw
    .next ((s.setMbox { s.dev.mbox with status := 2, report := s.dev.reportHead, sig := k }).msi 62)

/-- MLOG_EXTEND. -/
def execMlogExtend (d : BitVec 256) (s : State) : Host.Outcome State Fault Refusal :=
  .next (s.setMbox { s.dev.mbox with mlog := sha256 (digestBytes s.dev.mbox.mlog ++ digestBytes d) })

/-! ### Boot (18:R423, R424) -/

/-- The image of a slot. -/
def Flash.image (f : Flash) (x : Slot) : List Byte := f.read (x.base + 0x8000) x.len

/-- Whether a slot verifies: its fields, its signature over bytes 0x0000 to 0x003F, and the digest of its image. -/
def Flash.verifies (f : Flash) (x : Slot) (fuses : Nat) : Bool :=
  decide (x.magic = 0x38324850#32 ∧ x.hver = 1#32 ∧ 1 ≤ x.len ∧ x.len ≤ 0x3BFF8000 ∧ fuses ≤ x.fwver) &&
  Config.signatureOk (f.read x.base 64) (f.read (x.base + 0x40) 29792) && decide (sha256 (f.image x) = x.digest)

/-- The slot that the ROM starts: the verifying one of the higher FWVER, A on a tie. -/
def Device.bootSlot (d : Device) : Option (Nat × Slot) :=
  let good (n : Nat) : Option Slot := if d.flash.verifies (d.flash.slot n) d.fuses then some (d.flash.slot n) else none
  match good 0, good 1 with
  | none, none => none
  | some a, none => some (1, a)
  | none, some b => some (2, b)
  | some a, some b => if a.fwver < b.fwver then some (2, b) else some (1, a)

/-- What outlives a device reset: host and peer memory, links, the flash, the fuses, the serial number; and the model's own fields. -/
def State.afterReset (s : State) : State :=
  let r := State.reset
  let mem := { r.mem with bytes := s.mem.bytes.filter fun b => decide (2 ^ 52 ≤ b.1), training := s.mem.training + 1 }
  let dev := { r.dev with linkDown := s.dev.linkDown, flash := s.dev.flash, fuses := s.dev.fuses
                          mbox := { r.dev.mbox with serialNo := s.dev.mbox.serialNo } }
  { r with agenda := s.agenda, turn := s.turn, nextId := s.nextId, draws := s.draws, mem := mem, dev := dev }

/-- Signals vector 63 once for each change of STAGE or ERR (18:R416). -/
def State.stageSignals (s : State) (n : Nat) : State := (List.range n).foldl (fun s _ => s.msi 63) s

/-- DEVICE_RESET: every piece of state returns to its reset value and the boot ROM runs: STAGE passes from 0 through each stage that it reaches.
Whether HBM training and key load succeed is free (DEDUCED, log 28). -/
def execDeviceReset (s : State) : Host.Outcome State Fault Refusal :=
  let s := s.afterReset
  match s.dev.bootSlot with
  | none => .next ((s.setDev { s.dev with stage := 15, err := 1 }).stageSignals 2)
  | some (n, x) =>
    let (k, s) := s.draw
    let (j, s) := s.draw
    let err := match (Config.freeWord k).toNat % 3 with | 0 => 0 | 1 => 2 | _ => 3
    let stage := if err = 0 then 4 else 2 + (Config.freeWord j).toNat % 2
    let dev := { s.dev with fwver := x.fwver, slot := n, err := err, stage := stage, image := x.digest
                            program := s.dev.flash.image x, entry := x.entry
                            mbox := { s.dev.mbox with mlog := x.digest } }
    .next ((s.setDev dev).stageSignals (if err = 0 then stage else stage + 1))

/-- FUSE_BLOW: the running image blows fuses up to `n`, at most its own FWVER. -/
def execFuseBlow (n : Nat) (s : State) : Host.Outcome State Fault Refusal :=
  if 2 ≤ s.dev.stage ∧ s.dev.stage ≠ 15 ∧ s.dev.fuses ≤ n ∧ n ≤ s.dev.fwver ∧ n ≤ 64 then .next (s.setDev { s.dev with fuses := n })
  else .next s

/-- FUNCTION_LEVEL_RESET: the function's MSI-X capability is reset and nothing is signalled any more, and the translations that it holds by ATS end
(PRESUMED, log 29); the device goes on. -/
def execFunctionLevelReset (s : State) : Host.Outcome State Fault Refusal :=
  .next ((s.setLaunches { s.launches with msix := [], msi := Msix.reset }).setMem { s.mem with ats := [] })

/-! ### Accesses from outside (10:R239, R240, 18:R414, R420, R421) -/

/-- A write from outside, at the home slices, line by line. -/
def MemSys.extWrite (m : MemSys) (rel : Option (BitVec 3)) (key : BitVec 10) : Nat → Nat → List Byte → MemSys
  | 0, _, _ => m
  | k + 1, pa, bs =>
    let n := min bs.length (128 - pa % 128)
    if n = 0 then m
    else (m.homeWrite none Writer.host rel false 0#2 key pa (bs.take n)).extWrite rel key k (pa + n) (bs.drop n)

/-- A read from outside, at the home slices, line by line: its bytes, and whether the host keeps a copy of its lines. -/
def MemSys.extRead (m : MemSys) (host : Bool) (key : BitVec 10) : Nat → Nat → Nat → List Byte × MemSys
  | 0, _, _ => ([], m)
  | k + 1, pa, n =>
    let here := min n (128 - pa % 128)
    if here = 0 then ([], m)
    else
      let bs := m.readBytes 0#2 key pa here
      let t := m.homeFill 0#2 key false pa false
      let t := if host then { t with hostCopy := t.hostCopy.put (lineOf 0#2 pa) () } else t
      let (rest, t) := t.extRead host key k (pa + here) (n - here)
      (bs ++ rest, t)

/-- Whether a write from outside is held: it touches the line of an active anchor, or one that an engine owns (DEDUCED, log 55). -/
def State.extHeld (s : State) (mt : BitVec 2) (pa n : Nat) : Bool :=
  (List.range (n / 128 + 2)).any fun i =>
    let a := pa / 128 * 128 + 128 * i
    decide (a < pa + n) && (s.anchorAt mt a || s.lineOwned (lineOf mt a))

/-- A line that the host asks for is written back: its copies in the device stay, none of them dirty (18:R413). -/
def MemSys.flushLine (m : MemSys) (line : Nat) : MemSys :=
  { m with homeTag := m.homeTag.upd line fun h => { h with dirty := false }
           l1Tag := m.l1Tag.mapVal fun x d => d && decide (x % 2 ^ 47 ≠ line) }

/-- No copy of a line is left in the device. -/
def MemSys.dropLine (m : MemSys) (line : Nat) : MemSys :=
  { m with homeTag := m.homeTag.del line, l1Tag := m.l1Tag.keep fun x _ => decide (x % 2 ^ 47 ≠ line) }

/-- The host writes its own memory, line by line: a line that home slices cache is taken from them first (18:R413). -/
def MemSys.hostWrite (m : MemSys) : Nat → Nat → List Byte → MemSys
  | 0, _, _ => m
  | k + 1, pa, bs =>
    let n := min bs.length (128 - pa % 128)
    if n = 0 then m
    else (((m.writeBytes 1#2 0#10 pa (bs.take n)).unpoison 1#2 pa n).dropLine (lineOf 1#2 pa)).hostWrite k (pa + n) (bs.drop n)

/-- The host reads its own memory: lines that home slices hold dirty are written back first. -/
def MemSys.hostRead (m : MemSys) (pa n : Nat) : MemSys :=
  ((List.range (n / 128 + 2)).filter fun i => decide (pa / 128 * 128 + 128 * i < pa + n)).foldl (fun m i => m.flushLine (lineOf 1#2 pa + i)) m

/-- Whether only the mailbox and BAR0 answer: in recovery (18:R424). -/
def State.recovering (s : State) : Bool := decide (s.dev.stage = 15)

/-- An access from outside to HBM under a KEY: a read delivers its bytes, a write is performed; one outside HBM, or in recovery, has no effect.
A write waits while its line is held. -/
def State.extAccess (s : State) (host : Bool) (key : BitVec 10) (pa : Nat) (acc : ExtAcc) : State :=
  let refused := s.setDev { s.dev with answer := none }
  match acc with
  | .read n =>
    if s.recovering ∨ Config.hbmBytes < pa + n then refused
    else
      let (bs, m) := s.mem.extRead host key (n / 128 + 2) pa n
      (s.setMem m).setDev { s.dev with answer := some bs }
  | .write bs rel =>
    if s.recovering ∨ Config.hbmBytes < pa + bs.length then refused
    else if s.extHeld 0#2 pa bs.length then s
    else (s.setMem (s.mem.extWrite (if rel && !host then some 4#3 else none) key (bs.length / 128 + 2) pa bs)).setDev { s.dev with answer := some [] }

/-- An access of the host to its own memory, coherent with the lines of it that home slices cache (18:R413; DEDUCED, log 118). A write waits while
a copy engine owns its line. -/
def State.hostAccess (s : State) (pa : Nat) (acc : ExtAcc) : State :=
  let answer (s : State) (bs : Option (List Byte)) : State := s.setDev { s.dev with answer := bs }
  match acc with
  | .read n => if Config.hostBytes < pa + n then answer s none
    else answer (s.setMem (s.mem.hostRead pa n)) (some (s.mem.readBytes 1#2 0#10 pa n))
  | .write bs _ => if Config.hostBytes < pa + bs.length then answer s none
    else if s.extHeld 1#2 pa bs.length then s
    else answer (s.setMem (s.mem.hostWrite (bs.length / 128 + 2) pa bs)) (some [])

/-- HOST_ACCESS at a host physical address: in the range of the HDM decoder to device HBM, under the KEY bound to the range, where a write clears V;
elsewhere to the host's own memory (DEDUCED, logs 52, 54, 118). -/
def execHostAccess (addr : Nat) (acc : ExtAcc) (s : State) : Host.Outcome State Fault Refusal :=
  .next (if s.dev.hdmBase ≤ addr ∧ addr < s.dev.hdmBase + Config.hbmBytes then s.extAccess true s.dev.hdmKey (addr - s.dev.hdmBase) acc
    else s.hostAccess addr acc)

/-- The lowest window of a port that holds a range (DESIGN CHOICE, log 53). -/
def State.windowOf (s : State) (port addr n : Nat) : Option Window :=
  ((List.range 16).filterMap fun k => match s.dev.windows.get? (16 * port + k) with
    | none => none
    | some w => if w.base ≤ addr ∧ addr + n ≤ w.base + 4096 * w.len then some w else none).head?

/-- Bytes of an access from outside. -/
def extBytes : ExtAcc → Nat
  | .read n => n
  | .write bs _ => bs.length

/-- Whether it writes. -/
def extWrites : ExtAcc → Bool
  | .read _ => false
  | .write .. => true

/-- PEER_ACCESS: served inside a window, under its KEY, or refused with no effect. -/
def execPeerAccess (port addr : Nat) (acc : ExtAcc) (s : State) : Host.Outcome State Fault Refusal :=
  if s.dev.linkDown.has port then .next s
  else match s.windowOf port addr (extBytes acc) with
    | none => .next (s.setDev { s.dev with answer := none })
    | some w => .next (if extWrites acc && !w.we then s.setDev { s.dev with answer := none } else s.extAccess false w.key addr acc)

/-- PEER_LINK_DOWN. -/
def execPeerLinkDown (port : Nat) (s : State) : Host.Outcome State Fault Refusal :=
  if 16 ≤ port then .next s else .next (s.setDev { s.dev with linkDown := s.dev.linkDown.put port () })

/-- PEER_LINK_UP. -/
def execPeerLinkUp (port : Nat) (s : State) : Host.Outcome State Fault Refusal := .next (s.setDev { s.dev with linkDown := s.dev.linkDown.del port })

/-- FLIT_CRC_RETRY: a retry changes latency only (18:R420). -/
def execFlitCrcRetry (_port : Nat) (s : State) : Host.Outcome State Fault Refusal := .next s

/-! ### Invalidations (08:R174, R176) -/

/-- Whether a buffered write, a request or a long form still stands. -/
def State.stands (s : State) (k : Nat) : Bool := s.mem.wbuf.has k || s.mem.hostWr.has k || s.home.q.has k || s.ops.has k

/-- Accesses of an owner to a range that are translated and not yet performed at sys scope: buffered writes, writes that the host has not
acknowledged, requests, waiters, and copies under way. -/
def State.translated (s : State) (owner : Nat) (lo hi : DWord) : List Nat :=
  let mine (l : Nat) : Bool := (s.launch? l).any fun w => decide (w.owner = owner)
  let mineOp (o : Nat) : Bool := (s.op? o).any fun o => mine o.launch
  let inside (va : DWord) (n : Nat) : Bool := decide (va.toNat ≤ hi.toNat ∧ lo.toNat < va.toNat + n)
  (s.mem.wbuf.keep fun _ w => mine w.launch && inside w.va w.bytes.length).keys ++
  (s.mem.hostWr.keep fun _ w => mine w.launch).keys ++
  (s.home.q.keep fun _ r => ((s.reqOp r).any fun o => mine o.launch) && inside r.va 16).keys ++
  ((s.home.monitors.vals.flatten.filter fun w => mineOp w.op && inside w.va 16).map (·.op)) ++
  (s.ops.keep fun _ o => mine o.launch && (match o.data with | .copy .. => true | _ => false)).keys

/-- TLB_INVALIDATION: no TLB holds an entry of the owner for the range afterwards. It is complete at once where no access translated through
such an entry is still to be performed; else it stands among the incomplete ones until they are. -/
def execTlbInvalidation (owner : Nat) (lo hi : DWord) (s : State) : Host.Outcome State Fault Refusal :=
  let keep (e : TlbEnt) : Bool := !decide (e.owner = owner ∧ e.va ≤ hi.toNat ∧ lo.toNat < e.va + e.size)
  let waits := s.translated owner lo hi
  let old := s.ctl.invals.filter fun v => v.waits.any s.stands
  .next ((s.setMem { s.mem with tlb := s.mem.tlb.mapVal fun _ es => es.filter keep, ctlb := s.mem.ctlb.mapVal fun _ es => es.filter keep }).setCtl
    { s.ctl with invals := if waits.isEmpty then old else old ++ [⟨owner, lo, hi, waits⟩] })

/-- Whether an invalidation that system software waits for is complete (08:R174). -/
def State.invalidated (s : State) (owner : Nat) (lo hi : DWord) : Bool :=
  s.ctl.invals.all fun v => decide (v.owner ≠ owner ∨ v.lo ≠ lo ∨ v.hi ≠ hi) || !(v.waits.any s.stands)

/-- ICACHE_INVALIDATION: no instruction cache holds a line of the range (physical, with the memory type above bit 52) afterwards. -/
def execIcacheInvalidation (lo hi : Nat) (s : State) : Host.Outcome State Fault Refusal :=
  .next (s.setMem { s.mem with icache := s.mem.icache.keep fun k _ => !decide (lo / 128 ≤ k % 2 ^ 47 ∧ k % 2 ^ 47 ≤ hi / 128) })

/-! ### Errors (03:R78, R79, 08:R180, R190, 16:R397) -/

/-- A half of a copy is poisoned. -/
def Reg.poisonHalf (r : Reg) (high : Bool) : Reg := if high then { r with phi := true } else { r with plo := true }

/-- A protected register with an error holds an erroneous value, a free one (03:R79; DEDUCED, log 98). Of what the control of the machine holds as
well (`tcg`, the scoreboard counters, `ptw`, the identity, `seed`, `lnch`) the erroneous value stands beside its own, as what reads of it give. -/
def State.spoil (s : State) (g : Nat) (a : Bool) (n lane : Nat) : State :=
  let x : Site := ⟨g, a⟩
  let (i, s) := s.draw
  let (j, s) := s.draw
  let w := Config.freeWord i
  let d := dword w (Config.freeWord j)
  let m := match s.gang? g with | none => 0#64 | some g => widthMask g.width
  let beside (d : DWord) : State := s.updCtx x fun c => { c with spoiled := c.spoiled.put (parityKey n lane) d }
  if n = 0x00 then s.updCtx x fun c => { c with gst := w &&& 0xFF#32 }
  else if n = 0x01 then beside (d &&& 0x1F#64)
  else if n = 0x02 then s.updCtx x fun c => { c with tlm := d }
  else if n = 0x03 then s.updCtx x fun c => { c with d0 := w }
  else if n = 0x04 then s.updCtx x fun c => { c with d1 := w }
  else if n = 0x05 then s.updCtx x fun c => { c with d2 := w }
  else if n = 0x06 then s.updCtx x fun c => { c with tra := d }
  else if n = 0x0A then s.updThread g lane fun t => { t with fam := w }
  else if n = 0x0C then s.updThread g lane fun t => { t with rngc := d }
  else if 0x10 ≤ n ∧ n < 0x18 then s.updCtx x fun c => { c with k := c.k.putD (n - 0x10) (d &&& m) 0#64 }
  else if 0x18 ≤ n ∧ n < 0x20 then s.updCtx x fun c => { c with j := c.j.putD (n - 0x18) (d &&& m) 0#64 }
  else if 0x20 ≤ n ∧ n < 0x24 then beside (d &&& 0x3F#64)
  else if n = 0x08 then beside (d &&& 0xFFFFFF#64)
  else if n = 0x09 ∨ n = 0x0B then beside d
  else if n = 0x0D then beside (d &&& 0xFFFFFFFF#64)
  else if 0x70 ≤ n ∧ n < 0x78 then s.updThread g lane fun t => { t with c := t.c.putD (n - 0x70) w 0#32 }
  else s

/-- UNCORRECTABLE_ERROR: background checking finds an error; a copy, line or word is poisoned, a parity error waits for its reader, a
corrected error is counted. An error in a dead copy is discarded. -/
def execUncorrectableError (e : ErrSite) (s : State) : Host.Outcome State Fault Refusal :=
  match e with
  | .vcopy g a r lane hi => .next (s.updCtx ⟨g, a⟩ fun c => { c with v := c.v.upd (64 * r + lane) fun x => x.poisonHalf hi })
  | .scopy g a r hi => .next (s.updCtx ⟨g, a⟩ fun c => { c with s := c.s.upd r fun x => x.poisonHalf hi })
  | .parity g a n lane => .next ((s.spoil g a n lane).updCtx ⟨g, a⟩ fun c => { c with parity := c.parity.put (parityKey n lane) () })
  | .line mt line => .next (s.setMem { s.mem with poison := s.mem.poison.put (lineOf (BitVec.ofNat 2 mt) (128 * line)) () })
  | .pool g kind w => .next (s.updGroup g fun r =>
      match kind with
      | 0 => { r with spadPoison := r.spadPoison.put w () }
      | 1 => { r with opndPoison := r.opndPoison.put w () }
      | _ => { r with accPoison := r.accPoison.put w () })
  | .sliceFixed k => if 192 ≤ k then .next s
    else .next (s.setMem { s.mem with errSlice := s.mem.errSlice.put k ((s.mem.errSlice.getD k 0 + 1) % 2 ^ 32) })
  | .stackFixed k => if 16 ≤ k then .next s
    else .next (s.setMem { s.mem with errStack := s.mem.errStack.put k ((s.mem.errStack.getD k 0 + 1) % 2 ^ 32) })
  | .copyFixed g a => .next (s.pmEvent g a 0x0D 1)

/-- CONTEXT_STORE_ERROR: the end of the entry's launch begins, with cause HWERR; of an evicted gang, an error in its save area (16:R392). -/
def execContextStoreError (gang : Nat) (access : Bool) (s : State) : Host.Outcome State Fault Refusal :=
  match s.gang? gang with
  | none => .next s
  | some g => match g.ctx? access with
    | none => .next s
    | some _ => .next (s.setAgenda (.event (.launchEndEarly g.launch 13) :: s.agenda))

end Sys2Proof.Machine
end

