-- ==== Sys2Proof/Machine/Dunes.lean ====
section
/-! DEFINITION. The dune instructions (13:R303, R309 to R320). -/

namespace Sys2Proof.Machine

/-! ### Naming a dune (13:R303, R315) -/

/-- Whether an entry address names no dune. -/
def badEntry (va : DWord) : Bool := decide (va.toNat % 4 ≠ 0) || !canonical va

/-- DUNE: X holds the dune's number, 0x3FF for none. -/
def Env.duneTrap (e : Env) (reason lane dune : Nat) (va : DWord) : TrapRec := e.trapVa 8 reason (bit lane) (BitVec.ofNat 17 dune) va

/-- The dune of a pair, created where the launch holds none: its number and whether it is new; none when the table is full. -/
def State.duneFor (s : State) (l cluster : Nat) (entry : DWord) (key : Word) : Option (Nat × Bool × State) :=
  match s.launch? l with
  | none => none
  | some w => match w.findDune entry key with
    | some d => some (d, false, s)
    | none =>
      let d := w.dunes.length
      if 1024 ≤ d then none
      else
        let u := Dune.fresh entry key (duneConfig cluster w.prio w.kern.width)
        some (d, true, s.updLaunch l fun w => { w with dunes := w.dunes.put d u })

/-! ### Enqueues (13:R312, R314) -/

/-- What one lane of an enqueue answers. -/
inductive Enq where
  | ok (s : State)
  | fail (s : State) (t : TrapRec)
  /-- a ring page of a dune fails: the instruction waits -/
  | wait (dune : Nat) (t : TrapRec)

/-- Enqueues the item of one lane. -/
def Env.enqueueLane (e : Env) (s : State) (lane : Nat) (entry : DWord) (key : Word) (ws : List Word) : Enq :=
  match s.thread? e.x.gang lane with
  | none => .ok s
  | some t =>
    if badEntry entry then .fail s (e.duneTrap 5 lane 0x3FF entry)
    else match s.duneFor e.g.launch (clusterOf e.core) entry key with
      | none => .fail s (e.duneTrap 2 lane 0x3FF entry)
      | some (d, _, s) =>
        if e.l.ordered ∧ (5 ≤ linDepth t.lin ∨ 8191 < t.cnt) then .fail s (e.duneTrap 3 lane d entry)
        else
          let home := match s.dune? e.g.launch d with | none => 0 | some u => u.home
          let x : Item := { entry := entry, key := key, fam := t.fam, lin := linExtend t.lin t.cnt, tick := BitVec.ofNat 32 (s.tick home)
                            w := ws ++ List.replicate (8 - ws.length) 0#32, serial := 0 }
          match s.placeItem e.g.launch d x with
          | .full => .fail s (e.duneTrap 1 lane d entry)
          | .fault t => .wait d t
          | .ok s => .ok (s.updThread e.x.gang lane fun t => { t with cnt := t.cnt + 1 })

/-- What the lanes of an enqueue come to, in increasing lane number: the state, the lanes accepted and those that fail. -/
inductive Enqs where
  | done (s : State) (ok : Mask) (fails : Assoc TrapRec)
  | wait (dune : Nat) (t : TrapRec)

/-- Enqueues the items of lanes. -/
def Env.enqueueLanes (e : Env) (entry : Nat → DWord) (key : Nat → Word) (ws : Nat → List Word) : List Nat → State → Mask → Assoc TrapRec → Enqs
  | [], s, ok, fails => .done s ok fails
  | n :: ns, s, ok, fails =>
    match e.enqueueLane s n (entry n) (key n) (ws n) with
    | .ok s => e.enqueueLanes entry key ws ns s (ok ||| bit n) fails
    | .fail s t => e.enqueueLanes entry key ws ns s ok (fails.put n t)
    | .wait d t => .wait d t

/-- `spawn` and `tokput`: the payload is the use `k`. The lanes' items are accepted in one act; where a ring page fails in one, the whole
instruction waits (13:R304, R309). -/
def Env.enqueue (e : Env) (s : State) (key : Nat → Word) (k n : Nat) : Res :=
  match e.enqueueLanes (e.pair 0) key (fun lane => e.words k n lane) e.lanes s 0#64 [] with
  | .wait d t => .hold (s.ringFails e.g.launch d t)
  | .done s ok fails => e.part (e.launchOp (e.settle s ok (decide (ok = e.act))) ok) fails

def execSpawn (p : Pfx) (l : Lf) (pw : BitVec 4) (a c : Hs) (s : State) :=
  run (.spawn p l pw a c) s fun e s => e.enqueue s (fun _ => 0#32) 1 pw.toNat

def execTokput (p : Pfx) (l : Lf) (pw : BitVec 4) (a b c : Hs) (s : State) :=
  run (.tokput p l pw a b c) s fun e s => e.enqueue s (e.word 1) 2 pw.toNat

/-! ### Configuration (13:R316, R317) -/

/-- Whether a configuration word is outside its limits. -/
def badConfig (width : Nat) (c : DWord) : Bool :=
  let crest := (c.extractLsb' 0 7).toNat
  decide (crest = 0 ∨ width < crest ∨ 23 < (c.extractLsb' 11 5).toNat ∨ c.extractLsb' 16 24 ≠ 0#24) || c.getLsbD 7

/-- `dset` in one lane: the status, or a trap. -/
def Env.dsetLane (e : Env) (s : State) (lane : Nat) : Except TrapRec Word × State :=
  let entry := e.pair 0 lane
  let c := e.pair 2 lane
  if badEntry entry then (.error (e.duneTrap 5 lane 0x3FF entry), s)
  else match s.duneFor e.g.launch (clusterOf e.core) entry (e.word 1 lane) with
    | none => (.error (e.duneTrap 2 lane 0x3FF entry), s)
    | some (d, new, t) =>
      let busy := match t.dune? e.g.launch d with
        | none => false
        | some u => decide (u.count ≠ 0) && decide ((u.cfg ^^^ c).extractLsb' 10 6 ≠ 0#6)
      if busy then (.error (e.duneTrap 4 lane d entry), s)
      else (.ok (BitVec.ofBool new ++ BitVec.ofNat 31 d), t.updDune e.g.launch d fun u => { u with cfg := c })

/-- Performs a lane function in increasing lane number: values of the lanes that pass, and the lanes that fail. -/
def eachLane {α : Type} (f : State → Nat → Except TrapRec α × State) : List Nat → State → Assoc α → Assoc TrapRec → State × Assoc α × Assoc TrapRec
  | [], s, vals, fails => (s, vals, fails)
  | n :: ns, s, vals, fails =>
    match f s n with
    | (.ok v, s) => eachLane f ns s (vals.put n v) fails
    | (.error t, s) => eachLane f ns s vals (fails.put n t)

def execDset (p : Pfx) (l : Lf) (d : Opnd) (a b c : Hs) (s : State) :=
  run (.dset p l d a b c) s fun e s =>
    if e.lanes.any fun n => badConfig e.width (e.pair 2 n) then .raise s (e.insn .duneOperand)
    else
      let (s, vals, fails) := eachLane e.dsetLane e.lanes s [] []
      let ok := maskOf vals.keys
      let s := e.settle s ok fails.isEmpty
      let s := s.writeReg e.x d 1 vals.keys e.nib fun n => [vals.getD n 0#32]
      e.part (e.launchOp s ok) fails

/-- The four words of `dget`. -/
def State.duneWords (s : State) (l : Nat) (entry : DWord) (key : Word) : List Word :=
  match s.launch? l with
  | none => List.replicate 4 0#32
  | some w => match w.findDune entry key with
    | none => List.replicate 4 0#32
    | some d => match w.dunes.get? d with
      | none => List.replicate 4 0#32
      | some u =>
        let b (x : Bool) (i : Nat) : Word := if x then BitVec.twoPow 32 i else 0#32
        let drain := u.items.any (w.covers d u)
        [BitVec.ofNat 32 (min u.count 0xFFFFFFFF),
         b true 31 ||| b (s.duneReady l w d u) 30 ||| b (s.duneAged l w d u) 29 ||| b (!u.ringed.isEmpty) 28 ||| b drain 27 ||| BitVec.ofNat 32 d] ++
        dwords u.cfg

def execDget (p : Pfx) (l : Lf) (d : Opnd) (a b : Hs) (s : State) :=
  run (.dget p l d a b) s fun e s => e.longWrite s fun n => s.duneWords e.g.launch (e.pair 0 n) (e.word 1 n)

/-! ### Drain marks (13:R319) -/

/-- The greater of two lineages. -/
def linMax (a b : List Nat) : List Nat := if linLess a b then b else a

/-- `ddrain` in one lane. -/
def Env.ddrainLane (e : Env) (s : State) (lane : Nat) : State :=
  match s.launch? e.g.launch, s.thread? e.x.gang lane with
  | some w, some t => match w.findDune (e.pair 0 lane) (e.word 1 lane) with
    | none => s
    | some d =>
      if w.ordered then
        let m := linKey t.lin ++ [t.cnt]
        (s.updDune e.g.launch d fun u => { u with mark := some (match u.mark with | none => m | some k => linMax k m) }).unmark e.g.launch d
      else s.updDune e.g.launch d fun u => { u with covered := u.items.map (·.serial) }
  | _, _ => s

def execDdrain (p : Pfx) (l : Lf) (a b : Hs) (s : State) :=
  run (.ddrain p l a b) s fun e s => .done (e.settle (e.lanes.foldl e.ddrainLane s) e.act true)

/-! ### Spill rings (13:R320) -/

/-- Whether a ring word is outside its limits (DEDUCED, log 57). -/
def badRing (c : DWord) : Bool :=
  let n := (c.extractLsb' 0 5).toNat
  decide (20 < n ∨ c.extractLsb' 5 7 ≠ 0#7) || (decide (n ≠ 0) && !canonical (c &&& ~~~0xFFF#64))

/-- The first page from `va` on that fails translation for writing. -/
def Env.pagesFail (e : Env) : Nat → DWord → State → Option (XFault × DWord) × State
  | 0, _, s => (none, s)
  | n + 1, va, s =>
    match s.xlat e.x e.core e.l.owner .write va with
    | (.error f, s) => (some (f, va), s)
    | (.ok _, s) => e.pagesFail n (va + 4096#64) s

/-- `dspill` in one lane (DEDUCED, log 56). -/
def Env.dspillLane (e : Env) (s : State) (lane : Nat) : Except TrapRec Unit × State :=
  let entry := e.pair 0 lane
  let c := e.pair 2 lane
  let n := (c.extractLsb' 0 5).toNat
  if badEntry entry then (.error (e.duneTrap 5 lane 0x3FF entry), s)
  else match s.duneFor e.g.launch (clusterOf e.core) entry (e.word 1 lane) with
    | none => (.error (e.duneTrap 2 lane 0x3FF entry), s)
    | some (d, _, t) =>
      match t.dune? e.g.launch d with
      | none => (.ok (), s)
      | some u =>
        if !u.ringed.isEmpty ∧ u.ring ≠ c then (.error (e.duneTrap 4 lane d entry), s)
        else match e.pagesFail (if n = 0 then 0 else (64 * 2 ^ n + 4095) / 4096) (c &&& ~~~0xFFF#64) t with
          | (some (f, va), t) => (.error (e.trapVa f.cause f.reason (bit lane) (kindX .write f.level) va), s.setMem t.mem)
          | (none, t) =>
            if !u.ringed.isEmpty then (.ok (), t)
            else (.ok (), t.updDune e.g.launch d fun u => { u with ring := c, ringPos := 0, ringFault := none })

def execDspill (p : Pfx) (l : Lf) (a b c : Hs) (s : State) :=
  run (.dspill p l a b c) s fun e s =>
    if e.lanes.any fun n => badRing (e.pair 2 n) then .raise s (e.insn .duneOperand)
    else
      let (s, vals, fails) := eachLane e.dspillLane e.lanes s [] []
      let ok := maskOf vals.keys
      e.part (e.launchOp (e.settle s ok fails.isEmpty) ok) fails

/-! ### Items in a running gang (13:R311, R318) -/

def execItemfin (p : Pfx) (l : Lf) (s : State) :=
  run (.itemfin p l) s fun e s =>
    if e.act = 0#64 then .done s
    else if e.g.dune.isNone then .raise s (e.insn .duneOperand)
    else .done (e.lanes.foldl (fun s n => s.updThread e.x.gang n fun t => if t.item = .live then { t with item := .finished } else t) s)

/-- Whether a lane of the gang holds an item state. -/
def Env.itemIs (e : Env) (st : ItemSt) (lane : Nat) : Bool :=
  match e.g.threads.get? lane with
  | none => false
  | some t => decide (t.item = st)

/-- NONE lanes that stand at this `refill`. -/
def Env.noneHere (e : Env) : List Nat :=
  (e.c.lanes.filter fun p => e.itemIs .empty p.1 && decide (p.2.pc = e.cur.ip) && !e.c.path.getLsbD p.1).map (·.1)

/-- A filled NONE lane is ready and pending after both words of the `refill`: 13:R311 says w + 4, and its worked example goes on behind the second
word (DEDUCED, log 126). -/
def Env.fillNone (e : Env) (c : Ctx) (lane : Nat) : Ctx :=
  let c := (c.setPc (bit lane) e.next).updLane lane fun l =>
    if l.ws = .stopped then { l with under := .ready } else { l with ws := c.readyOf lane }
  if e.last then c else { c with mid := c.mid.put lane { e.cur with idx := e.cur.idx + 1, ip := e.next, done := 0#64 } }

/-- Ends the lanes of a gang that takes items once none of them is LIVE or FINISHED. -/
def State.endEmpty (s : State) (g : Nat) : State :=
  match s.gang? g with
  | none => s
  | some x =>
    if x.threads.vals.any fun t => t.item.inMask then s
    else (s.endLanes g false (maskOf x.threads.keys)).tryRetire g

/-- `refill`: FINISHED lanes and the NONE lanes that stand at it take, in increasing lane number. -/
def execRefill (p : Pfx) (l : Lf) (s : State) :=
  run (.refill p l) s fun e s =>
    if e.act = 0#64 then .done s
    else if e.g.dune.isNone then .raise s (e.insn .duneOperand)
    else
      let fin := e.lanes.filter (e.itemIs .finished)
      let non := e.noneHere
      let want := lanesOf (maskOf (fin ++ non))
      match s.takeItems e.x.gang want with
      | .fault l d t => .hold (s.ringFails l d t)
      | .items xs s =>
        let got := want.take xs.length
        let out := fin.filter fun n => !got.contains n
        let s := out.foldl (fun s n => s.updThread e.x.gang n fun t => { t with item := .empty }) s
        let s := s.updCtx e.x fun c => ((non.filter fun n => got.contains n).foldl e.fillNone c).leavePath (maskOf out)
        let s := e.launchOp s (maskOf got)
        match s.ctx? e.x with
        | none => .moved s
        | some c =>
          if c.path ≠ 0#64 then .done s
          else
            let s := s.updCtx e.x fun c => { c with cur := none }.stepBack
            .moved (s.endEmpty e.x.gang)

end Sys2Proof.Machine
end

