-- ==== Sys2Proof/Machine/Float.lean ====
section
/-! DEFINITION. Floating-point arithmetic, comparisons and classes (06:R127 to R134). -/

namespace Sys2Proof.Machine

/-- The format of a member (06:R130). -/
def FSrc.fmt : FSrc → Fmt
  | .f32 _ | .lit _ => Fmt.f32
  | .bf16 _ => Fmt.bf16
  | .f16 _ => Fmt.f16

/-- The pattern of the second operand: a register, or value[31:0] of the immediate. -/
def Env.fsrc (e : Env) (b : FSrc) (n : Nat) : Nat :=
  match b with
  | .lit i => ((Env.immOf e.i.pfx 8 i).setWidth 32 : Word).toNat
  | _ => (e.word 1 n).toNat

/-- An arithmetic member: the exact result of two values, rounded once to the type (06:R130). -/
def Env.farith (e : Env) (s : State) (b : FSrc) (f : Rm → Ext → Ext → Ext × Word) : Res :=
  e.alu s fun n =>
    let t := FSrc.fmt b
    let x := f (e.mode .rne) (t.decode (e.word 0 n).toNat) (t.decode (e.fsrc b n))
    let r := t.deliver (e.mode .rne) false x.1
    ([BitVec.ofNat 32 r.1], x.2 ||| r.2)

def execFadd (p : Pfx) (d : Opnd) (a : S1) (b : FSrc) (s : State) := run (.fadd p d a b) s fun e s => e.farith s b Ext.add
def execFsub (p : Pfx) (d : Opnd) (a : S1) (b : FSrc) (s : State) :=
  run (.fsub p d a b) s fun e s => e.farith s b fun m x y => x.add m y.neg
def execFmul (p : Pfx) (d : Opnd) (a : S1) (b : FSrc) (s : State) :=
  run (.fmul p d a b) s fun e s => e.farith s b fun _ x y => x.mul y

/-- `a · b + d` exactly: 0 · ∞ sets NV whatever `d` is (06:R130). -/
def Ext.fma (m : Rm) (a b d : Ext) : Ext × Word :=
  let p := a.mul b
  let r := p.1.add m d
  (r.1, p.2 ||| r.2)

def execFfma (p : Pfx) (d : Opnd) (a : S1) (b : FSrc) (s : State) :=
  run (.ffma p d a b) s fun e s => e.alu s fun n =>
    let t := FSrc.fmt b
    let x := Ext.fma (e.mode .rne) (t.decode (e.word 0 n).toNat) (t.decode (e.fsrc b n)) (t.decode (e.addend n).toNat)
    let r := t.deliver (e.mode .rne) false x.1
    ([BitVec.ofNat 32 r.1], x.2 ||| r.2)

/-- `fmin` and `fmax`: no rounding; a NaN operand leaves the other's pattern, within the type's width (06:R131). -/
def Env.fminmax (e : Env) (s : State) (b : FSrc) (mx : Bool) : Res :=
  e.alu s fun n =>
    let t := FSrc.fmt b
    let r := t.minmax mx ((e.word 0 n).toNat % 2 ^ t.bits) (e.fsrc b n % 2 ^ t.bits)
    ([BitVec.ofNat 32 r.1], r.2)

def execFmin (p : Pfx) (d : Opnd) (a : S1) (b : FSrc) (s : State) := run (.fmin p d a b) s fun e s => e.fminmax s b false
def execFmax (p : Pfx) (d : Opnd) (a : S1) (b : FSrc) (s : State) := run (.fmax p d a b) s fun e s => e.fminmax s b true

/-- The format of `fabs` and `fneg`. -/
def FTy.fmt : FTy → Fmt
  | .f32 => Fmt.f32
  | .bf16 => Fmt.bf16
  | .f16 => Fmt.f16

/-- A change of the sign bit: `f` maps the sign; a NaN becomes the canonical one (06:R132). -/
def signChange (t : Fmt) (f : Bool → Bool) (w : Word) : Word × Word :=
  let p := w.toNat % 2 ^ t.bits
  let x := t.decode p
  if x.isNan then (BitVec.ofNat 32 t.nanPat, x.nv)
  else (BitVec.ofNat 32 (p % t.signBit + if f (decide (t.signBit ≤ p)) then t.signBit else 0), 0#32)

/-- `fabs` or `fneg` in every active lane. -/
def Env.fsign (e : Env) (s : State) (t : FTy) (f : Bool → Bool) : Res :=
  e.alu s fun n =>
    let r := signChange (FTy.fmt t) f (e.word 0 n)
    ([r.1], r.2)

def execFabs (p : Pfx) (t : FTy) (d : Opnd) (a : S1) (s : State) := run (.fabs p t d a) s fun e s => e.fsign s t fun _ => false
def execFneg (p : Pfx) (t : FTy) (d : Opnd) (a : S1) (s : State) := run (.fneg p t d a) s fun e s => e.fsign s t fun n => !n

/-- The conditions of `fcmp`, with the NV that NaN inputs set (06:R133). -/
def fcmpCond (c : BitVec 3) (a b : Ext) : Bool × Word :=
  let un := a.isNan || b.isNan
  let o := a.cmp b
  let sig := a.nv ||| b.nv
  let any := if un then fNV else 0#32
  match c.toNat with
  | 0 => (!un && decide (o = .eq), sig)
  | 1 => (un || decide (o ≠ .eq), sig)
  | 2 => (!un && decide (o = .lt), any)
  | 3 => (!un && decide (o ≠ .gt), any)
  | 4 => (!un && decide (o = .gt), any)
  | 5 => (!un && decide (o ≠ .lt), any)
  | 6 => (un, sig)
  | _ => (!un, sig)

def execFcmp (p : Pfx) (c n : BitVec 3) (a : S1) (b : FSrc) (s : State) :=
  run (.fcmp p c n a b) s fun e s =>
    let r (k : Nat) := fcmpCond c ((FSrc.fmt b).decode (e.word 0 k).toNat) ((FSrc.fmt b).decode (e.fsrc b k))
    .done (e.flags (e.writePred (e.settle s e.act true) n fun k => (r k).1) (e.lanes.foldl (fun f k => f ||| (r k).2) 0#32))

/-- The class of a pattern (06:R134). -/
def Fmt.class (t : Fmt) (p : Nat) : Nat :=
  match t.decode p with
  | .nan s => if s then 0 else 1
  | .inf neg => if neg then 2 else 9
  | .fin neg m _ =>
    if m = 0 then (if neg then 5 else 6)
    else if m < 2 ^ t.mb then (if neg then 4 else 7)
    else if neg then 3 else 8

/-- The type of `fcls`. -/
def fclsFmt (y : BitVec 3) : Fmt :=
  match y.toNat with
  | 1 => Fmt.bf16
  | 2 => Fmt.f16
  | _ => Fmt.f32

def execFcls (p : Pfx) (y n : BitVec 3) (a : S1) (b : RI) (s : State) :=
  run (.fcls p y n a b) s fun e s =>
    .done (e.writePred (e.settle s e.act true) n fun k => (e.ri b 1 k).getLsbD ((fclsFmt y).class (e.word 0 k).toNat))

end Sys2Proof.Machine
end

