-- ==== Sys2Proof/Machine/Lanes.lean ====
section
/-! DEFINITION. Random numbers, cross-lane instructions, reductions and scans (06:R138 to R147). -/

namespace Sys2Proof.Machine

/-! ### Random numbers (06:R138, R139) -/

/-- The generator function. -/
def rngmix (k c : DWord) : DWord :=
  let z := c * 0xD1B54A32D192ED03#64 + k
  let z := z ^^^ (z >>> 31)
  let z := z * 0xAEF17502108EF2D9#64
  let z := z ^^^ (z >>> 29)
  let z := z * 0x9C4ED36A5F138B27#64
  z ^^^ (z >>> 32)

/-- The key identity of a thread: its identity word with bit 10 cleared, or in ordered mode a mix of its creation lineage. -/
def kidOf (ordered : Bool) (idn : DWord) (clin : BitVec 96) : DWord :=
  if ordered then rngmix (clin.extractLsb' 32 64) ((clin.extractLsb' 0 32).setWidth 64) else idn &&& ~~~0x400#64

/-- The word that a draw delivers. -/
def rngWord (f : Bool) (z : DWord) : Word :=
  if f then BitVec.ofNat 32 (Fmt.f32.round .rne false false (z.extractLsb' 40 24).toNat (-24)).1 else z.extractLsb' 32 32

/-- The draw of a lane: the mixed word of its key and counter. -/
def Env.drawOf (e : Env) (s : State) (lane : Nat) : DWord :=
  match e.g.threads.get? lane with
  | none => 0#64
  | some t => rngmix (e.c.seen 0x0B lane e.l.seed ^^^ kidOf e.l.ordered (s.idnSeen e.x lane) t.clin) t.rngc

def execRng (p : Pfx) (f : Bool) (d : Opnd) (s : State) :=
  run (.rng p f d) s fun e s =>
    let t := e.writeDst (e.settle s e.act true) fun n => [rngWord f (e.drawOf s n)]
    .done (e.lanes.foldl (fun t n => t.updThread e.x.gang n fun h => { h with rngc := h.rngc + 1#64 }) t)

/-! ### Shuffles, votes, broadcasts (06:R141, R142, R147) -/

/-- A shuffle: every lane takes A of its source lane. -/
def Env.shfl (e : Env) (s : State) : Res := e.alu1 s fun n => e.word 0 (e.shflSource n)

def execShflIdx (p : Pfx) (d : Opnd) (a b : S1) (s : State) := run (.shflIdx p d a b) s fun e s => e.shfl s
def execShflUp (p : Pfx) (d : Opnd) (a b : S1) (s : State) := run (.shflUp p d a b) s fun e s => e.shfl s
def execShflDown (p : Pfx) (d : Opnd) (a b : S1) (s : State) := run (.shflDown p d a b) s fun e s => e.shfl s
def execShflXor (p : Pfx) (d : Opnd) (a b : S1) (s : State) := run (.shflXor p d a b) s fun e s => e.shfl s

/-- Active lanes whose tested bit is 1. -/
def Env.voteMask (e : Env) (x : Bool) (k : BitVec 3) : Mask := maskOf (e.lanes.filter (e.selTest x k))

/-- The result of `vote` over the active lanes. -/
def voteResult (m : BitVec 3) (yes act : Mask) : Bool :=
  match m.toNat with
  | 0 => decide (yes ≠ 0#64)
  | 1 => decide (yes = act)
  | _ => decide (yes = 0#64 ∨ yes = act)

def execVote (p : Pfx) (m n : BitVec 3) (x : Bool) (k : BitVec 3) (s : State) :=
  run (.vote p m n x k) s fun e s => .done (e.writePred (e.settle s e.act true) n fun _ => voteResult m (e.voteMask x k) e.act)
def execVoteBallot (p : Pfx) (d : Opnd) (x : Bool) (k : BitVec 3) (s : State) :=
  run (.voteBallot p d x k) s fun e s => e.alu s fun _ => (dwords (e.voteMask x k), 0#32)

def execBcast (p : Pfx) (d : Opnd) (a : S1) (n : BitVec 8) (s : State) :=
  run (.bcast p d a n) s fun e s =>
    if e.act.getLsbD n.toNat then e.alu1 s fun _ => e.word 0 n.toNat else .done (e.settle s e.act true)
def execBcastNib (p : Pfx) (d : Opnd) (a : S1) (s : State) :=
  run (.bcastNib p d a) s fun e s => e.alu1 s fun _ => e.word 0 (e.nib.getD 0)

/-! ### Reductions and scans (06:R143 to R146) -/

/-- A value with the flags of its making. -/
abbrev Flagged := Word × Word

/-- Combines two values, left operand first. -/
def combine (f : Word → Word → Flagged) (a b : Flagged) : Flagged :=
  let r := f a.1 b.1
  (r.1, a.2 ||| b.2 ||| r.2)

/-- node(i, h) of the combining tree. -/
def treeNode (f : Word → Word → Flagged) (leaf : Nat → Flagged) : Nat → Nat → Flagged
  | 0, i => leaf i
  | h + 1, i => combine f (treeNode f leaf h i) (treeNode f leaf h (i + 2 ^ h))

/-- The left fold of leaves 0 to n − 1; `id` for none. -/
def leftFold (f : Word → Word → Flagged) (leaf : Nat → Flagged) (id : Word) : Nat → Flagged
  | 0 => (id, 0#32)
  | n + 1 => (List.range n).foldl (fun a i => combine f a (leaf (i + 1))) (leaf 0)

/-- The aligned blocks of positions 0 to n − 1, largest first: heights and starts. -/
def blocksOf (n : Nat) : List (Nat × Nat) :=
  [6, 5, 4, 3, 2, 1, 0].filterMap fun h => if n / 2 ^ h % 2 = 1 then some (h, n / 2 ^ (h + 1) * 2 ^ (h + 1)) else none

/-- The combination of positions 0 to n − 1 by blocks. -/
def treeFold (f : Word → Word → Flagged) (leaf : Nat → Flagged) (id : Word) (n : Nat) : Flagged :=
  match (blocksOf n).map fun b => treeNode f leaf b.1 b.2 with
  | [] => (id, 0#32)
  | x :: xs => xs.foldl (combine f) x

/-- The sum of integer leaves 0 to n − 1, wrapped or clamped to the type. -/
def intFold (sat u : Bool) (leaf : Nat → Word) (n : Nat) : Flagged :=
  let r := intDeliver sat (!u) 32 ((List.range n).map fun i => asInt u (leaf i)).sum
  (wrap32 r.1, r.2)

/-- The identity of an operation on a type: 0 `.i32`, 1 `.n32`, 2 `.f32`, 3 `.b32`. -/
def redIdentity (t : BitVec 2) (o : BitVec 3) : Word :=
  match o.toNat, t.toNat with
  | 1, 0 => 0x7FFFFFFF#32
  | 1, 1 => 0xFFFFFFFF#32
  | 1, _ => 0x7F800000#32
  | 2, 0 => 0x80000000#32
  | 2, 1 => 0#32
  | 2, _ => 0xFF800000#32
  | 3, _ => 0xFFFFFFFF#32
  | _, _ => 0#32

/-- A node of an operation on a type, but for integer addition. -/
def redNode (m : Rm) (t : BitVec 2) (o : BitVec 3) (a b : Word) : Flagged :=
  let int (r : Word) : Flagged := (r, 0#32)
  let flt (r : Nat × Word) : Flagged := (BitVec.ofNat 32 r.1, r.2)
  match o.toNat, t.toNat with
  | 1, 2 => flt (Fmt.f32.minmax false a.toNat b.toNat)
  | 2, 2 => flt (Fmt.f32.minmax true a.toNat b.toNat)
  | 1, k => int (if asInt (decide (k = 1)) a ≤ asInt (decide (k = 1)) b then a else b)
  | 2, k => int (if asInt (decide (k = 1)) a ≥ asInt (decide (k = 1)) b then a else b)
  | 3, _ => int (a &&& b)
  | 4, _ => int (a ||| b)
  | 5, _ => int (a ^^^ b)
  | _, _ =>
    let x := Ext.add m (Fmt.f32.decode a.toNat) (Fmt.f32.decode b.toNat)
    let r := Fmt.f32.deliver m false x.1
    (BitVec.ofNat 32 r.1, x.2 ||| r.2)

/-- A leaf: A where the lane is active, else the identity. A NaN leaf of `.f32` is canonical, with NV where it signals
(06:R128, R143, 04:R100). -/
def Env.leaf (e : Env) (t : BitVec 2) (o : BitVec 3) (n : Nat) : Flagged :=
  if !e.act.getLsbD n then (redIdentity t o, 0#32)
  else
    let w := e.word 0 n
    if t = 2#2 then
      let x := Fmt.f32.decode w.toNat
      (if x.isNan then BitVec.ofNat 32 Fmt.f32.nanPat else w, x.nv)
    else (w, 0#32)

/-- The combination of positions 0 to n − 1. -/
def Env.fold (e : Env) (t : BitVec 2) (o : BitVec 3) (n : Nat) : Flagged :=
  if o = 0#3 ∧ t.toNat < 2 then intFold e.sat (decide (t = 1#2)) (fun i => (e.leaf t o i).1) n
  else
    let f := redNode (e.mode .rne) t o
    if e.flo then leftFold f (e.leaf t o) (redIdentity t o) n else treeFold f (e.leaf t o) (redIdentity t o) n

def execRed (p : Pfx) (t : BitVec 2) (o : BitVec 3) (d : Opnd) (a : S1) (s : State) :=
  run (.red p t o d a) s fun e s =>
    if e.act = 0#64 then
      .done (e.flags (match d with
        | .s _ => s.writeReg e.x d 1 [0] (some 0) fun _ => [redIdentity t o]
        | _ => s) fEMPTY)
    else
      let r := e.fold t o e.width
      e.alu s fun _ => ([r.1], r.2)

/-- `scan`: a signalling NaN sets NV where it enters the result of an active lane (DEDUCED, log 94). -/
def execScan (p : Pfx) (t : BitVec 2) (x : Bool) (o : BitVec 3) (d : Opnd) (a : S1) (s : State) :=
  run (.scan p t x o d a) s fun e s =>
    if e.act = 0#64 then .done (e.flags s fEMPTY)
    else e.alu s fun n => let r := e.fold t o (if x then n else n + 1); ([r.1], r.2)

end Sys2Proof.Machine
end

