-- ==== Sys2Proof/Machine/Matrix.lean ====
section
/-! DEFINITION. The matrix engine: reservations, operand loads and stores, multiply-accumulate, tiles, quantising and scale picking
(11:R247 to R273). Operations that read or write the operand buffer or the scratchpad are performed by MATRIX_OP_COMPLETE, those of
one group in issue order; reads and clears of tiles wait at issue for the operations before them (DEDUCED, log 13). -/

namespace Sys2Proof.Machine

/-! ### Formats and elements (11:R248, R252, 04:R88) -/

/-- Bits of an element of a reservation format. -/
def fmtBits (fmt : Nat) : Nat := match fmt with | 1 | 2 => 16 | 6 => 4 | _ => 8
/-- The floating-point format of a code. -/
def fmtFloat (fmt : Nat) : Fmt := match fmt with | 1 => .bf16 | 2 => .f16 | 4 => .e5m2 | _ => .e4m3

/-- The Q4N codebook in units of 1/64. -/
def q4nBook : List Int := [-64, -44, -30, -21, -14, -9, -5, 0, 2, 5, 9, 14, 21, 30, 44, 64]

/-- The unscaled value of a pattern of a floating-point reservation format. -/
def elemValue (fmt p : Nat) : Ext :=
  if fmt = 6 then (let x := q4nBook.getD p 0; .fin (decide (x < 0)) x.natAbs (-6)) else (fmtFloat fmt).decode p

/-- Elements along K in a row. -/
def Rec.ldk (r : Rec) : Nat := 64 * r.ldkb

/-- Byte offset in the operand buffer of the byte that holds an element. -/
def Rec.byteOf (r : Rec) (row k : Nat) : Nat := 128 * r.base + (row * r.ldk + k) * fmtBits r.fmt / 8

/-- A byte of the operand buffer. -/
def Group.opndByte (g : Group) (a : Nat) : Byte := g.opnd.getD a 0#8

/-- The pattern of an element. -/
def Group.elem (g : Group) (r : Rec) (row k : Nat) : Nat :=
  let a := r.byteOf row k
  let lo := (g.opndByte a).toNat
  match fmtBits r.fmt with
  | 4 => if k % 2 = 0 then lo % 16 else lo / 16
  | 8 => lo
  | _ => lo + 256 * (g.opndByte (a + 1)).toNat

/-- Whether the word that holds an element is poisoned. -/
def Group.elemPoison (g : Group) (r : Rec) (row k : Nat) : Bool := g.opndPoison.has (r.byteOf row k / 8)

/-- The block factor S·(b + 1)/256 of an element, 1 without block scales (04:R89 to R91), and whether its record is poisoned. -/
def Group.factor (g : Group) (r : Rec) (row k : Nat) : Ext × Bool :=
  if !r.blk then (.fin false 1 0, false)
  else
    let q := (row * r.ldk + k) / 64
    let at_ := 128 * (r.base + r.sofs) + 272 * (q / 256)
    let s := Fmt.f32.decode (leNat ((List.range 4).map fun i => g.opndByte (at_ + i)))
    let b := at_ + 16 + q % 256
    ((Ext.mul s (.fin false ((g.opndByte b).toNat + 1) (-8))).1, g.opndPoison.has (at_ / 8) || g.opndPoison.has (b / 8))

/-- Patterns of elements packed into bytes, with the poison of their elements (04:R87). -/
def packElems (bits : Nat) : List (Nat × Bool) → List (Byte × Bool)
  | [] => []
  | [x] => if bits = 16 then (leBytes 2 x.1).map fun b => (b, x.2) else [(BitVec.ofNat 8 x.1, x.2)]
  | x :: y :: ps =>
    if bits = 4 then (BitVec.ofNat 8 (x.1 % 16 + 16 * y.1), x.2 || y.2) :: packElems bits ps
    else if bits = 16 then (leBytes 2 x.1).map (fun b => (b, x.2)) ++ packElems bits (y :: ps)
    else (BitVec.ofNat 8 x.1, x.2) :: packElems bits (y :: ps)

/-- Poison after bytes are written: words written whole lose it, words with a poisoned byte take it (08:R190). -/
def poisonAfter (p : Assoc Unit) (ws : List (Nat × Bool)) : Assoc Unit :=
  let words := (ws.map fun w => w.1 / 8).eraseDups
  let p := p.keep fun w _ => !(words.contains w && (List.range 8).all fun i => ws.any fun x => decide (x.1 = 8 * w + i))
  ((ws.filter (·.2)).map fun w => w.1 / 8).foldl (fun p w => p.put w ()) p

/-- Writes bytes of the operand buffer. -/
def Group.opndPut (g : Group) (ws : List (Nat × Byte × Bool)) : Group :=
  { g with opnd := ws.foldl (fun t w => t.putD w.1 w.2.1 0#8) g.opnd
           opndPoison := poisonAfter g.opndPoison (ws.map fun w => (w.1, w.2.2)) }

/-- Writes bytes of the scratchpad. -/
def Group.spadPuts (g : Group) (ws : List (Nat × Byte × Bool)) : Group :=
  { g with spad := ws.foldl (fun t w => t.putD w.1 w.2.1 0#8) g.spad
           spadPoison := poisonAfter g.spadPoison (ws.map fun w => (w.1, w.2.2)) }

/-- Writes bytes of several groups' scratchpads. -/
def State.spadPuts (s : State) (ws : List (Nat × Nat × Byte × Bool)) : State :=
  ((ws.map (·.1)).eraseDups).foldl (fun s k =>
    s.updGroup k fun g => g.spadPuts ((ws.filter fun w => decide (w.1 = k)).map (·.2))) s

/-! ### Common checks (11:R254, R256) -/

/-- A trap of a matrix instruction, in its nib. -/
def Env.matTrap (e : Env) (cause reason : Nat) (x : BitVec 17) (d1 : Nat) : TrapRec :=
  e.trap cause reason (match e.nib with | none => 0#64 | some n => bit n) x (BitVec.ofNat 32 d1) 0#32

/-- INSN reason 24. -/
def Env.matInsn (e : Env) : TrapRec :=
  { e.insn .matrixOperand with lanes := match e.nib with | none => 0#64 | some n => bit n }

/-- A record held by the group. -/
def Env.recOf (e : Env) (s : State) (n : Nat) : Option Rec :=
  match s.cores.recs.get? (64 * e.core + n) with
  | none => none
  | some r => if r.group = e.g.group then some r else none

/-- PROTECT reason 6 or 8 for a record or tile. -/
def Env.notHeld (e : Env) (reason n : Nat) : TrapRec := e.matTrap 4 reason (BitVec.ofNat 17 (n % 128)) 0

/-- Whether matrix operations of a group are in flight. -/
def State.matBusy (s : State) (group : Nat) : Bool :=
  s.ops.vals.any fun o => match o.data with | .matrix _ g _ => decide (g = group) | _ => false

/-- The bytes of a list of scratchpad addresses: the window first, then writability (PROTECT reasons 4 and 5). Of several bytes that fail, the
first in the order of the list is reported, rows in order (DESIGN CHOICE, log 90). -/
def Env.spadAll (e : Env) (s : State) (kind : AccKind) (as : List Nat) : Except TrapRec (List SpadRef) :=
  match as.find? fun a => (s.spadRef e.g.group a).isNone with
  | some a => .error (e.matTrap 4 4 (kindX kind 0) a)
  | none => match if kind.writes then as.find? fun a => (s.spadRef e.g.group a).any (·.ro) else none with
    | some a => .error (e.matTrap 4 5 (kindX kind 0) a)
    | none => .ok (as.filterMap (s.spadRef e.g.group))

/-- The first of the bytes of an operand that lies in no window. -/
def Env.outside (e : Env) (s : State) (kind : AccKind) (as : List Nat) : Option TrapRec :=
  (as.find? fun a => (s.spadRef e.g.group a).isNone).map fun a => e.matTrap 4 4 (kindX kind 0) a

/-- Absent lines among bytes. -/
def State.absentAll (s : State) (rs : List SpadRef) : List (Nat × Nat) :=
  ((rs.map fun r => (r.group, r.ofs / 128)).eraseDups).filter fun l => (s.group? l.1).any fun g => g.absent.has l.2

/-- Whether the engine holds a line of some of the bytes; for destinations, only lines that another group's operations hold
matter, as those of one group follow issue order. -/
def State.heldAll (s : State) (rs : List SpadRef) (group : Option Nat) : Bool :=
  ((rs.map fun r => r.group * 2 ^ 32 + r.ofs / 128).eraseDups).any fun k => match s.cores.heldLines.get? k with
    | none => false
    | some op => (match group, s.op? op with
      | some g, some o => (match o.data with | .matrix _ h _ => decide (h ≠ g) | _ => true)
      | _, _ => true)

/-- The first poisoned byte's word among bytes at scratchpad addresses. -/
def State.poisonAt (s : State) (as : List (Nat × SpadRef)) : Option Nat :=
  (as.find? fun a => (s.group? a.2.group).any fun g => g.spadPoison.has (a.2.ofs / 8)).map (·.1)

/-- A byte of a scratchpad with its poison. -/
def State.spadByteP (s : State) (r : SpadRef) : Byte × Bool :=
  match s.group? r.group with
  | none => (0#8, false)
  | some g => (g.spadByte r.ofs, g.spadPoison.has (r.ofs / 8))

/-- Absent lines of a partner window among destinations: a partner access parks on them, while the group's own lines need no presence to be
written (08:R187, 11:R256, R257) (DEDUCED, log 88). -/
def Env.partnerAbsent (e : Env) (s : State) (rs : List SpadRef) : List (Nat × Nat) :=
  s.absentAll (rs.filter fun r => decide (r.group ≠ e.g.group))

/-- Whether an earlier copy of the nib has still to land in a line of some of the bytes (10:R222, R226). -/
def Env.copyAhead (e : Env) (s : State) (rs : List SpadRef) : Bool :=
  let lines := (rs.map fun r => (r.group, r.ofs / 128)).eraseDups
  (s.opsOf e.x).vals.any fun o => match o.data with
    | .copy ps _ => ps.any fun p => p.spad && decide (e.nib = some p.lane) && lines.contains (p.group, p.dst / 128)
    | _ => false

/-- Holds destination lines for an operation (10:R243). -/
def State.holdLines (s : State) (id : Nat) (rs : List (Nat × Nat)) : State :=
  s.setCores { s.cores with heldLines := rs.foldl (fun t r => t.put (r.1 * 2 ^ 32 + r.2 / 128) id) s.cores.heldLines }

/-- A matrix operation enters flight, holding its destination lines; a multiply-accumulate waits for its reservation. -/
def Env.issueMat (e : Env) (s : State) (m : MatOp) (held : List (Nat × Nat)) (demand : Option Nat) : Res :=
  let (id, s) := e.issueOp (e.settle s e.act true) e.act 0#64 (.matrix m e.g.group demand.isNone)
  let s := s.holdLines id held
  .done (match demand with
    | none => s
    | some d => s.arbRequest (clusterOf e.core) ⟨id, d, !e.x.access && e.g.holders.any e.act.getLsbD⟩)

/-! ### Reservations (11:R249 to R251) -/

/-- The lowest multiple of 128, in units of 128 bytes, at which a range keeps clear of the ranges given. -/
def lowestRoom (rs : List Rec) (len : Nat) : Nat → Nat → Option Nat
  | _, 0 => none
  | b, n + 1 =>
    if rs.all fun r => decide (b + len ≤ r.base ∨ r.base + r.len ≤ b) then some b else lowestRoom rs len (b + 1) n

/-- Rounds up to 128 bytes. -/
def up128 (n : Nat) : Nat := 128 * ((n + 127) / 128)

/-- The status word of `fmtres`, and the record it makes. -/
def State.reserve (s : State) (core group opnd : Nat) (fmt swz : Nat) (blk : Bool) (a : Word) : Word × Option (Nat × Rec) :=
  let ldkb := (a.extractLsb' 16 16).toNat
  let rows := (a.extractLsb' 0 16).toNat
  if rows = 0 ∨ ldkb = 0 ∨ 1023 < ldkb ∨ (fmt = 6 ∧ !blk) ∨ (blk ∧ fmt ≠ 6 ∧ fmt ≠ 3) then (0xE0000000#32, none)
  else
    let n := rows * (64 * ldkb)
    let db := up128 ((n * fmtBits fmt + 7) / 8)
    let sb := if blk then up128 (272 * ((n + 16383) / 16384)) else 0
    let len := (db + sb) / 128
    match (List.range 64).find? fun k => !s.cores.recs.has (64 * core + k) with
    | none => (0xA0000000#32, none)
    | some k =>
      let mine := (s.cores.recs.filter fun r => decide (r.1 / 64 = core ∧ r.2.group = group)).map (·.2)
      match lowestRoom mine len 0 (8 * opnd + 1 - len) with
      | none => (0xC0000000#32, none)
      | some b => (BitVec.ofNat 32 (64 * b + k),
          some (k, { group := group, base := b, len := len, sofs := if blk then db / 128 else 0, fmt := fmt, blk := blk, swz := swz,
                     ldkb := ldkb, rows := rows }))

def execFmtres (p : Pfx) (l : Lf) (fmt : BitVec 4) (swz : BitVec 2) (blk : Bool) (d : Opnd) (a : Hs) (s : State) :=
  run (.fmtres p l fmt swz blk d a) s fun e s =>
    match e.nib with
    | none => .done s
    | some n =>
      let (st, r) := s.reserve e.core e.g.group e.l.kern.opndk fmt.toNat swz.toNat blk (e.word 0 n)
      let s := match r with
        | none => s
        | some (k, r) => s.setCores { s.cores with recs := s.cores.recs.put (64 * e.core + k) r }
      .done (e.writeDst (e.settle s e.act true) fun _ => [st])

def execFmtrel (p : Pfx) (l : Lf) (a : Hs) (s : State) :=
  run (.fmtrel p l a) s fun e s =>
    match e.nib with
    | none => .done s
    | some n =>
      let x := (e.word 0 n).toNat
      if 64 ≤ x then .raise s e.matInsn
      else match e.recOf s x with
        | none => .raise s (e.notHeld 6 x)
        | some _ => .done ((e.settle s e.act true).setCores { s.cores with recs := s.cores.recs.del (64 * e.core + x) })

/-! ### Operand loads and stores (11:R253, R259 to R261) -/

/-- Where byte `o` of scratchpad row `i` lies within its row. -/
def swizzle (swz i o : Nat) : Nat :=
  match swz with
  | 1 => (o / 8 ^^^ i % 16) * 8 + o % 8
  | 2 => (o / 16 ^^^ i % 8) * 16 + o % 16
  | _ => o

/-- A descriptor of `mld`, `mld.t` and `mso`. -/
structure Rect where
  sfmt : Nat
  e4sat : Bool
  pitch : Nat
  cols : Nat
  rows : Nat
  row0 : Nat
  col0 : Nat
  deriving DecidableEq, Repr

def Rect.of (d : DWord) (c : Word) : Rect :=
  ⟨(d.extractLsb' 60 3).toNat, d.getLsbD 59, (d.extractLsb' 32 24).toNat, (d.extractLsb' 16 16).toNat, (d.extractLsb' 0 16).toNat,
    (c.extractLsb' 0 16).toNat, (c.extractLsb' 16 16).toNat⟩

/-- The limits that depend on no record (check 1). -/
def Rect.bad (r : Rect) (d : DWord) (rec_ : Word) (out tr scl : Bool) : Bool :=
  decide (64 ≤ rec_.toNat) || d.getLsbD 63 || decide (1 < r.sfmt) || decide (d.extractLsb' 56 3 ≠ 0#3) || decide (r.cols = 0 ∨ r.rows = 0) ||
  (r.e4sat && decide (r.sfmt ≠ 1)) || (decide (r.sfmt = 1) && (out || scl)) || (scl && (tr || decide (r.rows ≠ 1 ∨ r.row0 ≠ 0)))

/-- The limits that depend on the record (check 3). -/
def Rect.badFor (r : Rect) (q : Rec) (tr scl : Bool) : Bool :=
  (r.e4sat && decide (q.fmt ≠ 3)) || (decide (r.sfmt = 1) && (q.blk || decide (q.fmt = 5 ∨ q.fmt = 6))) || (scl && !q.blk) ||
  (decide (q.fmt = 6) && !scl && decide ((if tr then r.rows else r.cols) % 2 = 1 ∨ r.col0 % 2 = 1))

/-- Bits of a scratchpad element. -/
def Rect.bits (r : Rect) (q : Rec) (scl : Bool) : Nat := if scl then 8 else if r.sfmt = 1 then 32 else fmtBits q.fmt

/-- Whether the rectangle stays in its reservation; the scale area holds 272 bytes for each run (04:R90). -/
def Rect.fits (r : Rect) (q : Rec) (tr scl : Bool) : Bool :=
  if scl then decide (r.col0 + r.cols ≤ 272 * ((q.rows * q.ldk + 16383) / 16384))
  else decide (r.row0 + (if tr then r.cols else r.rows) ≤ q.rows ∧ r.col0 + (if tr then r.rows else r.cols) ≤ q.ldk)

/-- Address of byte `o` of scratchpad row `i`. -/
def Rect.addr (r : Rect) (q : Rec) (scl : Bool) (a i o : Nat) : Nat := a + i * r.pitch + (if scl then o else swizzle q.swz i o)

/-- Every byte of the rectangle in the scratchpad: row, byte of the row, address. -/
def Rect.bytes (r : Rect) (q : Rec) (scl : Bool) (a : Nat) : List (Nat × Nat × Nat) :=
  ((List.range r.rows).map fun i => (List.range ((r.cols * r.bits q scl + 7) / 8)).map fun o => (i, o, r.addr q scl a i o)).flatten

/-- The bytes, row and byte of the row, of each pass on the scratchpad side: 16 consecutive word positions of one row, or one word position
across 16 rows (19:R435). -/
def Rect.passes (r : Rect) (q : Rec) (tr scl : Bool) : List (List (Nat × Nat)) :=
  let n := (r.cols * r.bits q scl + 7) / 8
  let all := if tr then (List.range ((r.rows + 15) / 16)).map fun c => (List.range ((n + 7) / 8)).map fun w =>
      ((List.range 16).map fun i => (List.range 8).map fun k => (16 * c + i, 8 * w + k)).flatten
    else (List.range r.rows).map fun i => (List.range ((n + 127) / 128)).map fun c => (List.range 128).map fun k => (i, 128 * c + k)
  all.flatten.map fun p => p.filter fun b => decide (b.1 < r.rows ∧ b.2 < n)

/-- Cycles beyond one per pass that bank conflicts cost a rectangle (08:R185, 19:R435). -/
def Env.rectCycles (e : Env) (s : State) (r : Rect) (q : Rec) (tr scl : Bool) (a : Nat) : Nat :=
  ((r.passes q tr scl).map fun p => passCycles (p.filterMap fun b =>
    (s.spadRef e.g.group (r.addr q scl a b.1 b.2)).map fun f => (f.group, f.ofs / 8))).sum

/-- The pattern of the scratchpad element at row `i`, position `j`, with its poison, `read` giving a byte of a row. -/
def rectElem (bits : Nat) (read : Nat → Nat → Byte × Bool) (i j : Nat) : Nat × Bool :=
  let o := j * bits / 8
  let bs := (List.range ((bits + 7) / 8)).map fun k => read i (o + k)
  let x := leNat (bs.map (·.1))
  (if bits = 4 then (if j % 2 = 0 then x % 16 else x / 16) else x, bs.any (·.2))

/-- The bytes that a load writes to the operand buffer: reservation rows in order, each a run of elements along K. -/
def Rect.loads (r : Rect) (q : Rec) (tr scl : Bool) (read : Nat → Nat → Byte × Bool) : List (Nat × Byte × Bool) :=
  if scl then (List.range r.cols).map fun b => (128 * (q.base + q.sofs) + r.col0 + b, read 0 b)
  else
    let bits := r.bits q false
    let cv (x : Nat × Bool) : Nat × Bool :=
      if r.sfmt = 1 then (((fmtFloat q.fmt).deliver .rne r.e4sat (Fmt.f32.decode x.1)).1, x.2) else x
    ((List.range (if tr then r.cols else r.rows)).map fun u =>
      let run := packElems (fmtBits q.fmt) ((List.range (if tr then r.rows else r.cols)).map fun v =>
        cv (if tr then rectElem bits read v u else rectElem bits read u v))
      run.zipIdx.map fun b => (q.byteOf (r.row0 + u) r.col0 + b.2, b.1)).flatten

/-- `mld`, `mld.t` and `mso`. In the detail of ALIGN stand A and the logarithm of the element's bytes, also where PITCH, or the 128 bytes of a
swizzle, is what fails (11:R260, 16:R380; DESIGN CHOICE, log 90). -/
def Env.moveRect (e : Env) (s : State) (scl out tr : Bool) : Res :=
  match e.nib with
  | none => .done s
  | some n =>
    let a := (e.word 0 n).toNat
    let d := e.pair 1 n
    let rw := e.word 3 n
    let r := Rect.of d (e.word 2 n)
    let kind : AccKind := if out then .write else .read
    if r.bad d rw out tr scl then .raise s e.matInsn
    else match e.recOf s rw.toNat with
      | none => .raise s (e.notHeld 6 rw.toNat)
      | some q =>
        let eb := (r.bits q scl + 7) / 8
        if r.badFor q tr scl then .raise s e.matInsn
        else if a % eb ≠ 0 ∨ r.pitch % eb ≠ 0 ∨ (q.swz ≠ 0 ∧ (a % 128 ≠ 0 ∨ r.pitch % 128 ≠ 0)) then
          .raise s (e.matTrap 5 1 (kindX kind (Nat.log2 eb)) a)
        else if !r.fits q tr scl then .raise s (e.notHeld 8 rw.toNat)
        else
          let bs := r.bytes q scl a
          match e.spadAll s kind (bs.map (·.2.2)) with
          | .error t => .raise s t
          | .ok refs =>
            let busy (s : State) : State := s.pmEvent e.x.gang e.x.access 0x0E (e.rectCycles s r q tr scl a)
            if out then
              let absent := e.partnerAbsent s refs
              if absent ≠ [] then .hold (e.parkOn s absent)
              else if s.heldAll refs (some e.g.group) || e.copyAhead s refs then .hold s
              else
                let src (b : Nat × Nat × Nat) : Nat :=
                  if scl then 128 * (q.base + q.sofs) + r.col0 + b.2.1 else q.byteOf (r.row0 + b.1) r.col0 + b.2.1
                e.issueMat (busy s) (.store ((bs.zip refs).map fun p => (p.2.group, p.2.ofs, src p.1))) (refs.map fun p => (p.group, p.ofs)) none
            else
              let absent := s.absentAll refs
              if absent ≠ [] then .hold (e.parkOn s absent)
              else if s.heldAll refs none then .hold s
              else
                let read (i o : Nat) : Byte × Bool := match s.spadRef e.g.group (r.addr q scl a i o) with
                  | none => (0#8, false)
                  | some p => s.spadByteP p
                e.issueMat (busy s) (.load (r.loads q tr scl read)) [] none

def execMld (p : Pfx) (l : Lf) (scl : Bool) (d : Opnd) (a b c : Hs) (s : State) :=
  run (.mld p l scl d a b c) s fun e s => e.moveRect s scl false false

def execMldT (p : Pfx) (l : Lf) (scl : Bool) (d : Opnd) (a b c : Hs) (s : State) :=
  run (.mldT p l scl d a b c) s fun e s => e.moveRect s scl false true

def execMso (p : Pfx) (l : Lf) (scl : Bool) (d : Opnd) (a b c : Hs) (s : State) :=
  run (.mso p l scl d a b c) s fun e s => e.moveRect s scl true false

/-! ### Multiply-accumulate (11:R262 to R266) -/

/-- Opcode (integer or not), step and demand of a pairing of formats (11:R264, 18:R429). -/
def macForm (a b : Nat) : Option (Bool × Nat × Nat) :=
  let f8 (x : Nat) : Bool := decide (x = 3 ∨ x = 4)
  if a = 1 ∧ b = 1 ∨ a = 2 ∧ b = 2 then some (false, 8, 6)
  else if f8 a && f8 b then some (false, 16, 7)
  else if a = 6 ∧ b = 3 ∨ a = 3 ∧ b = 6 ∨ a = 6 ∧ b = 1 ∨ a = 1 ∧ b = 6 then some (false, 64, 8)
  else if a = 5 ∧ b = 5 then some (true, 16, 7)
  else none

/-- Reads a scratchpad block for an instruction: its window, presence, holds and poison, then its bytes. -/
inductive Block where
  | raise (t : TrapRec)
  | park (ls : List (Nat × Nat))
  | hold
  | ok (bs : List Byte)

def Env.readBlock (e : Env) (s : State) (a n : Nat) (control : Bool) : Block :=
  let as := (List.range n).map (a + ·)
  match e.spadAll s .read as with
  | .error t => .raise t
  | .ok refs =>
    let absent := s.absentAll refs
    if absent ≠ [] then .park absent
    else if s.heldAll refs none then .hold
    else match if control then s.poisonAt (as.zip refs) else none with
      | some x => .raise (e.matTrap 13 4 0#17 x)
      | none => .ok (refs.map fun r => (s.spadByteP r).1)

/-- K per cycle of an array for a pairing of formats (11:R264). -/
def macRate (a b : Nat) : Nat :=
  if a = 1 ∧ b = 1 ∨ a = 2 ∧ b = 2 then 1 else if a = 6 ∧ b = 3 ∨ a = 3 ∧ b = 6 then 4 else 2

/-- Core cycles for which an operation occupies the engine, of a multiply-accumulate (11:R267). -/
def MatOp.occupancy : MatOp → Option Nat
  | .mac _ _ _ _ _ k _ _ _ _ ra rb => some (32 + k / macRate ra.fmt rb.fmt)
  | _ => none

/-- `mmac` and `mmac.i`; of several records and a tile not held, RA is reported first, then RB, then the tile (DESIGN CHOICE, log 89). -/
def Env.mmac (e : Env) (s : State) (int : Bool) : Res :=
  match e.nib with
  | none => .done s
  | some n =>
    let a := (e.word 0 n).toNat
    let sel := e.word 1 n
    if a % 16 ≠ 0 then .raise s (e.matTrap 5 1 (kindX .read 4) a)
    else match e.readBlock s a 16 true with
      | .raise t => .raise s t
      | .park ls => .hold (e.parkOn s ls)
      | .hold => .hold s
      | .ok bs =>
        let f (o k : Nat) : Nat := leNat ((bs.drop o).take k)
        let m := f 0 2
        let nn := f 2 2
        let k := f 4 4
        let ra := (sel.extractLsb' 0 6).toNat
        let rb := (sel.extractLsb' 8 6).toNat
        let tile := (sel.extractLsb' 16 7).toNat
        if sel.extractLsb' 24 8 ≠ 0#8 ∨ sel.extractLsb' 14 2 ≠ 0#2 ∨ sel.extractLsb' 6 2 ≠ 0#2 ∨ ¬ (m = 16 ∨ m = 32 ∨ m = 48 ∨ m = 64) ∨
            ¬ (nn = 32 ∨ nn = 64 ∨ nn = 96 ∨ nn = 128) ∨ k = 0 ∨ 65472 < k then .raise s e.matInsn
        else match e.recOf s ra, e.recOf s rb with
          | none, _ => .raise s (e.notHeld 6 ra)
          | _, none => .raise s (e.notHeld 6 rb)
          | some qa, some qb =>
            if e.l.kern.acct ≤ tile then .raise s (e.notHeld 6 tile)
            else match macForm qa.fmt qb.fmt with
              | none => .raise s e.matInsn
              | some (i, g, demand) =>
                if i ≠ int ∨ k % g ≠ 0 ∨ f 10 2 % g ≠ 0 ∨ f 14 2 % g ≠ 0 then .raise s e.matInsn
                else if qa.rows < f 8 2 + m ∨ qa.ldk < f 10 2 + k then .raise s (e.notHeld 8 ra)
                else if qb.rows < f 12 2 + nn ∨ qb.ldk < f 14 2 + k then .raise s (e.notHeld 8 rb)
                else e.issueMat s (.mac int (sel.getLsbD 23) tile m nn k (f 8 2) (f 10 2) (f 12 2) (f 14 2) qa qb) [] (some demand)

def execMmac (p : Pfx) (l : Lf) (a b : Hs) (s : State) := run (.mmac p l a b) s fun e s => e.mmac s false

def execMmacI (p : Pfx) (l : Lf) (a b : Hs) (s : State) := run (.mmacI p l a b) s fun e s => e.mmac s true

/-- Whether a value is finite. -/
def Ext.isFin : Ext → Bool
  | .fin .. => true
  | _ => false

/-- One step of an element: the exact sum of its products, times the factors, rounded, added and rounded; and whether its inputs and factors
are all finite. A factor that is not finite makes elements special (04:R91): each element is then taken times its factor first, so that a zero
element is a NaN and infinities of both signs are one. The sign of an exact zero sum of more than two terms is that of sums of two (DEDUCED,
log 87). -/
def Group.macStep (g : Group) (a b : Rec) (ra ka rb kb n : Nat) (c : Nat) : Nat × Bool :=
  let fa := (g.factor a ra ka).1
  let fb := (g.factor b rb kb).1
  let av (t : Nat) : Ext := elemValue a.fmt (g.elem a ra (ka + t))
  let bv (t : Nat) : Ext := elemValue b.fmt (g.elem b rb (kb + t))
  let fin := fa.isFin && fb.isFin
  let term (t : Nat) : Ext :=
    if fin then (Ext.mul (av t) (bv t)).1 else (Ext.mul (Ext.mul (av t) fa).1 (Ext.mul (bv t) fb).1).1
  let sum := (List.range (n - 1)).foldl (fun x t => (Ext.add .rne x (term (t + 1))).1) (term 0)
  let r := (Fmt.f32.deliver .rne false (if fin then (Ext.mul (Ext.mul sum fa).1 fb).1 else sum)).1
  let c := (Fmt.f32.deliver .rne false (Ext.add .rne (Fmt.f32.decode c) (Fmt.f32.decode r)).1).1
  (c, fin && (List.range n).all fun t => (av t).isFin && (bv t).isFin)

/-- A floating-point element: its pattern after every step, and whether everything that entered it was finite. -/
def Group.macElem (g : Group) (a b : Rec) (ra ka rb kb k step : Nat) (c : Nat) : Nat × Bool :=
  (List.range (k / step)).foldl (fun x t =>
    let r := g.macStep a b ra (ka + t * step) rb (kb + t * step) step x.1
    (r.1, x.2 && r.2)) (c, (Fmt.f32.decode c).isFin)

/-- An integer element before its clamp. -/
def Group.macInt (g : Group) (a b : Rec) (ra ka rb kb k : Nat) (c : Int) : Int :=
  (List.range k).foldl (fun x t => x + sextInt (g.elem a ra (ka + t)) 8 * sextInt (g.elem b rb (kb + t)) 8) c

/-- Whether the sum of an element used a poisoned word. -/
def Group.macPoison (g : Group) (a b : Rec) (ra ka rb kb k : Nat) : Bool :=
  (List.range k).any fun t => g.elemPoison a ra (ka + t) || (g.factor a ra (ka + t)).2 || g.elemPoison b rb (kb + t) || (g.factor b rb (kb + t)).2

/-- Key of a tile element. -/
def accKey (tile x : Nat) : Nat := 8192 * tile + x

/-- A tile element. -/
def Group.tileElem (g : Group) (tile x : Nat) : Word := g.acc.getD (accKey tile x) 0#32

/-- Whether the word that holds a tile element is poisoned. -/
def Group.tilePoison (g : Group) (tile x : Nat) : Bool := g.accPoison.has (accKey tile x / 2)

/-- Adds to a sticky count of a tile status word, whose field starts at bit `at_` (11:R266). -/
def addCount (w : BitVec 64) (at_ n : Nat) : BitVec 64 :=
  let c := (w.extractLsb' at_ 21).toNat
  let v := min (c + n) 0x1FFFFF
  (w &&& ~~~(BitVec.ofNat 64 (0x1FFFFF * 2 ^ at_))) ||| BitVec.ofNat 64 (v * 2 ^ at_)

/-- A multiply-accumulate is performed: every element of the rectangle, its poison, and the counts. -/
def Group.macDo (g : Group) (int zero : Bool) (tile m n k arow akof brow bkof : Nat) (a b : Rec) : Group :=
  let step := match macForm a.fmt b.fmt with | none => 1 | some f => f.2.1
  let cells := ((List.range m).map fun i => (List.range n).map fun j =>
    let x := 128 * i + j
    let old := if zero then 0#32 else g.tileElem tile x
    let bad := (!zero && g.tilePoison tile x) || g.macPoison a b (arow + i) akof (brow + j) bkof k
    if int then
      let c := g.macInt a b (arow + i) akof (brow + j) bkof k old.toInt
      let r := max (-(2 ^ 31)) (min (2 ^ 31 - 1) c)
      (x, wrap32 r, bad, 0, 0, if r = c then 0 else 1)
    else
      let r := g.macElem a b (arow + i) akof (brow + j) bkof k step old.toNat
      let v := Fmt.f32.decode r.1
      (x, BitVec.ofNat 32 r.1, bad, (match v with | .inf _ => if r.2 then 1 else 0 | _ => 0), if v.isNan then 1 else 0, 0)).flatten
  let st := g.tstat.getD tile 0#64
  let st := addCount (addCount (addCount st 42 (cells.map (·.2.2.2.1)).sum) 21 (cells.map (·.2.2.2.2.1)).sum) 0 (cells.map (·.2.2.2.2.2)).sum
  let words := (cells.map fun c => accKey tile c.1 / 2).eraseDups
  let p := g.accPoison.keep fun w _ => !words.contains w
  { g with acc := cells.foldl (fun t c => t.putD (accKey tile c.1) c.2.1 0#32) g.acc
           accPoison := (cells.filter (·.2.2.1)).foldl (fun p c => p.put (accKey tile c.1 / 2) ()) p
           tstat := g.tstat.putD tile st 0#64 }

/-! ### Tiles (11:R268 to R270) -/

/-- `mrd`: the lanes that pass complete (09:R197); a lane that reads a poisoned word raises HWERR before the instruction has any effect (08:R190).
In the detail of ALIGN the element index stands for the address, and the logarithm of the bytes read for the size (DESIGN CHOICE, log 120). -/
def execMrd (p : Pfx) (l : Lf) (w : BitVec 2) (t : BitVec 7) (d : Opnd) (a : Hs) (s : State) :=
  run (.mrd p l w t d a) s fun e s =>
    let n := 2 ^ w.toNat
    let tile := t.toNat
    if e.act = 0#64 then .done s
    else if s.matBusy e.g.group then .hold s
    else match s.group? e.g.group with
      | none => .hold s
      | some g =>
        let check (lane : Nat) : Option TrapRec :=
          let x := (e.word 0 lane).toNat
          if e.l.kern.acct ≤ tile then some (e.trap 4 6 (bit lane) (BitVec.ofNat 17 tile) 0#32 0#32)
          else if x % n ≠ 0 then some (e.trap 5 1 (bit lane) (kindX .read (Nat.log2 (4 * n))) (BitVec.ofNat 32 x) 0#32)
          else if 8191 < x then some (e.trap 4 8 (bit lane) (BitVec.ofNat 17 tile) (BitVec.ofNat 32 x) 0#32)
          else none
        let poison (lane : Nat) : Option TrapRec :=
          let x := (e.word 0 lane).toNat
          ((List.range n).find? fun j => g.tilePoison tile (x + j)).map fun j =>
            e.trap 13 4 (bit lane) 0#17 (0xC0000000#32 + BitVec.ofNat 32 (4 * accKey tile (x + j))) 0#32
        let fails : Assoc TrapRec := e.lanes.filterMap fun k => (check k).map fun t => (k, t)
        let ok := e.act &&& ~~~failMask fails
        let bad : Assoc TrapRec := (lanesOf ok).filterMap fun k => (poison k).map fun t => (k, t)
        if !bad.isEmpty then s.allFail bad
        else if ok = 0#64 then e.part s fails
        else
          let s := (e.settle s ok fails.isEmpty).writeReg e.x d n (lanesOf ok) e.nib fun k =>
            (List.range n).map fun j => g.tileElem tile ((e.word 0 k).toNat + j)
          e.part (e.launchOp s ok) fails

/-- A tile and perhaps its status word cleared. -/
def Group.clearTile (g : Group) (tile : Nat) (st : Bool) : Group :=
  { g with acc := g.acc.keep fun k _ => decide (k / 8192 ≠ tile)
           accPoison := g.accPoison.keep fun k _ => decide (k / 4096 ≠ tile)
           tstat := if st then g.tstat.del tile else g.tstat }

def execMclr (p : Pfx) (l : Lf) (st : Bool) (t : BitVec 7) (s : State) :=
  run (.mclr p l st t) s fun e s =>
    if e.act = 0#64 then .done s
    else if e.l.kern.acct ≤ t.toNat then .raise s (e.notHeld 6 t.toNat)
    else if s.matBusy e.g.group then .hold s
    else .done (e.launchOp (s.updGroup e.g.group fun g => g.clearTile t.toNat st) e.act)

def execMstat (p : Pfx) (l : Lf) (keep : Bool) (t : BitVec 7) (d : Opnd) (s : State) :=
  run (.mstat p l keep t d) s fun e s =>
    if e.act = 0#64 then .done s
    else if e.l.kern.acct ≤ t.toNat then .raise s (e.notHeld 6 t.toNat)
    else if s.matBusy e.g.group then .hold s
    else
      let w := match s.group? e.g.group with | none => 0#64 | some g => g.tstat.getD t.toNat 0#64
      let s := if keep then s else s.updGroup e.g.group fun g => { g with tstat := g.tstat.del t.toNat }
      e.longWrite s fun _ => dwords w

/-! ### Quantising (11:R271, R272) -/

/-- Number of a tile element in storage order. -/
def quantAt (col : Bool) (e : Nat) : Nat := if col then 128 * (e % 64) + e / 64 else e

/-- Code of the codebook value nearest to `n / d`; a tie takes the smaller magnitude. -/
def nearestCode (neg : Bool) (n d : Nat) : Nat :=
  let y : Int := if neg then -(64 * n : Int) else 64 * n
  let dist (c : Nat) : Nat := (y - (q4nBook.getD c 0) * (d : Int)).natAbs
  (List.range 16).foldl (fun b c =>
    if dist c < dist b ∨ (dist c = dist b ∧ (q4nBook.getD c 0).natAbs < (q4nBook.getD b 0).natAbs) then c else b) 0

/-- The code of an element over a factor `mf·2^ef`, as Q4N or E4M3, and whether it is a zero. -/
def quantElem (e4 sat : Bool) (x : Ext) (mf : Nat) (ef : Int) : Nat × Bool :=
  match x with
  | .nan _ => (if e4 then 0x7F else 7, false)
  | .inf neg => (if e4 then (Fmt.e4m3.deliver .rne sat (.inf neg)).1 else if neg then 0 else 15, false)
  | .fin neg m e =>
    if e4 then
      let r := if m = 0 then (0, 0) else sticky m mf
      let c := (Fmt.e4m3.round .rne sat neg r.1 (r.2 + e - ef)).1
      (c, decide (c % 128 = 0))
    else
      let q := e - ef
      let c := if 0 ≤ q then nearestCode neg (m * 2 ^ q.toNat) mf else nearestCode neg m (mf * 2 ^ (-q).toNat)
      (c, decide (c = 7))

/-- One block: its codes with their poison, and its statistics record. -/
def Group.quantBlock (g : Group) (tile : Nat) (e4 sat col : Bool) (scale b q : Nat) : List (Nat × Bool) × List (Byte × Bool) :=
  let (mf, ef) := match Fmt.f32.decode scale with
    | .fin _ m e => (m * (b + 1), e - 8)
    | _ => (1, 0)
  let xs := (List.range 64).map fun i =>
    let k := quantAt col (64 * q + i)
    let p := (g.tileElem tile k).toNat
    (p, Fmt.f32.decode p, g.tilePoison tile k)
  let out := xs.map fun x => (quantElem e4 sat x.2.1 mf ef, x.2.2)
  let amax := (xs.filter fun x => !x.2.1.isNan).foldl (fun a x => max a (x.1 % 2 ^ 31)) 0
  let nan := (xs.filter fun x => x.2.1.isNan).length
  let ufc := ((xs.zip out).filter fun p => p.1.2.1.isFin && decide (p.1.1 % 2 ^ 31 ≠ 0) && p.2.1.2).length
  (out.map fun o => (o.1.1, o.2), (leBytes 8 (amax + ufc * 2 ^ 32 + nan * 2 ^ 40)).map fun x => (x, xs.any (·.2.2)))

/-- Quantising is performed: its data and statistics bytes. -/
def Group.quantDo (g : Group) (tile : Nat) (e4 sat col : Bool) (scale : Nat) (codes : List Nat) : List (Byte × Bool) × List (Byte × Bool) :=
  let bs := (List.range 128).map fun q => g.quantBlock tile e4 sat col scale (codes.getD q 0) q
  (packElems (if e4 then 8 else 4) (bs.map (·.1)).flatten, (bs.map (·.2)).flatten)

/-- Whether a super-scale is a positive finite value. -/
def scaleOk (p : Nat) : Bool := match Fmt.f32.decode p with | .fin neg m _ => !neg && decide (m ≠ 0) | _ => false

/-- Bytes 4 to 15 of a scale record, which `mqnt` writes as zero (04:R90): those that can be written (DEDUCED, log 80). -/
def Env.recordZeros (e : Env) (s : State) (ra : Nat) : List SpadRef :=
  (((List.range 12).map (ra + 4 + ·)).filterMap (s.spadRef e.g.group)).filter (!·.ro)

/-- `mqnt`: it writes its data, its statistics, and zero in bytes 4 to 15 of the record that it reads (04:R90, 11:R271, R272). Of several
addresses that are not aligned, A is reported first, then B, then C (DESIGN CHOICE, log 90). The test of the record's S comes last, once the record
can be read (DESIGN CHOICE, log 125). -/
def execMqnt (p : Pfx) (l : Lf) (t : BitVec 7) (e4 sat col : Bool) (a b c : Hs) (s : State) :=
  run (.mqnt p l t e4 sat col a b c) s fun e s =>
    match e.nib with
    | none => .done s
    | some n =>
      let da := (e.word 0 n).toNat
      let ra := (e.word 1 n).toNat
      let sa := (e.word 2 n).toNat
      if e.l.kern.acct ≤ t.toNat then .raise s (e.notHeld 6 t.toNat)
      else if da % 16 ≠ 0 then .raise s (e.matTrap 5 1 (kindX .write 4) da)
      else if ra % 16 ≠ 0 then .raise s (e.matTrap 5 1 (kindX .read 4) ra)
      else if sa % 8 ≠ 0 then .raise s (e.matTrap 5 1 (kindX .write 3) sa)
      else
        let das := (List.range (if e4 then 8192 else 4096)).map (da + ·)
        let ras := (List.range 272).map (ra + ·)
        let sas := (List.range 1024).map (sa + ·)
        -- the window of every operand first, then the ranges written, then presence and poison of the record (11:R256)
        match ((e.outside s .write das).orElse fun _ => e.outside s .read ras).orElse fun _ => e.outside s .write sas,
            e.spadAll s .write das, e.spadAll s .write sas with
        | some t, _, _ => .raise s t
        | _, .error t, _ => .raise s t
        | _, _, .error t => .raise s t
        | none, .ok dr, .ok sr =>
          let ws := dr ++ sr
          let zs := (e.recordZeros s ra).map fun r => (r.group, r.ofs)
          let absent := e.partnerAbsent s ws
          (match e.readBlock s ra 272 true with
          | .raise t => .raise s t
          | .park ls => .hold (e.parkOn s (ls ++ absent))
          | .hold => .hold s
          | .ok bs =>
            let scale := leNat (bs.take 4)
            if absent ≠ [] then .hold (e.parkOn s absent)
            else if !scaleOk scale then .raise s e.matInsn
            else if s.heldAll ws (some e.g.group) || e.copyAhead s ws then .hold s
            else match dr.head?, sr.head? with
              | some d0, some s0 =>
                e.issueMat s (.quant t.toNat e4 sat col scale ((bs.drop 16).map (·.toNat)) d0.group d0.ofs s0.group s0.ofs zs)
                  (ws.map (fun r => (r.group, r.ofs)) ++ zs) none
              | _, _ => .hold s)

/-! ### Picking scales (11:R273) -/

/-- An AMAX pattern as a magnitude `m·2^e`; none for an infinity or a NaN. -/
def amaxOf (p : Nat) : Option (Nat × Int) := match Fmt.f32.decode p with | .fin _ m e => some (m, e) | _ => none

/-- Whether `m·2^e ≤ t·2^k`. -/
def leScaled (m : Nat) (e : Int) (t : Nat) (k : Int) : Bool :=
  let q := min e k
  decide (m * 2 ^ (e - q).toNat ≤ t * 2 ^ (k - q).toNat)

/-- The exponent of the super-scale for the magnitudes of the blocks. -/
def pickExp (top : Nat) (as : List (Option (Nat × Int))) : Int :=
  (((List.range 254).map fun (i : Nat) => (i : Int) - 126).find? fun k => as.all fun a => match a with
    | none => false
    | some (m, e) => leScaled m e top k).getD 127

/-- The scale code of a block: `ceil(256·a/(S·top)) − 1` between 0 and 255, halved where it underflowed too much. -/
def pickCode (top : Nat) (k : Int) (a : Option (Nat × Int)) (u limit halvings : Nat) : Nat :=
  let b := match a with
    | none => 255
    | some (m, e) =>
      let q := e + 8 - k
      let (n, d) := if 0 ≤ q then (m * 2 ^ q.toNat, top) else (m, top * 2 ^ (-q).toNat)
      min 255 ((n + d - 1) / d - 1)
  if limit < u then (b + 1) / 2 ^ halvings - 1 else b

/-- The 272 bytes of the record picked from statistics records. -/
def pickRecord (e4 : Bool) (limit halvings : Nat) (recs : List (Nat × Nat)) : List Byte :=
  let top := if e4 then 448 else 1
  let as := recs.map fun r => amaxOf r.1
  let zero := as.all fun a => match a with | some (m, _) => decide (m = 0) | none => false
  let k := if zero then 0 else pickExp top as
  leBytes 4 ((k + 127).toNat * 2 ^ 23) ++ List.replicate 12 0#8 ++
  recs.map (fun r => BitVec.ofNat 8 (pickCode top k (amaxOf r.1) r.2 limit halvings)) ++ List.replicate (256 - recs.length) 0#8

/-- `spick`: of two addresses that are not aligned, A is reported first (DESIGN CHOICE, log 90); its statistics are data reads, as its control word is a register (08:R190; DEDUCED, log 86). -/
def execSpick (p : Pfx) (l : Lf) (a b c : Hs) (s : State) :=
  run (.spick p l a b c) s fun e s =>
    match e.nib with
    | none => .done s
    | some n =>
      let sa := (e.word 0 n).toNat
      let da := (e.word 1 n).toNat
      let w := e.word 2 n
      let nb := (w.extractLsb' 0 9).toNat
      let u := (w.extractLsb' 10 7).toNat
      if w.extractLsb' 19 13 ≠ 0#13 ∨ nb = 0 ∨ 256 < nb ∨ 64 < u then .raise s e.matInsn
      else if sa % 8 ≠ 0 then .raise s (e.matTrap 5 1 (kindX .read 3) sa)
      else if da % 16 ≠ 0 then .raise s (e.matTrap 5 1 (kindX .write 4) da)
      else match e.readBlock s sa (8 * nb) false, e.spadAll s .write ((List.range 272).map (da + ·)) with
        | .raise t, _ => .raise s t
        | _, .error t => .raise s t
        | .park ls, _ => .hold (e.parkOn s ls)
        | .hold, _ => .hold s
        | .ok bs, .ok dr =>
          let absent := e.partnerAbsent s dr
          if absent ≠ [] then .hold (e.parkOn s absent)
          else if s.heldAll dr (some e.g.group) || e.copyAhead s dr then .hold s
          else
            let recs := (List.range nb).map fun j => (leNat ((bs.drop (8 * j)).take 4), (bs.getD (8 * j + 4) 0#8).toNat)
            let bad := ((List.range (8 * nb)).map (sa + ·)).any fun x => (s.spadRef e.g.group x).any fun r => (s.spadByteP r).2
            let out := pickRecord (w.getLsbD 9) u (w.extractLsb' 17 2).toNat recs
            -- the super-scale and the codes of the blocks are computed from the statistics, the other bytes are zero
            let uses (i : Nat) : Bool := decide (i < 4 ∨ (16 ≤ i ∧ i < 16 + nb))
            e.issueMat s (.put ((dr.zip out).zipIdx.map fun q => (q.1.1.group, q.1.1.ofs, q.1.2, bad && uses q.2))) (dr.map fun r => (r.group, r.ofs)) none

/-! ### Completion (11:R257, R258, R261, R265, R272) -/

/-- The effect of a matrix operation of a group. -/
def State.matDo (s : State) (group : Nat) : MatOp → State
  | .load ws => s.updGroup group fun g => g.opndPut ws
  | .store ms =>
    match s.group? group with
    | none => s
    | some g => s.spadPuts (ms.map fun m => (m.1, m.2.1, g.opndByte m.2.2, g.opndPoison.has (m.2.2 / 8)))
  | .put ws => s.spadPuts ws
  | .mac int zero tile m n k arow akof brow bkof ra rb => s.updGroup group fun g => g.macDo int zero tile m n k arow akof brow bkof ra rb
  | .quant tile e4 sat col scale codes dg d sg st zeros =>
    match s.group? group with
    | none => s
    | some g =>
      let (bs, qs) := g.quantDo tile e4 sat col scale codes
      s.spadPuts (zeros.map (fun z => (z.1, z.2, 0#8, false)) ++ (bs.zipIdx.map fun b => (dg, d + b.2, b.1)) ++ qs.zipIdx.map fun b => (sg, st + b.2, b.1))

/-- Whether a matrix operation is the next of its group to be performed (DEDUCED, log 34). -/
def State.matFirst (s : State) (id group : Nat) : Bool :=
  !(s.ops.any fun o => decide (o.1 < id) && (match o.2.data with | .matrix _ g _ => decide (g = group) | _ => false))

/-- MATRIX_OP_COMPLETE: the engine finishes an operation: its writes are made, its lines are no longer held, its reservation ends. -/
def execMatrixOpComplete (op : Nat) (s : State) : Host.Outcome State Fault Refusal :=
  match s.op? op with
  | none => .next s
  | some o => match o.data with
    | .matrix m group true =>
      if !s.matFirst op group then .next s
      else
        let s := (s.matDo group m).updOp op fun o => { o with data := .none }
        let s := s.setCores { s.cores with heldLines := s.cores.heldLines.keep fun _ k => decide (k ≠ op) }
        let s := match m.occupancy with
          | none => s
          | some n => s.pmSample o.gang o.access 0x43 n
        .next (s.arbEnd (clusterOf o.core) op)
    | _ => .next s

end Sys2Proof.Machine
end

