-- ==== Sys2Proof/Machine/RunControl.lean ====
section
/-! DEFINITION. Run-control queries: records, holds, matching, actions, and the instructions `rcq`, `rcrd` and `famset` (14:R323 to R347,
02:R42, 07:R160, 09:R217, 20:R436, 21:R437, R438). -/

namespace Sys2Proof.Machine

/-! ### Query records (14:R326 to R330) -/

/-- A query record, field by field. -/
structure Query where
  hdr : Nat
  actw : Nat
  terms : List Nat
  deriving DecidableEq, Repr

def Query.ofBytes (r : List Byte) : Query :=
  ⟨fieldAt r 0 8, fieldAt r 8 8, (List.range 4).map fun i => fieldAt r (16 + 12 * i) 12⟩

/-- Bits `lo` to `lo + n − 1` of a field. -/
def bitsAt (x lo n : Nat) : Nat := x / 2 ^ lo % 2 ^ n

def Query.action (q : Query) : Nat := bitsAt q.hdr 0 3
def Query.self (q : Query) : Bool := decide (bitsAt q.hdr 11 1 = 1)
def Query.actx (q : Query) : Nat := bitsAt q.hdr 12 2
def Query.scope (q : Query) : Nat := bitsAt q.hdr 14 2
def Query.launch (q : Query) : Nat := bitsAt q.hdr 48 16
def Query.sel (q : Query) : Nat := bitsAt q.actw 56 8
def Query.cap (q : Query) : Nat := bitsAt q.actw 32 16
def Query.low (q : Query) : Nat := bitsAt q.actw 0 32
/-- Contexts the action applies to: compute first. -/
def Query.ctxs (q : Query) : List Bool := match q.actx with | 0 => [false] | 1 => [true] | _ => [false, true]

def termKind (t : Nat) : Nat := bitsAt t 92 4
def termAccess (t : Nat) : Bool := decide (bitsAt t 91 1 = 1)

/-- Whether a term has no field that is refused (reason 1). -/
def termOk (decoupled : Bool) (t : Nat) : Bool :=
  let ctx := !termAccess t || decoupled
  match termKind t with
  | 0 => decide (bitsAt t 0 92 = 0)
  | 1 => ctx && decide (bitsAt t 0 36 ≠ 0)
  | 2 => ctx && decide (bitsAt t 64 16 = 0 ∧ bitsAt t 80 4 ≤ 6 ∧ (bitsAt t 80 4 ≠ 6 ∨ bitsAt t 0 32 = 0))
  | 3 => ctx && decide (bitsAt t 10 81 = 0)
  | 4 => ctx && decide (bitsAt t 74 17 = 0)
  | 5 => decide (bitsAt t 64 28 = 0)
  | _ => false

/-- Whether a SEL may be read or written. -/
def selOk (write : Bool) (n : Nat) : Bool :=
  decide (n ≤ 0x77 ∨ (0x90 ≤ n ∧ n ≤ 0x97)) ||
  (!write && decide (n = 0x80 ∨ n = 0x81 ∨ (0x98 ≤ n ∧ n ≤ 0x9F) ∨ (0xA0 ≤ n ∧ n ≤ 0xAB)))

/-- Whether an operand code names a register that a context has (reason 2 where not). -/
def codeOk (k : Kern) (access : Bool) (n : Nat) : Bool :=
  if n < 0x40 then decide (n < if access then k.avregs else k.vregs)
  else if n < 0x70 then decide (n - 0x40 < if access then k.asregs else k.sregs)
  else if n < 0x78 then !access
  else true

/-- The reason for which a record is refused: 1 bad record, 2 bad register (14:R330) (DEDUCED, log 62). -/
def Query.refused (q : Query) (k : Kern) : Option Nat :=
  let a := q.action
  let bad :=
    decide (bitsAt q.hdr 16 32 ≠ 0 ∨ bitsAt q.hdr 3 8 ≠ 0 ∨ 5 < a ∨ q.actx = 3) ||
    (decide (q.actx ≠ 0) && !k.decoupled) ||
    !(q.terms.all (termOk k.decoupled)) ||
    (match a with
     | 4 => decide (bitsAt q.actw 48 8 ≠ 0 ∨ q.cap = 0) || !selOk false q.sel
     | 5 => decide (bitsAt q.actw 32 24 ≠ 0) || !selOk true q.sel || decide (0x90 ≤ q.sel ∧ 1 < q.low)
     | _ => decide (q.actw ≠ 0))
  let term (t : Nat) : Bool := decide (termKind t = 2) && !codeOk k (termAccess t) (bitsAt t 84 7)
  let sel := decide (a = 4 ∨ a = 5) && q.ctxs.any fun x => if q.sel < 0x78 then !codeOk k x q.sel else x && decide (q.sel = 0xAB)
  if bad then some 1 else if q.terms.any term || sel then some 2 else none

/-! ### What a query sees of a lane (14:R328, R332, R341, 20:R436) -/

/-- The wait state of a lane of a context as a query codes it. -/
def wsCode : WS → Nat
  | .running => 0 | .ready => 1 | .parked => 2 | .queueWait => 3 | .barrier => 4 | .waitv => 5 | .capsuleWait => 6 | .stopped => 7
  | .trapped => 8 | .evicted => 9

/-- WSTATE of a lane (DEDUCED, log 61). -/
def wstate (g : Gang) (c : Ctx) (lane : Nat) (l : LaneSt) : Nat :=
  if g.core.isNone then 9
  else if l.ws = .ready ∧ c.path.getLsbD lane then 0 else wsCode l.ws

/-- The instruction in which a lane waits, where it has issued. -/
def State.waitingOp (s : State) (x : Site) (lane : Nat) : Option Op :=
  ((s.opsOf x).vals.filter fun o => o.left.getLsbD lane && (match o.i with | .waitv .. | .bar .. | .barw .. => true | _ => false)).head?

/-- Where a lane goes on whose path waits for the delivery of a displaced owner: at the owner's EXIT (15:R354, R362). -/
def State.exitAfterWait (s : State) (x : Site) (lane : Nat) : Option DWord :=
  match s.gang? x.gang with
  | none => none
  | some g =>
    if x.access then none
    else (g.threads.find? fun t => decide (t.2.link.role = .owner) && t.2.link.adopted && (g.cctx.withHolder t.1).getLsbD lane &&
        (g.cctx.lanes.get? t.1).any fun l => decide ((if l.ws = .stopped then l.under else l.ws) = .capsuleWait)).map fun t => t.2.link.exit

/-- The program counter of a lane as a query sees it: for a lane that waits inside a clause, the instruction it waits in (DEDUCED, log 39). -/
def State.queryPc (s : State) (x : Site) (lane : Nat) (l : LaneSt) : DWord :=
  let w := if l.ws = .stopped then l.under else l.ws
  match w with
  | .waitv | .barrier => (match s.waitingOp x lane with | none => l.pc | some o => o.cur.ip)
  | _ => (s.exitAfterWait x lane).getD l.pc

/-- STATUS of a lane of a context. -/
def statusWord (g : Gang) (access : Bool) (lane : Nat) : Nat :=
  let item := match g.threads.get? lane with
    | none => 0
    | some t => (match t.item with | .no => 0 | .live => 1 | .finished => 2 | .empty => 3) * 2 ^ 9 +
        (if !access ∧ (t.link.role = .owner ∨ t.link.role = .adopter) then 2 ^ 11 else 0)
  match g.ctx? access with
  | none => 2 ^ 19 + item
  | some c => match c.lanes.get? lane with
    | none => 2 ^ 19 + item
    | some l =>
      (match l.held with | none => 0 | some j => 2 ^ 18 + j.toNat * 2 ^ 15) + (if l.pstep then 2 ^ 14 else 0) +
      (if l.pkill then 2 ^ 13 else 0) + (if l.pstop then 2 ^ 12 else 0) + item +
      (if l.ws = .stopped then wsCode l.under * 16 else 0) + wstate g c lane l

/-- A register copy as a query takes it: a dead or poisoned one gives the value of a dead register. -/
def copyOr (r : Option Reg) : Word :=
  match r with
  | none => Config.dead
  | some r => if r.plo ∨ r.phi then Config.dead else r.val

/-- The value of an operand code in a lane of a context. -/
def codeVal (g : Gang) (c : Ctx) (lane n : Nat) : Word :=
  if n < 0x40 then copyOr (c.v.get? (64 * n + lane))
  else if n < 0x70 then copyOr (c.s.get? (n - 0x40))
  else if n < 0x78 then (match g.threads.get? lane with | none => 0#32 | some t => t.creg (n - 0x70))
  else if (c.k.getD (n - 0x78) 0#64).getLsbD lane then 1#32 else 0#32

/-- The comparison of a register term. -/
def termCmp (op : Nat) (x v : Word) : Bool :=
  match op with
  | 0 => decide (x = v)
  | 1 => decide (x ≠ v)
  | 2 => x.slt v
  | 3 => !x.slt v
  | 4 => x.ult v
  | 5 => !x.ult v
  | _ => decide (x ≠ 0#32)

/-- Whether a term is true of a thread. -/
def State.termTrue (s : State) (n : Nat) (g : Gang) (lane t : Nat) : Bool :=
  let a := termAccess t
  let ctx : Option (Ctx × LaneSt) := match g.ctx? a with
    | none => none
    | some c => (c.lanes.get? lane).map fun l => (c, l)
  let w (lo : Nat) : Word := BitVec.ofNat 32 (bitsAt t lo 32)
  match termKind t with
  | 0 => true
  | 1 => (match ctx with
    | none => false
    | some (_, l) =>
      let lo := (BitVec.ofNat 57 (4 * bitsAt t 36 55)).signExtend 64
      decide ((s.queryPc ⟨n, a⟩ lane l - lo).toNat < 4 * bitsAt t 0 36))
  | 2 => (match ctx with
    | none => false
    | some (c, _) => termCmp (bitsAt t 80 4) (codeVal g c lane (bitsAt t 84 7) &&& w 32) (w 0))
  | 3 => (match ctx with
    | none => false
    | some (c, l) => decide (bitsAt t (wstate g c lane l) 1 = 1))
  | 4 => ctx.isSome && decide (((s.idn n lane a).toNat / 2 ^ 11 % 2 ^ 37) &&& bitsAt t 37 37 = bitsAt t 0 37)
  | 5 => (match g.threads.get? lane with
    | none => false
    | some th => decide (th.fam &&& w 32 = w 0))
  | _ => false

/-- The value of SEL in a lane of a context (14:R329). -/
def State.selVal (s : State) (n : Nat) (g : Gang) (a : Bool) (lane sel : Nat) : DWord :=
  match g.ctx? a with
  | none => if sel = 0x80 then Config.endedPc (s.idn n lane a) s.draws else if sel = 0x81 then BitVec.ofNat 64 (statusWord g a lane) else 0#64
  | some c =>
    if sel < 0x78 then (codeVal g c lane sel).setWidth 64
    else if sel = 0x80 then (match c.lanes.get? lane with
      | none => Config.endedPc (s.idn n lane a) s.draws
      | some l => s.queryPc ⟨n, a⟩ lane l)
    else if sel = 0x81 then BitVec.ofNat 64 (statusWord g a lane)
    else if sel < 0x98 then c.k.getD (sel - 0x90) 0#64
    else if sel < 0xA0 then c.j.getD (sel - 0x98) 0#64
    else if sel < 0xA4 then c.seen (0x20 + (sel - 0xA0)) lane (BitVec.ofNat 64 (c.sbOf (sel - 0xA0)))
    else match sel - 0xA4 with
      | 0 => c.gst.setWidth 64
      | 1 => c.seen 0x01 lane (c.tcg.setWidth 64)
      | 2 => c.tlm
      | 3 => c.d0.setWidth 64
      | 4 => c.d1.setWidth 64
      | 5 => c.d2.setWidth 64
      | 6 => c.tra
      | _ => (match g.threads.get? lane with | none => 0#64 | some t => t.rngc)

/-! ### Actions on one lane of a context (14:R338 to R340, 07:R160, 09:R217, 15:R360, R365) -/

/-- Whether a lane waits in a trap: its stop or kill waits for the trap's end. A lane in back-off does not. -/
def Ctx.inTrap (c : Ctx) (lane : Nat) (l : LaneSt) : Bool :=
  decide (l.ws = .trapped ∧ c.retryAt.isNone) || c.inFrame lane

/-- Lanes that leave their path; the back-off of a path ends with its last lane. -/
def Ctx.leave (c : Ctx) (m : Mask) : Ctx :=
  let c := c.leavePath m
  if c.path = 0#64 ∧ c.retryAt.isSome then { c with retryAt := none, resume := none } else c

/-- Stops a lane. A step of it that is still waiting stays: resumed, the lane runs one clause apart and stops again (07:R160, 14:R340; DESIGN CHOICE,
log 122). -/
def State.stopLane (s : State) (x : Site) (lane : Nat) : State :=
  match s.ctx? x with
  | none => s
  | some c => match c.lanes.get? lane with
    | none => s
    | some l =>
      if l.ws = .stopped then s
      else if c.inTrap lane l then s.updCtx x fun c => c.updLane lane fun l => { l with pstop := true }
      else
        let under : WS := match l.ws with
          | .parked => .parked | .queueWait => .queueWait | .barrier => .barrier | .waitv => .waitv | .capsuleWait => .capsuleWait
          | _ => .ready
        let s := s.updCtx x fun c =>
          { ((c.updLane lane fun l => { l with ws := .stopped, under := under }).leave (bit lane)).strike (bit lane) true with due := c.due &&& ~~~bit lane }
        if x.access then s else s.stallAnchor x.gang lane

/-- The wait state of a stopped lane that is resumed: UNDER, where its wait continues (a lane at a queue or on absent lines is tried again from
there), or ready where it has been met (14:R339). -/
def State.resumeWs (s : State) (x : Site) (c : Ctx) (lane : Nat) (l : LaneSt) : WS :=
  match l.under with
  | .queueWait => .queueWait
  | .capsuleWait => .capsuleWait
  | .parked => if l.held.isSome ∨ c.parkedAt.isSome then .parked else c.readyOf lane
  | .barrier => if (s.waitingOp x lane).isNone then c.readyOf lane else .barrier
  | .waitv => if (s.waitingOp x lane).isNone then c.readyOf lane else .waitv
  | _ => c.readyOf lane

/-- Resumes a stopped lane. Until then UNDER does not change (14:R323). For an evicted gang it meets the wake condition of the lane (14:R339,
16:R394). -/
def State.resumeLane (s : State) (x : Site) (lane : Nat) : State :=
  match s.ctx? x with
  | none => s
  | some c => match c.lanes.get? lane with
    | none => s
    | some l =>
      if l.ws ≠ .stopped then s
      else
        let s := s.resumeWaiter x lane
        s.updCtx x fun c => { c.updLane lane fun l => { l with ws := s.resumeWs x c lane l } with due := c.due &&& ~~~bit lane }

/-- The capsule of a lane that has been resumed goes on: a contender takes a FREE anchor, an owner its delivery, and the anchor that its stop
had STALLED is its again (14:R340, 15:R360, R362, R365). -/
def State.resumeCapsule (s : State) (x : Site) (lane : Nat) : State :=
  if x.access ∨ s.laneStopped x lane then s
  else ((s.contenderBack x.gang lane).deliveredBack x.gang lane).unstallAnchor x.gang lane

/-- Whether a stopped lane waits in the last instruction of a clause: nothing is left of that clause when the wait is met (21:R437). -/
def Ctx.waitsAtEnd (c : Ctx) (lane : Nat) : Bool :=
  (c.lanes.get? lane).any fun l => decide (l.under = .waitv ∨ l.under = .barrier) && !c.mid.has lane

/-- A stepped lane: stopped where it was not, and let run one clause ahead of its path. The step of a lane in a trap, entered or not, waits for
the trap's end (14:R323). A lane whose wait in the last instruction of a clause has been met has run that clause (21:R437). -/
def State.stepLane (s : State) (x : Site) (lane : Nat) : State :=
  match s.ctx? x with
  | none => s
  | some c => match c.lanes.get? lane with
    | none => s
    | some l =>
      if c.inTrap lane l then s.updCtx x fun c => c.updLane lane fun l => { l with pstop := true, pstep := true }
      else
        let s := s.stopLane x lane
        let atEnd := (s.ctx? x).any fun c => c.waitsAtEnd lane
        ((s.resumeLane x lane).resumeCapsule x lane).updCtx x fun c =>
          let c := (c.updLane lane fun l => { l with pstep := true }).leavePath (bit lane)
          if atEnd && (c.lanes.get? lane).any (fun l => decide (l.ws = c.readyOf lane)) then c.goOn lane else c

/-- Kills a lane; a compute lane's thread ends, its item with it, and the anchor of its capsule is marked. -/
def State.killLane (s : State) (x : Site) (lane : Nat) : State :=
  match s.gang? x.gang, s.ctx? x with
  | some g, some c => match c.lanes.get? lane with
    | none => s
    | some l =>
      if c.inTrap lane l then s.updCtx x fun c => c.updLane lane fun l => { l with pkill := true }
      else
        let s := if x.access then s else s.stallAnchor x.gang lane
        let s := (s.updCtx x fun c => c.leave (bit lane)).endLanes x.gang x.access (bit lane)
        if x.access then s else s.updLaunch g.launch fun w => { w with killed := true }
  | _, _ => s

/-- Writes a register of a lane of a context; a predicate's copy in a trap frame is written too (DEDUCED, log 22). -/
def State.writeLane (s : State) (x : Site) (lane sel : Nat) (v : Word) : State :=
  let setBit (t : Assoc DWord) (n : Nat) : Assoc DWord :=
    let k := t.getD n 0#64
    t.putD n (if v.getLsbD 0 then k ||| bit lane else k &&& ~~~bit lane) 0#64
  match s.ctx? x with
  | none => s
  | some c =>
    if !c.lanes.has lane then s
    else if sel < 0x40 then s.updCtx x fun c => { c with v := c.v.put (64 * sel + lane) ⟨v, false, false⟩ }
    else if sel < 0x70 then s.updCtx x fun c => { c with s := c.s.put (sel - 0x40) ⟨v, false, false⟩ }
    else if sel < 0x78 then s.updThread x.gang lane fun t => { t with c := t.c.putD (sel - 0x70) v 0#32 }
    else s.updCtx x fun c =>
      { c with k := setBit c.k (sel - 0x90), frame := c.frame.map fun f => { f with k := setBit f.k (sel - 0x90) } }

/-! ### The match set and its action (14:R325, R331, R341 to R344) -/

/-- Whether a thread is a candidate of a hold. -/
def State.candidate (s : State) (h : Hold) (q : Query) (n : Nat) (g : Gang) (lane : Nat) (t : Thread) : Bool :=
  decide (g.launch = h.launch) &&
  (match g.core with
   | some c => h.cores.contains c
   | none => decide (q.scope = 3)) &&
  (match h.q with
   | some (qg, ql) => (decide (n ≠ qg ∨ lane ≠ ql) || q.self) && h.fams.contains t.fam
   | none => !h.flags.getLsbD 0 || decide (t.fam = h.famv)) &&
  q.terms.all (s.termTrue n g lane)

/-- The matched threads in increasing order of identity. -/
def State.matched (s : State) (h : Hold) (q : Query) : List (Nat × Nat) :=
  let all := (s.gangs.map fun e => (e.2.threads.keep fun lane t => s.candidate h q e.1 e.2 lane t).keys.map fun lane => (e.1, lane)).flatten
  sortBy (fun a b => decide ((s.idn a.1 a.2 false).toNat ≤ (s.idn b.1 b.2 false).toNat)) all

/-- The pairs of a read action. -/
def State.readPairs (s : State) (q : Query) (ms : List (Nat × Nat)) : List (DWord × DWord) :=
  (ms.map fun p => match s.gang? p.1 with
    | none => []
    | some g => q.ctxs.map fun a => (s.idn p.1 p.2 a, s.selVal p.1 g a p.2 q.sel)).flatten

/-- Applies an action to every matched context; lanes that are resumed go on together. -/
def State.applyAction (s : State) (q : Query) (ms : List (Nat × Nat)) : State :=
  let all (f : State → Site → Nat → State) (s : State) : State := ms.foldl (fun s p => q.ctxs.foldl (fun s a => f s ⟨p.1, a⟩ p.2) s) s
  let each (f : State → Site → Nat → State) : State :=
    let t := all f s
    let t := if q.action = 2 then all State.resumeCapsule t else t
    ms.foldl (fun s p =>
      let s := if (s.coreOf p.1).isNone then s.saveContext p.1 else s
      (((s.selectPath ⟨p.1, false⟩).selectPath ⟨p.1, true⟩).updGang p.1 fun g => { g with deadlock := none }).tryRetire p.1) t
  match q.action with
  | 0 => each State.stopLane
  | 1 => each State.stepLane
  | 2 => each State.resumeLane
  | 3 => each State.killLane
  | 5 => each fun s x lane => s.writeLane x lane q.sel (BitVec.ofNat 32 q.low)
  | _ => s

/-- The status word of a query. -/
def queryStatus (count : Nat) (trunc : Bool) : Word := BitVec.ofNat 32 (count % 2 ^ 20 + if trunc then 2 ^ 20 else 0)

/-! ### Accesses of the resident cores (14:R343): through the table bound to the command ring (DEDUCED, log 23), U 0 pages too -/

def MemSys.sysXlat (m : MemSys) (owner : Nat) (kind : AccKind) (va : DWord) : Except XFault Xlat × MemSys :=
  match m.owners.get? owner with
  | none => (.error ⟨3, 2, 1, 4096⟩, m)
  | some o =>
    if !canonical va then (.error ⟨3, 1, 0, 4096⟩, m)
    else
      let (r, n) := m.pageWalk 0 owner o kind true va
      (r, { n with tlb := m.tlb, ctlb := m.ctlb })

/-- Whether every page of a buffer is mapped and writable. -/
def MemSys.sysPages (m : MemSys) (owner : Nat) (va : DWord) (n : Nat) : Bool :=
  (List.range ((va.toNat % 4096 + n + 4095) / 4096)).all fun i =>
    match (m.sysXlat owner .write ((va &&& ~~~0xFFF#64) + BitVec.ofNat 64 (4096 * i))).1 with
    | .ok _ => true
    | .error _ => false

/-- A write of the resident cores at sys scope, and whether its page still translated. -/
def State.sysStore (s : State) (ring : Nat) (va : DWord) (bs : List Byte) (rel : Bool) : Bool × State :=
  match s.mem.sysXlat (s.ringOwner ring) .write va with
  | (.error _, m) => (false, s.setMem m)
  | (.ok t, m) => (true, s.setMem (m.homeWrite none Writer.resident (if rel then some 4#3 else none) false t.mt t.key t.pa bs))

/-- The result word of a command, and its interrupt; where the word can no longer be written, the command sets DROP as one that is dropped does
(14:R343, 18:R416, R417; DEDUCED, log 105). -/
def State.commandResult (s : State) (ring : Nat) (result : DWord) (tag status flags : Word) : State :=
  match s.sysStore ring result (leBytes 8 (dword status tag).toNat) true with
  | (true, s) => if flags.getLsbD 1 then s.msi 60 else s
  | (false, s) => s.ringFlag ring 2#64

/-! ### Holds (14:R333 to R336) -/

/-- Whether a hold comes first among those with which it shares a core. -/
def State.holdFirst (s : State) (id : Nat) (h : Hold) : Bool :=
  s.ctl.holds.all fun e => decide (id ≤ e.1) || !(e.2.cores.any h.cores.contains)

/-- Whether a long form keeps a hold from settling: it has yet to write a register and awaits nothing outside the core. -/
def State.unsettledOp (s : State) (id : Nat) (o : Op) : Bool :=
  decide (o.left ≠ 0#64) && decide (o.data = .home) && o.i.uses.any (fun u => decide (u.role = .dst)) &&
  (match o.i with
   | .waitv .. => !((lanesOf o.left).all fun n => s.home.monitors.vals.any fun ws => ws.any fun w => decide (w.op = id ∧ w.lane = n))
   | .ld .. => !((s.home.q.vals.filter fun r => decide (r.op = id)).all fun r => decide (r.mt ≠ 0#2))
   | _ => true)

/-- Whether every core of a hold is frozen and settled: its instant. -/
def State.holdReady (s : State) (id : Nat) (h : Hold) : Bool :=
  s.holdFirst id h &&
  (s.gangs.all fun e => match e.2.core with
    | none => true
    | some c => !h.cores.contains c || s.gangFrozen e.1) &&
  s.ops.all fun e => match s.coreOf e.2.gang with
    | none => true
    | some c => !h.cores.contains c || !s.unsettledOp e.1 e.2

/-- Core cycles of a query: by the cores that hold candidates, the resident candidates, the evicted gangs that hold some, and the pairs
written (14:R337). -/
def State.queryCycles (s : State) (h : Hold) (q : Query) (pairs : Nat) : Nat :=
  let all := s.matched h { q with terms := [] }
  let cores := (all.filterMap fun p => s.coreOf p.1)
  60 + 12 * cores.eraseDups.length + (cores.length + 255) / 256 +
    640 * ((all.map (·.1)).eraseDups.filter fun n => (s.coreOf n).isNone).length + (pairs + 7) / 8

/-- Where the results of a query of `rcq` go: the pairs to the scratchpad, the status to D. -/
def State.queryResult (s : State) (q : Query) (g op : Nat) (bytes : List Byte) (status : Word) (cycles : Nat) : State :=
  let s := match s.gang? g with
    | none => s
    | some x => if bytes.isEmpty then s
      else match s.spadRef x.group q.low with
        | none => s
        | some p => s.updGroup p.group fun r => r.spadWrite p.ofs bytes
  match s.op? op with
  | none => s
  | some o =>
    let live := (lanesOf o.lanes).filter fun n => s.laneLive ⟨o.gang, o.access⟩ n
    let s := match o.i.uses.getLast? with
      | none => s
      | some u => s.writeReg ⟨o.gang, o.access⟩ u.o 1 live live.head? fun _ => [status]
    s.updOp op fun o => { o with left := 0#64, samples := o.samples ++ [(0x42, cycles)] }

/-- The hold instant of a query: match, action, result, release. -/
def State.holdInstant (s : State) (id : Nat) (h : Hold) : State :=
  let q := Query.ofBytes h.rec_
  let ms := s.matched h q
  let pairs := if q.action = 4 then s.readPairs q ms else []
  let out := (pairs.take q.cap).map fun p => leBytes 8 p.1.toNat ++ leBytes 8 p.2.toNat
  let status := queryStatus ms.length (decide (q.action = 4) && decide (q.cap < pairs.length))
  let cycles := s.queryCycles h q out.length
  let s := (s.draw.2).applyAction q ms
  let s := s.setCtl { s.ctl with holds := s.ctl.holds.del id }
  match h.q, h.op with
  | some (g, _), some op => s.queryResult q g op out.flatten status cycles
  | _, _ =>
    let s := out.zipIdx.foldl (fun s p => (s.sysStore h.ring (h.rbuf + BitVec.ofNat 64 (16 * p.2)) p.1 false).2) s
    s.commandResult h.ring h.result h.tag status h.flags

/-! ### Commands of the run-control queue (14:R343, 18:R417) -/

/-- Registers of a kernel that no field of a record exceeds: for a command that names a launch which is not live (DEDUCED, log 49). -/
def widestKern : Kern :=
  { centry := 0#64, aentry := 0#64, tentry := 0#64, width := 64, vregs := 64, sregs := 48, avregs := 64, asregs := 48, decoupled := true
    poisonTrap := false, qdecl := [], spadb := 0, opndk := 0, acct := 0 }

/-- The cores that hold a thread of a launch. -/
def State.coresOfLaunch (s : State) (n : Nat) : List Nat :=
  (s.gangs.vals.filterMap fun g => if g.launch = n then g.core else none).eraseDups

/-- The reason for which a command entry is refused. -/
def State.commandRefused (s : State) (ring : Nat) (e : List Byte) : Option Nat :=
  let q := Query.ofBytes (e.take 64)
  let rbuf := fieldD e 0x48
  let kern := match s.launch? q.launch with | none => widestKern | some l => l.kern
  if !zeroAt e 0x5C 0x80 ∨ 3 < fieldAt e 0x54 4 ∨ q.self ∨ (q.action = 4 ∧ q.low ≠ 0) ∨ (q.action ≠ 4 ∧ rbuf ≠ 0#64) ∨ q.scope ≠ 3 then some 1
  else match { q with hdr := q.hdr % 2 ^ 48 }.refused kern with
    | some r => some r
    | none =>
      if q.action = 4 ∧ (rbuf = 0#64 ∨ rbuf.toNat % 16 ≠ 0 ∨ !s.mem.sysPages (s.ringOwner ring) rbuf (16 * q.cap)) then some 3 else none

/-- A command entry is checked, and its hold is requested. -/
def State.takeCommand (s : State) (ring : Nat) (e : List Byte) : State :=
  let result := fieldD e 0x40
  let tag := BitVec.ofNat 32 (fieldAt e 0x50 4)
  let flags := BitVec.ofNat 32 (fieldAt e 0x54 4)
  if result.toNat % 8 ≠ 0 ∨ !s.mem.sysPages (s.ringOwner ring) result 8 then s.ringFlag ring 2#64
  else match s.commandRefused ring e with
    | some r => s.commandResult ring result tag (BitVec.ofNat 32 (2 ^ 31 + r * 2 ^ 27)) flags
    | none =>
      let launch := (Query.ofBytes e).launch
      let (id, s) := s.freshId
      let h : Hold := { launch := launch, q := none, op := none, rec_ := e.take 64, result := result, rbuf := fieldD e 0x48, tag := tag
                        flags := flags, famv := BitVec.ofNat 32 (fieldAt e 0x58 4), fams := [], ring := ring, cores := s.coresOfLaunch launch }
      s.setCtl { s.ctl with holds := s.ctl.holds.put id h }

/-- The entry at the head of a command ring that can be taken. -/
def State.commandHead (s : State) (ring : Nat) : Option (List Byte) :=
  match s.launches.rings.get? ring with
  | none => none
  | some r => if r.en && r.command && decide (r.head.toNat < r.tail.toNat ∧ s.dev.stage = 4) then some (s.ringEntry r) else none

/-- What a query event does: the command at the head of a ring is taken where its ACTION is the event's (a value that is refused counts as
stop), or the hold of a query passes its instant. -/
def State.queryEvent (s : State) (src : QSrc) (action : Nat) : State :=
  let mine (q : Query) : Bool := decide ((if q.action < 6 then q.action else 0) = action)
  match src with
  | .ring n => match s.commandHead n with
    | none => s
    | some e => if mine (Query.ofBytes e) then (s.ringTaken n).takeCommand n e else s
  | .hold id => match s.ctl.holds.get? id with
    | none => s
    | some h => if mine (Query.ofBytes h.rec_) && s.holdReady id h then s.holdInstant id h else s

/-- QUERY_STOP. -/
def execQueryStop (src : QSrc) (s : State) : Host.Outcome State Fault Refusal := .next (s.queryEvent src 0)
/-- QUERY_STEP. -/
def execQueryStep (src : QSrc) (s : State) : Host.Outcome State Fault Refusal := .next (s.queryEvent src 1)
/-- QUERY_RESUME. -/
def execQueryResume (src : QSrc) (s : State) : Host.Outcome State Fault Refusal := .next (s.queryEvent src 2)
/-- QUERY_KILL. -/
def execQueryKill (src : QSrc) (s : State) : Host.Outcome State Fault Refusal := .next (s.queryEvent src 3)
/-- QUERY_READ. -/
def execQueryRead (src : QSrc) (s : State) : Host.Outcome State Fault Refusal := .next (s.queryEvent src 4)
/-- QUERY_WRITE. -/
def execQueryWrite (src : QSrc) (s : State) : Host.Outcome State Fault Refusal := .next (s.queryEvent src 5)

/-! ### The instructions (14:R344 to R347) -/

/-- The cores of a scope. -/
def State.scopeCores (s : State) (core launch scope : Nat) : List Nat :=
  match scope with
  | 0 => [core]
  | 1 => [core, partnerOf core]
  | 2 => (List.range Config.coresPerCluster).map (Config.coresPerCluster * clusterOf core + ·)
  | _ => s.coresOfLaunch launch

def execRcq (p : Pfx) (l : Lf) (d : Opnd) (a : Hs) (s : State) :=
  run (.rcq p l d a) s fun e s =>
    match e.nib with
    | none => .done s
    | some n =>
      let a := (e.word 0 n).toNat
      if a % 64 ≠ 0 then .raise s (e.matTrap 5 1 (kindX .read 6) a)
      else match e.readBlock s a 64 true with
        | .raise t => .raise s t
        | .park ls => .hold (e.parkOn s ls)
        | .hold => .hold s
        | .ok r =>
          let q := Query.ofBytes r
          match q.refused e.l.kern with
          | some k => .raise s (e.matTrap 12 k 0#17 a)
          | none =>
            let request (s : State) : Res :=
              let fams := match e.g.threads.get? n with | none => [] | some t => [t.inh, t.fam]
              let cores := s.scopeCores e.core e.g.launch q.scope
              let (id, s) := e.issueOp (e.settle s e.act true) e.act e.act .wait
              let (k, s) := s.freshId
              let h : Hold := { launch := e.g.launch, q := some (e.x.gang, n), op := some id, rec_ := r, result := 0#64, rbuf := 0#64, tag := 0#32
                                flags := 0#32, famv := 0#32, fams := fams, ring := 0, cores := cores }
              .done (s.setCtl { s.ctl with holds := s.ctl.holds.put k h })
            if q.action ≠ 4 then request s
            else if q.low % 16 ≠ 0 then .raise s (e.matTrap 5 1 (kindX .write 4) q.low)
            else match e.spadAll s .write ((List.range (16 * q.cap)).map (q.low + ·)) with
              | .error t => .raise s t
              | .ok refs =>
                let absent := s.absentAll refs
                if absent ≠ [] then .hold (e.parkOn s absent)
                else if s.heldAll refs none then .hold s
                else request s

/-- The value of `rcrd` in a lane. -/
def Env.rcrdLane (e : Env) (s : State) (sel : Nat) (acc : Bool) (lane : Nat) : DWord :=
  let a := e.pair 0 lane &&& ~~~0x7FF#64
  match s.threadOf a, e.g.threads.get? lane with
  | some (g, k), some q => match s.gang? g, s.thread? g k with
    | some x, some t =>
      if x.launch ≠ e.g.launch ∨ (t.fam ≠ q.inh ∧ t.fam ≠ q.fam) then BitVec.allOnes 64
      else if sel = 2 then t.fam.setWidth 64
      else if sel = 1 then s.selVal g x acc k 0x81
      else s.selVal g x acc k 0x80
    | _, _ => BitVec.allOnes 64
  | _, _ => BitVec.allOnes 64

def execRcrd (p : Pfx) (l : Lf) (sel : BitVec 3) (acc : Bool) (d : Opnd) (a : Hs) (s : State) :=
  run (.rcrd p l sel acc d a) s fun e s => e.longWrite s.draw.2 fun lane => dwords (e.rcrdLane s sel.toNat acc lane)

/-- The family word that `famset` issues (14:R324). -/
def derive (idn : DWord) : Word :=
  0x80000000#32 ||| ((idn.extractLsb' 22 20).setWidth 32 <<< 11) ||| (idn.extractLsb' 11 11).setWidth 32

def execFamset (p : Pfx) (l : Lf) (d : Opnd) (s : State) :=
  run (.famset p l d) s fun e s =>
    if (s.opsOf e.x).vals.any fun o => (match o.i with | .spawn .. | .tokput .. => true | _ => false) then .hold s
    else
      let f (lane : Nat) : Word := derive (s.idnSeen e.x lane)
      let s := e.lanes.foldl (fun s k => s.updThread e.x.gang k fun t => { t with fam := f k }) s
      e.longWrite s fun k => [f k]

end Sys2Proof.Machine
end

