-- ==== Sys2Proof/Machine/Ticks.lean ====
section
/-! DEFINITION. Events of time: reference ticks, ageing, spin demotion, queue deadlock, and events that wait for room (01:R25, R30, R31,
12:R288, 16:R383, R401, 17:R403, R404). -/

namespace Sys2Proof.Machine

/-! ### Queue deadlock (12:R288) -/

/-- Whether every live lane of both contexts of a gang is in queue-wait and no queue holds a pending entry. -/
def State.deadlocked (s : State) (n : Nat) : Bool :=
  match s.gang? n with
  | none => false
  | some g => match g.actx with
    | none => false
    | some a =>
      let lanes := g.cctx.lanes.vals ++ a.lanes.vals
      !lanes.isEmpty && lanes.all (fun l => decide (l.ws = .queueWait)) &&
      g.queues.vals.all fun q => q.ents.vals.all fun es => es.all fun e => (match e with | .pend .. => false | _ => true)

/-- Keeps the tick since which a gang is in queue deadlock. -/
def State.noteDeadlock (s : State) (n : Nat) : State :=
  let now := s.tick (s.clusterOfGang n)
  let d := s.deadlocked n
  s.updGang n fun g => { g with deadlock := if d then some (g.deadlock.getD (now, false)) else none }

/-- Whether the event of a gang's queue deadlock is due: it has lasted the limit, and no event of it has been posted (16:R401). -/
def State.deadlockDue (s : State) (n : Nat) : Bool :=
  match s.gang? n with
  | none => false
  | some g => match g.deadlock with
    | some (t, false) => s.deadlocked n && decide (t + s.setting 0x0010 ≤ s.tick (s.clusterOfGang n))
    | _ => false

/-- Posts the event of a gang's queue deadlock. -/
def State.postDeadlock (s : State) (n : Nat) : State :=
  (s.writeEvent ⟨1, 0#32, s.idn n 0 false, 0#64, maskOf (((s.gang? n).map (·.threads.keys)).getD [])⟩).updGang n fun g =>
    { g with deadlock := g.deadlock.map fun d => (d.1, true) }

/-- QUEUE_DEADLOCK_LIMIT: a deadlock that has lasted the limit posts one event. While the ring is full the event stays pending with its gang, and
a deadlock that ends first posts nothing (16:R401). -/
def execQueueDeadlockLimit (gang : Nat) (s : State) : Host.Outcome State Fault Refusal :=
  .next (if s.deadlockDue gang ∧ s.eventRoom then s.postDeadlock gang else s)

/-! ### Ageing and spinning (01:R30, R31, R449) -/

/-- The ready gangs at the pipe of a context: its quadrant, or the ready access contexts of its core. -/
def State.pipeReady (s : State) (g : Gang) (access : Bool) : Nat :=
  (s.gangs.filter fun e => decide (e.2.core = g.core) && (access || decide (e.2.quad = g.quad)) && s.readyAt ⟨e.1, access⟩ e.2).length

/-- GANG_AGEING. -/
def execGangAgeing (gang : Nat) (access : Bool) (s : State) : Host.Outcome State Fault Refusal :=
  match s.gang? gang, s.ctx? ⟨gang, access⟩ with
  | some g, some c =>
    let limit := if Env.spinning g then 64 else 12 * s.pipeReady g access
    if !s.readyAt ⟨gang, access⟩ g ∨ c.aged ∨ c.since < limit then .next s
    else .next (s.updCtx ⟨gang, access⟩ fun c => { c with aged := true })
  | _, _ => .next s

/-- SPIN_DEMOTION. -/
def execSpinDemotion (gang : Nat) (s : State) : Host.Outcome State Fault Refusal :=
  match s.gang? gang with
  | none => .next s
  | some g => match g.spin with
    | none => .next s
    | some p =>
      if p.same < 8 ∨ p.spinning ∨ g.holder?.isSome then .next s
      else .next ((s.updGang gang fun g => { g with spin := some { p with spinning := true } }).pmEvent gang false 0x07 1)

/-! ### Reference ticks (17:R403) -/

/-- Whether the access context of a gang waits at a `ca` queue, at a port or at a head that it inspects (12:R286, R293, R296). -/
def State.waitsOnCa (s : State) (n : Nat) : Bool :=
  match s.gang? n with
  | none => false
  | some g => match g.actx, g.core, s.launch? g.launch with
    | some a, some core, some l =>
      decide (a.path ≠ 0#64) && a.lanes.any (fun e => a.path.getLsbD e.1 && decide (e.2.ws = .queueWait)) &&
      (match a.cur with
       | none => false
       | some cur => match (s.fetchInstr ⟨n, true⟩ core l.owner cur.ip).1 with
         | .ok _ (.fate (.instr i _) _ _ _) => (match env? i (s.setCur (some ⟨n, true⟩)) with
           | none => false
           | some e =>
             let head := match e.i with | .qpeek _ _ q _ | .qtokTest _ _ q _ | .qtokTake _ _ q _ => [(q, e.heads q)] | _ => []
             (e.ports ++ head).any fun p => !Env.settled p.2 && (match g.queues.get? p.1.toNat with | none => false | some q => q.ca))
         | _ => false)
    | _, _, _ => false

/-- Core cycles of one reference tick: one or two, as the oscillator of the cluster runs at 1.1 to 1.9 GHz (18:R427); which is free
(DESIGN CHOICE, log 51). -/
def State.tickCycles (s : State) : Nat × State :=
  let (k, s) := s.draw
  (1 + (Config.freeWord k).toNat % 2, s)

/-- Contexts of a cluster whose back-off ends at the counter's value, in increasing slot, compute before access. -/
def State.backoffsDue (s : State) (cluster : Nat) : List Happening :=
  let now := s.tick cluster
  let mine := s.gangs.filter fun e => (match e.2.core with | none => false | some c => decide (clusterOf c = cluster))
  let sorted := sortBy (fun (a b : Nat × Gang) => decide (a.2.core.getD 0 * 64 + a.2.slot ≤ b.2.core.getD 0 * 64 + b.2.slot)) mine
  (sorted.map fun e => [false, true].filterMap fun a => match e.2.ctx? a with
    | none => none
    | some c => match c.retryAt with
      | some t => if t ≤ now then some (.event (.permitBackoffExpiry e.1 a)) else none
      | none => none).flatten

/-- What a tick of a cluster counts in its groups (17:R404). -/
def State.tickCounts (s : State) (cluster cycles : Nat) : State :=
  let gs := (s.gangs.keep fun _ g => match g.core with | none => false | some c => decide (clusterOf c = cluster)).keys
  let s := s.setGroups (s.groups.mapVal fun _ r => match r.core with
    | none => r
    | some c => if clusterOf c = cluster then (r.event 0x01 cycles none).event 0x02 1 none else r)
  gs.foldl (fun s n => if s.waitsOnCa n then s.pmEvent n true 0x09 cycles else s) s

/-- REFERENCE_TICK: the counter of a cluster, or of the I/O die (24), advances by one; what lasts a number of ticks is noted; energy
accumulators and ends of back-offs that fall due come next. -/
def execReferenceTick (cluster : Nat) (s : State) : Host.Outcome State Fault Refusal :=
  if Config.clusters < cluster then .next s
  else if cluster = Config.clusters then
    let n := s.dev.ioTick + 1
    let s := s.setDev { s.dev with ioTick := n }
    .next (if n % 1024 = 0 then s.setAgenda (.event .deviceEnergyAdvance :: s.agenda) else s)
  else
    let n := s.tick cluster + 1
    let s := s.setDev { s.dev with ticks := s.dev.ticks.put cluster n }
    let (cycles, s) := s.tickCycles
    let s := s.tickCounts cluster cycles
    let mine := (s.gangs.keys).filter fun k => decide (s.clusterOfGang k = cluster)
    let s := mine.foldl (fun s k => (if (s.coreOf k).isSome then s.noteEvictable k else s).noteDeadlock k) s
    let due := s.backoffsDue cluster
    let energy : List Happening := if n % 256 = 0 then [.event (.clusterEnergyAdvance cluster)] else []
    .next (s.setAgenda (due ++ energy ++ s.agenda))

/-! ### Events and delegations that wait for room (16:R389, R401) -/

/-- The first context whose trap waits for room in the delegation queue. -/
def State.delegWaiter (s : State) : Option Site :=
  let waits (c : Ctx) (a : Bool) : Bool := match c.pend with
    | none => false
    | some t => decide (c.tcg ≠ 0#32 ∨ t.cause = 2) || a
  ((s.gangs.map fun e => [false, true].filterMap fun a => match e.2.ctx? a with
    | none => none
    | some c => if waits c a && s.quiet ⟨e.1, a⟩ then some (⟨e.1, a⟩ : Site) else none).flatten).head?

/-- The first dune whose ring fault waits for room in the delegation queue (13:R304). -/
def State.ringWaiter (s : State) : Option (Nat × Nat × TrapRec) :=
  ((s.launches.tab.map fun e => e.2.dunes.filterMap fun u => match u.2.ringFault with
    | none => none
    | some t => if (s.ringDelegs e.1 u.1).isEmpty then some (e.1, u.1, t) else none).flatten).head?

/-- PENDING_EVENT_POST: the oldest pending event, the event of a queue deadlock, or a delegation that waits, is posted once its ring has room. -/
def execPendingEventPost (s : State) : Host.Outcome State Fault Refusal :=
  .next (match s.ctl.pending, s.ctl.ering.any s.mem.ringRoom, s.gangs.keys.find? s.deadlockDue with
  | e :: rest, true, _ => (s.setCtl { s.ctl with pending := rest }).writeEvent e
  | [], true, some g => s.postDeadlock g
  | _, _, _ =>
    if !s.delegRoom then s
    else match s.delegWaiter, s.ringWaiter with
      | some x, _ => s.tryEnter x
      | none, some (l, d, t) => (s.updDune l d fun u => { u with ringFault := none }).ringFails l d t
      | none, none => s)

end Sys2Proof.Machine
end

