-- ==== Sys2Proof/Machine/Schedule.lean ====
section
/-! DEFINITION. The happening that comes next where the agenda names none, and the state in which a given instruction is the next to execute. -/

namespace Sys2Proof.Machine

/-! ### What can happen next -/

/-- Events of traps, strokes, waits and steps of one context. -/
def siteEvents (x : Site) : List Instr :=
  [.trapEntry x.gang x.access, .directDelegation x.gang x.access, .doubleTrap x.gang x.access, .permitBackoffExpiry x.gang x.access,
   .strokeCommit x.gang, .absentLineWake x.gang x.access, .accessContextEnd x.gang, .deferredStepClause x.gang x.access,
   .gangAgeing x.gang x.access, .queueDeadlockLimit x.gang]

/-- Events of long forms, requests, buffers and the matrix and copy engines. -/
def State.memoryEvents (s : State) : List Instr :=
  (s.home.q.keys.map fun k => [.homeSliceAct k, .promotion k]).flatten ++
  (s.gangs.vals.map fun g => (g.queues.vals.map fun q => (q.ents.vals.map fun es =>
    es.filterMap fun e => match e with | .pend k .. => some (.queueLoadFill k) | _ => none).flatten).flatten).flatten ++
  s.discarded.map (.queueLoadFill ·.1) ++
  s.mem.wbuf.keys.map .writeBufferDrain ++ s.mem.hostWr.keys.map .hostWriteAcknowledgement ++
  (List.range Config.clusters).map .currentReservationGrant ++
  (s.ops.keys.map fun k => [.copyLineLands k, .matrixOpComplete k, .longFormComplete k (Config.freeWord s.draws).toNat]).flatten

/-- Events of groups, holds, rings and launches. -/
def State.launchEvents (s : State) : List Instr :=
  (s.groups.map fun e => e.2.filling.map (.allotmentFill e.1)).flatten ++
  ((s.ctl.holds.keys.map QSrc.hold ++ s.launches.rings.keys.map QSrc.ring).map fun q =>
    [.queryStop q, .queryStep q, .queryResume q, .queryKill q, .queryRead q, .queryWrite q]).flatten ++
  s.launches.rings.keys.map .launchRecordTake ++
  (s.launches.tab.map fun e =>
    (if e.2.ended.isSome then [.launchEndEarly e.1 0] else []) ++ e.2.roots.keys.map (.rootDuneEnqueue e.1) ++
    e.2.dunes.keys.map (.ringItemMove e.1) ++ (if s.finalDue e.1 e.2 then [.finalDrain e.1] else []) ++
    [.launchCompletion e.1]).flatten ++
  [.pendingEventPost]

/-- Firings of a cluster: one that is possible, or one for which a gang may be evicted. -/
def State.firingEvents (s : State) (cluster : Nat) : List Instr :=
  (match s.firing? cluster with | none => [] | some i => [i]) ++
  (match (s.ranking cluster).head? with
   | none => []
   | some r =>
     let core := Config.coresPerCluster * cluster
     if (s.victims cluster r.cls).isEmpty then []
     else [if r.dune = 1024 then .rootDuneFiring r.launch cluster core else .duneFiring cluster core])

/-- Restores of evicted gangs, on the cores of their cluster. -/
def State.restoreEvents (s : State) : List Instr :=
  (s.gangs.map fun e => if e.2.core.isSome ∨ !s.restorable e.1 then []
    else (coresOf (s.clusterOfGang e.1)).map (.gangRestore e.1)).flatten

/-! ### Issue (01:R29, R449) -/

/-- The rank of a context at its pipe: aged, longest wait first; holders of a capsule; the others by class; spinning gangs. Within a level, the
slot after the one that is last there comes first. -/
def State.issueRank (s : State) (pipe : Nat) (g : Gang) (access : Bool) : Nat :=
  let c := (g.ctx? access).getD g.cctx
  let level := if c.aged then 0 else g.level access
  let last := match (s.cores.last.get? (8 * pipe + level)).bind s.gang? with | none => 63 | some q => q.slot
  let wait := if c.aged then 2 ^ 30 - min c.since (2 ^ 30) else 2 ^ 30
  64 * (2 ^ 31 * level + wait) + (g.slot + 63 - last) % 64

/-- The issues that a pipe of a core may make, first to choose first. -/
def State.pipeIssues (s : State) (core quad : Nat) (access : Bool) : List Happening :=
  let pipe := pipeOf core quad access
  let mine := s.gangs.filter fun e => decide (e.2.core = some core) && (access || decide (e.2.quad = quad)) && (e.2.ctx? access).isSome
  (sortBy (fun a b => decide (s.issueRank pipe a.2 access ≤ s.issueRank pipe b.2 access)) mine).map fun e => .issue e.1 access

/-- The issues of all pipes; which pipe comes first turns with the steps. -/
def State.issues (s : State) : List Happening :=
  let cores := (s.gangs.vals.filterMap (·.core)).eraseDups
  let pipes := (cores.map fun c => (List.range 5).map fun q => (c, q)).flatten
  let n := s.turn % (pipes.length + 1)
  ((pipes.drop n ++ pipes.take n).map fun p => s.pipeIssues p.1 p.2 (decide (p.2 = 4))).flatten

/-- What the model's scheduler may take, in its order of preference (DESIGN CHOICE, log 71). -/
def State.candidates (s : State) : List Happening :=
  ((s.sitesOf.map siteEvents).flatten ++ s.memoryEvents ++ s.launchEvents ++ ((List.range Config.clusters).map s.firingEvents).flatten ++
    s.restoreEvents).map .event ++ s.issues

/-- The happening that the model's scheduler takes (DESIGN CHOICE, log 14): every 32nd turn a reference tick, of each cluster and the I/O die in turn; else
the first candidate that has an effect; else a tick. -/
def State.nextHappening (s : State) (effective : Happening → Bool) : Happening :=
  let tick : Happening := .event (.referenceTick (s.turn / 32 % 25))
  if s.turn % 32 = 31 then tick else (s.candidates.find? effective).getD (.event (.referenceTick (s.turn % 25)))

/-! ### The placed instruction -/

/-- The key of the launch, group and gang that a placed instruction uses. -/
def placedKey (s : State) : Nat := s.nextId

/-- A kernel of width 16 with every register and the limits of an undecoupled kernel (01:R17). -/
def placedKern : Kern :=
  { centry := 0x100000#64, aentry := 0#64, tentry := 0x100100#64, width := 16, vregs := 64, sregs := 48, avregs := 0, asregs := 0,
    decoupled := false, poisonTrap := false, qdecl := [], spadb := 4096, opndk := 16, acct := 1 }

/-- A launch of one gang of that kernel. -/
def placedLaunch : Launch :=
  { kern := placedKern, teams := 1, gpt := 1, gangs := 1, ptw := 0x410208#24, ordered := false, irq := false, ivec := 0, prio := 0,
    seed := 0#64, done := 0#64, params := [], ring := 0, owner := 0, seq := 0, roots := [], dunes := [], nextTeam := 1, retired := 0,
    exitCause := none, killed := false, ended := none, pairBars := [], finalDrain := [] }

/-- The header of the placed clause: MIX, one instruction. -/
def placedHeader : Header :=
  { cap := false, yld := false, wfence := false, wqf := false, wqe := false, wsb := 0#4, access := false, cls := .mix, count := 1 }

/-- A state with the bytes of an instruction in the instruction cache of core 0 at virtual address 0x10_0004, a gang of width
16 whose running path stands at them inside a clause of one instruction, and its issue next. -/
def State.placeWord (s : State) (bytes : List Byte) : State :=
  let id := s.nextId
  let lanes := List.range 16
  let cur : Cursor := { hdr := placedHeader, at_ := 0x100000#64, idx := 0, ip := 0x100004#64, serial := 1, done := 0#64 }
  let c := { Ctx.fresh lanes 0x100004#64 with path := widthMask 16, cur := some cur, serial := 1 }
  let g : Gang := { group := id, launch := 0, num := 0, width := 16, core := some 0, quad := 0, slot := 0, dune := none, prio := 0,
                    threads := lanes.map fun n => (n, Thread.fresh 0#32 (linRoot 0 0 0 n) .no), cctx := c, actx := none, queues := [],
                    savep := 0#64, evictable := none, deadlock := none, spin := none }
  let r : Group := { launch := 0, team := 0, grp := 0, core := some 0, barCore := 0, cluster := 0, spad := [], absent := [], filling := [],
                     spadPoison := [], opnd := [], opndPoison := [], acc := [], accPoison := [], tstat := [], bars := [], pm := [],
                     energy := 0#64, savedRecs := [], savedAt := 0 }
  let e : TlbEnt := { owner := 0, va := 0, size := 2 ^ 30, pa := 0, mt := 0#2, key := 1#10, x := true, w := true, u := true,
                      sh := false, d := true }
  let line := [0#8, 0#8, 0#8, 0#8] ++ bytes ++ List.replicate (124 - bytes.length) 0#8
  let s := s.setNextId (id + 1)
  let s := s.setMem { s.mem with tlb := s.mem.tlb.put 0 (e :: s.mem.tlb.getD 0 [])
                                 icache := s.mem.icache.put (0x100000 / 128) line }
  let s := s.setLaunches { s.launches with tab := s.launches.tab.put 0 placedLaunch }
  let s := (s.setGroups (s.groups.put id r)).setGangs (s.gangs.put id g)
  s.setAgenda [.issue id false]

end Sys2Proof.Machine
end

