-- ==== Sys2Proof/Machine/Special.lean ====
section
/-! DEFINITION. Special functions (06:R135 to R137). `rcp` and `sqrt` are correctly rounded. Of the other six the spec gives
bounds, special values, exact cases and symmetries only: the result is a free value within the bounds (DESIGN CHOICE, log 17). The exact
value is computed in fixed point far beyond FP32. -/

namespace Sys2Proof.Machine

/-- Fraction bits of the fixed-point values below. -/
def fixBits : Nat := 320
/-- One. -/
def fixOne : Int := 2 ^ fixBits
/-- A product of fixed-point values. -/
def fixMul (a b : Int) : Int := a * b / fixOne
/-- A quotient of fixed-point values. -/
def fixDiv (a b : Int) : Int := a * fixOne / b

/-- The sum of `n` terms, each the one before times `x` over the divisor that `d` gives for its position. -/
def taylor (x : Int) (d : Nat → Int) : Nat → Nat → Int → Int
  | 0, _, _ => 0
  | n + 1, k, t => t + taylor x d n (k + 1) (t * x / fixOne / d k)

/-- e^x − 1 for |x| ≤ 32. -/
def expm1Fix (x : Int) : Int := taylor x (fun k => (k + 1 : Nat)) 200 1 x
/-- ln 2 = Σ 1 / (k · 2^k). -/
def ln2Fix : Int := ((List.range 330).map fun k => fixOne / (((k + 1) * 2 ^ (k + 1) : Nat) : Int)).sum
/-- The arc tangent of 1/n. -/
def atanInv (n : Nat) : Int :=
  ((List.range 150).map fun k =>
    let t := fixOne / (((2 * k + 1) * n ^ (2 * k + 1) : Nat) : Int)
    if k % 2 = 0 then t else -t).sum
/-- π, by Machin's formula. -/
def piFix : Int := 16 * atanInv 5 - 4 * atanInv 239

/-- sin and cos of an angle of at most π. -/
def sinFix (x : Int) : Int := taylor (-(fixMul x x)) (fun k => ((2 * k) * (2 * k + 1) : Nat)) 60 1 x
def cosFix (x : Int) : Int := taylor (-(fixMul x x)) (fun k => ((2 * k - 1) * (2 * k) : Nat)) 60 1 fixOne
/-- An angle reduced to [−π, π]. -/
def reduceAngle (x : Int) : Int := (x + piFix) % (2 * piFix) - piFix

/-- log₂ of a value in [1, 2), by repeated squaring: `n` bits. -/
def log2Bits : Nat → Int → Int
  | 0, _ => 0
  | n + 1, y =>
    let z := fixMul y y
    if 2 * fixOne ≤ z then 2 ^ n + log2Bits n (z / 2) else log2Bits n z

/-- A magnitude `m · 2^e` in fixed point. -/
def fixOf (m : Nat) (e : Int) : Int :=
  if 0 ≤ e + fixBits then ((m * 2 ^ (e + fixBits).toNat : Nat) : Int) else ((m / 2 ^ (-(e + fixBits)).toNat : Nat) : Int)

/-- 2^x for −150 < x < 128. -/
def exp2Fix (x : Int) : Int :=
  let n := x / fixOne
  let y := fixOne + expm1Fix (fixMul (x - n * fixOne) ln2Fix)
  if 0 ≤ n then y * 2 ^ n.toNat else y / 2 ^ (-n).toNat

/-- log₂ of `m · 2^e`. -/
def log2Fix (m : Nat) (e : Int) : Int :=
  let l := Nat.log2 m
  (e + l) * fixOne + log2Bits 160 (fixOf m (-(l : Int))) * 2 ^ (fixBits - 160)

/-- 1/√(m · 2^e). -/
def rsqFix (m : Nat) (e : Int) : Int :=
  let h : Nat := (((2 * fixBits : Nat) : Int) - e).toNat
  ((isqrt (2 ^ h / m) 400 0 : Nat) : Int)

/-- tanh of a magnitude below 16; above, 1 at this precision of FP32. -/
def tanhFix (x : Int) : Int :=
  if 16 * fixOne ≤ x then fixOne - 1 else (let y := expm1Fix (2 * x); fixDiv y (y + 2 * fixOne))

/-! ### FP32 values in their order -/

/-- The position of an FP32 value among all: 0 for both zeros. -/
def ordOf (p : Nat) : Int := if 2 ^ 31 ≤ p then -((p - 2 ^ 31 : Nat) : Int) else p
/-- The pattern of a position; +0 for 0. -/
def ofOrd (x : Int) : Nat := if x < 0 then 2 ^ 31 + x.natAbs else x.toNat

/-- A fixed-point value rounded to FP32 in a mode. -/
def fixRound (m : Rm) (y : Int) : Int := ordOf (Fmt.f32.round m false (decide (y < 0)) y.natAbs (-(fixBits : Int))).1

/-- ulp(y) in fixed point (06:R135). -/
def ulpFix (y : Int) : Int :=
  if y = 0 then fixOf 1 (-149) else fixOf 1 (max ((Nat.log2 y.natAbs : Int) - fixBits) (-126) - 23)

/-- A result within `b` of `y`, chosen by the free value of a function and a pattern. -/
def within (fn : Nat) (p : Word) (y b : Int) : Int :=
  let lo := fixRound .rup (y - b)
  let hi := fixRound .rdn (y + b)
  if hi < lo then fixRound .rne y else lo + ((Config.specialFn fn p : Nat) : Int) % (hi - lo + 1)

/-- Positions of −1 and 1. -/
def clampOne (x : Int) : Int := max (-(0x3F800000)) (min 0x3F800000 x)

/-- The sign bit of a zero result, which 06:R135 leaves open: a free value of the function and the pattern (DESIGN CHOICE, log 17). -/
def zeroSign (fn : Nat) (p : Word) (x : Int) : Nat := if x = 0 ∧ Config.specialFn (16 + fn) p % 2 = 1 then 2 ^ 31 else 0

/-- An inexact result: NX, with UF where it is tiny (06:R137). -/
def inexactOf (fn : Nat) (p : Word) (x : Int) : Nat × Word :=
  (ofOrd x + zeroSign fn p x, if x.natAbs < 0x00800000 then fUF ||| fNX else fNX)

/-- The result with its sign changed. -/
def negPat (r : Nat × Word) : Nat × Word := ((r.1 + 2 ^ 31) % 2 ^ 32, r.2)

/-- Special values of FP32. -/
def fp1 : Nat := 0x3F800000
def fpInf : Nat := 0x7F800000
def fpNan : Nat := 0x7FC00000
def fpNeg : Nat := 0x80000000

/-- `rcp` (06:R135 to R137): rounded in the mode, so that under rup and rdn an inexact rcp(-x) is not -rcp(x) (DEDUCED, log 93). -/
def rcpFn (m : Rm) (x : Ext) : Nat × Word :=
  match x with
  | .nan s => (fpNan, if s then fNV else 0#32)
  | .inf n => (if n then fpNeg else 0, 0#32)
  | .fin n 0 _ => (fpInf + (if n then fpNeg else 0), fDZ)
  | .fin n k e =>
    let q := sticky 1 k
    Fmt.f32.round m false n q.1 (q.2 - e)

/-- `sqrt`. -/
def sqrtFn (m : Rm) (x : Ext) : Nat × Word :=
  match x with
  | .nan s => (fpNan, if s then fNV else 0#32)
  | .inf n => if n then (fpNan, fNV) else (fpInf, 0#32)
  | .fin n 0 _ => (if n then fpNeg else 0, 0#32)
  | .fin true _ _ => (fpNan, fNV)
  | .fin false k e =>
    let h : Nat := if e % 2 = 0 then 64 else 65
    let y := k * 2 ^ h
    let r := isqrt y 50 0
    Fmt.f32.round m false false (2 * r + if r * r = y then 0 else 1) ((e - (h : Int)) / 2 - 1)

/-- Whether a value is 2^n, and n. -/
def powerOf (k : Nat) (e : Int) : Option Int := if k = 2 ^ Nat.log2 k then some (Nat.log2 k + e) else none

/-- `rsq`. -/
def rsqFn (p : Word) : Nat × Word :=
  match Fmt.f32.decode p.toNat with
  | .nan s => (fpNan, if s then fNV else 0#32)
  | .inf n => if n then (fpNan, fNV) else (0, 0#32)
  | .fin n 0 _ => (fpInf + (if n then fpNeg else 0), fDZ)
  | .fin true _ _ => (fpNan, fNV)
  | .fin false k e =>
    match powerOf k e with
    | some t => if t % 2 = 0 then Fmt.f32.round .rne false false 1 (-(t / 2))
      else (let y := rsqFix k e; inexactOf 1 p (within 1 p y (ulpFix y)))
    | none => let y := rsqFix k e; inexactOf 1 p (within 1 p y (ulpFix y))

/-- `exp2`. -/
def exp2Fn (p : Word) : Nat × Word :=
  match Fmt.f32.decode p.toNat with
  | .nan s => (fpNan, if s then fNV else 0#32)
  | .inf n => (if n then 0 else fpInf, 0#32)
  | .fin _ 0 _ => (fp1, 0#32)
  | .fin n k e =>
    let (m, _, _) := toQuantum k e 0
    let x := if n then -(fixOf k e) else fixOf k e
    if n ∧ (149 * fixOne < -x) then ((Config.specialFn 3 p) % 2, fUF ||| fNX)
    else if !n ∧ 128 * fixOne ≤ x then (fpInf, fOF ||| fNX)
    else if x % fixOne = 0 then Fmt.f32.round .rne false false 1 (if n then -(m : Int) else m)
    else
      let y := exp2Fix x
      inexactOf 3 p (within 3 p y (2 * ulpFix y))

/-- `log2`. -/
def log2Fn (p : Word) : Nat × Word :=
  match Fmt.f32.decode p.toNat with
  | .nan s => (fpNan, if s then fNV else 0#32)
  | .inf n => if n then (fpNan, fNV) else (fpInf, 0#32)
  | .fin _ 0 _ => (fpInf + fpNeg, fDZ)
  | .fin true _ _ => (fpNan, fNV)
  | .fin false k e =>
    match powerOf k e with
    | some t => Fmt.f32.round .rne false (decide (t < 0)) t.natAbs 0
    | none => let y := log2Fix k e; inexactOf 4 p (within 4 p y (max (2 * ulpFix y) (fixOf 1 (-22))))

/-- `sin` and `cos` of a magnitude: absolute error 2^−21 up to 2^14, and any value of [−1, 1] above. -/
def trigFn (fn : Nat) (p : Word) (f : Int → Int) (k : Nat) (e : Int) : Nat × Word :=
  let x := fixOf k e
  if fixOf 1 14 < x then inexactOf fn p (-(fp1 : Int) + ((Config.specialFn fn p : Nat) : Int) % (2 * fp1 + 1))
  else inexactOf fn p (within fn p (f (reduceAngle x)) (fixOf 1 (-21)))

/-- `sin`: odd bit for bit. -/
def sinFn (p : Word) : Nat × Word :=
  match Fmt.f32.decode p.toNat with
  | .nan s => (fpNan, if s then fNV else 0#32)
  | .inf _ => (fpNan, fNV)
  | .fin n 0 _ => (if n then fpNeg else 0, 0#32)
  | .fin n k e =>
    let r := trigFn 5 (p &&& 0x7FFFFFFF#32) sinFix k e
    if n then negPat r else r

/-- `cos`: even bit for bit. -/
def cosFn (p : Word) : Nat × Word :=
  match Fmt.f32.decode p.toNat with
  | .nan s => (fpNan, if s then fNV else 0#32)
  | .inf _ => (fpNan, fNV)
  | .fin _ 0 _ => (fp1, 0#32)
  | .fin _ k e => trigFn 6 (p &&& 0x7FFFFFFF#32) cosFix k e

/-- `tanh`: odd bit for bit, within [−1, 1]. -/
def tanhFn (p : Word) : Nat × Word :=
  match Fmt.f32.decode p.toNat with
  | .nan s => (fpNan, if s then fNV else 0#32)
  | .inf n => (fp1 + (if n then fpNeg else 0), 0#32)
  | .fin n 0 _ => (if n then fpNeg else 0, 0#32)
  | .fin n k e =>
    let q := p &&& 0x7FFFFFFF#32
    let y := tanhFix (fixOf k e)
    let r := inexactOf 7 q (clampOne (within 7 q y (2 * ulpFix y)))
    if n then negPat r else r

/-- A special function in every active lane. -/
def Env.special (e : Env) (s : State) (f : Word → Nat × Word) : Res :=
  e.alu s fun n => let r := f (e.word 0 n); ([BitVec.ofNat 32 r.1], r.2)

def execRcp (p : Pfx) (d : Opnd) (a : S1) (s : State) :=
  run (.rcp p d a) s fun e s => e.special s fun w => rcpFn (e.mode .rne) (Fmt.f32.decode w.toNat)
def execRsq (p : Pfx) (d : Opnd) (a : S1) (s : State) := run (.rsq p d a) s fun e s => e.special s rsqFn
def execSqrt (p : Pfx) (d : Opnd) (a : S1) (s : State) :=
  run (.sqrt p d a) s fun e s => e.special s fun w => sqrtFn (e.mode .rne) (Fmt.f32.decode w.toNat)
def execExp2 (p : Pfx) (d : Opnd) (a : S1) (s : State) := run (.exp2 p d a) s fun e s => e.special s exp2Fn
def execLog2 (p : Pfx) (d : Opnd) (a : S1) (s : State) := run (.log2 p d a) s fun e s => e.special s log2Fn
def execSin (p : Pfx) (d : Opnd) (a : S1) (s : State) := run (.sin p d a) s fun e s => e.special s sinFn
def execCos (p : Pfx) (d : Opnd) (a : S1) (s : State) := run (.cos p d a) s fun e s => e.special s cosFn
def execTanh (p : Pfx) (d : Opnd) (a : S1) (s : State) := run (.tanh p d a) s fun e s => e.special s tanhFn

end Sys2Proof.Machine
end

