-- ==== Sys2Proof/Machine/Traps.lean ====
section
/-! DEFINITION. Traps as instructions and events: `trap`, `tret`, `tdel`, `sysrd`, `syswr`, `brk`; trap entry, back-off, direct delegation,
double traps, and the resolution of delegations (16:R383 to R390, R398, R399, 03:R73 to R77). -/

namespace Sys2Proof.Machine

/-! ### The trap instruction (16:R387) -/

/-- A trap of `trap`: it returns after the instruction; a back-off executes the instruction again. -/
def Env.afterTrap (e : Env) (t : TrapRec) : TrapRec :=
  { t with again := some e.cur, ret := e.next, cur := if e.last then none else some { e.cur with idx := e.cur.idx + 1, ip := e.next, done := 0#64 } }

/-- Raises a trap of `trap`; its operand is read where the trap is taken, and again after a back-off where none is. -/
def Env.trapNow (e : Env) (s : State) (t : TrapRec) : Res :=
  .raise (if e.c.tcg = 0#32 ∧ s.noPermit e.x e.core then s else e.settle s e.act true) (e.afterTrap t)

/-- `trap.soft`: the operands are settled before it raises (DEDUCED, log 47). -/
def execTrapSoft (p : Pfx) (l : Lf) (code : BitVec 12) (a : Option Hs) (s : State) :=
  run (.trapSoft p l code a) s fun e s =>
    match e.nib with
    | none => .done s
    | some n =>
      let w (j : Nat) : Word := if a.isSome then e.val 0 j n else 0#32
      e.trapNow s (e.trap 14 0 e.act (code.setWidth 17) (w 0) (w 1))

/-- `trap.link`: d1 and d2 hold the whole pair (DEDUCED, log 46). -/
def execTrapLink (p : Pfx) (l : Lf) (a : Hs) (s : State) :=
  run (.trapLink p l a) s fun e s =>
    match e.nib with
    | none => .done s
    | some n =>
      let r := e.pair 0 n
      e.trapNow s (e.trap 11 0 (maskOf (e.lanes.filter fun k => decide (e.pair 0 k = r))) 0#17 (e.val 0 0 n) (e.val 0 1 n))

def execTrapGst (p : Pfx) (l : Lf) (mask : BitVec 8) (s : State) :=
  run (.trapGst p l mask) s fun e s =>
    if e.act = 0#64 ∨ e.c.gst &&& mask.setWidth 32 = 0#32 then .done s
    else e.trapNow s (e.trap 10 0 e.act ((e.c.gst.extractLsb' 0 8).setWidth 17) (mask.setWidth 32) 0#32)

/-! ### The end of a trap (16:R388 to R390) -/

def execTret (p : Pfx) (l : Lf) (s : State) :=
  run (.tret p l) s fun e s =>
    match e.c.frame with
    | none => .done s
    | some f => if e.act = 0#64 then .done s else .moved (s.endTrap e.x f.trap.ret f.trap.cur f.trap.resume)

/-- The lanes of a frame wait for delegation: the permit returns and tcg is 0; the frame stays. -/
def State.waitDelegated (s : State) (x : Site) (f : Frame) : State :=
  (s.returnPermit x).updCtx x fun c =>
    let live := c.laneMask fun n _ => f.path.getLsbD n
    { (c.updLanes live fun l => { l with ws := .trapped, pc := f.trap.ret, held := none }) with
      tcg := 0#32, spoiled := c.spoiled.del 0x01, path := live, cur := none, frame := some { f with delegated := true } }

def execTdel (p : Pfx) (l : Lf) (a : Option Hs) (s : State) :=
  run (.tdel p l a) s fun e s =>
    match e.nib, e.c.frame with
    | some n, some f =>
      if !s.delegRoom then .hold s
      else
        let arg := if a.isSome then e.word 0 n else 0#32
        .moved (((e.settle s e.act true).delegate e.x f.trap arg false false f.path).waitDelegated e.x f)
    | _, _ => .done s

/-- The launch of a delegation ends, with its cause. -/
def State.endDeleg (s : State) (id : Nat) (d : Deleg) : State :=
  let s := s.dropDeleg id
  let launch := match d.src with
    | .context x => (s.gang? x.gang).map (·.launch)
    | .ring l seq _ => if (s.launch? l).any fun w => decide (w.seq = seq) then some l else none
  match launch with
  | none => s
  | some l => s.setAgenda (.event (.launchEndEarly l d.trap.cause) :: s.agenda)

/-- What RETRY and SKIP may resolve. -/
inductive Waiting where
  /-- a trap that is no double trap and whose context still waits for it -/
  | context (x : Site) (d : Deleg) (f : Frame)
  /-- the fault of a dune's ring page -/
  | ring (launch dune : Nat) (d : Deleg)
  | none

/-- What an entry of the delegation queue waits for. -/
def State.delegOf (s : State) (id : Nat) : Waiting :=
  match s.ctl.delegs.get? id with
  | none => .none
  | some d => match d.src with
    | .ring l _ u => if (s.ringDelegs l u).contains id then .ring l u d else .none
    | .context x => match s.ctx? x with
      | none => .none
      | some c => match c.frame with
        | none => .none
        | some f => if d.double ∨ !f.delegated ∨ (s.coreOf x.gang).isNone then .none else .context x d f

/-- Whether a frame holds a lane that holds an open capsule. -/
def State.frameHolder (s : State) (x : Site) (f : Frame) : Bool :=
  !x.access && (s.gang? x.gang).any fun g => g.holders.any f.path.getLsbD

/-- RETRY; of a ring fault, its resolution (13:R304). -/
def execRetry (entry : Nat) (s : State) : Host.Outcome State Fault Refusal :=
  match s.delegOf entry with
  | .none => .next s
  | .ring l d _ => execDuneRingFaultResolution l d s
  | .context x _ f => .next ((s.dropDeleg entry).endTrap x f.trap.ret f.trap.cur f.trap.resume)

/-- Lanes that skip a `cp` owe its lines no longer. -/
def State.forgive (s : State) (x : Site) (m : Mask) : State :=
  s.updCtx x fun c => { c with owed := c.owed.filter fun p => !m.getLsbD p.1 }

/-- SKIP: the return point moves past the raising instruction; without one, as of a ring fault, it acts as END (DEDUCED, log 48). -/
def execSkip (entry : Nat) (s : State) : Host.Outcome State Fault Refusal :=
  match s.delegOf entry with
  | .none => .next s
  | .ring _ _ d => .next (s.endDeleg entry d)
  | .context x d f =>
    if s.frameHolder x f then .next (s.endDeleg entry d)
    else match f.trap.skip with
      | none => .next (s.endDeleg entry d)
      | some pc => match f.trap.resume with
        | none => .next (((s.dropDeleg entry).endTrap x pc f.trap.skipCur none).forgive x f.trap.lanes)
        -- later instructions had issued and keep their effects: the context goes on where it stood (DEDUCED, log 73)
        | some r => .next (((s.dropDeleg entry).endTrap x r.pc r.cur none).forgive x f.trap.lanes)

/-- END. -/
def execEndRes (entry : Nat) (s : State) : Host.Outcome State Fault Refusal :=
  match s.ctl.delegs.get? entry with
  | none => .next s
  | some d => .next (s.endDeleg entry d)

/-! ### Entry (16:R383 to R386) -/

/-- How a pending trap of a context is taken: by its handler, by direct delegation, or as a double trap. -/
inductive Taking where
  | handler | direct | double
  deriving DecidableEq, Repr

/-- The way in which the pending trap of a context is taken. -/
def State.taking (s : State) (x : Site) : Option Taking :=
  match s.ctx? x with
  | none => none
  | some c =>
    if c.tcg ≠ 0#32 then c.pend.map fun _ => .double
    else (c.late.head?.or c.pend).map fun t => if t.cause = 2 ∨ x.access then .direct else .handler

/-- TRAP_ENTRY: a pending trap is entered once what its context issued earlier has completed, with a permit. -/
def execTrapEntry (gang : Nat) (access : Bool) (s : State) : Host.Outcome State Fault Refusal :=
  .next (if s.taking ⟨gang, access⟩ = some .handler then s.tryEnter ⟨gang, access⟩ else s)

/-- DIRECT_DELEGATION. -/
def execDirectDelegation (gang : Nat) (access : Bool) (s : State) : Host.Outcome State Fault Refusal :=
  .next (if s.taking ⟨gang, access⟩ = some .direct then s.tryEnter ⟨gang, access⟩ else s)

/-- DOUBLE_TRAP. -/
def execDoubleTrap (gang : Nat) (access : Bool) (s : State) : Host.Outcome State Fault Refusal :=
  .next (if s.taking ⟨gang, access⟩ = some .double then s.tryEnter ⟨gang, access⟩ else s)

/-- PERMIT_BACKOFF_EXPIRY: at the tick of the retry the context issues the raising instruction again. -/
def execPermitBackoffExpiry (gang : Nat) (access : Bool) (s : State) : Host.Outcome State Fault Refusal :=
  let x : Site := ⟨gang, access⟩
  match s.ctx? x with
  | none => .next s
  | some c => match c.retryAt with
    | none => .next s
    | some t =>
      if s.tick (s.clusterOfGang gang) < t then .next s
      else .next ((s.updCtx x fun c => { c.wake c.path with retryAt := none }).setAgenda (.issue gang access :: s.agenda))

/-! ### System registers (16:R398, 03:R73 to R77) -/

/-- `lnch` (03:R76). -/
def Launch.lnch (l : Launch) : Word :=
  BitVec.ofNat 32 (l.prio * 256 + (if l.kern.width = 16 then 0 else if l.kern.width = 32 then 8 else 16) +
    (if l.kern.poisonTrap then 4 else 0) + (if l.kern.decoupled then 2 else 0) + (if l.ordered then 1 else 0))

/-- A system register as a lane reads it. -/
def Env.sysReg (e : Env) (s : State) (n lane : Nat) : DWord :=
  let t (f : Thread → DWord) : DWord := match e.g.threads.get? lane with | none => 0#64 | some t => f t
  if 0x18 ≤ n then e.c.j.getD (n - 0x18) 0#64
  else if 0x10 ≤ n then e.c.k.getD (n - 0x10) 0#64
  else match n with
    | 0x00 => e.c.gst.setWidth 64
    | 0x01 => e.c.seen 0x01 lane (e.c.tcg.setWidth 64)
    | 0x02 => e.c.tlm
    | 0x03 => e.c.d0.setWidth 64
    | 0x04 => e.c.d1.setWidth 64
    | 0x05 => e.c.d2.setWidth 64
    | 0x06 => e.c.tra
    | 0x08 => e.c.seen 0x08 lane (e.l.ptw.setWidth 64)
    | 0x09 => e.c.seen 0x09 lane (s.idn e.x.gang lane e.x.access)
    | 0x0A => t fun t => t.fam.setWidth 64
    | 0x0B => e.c.seen 0x0B lane e.l.seed
    | 0x0C => t fun t => t.rngc
    | 0x0D => e.c.seen 0x0D lane (e.l.lnch.setWidth 64)
    | _ => 0#64

def execSysrd (p : Pfx) (l : Lf) (n : BitVec 8) (d : Opnd) (s : State) :=
  run (.sysrd p l n d) s fun e s => e.longWrite s fun lane => dwords (e.sysReg s n.toNat lane)

/-- Writes a predicate mask: bits at and above the width are ignored; in a handler the frame's copy is written too. -/
def Env.writeMask (e : Env) (s : State) (n : Nat) (w : DWord) : State :=
  let w := w &&& widthMask e.width
  s.updGang e.x.gang fun g =>
    let g := Env.hashWrites g e.x.access (dwords w)
    g.updCtx e.x.access fun c =>
      { c with k := c.k.putD n w 0#64
               frame := if c.tcg = 0#32 then c.frame else c.frame.map fun f => { f with k := f.k.putD n w 0#64 } }

/-- `syswr`: `gst` and a predicate take the A of the lowest active lane; for `gst` the spec names no lane (DESIGN CHOICE, log 85). -/
def execSyswr (p : Pfx) (l : Lf) (n : BitVec 8) (a : Hs) (s : State) :=
  run (.syswr p l n a) s fun e s =>
    match e.nib with
    | none => .done s
    | some nib =>
      let s := e.settle s e.act true
      let s :=
        if n = 0x00#8 then s.updCtx e.x fun c => { c with gst := c.gst &&& ~~~e.word 0 nib }
        else if n = 0x0C#8 then e.lanes.foldl (fun s k => s.updThread e.x.gang k fun t => { t with rngc := e.pair 0 k }) s
        else if 0x10 ≤ n.toNat ∧ n.toNat < 0x18 then e.writeMask s (n.toNat - 0x10) (e.pair 0 nib)
        else s
      .done (e.launchOp s e.act)

/-! ### Breakpoints (16:R399) -/

/-- `brk`: the event carries the address of its first word or prefix (DEDUCED, log 69). -/
def execBrk (p : Pfx) (l : Lf) (code : BitVec 12) (s : State) :=
  run (.brk p l code) s fun e s =>
    match e.nib with
    | none => .done s
    | some n =>
      if !s.eventRoom then .hold s
      else
        let s := s.postEvent ⟨2, code.setWidth 32, s.idnSeen e.x n, e.cur.ip, e.act⟩
        .moved (e.lanes.foldl (fun s k => s.stopLane e.x k) (e.advance s))

end Sys2Proof.Machine
end

