-- ==== Sys2Proof/Machine/Dispatch.lean ====
section
/-! DEFINITION. The meaning of every instruction and event: one arm per constructor of `Instr`. -/

namespace Sys2Proof.Machine

def exec (i : Instr) (s : State) : Host.Outcome State Fault Refusal :=
  match i with
  | .add p u d a b => Sys2Proof.Machine.execAdd p u d a b s
  | .sub p u d a b => Sys2Proof.Machine.execSub p u d a b s
  | .mul p u d a b => Sys2Proof.Machine.execMul p u d a b s
  | .mulhi p u d a b => Sys2Proof.Machine.execMulhi p u d a b s
  | .mad p u d a b => Sys2Proof.Machine.execMad p u d a b s
  | .madhi p u d a b => Sys2Proof.Machine.execMadhi p u d a b s
  | .neg p w d a => Sys2Proof.Machine.execNeg p w d a s
  | .abs p w d a => Sys2Proof.Machine.execAbs p w d a s
  | .min p u d a b => Sys2Proof.Machine.execMin p u d a b s
  | .max p u d a b => Sys2Proof.Machine.execMax p u d a b s
  | .lea p d a b => Sys2Proof.Machine.execLea p d a b s
  | .shl p d a b => Sys2Proof.Machine.execShl p d a b s
  | .shr p d a b => Sys2Proof.Machine.execShr p d a b s
  | .sra p d a b => Sys2Proof.Machine.execSra p d a b s
  | .rotl p d a b => Sys2Proof.Machine.execRotl p d a b s
  | .and p d a b => Sys2Proof.Machine.execAnd p d a b s
  | .or p d a b => Sys2Proof.Machine.execOr p d a b s
  | .xor p d a b => Sys2Proof.Machine.execXor p d a b s
  | .andn p d a b => Sys2Proof.Machine.execAndn p d a b s
  | .not p d a => Sys2Proof.Machine.execNot p d a s
  | .clz p d a => Sys2Proof.Machine.execClz p d a s
  | .ctz p d a => Sys2Proof.Machine.execCtz p d a s
  | .popc p d a => Sys2Proof.Machine.execPopc p d a s
  | .brev p d a => Sys2Proof.Machine.execBrev p d a s
  | .bfx p d a b => Sys2Proof.Machine.execBfx p d a b s
  | .bfi p d a b => Sys2Proof.Machine.execBfi p d a b s
  | .cmp p u c n a b => Sys2Proof.Machine.execCmp p u c n a b s
  | .sel p d a x n => Sys2Proof.Machine.execSel p d a x n s
  | .selImm p d x n imm => Sys2Proof.Machine.execSelImm p d x n imm s
  | .mov p w d a => Sys2Proof.Machine.execMov p w d a s
  | .li p w d imm => Sys2Proof.Machine.execLi p w d imm s
  | .cvt p pk d a t s2 => Sys2Proof.Machine.execCvt p pk d a t s2 s
  | .req p w d a b => Sys2Proof.Machine.execReq p w d a b s
  | .pack4 p d a b => Sys2Proof.Machine.execPack4 p d a b s
  | .unpack4 p q4 d a => Sys2Proof.Machine.execUnpack4 p q4 d a s
  | .dot4 p n8 d a b => Sys2Proof.Machine.execDot4 p n8 d a b s
  | .fadd p d a b => Sys2Proof.Machine.execFadd p d a b s
  | .fsub p d a b => Sys2Proof.Machine.execFsub p d a b s
  | .fmul p d a b => Sys2Proof.Machine.execFmul p d a b s
  | .ffma p d a b => Sys2Proof.Machine.execFfma p d a b s
  | .fmin p d a b => Sys2Proof.Machine.execFmin p d a b s
  | .fmax p d a b => Sys2Proof.Machine.execFmax p d a b s
  | .fabs p t d a => Sys2Proof.Machine.execFabs p t d a s
  | .fneg p t d a => Sys2Proof.Machine.execFneg p t d a s
  | .fcmp p c n a b => Sys2Proof.Machine.execFcmp p c n a b s
  | .fcls p y n a b => Sys2Proof.Machine.execFcls p y n a b s
  | .rcp p d a => Sys2Proof.Machine.execRcp p d a s
  | .rsq p d a => Sys2Proof.Machine.execRsq p d a s
  | .sqrt p d a => Sys2Proof.Machine.execSqrt p d a s
  | .exp2 p d a => Sys2Proof.Machine.execExp2 p d a s
  | .log2 p d a => Sys2Proof.Machine.execLog2 p d a s
  | .sin p d a => Sys2Proof.Machine.execSin p d a s
  | .cos p d a => Sys2Proof.Machine.execCos p d a s
  | .tanh p d a => Sys2Proof.Machine.execTanh p d a s
  | .rng p f d => Sys2Proof.Machine.execRng p f d s
  | .shflIdx p d a b => Sys2Proof.Machine.execShflIdx p d a b s
  | .shflUp p d a b => Sys2Proof.Machine.execShflUp p d a b s
  | .shflDown p d a b => Sys2Proof.Machine.execShflDown p d a b s
  | .shflXor p d a b => Sys2Proof.Machine.execShflXor p d a b s
  | .vote p m n x k => Sys2Proof.Machine.execVote p m n x k s
  | .voteBallot p d x k => Sys2Proof.Machine.execVoteBallot p d x k s
  | .red p t o d a => Sys2Proof.Machine.execRed p t o d a s
  | .scan p t e o d a => Sys2Proof.Machine.execScan p t e o d a s
  | .bcast p d a n => Sys2Proof.Machine.execBcast p d a n s
  | .bcastNib p d a => Sys2Proof.Machine.execBcastNib p d a s
  | .br p imm => Sys2Proof.Machine.execBr p imm s
  | .bk p m x n imm => Sys2Proof.Machine.execBk p m x n imm s
  | .bs p c a imm => Sys2Proof.Machine.execBs p c a imm s
  | .call p d imm => Sys2Proof.Machine.execCall p d imm s
  | .ret p a => Sys2Proof.Machine.execRet p a s
  | .jmpr p link a => Sys2Proof.Machine.execJmpr p link a s
  | .exit p => Sys2Proof.Machine.execExit p s
  | .enrol p n => Sys2Proof.Machine.execEnrol p n s
  | .park p n => Sys2Proof.Machine.execPark p n s
  | .strike p n => Sys2Proof.Machine.execStrike p n s
  | .yld p => Sys2Proof.Machine.execYld p s
  | .nop p => Sys2Proof.Machine.execNop p s
  | .wait p all fence sb => Sys2Proof.Machine.execWait p all fence sb s
  | .ld p l n d m => Sys2Proof.Machine.execLd p l n d m s
  | .ldToQueue p l n q m => Sys2Proof.Machine.execLdToQueue p l n q m s
  | .st p l n m b => Sys2Proof.Machine.execSt p l n m b s
  | .lds p l n d m => Sys2Proof.Machine.execLds p l n d m s
  | .sts p l n m b => Sys2Proof.Machine.execSts p l n m b s
  | .cp p l n d a b cv => Sys2Proof.Machine.execCp p l n d a b cv s
  | .pref p l slice m => Sys2Proof.Machine.execPref p l slice m s
  | .cln p l toMem m => Sys2Proof.Machine.execCln p l toMem m s
  | .atom p l n op d m b => Sys2Proof.Machine.execAtom p l n op d m b s
  | .acas p l w d m b c => Sys2Proof.Machine.execAcas p l w d m b c s
  | .ared p l f op m b => Sys2Proof.Machine.execAred p l f op m b s
  | .waitv p l w d m b => Sys2Proof.Machine.execWaitv p l w d m b s
  | .notify1 p l m => Sys2Proof.Machine.execNotify1 p l m s
  | .notifyall p l m => Sys2Proof.Machine.execNotifyall p l m s
  | .fence p l sco ord => Sys2Proof.Machine.execFence p l sco ord s
  | .fmtres p l fmt swz blk d a => Sys2Proof.Machine.execFmtres p l fmt swz blk d a s
  | .fmtrel p l a => Sys2Proof.Machine.execFmtrel p l a s
  | .mld p l scl d a b c => Sys2Proof.Machine.execMld p l scl d a b c s
  | .mldT p l scl d a b c => Sys2Proof.Machine.execMldT p l scl d a b c s
  | .mso p l scl d a b c => Sys2Proof.Machine.execMso p l scl d a b c s
  | .mrd p l w t d a => Sys2Proof.Machine.execMrd p l w t d a s
  | .mclr p l st t => Sys2Proof.Machine.execMclr p l st t s
  | .mmac p l a b => Sys2Proof.Machine.execMmac p l a b s
  | .mmacI p l a b => Sys2Proof.Machine.execMmacI p l a b s
  | .mqnt p l t e4 sat col a b c => Sys2Proof.Machine.execMqnt p l t e4 sat col a b c s
  | .spick p l a b c => Sys2Proof.Machine.execSpick p l a b c s
  | .mstat p l keep t d => Sys2Proof.Machine.execMstat p l keep t d s
  | .qset p l q depth => Sys2Proof.Machine.execQset p l q depth s
  | .qpeek p l q d => Sys2Proof.Machine.execQpeek p l q d s
  | .qdrain p l q d => Sys2Proof.Machine.execQdrain p l q d s
  | .qcount p l q sel d => Sys2Proof.Machine.execQcount p l q sel d s
  | .qtokTest p l q k => Sys2Proof.Machine.execQtokTest p l q k s
  | .qtokTake p l q d => Sys2Proof.Machine.execQtokTake p l q d s
  | .spawn p l pw a c => Sys2Proof.Machine.execSpawn p l pw a c s
  | .tokput p l pw a b c => Sys2Proof.Machine.execTokput p l pw a b c s
  | .dset p l d a b c => Sys2Proof.Machine.execDset p l d a b c s
  | .dget p l d a b => Sys2Proof.Machine.execDget p l d a b s
  | .refill p l => Sys2Proof.Machine.execRefill p l s
  | .itemfin p l => Sys2Proof.Machine.execItemfin p l s
  | .ddrain p l a b => Sys2Proof.Machine.execDdrain p l a b s
  | .dspill p l a b c => Sys2Proof.Machine.execDspill p l a b c s
  | .rcq p l d a => Sys2Proof.Machine.execRcq p l d a s
  | .rcrd p l sel acc d a => Sys2Proof.Machine.execRcrd p l sel acc d a s
  | .famset p l d => Sys2Proof.Machine.execFamset p l d s
  | .capo p l a imm => Sys2Proof.Machine.execCapo p l a imm s
  | .capx p l => Sys2Proof.Machine.execCapx p l s
  | .bar p l cnt pair n => Sys2Proof.Machine.execBar p l cnt pair n s
  | .barr p l cnt pair n d => Sys2Proof.Machine.execBarr p l cnt pair n d s
  | .barw p l pair n a => Sys2Proof.Machine.execBarw p l pair n a s
  | .trapSoft p l code a => Sys2Proof.Machine.execTrapSoft p l code a s
  | .trapLink p l a => Sys2Proof.Machine.execTrapLink p l a s
  | .trapGst p l mask => Sys2Proof.Machine.execTrapGst p l mask s
  | .tret p l => Sys2Proof.Machine.execTret p l s
  | .tdel p l a => Sys2Proof.Machine.execTdel p l a s
  | .sysrd p l n d => Sys2Proof.Machine.execSysrd p l n d s
  | .syswr p l n a => Sys2Proof.Machine.execSyswr p l n a s
  | .brk p l code => Sys2Proof.Machine.execBrk p l code s
  | .pmrd p l n sel clr d => Sys2Proof.Machine.execPmrd p l n sel clr d s
  | .pmset p l n a => Sys2Proof.Machine.execPmset p l n a s
  | .tick p l w d => Sys2Proof.Machine.execTick p l w d s
  | .enrd p l sel d => Sys2Proof.Machine.execEnrd p l sel d s
  | .clauseBegin gang access => Sys2Proof.Machine.execClauseBegin gang access s
  | .longFormComplete op lat => Sys2Proof.Machine.execLongFormComplete op lat s
  | .queueLoadFill req => Sys2Proof.Machine.execQueueLoadFill req s
  | .copyLineLands op => Sys2Proof.Machine.execCopyLineLands op s
  | .matrixOpComplete op => Sys2Proof.Machine.execMatrixOpComplete op s
  | .homeSliceAct req => Sys2Proof.Machine.execHomeSliceAct req s
  | .writeBufferDrain entry => Sys2Proof.Machine.execWriteBufferDrain entry s
  | .promotion req => Sys2Proof.Machine.execPromotion req s
  | .pageWalk core owner va write => Sys2Proof.Machine.execPageWalk core owner va write s
  | .strokeCommit gang => Sys2Proof.Machine.execStrokeCommit gang s
  | .absentLineWake gang access => Sys2Proof.Machine.execAbsentLineWake gang access s
  | .allotmentFill group line => Sys2Proof.Machine.execAllotmentFill group line s
  | .accessContextEnd gang => Sys2Proof.Machine.execAccessContextEnd gang s
  | .trapEntry gang access => Sys2Proof.Machine.execTrapEntry gang access s
  | .permitBackoffExpiry gang access => Sys2Proof.Machine.execPermitBackoffExpiry gang access s
  | .directDelegation gang access => Sys2Proof.Machine.execDirectDelegation gang access s
  | .doubleTrap gang access => Sys2Proof.Machine.execDoubleTrap gang access s
  | .retry entry => Sys2Proof.Machine.execRetry entry s
  | .skip entry => Sys2Proof.Machine.execSkip entry s
  | .endRes entry => Sys2Proof.Machine.execEndRes entry s
  | .queryStop src => Sys2Proof.Machine.execQueryStop src s
  | .queryStep src => Sys2Proof.Machine.execQueryStep src s
  | .queryResume src => Sys2Proof.Machine.execQueryResume src s
  | .queryKill src => Sys2Proof.Machine.execQueryKill src s
  | .queryRead src => Sys2Proof.Machine.execQueryRead src s
  | .queryWrite src => Sys2Proof.Machine.execQueryWrite src s
  | .deferredStepClause gang access => Sys2Proof.Machine.execDeferredStepClause gang access s
  | .launchRecordTake ring => Sys2Proof.Machine.execLaunchRecordTake ring s
  | .rootDuneEnqueue launch cluster => Sys2Proof.Machine.execRootDuneEnqueue launch cluster s
  | .rootDuneFiring launch cluster core => Sys2Proof.Machine.execRootDuneFiring launch cluster core s
  | .duneFiring cluster core => Sys2Proof.Machine.execDuneFiring cluster core s
  | .driftExpiry launch dune => Sys2Proof.Machine.execDriftExpiry launch dune s
  | .starving launch dune => Sys2Proof.Machine.execStarving launch dune s
  | .finalDrain launch => Sys2Proof.Machine.execFinalDrain launch s
  | .ringItemMove launch dune => Sys2Proof.Machine.execRingItemMove launch dune s
  | .launchCompletion launch => Sys2Proof.Machine.execLaunchCompletion launch s
  | .launchEndEarly launch cause => Sys2Proof.Machine.execLaunchEndEarly launch cause s
  | .evictRequest gang => Sys2Proof.Machine.execEvictRequest gang s
  | .evictionDelay gang => Sys2Proof.Machine.execEvictionDelay gang s
  | .absentLineLimit gang => Sys2Proof.Machine.execAbsentLineLimit gang s
  | .gangRestore gang core => Sys2Proof.Machine.execGangRestore gang core s
  | .queueDeadlockLimit gang => Sys2Proof.Machine.execQueueDeadlockLimit gang s
  | .gangAgeing gang access => Sys2Proof.Machine.execGangAgeing gang access s
  | .spinDemotion gang => Sys2Proof.Machine.execSpinDemotion gang s
  | .referenceTick cluster => Sys2Proof.Machine.execReferenceTick cluster s
  | .clusterEnergyAdvance cluster => Sys2Proof.Machine.execClusterEnergyAdvance cluster s
  | .deviceEnergyAdvance => Sys2Proof.Machine.execDeviceEnergyAdvance s
  | .currentReservationGrant cluster => Sys2Proof.Machine.execCurrentReservationGrant cluster s
  | .peerTimeout req => Sys2Proof.Machine.execPeerTimeout req s
  | .peerAccess port addr acc => Sys2Proof.Machine.execPeerAccess port addr acc s
  | .hostAccess addr acc => Sys2Proof.Machine.execHostAccess addr acc s
  | .tail ring t => Sys2Proof.Machine.execTail ring t s
  | .rstat ring w => Sys2Proof.Machine.execRstat ring w s
  | .ringConfigure ring cfg owner => Sys2Proof.Machine.execRingConfigure ring cfg owner s
  | .ringDisable ring cfg => Sys2Proof.Machine.execRingDisable ring cfg s
  | .deviceSettingWrite r w => Sys2Proof.Machine.execDeviceSettingWrite r w s
  | .registerWrite r w => Sys2Proof.Machine.execRegisterWrite r w s
  | .attestation => Sys2Proof.Machine.execAttestation s
  | .recoveryProgramming => Sys2Proof.Machine.execRecoveryProgramming s
  | .attestationDone ok => Sys2Proof.Machine.execAttestationDone ok s
  | .mlogExtend d => Sys2Proof.Machine.execMlogExtend d s
  | .fuseBlow n => Sys2Proof.Machine.execFuseBlow n s
  | .deviceReset => Sys2Proof.Machine.execDeviceReset s
  | .tlbInvalidation owner lo hi => Sys2Proof.Machine.execTlbInvalidation owner lo hi s
  | .icacheInvalidation lo hi => Sys2Proof.Machine.execIcacheInvalidation lo hi s
  | .pendingEventPost => Sys2Proof.Machine.execPendingEventPost s
  | .uncorrectableError e => Sys2Proof.Machine.execUncorrectableError e s
  | .contextStoreError gang access => Sys2Proof.Machine.execContextStoreError gang access s
  | .hostWriteAcknowledgement entry => Sys2Proof.Machine.execHostWriteAcknowledgement entry s
  | .peerLinkDown port => Sys2Proof.Machine.execPeerLinkDown port s
  | .peerLinkUp port => Sys2Proof.Machine.execPeerLinkUp port s
  | .flitCrcRetry port => Sys2Proof.Machine.execFlitCrcRetry port s
  | .functionLevelReset => Sys2Proof.Machine.execFunctionLevelReset s
  | .duneRingFaultResolution launch dune => Sys2Proof.Machine.execDuneRingFaultResolution launch dune s

end Sys2Proof.Machine
end

