-- ==== Sys2Proof/Machine/Step.lean ====
section
/-! DEFINITION. One step of the machine: the next happening of the agenda, or one that the model's scheduler takes. -/

namespace Sys2Proof.Machine

/-- Performs a happening. An agenda can name an instruction only through the issue of a context. -/
def perform (h : Happening) (s : State) : Host.Outcome State Fault Refusal :=
  match h with
  | .issue g a => match s.issue ⟨g, a⟩ with
    | .state t => .next t
    | .exec i t => exec i t
  | .event i => if i.isEvent then exec i s else .next s

/-- Whether a happening changes a state, but for the context that `cur` names. -/
def effective (s : State) (h : Happening) : Bool :=
  match perform h s with
  | .next t => decide (t.setCur none ≠ s.setCur none)
  | _ => false

/-- One step. -/
def step (s : State) : Host.Outcome State Fault Refusal :=
  match s.agenda with
  | h :: rest => perform h (s.setAgenda rest)
  | [] =>
    let t := s.setTurn (s.turn + 1)
    perform (t.nextHappening (effective t)) t

/-- `s` with an instruction stored where step fetches next (DESIGN CHOICE, log 16): `w` numbers its bits as the opcode table does. -/
def State.withFetchWord (s : State) (nbits w : Nat) : State := s.placeWord (bytesOf (tableWords nbits w))

end Sys2Proof.Machine
end

