-- ==== Sys2Proof/Safety.lean ====
section
/-! DEFINITION. What the statements about the machine speak of: an instruction that issues, what an observer sees of a state, what an
instruction delivers, and what it leaves as it was. -/

namespace Sys2Proof.Machine

/-! ### Observers -/

/-- The live copy of a v register in a lane; none while it is dead (03:R68). -/
def State.vreg (s : State) (x : Site) (r lane : Nat) : Option Reg := (s.ctx? x).bind fun c => c.v.get? (64 * r + lane)
/-- The live copy of an s register; none while it is dead. -/
def State.sreg (s : State) (x : Site) (r : Nat) : Option Reg := (s.ctx? x).bind fun c => c.s.get? r
/-- A predicate. -/
def State.pred (s : State) (x : Site) (n : Nat) : Option Mask := (s.ctx? x).map fun c => c.k.getD n 0#64
/-- A scoreboard counter. -/
def State.sbCount (s : State) (x : Site) (n : Nat) : Option Nat := (s.ctx? x).map fun c => c.sbOf n
/-- The status register of a context. -/
def State.gst (s : State) (x : Site) : Option Word := (s.ctx? x).map fun c => c.gst
/-- A capsule register of a thread. -/
def State.creg (s : State) (g lane r : Nat) : Option Word := (s.thread? g lane).map fun t => t.creg r
/-- The entries of a queue in a lane, oldest first. -/
def State.queue (s : State) (g q lane : Nat) : List QEnt :=
  match s.gang? g with
  | none => []
  | some x => match x.queues.get? q with
    | none => []
    | some r => r.ents.getD lane []
/-- The place of a lane in the context store. -/
def State.lane? (s : State) (x : Site) (n : Nat) : Option LaneSt := (s.ctx? x).bind fun c => c.lanes.get? n
/-- One byte of global memory as a KEY reads it. -/
def State.byte (s : State) (mt : BitVec 2) (key : BitVec 10) (pa : Nat) : Byte := s.mem.readByte mt key pa

/-! ### What an instruction's issue leaves -/

/-- A context but for its registers and for where it stands: what only the instructions of its own families change. -/
def Ctx.still (c : Ctx) : Ctx :=
  { c with v := [], s := [], k := [], sb := [], gst := 0#32, lanes := [], path := 0#64, cur := none, resume := none, aside := none
           mid := [], since := 0, aged := false, vgrant := none }

/-- A gang but for its contexts' registers and places, its queues, its threads' capsule registers, what the pipes keep of it and how long it has
waited. -/
def Gang.still (g : Gang) : Gang :=
  { g with cctx := g.cctx.still, actx := g.actx.map Ctx.still, queues := [], threads := [], evictable := none, deadlock := none, spin := none }

/-- The device but for its arbiters, where the end of a clause ends its reservation (18:R429). -/
def Device.still (d : Device) : Device := { d with arb := [] }
/-- A group but for its counters. -/
def Group.still (g : Group) : Group := { g with pm := [] }
/-- A group with the events of an instruction's own issue counted: its passes, and losses of decoupling (17:R404). -/
def Group.issueEvents (g : Group) (e : Env) : Group :=
  (g.event 0x04 e.passes (some e.x.access)).event 0x08 (if e.act = 0#64 then 0 else e.losses) (some e.x.access)
/-- A thread but for its capsule registers. -/
def Thread.still (t : Thread) : Thread := { t with c := [] }
/-- A lane but for where it stands. -/
def LaneSt.still (l : LaneSt) : LaneSt := { l with pc := 0#64, ws := .ready }

/-- What every state after an instruction keeps of the state before it, unless the rules of the instruction say otherwise: memory, home
slices, launches, requests, rings, the device; every gang, group, thread and lane but for registers, queues and places. -/
structure Rest (x : Site) (s t : State) : Prop where
  mem : t.mem = s.mem
  home : t.home = s.home
  launches : t.launches = s.launches
  ctl : t.ctl = s.ctl
  dev : t.dev.still = s.dev.still
  turn : t.turn = s.turn
  cur : t.cur = s.cur
  draws : t.draws = s.draws
  recs : t.cores.recs = s.cores.recs
  permits : t.cores.permits = s.cores.permits
  heldLines : t.cores.heldLines = s.cores.heldLines
  reads : t.cores.reads = s.cores.reads
  gangs : ∀ k, (t.gang? k).map Gang.still = (s.gang? k).map Gang.still
  groups : ∀ k, (t.group? k).map Group.still = (s.group? k).map Group.still
  threads : ∀ k n, (t.thread? k n).map Thread.still = (s.thread? k n).map Thread.still
  lanes : ∀ y n, (t.lane? y n).map LaneSt.still = (s.lane? y n).map LaneSt.still
  outside : ∀ y n, (y ≠ x ∨ ∃ c, s.ctx? x = some c ∧ c.path.getLsbD n = false) → t.lane? y n = s.lane? y n

/-! ### An instruction that issues -/

/-- Whether nothing of 02:R62, 02:R54, 03:R78, 12:R281 stands before an instruction: it raises no trap and does not wait. -/
def Env.goes (e : Env) (s : State) : Bool :=
  match e.gate s with
  | .go => true
  | _ => false

/-- Whether no lane of the context is stopped, and no lane of the path stops where the clause ends (07:R160). -/
def Env.atEase (e : Env) : Bool := e.c.lanes.all fun p => decide (p.2.ws ≠ .stopped) && !(e.c.path.getLsbD p.1 && p.2.pstep)

/-- Whether no lane stops at an instruction that does not end its clause otherwise. -/
def Env.calm (e : Env) : Bool := e.c.resume.isSome || !e.last || e.atEase

/-- Whether no dead register has a part in an instruction's checks: its kernel does not trap on one, or it reads none and nothing in flight
has yet to write a register of it (02:R51, R54). -/
def Env.undead (e : Env) (s : State) : Bool := !e.l.kern.poisonTrap || (!e.hazard s && e.poisonTrap.isEmpty)

/-- A state whose running path has woken: what an instruction's meaning starts from. -/
def Env.awake (e : Env) (s : State) : State := s.updCtx e.x fun c => c.wake c.path

/-- An instruction stands next in the context that `cur` names, in the environment `e`, and issues. -/
structure Ready (i : Instr) (s : State) (e : Env) : Prop where
  env : env? i s = some e
  goes : e.goes s = true
  calm : e.calm = true

/-! ### What an instruction delivers -/

/-- What an instruction delivers: the words of its destination in some lanes, bits of a predicate in its active lanes, flags of `gst`, and
whether it enters flight as a long form (02:R52), with the lanes that have yet to complete and the work left. -/
structure Out where
  dst : Option (Opnd × Nat) := none
  lanes : List Nat := []
  vals : Nat → List Word := fun _ => []
  pred : Option (BitVec 3 × (Nat → Bool)) := none
  flags : Word := 0#32
  long : Bool := false
  left : Mask := 0#64
  data : OpData := .none

namespace Out

/-- Whether a v register is written in a lane: the destination covers it. -/
def writesV (o : Out) (r lane : Nat) : Bool :=
  match o.dst with
  | some (.v b, n) => o.lanes.contains lane && decide (b.toNat ≤ r ∧ r < b.toNat + n)
  | _ => false

/-- Whether an s register is written: the lowest active lane is among the lanes that write (03:R71). -/
def writesS (o : Out) (nib : Option Nat) (r : Nat) : Bool :=
  match o.dst, nib with
  | some (.s b, n), some k => o.lanes.contains k && decide (b.val ≤ r ∧ r < b.val + n)
  | _, _ => false

/-- Whether a capsule register is written in a lane. -/
def writesC (o : Out) (r lane : Nat) : Bool :=
  match o.dst with
  | some (.c b, _) => o.lanes.contains lane && decide (b.toNat = r)
  | _ => false

/-- Whether a word is pushed into a queue in a lane. -/
def pushes (o : Out) (q lane : Nat) : Bool :=
  match o.dst with
  | some (.q b, _) => o.lanes.contains lane && decide (b.toNat = q)
  | _ => false

/-- Number of the first register of the destination. -/
def base (o : Out) : Nat :=
  match o.dst with
  | some (.v b, _) => b.toNat
  | some (.s b, _) => b.val
  | _ => 0

/-- The word that a lane delivers to a register. -/
def word (o : Out) (r lane : Nat) : Word := (o.vals lane).getD (r - o.base) 0#32

end Out

/-- Whether a use covers a v register, and an s register. -/
def coversV (u : Use) (r : Nat) : Bool :=
  match u.o with
  | .v b => decide (b.toNat ≤ r ∧ r < b.toNat + u.n)
  | _ => false
def coversS (u : Use) (r : Nat) : Bool :=
  match u.o with
  | .s b => decide (b.val ≤ r ∧ r < b.val + u.n)
  | _ => false

/-- Whether a last-use hint kills a v register in a lane (02:R51); a replayed instruction leaves alone a register that it reads as at its
issue (02:R55). -/
def Env.killsV (e : Env) (r lane : Nat) : Bool :=
  e.act.getLsbD lane && !e.replayed true (64 * r + lane) && e.uses.any fun u => u.last && coversV u r

/-- Whether a last-use hint kills an s register. -/
def Env.killsS (e : Env) (r : Nat) : Bool :=
  decide (e.act ≠ 0#64) && !e.replayed false r && e.uses.any fun u => u.last && coversS u r

/-- How many entries of a queue an instruction pops in each active lane (12:R281). -/
def Env.pops (e : Env) (q : Nat) : Nat :=
  (e.uses.filter fun u => match u.o, u.role with | .q b, .src => decide (b.toNat = q) | _, _ => false).length

/-- The PZ flag where an active lane reads a dead register (02:R51). -/
def Env.pz (e : Env) : Word := if e.lanes.any e.deadIn then fPZ else 0#32

/-- The state `t` after an instruction that issued in `s` and delivered `o`: its destination holds the words, sources with a last-use
hint are dead, popped entries are gone, the named predicate and flags are set, a long form counts in its scoreboard counter; and
nothing else has changed. -/
structure Effect (e : Env) (s t : State) (o : Out) : Prop where
  vregs : ∀ y r n, n < 64 → t.vreg y r n =
    if y = e.x ∧ o.writesV r n then some ⟨o.word r n, false, false⟩
    else if y = e.x ∧ e.killsV r n then none else s.vreg y r n
  sregs : ∀ y r, t.sreg y r =
    if y = e.x ∧ o.writesS e.nib r then some ⟨o.word r (e.nib.getD 0), false, false⟩
    else if y = e.x ∧ e.killsS r then none else s.sreg y r
  preds : ∀ y n, t.pred y n = match o.pred with
    | none => s.pred y n
    | some (b, p) => if y = e.x ∧ n = b.toNat then (s.pred y n).map fun m => (m &&& ~~~e.act) ||| maskOf (e.lanes.filter p) else s.pred y n
  status : ∀ y, t.gst y = if y = e.x then (s.gst y).map fun w => w ||| e.pz ||| o.flags else s.gst y
  cregs : ∀ g n r, t.creg g n r = if g = e.x.gang ∧ o.writesC r n then (s.creg g n r).map fun _ => o.word 0 n else s.creg g n r
  queues : ∀ g q n, t.queue g q n =
    if g = e.x.gang then (s.queue g q n).drop (if e.act.getLsbD n then e.pops q else 0) ++
      (if o.pushes q n ∧ e.g.queues.has q then [.val (o.word 0 n)] else [])
    else s.queue g q n
  ops : if o.long = true ∧ e.act ≠ 0#64 then
      ∃ p, t.ops = s.ops.put s.nextId p ∧ p.i = e.i ∧ p.gang = e.x.gang ∧ p.access = e.x.access ∧ p.lanes = e.act ∧ p.left = o.left ∧
        p.fails = [] ∧ p.data = o.data
    else t.ops = s.ops
  sb : ∀ y n, t.sbCount y n =
    if y = e.x ∧ o.long = true ∧ e.act ≠ 0#64 ∧ (∃ l, e.i.lf = some l ∧ l.sb.toNat = n) then (s.sbCount y n).map (· + 1) else s.sbCount y n
  rest : Rest e.x s t

/-! ### Whole instructions -/

/-- An instruction that issues answers a next state in which it has delivered `o`, and nothing else has changed. -/
def Delivers (i : Instr) (o : State → Env → Out) : Prop :=
  ∀ s e, Ready i s e → ∃ t, exec i s = .next t ∧ Effect e s t (o s e)

/-- An instruction that issues where `ok` holds answers a next state: what its delivery of `o` leaves of `f e s`, the state with the
instruction's own change outside registers made; and nothing else has changed. -/
def DeliversTo (i : Instr) (ok : State → Env → Prop) (f : Env → State → State) (o : State → Env → Out) : Prop :=
  ∀ s e, Ready i s e → ok s e → ∃ t, exec i s = .next t ∧ Effect e (f e s) t (o s e)

/-- Words and flags in every active lane, for a destination of `n` registers; the flags of all lanes are set (03:R74). -/
def Env.result (e : Env) (d : Opnd) (n : Nat) (f : Nat → List Word × Word) : Out :=
  { dst := some (d, n), lanes := e.lanes, vals := fun k => (f k).1, flags := e.lanes.foldl (fun x k => x ||| (f k).2) 0#32 }

/-- One word without flags in every active lane. -/
def Env.result1 (e : Env) (d : Opnd) (f : Nat → Word) : Out := { dst := some (d, 1), lanes := e.lanes, vals := fun k => [f k] }

/-- A pair without flags in every active lane, the low word in the even register. -/
def Env.result2 (e : Env) (d : Opnd) (f : Nat → DWord) : Out :=
  { dst := some (d, 2), lanes := e.lanes, vals := fun k => [(f k).extractLsb' 0 32, (f k).extractLsb' 32 32] }

/-- Words that a long form writes in every active lane (02:R52). -/
def Env.longResult (e : Env) (d : Opnd) (n : Nat) (f : Nat → List Word) : Out :=
  { dst := some (d, n), lanes := e.lanes, vals := f, long := true }

/-- The integer of a word of `.n32` (`u`) or of `.i32` (05:R111). -/
def intOf (u : Bool) (w : Word) : Int := if u then w.toNat else w.toInt

/-- `sat_n32` and `sat_i32` with the SAT they set (03:R81, 05:R110). -/
def sat32 (u : Bool) (x : Int) : Word × Word :=
  let lo : Int := if u then 0 else -0x80000000
  let hi : Int := if u then 0xFFFFFFFF else 0x7FFFFFFF
  if x < lo then (BitVec.ofInt 32 lo, fSAT) else if hi < x then (BitVec.ofInt 32 hi, fSAT) else (BitVec.ofInt 32 x, 0#32)

/-- `sat_i64` with the SAT it sets. -/
def sat64 (x : Int) : DWord × Word :=
  if x < -0x8000000000000000 then (0x8000000000000000#64, fSAT)
  else if 0x7FFFFFFFFFFFFFFF < x then (0x7FFFFFFFFFFFFFFF#64, fSAT) else (BitVec.ofInt 64 x, 0#32)

/-- An exact result as 05:R111 delivers it: clamped under SAT, else wrapped. -/
def deliver32 (sat u : Bool) (x : Int) : List Word × Word :=
  if sat then ([(sat32 u x).1], (sat32 u x).2) else ([BitVec.ofInt 32 x], 0#32)

/-- A word of flags and pairs of `.i64`, delivered alike. -/
def deliver64 (sat : Bool) (x : Int) : List Word × Word :=
  let r := if sat then sat64 x else (BitVec.ofInt 64 x, 0#32)
  ([r.1.extractLsb' 0 32, r.1.extractLsb' 32 32], r.2)

/-- The word with the bits that `f` names. -/
def wordOf (f : Nat → Bool) : Word := (List.range 32).foldl (fun w i => if f i then w ||| BitVec.twoPow 32 i else w) 0#32

/-- Zero bits above the highest one bit, and below the lowest; 32 of a zero word (05:R116). -/
def leadingZeros (w : Word) : Nat := ((List.range 32).find? fun i => w.getLsbD (31 - i)).getD 32
def trailingZeros (w : Word) : Nat := ((List.range 32).find? fun i => w.getLsbD i).getD 32

/-- The values of the two operands of a floating-point instruction. -/
def Env.fval (e : Env) (b : FSrc) (k : Nat) : Ext × Ext := ((FSrc.fmt b).decode (e.word 0 k).toNat, (FSrc.fmt b).decode (e.fsrc b k))

/-- An exact result with the flags of its operation, rounded once to the type (06:R130). -/
def Env.rounded (e : Env) (b : FSrc) (x : Ext × Word) : List Word × Word :=
  let r := (FSrc.fmt b).deliver (e.mode .rne) false x.1
  ([BitVec.ofNat 32 r.1], x.2 ||| r.2)

/-- What a special function delivers (06:R135). -/
def Env.special1 (e : Env) (d : Opnd) (f : Word → Nat × Word) : Out :=
  e.result d 1 fun k => ([BitVec.ofNat 32 (f (e.word 0 k)).1], (f (e.word 0 k)).2)

/-! ### Lanes, paths and accesses -/

/-- Whether no lane of the path is held at a rejoin mask. -/
def Env.unheld (e : Env) : Bool := e.c.lanes.all fun p => !e.c.path.getLsbD p.1 || p.2.held.isNone

/-- A transfer: with its targets good, every lane of the path stands at its target where it goes and after the instruction elsewhere; a link
register holds the address after the instruction (07:R153). -/
def Transfers (i : Instr) (t : Env → Nat → DWord) (go : Env → Nat → Bool) (link : Option Opnd) : Prop :=
  ∀ s e, Ready i s e → e.atEase = true → (∀ n, e.act.getLsbD n = true → go e n = true → (t e n).toNat % 4 = 0 ∧ canonical (t e n) = true) →
    ∃ u, exec i s = .next u ∧ Effect e s u (match link with | none => {} | some d => e.result2 d fun _ => e.next) ∧
      ∀ n, e.c.path.getLsbD n = true →
        (u.lane? e.x n).map (·.pc) = (s.lane? e.x n).map fun _ => if e.act.getLsbD n && go e n then t e n else e.next

/-- The scratchpad places of an instruction's active lanes. -/
def Env.spadRefs (e : Env) (s : State) (m : MemOp) (kind : AccKind) (n k : Nat) : List (Nat × SpadRef) :=
  e.lanes.filterMap fun lane => match e.spadLane s kind n lane (e.saddr m k lane) with | .ok r => some (lane, r) | .error _ => none

/-- Whether every active lane's scratchpad access goes: its checks pass, its lines are present and held by no engine, and a load meets no
poison (08:R184 to R190, 09:R203). -/
def Env.spadGoes (e : Env) (s : State) (m : MemOp) (kind : AccKind) (n k : Nat) : Bool :=
  e.lanes.all fun lane => match e.spadLane s kind n lane (e.saddr m k lane) with
    | .ok r => (s.absentLines r n).isEmpty && !s.spadHeld r n && (kind.writes || !s.spadPoisoned r n)
    | .error _ => false

/-- The translations of an instruction's active lanes where every lane passes its checks, and the state after them: walks fill TLBs and
set A and D (08:R171). -/
def Env.reaches (e : Env) (s u : State) (kind : AccKind) (n : Nat) (va : Nat → DWord) (xs : List (Nat × Xlat)) : Prop :=
  e.checkLanes s kind n va = (xs.map fun p => (p.1, .ok p.2), u)

/-- The requests of lanes at home slices: one for each lane in rising order, all of the long form that is about to enter flight. -/
def Env.requests (e : Env) (u : State) (va : Nat → DWord) (b c : Nat → List Word) (xs : List (Nat × Xlat)) : State :=
  u.setHome { u.home with q := xs.zipIdx.foldl (fun q p => q.put (u.nextId + 1 + p.2)
    { op := u.nextId, gang := e.x.gang, access := e.x.access, lane := p.1.1, va := va p.1.1, mt := p.1.2.mt, key := p.1.2.key, pa := p.1.2.pa
      sh := p.1.2.sh, b := b p.1.1, c := c p.1.1, promoting := false, promoted := false, io := u.dev.ioTick }) u.home.q }

/-- An instruction that acts at home slices issues: a request of every active lane stands there, and the long form waits for all of them. -/
def Requests (i : Instr) (m : MemOp) (k : Nat) (kind : AccKind) (n : Nat) (hbm : Bool) (b c : Env → Nat → List Word) : Prop :=
  ∀ u xs, DeliversTo i (fun s e => e.act ≠ 0#64 ∧ e.stroke = false ∧ e.reaches s u kind n (e.gaddr m k) xs ∧
      (hbm = true → ∀ p ∈ xs, p.2.mt = 0#2) ∧ (∀ p ∈ xs, p.2.mt = 2#2 → m.ord.getLsbD 1 = true → m.sco = 4#3))
    (fun e _ => e.requests u (e.gaddr m k) (b e) (c e) xs) (fun _ e => { long := true, left := e.act, data := .home })

/-- The writes of a store's lanes as they enter the write buffer (10:R221); the long form itself takes the first key. -/
def storeAll (e : Env) (m : MemOp) (n : BitVec 3) (u : State) (xs : List (Nat × Xlat)) : State :=
  let rel := if m.ord = 0#2 then none else some m.sco
  let near := rel.isSome && decide (m.sco.toNat ≤ 2)
  (xs.foldl (fun s x => e.bufferStore s u.nextId x.1 (stSize n) (e.gaddr m 2 x.1) x.2 rel (!near)) (u.setNextId (u.nextId + 1))).setNextId u.nextId

/-- The descriptor of `mld`, `mld.t` and `mso`, and the scratchpad address of its rectangle, as the lowest active lane gives them. -/
def Env.rect (e : Env) : Rect := Rect.of (e.pair 1 (e.nib.getD 0)) (e.word 2 (e.nib.getD 0))
def Env.rectBase (e : Env) : Nat := (e.word 0 (e.nib.getD 0)).toNat

/-- The byte of a row of the rectangle in the scratchpad, with its poison. -/
def Env.rectByte (e : Env) (s : State) (q : Rec) (scl : Bool) (i o : Nat) : Byte × Bool :=
  match s.spadRef e.g.group (e.rect.addr q scl e.rectBase i o) with
  | none => (0#8, false)
  | some r => s.spadByteP r

/-- Whether a rectangle with the record `q` and the places `refs` is good (11:R253, R259 to R261). -/
def Env.rectGoes (e : Env) (s : State) (scl out tr : Bool) (q : Rec) (refs : List SpadRef) : Prop :=
  ∃ k, e.nib = some k ∧ e.rect.bad (e.pair 1 k) (e.word 3 k) out tr scl = false ∧ e.recOf s (e.word 3 k).toNat = some q ∧
    e.rect.badFor q tr scl = false ∧ e.rectBase % ((e.rect.bits q scl + 7) / 8) = 0 ∧ e.rect.pitch % ((e.rect.bits q scl + 7) / 8) = 0 ∧
    (q.swz ≠ 0 → e.rectBase % 128 = 0 ∧ e.rect.pitch % 128 = 0) ∧ e.rect.fits q tr scl = true ∧
    e.spadAll s (if out then .write else .read) ((e.rect.bytes q scl e.rectBase).map (·.2.2)) = .ok refs

/-- The operands of a multiply-accumulate. -/
structure Mac where
  zero : Bool
  tile : Nat
  m : Nat
  n : Nat
  k : Nat
  arow : Nat
  akof : Nat
  brow : Nat
  bkof : Nat
  qa : Rec
  qb : Rec

/-- The operation of a multiply-accumulate. -/
def Mac.op (x : Mac) (int : Bool) : MatOp := .mac int x.zero x.tile x.m x.n x.k x.arow x.akof x.brow x.bkof x.qa x.qb

/-- Whether the checks of a multiply-accumulate pass, with the current that it demands (11:R262 to R264). -/
def Env.macGoes (e : Env) (s : State) (int : Bool) (x : Mac) (dem : Nat) : Prop :=
  ∃ k bs g, e.nib = some k ∧ (e.word 0 k).toNat % 16 = 0 ∧ e.readBlock s (e.word 0 k).toNat 16 true = .ok bs ∧
    x.m = leNat (bs.take 2) ∧ x.n = leNat ((bs.drop 2).take 2) ∧ x.k = leNat ((bs.drop 4).take 4) ∧
    x.arow = leNat ((bs.drop 8).take 2) ∧ x.akof = leNat ((bs.drop 10).take 2) ∧ x.brow = leNat ((bs.drop 12).take 2) ∧
    x.bkof = leNat ((bs.drop 14).take 2) ∧ x.zero = (e.word 1 k).getLsbD 23 ∧ x.tile = ((e.word 1 k).extractLsb' 16 7).toNat ∧
    (e.word 1 k).extractLsb' 24 8 = 0#8 ∧ (e.word 1 k).extractLsb' 14 2 = 0#2 ∧ (e.word 1 k).extractLsb' 6 2 = 0#2 ∧
    (x.m = 16 ∨ x.m = 32 ∨ x.m = 48 ∨ x.m = 64) ∧ (x.n = 32 ∨ x.n = 64 ∨ x.n = 96 ∨ x.n = 128) ∧ 0 < x.k ∧ x.k ≤ 65472 ∧
    e.recOf s ((e.word 1 k).extractLsb' 0 6).toNat = some x.qa ∧ e.recOf s ((e.word 1 k).extractLsb' 8 6).toNat = some x.qb ∧
    x.tile < e.l.kern.acct ∧ macForm x.qa.fmt x.qb.fmt = some (int, g, dem) ∧ x.k % g = 0 ∧ x.akof % g = 0 ∧ x.bkof % g = 0 ∧
    x.arow + x.m ≤ x.qa.rows ∧ x.akof + x.k ≤ x.qa.ldk ∧ x.brow + x.n ≤ x.qb.rows ∧ x.bkof + x.k ≤ x.qb.ldk

/-- Blocks that `spick` reads. -/
def Env.pickBlocks (e : Env) (k : Nat) : Nat := ((e.word 2 k).extractLsb' 0 9).toNat

/-- Whether the checks of `capo` pass: the lane, its translation, and the state after it, with the anchor's line under the KEY of its page
(15:R349, R351, R369). -/
def Env.capoGoes (e : Env) (s : State) (n : Nat) (t : Xlat) (u : State) : Prop :=
  lowest e.act = some n ∧ e.x.access = false ∧ (e.pair 0 n).toNat % 128 = 0 ∧ t.sh = true ∧ t.mt = 0#2 ∧
  (∃ x, e.g.threads.get? n = some x ∧ x.link.role = .none) ∧ e.c.stroke = none ∧
  ∃ v : State, s.xlat e.x e.core e.l.owner .write (e.pair 0 n) = (.ok t, v) ∧ v.actWaits e.x [lineOf 0#2 t.pa] = false ∧
    v.anchorPoison t.pa = false ∧ u = v.onKey t.key t.pa ∧ u.badAnchor t.pa = false ∧
    u.roomFor (ancEnt (t.pa / 128)) (homeSlice t.pa true) = true

/-- Whether an arrival of a gang completes the phase of a barrier (15:R374). -/
def State.fills (s : State) (grp gang : Nat) (pair : Bool) (n cnt : Nat) : Bool :=
  ((s.barOf grp pair n).arrive gang cnt).full (s.barGangs grp pair)

/-- Whether the entry of a barrier at which a gang arrives lies on its core, or finds a place there: the spill table is not touched (15:R371,
R372). -/
def State.barStays (s : State) (grp gang : Nat) (pair : Bool) (n cnt : Nat) : Bool :=
  !(s.barOf grp pair n).out && (match s.barCore grp pair with
    | none => true
    | some c => decide (((s.setBar grp pair n ((s.barOf grp pair n).arrive gang cnt)).barInCore c).length ≤ 32))

/-- Every gang that a barrier's phase kept waiting has had its wait ended: its long form has no lane and no work left (15:R374). -/
def State.BarWaitersGo (s t : State) (grp : Nat) (pair : Bool) (n : BitVec 4) : Prop :=
  ∀ k o p l cnt, s.op? k = some o → o.i = .bar p l cnt pair n → o.data = .bar → (s.barGangs grp pair).contains o.gang = true →
    (t.op? k).map (fun o => (o.left, o.data)) = some (0#64, .none)

/-- Whether a barrier has a place to be kept. -/
def State.pairLaunch (s : State) (grp : Nat) (pair : Bool) : Bool :=
  !pair || ((s.group? grp).bind fun r => s.launch? r.launch).isSome

/-- Whether a trap of an instruction enters its handler at once (16:R383, R384): a compute context outside a trap, a stroke and a capsule,
with nothing in flight and a permit to be had. -/
def Env.canEnter (e : Env) (s : State) : Bool :=
  !e.x.access && decide (e.c.tcg = 0#32) && s.quiet e.x && !s.noPermit e.x e.core && e.c.stroke.isNone && e.g.holder?.isNone

/-- What the entry of a trap leaves (16:R379, R384). -/
structure Entered (e : Env) (s t : State) (cause reason : Nat) (lanes : Mask) (x : BitVec 17) (d1 d2 : Word) : Prop where
  ctx : ∃ c f, t.ctx? e.x = some c ∧ c.tcg = BitVec.ofNat 32 cause ∧ c.tlm = lanes ∧
    c.d0 = BitVec.ofNat 8 reason ++ (0#1 ++ BitVec.ofNat 6 ((lowest lanes).getD 0) ++ x : BitVec 24) ∧ c.d1 = d1 ∧ c.d2 = d2 ∧ c.tra = e.cur.ip ∧
    c.path = e.c.path ∧ c.frame = some f ∧ f.path = e.c.path ∧ f.k = e.c.k ∧ f.trap.ret = e.next ∧ f.delegated = false
  lanes : ∀ n, e.c.path.getLsbD n = true →
    (t.lane? e.x n).map (fun l => (l.pc, l.ws)) = (s.lane? e.x n).map fun _ => (e.l.kern.tentry, WS.trapped)
  permit : t.hasPermit e.x = true
  mem : t.mem = s.mem
  vregs : ∀ y r n, n < 64 → t.vreg y r n = if y = e.x ∧ e.killsV r n then none else s.vreg y r n
  sregs : ∀ y r, t.sreg y r = if y = e.x ∧ e.killsS r then none else s.sreg y r
  others : ∀ y, y ≠ e.x → t.ctx? y = s.ctx? y

/-- A frame with one predicate of its copy set. -/
def Frame.putK (f : Frame) (n : Nat) (w : DWord) : Frame := { f with k := f.k.putD n w 0#64 }
/-- A context with one predicate set, in a handler also in the copy of its frame (16:R398). -/
def Ctx.putK (c : Ctx) (n : Nat) (w : DWord) : Ctx :=
  { c with k := c.k.putD n w 0#64, frame := if c.tcg = 0#32 then c.frame else c.frame.map fun f => f.putK n w }

/-- What a prefetch leaves: the lines of the lanes that pass fill the home slice, and the L1 where it is not for the slice (09:R208). -/
def Env.prefetched (e : Env) (s : State) (slice : Bool) (m : MemOp) : State :=
  let r := e.checkLanes s .read 1 (e.gaddr m 1)
  r.2.setMem ((passesOf r.1).foldl (fun t x =>
    let t := t.homeFill x.2.mt x.2.key x.2.sh x.2.pa false
    if slice then t else t.l1Fill e.core (lineOf x.2.mt x.2.pa) false) r.2.mem)

/-- What a clean leaves: the lines of its lanes are written back (09:R209). -/
def Env.cleaned (e : Env) (s : State) (toMem : Bool) (m : MemOp) : State :=
  let r := e.checkLanes s .read 1 (e.gaddr m 1)
  r.2.setMem ((passesOf r.1).foldl (fun t x => t.cleanLine e.core x.2 toMem) r.2.mem)

/-- The scopes at which the next global writes of a fence's lanes are releases (09:R218, 10:R233). -/
def Env.fencedBy (e : Env) (sco : BitVec 3) (ord : BitVec 2) (s : State) : State :=
  if ord.getLsbD 1 then s.updCtx e.x fun c =>
    { c with fenced := e.lanes.foldl (fun t n => t.put n (t.getD n [] ++ [(s.nextId, BitVec.ofNat 3 (scopeOf sco))])) c.fenced
             relTo := e.lanes.foldl (fun t n => t.putD n (max (t.getD n 0) (scopeOf sco)) 0) c.relTo } else s

/-- The state in which the items of all active lanes are accepted; none where a lane fails or waits (13:R303, R312). -/
def Env.enqueued (e : Env) (s : State) (key : Nat → Word) (k n : Nat) : Option State :=
  match e.enqueueLanes (e.pair 0) key (fun lane => e.words k n lane) e.lanes s 0#64 [] with
  | .done u ok [] => if ok = e.act then some u else none
  | _ => none

/-- The item that a lane enqueues (13:R300, R312, R314). -/
def State.itemOf (s : State) (t : Thread) (u : Dune) (entry : DWord) (key : Word) (ws : List Word) : Item :=
  { entry := entry, key := key, fam := t.fam, lin := linExtend t.lin t.cnt, tick := BitVec.ofNat 32 (s.tick u.home)
    w := ws ++ List.replicate (8 - ws.length) 0#32, serial := u.nextSerial }

/-- An enqueue by one lane to a dune that a launch outside ordered mode holds, with a slot of the store for it (13:R304). -/
def Env.enqueuesOne (e : Env) (s : State) (lane n : Nat) (key : Word) (t : Thread) (w : Launch) (u : Dune) : Prop :=
  e.lanes = [lane] ∧ badEntry (e.pair 0 lane) = false ∧ s.thread? e.x.gang lane = some t ∧ s.launch? e.g.launch = some w ∧ w.ordered = false ∧
    w.findDune (e.pair 0 lane) key = some n ∧ w.dunes.get? n = some u ∧ u.ringFault = none ∧ u.ringed = [] ∧ 0 < s.freeSlots u.home

/-- Lanes that a `refill` fills: its active lanes with finished items, and those without an item that stand at it (13:R311). -/
def Env.wants (e : Env) : List Nat := lanesOf (maskOf (e.lanes.filter (e.itemIs .finished) ++ e.noneHere))

/-- A thread whose live item is finished (13:R318). -/
def Thread.finish (t : Thread) : Thread := if t.item = .live then { t with item := .finished } else t

/-- The hold that a query of a thread requests: the cores of its scope, for the long form about to enter flight (14:R344, R345). -/
def Env.queryHold (e : Env) (s : State) (n : Nat) (r : List Byte) : Hold :=
  { launch := e.g.launch, q := some (e.x.gang, n), op := some s.nextId, rec_ := r, result := 0#64, rbuf := 0#64, tag := 0#32, flags := 0#32
    famv := 0#32, fams := ((e.g.threads.get? n).map fun t => [t.inh, t.fam]).getD [], ring := 0
    cores := s.scopeCores e.core e.g.launch (Query.ofBytes r).scope }

/-- An access in a stroke by its holder, at an offset into the capsule page, passes its checks (15:R357). -/
structure Env.strokes (e : Env) (s : State) (kind : AccKind) (m : MemOp) (n lane o : Nat) (k : Stroke) (t : Thread) : Prop where
  on : e.stroke = true ∧ e.c.stroke = some k
  nib : e.nib = some lane
  thread : e.g.threads.get? lane = some t
  inside : o < 4096 ∧ o / 128 ≠ t.link.anc % 4096 / 128
  aligned : o % n = 0
  relaxed : m.ord = 0#2
  clean : kind.writes = true ∨ s.mem.poisoned 0#2 (t.link.anc / 4096 * 4096 + o) = false

/-- The physical and the virtual address of an offset into the capsule page (15:R357). -/
def Thread.pagePa (t : Thread) (o : Nat) : Nat := t.link.anc / 4096 * 4096 + o
def Thread.pageVa (t : Thread) (o : Nat) : DWord := (t.link.va &&& ~~~0xFFF#64) + BitVec.ofNat 64 o

/-- Element `i` of block `q` of a tile as `mqnt` reads it, an FP32 pattern (11:R271). -/
def Group.mqElem (g : Group) (tile : Nat) (col : Bool) (q i : Nat) : Nat := (g.tileElem tile (if col then 128 * i + q else 64 * q + i)).toNat

/-- Its code over `S·(b + 1)/256`, where the super-scale S is the pattern `scale`, and whether the code's value is zero (11:R272). -/
def Group.mqCode (g : Group) (tile : Nat) (e4 sat col : Bool) (scale b q i : Nat) : Nat × Bool :=
  match Fmt.f32.decode scale with
  | .fin _ m e => quantElem e4 sat (Fmt.f32.decode (g.mqElem tile col q i)) (m * (b + 1)) (e - 8)
  | _ => (0, false)

/-- The statistics of block `q`: AMAX, UFC and NANC (11:R272). -/
def Group.mqStats (g : Group) (tile : Nat) (e4 sat col : Bool) (scale b q : Nat) : Nat :=
  let x (i : Nat) : Nat := g.mqElem tile col q i
  let nan (i : Nat) : Bool := (Fmt.f32.decode (x i)).isNan
  ((List.range 64).filter fun i => !nan i).foldl (fun a i => max a (x i % 2 ^ 31)) 0 +
    2 ^ 32 * ((List.range 64).countP fun i => (Fmt.f32.decode (x i)).isFin && decide (x i % 2 ^ 31 ≠ 0) && (g.mqCode tile e4 sat col scale b q i).2) +
    2 ^ 40 * (List.range 64).countP nan

/-! ### What events leave -/

/-- A lane of a long form receives words in its destination: an s register takes those of the lowest lane of the instruction (03:R71). -/
def Gets (s u : State) (o : Op) (lane : Nat) (d : Opnd) (ws : List Word) : Prop :=
  match d with
  | .v b => ∀ j, j < ws.length → u.vreg ⟨o.gang, o.access⟩ (b.toNat + j) lane = some ⟨ws.getD j 0#32, false, false⟩
  | .s b => lowest (o.cur.done ||| o.lanes) = some lane → ∀ j, j < ws.length → u.sreg ⟨o.gang, o.access⟩ (b.val + j) = some ⟨ws.getD j 0#32, false, false⟩
  | .q b => ((s.gang? o.gang).any fun g => g.queues.has b.toNat) = true →
      u.queue o.gang b.toNat lane = s.queue o.gang b.toNat lane ++ [.val (ws.headD 0#32)]
  | .c _ => True

/-- The pending entry of a request has become `v`; every other entry and every register is as before. -/
structure State.Filled (s u : State) (g q lane req : Nat) (v : QEnt) : Prop where
  queues : ∀ j p n, u.queue j p n =
    if j = g ∧ p = q ∧ n = lane then (s.queue j p n).map fun e => if e.isReq req then v else e else s.queue j p n
  vregs : ∀ y r k, u.vreg y r k = s.vreg y r k
  sregs : ∀ y r, u.sreg y r = s.sreg y r

/-- The record of a line as the act of a notify leaves it, a release of its own or after a release fence (10:R233). -/
def State.notified (s : State) (k : Nat) (o : Op) (r : Req) : State :=
  let own := if (Env.orderOf o.i).2.1 then some (Env.orderOf o.i).2.2 else none
  match s.relScope ⟨o.gang, o.access⟩ r.lane k own with
  | none => s
  | some sco =>
    let w := s.reqWriter o r.lane
    let c := s.mem.relOf (lineOf r.mt r.pa)
    s.setMem (s.mem.setRel (lineOf r.mt r.pa) { c with v := true, rsco := sco, rcore := w.rcore, rlnch := w.rlnch, rgid := w.rgid })

/-- A waiter on an address whose wake reads it at once: its gang is resident, its lane is live and not stopped, the line holds no error, and an
acquire passes its check (09:R215, R217). -/
structure Wakes (s : State) (pa : Nat) (w : Waiter) (o : Op) : Prop where
  op : s.op? w.op = some o
  own : o.gang = w.gang ∧ o.access = w.access
  form : ∃ p l q d m b, o.i = .waitv p l q d m b ∧ w.words = if q then 2 else 1
  here : (s.coreOf w.gang).isSome = true
  live : s.laneLive ⟨w.gang, w.access⟩ w.lane = true ∧ s.laneStopped ⟨w.gang, w.access⟩ w.lane = false ∧ w.lane < 64
  clean : s.mem.poisoned 0#2 pa = false
  passes : match s.acquireAct o w.lane w.va 0#2 pa with | .pass => True | _ => False

/-- Request records of a core in use once a gang and its long forms are on it (12:R277, R289). -/
def State.recordsBack (s : State) (n core : Nat) : Nat :=
  ((s.updGang n fun g => { g with core := some core }).setOps
    (s.ops.mapVal fun _ o => if o.gang = n then { o with core := core } else o)).queueRecords core

/-- No entry and no record of a monitor lies in the spill table, and one more of each finds its place (15:R371). -/
def State.unspilled (s : State) : Prop := s.home.spilled = [] ∧ s.home.lastAct.length < 64 ∧ ∀ n, s.home.records n < 16

/-- The bytes of global memory after a write: `n` holds `bs` from a physical address on, written under a KEY, and otherwise what `m` holds. -/
structure Stored (m n : MemSys) (mt : BitVec 2) (key : BitVec 10) (pa : Nat) (bs : List Byte) : Prop where
  bytes : n.bytes = (m.writeBytes mt key pa bs).bytes
  keys : n.lineKey = (m.writeBytes mt key pa bs).lineKey
  training : n.training = m.training
  areas : n.areas = m.areas
  keyPairs : n.keyPairs = m.keyPairs

/-- General registers, scratchpads, queues and capsule registers are as they were. -/
structure Quiet (s t : State) : Prop where
  vregs : ∀ y r k, t.vreg y r k = s.vreg y r k
  sregs : ∀ y r, t.sreg y r = s.sreg y r
  cregs : ∀ g n r, t.creg g n r = s.creg g n r
  queues : ∀ g q n, t.queue g q n = s.queue g q n

end Sys2Proof.Machine
end

