-- ==== Sys2Proof/Certificates/Slice0/Obligations.lean ====
section
/-! DEFINITION. The statements about the machine: what each says is its docstring, the rules of the specification it rests on by section and number. -/

open Sys2Proof Sys2Proof.Machine

/-! ### Arithmetic: what an instruction delivers, and that it changes nothing else -/

/-- 05:R111. `add`, `sub`, `mul`, `mulhi`, `mad`, `madhi`, `min` and `max` deliver the exact integer result of their operands in every active
lane, clamped with SAT under SAT and wrapped otherwise; registers outside the destination, other flags, memory and every other piece of
state stay (02:R51, 03:R74). -/
def Obligations.IntegerArithmetic : Prop :=
  ∀ p u d a b,
    Delivers (.add p u d a b) (fun _ e => e.result d 1 fun k => deliver32 e.sat u (intOf u (e.word 0 k) + intOf u (e.ri b 1 k))) ∧
    Delivers (.sub p u d a b) (fun _ e => e.result d 1 fun k => deliver32 e.sat u (intOf u (e.word 0 k) - intOf u (e.ri b 1 k))) ∧
    Delivers (.mul p u d a b) (fun _ e => e.result d 1 fun k => deliver32 e.sat u (intOf u (e.word 0 k) * intOf u (e.ri b 1 k))) ∧
    Delivers (.mulhi p u d a b) (fun _ e => e.result1 d fun k => BitVec.ofInt 32 ((intOf u (e.word 0 k) * intOf u (e.ri b 1 k)) / 2 ^ 32)) ∧
    Delivers (.mad p u d a b) (fun _ e => e.result d 1 fun k =>
      deliver32 e.sat u (intOf u (e.word 0 k) * intOf u (e.ri b 1 k) + intOf u (e.addend k))) ∧
    Delivers (.madhi p u d a b) (fun _ e => e.result1 d fun k =>
      BitVec.ofInt 32 ((intOf u (e.word 0 k) * intOf u (e.ri b 1 k) + intOf u (e.addend k)) / 2 ^ 32)) ∧
    Delivers (.min p u d a b) (fun _ e => e.result1 d fun k =>
      if intOf u (e.word 0 k) ≤ intOf u (e.ri b 1 k) then e.word 0 k else e.ri b 1 k) ∧
    Delivers (.max p u d a b) (fun _ e => e.result1 d fun k =>
      if intOf u (e.word 0 k) ≥ intOf u (e.ri b 1 k) then e.word 0 k else e.ri b 1 k)

/-- 05:R112, R113. `neg` and `abs` deliver the negated value and the magnitude of a word or a pair, clamped under SAT; `lea` the sum of a pair
and its second operand, extended. -/
def Obligations.SignAndAddress : Prop :=
  (∀ p d a,
    Delivers (.neg p false d a) (fun _ e => e.result d 1 fun k => deliver32 e.sat false (-(e.word 0 k).toInt)) ∧
    Delivers (.neg p true d a) (fun _ e => e.result d 2 fun k => deliver64 e.sat (-(e.pair 0 k).toInt)) ∧
    Delivers (.abs p false d a) (fun _ e => e.result d 1 fun k => deliver32 e.sat false (e.word 0 k).toInt.natAbs) ∧
    Delivers (.abs p true d a) (fun _ e => e.result d 2 fun k => deliver64 e.sat (e.pair 0 k).toInt.natAbs)) ∧
  (∀ p d a x, Delivers (.lea p d a (.i32 x)) (fun _ e => e.result2 d fun k => e.pair 0 k + (e.word 1 k).signExtend 64)) ∧
  (∀ p d a x, Delivers (.lea p d a (.n32 x)) (fun _ e => e.result2 d fun k => e.pair 0 k + (e.word 1 k).setWidth 64)) ∧
  (∀ p d a x, Delivers (.lea p d a (.i64 x)) (fun _ e => e.result2 d fun k => e.pair 0 k + e.pair 1 k)) ∧
  (∀ p d a i, Delivers (.lea p d a (.imm i)) (fun _ e => e.result2 d fun k => e.pair 0 k + Env.immOf p 8 i))

/-- 05:R114, R115. The shifts deliver A shifted by the whole of B, so that 32 or more fill the word with zeros or with the sign; `rotl` rotates
by B mod 32; the logic instructions combine the words bit by bit. -/
def Obligations.ShiftsAndLogic : Prop :=
  ∀ p d a b,
    Delivers (.shl p d a b) (fun _ e => e.result1 d fun k => e.word 0 k <<< e.ri b 1 k) ∧
    Delivers (.shr p d a b) (fun _ e => e.result1 d fun k => e.word 0 k >>> e.ri b 1 k) ∧
    Delivers (.sra p d a b) (fun _ e => e.result1 d fun k => (e.word 0 k).sshiftRight (e.ri b 1 k).toNat) ∧
    Delivers (.rotl p d a b) (fun _ e => e.result1 d fun k => (e.word 0 k).rotateLeft ((e.ri b 1 k).toNat % 32)) ∧
    Delivers (.and p d a b) (fun _ e => e.result1 d fun k => e.word 0 k &&& e.ri b 1 k) ∧
    Delivers (.or p d a b) (fun _ e => e.result1 d fun k => e.word 0 k ||| e.ri b 1 k) ∧
    Delivers (.xor p d a b) (fun _ e => e.result1 d fun k => e.word 0 k ^^^ e.ri b 1 k) ∧
    Delivers (.andn p d a b) (fun _ e => e.result1 d fun k => e.word 0 k &&& ~~~e.ri b 1 k) ∧
    Delivers (.not p d a) (fun _ e => e.result1 d fun k => ~~~e.word 0 k)

/-- 05:R116, R117. The bit counts, the reversal, and the extraction and insertion of the field that B gives: position B[4:0], width
min(B[10:5], 32, 32 − position), signed where B[11]. -/
def Obligations.BitFields : Prop :=
  ∀ p d a b,
    Delivers (.clz p d a) (fun _ e => e.result1 d fun k => BitVec.ofNat 32 (leadingZeros (e.word 0 k))) ∧
    Delivers (.ctz p d a) (fun _ e => e.result1 d fun k => BitVec.ofNat 32 (trailingZeros (e.word 0 k))) ∧
    Delivers (.popc p d a) (fun _ e => e.result1 d fun k => BitVec.ofNat 32 ((List.range 32).countP (e.word 0 k).getLsbD)) ∧
    Delivers (.brev p d a) (fun _ e => e.result1 d fun k => wordOf fun i => (e.word 0 k).getLsbD (31 - i)) ∧
    Delivers (.bfx p d a b) (fun _ e => e.result1 d fun k =>
      let f := fieldOf (e.word 1 k)
      wordOf fun i => if i < f.2 then (e.word 0 k).getLsbD (f.1 + i)
        else (e.word 1 k).getLsbD 11 && decide (0 < f.2) && (e.word 0 k).getLsbD (f.1 + f.2 - 1)) ∧
    Delivers (.bfi p d a b) (fun _ e => e.result1 d fun k =>
      let f := fieldOf (e.word 1 k)
      wordOf fun i => if f.1 ≤ i ∧ i < f.1 + f.2 then (e.word 0 k).getLsbD (i - f.1) else (e.addend k).getLsbD i)

/-- 05:R118 to R120. `cmp` sets its predicate bit by its condition in every active lane; `sel` writes its source in the active lanes that pass
its test; `mov` and `li` write the words of A and of the immediate. -/
def Obligations.CompareSelectMove : Prop :=
  (∀ p u c n a b, Delivers (.cmp p u c n a b) fun _ e =>
    { pred := some (n, fun k => cmpCond c (intOf u (e.word 0 k)) (intOf u (e.ri b 1 k)) (e.word 0 k) (e.ri b 1 k)) }) ∧
  (∀ p d a x n, Delivers (.sel p d a x n) fun _ e =>
    { dst := some (d, 1), lanes := e.lanes.filter fun k => (e.c.k.getD n.toNat 0#64).getLsbD k ^^ x, vals := fun k => [e.word 0 k] }) ∧
  (∀ p d x n i, Delivers (.selImm p d x n i) fun _ e =>
    { dst := some (d, 1), lanes := e.lanes.filter fun k => (e.c.k.getD n.toNat 0#64).getLsbD k ^^ x
      vals := fun _ => [(Env.immOf p 8 i).setWidth 32] }) ∧
  (∀ p d a, Delivers (.mov p false d a) fun _ e => e.result1 d fun k => e.word 0 k) ∧
  (∀ p d a, Delivers (.mov p true d a) fun _ e => e.result2 d fun k => e.pair 0 k) ∧
  (∀ p d i, Delivers (.li p false d i) fun _ e => e.result1 d fun _ => (Env.immOf p 8 i).setWidth 32) ∧
  (∀ p d i, Delivers (.li p true d i) fun _ e => e.result2 d fun _ => Env.immOf p 8 i)

/-- 05:R121 to R126. `cvt` converts every element that its form gives; `req` scales, rounds, shifts by the zero point and clamps; `pack4` and
`unpack4` narrow and widen nibbles; `dot4` adds four products of bytes to D. -/
def Obligations.ConversionsAndBytes : Prop :=
  (∀ p pk d a t sc, Delivers (.cvt p pk d a t sc) fun _ e => e.result d (cvtShape pk t sc).2 fun k =>
    let rs := (cvtSrc pk (Ty.ofCode sc) (e.words 0 (cvtShape pk t sc).1 k)).map (cvtElem e.modeOpt e.sat (Ty.ofCode sc) (Ty.ofCode t))
    (cvtDst pk (Ty.ofCode t) (rs.map (·.1)), rs.foldl (fun f r => f ||| r.2) 0#32)) ∧
  (∀ p w d a b, Delivers (.req p w d a b) fun _ e => e.result d 1 fun k =>
    let ctl := e.val 1 1 k
    let x := (e.word 0 k).toInt * (e.val 1 0 k).toInt
    let n := 2 ^ (31 + (ctl.extractLsb' 0 6).toNat)
    let y := roundInt (e.mode .rne) (decide (x < 0)) x.natAbs n + (ctl.extractLsb' 16 8).toInt
    let lo : Int := if w then -8 else -128
    let hi : Int := if w then 7 else 127
    ([BitVec.ofInt 32 (max lo (min hi y))],
     (if x.natAbs % n = 0 then 0#32 else fNX) ||| if lo ≤ y ∧ y ≤ hi then 0#32 else fSAT)) ∧
  (∀ p d a b, Delivers (.pack4 p d a b) fun _ e => e.result d 1 fun k =>
    ([(pack4W e.sat (e.word 0 k) (e.word 1 k)).1], (pack4W e.sat (e.word 0 k) (e.word 1 k)).2)) ∧
  (∀ p q d a, Delivers (.unpack4 p q d a) fun _ e => e.result d 2 fun k => ([unpack4W q (e.word 0 k) 0, unpack4W q (e.word 0 k) 1], 0#32)) ∧
  (∀ p n d a b, Delivers (.dot4 p n d a b) fun _ e => e.result d 1 fun k =>
    deliver32 e.sat false ((e.addend k).toInt + dot4Sum n (e.word 0 k) (e.word 1 k)))

/-- 06:R130. The floating-point arithmetic instructions deliver the exact result of their operands rounded once in the mode in force, with the
flags of the operation and of the rounding. -/
def Obligations.FloatArithmetic : Prop :=
  ∀ p d a b,
    Delivers (.fadd p d a b) (fun _ e => e.result d 1 fun k => e.rounded b ((e.fval b k).1.add (e.mode .rne) (e.fval b k).2)) ∧
    Delivers (.fsub p d a b) (fun _ e => e.result d 1 fun k => e.rounded b ((e.fval b k).1.add (e.mode .rne) (e.fval b k).2.neg)) ∧
    Delivers (.fmul p d a b) (fun _ e => e.result d 1 fun k => e.rounded b ((e.fval b k).1.mul (e.fval b k).2)) ∧
    Delivers (.ffma p d a b) (fun _ e => e.result d 1 fun k =>
      e.rounded b (Ext.fma (e.mode .rne) (e.fval b k).1 (e.fval b k).2 (Fmt.decode (FSrc.fmt b) (e.addend k).toNat)))

/-- 06:R131 to R134. `fmin` and `fmax` keep the pattern of an operand, `fabs` and `fneg` change the sign bit, `fcmp` and `fcls` set their
predicate bit in every active lane. -/
def Obligations.FloatSelectCompare : Prop :=
  (∀ p d a b,
    Delivers (.fmin p d a b) (fun _ e => e.result d 1 fun k =>
      let r := (FSrc.fmt b).minmax false ((e.word 0 k).toNat % 2 ^ (FSrc.fmt b).bits) (e.fsrc b k % 2 ^ (FSrc.fmt b).bits)
      ([BitVec.ofNat 32 r.1], r.2)) ∧
    Delivers (.fmax p d a b) (fun _ e => e.result d 1 fun k =>
      let r := (FSrc.fmt b).minmax true ((e.word 0 k).toNat % 2 ^ (FSrc.fmt b).bits) (e.fsrc b k % 2 ^ (FSrc.fmt b).bits)
      ([BitVec.ofNat 32 r.1], r.2))) ∧
  (∀ p t d a,
    Delivers (.fabs p t d a) (fun _ e => e.result d 1 fun k =>
      ([(signChange (FTy.fmt t) (fun _ => false) (e.word 0 k)).1], (signChange (FTy.fmt t) (fun _ => false) (e.word 0 k)).2)) ∧
    Delivers (.fneg p t d a) (fun _ e => e.result d 1 fun k =>
      ([(signChange (FTy.fmt t) (fun n => !n) (e.word 0 k)).1], (signChange (FTy.fmt t) (fun n => !n) (e.word 0 k)).2))) ∧
  (∀ p c n a b, Delivers (.fcmp p c n a b) fun _ e =>
    { pred := some (n, fun k => (fcmpCond c (e.fval b k).1 (e.fval b k).2).1)
      flags := e.lanes.foldl (fun f k => f ||| (fcmpCond c (e.fval b k).1 (e.fval b k).2).2) 0#32 }) ∧
  (∀ p y n a b, Delivers (.fcls p y n a b) fun _ e =>
    { pred := some (n, fun k => (e.ri b 1 k).getLsbD ((fclsFmt y).class (e.word 0 k).toNat)) })

/-- 06:R135 to R137. The special functions deliver in every active lane the pattern of their value with its flags. Which result within the bounds
of 06:R135, and which sign of a zero, `rsq`, `exp2`, `log2`, `sin`, `cos` and `tanh` give is the model's choice of a free value (log 17, DESIGN
CHOICE), as is that `rcp` rounds in the mode where it could also be odd (log 93, DEDUCED). -/
def Obligations.SpecialFunctions : Prop :=
  ∀ p d a,
    Delivers (.rcp p d a) (fun _ e => e.special1 d fun w => rcpFn (e.mode .rne) (Fmt.f32.decode w.toNat)) ∧
    Delivers (.rsq p d a) (fun _ e => e.special1 d rsqFn) ∧
    Delivers (.sqrt p d a) (fun _ e => e.special1 d fun w => sqrtFn (e.mode .rne) (Fmt.f32.decode w.toNat)) ∧
    Delivers (.exp2 p d a) (fun _ e => e.special1 d exp2Fn) ∧
    Delivers (.log2 p d a) (fun _ e => e.special1 d log2Fn) ∧
    Delivers (.sin p d a) (fun _ e => e.special1 d sinFn) ∧
    Delivers (.cos p d a) (fun _ e => e.special1 d cosFn) ∧
    Delivers (.tanh p d a) (fun _ e => e.special1 d tanhFn)

/-- 06:R141, R142, R147. A shuffle delivers A of the source lane, `vote` the same bit in every active lane, a ballot the mask of the active
lanes that pass; `bcast` delivers A of a lane, and nothing where that lane is not active. -/
def Obligations.LanesTogether : Prop :=
  (∀ p d a b,
    Delivers (.shflIdx p d a b) (fun _ e => e.result1 d fun k => e.word 0 (e.shflSource k)) ∧
    Delivers (.shflUp p d a b) (fun _ e => e.result1 d fun k => e.word 0 (e.shflSource k)) ∧
    Delivers (.shflDown p d a b) (fun _ e => e.result1 d fun k => e.word 0 (e.shflSource k)) ∧
    Delivers (.shflXor p d a b) (fun _ e => e.result1 d fun k => e.word 0 (e.shflSource k))) ∧
  (∀ p m n x k, Delivers (.vote p m n x k) fun _ e => { pred := some (n, fun _ => voteResult m (e.voteMask x k) e.act) }) ∧
  (∀ p d x k, Delivers (.voteBallot p d x k) fun _ e => e.result2 d fun _ => e.voteMask x k) ∧
  (∀ p d a n, DeliversTo (.bcast p d a n) (fun _ e => e.act.getLsbD n.toNat = true) (fun _ s => s)
    fun _ e => e.result1 d fun _ => e.word 0 n.toNat) ∧
  (∀ p d a n, DeliversTo (.bcast p d a n) (fun _ e => e.act.getLsbD n.toNat = false) (fun _ s => s) fun _ _ => {}) ∧
  (∀ p d a, Delivers (.bcastNib p d a) fun _ e => e.result1 d fun _ => e.word 0 (e.nib.getD 0))

/-- 06:R143 to R146. `red` delivers the combination of all positions to every active lane, `scan` that of the positions before a lane, with
itself where inclusive; with no active lane `red` writes the identity to an s register and nothing to a v register, `scan` writes nothing, and
both set EMPTY. -/
def Obligations.ReduceAndScan : Prop :=
  (∀ p t o d a, DeliversTo (.red p t o d a) (fun _ e => e.act ≠ 0#64) (fun _ s => s)
    fun _ e => e.result d 1 fun _ => ([(e.fold t o e.width).1], (e.fold t o e.width).2)) ∧
  (∀ p t x o d a, DeliversTo (.scan p t x o d a) (fun _ e => e.act ≠ 0#64) (fun _ s => s)
    fun _ e => e.result d 1 fun k => ([(e.fold t o (if x then k else k + 1)).1], (e.fold t o (if x then k else k + 1)).2)) ∧
  (∀ p t x o d a, DeliversTo (.scan p t x o d a) (fun _ e => e.act = 0#64) (fun _ s => s) fun _ _ => { flags := fEMPTY }) ∧
  (∀ p t o b a, DeliversTo (.red p t o (.v b) a) (fun _ e => e.act = 0#64) (fun _ s => s) fun _ _ => { flags := fEMPTY }) ∧
  (∀ p t o b a s e, Ready (.red p t o (.s b) a) s e → e.act = 0#64 → ∃ u, exec (.red p t o (.s b) a) s = .next u ∧
    (∀ r, u.sreg e.x r = if r = b.val then some ⟨redIdentity t o, false, false⟩ else s.sreg e.x r) ∧
    (∀ r n, u.vreg e.x r n = s.vreg e.x r n) ∧ u.gst e.x = (s.gst e.x).map (· ||| fEMPTY) ∧ u.mem = s.mem)

/-! ### Random numbers, transfers, paths and waits -/

/-- 06:R138, R139. `rng` delivers the mixed word of its key and counter in every active lane, and advances the counter of those threads. The seed
and the identity that it takes are those of the launch and the thread, but for an error in the register that holds one (03:R79). -/
def Obligations.RandomNumbers : Prop :=
  (∀ (c : Ctx) n k own, c.spoiled = [] → c.seen n k own = own) ∧
  (∀ (s : State) x k, (∀ c, s.ctx? x = some c → c.spoiled = []) → s.idnSeen x k = s.idn x.gang k x.access) ∧
  ∀ p f d, DeliversTo (.rng p f d) (fun _ _ => True)
    (fun e s => e.lanes.foldl (fun s k => s.updThread e.x.gang k fun t => { t with rngc := t.rngc + 1#64 }) s)
    fun s e => e.result1 d fun k =>
      let z := rngmix (e.c.seen 0x0B k e.l.seed ^^^ kidOf e.l.ordered (s.idnSeen e.x k) (((e.g.threads.get? k).map (·.clin)).getD 0#96))
        (((e.g.threads.get? k).map (·.rngc)).getD 0#64)
      if (e.g.threads.get? k).isNone then rngWord f 0#64 else rngWord f z

/-- 07:R148 to R150, R153, R154. The transfers: `br` and `call` go in every lane, `bk` by a predicate, `bs` by a comparison of A with zero, all
to the displacement from the instruction word; `ret` and `jmpr` go to the pair A; `call` and `jmpr.l` link. -/
def Obligations.TransfersOfControl : Prop :=
  (∀ p i, Transfers (.br p i) (fun e _ => e.disp i) (fun _ _ => true) none) ∧
  (∀ p m x n i, Transfers (.bk p m x n i) (fun e _ => e.disp i)
    (fun e k => bkGo m (maskOf (e.lanes.filter (e.selTest x n))) e.act k) none) ∧
  (∀ p c a i, Transfers (.bs p c a i) (fun e _ => e.disp i) (fun e k => bsCond c (e.word 0 k).toInt) none) ∧
  (∀ p d i, Transfers (.call p d i) (fun e _ => e.disp i) (fun _ _ => true) (some d)) ∧
  (∀ p a, Transfers (.ret p a) (fun e k => e.pair 0 k) (fun _ _ => true) none) ∧
  (∀ p d a, Transfers (.jmpr p d a) (fun e k => e.pair 0 k) (fun _ _ => true) d)

/-- 07:R155. `exit` outside a stroke, of threads that take no item and wait for nothing: every active lane ends, with its thread in a compute
context; memory, other gangs' registers and the registers of the lanes that stay are as before. -/
def Obligations.ExitEndsLanes : Prop :=
  ∀ p s e, Ready (.exit p) s e → e.holder = none →
    (∀ n, e.act.getLsbD n = true → ∀ t, e.g.threads.get? n = some t → t.item = .no ∧ t.link.role ≠ .contender) →
    ∃ u, exec (.exit p) s = .next u ∧
      (∀ n, e.act.getLsbD n = true → u.lane? e.x n = none ∧ (e.x.access = false → u.thread? e.x.gang n = none)) ∧
      u.mem = s.mem ∧
      (∀ y r n, y.gang ≠ e.x.gang → u.vreg y r n = s.vreg y r n ∧ u.sreg y r = s.sreg y r) ∧
      (∀ r n, e.act.getLsbD n = false → (e.c.lanes.has n = true) → u.vreg e.x r n = s.vreg e.x r n ∧ u.sreg e.x r = s.sreg e.x r)

/-- 07:R156, R157. `enrol` adds the active lanes to a rejoin mask, `strike` takes them out and tests it, and neither changes anything else;
`park` holds the enrolled lanes at the mask, tests it, and leaves every lane of the path after the instruction. -/
def Obligations.RejoinMasks : Prop :=
  (∀ p n, DeliversTo (.enrol p n) (fun _ _ => True)
    (fun e s => s.updCtx e.x fun c => { c with j := c.j.putD n.toNat (c.jmask n.toNat ||| e.act) 0#64 }) fun _ _ => {}) ∧
  (∀ p n, DeliversTo (.strike p n) (fun _ e => e.unheld = true)
    (fun e s => s.updCtx e.x fun c => { c with j := c.j.putD n.toNat (c.jmask n.toNat &&& ~~~e.act) 0#64 }.testRejoin n.toNat) fun _ _ => {}) ∧
  (∀ p n s e, Ready (.park p n) s e → e.atEase = true → e.unheld = true → ∃ t, exec (.park p n) s = .next t ∧
    Effect e (s.updCtx e.x fun c =>
      (c.updLanes (e.act &&& c.jmask n.toNat) fun l => { l with ws := .parked, held := some n }).testRejoin n.toNat) t {} ∧
    ∀ k, e.c.path.getLsbD k = true → (t.lane? e.x k).map (·.pc) = (s.lane? e.x k).map fun _ => e.next)

/-- 07:R163, R164, 02:R58. `yield`, `nop`, and a `wait` whose conditions hold change nothing but the place of the path. -/
def Obligations.WaitsPass : Prop :=
  (∀ p, Delivers (.yld p) fun _ _ => {}) ∧
  (∀ p, Delivers (.nop p) fun _ _ => {}) ∧
  (∀ p all fence sb, DeliversTo (.wait p all fence sb) (fun s e => e.waitMet s fence sb = true) (fun _ s => s) fun _ _ => {})

/-! ### Memory -/

/-- 09:R199, 10:R221, R222. A relaxed load outside a stroke whose lanes pass their checks, from device memory, with no line poisoned or owned
by an engine and no earlier access of a lane to its bytes still to be performed, delivers the bytes at each lane's address as the agents of
its core's pair read them; every byte of memory reads as the checks leave it, and the lines and records that it meets are noted. An acquire
load, and a load from host or peer memory, with request records free, places a request of every active lane and delivers nothing yet. That a
relaxed load of device memory reads its bytes and writes its destination at its issue is the model's reading (logs 13 and 30, DEDUCED). -/
def Obligations.LoadsRead : Prop :=
  ∀ p l n d m u xs,
    (m.ord = 0#2 → DeliversTo (.ld p l n d m)
      (fun s e => e.act ≠ 0#64 ∧ e.stroke = false ∧ e.reaches s u .read (ldSize n) (e.gaddr m 1) xs ∧
        u.queueRecords e.core + xs.length ≤ 2048 ∧ ∀ x ∈ xs, x.2.mt = 0#2 ∧ u.readPoison e.core (ldSize n) x.2 = false ∧ u.lineOwned (lineOf x.2.mt x.2.pa) = false ∧
          u.pendingOver e.x x.1 u.nextId x.2.mt x.2.pa (ldSize n) = false ∧
          e.g.queueLoadOver e.x.access x.1 u.nextId (e.gaddr m 1 x.1) (ldSize n) = false)
      (fun e _ => xs.foldl (fun u x => (u.readLane e.x e.core e.g.launch x.1 (ldSize n) (e.gaddr m 1 x.1) x.2).2) u)
      (fun _ e => e.longResult d (ldWords n) fun k => match xs.find? fun x => decide (x.1 = k) with
        | none => []
        | some x => extendBytes (ldSigned n) (u.mem.pairBytes e.core x.2.mt x.2.key x.2.pa (ldSize n)))) ∧
    DeliversTo (.ld p l n d m)
      (fun s e => e.act ≠ 0#64 ∧ e.stroke = false ∧ e.reaches s u .read (ldSize n) (e.gaddr m 1) xs ∧
        (m.ord ≠ 0#2 ∨ ∀ x ∈ xs, x.2.mt ≠ 0#2) ∧ u.queueRecords e.core + xs.length ≤ 2048)
      (fun e _ => e.requests u (e.gaddr m 1) (fun _ => []) (fun _ => []) xs) (fun _ e => { long := true, left := e.act, data := .home }) ∧
    ∀ (e : Env) mt key pa, (xs.foldl (fun u x => (u.readLane e.x e.core e.g.launch x.1 (ldSize n) (e.gaddr m 1 x.1) x.2).2) u).byte mt key pa =
      u.byte mt key pa

/-- 09:R200, 10:R221. A store outside a stroke whose lanes pass their checks, to pages with SH 0, enters the write buffer of its core lane by
lane, with the bytes of its B operand at each lane's address; every byte of memory reads as the checks leave it until the buffer drains. -/
def Obligations.StoresAreBuffered : Prop :=
  ∀ p l n m b u xs,
    DeliversTo (.st p l n m b)
      (fun s e => e.act ≠ 0#64 ∧ e.stroke = false ∧ e.reaches s u .write (stSize n) (e.gaddr m 2) xs ∧
        ∀ x ∈ xs, x.2.sh = false ∧ (x.2.mt = 2#2 → m.ord = 0#2 ∨ m.sco = 4#3) ∧
          u.pendingOver e.x x.1 u.nextId x.2.mt x.2.pa (stSize n) = false)
      (fun e _ => storeAll e m n u xs)
      (fun _ e => { long := true, left := if m.ord ≠ 0#2 ∧ m.sco.toNat ≤ 2 then 0#64 else e.act
                    data := if m.ord ≠ 0#2 ∧ m.sco.toNat ≤ 2 then .none else .store }) ∧
    (∀ e mt key pa, (storeAll e m n u xs).byte mt key pa = u.byte mt key pa) ∧
    ∀ e, (∀ k ∈ u.mem.wbuf.keys, k ≤ u.nextId) →
      (storeAll e m n u xs).mem.wbuf.vals.map (fun w => (w.lane, w.mt, w.key, w.pa, w.bytes)) =
        u.mem.wbuf.vals.map (fun w => (w.lane, w.mt, w.key, w.pa, w.bytes)) ++
          xs.map fun x => (x.1, x.2.mt, x.2.key, x.2.pa, e.storeBytes 1 (stSize n) x.1)

/-- 09:R210 to R217. Atomics, `acas`, `ared`, `waitv` and the notifies place a request of every active lane at its home slice, with the words of
their operands; no byte of memory and no destination changes until those acts. -/
def Obligations.HomeRequests : Prop :=
  (∀ p l n op d m b, Requests (.atom p l n op d m b) m 0 .rmw (atomForm n op).1 false (fun e k => e.words 1 ((atomForm n op).1 / 4) k) (fun _ _ => [])) ∧
  (∀ p l w d m b c, Requests (.acas p l w d m b c) m 0 .rmw (if w then 8 else 4) false
    (fun e k => e.words 1 (if w then 2 else 1) k) (fun e k => e.words 2 (if w then 2 else 1) k)) ∧
  (∀ p l f op m b, Requests (.ared p l f op m b) m 0 .rmw (aredForm f op).1 false (fun e k => e.words 1 ((aredForm f op).1 / 4) k) (fun _ _ => [])) ∧
  (∀ p l w d m b, Requests (.waitv p l w d m b) m 0 .waitv (if w then 8 else 4) true (fun e k => e.words 1 (if w then 2 else 1) k) (fun _ _ => [])) ∧
  (∀ p l m, Requests (.notify1 p l m) m 0 .read 4 true (fun _ _ => []) (fun _ _ => [])) ∧
  (∀ p l m, Requests (.notifyall p l m) m 0 .read 4 true (fun _ _ => []) (fun _ _ => []))

/-- 09:R202, 12:R277, R281. A load into a queue with room in every active lane and request records free gives each of those lanes one pending
entry with its address, size and sign, behind the entries that stay; no other queue and no other lane gains an entry, and those that it
names as sources lose the entries popped. It counts in its scoreboard counter; memory, home slices and every other register stay. -/
def Obligations.QueueLoadsIssue : Prop :=
  ∀ p l n q m s e, Ready (.ldToQueue p l n q m) s e → e.act ≠ 0#64 →
    (∀ k, e.act.getLsbD k = true → e.pushState q k = .ready) → s.queueRecords e.core + e.lanes.length ≤ 2048 →
    ∃ t, exec (.ldToQueue p l n q m) s = .next t ∧ t.mem = s.mem ∧ t.home = s.home ∧
      (∀ k, e.act.getLsbD k = true → ∃ r, t.queue e.x.gang q.toNat k = (s.queue e.x.gang q.toNat k).drop (e.pops q.toNat) ++
        [.pend r (e.gaddr m 1 k) (ldSize n) (ldSigned n) e.cur.ip false s.dev.ioTick]) ∧
      (∀ g j k, (g ≠ e.x.gang ∨ j ≠ q.toNat ∨ e.act.getLsbD k = false) →
        t.queue g j k = if g = e.x.gang ∧ e.act.getLsbD k = true then (s.queue g j k).drop (e.pops j) else s.queue g j k) ∧
      (∀ y r k, k < 64 → t.vreg y r k = if y = e.x ∧ e.killsV r k then none else s.vreg y r k) ∧
      (∀ y r, t.sreg y r = if y = e.x ∧ e.killsS r then none else s.sreg y r) ∧
      (∀ y r, t.pred y r = s.pred y r) ∧ (∀ g k r, t.creg g k r = s.creg g k r) ∧
      (∀ y r, t.sbCount y r = if y = e.x ∧ r = l.sb.toNat then (s.sbCount y r).map (· + 1) else s.sbCount y r)

/-- 09:R203, 08:R184. A scratchpad load whose accesses go delivers the bytes at each lane's address; a scratchpad store writes the bytes of
its B operand there, lane by lane, and leaves every byte of global memory as it was. -/
def Obligations.ScratchpadAccesses : Prop :=
  (∀ p l n d m, DeliversTo (.lds p l n d m) (fun s e => e.act ≠ 0#64 ∧ e.spadGoes s m .read (2 ^ n.toNat) 1 = true) (fun _ s => s)
    fun s e => e.longResult d (if n = 3#2 then 2 else 1) fun k =>
      match (e.spadRefs s m .read (2 ^ n.toNat) 1).find? fun p => decide (p.1 = k) with
      | none => []
      | some p => extendBytes false (s.spadBytes p.2 (2 ^ n.toNat))) ∧
  (∀ p l n m b, DeliversTo (.sts p l n m b) (fun s e => e.act ≠ 0#64 ∧ e.spadGoes s m .write (2 ^ n.toNat) 2 = true)
    (fun e s => (e.spadRefs s m .write (2 ^ n.toNat) 2).foldl
      (fun s p => s.updGroup p.2.group fun g => g.spadWrite p.2.ofs (e.storeBytes 1 (2 ^ n.toNat) p.1)) s) fun _ _ => { long := true })

/-- 09:R208, R209, R218. `pref` fills lines, and a lane that fails its checks is passed over; `cln` of lanes that pass their checks writes their
lines back; a fence enters flight, and with a release part makes the next global write of its lanes a release. None of them changes a
register, a predicate or a queue but by its sources, and none changes what a byte of memory reads as beyond what the checks of the lanes
leave. -/
def Obligations.PrefetchCleanFence : Prop :=
  (∀ p l slice m, DeliversTo (.pref p l slice m) (fun _ _ => True) (fun e s => e.prefetched (e.awake s) slice m) fun _ _ => {}) ∧
  (∀ p l toMem m, DeliversTo (.cln p l toMem m)
    (fun s e => e.act ≠ 0#64 ∧ failsOf (e.checkLanes (e.awake s) .read 1 (e.gaddr m 1)).1 = [])
    (fun e s => e.cleaned (e.awake s) toMem m) fun _ _ => { long := true }) ∧
  (∀ p l sco ord, DeliversTo (.fence p l sco ord) (fun _ e => e.act ≠ 0#64) (fun e s => e.fencedBy sco ord s)
    fun _ _ => { long := true, data := .fence (ord.getLsbD 1) (ord.getLsbD 0) sco }) ∧
  ∀ (e : Env) s b m mt key pa,
    (e.prefetched s b m).byte mt key pa = (e.checkLanes s .read 1 (e.gaddr m 1)).2.byte mt key pa ∧
    (e.cleaned s b m).byte mt key pa = (e.checkLanes s .read 1 (e.gaddr m 1)).2.byte mt key pa ∧
    ∀ sco ord, (e.fencedBy sco ord s).byte mt key pa = s.byte mt key pa

/-- 09:R204 to R207, 08:R186, 18:R429. `cp` whose lanes pass their checks and whose ranges no engine holds enters flight with the lines of its
destinations still to land; the scratchpad lines among them become absent, and the copy engine's reservation is requested. That the bytes of its source are those at its
issue is the model's reading (log 13, DEDUCED). -/
def Obligations.CopiesIssue : Prop :=
  ∀ p l n d a b cv u jobs, DeliversTo (.cp p l n d a b cv)
    (fun s e => e.act ≠ 0#64 ∧ (∃ xs, e.cpLanes s n cv = (xs, u) ∧
        (∀ x ∈ xs, (∃ t ls, x.2 = .bad t ls) → False) ∧
        jobs = xs.filterMap fun x => match x.2 with | .ok ss ds => some (x.1, ss, ds) | _ => none) ∧
      (∀ j ∈ jobs, ∀ q ∈ j.2.1, q.spad = true → u.absentLines ⟨q.group, q.at_, false⟩ q.n = []) ∧
      (∀ j ∈ jobs, j.2.1.any (e.spanHeld u j.1 false) = false ∧ j.2.2.any (e.spanHeld u j.1 true) = false))
    (fun e _ =>
      let v := u.clearLines (jobs.map fun j => (j.2.2.map Span.spadLines).flatten).flatten
      if (e.cpParts u cv jobs).isEmpty then v
      else v.arbRequest (clusterOf e.core) ⟨v.nextId, 2, !e.x.access && e.g.holders.any e.act.getLsbD⟩)
    fun _ e => { long := true, data := .copy (e.cpParts u cv jobs) false }

/-! ### The matrix unit -/

/-- 11:R249 to R252. `fmtres` writes its status word and makes the record that it names, if any; `fmtrel` frees a record that the group holds. -/
def Obligations.Reservations : Prop :=
  (∀ p l fmt swz blk d a k, DeliversTo (.fmtres p l fmt swz blk d a) (fun _ e => e.nib = some k)
    (fun e s => match (s.reserve e.core e.g.group e.l.kern.opndk fmt.toNat swz.toNat blk (e.word 0 k)).2 with
      | none => s
      | some (n, r) => s.setCores { s.cores with recs := s.cores.recs.put (64 * e.core + n) r })
    fun s e => e.result1 d fun _ => (s.reserve e.core e.g.group e.l.kern.opndk fmt.toNat swz.toNat blk (e.word 0 k)).1) ∧
  (∀ p l a k, DeliversTo (.fmtrel p l a) (fun s e => e.nib = some k ∧ (e.word 0 k).toNat < 64 ∧ (e.recOf s (e.word 0 k).toNat).isSome = true)
    (fun e s => s.setCores { s.cores with recs := s.cores.recs.del (64 * e.core + (e.word 0 k).toNat) }) fun _ _ => {})

/-- 11:R253, R259 to R261. `mld`, `mld.t` and `mso` whose descriptor, record, alignment, rectangle and scratchpad range are good enter flight as
a matrix operation of their group with the bytes of the rectangle; `mso` holds its destination lines. That a load's bytes are those at its issue
(log 13) and that absent destination lines of the partner park it (log 88) is the model's reading (DEDUCED). -/
def Obligations.RectanglesMove : Prop :=
  (∀ p l scl d a b c q refs, DeliversTo (.mld p l scl d a b c)
    (fun s e => e.rectGoes s scl false false q refs ∧ s.absentAll refs = [] ∧ s.heldAll refs none = false) (fun _ s => s)
    fun s e => { long := true, data := .matrix (.load (e.rect.loads q false scl (e.rectByte s q scl))) e.g.group true }) ∧
  (∀ p l scl d a b c q refs, DeliversTo (.mldT p l scl d a b c)
    (fun s e => e.rectGoes s scl false true q refs ∧ s.absentAll refs = [] ∧ s.heldAll refs none = false) (fun _ s => s)
    fun s e => { long := true, data := .matrix (.load (e.rect.loads q true scl (e.rectByte s q scl))) e.g.group true }) ∧
  (∀ p l scl d a b c q refs, DeliversTo (.mso p l scl d a b c)
    (fun s e => e.rectGoes s scl true false q refs ∧ e.partnerAbsent s refs = [] ∧ s.heldAll refs (some e.g.group) = false ∧
      e.copyAhead s refs = false)
    (fun _ s => s.holdLines s.nextId (refs.map fun r => (r.group, r.ofs)))
    fun _ e => { long := true, data := .matrix (.store (((e.rect.bytes q scl e.rectBase).zip refs).map fun x => (x.2.group, x.2.ofs,
      if scl then 128 * (q.base + q.sofs) + e.rect.col0 + x.1.2.1 else q.byteOf (e.rect.row0 + x.1.1) e.rect.col0 + x.1.2.1))) e.g.group true })

/-- 11:R262 to R265, 18:R429. `mmac` and `mmac.i` whose checks pass enter flight with their rectangle and records, and request the current that
their pairing of formats needs. -/
def Obligations.MultiplyAccumulates : Prop :=
  (∀ p l a b m dem, DeliversTo (.mmac p l a b) (fun s e => e.macGoes s false m dem)
    (fun e s => s.arbRequest (clusterOf e.core) ⟨s.nextId, dem, !e.x.access && e.g.holders.any e.act.getLsbD⟩)
    fun _ e => { long := true, data := .matrix (m.op false) e.g.group false }) ∧
  (∀ p l a b m dem, DeliversTo (.mmacI p l a b) (fun s e => e.macGoes s true m dem)
    (fun e s => s.arbRequest (clusterOf e.core) ⟨s.nextId, dem, !e.x.access && e.g.holders.any e.act.getLsbD⟩)
    fun _ e => { long := true, data := .matrix (m.op true) e.g.group false })

/-- 11:R268 to R270. `mrd` delivers elements of a tile, `mclr` clears a tile and perhaps its status word, `mstat` delivers the status word and
clears it unless it keeps it: with no matrix operation of the group in flight. -/
def Obligations.TilesReadAndClear : Prop :=
  (∀ p l w t d a g, DeliversTo (.mrd p l w t d a)
    (fun s e => e.act ≠ 0#64 ∧ s.matBusy e.g.group = false ∧ s.group? e.g.group = some g ∧ t.toNat < e.l.kern.acct ∧
      ∀ k, e.act.getLsbD k = true → (e.word 0 k).toNat % 2 ^ w.toNat = 0 ∧ (e.word 0 k).toNat ≤ 8191 ∧
        ∀ j, j < 2 ^ w.toNat → g.tilePoison t.toNat ((e.word 0 k).toNat + j) = false) (fun _ s => s)
    fun _ e => e.longResult d (2 ^ w.toNat) fun k => (List.range (2 ^ w.toNat)).map fun j => g.tileElem t.toNat ((e.word 0 k).toNat + j)) ∧
  (∀ p l st t, DeliversTo (.mclr p l st t) (fun s e => e.act ≠ 0#64 ∧ s.matBusy e.g.group = false ∧ t.toNat < e.l.kern.acct)
    (fun e s => s.updGroup e.g.group fun g => g.clearTile t.toNat st) fun _ _ => { long := true }) ∧
  (∀ p l keep t d, DeliversTo (.mstat p l keep t d) (fun s e => e.act ≠ 0#64 ∧ s.matBusy e.g.group = false ∧ t.toNat < e.l.kern.acct)
    (fun e s => if keep then s else s.updGroup e.g.group fun g => { g with tstat := g.tstat.del t.toNat })
    fun s e => e.longResult d 2 fun _ => dwords (((s.group? e.g.group).map fun g => g.tstat.getD t.toNat 0#64).getD 0#64))

/-- 04:R90, 11:R271 to R273. `mqnt` and `spick` whose addresses, record and fields are good enter flight, holding their destination lines. That
poison of the statistics passes into the record of `spick` (log 86), that absent destination lines of the partner park them (log 88), and which
bytes of its record `mqnt` writes as zero (log 80) are the model's reading (DEDUCED). -/
def Obligations.QuantiseAndPick : Prop :=
  (∀ p l t e4 sat col a b c n bs dr sr d0 s0, DeliversTo (.mqnt p l t e4 sat col a b c)
    (fun s e =>
      let das := (List.range (if e4 then 8192 else 4096)).map ((e.word 0 n).toNat + ·)
      let sas := (List.range 1024).map ((e.word 2 n).toNat + ·)
      e.nib = some n ∧ t.toNat < e.l.kern.acct ∧ (e.word 0 n).toNat % 16 = 0 ∧ (e.word 1 n).toNat % 16 = 0 ∧ (e.word 2 n).toNat % 8 = 0 ∧
      e.spadAll s .write das = .ok dr ∧ e.spadAll s .write sas = .ok sr ∧ e.readBlock s (e.word 1 n).toNat 272 true = .ok bs ∧
      scaleOk (leNat (bs.take 4)) = true ∧ e.partnerAbsent s (dr ++ sr) = [] ∧ s.heldAll (dr ++ sr) (some e.g.group) = false ∧
      e.copyAhead s (dr ++ sr) = false ∧ dr.head? = some d0 ∧ sr.head? = some s0)
    (fun e s => s.holdLines s.nextId ((dr ++ sr).map (fun r => (r.group, r.ofs)) ++ (e.recordZeros s (e.word 1 n).toNat).map fun r => (r.group, r.ofs)))
    fun s e => { long := true, data := .matrix (.quant t.toNat e4 sat col (leNat (bs.take 4)) ((bs.drop 16).map (·.toNat)) d0.group d0.ofs
      s0.group s0.ofs ((e.recordZeros s (e.word 1 n).toNat).map fun r => (r.group, r.ofs))) e.g.group true }) ∧
  (∀ p l a b c n bs dr, DeliversTo (.spick p l a b c)
    (fun s e => e.nib = some n ∧ (e.word 2 n).extractLsb' 19 13 = 0#13 ∧ 1 ≤ e.pickBlocks n ∧ e.pickBlocks n ≤ 256 ∧
      ((e.word 2 n).extractLsb' 10 7).toNat ≤ 64 ∧ (e.word 0 n).toNat % 8 = 0 ∧ (e.word 1 n).toNat % 16 = 0 ∧
      e.readBlock s (e.word 0 n).toNat (8 * e.pickBlocks n) false = .ok bs ∧
      e.spadAll s .write ((List.range 272).map ((e.word 1 n).toNat + ·)) = .ok dr ∧ e.partnerAbsent s dr = [] ∧
      s.heldAll dr (some e.g.group) = false ∧ e.copyAhead s dr = false)
    (fun _ s => s.holdLines s.nextId (dr.map fun r => (r.group, r.ofs)))
    fun s e =>
      let w := e.word 2 n
      let bad := ((List.range (8 * e.pickBlocks n)).map ((e.word 0 n).toNat + ·)).any fun x =>
        (s.spadRef e.g.group x).any fun r => (s.spadByteP r).2
      let out := pickRecord (w.getLsbD 9) (w.extractLsb' 10 7).toNat (w.extractLsb' 17 2).toNat
        ((List.range (e.pickBlocks n)).map fun j => (leNat ((bs.drop (8 * j)).take 4), (bs.getD (8 * j + 4) 0#8).toNat))
      let uses (i : Nat) : Bool := decide (i < 4 ∨ (16 ≤ i ∧ i < 16 + e.pickBlocks n))
      { long := true, data := .matrix (.put ((dr.zip out).zipIdx.map fun q => (q.1.1.group, q.1.1.ofs, q.1.2, bad && uses q.2))) e.g.group true })

/-! ### Queues and dunes -/

/-- 12:R292 to R296. The queue instructions: `qset` sets a limit and changes no entry, `qpeek` delivers the value at the head and keeps it,
`qdrain` empties the queue in the active lanes, `qtok.test` only reads, `qtok.take` takes a token from the head. -/
def Obligations.QueueInstructions : Prop :=
  (∀ p l q n s e, Ready (.qset p l q n) s e → e.act ≠ 0#64 → ∃ t, exec (.qset p l q n) s = .next t ∧ Effect e s t {} ∧
    (e.g.queues.has q.toNat = true → ((t.gang? e.x.gang).bind fun g => g.queues.get? q.toNat).map (·.limit) = some n.toNat)) ∧
  (∀ p l q d, DeliversTo (.qpeek p l q d)
    (fun _ e => e.act ≠ 0#64 ∧ Env.settled (e.heads q) = true ∧ e.portTrap [(q, e.heads q)] = none) (fun _ s => s)
    fun _ e => e.longResult d 1 fun k => [e.read (.q q) 0 0 k]) ∧
  (∀ p l q d, DeliversTo (.qdrain p l q d) (fun _ _ => True)
    (fun e s => s.updGang e.x.gang fun g =>
      { g with queues := g.queues.upd q.toNat fun r => { r with ents := r.ents.keep fun k _ => !e.act.getLsbD k } })
    fun _ e => match d with | none => {} | some d => e.result1 d fun k => BitVec.ofNat 32 (e.entries q k).length) ∧
  (∀ p l q k, DeliversTo (.qtokTest p l q k)
    (fun _ e => e.act ≠ 0#64 ∧ Env.settled (e.heads q) = true ∧ e.portTrap [(q, (e.heads q).filter fun x =>
      match x.2 with | .token _ => false | _ => true)] = none) (fun _ s => s)
    fun _ e => { pred := some (k, fun n => (e.headToken q n).isSome), long := true }) ∧
  (∀ p l q d, DeliversTo (.qtokTake p l q d)
    (fun _ e => e.act ≠ 0#64 ∧ Env.settled (e.heads q) = true ∧ e.portTrap [(q, (e.heads q).filter fun x =>
      match x.2 with | .token _ => false | _ => true)] = none)
    (fun e s => s.updGang e.x.gang fun g => Env.popLanes g q.toNat 1 (e.lanes.filter fun n => (e.headToken q n).isSome))
    fun _ e => e.longResult d 4 fun n => match e.headToken q n with | none => [0#32, 0#32, 0#32, 0#32] | some t => t.words)

/-- 13:R300, R303, R304, R312, R314, R316, R317, R319, R320. `spawn` and `tokput` enqueue one item for every active lane, `dset` and `dspill`
configure the dune of every active lane, where no lane fails and none waits; `dget` reads and `ddrain` marks the dune of every active lane. By
one lane: an item for a dune outside ordered mode with an empty ring and a free slot is the last of its store, of the lane's payload, family,
extended lineage and time, and CNT counts it; a dune without items takes its configuration word and its ring word, with a ring of 2^N entries
once every page of it is writable. -/
def Obligations.DuneInstructions : Prop :=
  (∀ p l pw a c u, DeliversTo (.spawn p l pw a c) (fun s e => e.enqueued (e.awake s) (fun _ => 0#32) 1 pw.toNat = some u)
    (fun _ _ => u) fun _ _ => { long := true }) ∧
  (∀ p l pw a b c u, DeliversTo (.tokput p l pw a b c) (fun s e => e.enqueued (e.awake s) (e.word 1) 2 pw.toNat = some u)
    (fun _ _ => u) fun _ _ => { long := true }) ∧
  (∀ p l d a b c, DeliversTo (.dset p l d a b c)
    (fun s e => (∀ k, e.act.getLsbD k = true → badConfig e.width (e.pair 2 k) = false) ∧ (eachLane e.dsetLane e.lanes (e.awake s) [] []).2.2 = [])
    (fun e s => (eachLane e.dsetLane e.lanes (e.awake s) [] []).1)
    fun s e => e.longResult d 1 fun k => [(eachLane e.dsetLane e.lanes (e.awake s) [] []).2.1.getD k 0#32]) ∧
  (∀ p l a b c, DeliversTo (.dspill p l a b c)
    (fun s e => (∀ k, e.act.getLsbD k = true → badRing (e.pair 2 k) = false) ∧ (eachLane e.dspillLane e.lanes (e.awake s) [] []).2.2 = [])
    (fun e s => (eachLane e.dspillLane e.lanes (e.awake s) [] []).1) fun _ _ => { long := true }) ∧
  (∀ p l d a b, Delivers (.dget p l d a b) fun s e => e.longResult d 4 fun k => s.duneWords e.g.launch (e.pair 0 k) (e.word 1 k)) ∧
  (∀ p l a b, DeliversTo (.ddrain p l a b) (fun _ _ => True) (fun e s => e.lanes.foldl e.ddrainLane s) fun _ _ => {}) ∧
  (∀ p l pw a c s e k n t w u, Ready (.spawn p l pw a c) s e → e.enqueuesOne s k n 0#32 t w u →
    ∃ v, exec (.spawn p l pw a c) s = .next v ∧ v.mem = s.mem ∧
      v.dune? e.g.launch n = some { u with store := u.store ++ [s.itemOf t u (e.pair 0 k) 0#32 (e.words 1 pw.toNat k)], nextSerial := u.nextSerial + 1 } ∧
      (v.thread? e.x.gang k).map (·.cnt) = some (t.cnt + 1)) ∧
  (∀ p l pw a b c s e k n t w u, Ready (.tokput p l pw a b c) s e → e.enqueuesOne s k n (e.word 1 k) t w u →
    ∃ v, exec (.tokput p l pw a b c) s = .next v ∧ v.mem = s.mem ∧
      v.dune? e.g.launch n =
        some { u with store := u.store ++ [s.itemOf t u (e.pair 0 k) (e.word 1 k) (e.words 2 pw.toNat k)], nextSerial := u.nextSerial + 1 } ∧
      (v.thread? e.x.gang k).map (·.cnt) = some (t.cnt + 1)) ∧
  (∀ p l d a b c s e k n w u, Ready (.dset p l d a b c) s e → e.lanes = [k] → badEntry (e.pair 0 k) = false → badConfig e.width (e.pair 2 k) = false →
    s.launch? e.g.launch = some w → w.findDune (e.pair 0 k) (e.word 1 k) = some n → w.dunes.get? n = some u → u.items = [] →
    ∃ v, exec (.dset p l d a b c) s = .next v ∧ v.mem = s.mem ∧ v.dune? e.g.launch n = some { u with cfg := e.pair 2 k }) ∧
  (∀ p l a b c s e k n w u, Ready (.dspill p l a b c) s e → e.lanes = [k] → badEntry (e.pair 0 k) = false → badRing (e.pair 2 k) = false →
    (e.pair 2 k).extractLsb' 0 5 = 0#5 → s.launch? e.g.launch = some w → w.findDune (e.pair 0 k) (e.word 1 k) = some n →
    w.dunes.get? n = some u → u.items = [] →
    ∃ v, exec (.dspill p l a b c) s = .next v ∧ v.mem = s.mem ∧
      v.dune? e.g.launch n = some { u with ring := e.pair 2 k, ringPos := 0, ringFault := none }) ∧
  (∀ p l a b c s e k n w u m, Ready (.dspill p l a b c) s e → e.lanes = [k] → badEntry (e.pair 0 k) = false → badRing (e.pair 2 k) = false →
    (e.pair 2 k).extractLsb' 0 5 ≠ 0#5 → s.launch? e.g.launch = some w → w.findDune (e.pair 0 k) (e.word 1 k) = some n →
    w.dunes.get? n = some u → u.items = [] →
    e.pagesFail ((64 * 2 ^ ((e.pair 2 k).extractLsb' 0 5).toNat + 4095) / 4096) (e.pair 2 k &&& ~~~0xFFF#64) (e.awake s) = (none, m) →
    ∃ v, exec (.dspill p l a b c) s = .next v ∧ v.mem = m.mem ∧
      v.dune? e.g.launch n = some { u with ring := e.pair 2 k, ringPos := 0, ringFault := none })

/-- 13:R311, R318. `itemfin` finishes the item of every active lane that holds one. A `refill` with an item for every lane that it fills (its
active lanes with finished items, and the lanes without one that stand at it) gives each its item: LIVE, with the item's lineage, key and
payload; where its dune is empty, its active lanes with finished items hold none afterwards. -/
def Obligations.ItemInstructions : Prop :=
  (∀ p l, DeliversTo (.itemfin p l) (fun _ e => e.act ≠ 0#64 ∧ e.g.dune.isSome = true)
    (fun e s => e.lanes.foldl (fun s k => s.updThread e.x.gang k fun t => t.finish) s)
    fun _ _ => {}) ∧
  (∀ p l xs u, DeliversTo (.refill p l)
    (fun s e => e.act ≠ 0#64 ∧ e.g.dune.isSome = true ∧ e.wants = e.lanes ∧ e.noneHere = [] ∧
      (e.awake s).takeItems e.x.gang e.wants = .items xs u ∧ xs.length = e.lanes.length)
    (fun _ _ => u) fun _ _ => { long := true }) ∧
  (∀ p l s e xs u, Ready (.refill p l) s e → e.act ≠ 0#64 → e.g.dune.isSome = true → e.x.access = false →
    (e.awake s).takeItems e.x.gang e.wants = .items xs u → xs.length = e.wants.length →
    ∃ t, exec (.refill p l) s = .next t ∧ t.mem = s.mem ∧ ∀ (i : Nat) (x : Item) n, xs[i]? = some x → e.wants[i]? = some n →
      (t.thread? e.x.gang n).map (fun a => (a.item, a.lin, a.cnt)) = some (ItemSt.live, x.lin, 0) ∧
      ∀ (r : Nat) y, (x.words e.l.kern.vregs)[r]? = some y → t.vreg e.x r n = some ⟨y, false, false⟩) ∧
  (∀ p l s e d u, Ready (.refill p l) s e → e.act ≠ 0#64 → e.g.dune = some d → e.x.access = false → s.dune? e.g.launch d = some u → u.items = [] →
    (∃ k, e.act.getLsbD k = true ∧ e.itemIs .live k = true) →
    ∃ t, exec (.refill p l) s = .next t ∧ t.mem = s.mem ∧
      ∀ k, e.act.getLsbD k = true → e.itemIs .finished k = true → (t.thread? e.x.gang k).map (·.item) = some .empty)

/-! ### Run control, capsules and barriers as instructions -/

/-- 14:R344 to R347. `rcq` with a good record requests a hold of the cores of its scope and waits for it; `rcrd` delivers what it names of the
thread that each lane names. -/
def Obligations.RunControlInstructions : Prop :=
  (∀ p l d a n r, DeliversTo (.rcq p l d a)
    (fun s e => e.nib = some n ∧ (e.word 0 n).toNat % 64 = 0 ∧ e.readBlock s (e.word 0 n).toNat 64 true = .ok r ∧
      (Query.ofBytes r).refused e.l.kern = none ∧ ((Query.ofBytes r).action = 4 → (Query.ofBytes r).low % 16 = 0 ∧
        ∃ refs, e.spadAll s .write ((List.range (16 * (Query.ofBytes r).cap)).map ((Query.ofBytes r).low + ·)) = .ok refs ∧
          s.absentAll refs = [] ∧ s.heldAll refs none = false))
    (fun e s => s.setCtl { s.ctl with holds := s.ctl.holds.put (s.nextId + 1) (e.queryHold s n r) })
    fun _ e => { long := true, left := e.act, data := .wait }) ∧
  (∀ p l sel acc d a, DeliversTo (.rcrd p l sel acc d a) (fun _ _ => True) (fun _ s => s.setDraws (s.draws + 1))
    fun s e => e.longResult d 2 fun k => dwords (e.rcrdLane ((e.awake s).setDraws (s.draws + 1)) sel.toNat acc k))

/-- 15:R349, R357, R369, R370. `capo` by a thread without a link on a good anchor: a FREE anchor becomes LIVE with the thread as its owner and runner; one
that another holds gains the thread as its last contender, whose lane waits. `capx` of an owner not displaced closes the instance:
its link ends, EPOCH advances. General registers do not change but by last-use hints. In a stroke a load of the holder delivers the bytes of the
capsule page at its offset, those of the stroke's own latest stores where it made any, and a store joins the stroke's stores and leaves memory as it
was. -/
def Obligations.CapsulesOpenAndClose : Prop :=
  (∀ p l a i s e n t u, Ready (.capo p l a i) s e → e.capoGoes s n t u → (u.mem.anc0 t.pa).state = AncSt.free.code →
    ∃ v, exec (.capo p l a i) s = .next v ∧
      (v.thread? e.x.gang n).map (·.link) = some ⟨.owner, t.pa, t.key, e.pair 0 n, (u.mem.anc0 t.pa).epoch, 0, false, false, e.cur.at_,
        e.w + 4#64 * i.signExtend 64, []⟩ ∧
      (v.mem.anc0 t.pa).state = AncSt.live.code ∧ (v.mem.anc0 t.pa).epoch = (u.mem.anc0 t.pa).epoch ∧
      v.mem.ancWord t.pa 1 = s.idn e.x.gang n false ∧ v.mem.ancWord t.pa 8 = s.idn e.x.gang n false ∧
      (∀ y r k, k < 64 → v.vreg y r k = if y = e.x ∧ e.killsV r k then none else s.vreg y r k) ∧
      (∀ y r, v.sreg y r = if y = e.x ∧ e.killsS r then none else s.sreg y r)) ∧
  (∀ p l a i s e n t u, Ready (.capo p l a i) s e → e.capoGoes s n t u → (u.mem.anc0 t.pa).state ≠ AncSt.free.code →
    (u.mem.anc0 t.pa).state ≠ AncSt.stalled.code →
    ∃ v, exec (.capo p l a i) s = .next v ∧ ((v.thread? e.x.gang n).map (·.link.role)) = some .contender ∧
      v.home.fifo t.pa = u.home.fifo t.pa ++ [⟨e.x.gang, n⟩] ∧ (v.mem.anc0 t.pa).wait = true ∧
      (∀ y r k, k < 64 → v.vreg y r k = if y = e.x ∧ e.killsV r k then none else s.vreg y r k) ∧
      (∀ y r, v.sreg y r = if y = e.x ∧ e.killsS r then none else s.sreg y r)) ∧
  (∀ p l s e h t u, Ready (.capx p l) s e → e.holder = some h → e.act.getLsbD h = true →
    e.g.threads.get? h = some t → t.link.role = .owner → t.link.adopted = false → s.anchorPoison t.link.anc = false →
    u = s.onKey t.link.key t.link.anc → u.linkMatches e.x.gang h t.link = true →
    s.actWaits e.x [t.link.line] = false → u.mem.ancWord t.link.anc 1 = u.mem.ancWord t.link.anc 8 →
    ∃ v, exec (.capx p l) s = .next v ∧ (v.thread? e.x.gang h).map (·.link) = some { t.link with role := .none } ∧
      (v.mem.anc0 t.link.anc).epoch = (u.mem.anc0 t.link.anc).epoch + 1#32 ∧
      ∀ y r k, k < 64 → v.vreg y r k = s.vreg y r k) ∧
  (∀ p l n d m lane o k t, DeliversTo (.ld p l n d m)
    (fun s e => e.strokes s .read m (ldSize n) lane o k t ∧ o = e.strokeOfs m 1 lane ∧ s.lineOwned (lineOf 0#2 (t.pagePa o)) = false ∧
      s.queueRecords e.core < 2048)
    (fun e s => if (List.range (ldSize n)).all fun i => (k.own (t.pagePa o + i)).isSome then s
      else s.noteRead e.x e.g.launch lane (t.pageVa o) (t.pagePa o) (s.mem.relOf (lineOf 0#2 (t.pagePa o))))
    fun s e => e.longResult d (ldWords n) fun _ => extendBytes (ldSigned n)
      ((List.range (ldSize n)).map fun i => match k.own (t.pagePa o + i) with
        | some w => w.2.1.getD (t.pagePa o + i - w.1) 0#8
        | none => s.byte 0#2 t.link.key (t.pagePa o + i))) ∧
  (∀ p l n m b lane o k t, DeliversTo (.st p l n m b)
    (fun s e => e.strokes s .write m (stSize n) lane o k t ∧ o = e.strokeOfs m 2 lane)
    (fun e s => s.updCtx e.x fun c => { c with stroke := c.stroke.map fun k =>
      { k with stores := k.stores ++ [(t.pagePa o, e.storeBytes 1 (stSize n) lane, t.pageVa o)] } })
    fun _ _ => { long := true })

/-- 15:R372 to R376. `bar`, `barr` and `barw` complete, or wait as the rules have it, for every state in which they are ready and an entry can be
kept. An arrival of `bar` or `barr` that does not complete the phase leaves it and is counted; one that does advances the phase by one and clears the
arrivals, and every gang that waits for it goes on. `bar` waits for its phase where its own arrival does not complete it; `barr` delivers the phase
that it met, in both cases, and completes at issue. `barw` goes on where the phase lies after its operand, and waits otherwise. With no active lane
none of them does anything. -/
def Obligations.BarrierInstructions : Prop :=
  (∀ p l cnt pair n, DeliversTo (.bar p l cnt pair n)
    (fun s e => e.act ≠ 0#64 ∧ s.barRoom e.g.group pair n.toNat = true ∧ s.fills e.g.group e.x.gang pair n.toNat cnt.toNat = false)
    (fun e s => (((s.setNextId (s.nextId + 1)).setBar e.g.group pair n.toNat ((s.barOf e.g.group pair n.toNat).arrive e.x.gang cnt.toNat)).barAct
      e.g.group e.x.gang pair n.toNat).setNextId s.nextId)
    fun _ e => { long := true, left := e.act, data := .bar }) ∧
  (∀ p l cnt pair n s e, Ready (.bar p l cnt pair n) s e → e.act ≠ 0#64 → s.barRoom e.g.group pair n.toNat = true →
    (s.group? e.g.group).isSome = true → s.pairLaunch e.g.group pair = true →
    s.fills e.g.group e.x.gang pair n.toNat cnt.toNat = true → ∃ t, exec (.bar p l cnt pair n) s = .next t ∧
      (t.barOf e.g.group pair n.toNat).phase = (s.barOf e.g.group pair n.toNat).phase + 1#32 ∧
      (t.barOf e.g.group pair n.toNat).arrivals = [] ∧ (s.barStays e.g.group e.x.gang pair n.toNat cnt.toNat = true → t.mem = s.mem) ∧ (∀ y r k, t.vreg y r k = s.vreg y r k) ∧
      (∀ y r, t.sreg y r = s.sreg y r) ∧
      ((s.barGangs e.g.group pair).contains e.x.gang = true → (t.op? s.nextId).map (fun o => (o.left, o.data)) = some (0#64, .none)) ∧
      s.BarWaitersGo t e.g.group pair n) ∧
  (∀ p l cnt pair n d, DeliversTo (.barr p l cnt pair n d)
    (fun s e => e.act ≠ 0#64 ∧ s.barRoom e.g.group pair n.toNat = true ∧ s.fills e.g.group e.x.gang pair n.toNat cnt.toNat = false)
    (fun e s => (s.setBar e.g.group pair n.toNat ((s.barOf e.g.group pair n.toNat).arrive e.x.gang cnt.toNat)).barAct
      e.g.group e.x.gang pair n.toNat)
    fun s e => e.result1 d fun _ => (s.barOf e.g.group pair n.toNat).phase) ∧
  (∀ p l cnt pair n d s e, Ready (.barr p l cnt pair n d) s e → e.act ≠ 0#64 → s.barRoom e.g.group pair n.toNat = true →
    (s.group? e.g.group).isSome = true → s.pairLaunch e.g.group pair = true →
    s.fills e.g.group e.x.gang pair n.toNat cnt.toNat = true → ∃ t, exec (.barr p l cnt pair n d) s = .next t ∧
      (t.barOf e.g.group pair n.toNat).phase = (s.barOf e.g.group pair n.toNat).phase + 1#32 ∧
      (t.barOf e.g.group pair n.toNat).arrivals = [] ∧ (s.barStays e.g.group e.x.gang pair n.toNat cnt.toNat = true → t.mem = s.mem) ∧
      (∀ y r k, k < 64 → t.vreg y r k =
        if y = e.x ∧ (e.result1 d fun _ => (s.barOf e.g.group pair n.toNat).phase).writesV r k
        then some ⟨(s.barOf e.g.group pair n.toNat).phase, false, false⟩ else s.vreg y r k) ∧
      (∀ y r, t.sreg y r =
        if y = e.x ∧ (e.result1 d fun _ => (s.barOf e.g.group pair n.toNat).phase).writesS e.nib r
        then some ⟨(s.barOf e.g.group pair n.toNat).phase, false, false⟩ else s.sreg y r) ∧
      s.BarWaitersGo t e.g.group pair n) ∧
  (∀ p l pair n a k, DeliversTo (.barw p l pair n a)
    (fun s e => e.nib = some k ∧ phasePast (s.barOf e.g.group pair n.toNat).phase (e.word 0 k) = true)
    (fun e s => if s.barHeld e.g.group pair n.toNat
      then ((s.setNextId (s.nextId + 1)).barAct e.g.group e.x.gang pair n.toNat).setNextId s.nextId else s) fun _ _ => { long := true }) ∧
  (∀ p l pair n a k (o : Op), o.i = .barw p l pair n a → DeliversTo (.barw p l pair n a)
    (fun s e => e.nib = some k ∧ phasePast (s.barOf e.g.group pair n.toNat).phase (e.word 0 k) = false ∧ o.gang = e.x.gang ∧ o.left = e.act)
    (fun e s => (((if (s.barGangs e.g.group pair).contains e.x.gang || s.barHeld e.g.group pair n.toNat
      then ((s.setNextId (s.nextId + 1)).setOps (s.ops.put s.nextId o)).barAct e.g.group e.x.gang pair n.toNat else s).setOps s.ops).setNextId s.nextId))
    fun _ e => { long := true, left := e.act, data := .barw (e.word 0 k) }) ∧
  (∀ p l cnt pair n, DeliversTo (.bar p l cnt pair n) (fun _ e => e.act = 0#64) (fun _ s => s) fun _ _ => {}) ∧
  (∀ p l cnt pair n d, DeliversTo (.barr p l cnt pair n d) (fun _ e => e.act = 0#64) (fun _ s => s) fun _ _ => {}) ∧
  (∀ p l pair n a, DeliversTo (.barw p l pair n a) (fun _ e => e.nib = none) (fun _ s => s) fun _ _ => {})

/-! ### Traps and special registers -/

/-- 16:R384, R387. `trap`, `trap.link` and `trap.gst` with a flag of their mask set take their trap where it can enter: cause, detail, lanes and
address are in the trap registers, the frame holds the path and the predicates, the path stands at TENTRY, and the return point is the
address after the instruction. `trap.gst` with no flag of its mask set does nothing. That last-use hints of the instruction are met before its
trap is taken is the model's reading (log 47, DEDUCED). -/
def Obligations.TrapInstructions : Prop :=
  (∀ p l code a s e k, Ready (.trapSoft p l code a) s e → e.canEnter s = true → e.nib = some k →
    ∃ t, exec (.trapSoft p l code a) s = .next t ∧ Entered e s t 14 0 e.act (code.setWidth 17)
      (if a.isSome then e.val 0 0 k else 0#32) (if a.isSome then e.val 0 1 k else 0#32)) ∧
  (∀ p l a s e k, Ready (.trapLink p l a) s e → e.canEnter s = true → e.nib = some k →
    ∃ t, exec (.trapLink p l a) s = .next t ∧ Entered e s t 11 0 (maskOf (e.lanes.filter fun j => decide (e.pair 0 j = e.pair 0 k))) 0#17
      (e.val 0 0 k) (e.val 0 1 k)) ∧
  (∀ p l mask s e, Ready (.trapGst p l mask) s e → e.canEnter s = true → e.act ≠ 0#64 → e.c.gst &&& mask.setWidth 32 ≠ 0#32 →
    ∃ t, exec (.trapGst p l mask) s = .next t ∧ Entered e s t 10 0 e.act ((e.c.gst.extractLsb' 0 8).setWidth 17) (mask.setWidth 32) 0#32) ∧
  (∀ p l mask, DeliversTo (.trapGst p l mask) (fun _ e => e.act = 0#64 ∨ e.c.gst &&& mask.setWidth 32 = 0#32) (fun _ s => s) fun _ _ => {})

/-- 16:R388, R389, R399. `tret` of a compute context without pending stops and kills returns: tcg is 0, the frame is gone, the predicates are
those of the frame and its live lanes stand at the return point. `tdel` appends the trap to the delegation queue and its lanes wait for the
resolution. `brk` stops the active lanes at the instruction after it. General registers and capsule registers do not change. -/
def Obligations.TrapsEndAndBreak : Prop :=
  (∀ p l s e f, Ready (.tret p l) s e → e.c.frame = some f → e.act ≠ 0#64 → e.x.access = false → e.g.holder? = none → f.trap.tok = false →
    (∀ a ∈ e.c.lanes, f.path.getLsbD a.1 = true → a.2.pstop = false ∧ a.2.pkill = false) →
    e.c.lanes.any (fun x => f.path.getLsbD x.1) = true →
    ∃ t c, exec (.tret p l) s = .next t ∧ t.ctx? e.x = some c ∧ c.tcg = 0#32 ∧ c.frame = none ∧ c.k = f.k ∧
      (∀ n, f.path.getLsbD n = true → (t.lane? e.x n).map (·.pc) = (s.lane? e.x n).map fun _ => f.trap.ret) ∧
      t.hasPermit e.x = false ∧ t.mem = s.mem ∧ Quiet s t) ∧
  (∀ p l a s e n f, Ready (.tdel p l a) s e → e.nib = some n → e.c.frame = some f → s.delegRoom = true →
    ∃ t c, exec (.tdel p l a) s = .next t ∧ t.ctx? e.x = some c ∧ c.tcg = 0#32 ∧ c.frame = some { f with delegated := true } ∧
      (∀ j, f.path.getLsbD j = true → (t.lane? e.x j).map (·.ws) = (s.lane? e.x j).map fun _ => .trapped) ∧
      t.ctl.delegs = s.ctl.delegs.put s.nextId ⟨.context e.x, f.trap, if a.isSome then e.word 0 n else 0#32, false, false⟩ ∧
      t.hasPermit e.x = false ∧ (∀ y r k, k < 64 → t.vreg y r k = if y = e.x ∧ e.killsV r k then none else s.vreg y r k) ∧
      (∀ y r, t.sreg y r = if y = e.x ∧ e.killsS r then none else s.sreg y r) ∧ ∀ g k r, t.creg g k r = s.creg g k r) ∧
  (∀ p l code s e, Ready (.brk p l code) s e → e.act ≠ 0#64 → s.eventRoom = true → e.c.frame = none → e.g.holder? = none → e.atEase = true →
    ∃ t, exec (.brk p l code) s = .next t ∧
      (∀ n, e.act.getLsbD n = true → (t.lane? e.x n).map (·.ws) = (s.lane? e.x n).map fun _ => .stopped) ∧
      (∀ n, e.act.getLsbD n = true → e.c.resume = none → (t.lane? e.x n).map (·.pc) = (s.lane? e.x n).map fun _ => e.next) ∧
      Quiet s t)

/-- 16:R398, 03:R73 to R77. `sysrd` delivers its system register in every active lane; `syswr` clears the bits of `gst` written as 1, sets the
random counter of every active thread, or a predicate mask within the width; any other register is unchanged. The lane whose A `syswr` of `gst`
takes is the lowest active one by the model's choice (log 85, DESIGN CHOICE). -/
def Obligations.SystemRegisters : Prop :=
  (∀ p l n d, Delivers (.sysrd p l n d) fun s e => e.longResult d (sysWords n d) fun k => dwords (e.sysReg s n.toNat k)) ∧
  (∀ p l a k, DeliversTo (.syswr p l 0x00#8 a) (fun _ e => e.nib = some k ∧ e.pz = 0#32)
    (fun e s => s.updCtx e.x fun c => { c with gst := c.gst &&& ~~~e.word 0 k }) fun _ _ => { long := true }) ∧
  (∀ p l a, DeliversTo (.syswr p l 0x0C#8 a) (fun _ e => e.act ≠ 0#64)
    (fun e s => e.lanes.foldl (fun s k => s.updThread e.x.gang k fun t => { t with rngc := e.pair 0 k }) s) fun _ _ => { long := true }) ∧
  (∀ p l (n : BitVec 3) a k, DeliversTo (.syswr p l (0x10#8 + n.setWidth 8) a) (fun _ e => e.nib = some k)
    (fun e s => s.updCtx e.x fun c => c.putK n.toNat (e.pair 0 k &&& widthMask e.width))
    fun _ _ => { long := true }) ∧
  (∀ p l n a, n ≠ 0x00#8 → n ≠ 0x0C#8 → ¬ (0x10 ≤ n.toNat ∧ n.toNat < 0x18) →
    DeliversTo (.syswr p l n a) (fun _ e => e.act ≠ 0#64) (fun _ s => s) fun _ _ => { long := true })

/-- 17:R403 to R412. `tick`, `enrd` and `pmrd` deliver the reference counter, an energy accumulator and a field of a counter. A `pmrd` without CLR
reads after its own passes are counted; one with CLR reads before, and returns every field but the selector to its value of 17:R406. `pmset`
with a good selector gives the counter that selector with the other fields reset, and completes at issue; with no lane to execute them both only
issue. The events of their own issue are
counted after the act. -/
def Obligations.CounterInstructions : Prop :=
  (∀ p l w d, Delivers (.tick p l w d) fun s e => e.longResult d (if w then 2 else 1) fun _ => dwords (BitVec.ofNat 64 (s.tick (clusterOf e.core)))) ∧
  (∀ p l sel d, Delivers (.enrd p l sel d) fun s e => e.longResult d 2 fun _ => dwords (e.energyOf s sel)) ∧
  (∀ p l n sel d g, DeliversTo (.pmrd p l n sel false d) (fun s e => e.act ≠ 0#64 ∧ s.group? e.g.group = some g) (fun _ s => s)
    fun _ e => e.longResult d 2 fun _ => dwords (((g.event 0x04 e.passes (some e.x.access)).counter n.toNat).field sel.toNat)) ∧
  (∀ p l n sel d g s e, Ready (.pmrd p l n sel true d) s e → e.act ≠ 0#64 → s.group? e.g.group = some g →
    ∃ t, exec (.pmrd p l n sel true d) s = .next t ∧
      Effect e s t (e.longResult d 2 fun _ => dwords ((g.counter n.toNat).field sel.toNat)) ∧
      (t.group? e.g.group).map (·.pm) =
        some (({ g with pm := g.pm.put n.toNat (PerfCtr.clear (g.counter n.toNat).sel) }).issueEvents e).pm) ∧
  (∀ p l n sel clr d, DeliversTo (.pmrd p l n sel clr d) (fun _ e => e.nib = none) (fun _ s => s) fun _ _ => {}) ∧
  (∀ p l n a, DeliversTo (.pmset p l n a) (fun _ e => e.nib = none) (fun _ s => s) fun _ _ => {}) ∧
  (∀ p l n a s e k g, Ready (.pmset p l n a) s e → e.nib = some k → selectorOk (e.word 0 k) = true → s.group? e.g.group = some g →
    ∃ t, exec (.pmset p l n a) s = .next t ∧ Effect e s t {} ∧
      (t.group? e.g.group).map (·.pm) = some (({ g with pm := g.pm.put n.toNat (PerfCtr.clear (e.word 0 k)) }).issueEvents e).pm) ∧
  ∀ w sel, (PerfCtr.clear w).field sel = if sel = 2 then BitVec.allOnes 64 else if sel = 12 then w.setWidth 64 else 0#64

/-! ### Events: clauses, long forms, engines -/

/-- 02:R39, R40, 07:R160, 18:R429. A clause whose header passes its checks and whose waits hold begins: its first instruction is the next to
issue, the path's lanes stand after the header; a clause of vector work first requests a reservation of its cluster's current. Stepped lanes that
can run become the path, ahead of the running one, which is set aside. Which clauses are vector work is the model's choice (class ALU of a compute
context; log 91, DESIGN CHOICE), and that stepped lanes run while the running path waits inside a clause is its reading (log 100, DEDUCED). -/
def Obligations.ClausesBegin : Prop :=
  (∀ s t x g c core l w h, s.gang? x.gang = some g → g.ctx? x.access = some c → g.core = some core → s.launch? g.launch = some l →
    s.selectPath x = s → c.free = true → c.cur = none → c.pathAble = true → (c.aside.isSome = true ∨ s.stepGroup x = none) →
    s.trapAhead x c = false → s.frozen core g.launch = false → (x.access = true → g.orphansAtEnd = 0#64) →
    s.fetchWord x core l.owner c.pathPc = (.ok w, t) → t.headerCheck x g c l core w c.pathPc = .ok h → headerParity c h = none →
    t.headerReady x g c core l.owner h c.pathPc = true → (h.cls = .alu → x.access = false → c.vgrant.map (·.2) = some true) →
    ∃ u d, exec (.clauseBegin x.gang x.access) s = .next u ∧ u.ctx? x = some d ∧
      d.cur = some { hdr := h, at_ := c.pathPc, idx := 0, ip := c.pathPc + 4#64, serial := c.serial + 1, done := 0#64 } ∧ d.path = c.path ∧
      (∀ n, c.path.getLsbD n = true → (u.lane? x n).map (·.pc) = (s.lane? x n).map fun _ => c.pathPc + 4#64) ∧
      u.agenda = .issue x.gang x.access :: s.agenda ∧ u.mem = t.mem ∧ Quiet s u) ∧
  (∀ s t x g c core l w h, s.gang? x.gang = some g → g.ctx? x.access = some c → g.core = some core → s.launch? g.launch = some l →
    s.selectPath x = s → c.free = true → c.cur = none → c.pathAble = true → (c.aside.isSome = true ∨ s.stepGroup x = none) →
    s.trapAhead x c = false → s.frozen core g.launch = false → s.fetchWord x core l.owner c.pathPc = (.ok w, t) →
    t.headerCheck x g c l core w c.pathPc = .ok h → headerParity c h = none → t.headerReady x g c core l.owner h c.pathPc = true →
    h.cls = .alu → x.access = false → c.vgrant = none →
    ∃ u d, exec (.clauseBegin x.gang x.access) s = .next u ∧ u.ctx? x = some d ∧ d.vgrant = some (t.nextId, false) ∧ d.cur = none ∧
      u.arbOf (clusterOf core) = (t.arbRequest (clusterOf core) ⟨t.nextId, 1, g.holders.any c.path.getLsbD⟩).arbOf (clusterOf core) ∧ u.mem = t.mem ∧ Quiet s u) ∧
  (∀ s x c m k, s.ctx? x = some c → s.stepGroup x = some (m, k) → (c.cur = none ∨ (c.stroke = none ∧ c.waitsInside = true)) → c.free = true → c.aside = none →
    ∃ u d, exec (.deferredStepClause x.gang x.access) s = .next u ∧ u.ctx? x = some d ∧ d.path = m ∧ d.cur = k ∧
      d.aside = some (c.path, c.cur) ∧ d.lanes = c.lanes ∧ u.mem = s.mem ∧ Quiet s u)

/-- 02:R52, 12:R282 to R284. A long form that has nothing left to do completes: it leaves the long forms in flight and its scoreboard counter
falls by one. The entry of a load into a queue becomes the bytes at its lane's address, zero- or sign-extended, or, where a check fails or the line
holds an error, a token with the cause and the detail of that; no other entry and no register changes. -/
def Obligations.LongFormsComplete : Prop :=
  (∀ s id lat o g c, s.opReady id = true → s.op? id = some o → o.fails = [] → s.gang? o.gang = some g → g.ctx? o.access = some c →
    g.over = false → c.pend = none → c.path ≠ 0#64 →
    ∃ u, exec (.longFormComplete id lat) s = .next u ∧ u.op? id = none ∧ (∀ k, k ≠ id → u.op? k = s.op? k) ∧
      (∀ y n, u.sbCount y n = if y = ⟨o.gang, o.access⟩ ∧ n = o.sb.toNat then (s.sbCount y n).map (· - 1) else s.sbCount y n) ∧
      u.mem = s.mem ∧ Quiet s u) ∧
  (∀ s req k g core l q lane r va size sgn src pop io x ca, (s.gangs.find? fun e => (e.2.findPend req).isSome) = some (k, g) → s.gang? k = some g →
    g.findPend req = some (q, lane, .pend r va size sgn src pop io) → g.core = some core → s.launch? g.launch = some l →
    (g.queues.get? q).map (·.ca) = some ca → x = ⟨k, if pop then ca else !ca⟩ →
    g.queueLoadOver x.access lane req va size = false → s.lowerLaneFirst req lane va size = false →
    (∀ f u, s.checkVa x core l.owner .read size va = (.error f, u) → ∃ t, exec (.queueLoadFill req) s = .next t ∧ t.mem = u.mem ∧
      s.Filled t k q lane req (.tok ⟨va, src, size, sgn, f.cause, f.reason, f.x, va.setWidth 32, (va.extractLsb' 32 25).setWidth 32, f.page⟩) ∧
      (va.toNat % size ≠ 0 → f.cause = 5 ∧ f.reason = 1)) ∧
    (∀ t u, s.checkVa x core l.owner .read size va = (.ok t, u) → u.lineOwned (lineOf t.mt t.pa) = false →
      u.pendingOver x lane req t.mt t.pa size = false →
      ∃ w, exec (.queueLoadFill req) s = .next w ∧ w.mem.bytes = u.mem.bytes ∧
        if u.readPoison core size t then s.Filled w k q lane req (.tok ⟨va, src, size, sgn, 13, 3, 0#17, va.setWidth 32, (va.extractLsb' 32 25).setWidth 32, 4096⟩)
        else s.Filled w k q lane req (.val ((extendBytes sgn (u.mem.pairBytes core t.mt t.key t.pa size)).headD 0#32))))

/-- 09:R206, 11:R257, 11:R258, R261, R271, R272, 18:R430. The next line of a copy that holds its reservation lands, in a scratchpad or at a home
slice; a matrix operation that is the next of its group ends and its lines are no longer held: `mso` leaves in the scratchpad the bytes of its
reservation, `mqnt` the codes of its tile's elements, the statistics of its blocks and zero in bytes 4 to 15 of its record (log 80, DEDUCED), and every
other byte as it was; the Q4N code of a finite value is that of a codebook value nearest to it, of two the smaller magnitude. The head of an
arbiter's queue is granted. -/
def Obligations.EnginesFinish : Prop :=
  (∀ sat neg m e mf ef c, (quantElem false sat (.fin neg m e) mf ef).1 < 16 ∧ (c < 16 →
    let n : Nat := if ef ≤ e then m * 2 ^ (e - ef).toNat else m
    let w : Nat := if ef ≤ e then mf else mf * 2 ^ (ef - e).toNat
    let off (c : Nat) : Nat := ((if neg then -(64 * n : Int) else 64 * n) - q4nBook.getD c 0 * w).natAbs
    let b := (quantElem false sat (.fin neg m e) mf ef).1
    off b ≤ off c ∧ (off b = off c → (q4nBook.getD b 0).natAbs ≤ (q4nBook.getD c 0).natAbs))) ∧
  (∀ s op o p rest, s.op? op = some o → o.data = .copy (p :: rest) true → p.spad = true → s.lineAwaited op p.group (p.dst / 128) true = false →
    ∃ u, exec (.copyLineLands op) s = .next u ∧ (∃ b, (u.op? op).map (·.data) = some (.copy rest b)) ∧ u.mem = s.mem ∧
      (∀ g, (u.group? p.group) = some g → ∀ i, i < p.bytes.length → g.spadByte (p.dst + i) = p.bytes.getD i 0#8) ∧
      (∀ g h, (u.group? p.group) = some g → s.group? p.group = some h → ∀ a, a < p.dst ∨ p.dst + p.bytes.length ≤ a → g.spadByte a = h.spadByte a) ∧
      ∀ k, k ≠ p.group → u.group? k = s.group? k) ∧
  (∀ s op o p rest, s.op? op = some o → o.data = .copy (p :: rest) true → p.spad = false →
    s.pairBehind o.core (s.fencedTo ⟨o.gang, o.access⟩ p.lane) op = false → (p.dst / 2 ^ 52 = 2 → s.dev.linkDown.has (peerPort (p.dst % 2 ^ 52)) = false) →
    ∃ u, exec (.copyLineLands op) s = .next u ∧ (∃ b, (u.op? op).map (·.data) = some (.copy rest b)) ∧ u.groups = s.groups ∧
      Stored s.mem u.mem (BitVec.ofNat 2 (p.dst / 2 ^ 52)) p.key (p.dst % 2 ^ 52) p.bytes) ∧
  (∀ s op o m k, s.op? op = some o → o.data = .matrix m k true → s.matFirst op k = true →
    ∃ u, exec (.matrixOpComplete op) s = .next u ∧ (u.op? op).map (·.data) = some .none ∧
      (∀ n i, u.cores.heldLines.get? n = some i → i ≠ op) ∧ u.mem = s.mem ∧
      (∀ ws, m = .load ws → u.groups = (s.updGroup k fun g => g.opndPut ws).groups) ∧
      (∀ ws, m = .put ws → u.groups = (s.spadPuts ws).groups) ∧
      (∀ ms g, m = .store ms → s.group? k = some g → (ms.map fun x => (x.1, x.2.1)).Nodup →
        (∀ x ∈ ms, ∀ h, u.group? x.1 = some h → h.spadByte x.2.1 = g.opndByte x.2.2) ∧
        ∀ n a, (∀ x ∈ ms, x.1 = n → x.2.1 ≠ a) → (u.group? n).map (·.spadByte a) = (s.group? n).map (·.spadByte a)) ∧
      (∀ tile e4 sat col scale codes dg d sg st zeros g, m = .quant tile e4 sat col scale codes dg d sg st zeros → s.group? k = some g →
        scaleOk scale = true →
        (∀ h, u.group? sg = some h → ∀ q i, q < 128 → i < 8 →
          h.spadByte (st + 8 * q + i) = (leBytes 8 (g.mqStats tile e4 sat col scale (codes.getD q 0) q)).getD i 0#8) ∧
        (∀ h, u.group? dg = some h → ∀ q i, q < 128 → i < 64 →
          (e4 = true → (dg = sg → d + (64 * q + i) < st ∨ st + 1024 ≤ d + (64 * q + i)) →
            h.spadByte (d + (64 * q + i)) = BitVec.ofNat 8 (g.mqCode tile e4 sat col scale (codes.getD q 0) q i).1) ∧
          (e4 = false → (dg = sg → d + (32 * q + i / 2) < st ∨ st + 1024 ≤ d + (32 * q + i / 2)) →
            (h.spadByte (d + (32 * q + i / 2))).extractLsb' (4 * (i % 2)) 4 =
              BitVec.ofNat 4 (g.mqCode tile e4 sat col scale (codes.getD q 0) q i).1)) ∧
        (∀ z ∈ zeros, (z.1 = dg → z.2 < d ∨ d + (if e4 then 8192 else 4096) ≤ z.2) → (z.1 = sg → z.2 < st ∨ st + 1024 ≤ z.2) →
          ∀ h, u.group? z.1 = some h → h.spadByte z.2 = 0#8) ∧
        ∀ n a, (n = dg → a < d ∨ d + (if e4 then 8192 else 4096) ≤ a) → (n = sg → a < st ∨ st + 1024 ≤ a) → (n, a) ∉ zeros →
          (u.group? n).map (·.spadByte a) = (s.group? n).map (·.spadByte a)) ∧
      (∀ int zero tile r n k' ar ak br bk qa qb, m = .mac int zero tile r n k' ar ak br bk qa qb →
        u.groups = (s.updGroup k fun g => g.macDo int zero tile r n k' ar ak br bk qa qb).groups)) ∧
  (∀ s n r rest o, (s.arbOf n).q = r :: rest → s.arbCan n = true → s.op? r.op = some o →
    ∃ u, exec (.currentReservationGrant n) s = .next u ∧ u.arbOf n = ⟨rest, (s.arbOf n).out ++ [(r.op, r.demand)]⟩ ∧
      (∃ w, u.op? r.op = some { o with data := o.data.grant, samples := o.samples ++ [(0x44, w)] }) ∧ u.mem = s.mem ∧ Quiet s u) ∧
  (∀ s n r rest x, (s.arbOf n).q = r :: rest → s.arbCan n = true → s.op? r.op = none → s.arbClause r.op = some x →
    ∃ u, exec (.currentReservationGrant n) s = .next u ∧ u.arbOf n = ⟨rest, (s.arbOf n).out ++ [(r.op, r.demand)]⟩ ∧
      (u.ctx? x).map (·.vgrant) = some (some (r.op, true)) ∧ u.agenda = .issue x.gang x.access :: s.agenda ∧ u.mem = s.mem ∧ Quiet s u)

/-- 09:R199, R210 to R217, 10:R221, R233, R235, R239, 08:R171, 18:R422. A buffered write that may leave is stored and removed; a request of one
lane at a home slice that passes its checks is performed: a store stores, an atomic stores its function of the old value, a compare and
swap its C operand where the old value is its B operand, a load stores nothing; an atomic and a compare and swap deliver the old value, a load the
bytes that it reads, extended. A `waitv` that finds another value delivers it and goes on; one that finds the value it expects joins the waiters on
its address and waits, or raises POOL where it finds no place. `notify1` wakes the waiter enqueued earliest on exactly its address, `notifyall` every
one: each takes the value there and goes on; with none a notify has no effect. A relaxed `ared` outside ordered mode is first accepted and then
performed; in ordered mode it is performed where it is accepted (log 99, DEDUCED). -/
def Obligations.HomeSlicesAct : Prop :=
  (∀ s k w, s.mem.wbuf.get? k = some w → s.drainable k w = true →
    ∃ u, exec (.writeBufferDrain k) s = .next u ∧ Stored s.mem u.mem w.mt w.key w.pa w.bytes ∧ u.mem.wbuf = s.mem.wbuf.del k ∧
      (w.mt = 0#2 → u.mem.relOf (lineOf w.mt w.pa) = (s.mem.relOf (lineOf w.mt w.pa)).write w.writer w.rel false) ∧
      (w.mt = 1#2 → u.mem.hostWr.has k = true) ∧ Quiet s u) ∧
  (∀ s k w, s.mem.hostWr.get? k = some w →
    ∃ u, exec (.hostWriteAcknowledgement k) s = .next u ∧ u.mem.hostWr = s.mem.hostWr.del k ∧ u.mem.bytes = s.mem.bytes ∧
      (∀ i, w.op = some i → (u.op? i).map (·.left) = (s.op? i).map fun o => o.left &&& ~~~bit w.lane) ∧ Quiet s u) ∧
  (∀ s k r o, s.home.q.get? k = some r → s.home.sameAct r = [k] → s.reqReady k r = true → s.op? r.op = some o → r.late = none →
    s.home.wakeOf r = none → (match s.reqCheck o r with | .pass => True | _ => False) →
    (match o.i with
     | .ld .. | .st .. | .atom .. | .acas .. => True
     | .ared _ _ _ _ m _ => m.ord ≠ 0#2 ∨ (s.writer o.gang r.lane o.access).ordered = true
     | _ => False) →
    ∃ u, exec (.homeSliceAct k) s = .next u ∧ u.home.q.get? k = none ∧ (u.op? r.op).map (·.left) = some (o.left &&& ~~~bit r.lane) ∧
      (∀ p l n d m, o.i = .ld p l n d m → u.mem.bytes = s.mem.bytes) ∧
      (∀ p l n m b, o.i = .st p l n m b → Stored s.mem u.mem r.mt r.key r.pa ((wordBytes r.b).take (stSize n))) ∧
      (∀ p l n f d m b, o.i = .atom p l n f d m b → Stored s.mem u.mem r.mt r.key r.pa (leBytes (atomForm n f).1
        ((atomForm n f).2 (leNat (s.mem.readBytes r.mt r.key r.pa (atomForm n f).1)) (leNat (wordBytes r.b))))) ∧
      (∀ p l n f m b, o.i = .ared p l n f m b → Stored s.mem u.mem r.mt r.key r.pa (leBytes (aredForm n f).1
        ((aredForm n f).2 (leNat (s.mem.readBytes r.mt r.key r.pa (aredForm n f).1)) (leNat (wordBytes r.b))))) ∧
      (∀ p l w d m b c, o.i = .acas p l w d m b c →
        if leNat (s.mem.readBytes r.mt r.key r.pa (if w then 8 else 4)) = leNat (wordBytes r.b)
        then Stored s.mem u.mem r.mt r.key r.pa (leBytes (if w then 8 else 4) (leNat (wordBytes r.c))) else u.mem.bytes = s.mem.bytes) ∧
      (s.laneLive ⟨o.gang, o.access⟩ r.lane = true →
        (∀ p l n d m, o.i = .ld p l n d m → Gets s u o r.lane d (extendBytes (ldSigned n)
          (if m.ord = 0#2 then s.mem.pairBytes o.core r.mt r.key r.pa (ldSize n) else s.mem.readBytes r.mt r.key r.pa (ldSize n)))) ∧
        (∀ p l n f d m b, o.i = .atom p l n f d m b → Gets s u o r.lane d
          (bytesWords ((atomForm n f).1 / 4) (s.mem.readBytes r.mt r.key r.pa (atomForm n f).1))) ∧
        (∀ p l w d m b c, o.i = .acas p l w d m b c → Gets s u o r.lane d
          (bytesWords (if w then 2 else 1) (s.mem.readBytes r.mt r.key r.pa (if w then 8 else 4))))) ∧
      (∀ y j n, n < 64 → r.lane < 64 → (y ≠ ⟨o.gang, o.access⟩ ∨ n ≠ r.lane) → u.vreg y j n = s.vreg y j n) ∧
      ∀ y j, y ≠ ⟨o.gang, o.access⟩ → u.sreg y j = s.sreg y j) ∧
  (∀ s k r o p l w d m b x vs, s.home.q.get? k = some r → s.home.sameAct r = [k] → s.reqReady k r = true → s.op? r.op = some o → r.late = none →
    s.home.wakeOf r = none → (match s.reqCheck o r with | .pass => True | _ => False) → o.i = .waitv p l w d m b →
    x = ⟨o.gang, o.access⟩ → r.gang = o.gang → r.access = o.access → r.b.length = (if w then 2 else 1) →
    vs = bytesWords r.b.length (s.mem.readBytes r.mt r.key r.pa (4 * r.b.length)) → s.laneLive x r.lane = true →
    (vs ≠ r.b → ∃ u, exec (.homeSliceAct k) s = .next u ∧ Gets s u o r.lane d vs ∧ u.home.q.get? k = none ∧
      (u.op? r.op).map (·.left) = some (o.left &&& ~~~bit r.lane) ∧ (u.lane? x r.lane).map (·.ws) ≠ some .waitv ∧
      u.home.monitors = s.home.monitors ∧ u.mem.bytes = s.mem.bytes) ∧
    (vs = r.b → s.unspilled → ∃ u, exec (.homeSliceAct k) s = .next u ∧ u.home.q.get? k = none ∧ u.op? r.op = some o ∧
      u.home.monitors.getD r.pa [] = s.home.monitors.getD r.pa [] ++ [⟨r.gang, r.access, r.lane, r.op, r.b.length, r.va, r.key, false, false, false⟩] ∧
      (∀ a, a ≠ r.pa → u.home.monitors.getD a [] = s.home.monitors.getD a []) ∧
      (∀ a, s.lane? x r.lane = some a → a.ws ≠ .stopped → (u.lane? x r.lane).map (·.ws) = some .waitv) ∧ u.mem.bytes = s.mem.bytes ∧ Quiet s u) ∧
    (vs = r.b → s.roomFor (waitEnt (r.pa / 128)) (homeSlice r.pa r.sh) = false → ∃ u, exec (.homeSliceAct k) s = .next u ∧
      u.home.q.get? k = none ∧ ((u.op? r.op).bind fun q => q.fails.get? r.lane).map (fun t => (t.cause, t.reason)) = some (15, 2) ∧
      u.home.monitors = s.home.monitors ∧ u.mem.bytes = s.mem.bytes ∧ Quiet s u)) ∧
  (∀ s k r o all ws go, s.home.q.get? k = some r → s.home.sameAct r = [k] → s.reqReady k r = true → s.op? r.op = some o → r.late = none →
    s.home.wakeOf r = none → (match s.reqCheck o r with | .pass => True | _ => False) →
    (match o.i with | .notify1 .. => all = false | .notifyall .. => all = true | _ => False) → s.unspilled → r.mt = 0#2 →
    ws = (s.home.monitors.getD r.pa []).filter (fun w => !w.woken) → go = (if all then ws else ws.take 1) →
    ((s.home.monitors.getD r.pa []).map fun w => (w.gang, w.access, w.lane)).Nodup →
    (∀ w ∈ go, ∃ q, Wakes (s.notified k o r) r.pa w q) →
    ∃ u, exec (.homeSliceAct k) s = .next u ∧ u.home.q.get? k = none ∧ u.mem.bytes = s.mem.bytes ∧
      ((u.op? r.op).map fun q => q.left.getLsbD r.lane) ≠ some true ∧
      u.home.monitors.getD r.pa [] = (s.home.monitors.getD r.pa []).filter (fun w => !go.contains w) ∧
      (∀ a, a ≠ r.pa → u.home.monitors.getD a [] = s.home.monitors.getD a []) ∧
      (ws = [] → Quiet s u) ∧
      ∀ w ∈ go, ∀ q p l f d m b, s.op? w.op = some q → q.i = .waitv p l f d m b →
        ((u.op? w.op).map fun o => o.left.getLsbD w.lane) ≠ some true ∧ (u.lane? ⟨w.gang, w.access⟩ w.lane).map (·.ws) ≠ some .waitv ∧
        (go = [w] → Gets s u q w.lane d (bytesWords w.words (s.mem.readBytes 0#2 w.key r.pa (4 * w.words)))) ∧
        ∀ v, d = .v v → Gets s u q w.lane d (bytesWords w.words (s.mem.readBytes 0#2 w.key r.pa (4 * w.words)))) ∧
  (∀ s k r o p l n f m b, s.home.q.get? k = some r → s.home.sameAct r = [k] → s.reqReady k r = true → o.i = .ared p l n f m b → m.ord = 0#2 →
    (s.op? r.op = some o → r.late = none → s.home.wakeOf r = none → (match s.reqCheck o r with | .pass => True | _ => False) →
      (s.writer o.gang r.lane o.access).ordered = false →
      ∃ u, exec (.homeSliceAct k) s = .next u ∧ u.home.q.get? k = some { r with late := some o } ∧ u.mem = s.mem ∧
        (u.op? r.op).map (·.left) = some (o.left &&& ~~~bit r.lane) ∧ Quiet s u) ∧
    (r.late = some o → ∃ u, exec (.homeSliceAct k) s = .next u ∧ u.home.q.get? k = none ∧
      Stored s.mem u.mem r.mt r.key r.pa (leBytes (aredForm n f).1
        ((aredForm n f).2 (leNat (s.mem.readBytes r.mt r.key r.pa (aredForm n f).1)) (leNat (wordBytes r.b)))))) ∧
  (∀ s k r o, s.home.q.get? k = some r → r.waitsPromotion = true → s.op? r.op = some o → o.data = .home →
    (∀ w ∈ s.mem.wbuf.vals, samePair w.core (s.mem.relOf (lineOf r.mt r.pa)).rcore.toNat = false ∧
      w.core ≠ (s.mem.relOf (lineOf r.mt r.pa)).rcore.toNat) →
    ∃ u, exec (.promotion k) s = .next u ∧ u.home.q.get? k = some { r with promoted := true } ∧ u.mem.bytes = s.mem.bytes ∧
      (∀ c, s.mem.relOf (lineOf r.mt r.pa) = c → c.v = true → c.rsco.toNat < 3 → u.mem.relOf (lineOf r.mt r.pa) = { c with rsco := 3#3 }) ∧
      Quiet s u) ∧
  (∀ s core owner va write o l, canonical va = true → s.mem.owners.get? owner = some o → s.mem.ownerWalk o va = .ok l →
    permitted (if write then .write else .read) false l.e.x l.w l.u = none →
    ∃ u, exec (.pageWalk core owner va write) s = .next u ∧
      (∃ e ∈ u.mem.tlb.getD core [], e.owner = owner ∧ e.va ≤ va.toNat ∧ va.toNat < e.va + e.size ∧ e.mt = l.e.mt ∧ e.key = l.e.key ∧
        e.w = l.w ∧ e.u = l.u) ∧
      (u.mem.pte 0#10 l.at_).a = true ∧ (write = true → (u.mem.pte 0#10 l.at_).d = true) ∧ Quiet s u) ∧
  (∀ s k r o, s.home.q.get? k = some r → r.mt = 2#2 → s.op? r.op = some o → s.peerLate r.io = true →
    ∃ u t, exec (.peerTimeout k) s = .next u ∧ u.home.q.get? k = none ∧ (homeWrites o.i = false → u.mem = s.mem) ∧
      (s.reqBytesNow o r = none → u.mem = s.mem) ∧
      (∀ bs, s.reqBytesNow o r = some bs → u.mem = s.mem ∨ Stored s.mem u.mem r.mt r.key r.pa bs) ∧
      u.op? r.op = some { o with left := o.left &&& ~~~bit r.lane, fails := o.fails.put r.lane t } ∧ t.cause = 16 ∧ t.reason = 3 ∧ Quiet s u)

/-! ### Events: traps -/

/-- 16:R383 to R386, R390. A pending trap with nothing in flight enters its handler, is delegated directly, or is a double trap; a context in
back-off issues again at its tick; RETRY and SKIP return to the return point, or after the raising instruction; END ends the launch.
That a direct delegation writes `tlm` and `tra` beside a `tcg` of 0 (log 40), and that SKIP of a ring fault acts as END (log 48), is the model's
reading (DEDUCED). -/
def Obligations.TrapEventsHappen : Prop :=
  (∀ s x g c l t core, s.gang? x.gang = some g → g.ctx? x.access = some c → c.late = [] → c.pend = some t → g.core = some core →
    s.launch? g.launch = some l → g.holder? = none → s.taking x = some .handler → s.quiet x = true → s.noPermit x core = false →
    ∃ u d f, exec (.trapEntry x.gang x.access) s = .next u ∧ u.ctx? x = some d ∧ d.tcg = BitVec.ofNat 32 t.cause ∧ d.tlm = t.lanes ∧
      d.d0 = t.d0 ∧ d.d1 = t.d1 ∧ d.d2 = t.d2 ∧ d.tra = t.tra ∧ d.frame = some f ∧ f.path = c.path ∧ f.k = c.k ∧ f.trap = t ∧
      f.delegated = false ∧ d.pend = none ∧ u.hasPermit x = true ∧
      (∀ n, c.path.getLsbD n = true → (u.lane? x n).map (fun a => (a.pc, a.ws)) = (s.lane? x n).map fun _ => (l.kern.tentry, .trapped)) ∧
      ∀ y r k, u.vreg y r k = s.vreg y r k) ∧
  (∀ s x g c t core, s.gang? x.gang = some g → g.ctx? x.access = some c → c.late = [] → c.pend = some t → g.core = some core →
    g.holder? = none → s.taking x = some .direct → s.quiet x = true → s.noPermit x core = false → s.delegRoom = true →
    ∃ u d f, exec (.directDelegation x.gang x.access) s = .next u ∧ u.ctx? x = some d ∧ d.tcg = 0#32 ∧ d.tlm = t.lanes ∧ d.tra = t.tra ∧
      d.frame = some f ∧ f.path = c.path ∧ f.trap = t ∧ f.delegated = true ∧ d.pend = none ∧ u.hasPermit x = false ∧
      u.ctl.delegs = s.ctl.delegs.put s.nextId ⟨.context x, t, 0#32, true, false⟩ ∧ ∀ y r k, u.vreg y r k = s.vreg y r k) ∧
  (∀ s x g c t core, s.gang? x.gang = some g → g.ctx? x.access = some c → c.late = [] → c.pend = some t → g.core = some core →
    s.taking x = some .double → s.quiet x = true → s.delegRoom = true →
    ∃ u d, exec (.doubleTrap x.gang x.access) s = .next u ∧ u.ctx? x = some d ∧ d.pend = none ∧ u.hasPermit x = false ∧
      u.ctl.delegs = s.ctl.delegs.put s.nextId ⟨.context x, t, 0#32, false, true⟩ ∧
      u.agenda = .event (.launchEndEarly g.launch t.cause) :: s.agenda ∧ ∀ y r k, u.vreg y r k = s.vreg y r k) ∧
  (∀ s x c t, s.ctx? x = some c → c.retryAt = some t → t ≤ s.tick (s.clusterOfGang x.gang) →
    ∃ u, exec (.permitBackoffExpiry x.gang x.access) s = .next u ∧ (u.ctx? x).map (·.retryAt) = some none ∧
      u.agenda = .issue x.gang x.access :: s.agenda ∧ u.mem = s.mem ∧ Quiet s u) ∧
  (∀ s n x d f c pc, s.delegOf n = .context x d f → s.ctx? x = some c → s.frameHolder x f = false → f.trap.tok = false → f.trap.resume = none →
    f.trap.skip = some pc → (∀ a ∈ c.lanes, f.path.getLsbD a.1 = true → a.2.pstop = false ∧ a.2.pkill = false) →
    c.lanes.any (fun a => f.path.getLsbD a.1) = true → (∀ g, s.gang? x.gang = some g → g.holder? = none) →
    ∃ u v, exec (.retry n) s = .next u ∧ exec (.skip n) s = .next v ∧
      (∀ t ∈ [u, v], t.ctl.delegs = s.ctl.delegs.del n ∧ t.hasPermit x = false ∧
        (t.ctx? x).map (fun a => (a.tcg, a.frame, a.k)) = some (0#32, none, f.k)) ∧
      (∀ k, f.path.getLsbD k = true → (u.lane? x k).map (fun a => (a.pc, a.ws)) = (s.lane? x k).map fun _ => (f.trap.ret, .ready)) ∧
      ∀ k, f.path.getLsbD k = true → (v.lane? x k).map (fun a => (a.pc, a.ws)) = (s.lane? x k).map fun _ => (pc, .ready)) ∧
  (∀ s n x d g, s.ctl.delegs.get? n = some d → d.src = .context x → s.gang? x.gang = some g →
    ∃ u, exec (.endRes n) s = .next u ∧ u.ctl.delegs = s.ctl.delegs.del n ∧
      u.agenda = .event (.launchEndEarly g.launch d.trap.cause) :: s.agenda ∧ Quiet s u) ∧
  (∀ s n d l q k w, s.ctl.delegs.get? n = some d → d.src = .ring l q k → s.launch? l = some w → w.seq = q →
    ∃ u v, exec (.endRes n) s = .next u ∧ exec (.skip n) s = .next v ∧
      ∀ t ∈ [u, v], t.ctl.delegs = s.ctl.delegs.del n ∧ t.agenda = .event (.launchEndEarly l d.trap.cause) :: s.agenda ∧ Quiet s t)

/-! ### Events: launches and dunes -/

/-- 01:R16 to R20, R27, R28, R447, 08:R183. A good record becomes a launch; a complete launch writes its completion word and is gone; an end
before its time is recorded with its cause, and once nothing of the launch runs or is in flight the launch is gone; a line of an
allotment is filled; access lanes whose threads have ended end, with their queue entries. That an early end is first recorded and in later steps
carried out is the model's form (log 63, DEDUCED). -/
def Obligations.LaunchesComeAndGo : Prop :=
  (∀ s ring r e o t m1 d m2 ps m3 n, s.takesRecord ring = true → s.launches.rings.get? ring = some r → s.ringEntry r = e → s.ringOwner ring = o →
    s.mem.dispXlat o .write (fieldD e 0x30) = (.ok t, m1) → (fieldD e 0x30).toNat % 8 = 0 →
    m1.dispReads o 2 (fieldD e 0x00) 64 = (some d, m2) →
    m2.dispReads o (fieldAt e 0x10 4 / 4096 + 2) (fieldD e 0x08) (fieldAt e 0x10 4) = (some ps, m3) →
    recordOk e = true → kernOk d (fieldAt e 0x10 4) = true → ptwOk (launchPtw e d) = true →
    fitsEmpty (BitVec.ofNat 24 (launchPtw e d)) (Kern.ofBytes d) (fieldAt e 0x1A 2) = true →
    freeLaunch s.launches.tab 0xFFFF (match s.launches.last with | none => 0 | some k => k + 1) = some n →
    ∃ u, exec (.launchRecordTake ring) s = .next u ∧ u.launch? n = some (Launch.ofRecord e d ps ring o s.launches.seq) ∧
      u.launches.rings.get? ring = some { r with head := r.head + 1#64 } ∧ u.mem = m3 ∧ Quiet s u) ∧
  (∀ s n l t m, s.launch? n = some l → s.launchDone n l = true → s.mem.dispXlat l.owner .write l.done = (.ok t, m) →
    ∃ u, exec (.launchCompletion n) s = .next u ∧ u.launch? n = none ∧ u.groups = s.groups ∧ u.gangs = s.gangs ∧
      Stored m u.mem t.mt t.key t.pa (leBytes 8 (l.retired * 2 ^ 32 +
        (if l.killed then 2 * 32 else match l.exitCause with | some c => 3 * 32 + c | none => 0))) ∧
      u.launches.msix = s.launches.msix ++ (if l.irq then [l.ivec] else [])) ∧
  (∀ s n l cause, s.launch? n = some l → l.ended = none →
    ∃ u, exec (.launchEndEarly n cause) s = .next u ∧ (u.launch? n).map (·.ended) = some (some cause) ∧ u.mem = s.mem ∧ Quiet s u) ∧
  (∀ s n l c cause, s.launch? n = some l → l.ended = some c → (∀ k ∈ s.gangsOfLaunch n, ∀ g, s.gang? k = some g → g.over = true) →
    s.launchQuiet n = true → ∃ u, exec (.launchEndEarly n cause) s = .next u ∧ u.launch? n = none) ∧
  (∀ s n line g, s.group? n = some g → g.core.isSome = true → line ∈ g.filling →
    (s.ops.vals.any fun o => match o.data with | .copy .. => true | _ => false) = false → s.lineOwed n line = false →
    ∃ u h, exec (.allotmentFill n line) s = .next u ∧ u.group? n = some h ∧ h.absent = g.absent.del line ∧ line ∉ h.filling ∧
      h.spad = g.spad ∧ u.mem = s.mem) ∧
  (∀ s n g a, s.gang? n = some g → g.actx = some a → g.orphansAtEnd ≠ 0#64 → a.cur = none →
    ∃ u, exec (.accessContextEnd n) s = .next u ∧ ∀ k, g.orphansAtEnd.getLsbD k = true → u.lane? ⟨n, true⟩ k = none ∧ ∀ q, u.queue n q k = [])

/-- 01:R14, R21, R22, R33, 13:R304 to R308. The next team enters a root dune; the team at the head of the first ready root dune is placed; the
first ready program dune fires its batch; an item moves from a ring into the store; what is ready makes its cluster's engine look. -/
def Obligations.DunesFire : Prop :=
  (∀ s n cluster l r, s.launch? n = some l → l.roots.get? cluster = some r → r.items.length < 64 → r.cursor < l.teams → l.ended = none →
    ∃ u, exec (.rootDuneEnqueue n cluster) s = .next u ∧
      (u.launch? n).bind (·.roots.get? cluster) = some ⟨r.cursor + 24, r.items ++ [(r.cursor, BitVec.ofNat 32 (s.tick cluster))]⟩ ∧
      u.mem = s.mem ∧ Quiet s u) ∧
  (∀ s n cluster core r rs l q team t rest, s.ranking cluster = r :: rs → r.launch = n → r.dune = 1024 → core ∈ s.fireCores cluster r →
    s.launch? n = some l → l.roots.get? cluster = some q → q.items = (team, t) :: rest →
    ∃ u, exec (.rootDuneFiring n cluster core) s = .next u ∧ u.group? s.nextId = some (Group.placed l n team 0 core) ∧
      (∀ i, i < l.gangs → ∃ g, u.gang? (s.nextId + 1 + i) = some g ∧ g.group = s.nextId ∧ g.launch = n ∧ g.num = i ∧ g.core = some core ∧
        g.cctx = Ctx.fresh (List.range l.kern.width) l.kern.centry ∧ g.threads.keys = List.range l.kern.width) ∧ u.mem = s.mem) ∧
  (∀ s cluster core r rs l d team xs, s.ranking cluster = r :: rs → r.dune ≠ 1024 → core ∈ s.fireCores cluster r →
    s.launch? r.launch = some l → s.dune? r.launch r.dune = some d → s.freshTeam r.launch l = some team →
    s.mem.headItems l.owner d (s.batchSize r.launch l r.dune d) = .ok xs →
    ∃ u g, exec (.duneFiring cluster core) s = .next u ∧ u.group? s.nextId = some (Group.placed l r.launch team 0 core) ∧
      u.gang? (s.nextId + 1) = some g ∧ g.group = s.nextId ∧ g.core = some core ∧ g.dune = some r.dune ∧ g.prio = d.cls ∧
      g.threads = xs.zipIdx.map (fun p => (p.2, Thread.fresh p.1.fam p.1.lin .live)) ∧ u.mem = s.mem ∧
      ((u.dune? r.launch r.dune).map fun a => a.items) = some (d.items.drop (s.batchSize r.launch l r.dune d))) ∧
  (∀ s n dn l d i, s.launch? n = some l → s.dune? n dn = some d → s.firing? d.home = some i →
    (s.duneReady n l dn d = true → ∃ u, exec (.driftExpiry n dn) s = .next u ∧ u.agenda = .event i :: s.agenda ∧ u.mem = s.mem ∧ Quiet s u) ∧
    (s.duneStarving n l dn d = true → ∃ u, exec (.starving n dn) s = .next u ∧ u.agenda = .event i :: s.agenda ∧ u.mem = s.mem ∧ Quiet s u)) ∧
  (∀ s n l, s.launch? n = some l → s.finalDue n l = true →
    ∃ u, exec (.finalDrain n) s = .next u ∧ u.mem = s.mem ∧ Quiet s u ∧
      (u.launch? n).map (·.finalDrain) = some ((l.dunes.filter fun e => decide (e.2.count ≠ 0)).map fun e =>
        (e.1, e.2.items.map (·.serial)))) ∧
  (∀ s n dn l d x xs bs, s.launch? n = some l → s.dune? n dn = some d → d.ringed = x :: xs → d.ringFault = none →
    s.freeSlots d.home ≠ 0 → s.mem.dispRead l.owner (d.ringVa d.ringPos) 64 = .ok bs →
    ∃ u, exec (.ringItemMove n dn) s = .next u ∧ u.mem = s.mem ∧ Quiet s u ∧ u.dune? n dn =
      some { d with store := d.store ++ [Item.ofBytes bs x.serial], ringPos := d.ringPos + 1, ringed := xs }) ∧
  (∀ s n dn d, s.dune? n dn = some d → ∃ u, exec (.duneRingFaultResolution n dn) s = .next u ∧
    u.dune? n dn = some { d with ringFault := none } ∧ Quiet s u ∧
    ∀ k, u.ctl.delegs.get? k = if k ∈ s.ringDelegs n dn then none else s.ctl.delegs.get? k)

/-! ### Events: eviction, waits and time -/

/-- 01:R24 to R26, R30, R31, 08:R187, R188, 12:R288, 15:R358, 17:R403, R408. What qualifies is evicted and restored, aged, demoted, woken and
committed, and counters of time advance by one; general registers keep their values. Energy accumulators advance once for each interval of
17:R408; what the device accumulator adds beside the clusters' measurements is free (log 104, DEDUCED). -/
def Obligations.GangsComeAndGo : Prop :=
  (∀ s n g core l a, s.gang? n = some g → s.evictableNow n = true → g.core = some core → s.launch? g.launch = some l → g.holder? = none →
    (∀ w ∈ s.mem.wbuf.vals, samePair w.core core = false) → (∀ o ∈ s.ops.vals, o.gang ≠ n) → s.coreHeld core = false →
    (s.gangsOf g.group).any (fun k => decide (k ≠ n) && (s.coreOf k).isSome) = true → a = g.savep.toNat →
    (∀ r, s.mem.areas.get? a = some r → r.size ≤ l.kern.saveBytes g.width) →
    ∃ u, exec (.evictRequest n) s = .next u ∧ u.groups = s.groups ∧ u.ctl.evictFailed = false ∧ Quiet s u ∧
      u.gang? n = some { g with core := none, evictable := none, cctx := g.cctx.allDue, actx := g.actx.map Ctx.allDue } ∧
      ∀ mt key pa, (mt ≠ 0#2 ∨ 128 * (pa / 128) + 128 ≤ a ∨ a + l.kern.saveBytes g.width ≤ 128 * (pa / 128)) → u.byte mt key pa = s.byte mt key pa) ∧
  (∀ s n, s.evictableNow n = false → exec (.evictRequest n) s = .next (s.setCtl { s.ctl with evictFailed := true })) ∧
  (∀ s n g since r, s.gang? n = some g → s.evictableNow n = true → g.evictable = some since →
    s.setting 0x0000 ≤ s.tick (s.clusterOfGang n) - since → ((s.noteEvictable n).ranking (s.clusterOfGang n)).head? = some r →
    ∃ u, exec (.evictionDelay n) s = .next u ∧ u.mem = s.mem ∧ Quiet s u ∧ u.agenda = .event (if r.dune = 1024
      then .rootDuneFiring r.launch (s.clusterOfGang n) (8 * s.clusterOfGang n) else .duneFiring (s.clusterOfGang n) (8 * s.clusterOfGang n)) :: s.agenda) ∧
  (∀ s n g, s.gang? n = some g →
    ∃ u, exec (.absentLineLimit n) s = .next u ∧ u.mem = s.mem ∧ Quiet s u ∧ (u.gang? n).map (·.evictable) =
      some (if s.evictableNow n then some (g.evictable.getD (s.tick (s.clusterOfGang n))) else none)) ∧
  (∀ s n core g l r, s.restorable n = true → core < 192 → s.gang? n = some g → s.launch? g.launch = some l → l.ended = none →
    s.coreHeld core = false → s.launchHeld g.launch = false → s.group? g.group = some r → r.core = some core → s.launch? r.launch = some l →
    s.gangsFit core l.ptw l.kern 1 = true → s.areasGood g l = true → s.home.monitors = [] → (∀ t ∈ g.threads.vals, t.link.role = .none) →
    s.recordsBack n core ≤ 2048 →
    ∃ u, exec (.gangRestore n core) s = .next u ∧
      (u.gang? n).map (fun h => (h.core, h.cctx.lanes, h.cctx.due, h.actx.map fun c => (c.lanes, c.due), h.threads)) =
      some (some core, g.cctx.lanes, 0#64, g.actx.map fun c => (c.lanes, 0#64), g.threads) ∧ u.mem = s.mem ∧
      (∀ y r k, u.vreg y r k = s.vreg y r k) ∧ (∀ y r, u.sreg y r = s.sreg y r) ∧ ∀ j k r, u.creg j k r = s.creg j k r) ∧
  (∀ s x c core t, s.ctx? x = some c → s.coreOf x.gang = some core → c.parkedAt = some t → c.frame = none →
    (∀ p ∈ c.parkedOn, ∀ r, s.group? p.1 = some r → r.absent.has p.2 = false) →
    ∃ u, exec (.absentLineWake x.gang x.access) s = .next u ∧ (u.ctx? x).map (·.parkedAt) = some none ∧ u.mem = s.mem ∧ Quiet s u ∧
      ∀ n a, s.lane? x n = some a → a.held = none → a.ws = .parked → (u.lane? x n).map (·.ws) = some .ready) ∧
  (∀ s n c k t core, s.ctx? ⟨n, false⟩ = some c → c.stroke = some k → s.thread? n k.lane = some t → c.cur = none → c.pend = none →
    s.quiet ⟨n, false⟩ = true → s.coreOf n = some core → t.link.adopted = false → s.anchorPoison t.link.anc = false →
    (s.onKey t.link.key t.link.anc).linkMatches n k.lane t.link = true → t.link.stroke ≠ 32 →
    s.actWaits ⟨n, false⟩ (t.link.line :: k.stores.map fun w => lineOf 0#2 w.1) = false → (∀ w ∈ k.stores, s.anchorAt 0#2 w.1 = false) →
    (∀ a ∈ c.lanes, a.2.ws ≠ .stopped ∧ a.2.pstep = false) →
    ∃ u, exec (.strokeCommit n) s = .next u ∧ (u.ctx? ⟨n, false⟩).map (·.stroke) = some none ∧
      u.thread? n k.lane = some { t with link := { t.link with stroke := t.link.stroke + 1 } } ∧ Quiet s u ∧
      (s.unspilled → t.link.anc % 128 = 0 →
        (∀ pa x, pa / 128 ≠ t.link.anc / 128 → k.own pa = some x → u.byte 0#2 t.link.key pa = x.2.1.getD (pa - x.1) 0#8) ∧
        (∀ pa, pa / 128 ≠ t.link.anc / 128 → k.own pa = none → s.mem.lineKey.get? (lineOf 0#2 pa) = some t.link.key →
          u.byte 0#2 t.link.key pa = s.byte 0#2 t.link.key pa) ∧
        ((∀ w ∈ k.stores, ∀ a, w.1 ≤ a → a < w.1 + w.2.1.length → a / 128 ≠ t.link.anc / 128) →
          (u.mem.anc0 t.link.anc).stroke = ((s.onKey t.link.key t.link.anc).mem.anc0 t.link.anc).stroke + 1#8 ∧
          u.mem.ancWord t.link.anc 2 = c.pathPc ∧ u.mem.checkpoint t.link.anc = t.cregs))) ∧
  (∀ s n access g c, s.gang? n = some g → g.ctx? access = some c → s.readyAt ⟨n, access⟩ g = true → c.aged = false →
    64 ≤ c.since → 12 * s.pipeReady g access ≤ c.since →
    ∃ u, exec (.gangAgeing n access) s = .next u ∧ (u.ctx? ⟨n, access⟩).map (·.aged) = some true ∧ u.mem = s.mem ∧ Quiet s u) ∧
  (∀ s n g p, s.gang? n = some g → g.spin = some p → 8 ≤ p.same → p.spinning = false → g.holder? = none →
    ∃ u, exec (.spinDemotion n) s = .next u ∧ (u.gang? n).map (·.spin) = some (some { p with spinning := true }) ∧ u.mem = s.mem ∧ Quiet s u) ∧
  (∀ s n g t, s.gang? n = some g → g.deadlock = some (t, false) → s.deadlocked n = true →
    t + s.setting 0x0010 ≤ s.tick (s.clusterOfGang n) →
    (s.eventRoom = false → exec (.queueDeadlockLimit n) s = .next s) ∧
    (∀ cb, s.eventRoom = true → s.ctl.ering = some cb → ∃ u, exec (.queueDeadlockLimit n) s = .next u ∧
      (u.gang? n).map (·.deadlock) = some (some (t, true)) ∧ u.launches.msix = s.launches.msix ++ [61] ∧
      u.mem = s.mem.ringPost cb 32 (Event.bytes ⟨1, 0#32, s.idn n 0 false, 0#64, maskOf g.threads.keys⟩) ∧ Quiet s u)) ∧
  (∀ s c, c < 24 → ∃ u, exec (.referenceTick c) s = .next u ∧ u.mem = s.mem ∧ Quiet s u ∧
    ∀ k, u.tick k = if k = c then s.tick k + 1 else s.tick k) ∧
  (∀ s, ∃ u, exec (.referenceTick 24) s = .next u ∧ u.dev.ioTick = s.dev.ioTick + 1 ∧ u.mem = s.mem ∧ Quiet s u ∧ ∀ k, u.tick k = s.tick k) ∧
  (∀ s c, c < 24 → s.dev.advances.getD c 0 < s.tick c / 256 → ∃ u, exec (.clusterEnergyAdvance c) s = .next u ∧ u.mem = s.mem ∧ Quiet s u ∧
    u.dev.measured = s.dev.measured + (Config.energy s.draws).toNat ∧ u.dev.advances.getD c 0 = s.dev.advances.getD c 0 + 1 ∧
    ∀ k, u.dev.energy.getD k 0#64 =
      if k = c then accumulate (s.dev.energy.getD k 0#64) (Config.energy s.draws).toNat else s.dev.energy.getD k 0#64) ∧
  (∀ s, s.dev.devAdvances < s.dev.ioTick / 1024 → ∃ u, exec .deviceEnergyAdvance s = .next u ∧ u.dev.devAdvances = s.dev.devAdvances + 1 ∧
    u.dev.devEnergy = accumulate s.dev.devEnergy (s.dev.measured + (Config.energy s.draws).toNat) ∧ u.mem = s.mem ∧ Quiet s u) ∧
  (∀ s c, s.tick c / 256 ≤ s.dev.advances.getD c 0 → exec (.clusterEnergyAdvance c) s = .next s) ∧
  (∀ s, s.dev.ioTick / 1024 ≤ s.dev.devAdvances → exec .deviceEnergyAdvance s = .next s) ∧
  (∀ s e rest cb, s.ctl.pending = e :: rest → s.ctl.ering = some cb → s.mem.ringRoom cb = true →
    ∃ u, exec .pendingEventPost s = .next u ∧ u.ctl.pending = rest ∧ u.mem = s.mem.ringPost cb 32 e.bytes ∧
      u.launches.msix = s.launches.msix ++ [61] ∧ Quiet s u)

/-! ### Events: run control -/

/-- 14:R333, R336, R338 to R342. At the instant of the hold of a command that matches one thread, in its compute context, outside traps and
capsules: stop stops its lane, step lets it run a clause, also where it was stopped, resume makes a stopped lane ready, kill ends its thread,
write sets its v, s or c register or its bit of a predicate; read of a query instruction stores the identity and the value. The hold is over. -/
def Obligations.QueriesAct : Prop :=
  ∀ s id h q n lane g c a, s.ctl.holds.get? id = some h → Query.ofBytes h.rec_ = q → s.holdReady id h = true → q.ctxs = [false] →
    s.matched h q = [(n, lane)] → s.gang? n = some g → g.cctx = c → c.lanes.get? lane = some a → g.holder? = none → c.frame = none →
    (∀ t, g.threads.get? lane = some t → t.link.role = .none) → lane < 64 →
    (q.action = 0 → h.q = none → a.ws ≠ .stopped → a.ws ≠ .trapped →
      ∃ u, exec (.queryStop (.hold id)) s = .next u ∧ u.ctl.holds = s.ctl.holds.del id ∧ (u.lane? ⟨n, false⟩ lane).map (·.ws) = some .stopped) ∧
    (q.action = 1 → h.q = none → a.ws = .ready →
      ∃ u, exec (.queryStep (.hold id)) s = .next u ∧ u.ctl.holds = s.ctl.holds.del id ∧ (u.lane? ⟨n, false⟩ lane).map (·.pstep) = some true) ∧
    (q.action = 1 → h.q = none → a.ws = .stopped → a.under = .ready →
      ∃ u, exec (.queryStep (.hold id)) s = .next u ∧ u.ctl.holds = s.ctl.holds.del id ∧
        (u.lane? ⟨n, false⟩ lane).map (fun b => (b.ws, b.pstep)) = some (.ready, true)) ∧
    (q.action = 2 → h.q = none → a.ws = .stopped → a.under = .ready →
      ∃ u, exec (.queryResume (.hold id)) s = .next u ∧ u.ctl.holds = s.ctl.holds.del id ∧ (u.lane? ⟨n, false⟩ lane).map (·.ws) = some .ready) ∧
    (q.action = 3 → h.q = none → a.ws = .ready →
      ∃ u, exec (.queryKill (.hold id)) s = .next u ∧ u.ctl.holds = s.ctl.holds.del id ∧ u.lane? ⟨n, false⟩ lane = none ∧ u.thread? n lane = none) ∧
    (∀ k op o r, q.action = 4 → h.q = some k → h.op = some op → s.op? op = some o → s.spadRef g.group q.low = some r →
      (s.group? r.group).isSome = true → k.1 = n → 1 ≤ q.cap →
      ∃ u, exec (.queryRead (.hold id)) s = .next u ∧ u.ctl.holds = s.ctl.holds.del id ∧ u.mem = s.mem ∧
        (u.group? r.group).map (fun b => b.spadBytes r.ofs 16) =
          some (leBytes 8 (s.idn n lane false).toNat ++ leBytes 8 (s.selVal n g false lane q.sel).toNat)) ∧
    (q.action = 5 → h.q = none → q.sel < 0x40 →
      ∃ u, exec (.queryWrite (.hold id)) s = .next u ∧ u.ctl.holds = s.ctl.holds.del id ∧
        u.vreg ⟨n, false⟩ q.sel lane = some ⟨BitVec.ofNat 32 q.low, false, false⟩) ∧
    (q.action = 5 → h.q = none → 0x40 ≤ q.sel → q.sel < 0x70 →
      ∃ u, exec (.queryWrite (.hold id)) s = .next u ∧ u.ctl.holds = s.ctl.holds.del id ∧
        u.sreg ⟨n, false⟩ (q.sel - 0x40) = some ⟨BitVec.ofNat 32 q.low, false, false⟩) ∧
    (q.action = 5 → h.q = none → 0x70 ≤ q.sel → q.sel < 0x78 →
      ∃ u, exec (.queryWrite (.hold id)) s = .next u ∧ u.ctl.holds = s.ctl.holds.del id ∧
        u.creg n lane (q.sel - 0x70) = (s.thread? n lane).map fun _ => BitVec.ofNat 32 q.low) ∧
    (q.action = 5 → h.q = none → 0x90 ≤ q.sel → q.sel < 0x98 →
      ∃ u, exec (.queryWrite (.hold id)) s = .next u ∧ u.ctl.holds = s.ctl.holds.del id ∧
        u.pred ⟨n, false⟩ (q.sel - 0x90) = (s.pred ⟨n, false⟩ (q.sel - 0x90)).map fun m =>
          if q.low % 2 = 1 then m ||| bit lane else m &&& ~~~bit lane)

/-! ### Events: the outside world -/

/-- 00:R7, 08:R179, 18:R414 to R419, R421, R425, R426, R433. Writes of BAR0 registers and device settings, of key pairs, peer windows, the KEY and
the base of the host's decoder and entries of the MSI-X table, the mailbox, and what the host reads of a ring's registers and of COMMAND. SHA-256
as FIPS 180-4 has it, and the moment at which a report takes NONCE and MLOG, are the model's (log 27, PRESUMED); so are the acts by which system
software and the host set what has no row of its own (log 101, DESIGN CHOICE) and a table entry's form (log 102, PRESUMED). -/
def Obligations.DeviceRegisters : Prop :=
  (∀ s n t, n < 64 → ∃ u, exec (.tail n t) s = .next u ∧ u.mem = s.mem ∧ Quiet s u ∧
    if (s.ringOf n).tail.toNat < t.toNat ∧ (t - (s.ringOf n).head).toNat ≤ (s.ringOf n).size then u.ringOf n = { s.ringOf n with tail := t }
    else u.ringOf n = { s.ringOf n with rstat := (s.ringOf n).rstat ||| 1#64 } ∧
      u.launches.msix = s.launches.msix ++ if (s.ringOf n).rstat &&& 1#64 = 1#64 then [] else [63]) ∧
  (∀ s n w, n < 64 → ∃ u, exec (.rstat n w) s = .next u ∧ u.mem = s.mem ∧ Quiet s u ∧
    u.ringOf n = { s.ringOf n with rstat := (s.ringOf n).rstat &&& ~~~(w &&& 3#64) }) ∧
  (∀ s n w root key, n < 64 → (s.ringOf n).en = false → ∃ u, exec (.ringConfigure n w (some (root, key))) s = .next u ∧ Quiet s u ∧
    (∃ o, u.ringOf n = ⟨0#64, 0#64, 0#64, cfgWord w, some o⟩ ∧ (o, ⟨root, key⟩) ∈ u.mem.owners) ∧ u.mem.bytes = s.mem.bytes) ∧
  (∀ s n w, n < 64 → (s.ringOf n).en = true → ∃ u, exec (.ringDisable n w) s = .next u ∧ u.mem = s.mem ∧ Quiet s u ∧
    u.ringOf n = { s.ringOf n with cfg := (s.ringOf n).cfg &&& ~~~(1#64 <<< 63) }) ∧
  (∀ s ofs w lo hi d, settingRange ofs = some (lo, hi, d) → ∃ u, exec (.deviceSettingWrite (.setting ofs) [w]) s = .next u ∧ u.mem = s.mem ∧ Quiet s u ∧
    u.setting ofs = min hi (max lo w.toNat) ∧ ∀ k, k ≠ ofs → u.setting k = s.setting k) ∧
  (∀ s port k w, port < 16 → k < 16 → wordAt w 1 ≠ 0#64 → ∃ u, exec (.deviceSettingWrite (.window port k) w) s = .next u ∧
    u.mem = s.mem ∧ Quiet s u ∧ u.dev.windows.get? (16 * port + k) = some (windowFrom w) ∧ ∀ j, j ≠ 16 * port + k → u.dev.windows.get? j = s.dev.windows.get? j) ∧
  (∀ s key w, (∃ u, exec (.deviceSettingWrite (.keyPair key) w) s = .next u ∧ u.mem.keyPairs = s.mem.keyPairs.put key.toNat (pairOf w) ∧ Quiet s u) ∧
    ∃ u, exec (.deviceSettingWrite .decoderKey w) s = .next u ∧ u.dev.hdmKey = (wordAt w 0).setWidth 10 ∧ u.mem = s.mem ∧ Quiet s u) ∧
  (∀ s v a d, v < 64 → (∃ u, exec (.registerWrite (.msixEntry v) [a, d]) s = .next u ∧
      u.launches.msi.entry v = ⟨a, d.setWidth 32, d.getLsbD 32⟩ ∧ u.mem = s.mem ∧ Quiet s u) ∧
    ∃ u, exec (.registerWrite .decoderBase [a]) s = .next u ∧ u.dev.hdmBase = a.toNat ∧ u.mem = s.mem ∧ Quiet s u) ∧
  (∀ s i w, i < 4 → s.dev.mbox.nonce.length = 32 → ∃ u, exec (.registerWrite (.bar0 (0x10020 + 8 * i)) [w]) s = .next u ∧ u.mem = s.mem ∧ Quiet s u ∧
    (∀ k, k < 8 → u.dev.mbox.nonce.getD (8 * i + k) 0#8 = (leBytes 8 w.toNat).getD k 0#8) ∧
    ∀ k, k < 8 * i ∨ 8 * i + 8 ≤ k → u.dev.mbox.nonce.getD k 0#8 = s.dev.mbox.nonce.getD k 0#8) ∧
  (∀ s, s.dev.mbox.status ≠ 1 →
    exec .attestation s = .next (s.setMbox { s.dev.mbox with status := 1, recovery := false }) ∧
    exec .recoveryProgramming s = .next (s.setMbox { s.dev.mbox with status := 1, recovery := true })) ∧
  (∀ s, s.dev.mbox.status = 1 →
    (∃ u, exec (.attestationDone false) s = .next u ∧ u.dev.mbox.status = 3 ∧ u.launches.msix = s.launches.msix ++ [62] ∧ Quiet s u) ∧
    (s.dev.mbox.recovery = false → ∃ u, exec (.attestationDone true) s = .next u ∧ u.dev.mbox.status = 2 ∧
      u.dev.mbox.report = s.dev.reportHead ∧ u.launches.msix = s.launches.msix ++ [62] ∧ Quiet s u)) ∧
  (∀ (s : State) n, n < 64 → s.bar0 (0x100000 + 0x1000 * n) = (s.ringOf n).tail ∧ s.bar0 (0x100008 + 0x1000 * n) = (s.ringOf n).head ∧
    s.bar0 (0x100010 + 0x1000 * n) = (s.ringOf n).rstat ∧ s.bar0 (0x100018 + 0x1000 * n) = (s.ringOf n).cfg ∧ s.bar0 0x10000 = 0#64) ∧
  (∀ s d, ∃ u, exec (.mlogExtend d) s = .next u ∧ u.dev.mbox.mlog = sha256 (digestBytes s.dev.mbox.mlog ++ digestBytes d) ∧ u.mem = s.mem ∧
    Quiet s u)

/-- 03:R78, R79, 08:R174, R176, R180, 10:R239, R240, 16:R392, R397, 18:R413 to R416, R420 to R424. Accesses from outside, which are performed or
refused, links, invalidations, errors, fuses and resets. The model's own readings are what a device reset and recovery do (log 28, DEDUCED), what a
function-level reset resets (log 29, PRESUMED), that the range's KEY is that of the whole decoder (log 52, DEDUCED), the records that writes from
outside leave (log 54, DEDUCED), that such a write waits while its line is in use (log 55, DEDUCED), and what the host's accesses to its own memory
do to the lines that home slices hold of it (log 118, DEDUCED). -/
def Obligations.OutsideWorld : Prop :=
  (∀ s a bs r, a / 128 = (a + bs.length - 1) / 128 → bs ≠ [] → a + bs.length ≤ 1536 * 2 ^ 30 → s.extHeld 0#2 a bs.length = false → s.recovering = false →
    ∃ u, exec (.hostAccess (s.dev.hdmBase + a) (.write bs r)) s = .next u ∧ Stored s.mem u.mem 0#2 s.dev.hdmKey a bs ∧
      (u.mem.relOf (lineOf 0#2 a)).v = false ∧ Quiet s u) ∧
  (∀ s port a bs r w, s.windowOf port a bs.length = some w → w.we = true → s.dev.linkDown.has port = false →
    a / 128 = (a + bs.length - 1) / 128 → bs ≠ [] → a + bs.length ≤ 1536 * 2 ^ 30 → s.extHeld 0#2 a bs.length = false → s.recovering = false →
    ∃ u, exec (.peerAccess port a (.write bs r)) s = .next u ∧ Stored s.mem u.mem 0#2 w.key a bs ∧ (u.mem.relOf (lineOf 0#2 a)).v = r ∧ Quiet s u) ∧
  (∀ s a n, 0 < n → a + n ≤ 1536 * 2 ^ 30 → s.recovering = false →
    (∃ u, exec (.hostAccess (s.dev.hdmBase + a) (.read n)) s = .next u ∧ u.dev.answer = some (s.mem.readBytes 0#2 s.dev.hdmKey a n) ∧
      u.mem.bytes = s.mem.bytes ∧ Quiet s u) ∧
    ∀ port w, s.windowOf port a n = some w → s.dev.linkDown.has port = false →
      ∃ u, exec (.peerAccess port a (.read n)) s = .next u ∧ u.dev.answer = some (s.mem.readBytes 0#2 w.key a n) ∧
        u.mem.bytes = s.mem.bytes ∧ Quiet s u) ∧
  (∀ s a, (a < s.dev.hdmBase ∨ s.dev.hdmBase + 1536 * 2 ^ 30 ≤ a) →
    (∀ bs r, a / 128 = (a + bs.length - 1) / 128 → bs ≠ [] → a + bs.length ≤ 2 ^ 52 → s.extHeld 1#2 a bs.length = false →
      ∃ u, exec (.hostAccess a (.write bs r)) s = .next u ∧ Stored s.mem u.mem 1#2 0#10 a bs ∧ u.mem.homeTag.get? (lineOf 1#2 a) = none ∧ Quiet s u) ∧
    ∀ n, a + n ≤ 2 ^ 52 → ∃ u, exec (.hostAccess a (.read n)) s = .next u ∧ u.dev.answer = some (s.mem.readBytes 1#2 0#10 a n) ∧
      u.mem.bytes = s.mem.bytes ∧ Quiet s u) ∧
  (∀ s port a acc, s.recovering = true → (a < 1536 * 2 ^ 30 →
      exec (.hostAccess (s.dev.hdmBase + a) acc) s = .next (s.setDev { s.dev with answer := none })) ∧
    (s.dev.linkDown.has port = false → exec (.peerAccess port a acc) s = .next (s.setDev { s.dev with answer := none }))) ∧
  (∀ s port a acc, s.dev.linkDown.has port = false →
    (s.windowOf port a (extBytes acc) = none ∨ (∃ w, s.windowOf port a (extBytes acc) = some w ∧ w.we = false ∧ extWrites acc = true)) →
    exec (.peerAccess port a acc) s = .next (s.setDev { s.dev with answer := none })) ∧
  (∀ s port, exec (.flitCrcRetry port) s = .next s) ∧
  (∀ s port, port < 16 → (∃ u, exec (.peerLinkDown port) s = .next u ∧ u.dev.linkDown.has port = true ∧ u.mem = s.mem ∧ Quiet s u) ∧
    ∃ u, exec (.peerLinkUp port) s = .next u ∧ u.dev.linkDown.has port = false ∧ u.mem = s.mem ∧ Quiet s u) ∧
  (∀ s o lo hi, ∃ u, exec (.tlbInvalidation o lo hi) s = .next u ∧ u.mem.bytes = s.mem.bytes ∧ Quiet s u ∧
    (∀ k es, u.mem.tlb.get? k = some es ∨ u.mem.ctlb.get? k = some es → ∀ e ∈ es, ¬(e.owner = o ∧ e.va ≤ hi.toNat ∧ lo.toNat < e.va + e.size))) ∧
  (∀ s lo hi, ∃ u, exec (.icacheInvalidation lo hi) s = .next u ∧ u.mem.bytes = s.mem.bytes ∧ Quiet s u ∧
    ∀ k, lo / 128 ≤ k % 2 ^ 47 → k % 2 ^ 47 ≤ hi / 128 → u.mem.icache.get? k = none) ∧
  (∀ s g a r n b, ∃ u, exec (.uncorrectableError (.vcopy g a r n b)) s = .next u ∧ u.mem = s.mem ∧
    u.vreg ⟨g, a⟩ r n = (s.vreg ⟨g, a⟩ r n).map fun v => v.poisonHalf b) ∧
  (∀ s g a r b, ∃ u, exec (.uncorrectableError (.scopy g a r b)) s = .next u ∧ u.mem = s.mem ∧
    u.sreg ⟨g, a⟩ r = (s.sreg ⟨g, a⟩ r).map fun v => v.poisonHalf b) ∧
  (∀ s line, ∃ u, exec (.uncorrectableError (.line 0 line)) s = .next u ∧ u.mem.poisoned 0#2 (128 * line) = true ∧ u.mem.bytes = s.mem.bytes ∧
    Quiet s u) ∧
  (∀ s n g c access, s.gang? n = some g → g.ctx? access = some c → ∃ u, exec (.contextStoreError n access) s = .next u ∧
    u.agenda = .event (.launchEndEarly g.launch 13) :: s.agenda ∧ u.mem = s.mem ∧ Quiet s u) ∧
  (∀ s n, 2 ≤ s.dev.stage → s.dev.stage ≠ 15 → s.dev.fuses ≤ n → n ≤ s.dev.fwver → n ≤ 64 →
    exec (.fuseBlow n) s = .next (s.setDev { s.dev with fuses := n })) ∧
  (∀ s, exec .functionLevelReset s = .next ((s.setLaunches { s.launches with msix := [], msi := Msix.reset }).setMem { s.mem with ats := [] })) ∧
  (∀ s, ∃ u, exec .deviceReset s = .next u ∧ u.gangs = [] ∧ u.groups = [] ∧ u.ops = [] ∧ u.launches.tab = [] ∧ u.launches.rings = [] ∧
    u.dev.settings = [] ∧ u.launches.msix ≠ [] ∧ (∀ v ∈ u.launches.msix, v = 63) ∧ u.dev.fuses = s.dev.fuses ∧ u.dev.flash = s.dev.flash ∧
    (s.dev.bootSlot = none → u.dev.stage = 15 ∧ u.dev.err = 1 ∧ u.launches.msix = [63, 63]) ∧
    ∀ n x, s.dev.bootSlot = some (n, x) → u.dev.slot = n ∧ u.dev.fwver = x.fwver ∧ u.dev.image = x.digest ∧ u.dev.mbox.mlog = x.digest ∧
      u.dev.program = s.dev.flash.image x ∧ u.dev.entry = x.entry)

/-! ### Decoding and the step -/

/-- 02:R36, R43 to R49, R57 to R59. Words written out from the specification's encodings decode to the instructions they stand for. -/
def Obligations.WordsDecode : Prop :=
  decode false [0x40058607#32] = .ok (.fadd ⟨none, none⟩ (.v 5) ⟨.v 6, true⟩ (.f32 ⟨.v 7, false⟩), 1) ∧
  decode false [0xC46C0000#32, 0xC8402000#32, 0x41858600#32] =
    .ok (.fadd ⟨some ⟨4, false, true, true, 3, false⟩, some 0x402000⟩ (.v 5) ⟨.v 6, true⟩ (.lit 0), 3) ∧
  decode false [0x24090182#32] = .ok (.and ⟨none, none⟩ (.v 9) ⟨.v 1, false⟩ (.reg ⟨.v 2, true⟩), 1) ∧
  decode false [0x38050384#32] = .ok (.cvt ⟨none, none⟩ 0 (.v 5) ⟨.v 3, false⟩ 8 4, 1) ∧
  decode false [0x6C810009#32] = .ok (.bk ⟨none, none⟩ 0 false 1 9, 1) ∧
  decode false [0xC8000001#32, 0x82040400#32, 0x0022C86B#32] =
    .ok (.ld ⟨none, some 1⟩ ⟨0, 0⟩ 4 (.v 4) ⟨⟨.v 2, .none⟩, some (⟨.s 5, .none⟩, 3), 0x48, 3, 1⟩, 3) ∧
  decode false [0x8F060421#32, 0x78#32] = .ok (.atom ⟨none, none⟩ ⟨1, 0⟩ 0 0 (.v 6) ⟨⟨.v 2, .none⟩, none, 0, 3, 3⟩ ⟨.v 8, .none⟩, 2) ∧
  decode false [0x9B808D22#32, 0x10000000#32] = .ok (.mmac ⟨none, none⟩ ⟨2, 1⟩ ⟨.s 6, .none⟩ ⟨.s 8, .none⟩, 2) ∧
  decode false [0xA8800818#32, 0x00040003#32] = .ok (.tokput ⟨none, none⟩ ⟨0, 0⟩ 3 ⟨.v 4, .none⟩ ⟨.v 6, .none⟩ ⟨.v 8, .none⟩, 2) ∧
  decode false [0xB4008400#32, 0xC#32] = .ok (.capo ⟨none, none⟩ ⟨0, 0⟩ ⟨.s 2, .none⟩ 0xC, 2) ∧
  decode false [0xB9800000#32, 9#32] = .ok (.sysrd ⟨none, none⟩ ⟨0, 0⟩ 9 (.v 0), 2) ∧
  decode false [0xBD0A0001#32, 0#32] = .ok (.tick ⟨none, none⟩ ⟨1, 0⟩ false (.v 10), 2)

/-- 02:R43 to R48, R57 to R59. Decoding what is encoded gives the instruction back, for every instruction that is well-formed in its clause,
with every operand at every value, whatever words follow it. -/
def Obligations.EncodeThenDecode : Prop :=
  ∀ (i : Instr) (stroke : Bool) (rest : List Word), i.isEvent = false → i.static stroke = [] →
    ∃ ws, encode i = some ws ∧ decode stroke (ws ++ rest) = .ok (i, ws.length)

/-- 01:R29, 02:R37, R62. Where the issue of a context comes next and the words fetched at its program counter decode to a well-formed
instruction, the step is the meaning of that instruction in the state after the fetch; where an event comes next, the step is that event. -/
def Obligations.StepRunsTheDecodedInstruction : Prop :=
  (∀ s x rest g c core l cur ws r t i n, s.agenda = .issue x.gang x.access :: rest → (s.setAgenda rest).selectPath x = s.setAgenda rest →
    s.gang? x.gang = some g → g.ctx? x.access = some c → g.core = some core → s.launch? g.launch = some l → c.free = true → c.pathAble = true →
    c.cur = some cur → (s.setAgenda rest).fetchInstr x core l.owner cur.ip = (.ok ws r, t) → decode cur.hdr.cap ws = .ok (i, n) →
    step s = exec i (t.setCur (some x))) ∧
  (∀ s i rest, s.agenda = .event i :: rest → i.isEvent = true → step s = exec i (s.setAgenda rest))

/-- 16:R379. No step of the machine ends in a fault or a refusal: every fault of the manual is a trap that the machine takes. That an event which
is not enabled leaves the state as it is is the model's choice (log 14, DESIGN CHOICE), and so is that an instruction is only stepped in the context
whose turn it is, where its meaning has one (log 50, DESIGN CHOICE). -/
def Obligations.StepsAlwaysGoOn : Prop := ∀ s, ∃ t, step s = .next t

/-- The bytes of memory stay in canonical form: whatever happens in a step, their addresses rise strictly afterwards where they did before. The
form is the model's own representation of memory (log 2, DESIGN CHOICE); no rule of the specification states it. -/
def Obligations.MemoryKeepsItsForm : Prop := ∀ s t, Memory.wf s.mem.bytes = true → step s = .next t → Memory.wf t.mem.bytes = true

/-- 01:R447, 17:R402, R403, 18:R418, R423, R433. After reset memory has its canonical form, nothing is resident, no launch is live, every ring is
disabled, every device setting has its reset value, counters of time and boot status are 0. TAIL, HEAD and RSTAT of a ring that was never
configured are 0 by the model's choice (log 4, DESIGN CHOICE). -/
def Obligations.ResetState : Prop :=
  Memory.wf State.reset.mem.bytes = true ∧ (∀ k, State.reset.gang? k = none ∧ State.reset.group? k = none ∧ State.reset.launch? k = none) ∧
  (∀ k, State.reset.ringOf k = ⟨0#64, 0#64, 0#64, 0#64, none⟩) ∧
  (∀ k lo hi d, settingRange k = some (lo, hi, d) → State.reset.setting k = d) ∧
  (∀ k, State.reset.tick k = 0) ∧ State.reset.dev.stage = 0 ∧ State.reset.dev.fwver = 0

/-! ### Memory -/

/-- 00:R5, 08:R178, R184. What is written is read, under the KEY it was written under, in global memory and in a scratchpad; bytes elsewhere read
as before: of another line always, of a line touched where it was last written under the same KEY. -/
def Obligations.WhatIsWrittenIsRead : Prop :=
  (∀ m n mt key pa bs, Stored m n mt key pa bs →
    (∀ i, i < bs.length → n.readByte mt key (pa + i) = bs.getD i 0#8) ∧
    (∀ mt' key' a, (∀ i, i < bs.length → lineOf mt' a ≠ lineOf mt (pa + i)) → n.readByte mt' key' a = m.readByte mt' key' a) ∧
    (∀ a, (∀ i, i < bs.length → a ≠ pa + i) → (mt ≠ 0#2 ∨ ∀ i, i < bs.length → m.lineKey.get? (lineOf mt (pa + i)) = some key) →
      n.readByte mt key a = m.readByte mt key a)) ∧
  (∀ (g : Group) a bs, (∀ i, i < bs.length → (g.spadWrite a bs).spadByte (a + i) = bs.getD i 0#8) ∧
    ∀ k, k < a ∨ a + bs.length ≤ k → (g.spadWrite a bs).spadByte k = g.spadByte k) ∧
  (∀ n x, x < 2 ^ (8 * n) → leNat (leBytes n x) = x ∧ (leBytes n x).length = n ∧ ∀ i, i < n → ((leBytes n x).getD i 0#8).toNat = x / 2 ^ (8 * i) % 256)

/-! ### Rules of the whole machine -/

/-- 02:R62, R63, 16:R380, 12:R281, 02:R54. An instruction with reasons of INSN raises the lowest of them and has no effect; one that must wait
changes no register, no memory and no long form. -/
def Obligations.ChecksComeFirst : Prop :=
  (∀ i s e r, i.isEvent = false → env? i s = some e → (i.pfx.md.any fun m => decide (6 ≤ m.rnd.toNat)) = false →
    Reason.lowest (i.static e.stroke ++ e.dynamic) = some r → (r.code < 20 ∨ e.undead s = true) →
    exec i s = .next (s.raise e.x (e.insn r)) ∧ (e.insn r).cause = 1 ∧ (e.insn r).reason = r.code ∧ (e.insn r).lanes = e.full) ∧
  (∀ i s e q, i.isEvent = false → env? i s = some e → e.gate s = .hold q →
    ∃ t, exec i s = .next t ∧ t.mem = s.mem ∧ t.ops = s.ops ∧ t.home = s.home ∧ t.groups = s.groups ∧ Quiet s t)

/-- 16:R382. INSN reason 29 is a reason of `tret` and `tdel` while `tcg` is 0, and of `tret`, `tdel` and `brk` that are not the last instruction of
their clause; where it is the lowest reason it is raised. -/
def Obligations.TrapControlIsChecked : Prop :=
  (∀ p l s e, env? (.tret p l) s = some e → (.trapReturn ∈ e.dynamic ↔ (e.c.tcg = 0#32 ∨ e.last = false)) ∧
    (Reason.lowest (Instr.static e.stroke (.tret p l) ++ e.dynamic) = some .trapReturn → e.undead s = true → (p.md.any fun m => decide (6 ≤ m.rnd.toNat)) = false →
      exec (.tret p l) s = .next (s.raise e.x (e.insn .trapReturn)) ∧ (e.insn .trapReturn).reason = 29)) ∧
  (∀ p l a s e, env? (.tdel p l a) s = some e → (.trapReturn ∈ e.dynamic ↔ (e.c.tcg = 0#32 ∨ e.last = false)) ∧
    (Reason.lowest (Instr.static e.stroke (.tdel p l a) ++ e.dynamic) = some .trapReturn → e.undead s = true → (p.md.any fun m => decide (6 ≤ m.rnd.toNat)) = false →
      exec (.tdel p l a) s = .next (s.raise e.x (e.insn .trapReturn)) ∧ (e.insn .trapReturn).reason = 29)) ∧
  (∀ p l k s e, env? (.brk p l k) s = some e → (.trapReturn ∈ e.dynamic ↔ e.last = false) ∧
    (Reason.lowest (Instr.static e.stroke (.brk p l k) ++ e.dynamic) = some .trapReturn → e.undead s = true → (p.md.any fun m => decide (6 ≤ m.rnd.toNat)) = false →
      exec (.brk p l k) s = .next (s.raise e.x (e.insn .trapReturn)) ∧ (e.insn .trapReturn).reason = 29))

/-- 12:R295. `qcount` delivers in each active lane the number of entries of its queue, the number of those that are no load in flight, or the
live limit less the entries; with SEL 11 it raises INSN reason 21; it enters no flight. -/
def Obligations.QueueCounts : Prop :=
  (∀ p l q d, Delivers (.qcount p l q 0#2 d) fun s e => e.result1 d fun k => BitVec.ofNat 32 (s.queue e.x.gang q.toNat k).length) ∧
  (∀ p l q d, Delivers (.qcount p l q 1#2 d) fun s e => e.result1 d fun k => BitVec.ofNat 32
    ((s.queue e.x.gang q.toNat k).filter fun t => match t with | .pend .. => false | _ => true).length) ∧
  (∀ p l q d, Delivers (.qcount p l q 2#2 d) fun s e => e.result1 d fun k => BitVec.ofNat 32
    (((e.g.queues.get? q.toNat).map (·.limit)).getD 0 - (s.queue e.x.gang q.toNat k).length)) ∧
  (∀ p l q d s e, env? (.qcount p l q 3#2 d) s = some e → (p.md.any fun m => decide (6 ≤ m.rnd.toNat)) = false →
    .reservedField ∈ Instr.static e.stroke (.qcount p l q 3#2 d) ++ e.dynamic ∧
    (Reason.lowest (Instr.static e.stroke (.qcount p l q 3#2 d) ++ e.dynamic) = some .reservedField → e.undead s = true →
      exec (.qcount p l q 3#2 d) s = .next (s.raise e.x (e.insn .reservedField)) ∧ (e.insn .reservedField).reason = 21))

/-- 14:R324, 16:R398, 03:R73. The family word that `famset` issues: TEAM[19:0], then GRP, GANG, LANE, under a bit 31 that is 1; never 0; different
for threads of one launch unless their teams agree in bits [19:0]. It is derived from the identity as the context reads it (03:R79). `syswr` of `fam` and a query's write leave family words as they are. -/
def Obligations.FamilyWords : Prop :=
  (∀ x i, (derive x).getLsbD i = if i < 31 then x.getLsbD (11 + i) else decide (i = 31)) ∧
  (∀ x, derive x ≠ 0#32) ∧
  (∀ l t t' g g' n n' k k', t < 2 ^ 26 → t' < 2 ^ 26 → g < 2 → g' < 2 → n < 16 → n' < 16 → k < 64 → k' < 64 →
    (derive (identity l t g n k false) = derive (identity l t' g' n' k' false) ↔ t % 2 ^ 20 = t' % 2 ^ 20 ∧ g = g' ∧ n = n' ∧ k = k')) ∧
  (∀ p l d, DeliversTo (.famset p l d)
    (fun s e => ∀ o ∈ (s.opsOf e.x).vals, (match o.i with | .spawn .. | .tokput .. => true | _ => false) = false)
    (fun e s => e.lanes.foldl (fun t k => t.updThread e.x.gang k fun h => { h with fam := derive (s.idnSeen e.x k) }) s)
    fun s e => e.longResult d 1 fun k => [derive (s.idnSeen e.x k)]) ∧
  (∀ p l a, DeliversTo (.syswr p l 0x0A#8 a) (fun _ e => e.act ≠ 0#64) (fun _ s => s) fun _ _ => { long := true }) ∧
  (∀ (s : State) x lane sel v g t, (s.thread? g lane).map (·.fam) = some t → ((s.writeLane x lane sel v).thread? g lane).map (·.fam) = some t)
end

