-- ==== Sys2Proof/Laws/Assoc.lean ====
section
/-! SUPPORT. Laws of tables: what a lookup finds after an update, and the updates that keep the canonical form. -/

namespace Sys2Proof.Machine.Assoc
variable {α : Type}

@[simp] theorem get?_nil (k : Nat) : get? ([] : Assoc α) k = none := rfl

theorem get?_put (t : Assoc α) (k j : Nat) (x : α) : get? (put t k x) j = if j = k then some x else get? t j := by
  induction t with
  | nil => simp [put, get?]
  | cons h t ih =>
    obtain ⟨i, y⟩ := h
    unfold put
    split
    · next hk => subst hk; simp only [get?]; split <;> rfl
    · split
      · simp only [get?]
      · next hk _ => simp only [get?, ih]; split <;> split <;> simp_all

@[simp] theorem get?_put_self (t : Assoc α) (k : Nat) (x : α) : get? (put t k x) k = some x := by simp [get?_put]

theorem get?_put_ne (t : Assoc α) {k j : Nat} (x : α) (h : j ≠ k) : get? (put t k x) j = get? t j := by simp [get?_put, h]

theorem get?_del (t : Assoc α) (k j : Nat) : get? (del t k) j = if j = k then none else get? t j := by
  induction t with
  | nil => simp [del]
  | cons h t ih =>
    obtain ⟨i, y⟩ := h
    unfold del
    split
    · next hk => subst hk; rw [ih]; simp only [get?]; split <;> simp_all
    · next hk => simp only [get?, ih]; split <;> split <;> simp_all

@[simp] theorem get?_del_self (t : Assoc α) (k : Nat) : get? (del t k) k = none := by simp [get?_del]

theorem get?_del_ne (t : Assoc α) {k j : Nat} (h : j ≠ k) : get? (del t k) j = get? t j := by simp [get?_del, h]

theorem getD_put (t : Assoc α) (k j : Nat) (x d : α) : getD (put t k x) j d = if j = k then x else getD t j d := by
  simp only [getD, get?_put]; split <;> rfl

theorem getD_putD [DecidableEq α] (t : Assoc α) (k j : Nat) (x d : α) :
    getD (putD t k x d) j d = if j = k then x else getD t j d := by
  unfold putD
  split
  · next h => simp only [getD, get?_del]; split <;> simp_all
  · exact getD_put t k j x d

theorem get?_upd (t : Assoc α) (k j : Nat) (f : α → α) : get? (upd t k f) j = if j = k then (get? t k).map f else get? t j := by
  unfold upd
  split
  · next h => split <;> simp_all
  · next x h => rw [get?_put]; split <;> simp_all

@[simp] theorem get?_upd_self (t : Assoc α) (k : Nat) (f : α → α) : get? (upd t k f) k = (get? t k).map f := by simp [get?_upd]

theorem get?_upd_ne (t : Assoc α) {k j : Nat} (f : α → α) (h : j ≠ k) : get? (upd t k f) j = get? t j := by simp [get?_upd, h]

theorem get?_mapVal (t : Assoc α) (f : Nat → α → α) (k : Nat) : get? (mapVal t f) k = (get? t k).map (f k) := by
  induction t with
  | nil => rfl
  | cons h t ih =>
    obtain ⟨i, y⟩ := h
    simp only [mapVal, List.map_cons, get?] at ih ⊢
    split <;> simp_all

theorem get?_eq_none_of_keep {t : Assoc α} {p : Nat → α → Bool} {k : Nat} (h : get? t k = none) : get? (keep t p) k = none := by
  induction t with
  | nil => rfl
  | cons e t ih =>
    obtain ⟨i, y⟩ := e
    simp only [get?] at h
    split at h
    · cases h
    · next hk =>
      simp only [keep, List.filter_cons] at ih ⊢
      split
      · simp only [get?, hk, if_false]; exact ih h
      · exact ih h

/-! ### The canonical form -/

theorem risingFrom_mono {t : Assoc α} {a b : Nat} (h : a ≤ b) (ht : risingFrom b t = true) : risingFrom a t = true := by
  cases t with
  | nil => rfl
  | cons e t =>
    obtain ⟨k, x⟩ := e
    simp only [risingFrom, Bool.and_eq_true, decide_eq_true_eq] at ht ⊢
    exact ⟨by omega, ht.2⟩

theorem risingFrom_put {t : Assoc α} {lo k : Nat} {x : α} (hk : lo < k) (h : risingFrom lo t = true) :
    risingFrom lo (put t k x) = true := by
  induction t generalizing lo with
  | nil => simp [put, risingFrom, hk]
  | cons e t ih =>
    obtain ⟨j, y⟩ := e
    simp only [risingFrom, Bool.and_eq_true, decide_eq_true_eq] at h
    unfold put
    split
    · next hj => subst hj; simp [risingFrom, hk, h.2]
    · split
      · next hlt => simp [risingFrom, hk, hlt, h.2]
      · next hne hlt => simp [risingFrom, h.1, ih (lo := j) (by omega) h.2]

theorem wf_put {t : Assoc α} (k : Nat) (x : α) (h : wf t = true) : wf (put t k x) = true := by
  cases t with
  | nil => rfl
  | cons e t =>
    obtain ⟨j, y⟩ := e
    simp only [wf] at h
    unfold put
    split
    · next hj => subst hj; exact h
    · split
      · next hlt => simp [wf, risingFrom, hlt, h]
      · next hne hlt => exact risingFrom_put (by omega) h

theorem risingFrom_filter {t : Assoc α} {lo : Nat} (p : Nat × α → Bool) (h : risingFrom lo t = true) :
    risingFrom lo (t.filter p) = true := by
  induction t generalizing lo with
  | nil => rfl
  | cons e t ih =>
    obtain ⟨k, x⟩ := e
    simp only [risingFrom, Bool.and_eq_true, decide_eq_true_eq] at h
    rw [List.filter_cons]
    split
    · simp [risingFrom, h.1, ih h.2]
    · exact ih (risingFrom_mono (by omega) h.2)

theorem wf_of_risingFrom {t : Assoc α} {lo : Nat} (h : risingFrom lo t = true) : wf t = true := by
  cases t with
  | nil => rfl
  | cons e t => simp only [risingFrom, Bool.and_eq_true] at h; exact h.2

theorem wf_filter {t : Assoc α} (p : Nat × α → Bool) (h : wf t = true) : wf (t.filter p) = true := by
  cases t with
  | nil => rfl
  | cons e t =>
    obtain ⟨k, x⟩ := e
    rw [List.filter_cons]
    split
    · exact risingFrom_filter p h
    · exact wf_of_risingFrom (risingFrom_filter p h)

theorem risingFrom_del {t : Assoc α} {lo k : Nat} (h : risingFrom lo t = true) : risingFrom lo (del t k) = true := by
  induction t generalizing lo with
  | nil => rfl
  | cons e t ih =>
    obtain ⟨j, y⟩ := e
    simp only [risingFrom, Bool.and_eq_true, decide_eq_true_eq] at h
    unfold del
    split
    · exact ih (risingFrom_mono (by omega) h.2)
    · simp [risingFrom, h.1, ih h.2]

theorem wf_del {t : Assoc α} (k : Nat) (h : wf t = true) : wf (del t k) = true := by
  cases t with
  | nil => rfl
  | cons e t =>
    obtain ⟨j, y⟩ := e
    unfold del
    split
    · exact wf_of_risingFrom (risingFrom_del h)
    · exact risingFrom_del h

end Sys2Proof.Machine.Assoc
end

