-- ==== Sys2Proof/Laws/State.lean ====
section
/-! SUPPORT. One lemma per field per update of the state, and what lookups find after an update. -/

namespace Sys2Proof.Machine.State

@[simp] theorem setAgenda_agenda (s : State) (x : List Happening) : (s.setAgenda x).agenda = x := rfl
@[simp] theorem setAgenda_turn (s : State) (x : List Happening) : (s.setAgenda x).turn = s.turn := rfl
@[simp] theorem setAgenda_cur (s : State) (x : List Happening) : (s.setAgenda x).cur = s.cur := rfl
@[simp] theorem setAgenda_nextId (s : State) (x : List Happening) : (s.setAgenda x).nextId = s.nextId := rfl
@[simp] theorem setAgenda_draws (s : State) (x : List Happening) : (s.setAgenda x).draws = s.draws := rfl
@[simp] theorem setAgenda_mem (s : State) (x : List Happening) : (s.setAgenda x).mem = s.mem := rfl
@[simp] theorem setAgenda_home (s : State) (x : List Happening) : (s.setAgenda x).home = s.home := rfl
@[simp] theorem setAgenda_launches (s : State) (x : List Happening) : (s.setAgenda x).launches = s.launches := rfl
@[simp] theorem setAgenda_groups (s : State) (x : List Happening) : (s.setAgenda x).groups = s.groups := rfl
@[simp] theorem setAgenda_gangs (s : State) (x : List Happening) : (s.setAgenda x).gangs = s.gangs := rfl
@[simp] theorem setAgenda_ops (s : State) (x : List Happening) : (s.setAgenda x).ops = s.ops := rfl
@[simp] theorem setAgenda_cores (s : State) (x : List Happening) : (s.setAgenda x).cores = s.cores := rfl
@[simp] theorem setAgenda_ctl (s : State) (x : List Happening) : (s.setAgenda x).ctl = s.ctl := rfl
@[simp] theorem setAgenda_dev (s : State) (x : List Happening) : (s.setAgenda x).dev = s.dev := rfl
@[simp] theorem setTurn_agenda (s : State) (x : Nat) : (s.setTurn x).agenda = s.agenda := rfl
@[simp] theorem setTurn_turn (s : State) (x : Nat) : (s.setTurn x).turn = x := rfl
@[simp] theorem setTurn_cur (s : State) (x : Nat) : (s.setTurn x).cur = s.cur := rfl
@[simp] theorem setTurn_nextId (s : State) (x : Nat) : (s.setTurn x).nextId = s.nextId := rfl
@[simp] theorem setTurn_draws (s : State) (x : Nat) : (s.setTurn x).draws = s.draws := rfl
@[simp] theorem setTurn_mem (s : State) (x : Nat) : (s.setTurn x).mem = s.mem := rfl
@[simp] theorem setTurn_home (s : State) (x : Nat) : (s.setTurn x).home = s.home := rfl
@[simp] theorem setTurn_launches (s : State) (x : Nat) : (s.setTurn x).launches = s.launches := rfl
@[simp] theorem setTurn_groups (s : State) (x : Nat) : (s.setTurn x).groups = s.groups := rfl
@[simp] theorem setTurn_gangs (s : State) (x : Nat) : (s.setTurn x).gangs = s.gangs := rfl
@[simp] theorem setTurn_ops (s : State) (x : Nat) : (s.setTurn x).ops = s.ops := rfl
@[simp] theorem setTurn_cores (s : State) (x : Nat) : (s.setTurn x).cores = s.cores := rfl
@[simp] theorem setTurn_ctl (s : State) (x : Nat) : (s.setTurn x).ctl = s.ctl := rfl
@[simp] theorem setTurn_dev (s : State) (x : Nat) : (s.setTurn x).dev = s.dev := rfl
@[simp] theorem setCur_agenda (s : State) (x : Option Site) : (s.setCur x).agenda = s.agenda := rfl
@[simp] theorem setCur_turn (s : State) (x : Option Site) : (s.setCur x).turn = s.turn := rfl
@[simp] theorem setCur_cur (s : State) (x : Option Site) : (s.setCur x).cur = x := rfl
@[simp] theorem setCur_nextId (s : State) (x : Option Site) : (s.setCur x).nextId = s.nextId := rfl
@[simp] theorem setCur_draws (s : State) (x : Option Site) : (s.setCur x).draws = s.draws := rfl
@[simp] theorem setCur_mem (s : State) (x : Option Site) : (s.setCur x).mem = s.mem := rfl
@[simp] theorem setCur_home (s : State) (x : Option Site) : (s.setCur x).home = s.home := rfl
@[simp] theorem setCur_launches (s : State) (x : Option Site) : (s.setCur x).launches = s.launches := rfl
@[simp] theorem setCur_groups (s : State) (x : Option Site) : (s.setCur x).groups = s.groups := rfl
@[simp] theorem setCur_gangs (s : State) (x : Option Site) : (s.setCur x).gangs = s.gangs := rfl
@[simp] theorem setCur_ops (s : State) (x : Option Site) : (s.setCur x).ops = s.ops := rfl
@[simp] theorem setCur_cores (s : State) (x : Option Site) : (s.setCur x).cores = s.cores := rfl
@[simp] theorem setCur_ctl (s : State) (x : Option Site) : (s.setCur x).ctl = s.ctl := rfl
@[simp] theorem setCur_dev (s : State) (x : Option Site) : (s.setCur x).dev = s.dev := rfl
@[simp] theorem setNextId_agenda (s : State) (x : Nat) : (s.setNextId x).agenda = s.agenda := rfl
@[simp] theorem setNextId_turn (s : State) (x : Nat) : (s.setNextId x).turn = s.turn := rfl
@[simp] theorem setNextId_cur (s : State) (x : Nat) : (s.setNextId x).cur = s.cur := rfl
@[simp] theorem setNextId_nextId (s : State) (x : Nat) : (s.setNextId x).nextId = x := rfl
@[simp] theorem setNextId_draws (s : State) (x : Nat) : (s.setNextId x).draws = s.draws := rfl
@[simp] theorem setNextId_mem (s : State) (x : Nat) : (s.setNextId x).mem = s.mem := rfl
@[simp] theorem setNextId_home (s : State) (x : Nat) : (s.setNextId x).home = s.home := rfl
@[simp] theorem setNextId_launches (s : State) (x : Nat) : (s.setNextId x).launches = s.launches := rfl
@[simp] theorem setNextId_groups (s : State) (x : Nat) : (s.setNextId x).groups = s.groups := rfl
@[simp] theorem setNextId_gangs (s : State) (x : Nat) : (s.setNextId x).gangs = s.gangs := rfl
@[simp] theorem setNextId_ops (s : State) (x : Nat) : (s.setNextId x).ops = s.ops := rfl
@[simp] theorem setNextId_cores (s : State) (x : Nat) : (s.setNextId x).cores = s.cores := rfl
@[simp] theorem setNextId_ctl (s : State) (x : Nat) : (s.setNextId x).ctl = s.ctl := rfl
@[simp] theorem setNextId_dev (s : State) (x : Nat) : (s.setNextId x).dev = s.dev := rfl
@[simp] theorem setDraws_agenda (s : State) (x : Nat) : (s.setDraws x).agenda = s.agenda := rfl
@[simp] theorem setDraws_turn (s : State) (x : Nat) : (s.setDraws x).turn = s.turn := rfl
@[simp] theorem setDraws_cur (s : State) (x : Nat) : (s.setDraws x).cur = s.cur := rfl
@[simp] theorem setDraws_nextId (s : State) (x : Nat) : (s.setDraws x).nextId = s.nextId := rfl
@[simp] theorem setDraws_draws (s : State) (x : Nat) : (s.setDraws x).draws = x := rfl
@[simp] theorem setDraws_mem (s : State) (x : Nat) : (s.setDraws x).mem = s.mem := rfl
@[simp] theorem setDraws_home (s : State) (x : Nat) : (s.setDraws x).home = s.home := rfl
@[simp] theorem setDraws_launches (s : State) (x : Nat) : (s.setDraws x).launches = s.launches := rfl
@[simp] theorem setDraws_groups (s : State) (x : Nat) : (s.setDraws x).groups = s.groups := rfl
@[simp] theorem setDraws_gangs (s : State) (x : Nat) : (s.setDraws x).gangs = s.gangs := rfl
@[simp] theorem setDraws_ops (s : State) (x : Nat) : (s.setDraws x).ops = s.ops := rfl
@[simp] theorem setDraws_cores (s : State) (x : Nat) : (s.setDraws x).cores = s.cores := rfl
@[simp] theorem setDraws_ctl (s : State) (x : Nat) : (s.setDraws x).ctl = s.ctl := rfl
@[simp] theorem setDraws_dev (s : State) (x : Nat) : (s.setDraws x).dev = s.dev := rfl
@[simp] theorem setMem_agenda (s : State) (x : MemSys) : (s.setMem x).agenda = s.agenda := rfl
@[simp] theorem setMem_turn (s : State) (x : MemSys) : (s.setMem x).turn = s.turn := rfl
@[simp] theorem setMem_cur (s : State) (x : MemSys) : (s.setMem x).cur = s.cur := rfl
@[simp] theorem setMem_nextId (s : State) (x : MemSys) : (s.setMem x).nextId = s.nextId := rfl
@[simp] theorem setMem_draws (s : State) (x : MemSys) : (s.setMem x).draws = s.draws := rfl
@[simp] theorem setMem_mem (s : State) (x : MemSys) : (s.setMem x).mem = x := rfl
@[simp] theorem setMem_home (s : State) (x : MemSys) : (s.setMem x).home = s.home := rfl
@[simp] theorem setMem_launches (s : State) (x : MemSys) : (s.setMem x).launches = s.launches := rfl
@[simp] theorem setMem_groups (s : State) (x : MemSys) : (s.setMem x).groups = s.groups := rfl
@[simp] theorem setMem_gangs (s : State) (x : MemSys) : (s.setMem x).gangs = s.gangs := rfl
@[simp] theorem setMem_ops (s : State) (x : MemSys) : (s.setMem x).ops = s.ops := rfl
@[simp] theorem setMem_cores (s : State) (x : MemSys) : (s.setMem x).cores = s.cores := rfl
@[simp] theorem setMem_ctl (s : State) (x : MemSys) : (s.setMem x).ctl = s.ctl := rfl
@[simp] theorem setMem_dev (s : State) (x : MemSys) : (s.setMem x).dev = s.dev := rfl
@[simp] theorem setHome_agenda (s : State) (x : HomeSys) : (s.setHome x).agenda = s.agenda := rfl
@[simp] theorem setHome_turn (s : State) (x : HomeSys) : (s.setHome x).turn = s.turn := rfl
@[simp] theorem setHome_cur (s : State) (x : HomeSys) : (s.setHome x).cur = s.cur := rfl
@[simp] theorem setHome_nextId (s : State) (x : HomeSys) : (s.setHome x).nextId = s.nextId := rfl
@[simp] theorem setHome_draws (s : State) (x : HomeSys) : (s.setHome x).draws = s.draws := rfl
@[simp] theorem setHome_mem (s : State) (x : HomeSys) : (s.setHome x).mem = s.mem := rfl
@[simp] theorem setHome_home (s : State) (x : HomeSys) : (s.setHome x).home = x := rfl
@[simp] theorem setHome_launches (s : State) (x : HomeSys) : (s.setHome x).launches = s.launches := rfl
@[simp] theorem setHome_groups (s : State) (x : HomeSys) : (s.setHome x).groups = s.groups := rfl
@[simp] theorem setHome_gangs (s : State) (x : HomeSys) : (s.setHome x).gangs = s.gangs := rfl
@[simp] theorem setHome_ops (s : State) (x : HomeSys) : (s.setHome x).ops = s.ops := rfl
@[simp] theorem setHome_cores (s : State) (x : HomeSys) : (s.setHome x).cores = s.cores := rfl
@[simp] theorem setHome_ctl (s : State) (x : HomeSys) : (s.setHome x).ctl = s.ctl := rfl
@[simp] theorem setHome_dev (s : State) (x : HomeSys) : (s.setHome x).dev = s.dev := rfl
@[simp] theorem setLaunches_agenda (s : State) (x : LaunchSys) : (s.setLaunches x).agenda = s.agenda := rfl
@[simp] theorem setLaunches_turn (s : State) (x : LaunchSys) : (s.setLaunches x).turn = s.turn := rfl
@[simp] theorem setLaunches_cur (s : State) (x : LaunchSys) : (s.setLaunches x).cur = s.cur := rfl
@[simp] theorem setLaunches_nextId (s : State) (x : LaunchSys) : (s.setLaunches x).nextId = s.nextId := rfl
@[simp] theorem setLaunches_draws (s : State) (x : LaunchSys) : (s.setLaunches x).draws = s.draws := rfl
@[simp] theorem setLaunches_mem (s : State) (x : LaunchSys) : (s.setLaunches x).mem = s.mem := rfl
@[simp] theorem setLaunches_home (s : State) (x : LaunchSys) : (s.setLaunches x).home = s.home := rfl
@[simp] theorem setLaunches_launches (s : State) (x : LaunchSys) : (s.setLaunches x).launches = x := rfl
@[simp] theorem setLaunches_groups (s : State) (x : LaunchSys) : (s.setLaunches x).groups = s.groups := rfl
@[simp] theorem setLaunches_gangs (s : State) (x : LaunchSys) : (s.setLaunches x).gangs = s.gangs := rfl
@[simp] theorem setLaunches_ops (s : State) (x : LaunchSys) : (s.setLaunches x).ops = s.ops := rfl
@[simp] theorem setLaunches_cores (s : State) (x : LaunchSys) : (s.setLaunches x).cores = s.cores := rfl
@[simp] theorem setLaunches_ctl (s : State) (x : LaunchSys) : (s.setLaunches x).ctl = s.ctl := rfl
@[simp] theorem setLaunches_dev (s : State) (x : LaunchSys) : (s.setLaunches x).dev = s.dev := rfl
@[simp] theorem setGroups_agenda (s : State) (x : Assoc Group) : (s.setGroups x).agenda = s.agenda := rfl
@[simp] theorem setGroups_turn (s : State) (x : Assoc Group) : (s.setGroups x).turn = s.turn := rfl
@[simp] theorem setGroups_cur (s : State) (x : Assoc Group) : (s.setGroups x).cur = s.cur := rfl
@[simp] theorem setGroups_nextId (s : State) (x : Assoc Group) : (s.setGroups x).nextId = s.nextId := rfl
@[simp] theorem setGroups_draws (s : State) (x : Assoc Group) : (s.setGroups x).draws = s.draws := rfl
@[simp] theorem setGroups_mem (s : State) (x : Assoc Group) : (s.setGroups x).mem = s.mem := rfl
@[simp] theorem setGroups_home (s : State) (x : Assoc Group) : (s.setGroups x).home = s.home := rfl
@[simp] theorem setGroups_launches (s : State) (x : Assoc Group) : (s.setGroups x).launches = s.launches := rfl
@[simp] theorem setGroups_groups (s : State) (x : Assoc Group) : (s.setGroups x).groups = x := rfl
@[simp] theorem setGroups_gangs (s : State) (x : Assoc Group) : (s.setGroups x).gangs = s.gangs := rfl
@[simp] theorem setGroups_ops (s : State) (x : Assoc Group) : (s.setGroups x).ops = s.ops := rfl
@[simp] theorem setGroups_cores (s : State) (x : Assoc Group) : (s.setGroups x).cores = s.cores := rfl
@[simp] theorem setGroups_ctl (s : State) (x : Assoc Group) : (s.setGroups x).ctl = s.ctl := rfl
@[simp] theorem setGroups_dev (s : State) (x : Assoc Group) : (s.setGroups x).dev = s.dev := rfl
@[simp] theorem setGangs_agenda (s : State) (x : Assoc Gang) : (s.setGangs x).agenda = s.agenda := rfl
@[simp] theorem setGangs_turn (s : State) (x : Assoc Gang) : (s.setGangs x).turn = s.turn := rfl
@[simp] theorem setGangs_cur (s : State) (x : Assoc Gang) : (s.setGangs x).cur = s.cur := rfl
@[simp] theorem setGangs_nextId (s : State) (x : Assoc Gang) : (s.setGangs x).nextId = s.nextId := rfl
@[simp] theorem setGangs_draws (s : State) (x : Assoc Gang) : (s.setGangs x).draws = s.draws := rfl
@[simp] theorem setGangs_mem (s : State) (x : Assoc Gang) : (s.setGangs x).mem = s.mem := rfl
@[simp] theorem setGangs_home (s : State) (x : Assoc Gang) : (s.setGangs x).home = s.home := rfl
@[simp] theorem setGangs_launches (s : State) (x : Assoc Gang) : (s.setGangs x).launches = s.launches := rfl
@[simp] theorem setGangs_groups (s : State) (x : Assoc Gang) : (s.setGangs x).groups = s.groups := rfl
@[simp] theorem setGangs_gangs (s : State) (x : Assoc Gang) : (s.setGangs x).gangs = x := rfl
@[simp] theorem setGangs_ops (s : State) (x : Assoc Gang) : (s.setGangs x).ops = s.ops := rfl
@[simp] theorem setGangs_cores (s : State) (x : Assoc Gang) : (s.setGangs x).cores = s.cores := rfl
@[simp] theorem setGangs_ctl (s : State) (x : Assoc Gang) : (s.setGangs x).ctl = s.ctl := rfl
@[simp] theorem setGangs_dev (s : State) (x : Assoc Gang) : (s.setGangs x).dev = s.dev := rfl
@[simp] theorem setOps_agenda (s : State) (x : Assoc Op) : (s.setOps x).agenda = s.agenda := rfl
@[simp] theorem setOps_turn (s : State) (x : Assoc Op) : (s.setOps x).turn = s.turn := rfl
@[simp] theorem setOps_cur (s : State) (x : Assoc Op) : (s.setOps x).cur = s.cur := rfl
@[simp] theorem setOps_nextId (s : State) (x : Assoc Op) : (s.setOps x).nextId = s.nextId := rfl
@[simp] theorem setOps_draws (s : State) (x : Assoc Op) : (s.setOps x).draws = s.draws := rfl
@[simp] theorem setOps_mem (s : State) (x : Assoc Op) : (s.setOps x).mem = s.mem := rfl
@[simp] theorem setOps_home (s : State) (x : Assoc Op) : (s.setOps x).home = s.home := rfl
@[simp] theorem setOps_launches (s : State) (x : Assoc Op) : (s.setOps x).launches = s.launches := rfl
@[simp] theorem setOps_groups (s : State) (x : Assoc Op) : (s.setOps x).groups = s.groups := rfl
@[simp] theorem setOps_gangs (s : State) (x : Assoc Op) : (s.setOps x).gangs = s.gangs := rfl
@[simp] theorem setOps_ops (s : State) (x : Assoc Op) : (s.setOps x).ops = x := rfl
@[simp] theorem setOps_cores (s : State) (x : Assoc Op) : (s.setOps x).cores = s.cores := rfl
@[simp] theorem setOps_ctl (s : State) (x : Assoc Op) : (s.setOps x).ctl = s.ctl := rfl
@[simp] theorem setOps_dev (s : State) (x : Assoc Op) : (s.setOps x).dev = s.dev := rfl
@[simp] theorem setCores_agenda (s : State) (x : CoreSys) : (s.setCores x).agenda = s.agenda := rfl
@[simp] theorem setCores_turn (s : State) (x : CoreSys) : (s.setCores x).turn = s.turn := rfl
@[simp] theorem setCores_cur (s : State) (x : CoreSys) : (s.setCores x).cur = s.cur := rfl
@[simp] theorem setCores_nextId (s : State) (x : CoreSys) : (s.setCores x).nextId = s.nextId := rfl
@[simp] theorem setCores_draws (s : State) (x : CoreSys) : (s.setCores x).draws = s.draws := rfl
@[simp] theorem setCores_mem (s : State) (x : CoreSys) : (s.setCores x).mem = s.mem := rfl
@[simp] theorem setCores_home (s : State) (x : CoreSys) : (s.setCores x).home = s.home := rfl
@[simp] theorem setCores_launches (s : State) (x : CoreSys) : (s.setCores x).launches = s.launches := rfl
@[simp] theorem setCores_groups (s : State) (x : CoreSys) : (s.setCores x).groups = s.groups := rfl
@[simp] theorem setCores_gangs (s : State) (x : CoreSys) : (s.setCores x).gangs = s.gangs := rfl
@[simp] theorem setCores_ops (s : State) (x : CoreSys) : (s.setCores x).ops = s.ops := rfl
@[simp] theorem setCores_cores (s : State) (x : CoreSys) : (s.setCores x).cores = x := rfl
@[simp] theorem setCores_ctl (s : State) (x : CoreSys) : (s.setCores x).ctl = s.ctl := rfl
@[simp] theorem setCores_dev (s : State) (x : CoreSys) : (s.setCores x).dev = s.dev := rfl
@[simp] theorem setCtl_agenda (s : State) (x : CtlSys) : (s.setCtl x).agenda = s.agenda := rfl
@[simp] theorem setCtl_turn (s : State) (x : CtlSys) : (s.setCtl x).turn = s.turn := rfl
@[simp] theorem setCtl_cur (s : State) (x : CtlSys) : (s.setCtl x).cur = s.cur := rfl
@[simp] theorem setCtl_nextId (s : State) (x : CtlSys) : (s.setCtl x).nextId = s.nextId := rfl
@[simp] theorem setCtl_draws (s : State) (x : CtlSys) : (s.setCtl x).draws = s.draws := rfl
@[simp] theorem setCtl_mem (s : State) (x : CtlSys) : (s.setCtl x).mem = s.mem := rfl
@[simp] theorem setCtl_home (s : State) (x : CtlSys) : (s.setCtl x).home = s.home := rfl
@[simp] theorem setCtl_launches (s : State) (x : CtlSys) : (s.setCtl x).launches = s.launches := rfl
@[simp] theorem setCtl_groups (s : State) (x : CtlSys) : (s.setCtl x).groups = s.groups := rfl
@[simp] theorem setCtl_gangs (s : State) (x : CtlSys) : (s.setCtl x).gangs = s.gangs := rfl
@[simp] theorem setCtl_ops (s : State) (x : CtlSys) : (s.setCtl x).ops = s.ops := rfl
@[simp] theorem setCtl_cores (s : State) (x : CtlSys) : (s.setCtl x).cores = s.cores := rfl
@[simp] theorem setCtl_ctl (s : State) (x : CtlSys) : (s.setCtl x).ctl = x := rfl
@[simp] theorem setCtl_dev (s : State) (x : CtlSys) : (s.setCtl x).dev = s.dev := rfl
@[simp] theorem setDev_agenda (s : State) (x : Device) : (s.setDev x).agenda = s.agenda := rfl
@[simp] theorem setDev_turn (s : State) (x : Device) : (s.setDev x).turn = s.turn := rfl
@[simp] theorem setDev_cur (s : State) (x : Device) : (s.setDev x).cur = s.cur := rfl
@[simp] theorem setDev_nextId (s : State) (x : Device) : (s.setDev x).nextId = s.nextId := rfl
@[simp] theorem setDev_draws (s : State) (x : Device) : (s.setDev x).draws = s.draws := rfl
@[simp] theorem setDev_mem (s : State) (x : Device) : (s.setDev x).mem = s.mem := rfl
@[simp] theorem setDev_home (s : State) (x : Device) : (s.setDev x).home = s.home := rfl
@[simp] theorem setDev_launches (s : State) (x : Device) : (s.setDev x).launches = s.launches := rfl
@[simp] theorem setDev_groups (s : State) (x : Device) : (s.setDev x).groups = s.groups := rfl
@[simp] theorem setDev_gangs (s : State) (x : Device) : (s.setDev x).gangs = s.gangs := rfl
@[simp] theorem setDev_ops (s : State) (x : Device) : (s.setDev x).ops = s.ops := rfl
@[simp] theorem setDev_cores (s : State) (x : Device) : (s.setDev x).cores = s.cores := rfl
@[simp] theorem setDev_ctl (s : State) (x : Device) : (s.setDev x).ctl = s.ctl := rfl
@[simp] theorem setDev_dev (s : State) (x : Device) : (s.setDev x).dev = x := rfl
@[simp] theorem updGang_agenda (s : State) (g : Nat) (f : Gang → Gang) : (s.updGang g f).agenda = s.agenda := rfl
@[simp] theorem updGang_turn (s : State) (g : Nat) (f : Gang → Gang) : (s.updGang g f).turn = s.turn := rfl
@[simp] theorem updGang_cur (s : State) (g : Nat) (f : Gang → Gang) : (s.updGang g f).cur = s.cur := rfl
@[simp] theorem updGang_nextId (s : State) (g : Nat) (f : Gang → Gang) : (s.updGang g f).nextId = s.nextId := rfl
@[simp] theorem updGang_draws (s : State) (g : Nat) (f : Gang → Gang) : (s.updGang g f).draws = s.draws := rfl
@[simp] theorem updGang_mem (s : State) (g : Nat) (f : Gang → Gang) : (s.updGang g f).mem = s.mem := rfl
@[simp] theorem updGang_home (s : State) (g : Nat) (f : Gang → Gang) : (s.updGang g f).home = s.home := rfl
@[simp] theorem updGang_launches (s : State) (g : Nat) (f : Gang → Gang) : (s.updGang g f).launches = s.launches := rfl
@[simp] theorem updGang_groups (s : State) (g : Nat) (f : Gang → Gang) : (s.updGang g f).groups = s.groups := rfl
@[simp] theorem updGang_ops (s : State) (g : Nat) (f : Gang → Gang) : (s.updGang g f).ops = s.ops := rfl
@[simp] theorem updGang_cores (s : State) (g : Nat) (f : Gang → Gang) : (s.updGang g f).cores = s.cores := rfl
@[simp] theorem updGang_ctl (s : State) (g : Nat) (f : Gang → Gang) : (s.updGang g f).ctl = s.ctl := rfl
@[simp] theorem updGang_dev (s : State) (g : Nat) (f : Gang → Gang) : (s.updGang g f).dev = s.dev := rfl
@[simp] theorem updGroup_agenda (s : State) (g : Nat) (f : Group → Group) : (s.updGroup g f).agenda = s.agenda := rfl
@[simp] theorem updGroup_turn (s : State) (g : Nat) (f : Group → Group) : (s.updGroup g f).turn = s.turn := rfl
@[simp] theorem updGroup_cur (s : State) (g : Nat) (f : Group → Group) : (s.updGroup g f).cur = s.cur := rfl
@[simp] theorem updGroup_nextId (s : State) (g : Nat) (f : Group → Group) : (s.updGroup g f).nextId = s.nextId := rfl
@[simp] theorem updGroup_draws (s : State) (g : Nat) (f : Group → Group) : (s.updGroup g f).draws = s.draws := rfl
@[simp] theorem updGroup_mem (s : State) (g : Nat) (f : Group → Group) : (s.updGroup g f).mem = s.mem := rfl
@[simp] theorem updGroup_home (s : State) (g : Nat) (f : Group → Group) : (s.updGroup g f).home = s.home := rfl
@[simp] theorem updGroup_launches (s : State) (g : Nat) (f : Group → Group) : (s.updGroup g f).launches = s.launches := rfl
@[simp] theorem updGroup_gangs (s : State) (g : Nat) (f : Group → Group) : (s.updGroup g f).gangs = s.gangs := rfl
@[simp] theorem updGroup_ops (s : State) (g : Nat) (f : Group → Group) : (s.updGroup g f).ops = s.ops := rfl
@[simp] theorem updGroup_cores (s : State) (g : Nat) (f : Group → Group) : (s.updGroup g f).cores = s.cores := rfl
@[simp] theorem updGroup_ctl (s : State) (g : Nat) (f : Group → Group) : (s.updGroup g f).ctl = s.ctl := rfl
@[simp] theorem updGroup_dev (s : State) (g : Nat) (f : Group → Group) : (s.updGroup g f).dev = s.dev := rfl
@[simp] theorem updOp_agenda (s : State) (g : Nat) (f : Op → Op) : (s.updOp g f).agenda = s.agenda := rfl
@[simp] theorem updOp_turn (s : State) (g : Nat) (f : Op → Op) : (s.updOp g f).turn = s.turn := rfl
@[simp] theorem updOp_cur (s : State) (g : Nat) (f : Op → Op) : (s.updOp g f).cur = s.cur := rfl
@[simp] theorem updOp_nextId (s : State) (g : Nat) (f : Op → Op) : (s.updOp g f).nextId = s.nextId := rfl
@[simp] theorem updOp_draws (s : State) (g : Nat) (f : Op → Op) : (s.updOp g f).draws = s.draws := rfl
@[simp] theorem updOp_mem (s : State) (g : Nat) (f : Op → Op) : (s.updOp g f).mem = s.mem := rfl
@[simp] theorem updOp_home (s : State) (g : Nat) (f : Op → Op) : (s.updOp g f).home = s.home := rfl
@[simp] theorem updOp_launches (s : State) (g : Nat) (f : Op → Op) : (s.updOp g f).launches = s.launches := rfl
@[simp] theorem updOp_groups (s : State) (g : Nat) (f : Op → Op) : (s.updOp g f).groups = s.groups := rfl
@[simp] theorem updOp_gangs (s : State) (g : Nat) (f : Op → Op) : (s.updOp g f).gangs = s.gangs := rfl
@[simp] theorem updOp_cores (s : State) (g : Nat) (f : Op → Op) : (s.updOp g f).cores = s.cores := rfl
@[simp] theorem updOp_ctl (s : State) (g : Nat) (f : Op → Op) : (s.updOp g f).ctl = s.ctl := rfl
@[simp] theorem updOp_dev (s : State) (g : Nat) (f : Op → Op) : (s.updOp g f).dev = s.dev := rfl
@[simp] theorem updLaunch_agenda (s : State) (g : Nat) (f : Launch → Launch) : (s.updLaunch g f).agenda = s.agenda := rfl
@[simp] theorem updLaunch_turn (s : State) (g : Nat) (f : Launch → Launch) : (s.updLaunch g f).turn = s.turn := rfl
@[simp] theorem updLaunch_cur (s : State) (g : Nat) (f : Launch → Launch) : (s.updLaunch g f).cur = s.cur := rfl
@[simp] theorem updLaunch_nextId (s : State) (g : Nat) (f : Launch → Launch) : (s.updLaunch g f).nextId = s.nextId := rfl
@[simp] theorem updLaunch_draws (s : State) (g : Nat) (f : Launch → Launch) : (s.updLaunch g f).draws = s.draws := rfl
@[simp] theorem updLaunch_mem (s : State) (g : Nat) (f : Launch → Launch) : (s.updLaunch g f).mem = s.mem := rfl
@[simp] theorem updLaunch_home (s : State) (g : Nat) (f : Launch → Launch) : (s.updLaunch g f).home = s.home := rfl
@[simp] theorem updLaunch_groups (s : State) (g : Nat) (f : Launch → Launch) : (s.updLaunch g f).groups = s.groups := rfl
@[simp] theorem updLaunch_gangs (s : State) (g : Nat) (f : Launch → Launch) : (s.updLaunch g f).gangs = s.gangs := rfl
@[simp] theorem updLaunch_ops (s : State) (g : Nat) (f : Launch → Launch) : (s.updLaunch g f).ops = s.ops := rfl
@[simp] theorem updLaunch_cores (s : State) (g : Nat) (f : Launch → Launch) : (s.updLaunch g f).cores = s.cores := rfl
@[simp] theorem updLaunch_ctl (s : State) (g : Nat) (f : Launch → Launch) : (s.updLaunch g f).ctl = s.ctl := rfl
@[simp] theorem updLaunch_dev (s : State) (g : Nat) (f : Launch → Launch) : (s.updLaunch g f).dev = s.dev := rfl
@[simp] theorem updCtx_agenda (s : State) (x : Site) (f : Ctx → Ctx) : (s.updCtx x f).agenda = s.agenda := rfl
@[simp] theorem updCtx_turn (s : State) (x : Site) (f : Ctx → Ctx) : (s.updCtx x f).turn = s.turn := rfl
@[simp] theorem updCtx_cur (s : State) (x : Site) (f : Ctx → Ctx) : (s.updCtx x f).cur = s.cur := rfl
@[simp] theorem updCtx_nextId (s : State) (x : Site) (f : Ctx → Ctx) : (s.updCtx x f).nextId = s.nextId := rfl
@[simp] theorem updCtx_draws (s : State) (x : Site) (f : Ctx → Ctx) : (s.updCtx x f).draws = s.draws := rfl
@[simp] theorem updCtx_mem (s : State) (x : Site) (f : Ctx → Ctx) : (s.updCtx x f).mem = s.mem := rfl
@[simp] theorem updCtx_home (s : State) (x : Site) (f : Ctx → Ctx) : (s.updCtx x f).home = s.home := rfl
@[simp] theorem updCtx_launches (s : State) (x : Site) (f : Ctx → Ctx) : (s.updCtx x f).launches = s.launches := rfl
@[simp] theorem updCtx_groups (s : State) (x : Site) (f : Ctx → Ctx) : (s.updCtx x f).groups = s.groups := rfl
@[simp] theorem updCtx_ops (s : State) (x : Site) (f : Ctx → Ctx) : (s.updCtx x f).ops = s.ops := rfl
@[simp] theorem updCtx_cores (s : State) (x : Site) (f : Ctx → Ctx) : (s.updCtx x f).cores = s.cores := rfl
@[simp] theorem updCtx_ctl (s : State) (x : Site) (f : Ctx → Ctx) : (s.updCtx x f).ctl = s.ctl := rfl
@[simp] theorem updCtx_dev (s : State) (x : Site) (f : Ctx → Ctx) : (s.updCtx x f).dev = s.dev := rfl
@[simp] theorem updThread_agenda (s : State) (g l : Nat) (f : Thread → Thread) : (s.updThread g l f).agenda = s.agenda := rfl
@[simp] theorem updThread_turn (s : State) (g l : Nat) (f : Thread → Thread) : (s.updThread g l f).turn = s.turn := rfl
@[simp] theorem updThread_cur (s : State) (g l : Nat) (f : Thread → Thread) : (s.updThread g l f).cur = s.cur := rfl
@[simp] theorem updThread_nextId (s : State) (g l : Nat) (f : Thread → Thread) : (s.updThread g l f).nextId = s.nextId := rfl
@[simp] theorem updThread_draws (s : State) (g l : Nat) (f : Thread → Thread) : (s.updThread g l f).draws = s.draws := rfl
@[simp] theorem updThread_mem (s : State) (g l : Nat) (f : Thread → Thread) : (s.updThread g l f).mem = s.mem := rfl
@[simp] theorem updThread_home (s : State) (g l : Nat) (f : Thread → Thread) : (s.updThread g l f).home = s.home := rfl
@[simp] theorem updThread_launches (s : State) (g l : Nat) (f : Thread → Thread) : (s.updThread g l f).launches = s.launches := rfl
@[simp] theorem updThread_groups (s : State) (g l : Nat) (f : Thread → Thread) : (s.updThread g l f).groups = s.groups := rfl
@[simp] theorem updThread_ops (s : State) (g l : Nat) (f : Thread → Thread) : (s.updThread g l f).ops = s.ops := rfl
@[simp] theorem updThread_cores (s : State) (g l : Nat) (f : Thread → Thread) : (s.updThread g l f).cores = s.cores := rfl
@[simp] theorem updThread_ctl (s : State) (g l : Nat) (f : Thread → Thread) : (s.updThread g l f).ctl = s.ctl := rfl
@[simp] theorem updThread_dev (s : State) (g l : Nat) (f : Thread → Thread) : (s.updThread g l f).dev = s.dev := rfl

@[simp] theorem gang?_updGang (s : State) (g : Nat) (f : Gang → Gang) : (s.updGang g f).gang? g = (s.gang? g).map f := Assoc.get?_upd_self _ _ _
theorem gang?_updGang_ne (s : State) {g k : Nat} (f : Gang → Gang) (h : k ≠ g) : (s.updGang g f).gang? k = s.gang? k :=
  Assoc.get?_upd_ne _ _ h
@[simp] theorem group?_updGroup (s : State) (g : Nat) (f : Group → Group) : (s.updGroup g f).group? g = (s.group? g).map f :=
  Assoc.get?_upd_self _ _ _
theorem group?_updGroup_ne (s : State) {g k : Nat} (f : Group → Group) (h : k ≠ g) : (s.updGroup g f).group? k = s.group? k :=
  Assoc.get?_upd_ne _ _ h
@[simp] theorem op?_updOp (s : State) (g : Nat) (f : Op → Op) : (s.updOp g f).op? g = (s.op? g).map f := Assoc.get?_upd_self _ _ _
@[simp] theorem launch?_updLaunch (s : State) (g : Nat) (f : Launch → Launch) : (s.updLaunch g f).launch? g = (s.launch? g).map f :=
  Assoc.get?_upd_self _ _ _

end Sys2Proof.Machine.State
end

