-- ==== Sys2Proof/Laws/Run.lean ====
section
/-! SUPPORT. What the operations around every instruction do: the wake of its path, its sources, its destinations, its bookkeeping and
its advance; and the effect of an instruction that delivers and advances. -/

namespace Sys2Proof.Machine

/-! ### Lookups after updates -/

theorem Gang.ctx?_updCtx (g : Gang) (a b : Bool) (f : Ctx → Ctx) :
    (g.updCtx a f).ctx? b = if b = a then (g.ctx? b).map f else g.ctx? b := by
  cases a <;> cases b <;> rfl

namespace State

theorem gang?_updGang' (s : State) (g k : Nat) (f : Gang → Gang) :
    (s.updGang g f).gang? k = if k = g then (s.gang? k).map f else s.gang? k := by
  by_cases h : k = g
  · subst h; simp
  · simp [h, gang?_updGang_ne]

theorem ctx?_of_gang? (s : State) (x : Site) : s.ctx? x = (s.gang? x.gang).bind fun g => g.ctx? x.access := by
  unfold ctx?; cases s.gang? x.gang <;> rfl

theorem thread?_of_gang? (s : State) (g n : Nat) : s.thread? g n = (s.gang? g).bind fun x => x.threads.get? n := by
  unfold thread?; cases s.gang? g <;> rfl

theorem queue_of_gang? (s : State) (g q n : Nat) :
    s.queue g q n = (((s.gang? g).bind fun x => x.queues.get? q).map fun r => r.ents.getD n []).getD [] := by
  unfold queue
  cases h : s.gang? g with
  | none => rfl
  | some x => simp only [Option.bind_some]; cases x.queues.get? q <;> rfl

theorem gang?_foldl_updGang {β : Type} (ls : List β) (s : State) (g k : Nat) (f : β → Gang → Gang) :
    (ls.foldl (fun s b => s.updGang g (f b)) s).gang? k =
      if k = g then (s.gang? k).map fun x => ls.foldl (fun x b => f b x) x else s.gang? k := by
  induction ls generalizing s with
  | nil => simp
  | cons b ls ih => simp only [List.foldl_cons, ih, gang?_updGang']; split <;> simp [Option.map_map, Function.comp_def]

end State

/-! ### An operation that changes one gang -/

/-- `t` is `s` with one gang changed by `f`, and nothing else but `ops` and `nextId`. -/
structure OneGang (g : Nat) (f : Gang → Gang) (s t : State) : Prop where
  gang : ∀ k, t.gang? k = if k = g then (s.gang? k).map f else s.gang? k
  mem : t.mem = s.mem
  home : t.home = s.home
  launches : t.launches = s.launches
  groups : t.groups = s.groups
  cores : t.cores = s.cores
  ctl : t.ctl = s.ctl
  dev : t.dev = s.dev
  turn : t.turn = s.turn
  cur : t.cur = s.cur
  draws : t.draws = s.draws

theorem OneGang.refl (g : Nat) (s : State) : OneGang g id s s := by
  constructor <;> simp

theorem OneGang.updGang (s : State) (g : Nat) (f : Gang → Gang) : OneGang g f s (s.updGang g f) := by
  constructor
  · exact fun k => s.gang?_updGang' g k f
  all_goals simp

theorem OneGang.trans {g : Nat} {f h : Gang → Gang} {s t u : State} (a : OneGang g f s t) (b : OneGang g h t u) :
    OneGang g (fun x => h (f x)) s u := by
  constructor
  · intro k; rw [b.gang, a.gang]; split <;> simp [Option.map_map, Function.comp_def]
  · rw [b.mem, a.mem]
  · rw [b.home, a.home]
  · rw [b.launches, a.launches]
  · rw [b.groups, a.groups]
  · rw [b.cores, a.cores]
  · rw [b.ctl, a.ctl]
  · rw [b.dev, a.dev]
  · rw [b.turn, a.turn]
  · rw [b.cur, a.cur]
  · rw [b.draws, a.draws]

theorem OneGang.congr {g : Nat} {f h : Gang → Gang} {s t : State} (a : OneGang g f s t) (e : f = h) : OneGang g h s t := e ▸ a

theorem OneGang.foldl {β : Type} (ls : List β) (s : State) (g : Nat) (f : β → Gang → Gang) :
    OneGang g (fun x => ls.foldl (fun x b => f b x) x) s (ls.foldl (fun s b => s.updGang g (f b)) s) := by
  induction ls generalizing s with
  | nil => exact OneGang.refl g s
  | cons b ls ih => exact (OneGang.updGang s g (f b)).trans (ih _)

/-! ### What a change of a gang does to its contexts, queues and threads -/

/-- The entries of a queue of a gang in a lane. -/
def Gang.ents (g : Gang) (k n : Nat) : List QEnt := ((g.queues.get? k).map fun r => r.ents.getD n []).getD []

/-- `f` changes the context `a` by `F`, the entries of queues by `Q`, capsule registers by `C`, and nothing else that a pipe does not
change by itself. -/
structure Acts (a : Bool) (f : Gang → Gang) (F : Ctx → Ctx) (Q : Nat → Nat → List QEnt → List QEnt) (C : Nat → Nat → Word → Word) :
    Prop where
  ctx : ∀ g b, (f g).ctx? b = if b = a then (g.ctx? b).map F else g.ctx? b
  still : ∀ g, (f g).still = g.still
  has : ∀ g k, (f g).queues.has k = g.queues.has k
  ents : ∀ g k n, (f g).ents k n = if g.queues.has k then Q k n (g.ents k n) else []
  thr : ∀ g n, ((f g).threads.get? n).map Thread.still = (g.threads.get? n).map Thread.still
  creg : ∀ g n r, ((f g).threads.get? n).map (fun t => t.creg r) = ((g.threads.get? n).map fun t => t.creg r).map (C n r)

/-- `t` is `s` after one change of a gang. -/
def Does (x : Site) (F : Ctx → Ctx) (Q : Nat → Nat → List QEnt → List QEnt) (C : Nat → Nat → Word → Word) (s t : State) : Prop :=
  ∃ f, OneGang x.gang f s t ∧ Acts x.access f F Q C

theorem Gang.ents_of_not_has {g : Gang} {k n : Nat} (h : g.queues.has k = false) : g.ents k n = [] := by
  unfold Assoc.has at h; unfold Gang.ents
  cases hq : g.queues.get? k with
  | none => rfl
  | some r => simp [hq] at h

theorem Acts.trans {a : Bool} {f₁ f₂ : Gang → Gang} {F₁ F₂ : Ctx → Ctx} {Q₁ Q₂ : Nat → Nat → List QEnt → List QEnt}
    {C₁ C₂ : Nat → Nat → Word → Word} (h₁ : Acts a f₁ F₁ Q₁ C₁) (h₂ : Acts a f₂ F₂ Q₂ C₂) :
    Acts a (fun g => f₂ (f₁ g)) (fun c => F₂ (F₁ c)) (fun k n e => Q₂ k n (Q₁ k n e)) (fun n r w => C₂ n r (C₁ n r w)) := by
  constructor
  · intro g b; rw [h₂.ctx, h₁.ctx]; split <;> simp [Option.map_map, Function.comp_def]
  · intro g; rw [h₂.still, h₁.still]
  · intro g k; rw [h₂.has, h₁.has]
  · intro g k n; rw [h₂.ents, h₁.has, h₁.ents]; split <;> simp_all
  · intro g n; rw [h₂.thr, h₁.thr]
  · intro g n r; rw [h₂.creg, h₁.creg]; simp [Option.map_map, Function.comp_def]

theorem Does.trans {x : Site} {F₁ F₂ : Ctx → Ctx} {Q₁ Q₂ : Nat → Nat → List QEnt → List QEnt} {C₁ C₂ : Nat → Nat → Word → Word}
    {s t u : State} (h₁ : Does x F₁ Q₁ C₁ s t) (h₂ : Does x F₂ Q₂ C₂ t u) :
    Does x (fun c => F₂ (F₁ c)) (fun k n e => Q₂ k n (Q₁ k n e)) (fun n r w => C₂ n r (C₁ n r w)) s u := by
  obtain ⟨f₁, o₁, a₁⟩ := h₁
  obtain ⟨f₂, o₂, a₂⟩ := h₂
  exact ⟨_, o₁.trans o₂, a₁.trans a₂⟩

/-- No change. -/
theorem Acts.refl (a : Bool) : Acts a id id (fun _ _ e => e) (fun _ _ w => w) := by
  constructor
  · intro g b; simp
  · intro g; rfl
  · intro g k; rfl
  · intro g k n
    cases h : g.queues.has k with
    | true => simp
    | false => simpa using Gang.ents_of_not_has h
  · intro g n; rfl
  · intro g n r; simp [Function.comp_def]

theorem Does.refl (x : Site) (s : State) : Does x (fun c => c) (fun _ _ e => e) (fun _ _ w => w) s s := ⟨id, OneGang.refl _ s, Acts.refl _⟩

/-- A change of one context that keeps what `Ctx.still` keeps. -/
theorem Acts.updCtx (a : Bool) (F : Ctx → Ctx) (hF : ∀ c, (F c).still = c.still) :
    Acts a (fun g => g.updCtx a F) F (fun _ _ e => e) (fun _ _ w => w) := by
  have r := Acts.refl a
  constructor
  · intro g b; exact Gang.ctx?_updCtx g a b F
  · intro g
    cases a with
    | false => simp [Gang.updCtx, Gang.still, hF]
    | true => simp [Gang.updCtx, Gang.still, Option.map_map, Function.comp_def, hF]
  · intro g k; cases a <;> rfl
  · intro g k n; have := r.ents g k n; cases a <;> exact this
  · intro g n; cases a <;> rfl
  · intro g n r'; have := r.creg g n r'; cases a <;> exact this

theorem Does.updCtx (s : State) (x : Site) (F : Ctx → Ctx) (hF : ∀ c, (F c).still = c.still) :
    Does x F (fun _ _ e => e) (fun _ _ w => w) s (s.updCtx x F) :=
  ⟨_, OneGang.updGang s x.gang _, Acts.updCtx _ F hF⟩

/-- A change of the spin detector alone. -/
theorem Acts.hashWrites (a b : Bool) (ws : List Word) : Acts b (fun g => Env.hashWrites g a ws) id (fun _ _ e => e) (fun _ _ w => w) := by
  have r := Acts.refl b
  have h : ∀ g : Gang, Env.hashWrites g a ws = g ∨ ∃ p, Env.hashWrites g a ws = { g with spin := some p } := by
    intro g; unfold Env.hashWrites; split
    · exact Or.inl rfl
    · exact Or.inl rfl
    · exact Or.inr ⟨_, rfl⟩
  constructor
  · intro g c
    rcases h g with h | ⟨p, h⟩
    · rw [h]; exact r.ctx g c
    · rw [h]; exact r.ctx g c
  · intro g
    rcases h g with h | ⟨p, h⟩
    · rw [h]
    · rw [h]; rfl
  · intro g k; rcases h g with h | ⟨p, h⟩ <;> rw [h]
  · intro g k n; rcases h g with h | ⟨p, h⟩ <;> rw [h] <;> exact r.ents g k n
  · intro g n; rcases h g with h | ⟨p, h⟩ <;> rw [h]
  · intro g n r'; rcases h g with h | ⟨p, h⟩ <;> rw [h] <;> exact r.creg g n r'

theorem Does.of_updGang {x : Site} {f : Gang → Gang} {F : Ctx → Ctx} {Q : Nat → Nat → List QEnt → List QEnt}
    {C : Nat → Nat → Word → Word} (s : State) (h : Acts x.access f F Q C) : Does x F Q C s (s.updGang x.gang f) :=
  ⟨f, OneGang.updGang s x.gang f, h⟩

/-! ### Sources (02:R51, 12:R281) -/

/-- What a last-use hint of one use does to a context in lanes; `rep` names copies that it leaves alone. -/
def killUse (rep : Bool → Nat → Bool) (ls : List Nat) (all : Bool) (c : Ctx) (u : Use) : Ctx :=
  if !u.last then c
  else match u.o with
    | .v n => { c with v := (List.range u.n).foldl (fun t j => ls.foldl (fun t k =>
        if rep true (64 * (n.toNat + j) + k) then t else t.del (64 * (n.toNat + j) + k)) t) c.v }
    | .s n => if all then { c with s := (List.range u.n).foldl (fun t j => if rep false (n.val + j) then t else t.del (n.val + j)) c.s } else c
    | _ => c

/-- What `settle` does to the context. -/
def Env.settleCtx (e : Env) (m : Mask) (all : Bool) (c : Ctx) : Ctx :=
  e.uses.foldl (killUse e.replayed (lanesOf m) all) (if (lanesOf m).any e.deadIn then { c with gst := c.gst ||| 0x40#32 } else c)

/-- The queues that an instruction pops, once for each pop. -/
def Env.popList (e : Env) : List Nat := e.uses.filterMap fun u => match u.o, u.role with | .q n, .src => some n.toNat | _, _ => none

theorem Env.settle_eq (e : Env) (s : State) (m : Mask) (all : Bool) : e.settle s m all =
    if m = 0#64 then s
    else
      let s := s.updCtx e.x (e.settleCtx m all)
      if e.popList.isEmpty then s else s.updGang e.x.gang fun g => e.popList.foldl (fun g q => Env.popLanes g q 1 (lanesOf m)) g := rfl

theorem killUse_keeps {β : Type} (φ : Ctx → β) (hv : ∀ c x, φ { c with v := x } = φ c) (hs : ∀ c x, φ { c with s := x } = φ c)
    (rep : Bool → Nat → Bool) (ls : List Nat) (all : Bool) (c : Ctx) (u : Use) : φ (killUse rep ls all c u) = φ c := by
  unfold killUse
  split
  · rfl
  · split
    · exact hv _ _
    · split
      · exact hs _ _
      · rfl
    · rfl

theorem foldl_killUse_keeps {β : Type} (φ : Ctx → β) (hv : ∀ c x, φ { c with v := x } = φ c) (hs : ∀ c x, φ { c with s := x } = φ c)
    (rep : Bool → Nat → Bool) (ls : List Nat) (all : Bool) (us : List Use) (c : Ctx) : φ (us.foldl (killUse rep ls all) c) = φ c := by
  induction us generalizing c with
  | nil => rfl
  | cons u us ih => rw [List.foldl_cons, ih, killUse_keeps φ hv hs]

theorem get?_foldl_del {α β : Type} (key : β → Nat) (rep : Nat → Bool) (bs : List β) (t : Assoc α) (j : Nat) :
    (bs.foldl (fun t b => if rep (key b) then t else Assoc.del t (key b)) t).get? j =
      if !rep j && bs.any (fun b => decide (key b = j)) then none else t.get? j := by
  induction bs generalizing t with
  | nil => simp
  | cons b bs ih =>
    simp only [List.foldl_cons, ih, List.any_cons]
    by_cases h : key b = j
    · subst h
      cases hr : rep (key b)
      · simp
      · simp
    · cases hr : rep (key b) <;> simp [h, Assoc.get?_del, Ne.symm h]

theorem ite_ite_or {α : Type} (a b : Bool) (x y : α) : (if a then x else if b then x else y) = if (b || a) then x else y := by
  cases a <;> cases b <;> rfl

theorem get?_foldl_foldl_del {α β γ : Type} (key : β → γ → Nat) (rep : Nat → Bool) (bs : List β) (cs : List γ) (t : Assoc α) (j : Nat) :
    (bs.foldl (fun t b => cs.foldl (fun t c => if rep (key b c) then t else Assoc.del t (key b c)) t) t).get? j =
      if !rep j && bs.any (fun b => cs.any fun c => decide (key b c = j)) then none else t.get? j := by
  induction bs generalizing t with
  | nil => simp
  | cons b bs ih =>
    simp only [List.foldl_cons, ih, get?_foldl_del (key b) rep, List.any_cons]
    cases rep j
    · simp only [Bool.not_false, Bool.true_and]; exact ite_ite_or _ _ _ _
    · simp

theorem mem_lanesOf {m : Mask} {n : Nat} : n ∈ lanesOf m ↔ m.getLsbD n = true := by
  simp only [lanesOf, List.mem_filter, List.mem_range]
  constructor
  · exact fun h => h.2
  · intro h
    refine ⟨?_, h⟩
    by_contra hn
    rw [BitVec.getLsbD_of_ge m n (by omega)] at h
    cases h

theorem nodup_lanesOf (m : Mask) : (lanesOf m).Nodup := List.Nodup.filter _ List.nodup_range

/-- The lanes of a v register that a use kills. -/
def useKillsV (rep : Bool → Nat → Bool) (u : Use) (m : Mask) (r n : Nat) : Bool :=
  !rep true (64 * r + n) && (m.getLsbD n && (u.last && coversV u r))

theorem killUse_v (rep : Bool → Nat → Bool) (m : Mask) (all : Bool) (c : Ctx) (u : Use) (r n : Nat) (hn : n < 64) :
    (killUse rep (lanesOf m) all c u).v.get? (64 * r + n) = if useKillsV rep u m r n then none else c.v.get? (64 * r + n) := by
  unfold killUse useKillsV coversV
  cases hl : u.last with
  | false => simp
  | true =>
    simp only [Bool.not_true, Bool.false_eq_true, if_false, Bool.true_and]
    cases ho : u.o with
    | v b =>
      simp only
      rw [get?_foldl_foldl_del (fun j k => 64 * (b.toNat + j) + k) (rep true)]
      cases rep true (64 * r + n)
      swap
      · simp
      simp only [Bool.not_false, Bool.true_and]
      congr 1
      rw [eq_iff_iff, Bool.and_eq_true, List.any_eq_true]
      simp only [List.any_eq_true, List.mem_range, decide_eq_true_eq, mem_lanesOf]
      constructor
      · rintro ⟨j, hj, k, hk, h⟩
        have hk' := mem_lanesOf.2 hk
        simp only [lanesOf, List.mem_filter, List.mem_range] at hk'
        have : k = n := by omega
        subst this
        exact ⟨hk, by omega, by omega⟩
      · rintro ⟨h1, h2, h3⟩
        exact ⟨r - b.toNat, by omega, n, h1, by omega⟩
    | s b => simp only; split <;> simp
    | c b => simp
    | q b => simp

theorem foldl_killUse_v (rep : Bool → Nat → Bool) (m : Mask) (all : Bool) (us : List Use) (c : Ctx) (r n : Nat) (hn : n < 64) :
    (us.foldl (killUse rep (lanesOf m) all) c).v.get? (64 * r + n) = if us.any (fun u => useKillsV rep u m r n) then none else c.v.get? (64 * r + n) := by
  induction us generalizing c with
  | nil => simp
  | cons u us ih =>
    simp only [List.foldl_cons, ih, killUse_v _ _ _ _ _ _ _ hn, List.any_cons]
    exact ite_ite_or _ _ _ _

/-- The s registers that a use kills. -/
def useKillsS (rep : Bool → Nat → Bool) (u : Use) (all : Bool) (r : Nat) : Bool :=
  !rep false r && (all && (u.last && coversS u r))

theorem killUse_s (rep : Bool → Nat → Bool) (ls : List Nat) (all : Bool) (c : Ctx) (u : Use) (r : Nat) :
    (killUse rep ls all c u).s.get? r = if useKillsS rep u all r then none else c.s.get? r := by
  unfold killUse useKillsS coversS
  cases hl : u.last with
  | false => simp
  | true =>
    simp only [Bool.not_true, Bool.false_eq_true, if_false, Bool.true_and]
    cases ho : u.o with
    | s b =>
      cases all with
      | false => simp
      | true =>
        simp only [if_true, Bool.true_and]
        rw [get?_foldl_del (fun j => b.val + j) (rep false)]
        cases rep false r
        swap
        · simp
        simp only [Bool.not_false, Bool.true_and]
        congr 1
        rw [eq_iff_iff, List.any_eq_true]
        simp only [List.mem_range, decide_eq_true_eq]
        constructor
        · rintro ⟨j, hj, h⟩; omega
        · rintro ⟨h2, h3⟩; exact ⟨r - b.val, by omega, by omega⟩
    | v b => simp
    | c b => simp
    | q b => simp

theorem foldl_killUse_s (rep : Bool → Nat → Bool) (ls : List Nat) (all : Bool) (us : List Use) (c : Ctx) (r : Nat) :
    (us.foldl (killUse rep ls all) c).s.get? r = if us.any (fun u => useKillsS rep u all r) then none else c.s.get? r := by
  induction us generalizing c with
  | nil => simp
  | cons u us ih =>
    simp only [List.foldl_cons, ih, killUse_s, List.any_cons]
    exact ite_ite_or _ _ _ _

theorem getD_foldl_put {α : Type} (F : Nat → α → α) (d : α) (ls : List Nat) (hl : ls.Nodup) (t : Assoc α) (n : Nat) :
    (ls.foldl (fun t k => t.put k (F k (t.getD k d))) t).getD n d = if ls.contains n then F n (t.getD n d) else t.getD n d := by
  induction ls generalizing t with
  | nil => simp
  | cons b ls ih =>
    rw [List.nodup_cons] at hl
    simp only [List.foldl_cons, ih hl.2, Assoc.getD_put, List.contains_cons]
    by_cases h : n = b
    · subst h; simp [hl.1]
    · simp [h]

/-- A change of the entries of one queue in lanes. -/
theorem Acts.queue (a : Bool) (q : Nat) (F : Nat → List QEnt → List QEnt) (ls : List Nat) (hl : ls.Nodup) :
    Acts a (fun g => { g with queues := g.queues.upd q fun r => { r with ents := ls.foldl (fun t k => t.put k (F k (t.getD k []))) r.ents } })
      id (fun k n e => if k = q ∧ ls.contains n then F n e else e) (fun _ _ w => w) := by
  have r := Acts.refl a
  constructor
  · exact fun g b => r.ctx g b
  · exact fun g => rfl
  · intro g k
    simp only [Assoc.has, Assoc.get?_upd]
    split
    · next h => subst h; cases g.queues.get? k <;> rfl
    · rfl
  · intro g k n
    cases hh : g.queues.has k with
    | false =>
      simp only [Gang.ents, Assoc.get?_upd, Bool.false_eq_true, if_false]
      unfold Assoc.has at hh
      cases hq : g.queues.get? k with
      | none => split <;> simp_all
      | some x => simp [hq] at hh
    | true =>
      simp only [Gang.ents, Assoc.get?_upd, if_true]
      unfold Assoc.has at hh
      cases hq : g.queues.get? k with
      | none => simp [hq] at hh
      | some x =>
        by_cases h : k = q
        · subst h; simp [hq, getD_foldl_put F [] ls hl]
        · simp [h]
  · exact fun g n => rfl
  · exact fun g n x => r.creg g n x

theorem Env.popLanes_acts (a : Bool) (q : Nat) (ls : List Nat) (hl : ls.Nodup) :
    Acts a (fun g => Env.popLanes g q 1 ls) id (fun k n e => if k = q ∧ ls.contains n then e.drop 1 else e) (fun _ _ w => w) :=
  Acts.queue a q (fun _ e => e.drop 1) ls hl

theorem Env.foldl_popLanes_acts (a : Bool) (qs : List Nat) (ls : List Nat) (hl : ls.Nodup) :
    Acts a (fun g => qs.foldl (fun g q => Env.popLanes g q 1 ls) g) id
      (fun k n e => e.drop (if ls.contains n then qs.count k else 0)) (fun _ _ w => w) := by
  induction qs with
  | nil =>
    have e : (fun (k n : Nat) (e : List QEnt) => e.drop (if ls.contains n then ([] : List Nat).count k else 0)) = fun _ _ e => e := by
      funext k n e; simp
    rw [e]
    exact Acts.refl a
  | cons q qs ih =>
    have h := (Env.popLanes_acts a q ls hl).trans ih
    have e : (fun k n e => List.drop (if ls.contains n then qs.count k else 0) (if k = q ∧ ls.contains n then List.drop 1 e else e)) =
        (fun (k n : Nat) (e : List QEnt) => e.drop (if ls.contains n then (q :: qs).count k else 0)) := by
      funext k n e
      cases hn : ls.contains n with
      | false => simp
      | true =>
        by_cases hk : k = q
        · subst hk; simp
        · simp [hk, List.count_cons_of_ne (Ne.symm hk)]
    rw [e] at h
    exact h

theorem Env.settleCtx_still (e : Env) (m : Mask) (all : Bool) (c : Ctx) : (e.settleCtx m all c).still = c.still := by
  unfold Env.settleCtx
  rw [foldl_killUse_keeps Ctx.still (fun _ _ => rfl) (fun _ _ => rfl)]
  split <;> rfl

/-- What `settle` does: the context's sources die, and popped entries leave their queues. -/
theorem Env.settle_does (e : Env) (s : State) (m : Mask) (all : Bool) :
    Does e.x (fun c => if m = 0#64 then c else e.settleCtx m all c)
      (fun k n es => es.drop (if m.getLsbD n then e.popList.count k else 0)) (fun _ _ w => w) s (e.settle s m all) := by
  rw [Env.settle_eq]
  by_cases hm : m = 0#64
  · subst hm
    have h := Does.refl e.x s
    simpa using h
  · simp only [hm, if_false]
    have h1 := Does.updCtx s e.x (e.settleCtx m all) (e.settleCtx_still m all)
    by_cases hp : e.popList.isEmpty
    · simp only [hp, if_true]
      have : e.popList = [] := List.isEmpty_iff.1 hp
      simpa [this] using h1
    · simp only [hp]
      have h2 := Does.of_updGang (x := e.x) (s.updCtx e.x (e.settleCtx m all))
        (Env.foldl_popLanes_acts e.x.access e.popList (lanesOf m) (nodup_lanesOf m))
      have h := h1.trans h2
      simpa [mem_lanesOf] using h

theorem Env.settle_ops (e : Env) (s : State) (m : Mask) (all : Bool) : (e.settle s m all).ops = s.ops := by
  rw [Env.settle_eq]
  split
  · rfl
  · dsimp only; split <;> simp

theorem Env.settle_nextId (e : Env) (s : State) (m : Mask) (all : Bool) : (e.settle s m all).nextId = s.nextId := by
  rw [Env.settle_eq]
  split
  · rfl
  · dsimp only; split <;> simp

/-! ### Destinations (03:R71) -/

theorem get?_put_words {α : Type} (V : Nat → α) (b k m : Nat) (t : Assoc α) (r n : Nat) (hk : k < 64) (hn : n < 64) :
    ((List.range m).foldl (fun t j => Assoc.put t (64 * (b + j) + k) (V j)) t).get? (64 * r + n) =
      if k = n ∧ b ≤ r ∧ r < b + m then some (V (r - b)) else t.get? (64 * r + n) := by
  induction m with
  | zero => simp
  | succ m ih =>
    rw [List.range_succ, List.foldl_append, List.foldl_cons, List.foldl_nil, Assoc.get?_put, ih]
    by_cases h : 64 * r + n = 64 * (b + m) + k
    · have h1 : k = n := by omega
      have h2 : r = b + m := by omega
      subst h1; subst h2
      simp
    · simp only [h, if_false]
      congr 1
      rw [eq_iff_iff]
      constructor
      · rintro ⟨h1, h2, h3⟩; exact ⟨h1, h2, by omega⟩
      · rintro ⟨h1, h2, h3⟩; exact ⟨h1, h2, by omega⟩

theorem get?_put_lanes {α : Type} (V : Nat → Nat → α) (b m : Nat) (ls : List Nat) (t : Assoc α) (r n : Nat) (hn : n < 64)
    (hl : ∀ k ∈ ls, k < 64) :
    (ls.foldl (fun t k => (List.range m).foldl (fun t j => Assoc.put t (64 * (b + j) + k) (V k j)) t) t).get? (64 * r + n) =
      if ls.contains n = true ∧ b ≤ r ∧ r < b + m then some (V n (r - b)) else t.get? (64 * r + n) := by
  induction ls generalizing t with
  | nil => simp
  | cons k ls ih =>
    rw [List.foldl_cons, ih _ (fun j hj => hl j (List.mem_cons_of_mem _ hj)), get?_put_words (V k) b k m t r n (hl k (List.mem_cons_self ..)) hn]
    by_cases h : k = n
    · subst h; simp only [List.contains_cons, beq_self_eq_true, Bool.true_or, true_and]
      by_cases hr : b ≤ r ∧ r < b + m <;> simp [hr]
    · simp [h, Ne.symm h]

theorem get?_put_range {α : Type} (V : Nat → α) (b m : Nat) (t : Assoc α) (r : Nat) :
    ((List.range m).foldl (fun t j => Assoc.put t (b + j) (V j)) t).get? r =
      if b ≤ r ∧ r < b + m then some (V (r - b)) else t.get? r := by
  induction m with
  | zero => simp
  | succ m ih =>
    rw [List.range_succ, List.foldl_append, List.foldl_cons, List.foldl_nil, Assoc.get?_put, ih]
    by_cases h : r = b + m
    · subst h; simp
    · simp only [h, if_false]
      congr 1
      rw [eq_iff_iff]
      constructor
      · rintro ⟨h2, h3⟩; exact ⟨h2, by omega⟩
      · rintro ⟨h2, h3⟩; exact ⟨h2, by omega⟩

/-- A write of the words of an s register. -/
def writeS (r n k : Nat) (vals : Nat → List Word) (c : Ctx) : Ctx :=
  { c with s := (List.range n).foldl (fun t j => t.put (r + j) (⟨(vals k).getD j 0#32, false, false⟩ : Reg)) c.s }

/-- What a write of a destination does to the context. -/
def writeCtx (o : Opnd) (n : Nat) (lanes : List Nat) (nib : Option Nat) (vals : Nat → List Word) (c : Ctx) : Ctx :=
  match o with
  | .v r => { c with v := lanes.foldl (fun t k =>
      (List.range n).foldl (fun t j => t.put (64 * (r.toNat + j) + k) (⟨(vals k).getD j 0#32, false, false⟩ : Reg)) t) c.v }
  | .s r => match nib with
    | none => c
    | some k => if !lanes.contains k then c else writeS r.val n k vals c
  | _ => c

/-- What a write of a destination does to a queue. -/
def writeQueue (o : Opnd) (lanes : List Nat) (vals : Nat → List Word) (k n : Nat) (es : List QEnt) : List QEnt :=
  match o with
  | .q r => if k = r.toNat ∧ lanes.contains n then es ++ [.val ((vals n).getD 0 0#32)] else es
  | _ => es

/-- What a write of a destination does to a capsule register. -/
def writeCreg (o : Opnd) (lanes : List Nat) (vals : Nat → List Word) (n r : Nat) (w : Word) : Word :=
  match o with
  | .c b => if r = b.toNat ∧ lanes.contains n then (vals n).getD 0 0#32 else w
  | _ => w

theorem Acts.thread (a : Bool) (n : Nat) (b : Nat) (w : Word) :
    Acts a (fun g => { g with threads := g.threads.upd n fun t => { t with c := t.c.putD b w 0#32 } }) (fun c => c) (fun _ _ e => e)
      (fun k r x => if k = n ∧ r = b then w else x) := by
  have q := Acts.refl a
  constructor
  · exact fun g c => q.ctx g c
  · exact fun g => rfl
  · exact fun g k => rfl
  · exact fun g k n => q.ents g k n
  · intro g k
    dsimp only
    rw [Assoc.get?_upd]
    split
    · next h => subst h; cases g.threads.get? k <;> rfl
    · rfl
  · intro g k r
    dsimp only
    rw [Assoc.get?_upd]
    by_cases h : k = n
    · subst h
      simp only [if_true, true_and, Option.map_map]
      congr 1
      funext t
      simp only [Function.comp, Thread.creg, Assoc.getD_putD]
    · simp [h, Function.comp_def]

theorem Acts.threads (a : Bool) (b : Nat) (V : Nat → Word) (ls : List Nat) :
    Acts a (fun g => ls.foldl (fun g n => { g with threads := g.threads.upd n fun t => { t with c := t.c.putD b (V n) 0#32 } }) g)
      (fun c => c) (fun _ _ e => e) (fun k r x => if r = b ∧ ls.contains k then V k else x) := by
  induction ls with
  | nil =>
    have e : (fun (k r : Nat) (x : Word) => if r = b ∧ ([] : List Nat).contains k then V k else x) = fun _ _ x => x := by
      funext k r x; simp
    rw [e]
    exact Acts.refl a
  | cons n ls ih =>
    have h := (Acts.thread a n b (V n)).trans ih
    have e : (fun (k r : Nat) (x : Word) => if r = b ∧ (n :: ls).contains k then V k else x) =
        fun k r x => if r = b ∧ ls.contains k then V k else if k = n ∧ r = b then V n else x := by
      funext k r x
      by_cases hk : k = n
      · subst hk; by_cases hr : r = b <;> simp [hr]
      · simp [hk]
    rw [e]
    exact h

/-- What a write of a destination does. -/
theorem State.writeReg_does (s : State) (x : Site) (o : Opnd) (n : Nat) (lanes : List Nat) (nib : Option Nat) (vals : Nat → List Word)
    (hl : lanes.Nodup) :
    Does x (writeCtx o n lanes nib vals) (writeQueue o lanes vals) (writeCreg o lanes vals) s (s.writeReg x o n lanes nib vals) := by
  cases o with
  | v r =>
    exact Does.of_updGang s ((Acts.hashWrites x.access x.access ((lanes.map fun k => (vals k).take n).flatten)).trans
      (Acts.updCtx x.access (writeCtx (.v r) n lanes nib vals) fun _ => rfl))
  | s r =>
    cases nib with
    | none => exact Does.refl x s
    | some k =>
      unfold State.writeReg
      cases hk : lanes.contains k with
      | true =>
        have h := Does.of_updGang s ((Acts.hashWrites x.access x.access ((vals k).take n)).trans
          (Acts.updCtx x.access (writeS r.val n k vals) fun _ => rfl))
        have e : writeCtx (.s r) n lanes (some k) vals = writeS r.val n k vals := by
          funext c; simp only [writeCtx, hk]; rfl
        rw [e]
        simp only [hk, Bool.not_true, Bool.false_eq_true, if_false]
        exact h
      | false =>
        have e : writeCtx (.s r) n lanes (some k) vals = fun c => c := by
          funext c; simp only [writeCtx, hk]; rfl
        rw [e]
        simp only [hk, Bool.not_false, if_true]
        exact Does.refl x s
  | c r =>
    exact ⟨_, OneGang.foldl lanes s x.gang fun k g => { g with threads := g.threads.upd k fun t =>
        { t with c := t.c.putD r.toNat ((vals k).getD 0 0#32) 0#32 } }, Acts.threads x.access r.toNat (fun k => (vals k).getD 0 0#32) lanes⟩
  | q r =>
    have h := Acts.queue x.access r.toNat (fun n e => e ++ [QEnt.val ((vals n).getD 0 0#32)]) lanes hl
    exact Does.of_updGang s h

theorem State.writeReg_ops (s : State) (x : Site) (o : Opnd) (n : Nat) (lanes : List Nat) (nib : Option Nat) (vals : Nat → List Word) :
    (s.writeReg x o n lanes nib vals).ops = s.ops ∧ (s.writeReg x o n lanes nib vals).nextId = s.nextId := by
  cases o with
  | v r => exact ⟨rfl, rfl⟩
  | s r =>
    cases nib with
    | none => exact ⟨rfl, rfl⟩
    | some k => unfold State.writeReg; dsimp only; split <;> exact ⟨rfl, rfl⟩
  | c r =>
    unfold State.writeReg
    dsimp only
    induction lanes generalizing s with
    | nil => exact ⟨rfl, rfl⟩
    | cons k ls ih => rw [List.foldl_cons]; exact ih _
  | q r => exact ⟨rfl, rfl⟩

/-! ### Predicates, flags, flight -/

/-- What a write of a predicate does to the context. -/
def Env.predCtx (e : Env) (n : BitVec 3) (p : Nat → Bool) (c : Ctx) : Ctx :=
  { c with k := c.k.putD n.toNat ((c.k.getD n.toNat 0#64 &&& ~~~e.act) ||| maskOf (e.lanes.filter p)) 0#64 }

theorem Env.writePred_does (e : Env) (s : State) (n : BitVec 3) (p : Nat → Bool) :
    Does e.x (e.predCtx n p) (fun _ _ q => q) (fun _ _ w => w) s (e.writePred s n p) :=
  Does.of_updGang s ((Acts.hashWrites e.x.access e.x.access (e.lanes.map fun k => if p k then 1#32 else 0#32)).trans
    (Acts.updCtx e.x.access (e.predCtx n p) fun _ => rfl))

/-- What flags do to the context. -/
def flagCtx (f : Word) (c : Ctx) : Ctx := { c with gst := c.gst ||| f }

theorem Env.flags_does (e : Env) (s : State) (f : Word) : Does e.x (flagCtx f) (fun _ _ q => q) (fun _ _ w => w) s (e.flags s f) := by
  unfold Env.flags
  split
  · next h =>
    subst h
    have e' : flagCtx 0#32 = fun c => c := by funext c; simp [flagCtx]
    rw [e']
    exact Does.refl e.x s
  · exact Does.updCtx s e.x (flagCtx f) fun _ => rfl

/-- What an issue of a long form does to the context. -/
def Env.sbCtx (e : Env) (c : Ctx) : Ctx :=
  match e.i.lf with
  | none => c
  | some l => { c with sb := c.sb.putD l.sb.toNat (c.sbOf l.sb.toNat + 1) 0 }

theorem Does.of_eq {x : Site} {F : Ctx → Ctx} {Q : Nat → Nat → List QEnt → List QEnt} {C : Nat → Nat → Word → Word} {s t u : State}
    (h : Does x F Q C s t) (hg : u.gangs = t.gangs) (h1 : u.mem = t.mem) (h2 : u.home = t.home) (h3 : u.launches = t.launches)
    (h4 : u.groups = t.groups) (h5 : u.cores = t.cores) (h6 : u.ctl = t.ctl) (h7 : u.dev = t.dev) (h8 : u.turn = t.turn)
    (h9 : u.cur = t.cur) (h10 : u.draws = t.draws) : Does x F Q C s u := by
  obtain ⟨f, o, a⟩ := h
  refine ⟨f, ⟨?_, ?_, ?_, ?_, ?_, ?_, ?_, ?_, ?_, ?_, ?_⟩, a⟩
  · intro k
    have : u.gang? k = t.gang? k := by unfold State.gang?; rw [hg]
    rw [this, o.gang]
  · rw [h1, o.mem]
  · rw [h2, o.home]
  · rw [h3, o.launches]
  · rw [h4, o.groups]
  · rw [h5, o.cores]
  · rw [h6, o.ctl]
  · rw [h7, o.dev]
  · rw [h8, o.turn]
  · rw [h9, o.cur]
  · rw [h10, o.draws]

theorem Env.sbCtx_still (e : Env) (c : Ctx) : (e.sbCtx c).still = c.still := by
  unfold Env.sbCtx; split <;> rfl

/-- A long form that enters flight: the context's counter rises and the operation is kept under a fresh key. -/
theorem Env.issueOp_does (e : Env) (s : State) (lanes left : Mask) (data : OpData) :
    Does e.x e.sbCtx (fun _ _ q => q) (fun _ _ w => w) s (e.issueOp s lanes left data).2 ∧
    (e.issueOp s lanes left data).2.nextId = s.nextId + 1 ∧
    (∀ l, e.i.lf = some l → ∃ p, (e.issueOp s lanes left data).2.ops = s.ops.put s.nextId p ∧ p.i = e.i ∧ p.gang = e.x.gang ∧
      p.access = e.x.access ∧ p.lanes = lanes ∧ p.left = left ∧ p.fails = [] ∧ p.data = data) ∧
    (e.i.lf = none → (e.issueOp s lanes left data).2.ops = s.ops) := by
  unfold Env.issueOp
  dsimp only [State.freshId]
  cases h : e.i.lf with
  | none =>
    refine ⟨?_, rfl, (fun l hl => by cases hl), fun _ => rfl⟩
    have e' : e.sbCtx = fun c => c := by funext c; simp [Env.sbCtx, h]
    rw [e']
    exact Does.of_eq (Does.refl e.x s) rfl rfl rfl rfl rfl rfl rfl rfl rfl rfl rfl
  | some l =>
    refine ⟨?_, rfl, (fun l' hl => ⟨_, rfl, rfl, rfl, rfl, rfl, rfl, rfl, rfl⟩), (fun hn => by cases hn)⟩
    have h1 := Does.updCtx s e.x e.sbCtx e.sbCtx_still
    have e' : e.sbCtx = fun c => { c with sb := c.sb.putD l.sb.toNat (c.sbOf l.sb.toNat + 1) 0 } := by funext c; simp [Env.sbCtx, h]
    rw [e'] at h1 ⊢
    exact Does.of_eq h1 rfl rfl rfl rfl rfl rfl rfl rfl rfl rfl rfl

/-- A long form enters flight where a lane is active. -/
def Env.enterOp (e : Env) (s : State) (m left : Mask) (data : OpData) : State := if m = 0#64 then s else (e.issueOp s m left data).2

theorem Env.launchOp_eq (e : Env) (s : State) (m : Mask) : e.launchOp s m = e.enterOp s m 0#64 .none := rfl

theorem Env.enterOp_does (e : Env) (s : State) (m left : Mask) (data : OpData) :
    Does e.x (fun c => if m = 0#64 then c else e.sbCtx c) (fun _ _ q => q) (fun _ _ w => w) s (e.enterOp s m left data) ∧
    (m = 0#64 ∨ e.i.lf = none → (e.enterOp s m left data).ops = s.ops) ∧
    (m ≠ 0#64 → ∀ l, e.i.lf = some l → ∃ p, (e.enterOp s m left data).ops = s.ops.put s.nextId p ∧ p.i = e.i ∧ p.gang = e.x.gang ∧
      p.access = e.x.access ∧ p.lanes = m ∧ p.left = left ∧ p.fails = [] ∧ p.data = data) := by
  unfold Env.enterOp
  by_cases hm : m = 0#64
  · simp only [hm, if_true]
    exact ⟨Does.refl e.x s, fun _ => trivial, fun h => absurd rfl h⟩
  · simp only [hm, if_false]
    obtain ⟨h1, -, h3, h4⟩ := e.issueOp_does s m left data
    refine ⟨h1, fun h => h4 (h.resolve_left (by simp)), fun _ l hl => ?_⟩
    obtain ⟨p, a, b, c, d, f, g, i, j⟩ := h3 l hl
    exact ⟨p, a, b, c, d, f, g, i, j⟩

/-! ### What an instruction delivers -/

/-- The destination of a delivery. -/
def Env.putDst (e : Env) (s : State) (o : Out) : State :=
  match o.dst with
  | none => s
  | some (d, n) => s.writeReg e.x d n o.lanes e.nib o.vals

/-- The predicate of a delivery. -/
def Env.putPred (e : Env) (s : State) (o : Out) : State :=
  match o.pred with
  | none => s
  | some (b, p) => e.writePred s b p

/-- The destination, the predicate, the flight and the flags of an instruction whose sources are consumed in its active lanes. -/
def Env.deliver (e : Env) (s : State) (o : Out) : State :=
  let s := e.putPred (e.putDst (e.settle s e.act true) o) o
  e.flags (if o.long then e.enterOp s e.act o.left o.data else s) o.flags

/-- What a delivery does to the context. -/
def Env.deliverCtx (e : Env) (o : Out) (c : Ctx) : Ctx :=
  let c := if e.act = 0#64 then c else e.settleCtx e.act true c
  let c := match o.dst with
    | none => c
    | some (d, n) => writeCtx d n o.lanes e.nib o.vals c
  let c := match o.pred with
    | none => c
    | some (b, p) => e.predCtx b p c
  let c := if o.long then (if e.act = 0#64 then c else e.sbCtx c) else c
  flagCtx o.flags c

theorem Env.deliver_does (e : Env) (s : State) (o : Out) (hl : o.lanes.Nodup) :
    Does e.x (e.deliverCtx o)
      (fun k n es => (match o.dst with | none => id | some (d, _) => writeQueue d o.lanes o.vals k n)
        (es.drop (if e.act.getLsbD n then e.popList.count k else 0)))
      (fun n r w => (match o.dst with | none => id | some (d, _) => writeCreg d o.lanes o.vals n r) w) s (e.deliver s o) := by
  unfold Env.deliver Env.deliverCtx
  have h1 := e.settle_does s e.act true
  have h2 : Does e.x (fun c => match o.dst with | none => c | some (d, n) => writeCtx d n o.lanes e.nib o.vals c)
      (fun k n es => (match o.dst with | none => id | some (d, _) => writeQueue d o.lanes o.vals k n) es)
      (fun n r w => (match o.dst with | none => id | some (d, _) => writeCreg d o.lanes o.vals n r) w) (e.settle s e.act true)
      (e.putDst (e.settle s e.act true) o) := by
    unfold Env.putDst
    cases o.dst with
    | none => exact Does.refl e.x _
    | some d => exact State.writeReg_does _ e.x d.1 d.2 o.lanes e.nib o.vals hl
  have h12 := h1.trans h2
  generalize e.putDst (e.settle s e.act true) o = s2 at h12 ⊢
  have h3 : Does e.x (fun c => match o.pred with | none => c | some (b, p) => e.predCtx b p c) (fun _ _ q => q) (fun _ _ w => w) s2
      (e.putPred s2 o) := by
    unfold Env.putPred
    cases o.pred with
    | none => exact Does.refl e.x _
    | some b => exact e.writePred_does s2 b.1 b.2
  have h13 := h12.trans h3
  generalize e.putPred s2 o = s3 at h13 ⊢
  have h4 : Does e.x (fun c => if o.long then (if e.act = 0#64 then c else e.sbCtx c) else c) (fun _ _ q => q) (fun _ _ w => w) s3
      (if o.long then e.enterOp s3 e.act o.left o.data else s3) := by
    cases o.long with
    | false => exact Does.refl e.x _
    | true => exact (e.enterOp_does s3 e.act o.left o.data).1
  exact (h13.trans h4).trans (e.flags_does _ o.flags)

end Sys2Proof.Machine
end

