-- ==== Sys2Proof/Laws/Advance.lean ====
section
/-! SUPPORT. What the wake, the bookkeeping and the advance of an instruction keep, and the effect of an instruction that delivers and
advances. -/

namespace Sys2Proof.Machine

/-- A context but for where it stands. -/
def Ctx.kept (c : Ctx) : Ctx :=
  { c with lanes := [], path := 0#64, cur := none, resume := none, aside := none, mid := [], since := 0, aged := false,
           vgrant := none }

theorem Ctx.still_of_kept {c d : Ctx} (h : c.kept = d.kept) : c.still = d.still := by
  have e : Ctx.still c.kept = Ctx.still d.kept := by rw [h]
  exact e

/-- `t` is `s` but for where contexts stand: lanes of `m` in the context `x`, paths, cursors, ages. -/
structure Moves (x : Site) (m : Mask) (s t : State) : Prop where
  mem : t.mem = s.mem
  home : t.home = s.home
  launches : t.launches = s.launches
  ctl : t.ctl = s.ctl
  dev : t.dev.still = s.dev.still
  turn : t.turn = s.turn
  cur : t.cur = s.cur
  draws : t.draws = s.draws
  ops : t.ops = s.ops
  nextId : t.nextId = s.nextId
  recs : t.cores.recs = s.cores.recs
  permits : t.cores.permits = s.cores.permits
  heldLines : t.cores.heldLines = s.cores.heldLines
  reads : t.cores.reads = s.cores.reads
  gangs : ∀ k, (t.gang? k).map Gang.still = (s.gang? k).map Gang.still
  groups : ∀ k, (t.group? k).map Group.still = (s.group? k).map Group.still
  ctxs : ∀ y, (t.ctx? y).map Ctx.kept = (s.ctx? y).map Ctx.kept
  threads : ∀ k n, t.thread? k n = s.thread? k n
  queues : ∀ g q n, t.queue g q n = s.queue g q n
  lanes : ∀ y n, (t.lane? y n).map LaneSt.still = (s.lane? y n).map LaneSt.still
  outside : ∀ y n, (y ≠ x ∨ m.getLsbD n = false) → t.lane? y n = s.lane? y n

theorem Moves.refl (x : Site) (m : Mask) (s : State) : Moves x m s s := by
  constructor <;> intros <;> rfl

theorem Moves.trans {x : Site} {m : Mask} {s t u : State} (a : Moves x m s t) (b : Moves x m t u) : Moves x m s u where
  mem := b.mem.trans a.mem
  home := b.home.trans a.home
  launches := b.launches.trans a.launches
  ctl := b.ctl.trans a.ctl
  dev := b.dev.trans a.dev
  turn := b.turn.trans a.turn
  cur := b.cur.trans a.cur
  draws := b.draws.trans a.draws
  ops := b.ops.trans a.ops
  nextId := b.nextId.trans a.nextId
  recs := b.recs.trans a.recs
  permits := b.permits.trans a.permits
  heldLines := b.heldLines.trans a.heldLines
  reads := b.reads.trans a.reads
  gangs := fun k => (b.gangs k).trans (a.gangs k)
  groups := fun k => (b.groups k).trans (a.groups k)
  ctxs := fun y => (b.ctxs y).trans (a.ctxs y)
  threads := fun k n => (b.threads k n).trans (a.threads k n)
  queues := fun g q n => (b.queues g q n).trans (a.queues g q n)
  lanes := fun y n => (b.lanes y n).trans (a.lanes y n)
  outside := fun y n h => (b.outside y n h).trans (a.outside y n h)

theorem Site.eq_iff {x y : Site} : y = x ↔ y.gang = x.gang ∧ y.access = x.access := by
  cases x; cases y; simp

theorem State.ctx?_updGang (s : State) (g : Nat) (f : Gang → Gang) (y : Site) :
    (s.updGang g f).ctx? y = if y.gang = g then (s.gang? g).bind fun q => (f q).ctx? y.access else s.ctx? y := by
  rw [State.ctx?_of_gang?, State.gang?_updGang']
  split
  · next h => subst h; cases s.gang? y.gang <;> rfl
  · rw [State.ctx?_of_gang?]

theorem State.ctx?_updCtx (s : State) (x y : Site) (F : Ctx → Ctx) :
    (s.updCtx x F).ctx? y = if y = x then (s.ctx? y).map F else s.ctx? y := by
  unfold State.updCtx
  rw [State.ctx?_updGang]
  by_cases h : y.gang = x.gang
  · simp only [h, if_true, Gang.ctx?_updCtx, Site.eq_iff, true_and, State.ctx?_of_gang?]
    cases s.gang? x.gang with
    | none => simp
    | some g => by_cases ha : y.access = x.access <;> simp [ha]
  · simp [h, Site.eq_iff]

/-- A change of the context `x` that keeps its registers, and moves its lanes inside `m`. -/
theorem Moves.updCtx (s : State) (x : Site) (m : Mask) (F : Gang → Ctx → Ctx)
    (hk : ∀ g c, s.gang? x.gang = some g → g.ctx? x.access = some c → (F g c).kept = c.kept)
    (hl : ∀ g c, s.gang? x.gang = some g → g.ctx? x.access = some c → ∀ n,
      ((F g c).lanes.get? n).map LaneSt.still = (c.lanes.get? n).map LaneSt.still ∧
      (m.getLsbD n = false → (F g c).lanes.get? n = c.lanes.get? n)) :
    Moves x m s (s.updGang x.gang fun g => g.updCtx x.access (F g)) := by
  have hc : ∀ y, (s.updGang x.gang fun g => g.updCtx x.access (F g)).ctx? y =
      if y = x then (s.gang? x.gang).bind fun g => (g.ctx? x.access).map (F g) else s.ctx? y := by
    intro y
    rw [State.ctx?_updGang]
    by_cases h : y.gang = x.gang
    · simp only [h, if_true, Gang.ctx?_updCtx, Site.eq_iff, true_and, State.ctx?_of_gang?]
      cases s.gang? x.gang with
      | none => simp
      | some g => by_cases ha : y.access = x.access <;> simp [ha]
    · simp [h, Site.eq_iff]
  have hx : s.ctx? x = (s.gang? x.gang).bind fun g => g.ctx? x.access := State.ctx?_of_gang? s x
  constructor
  all_goals try rfl
  · intro k
    rw [State.gang?_updGang']
    split
    · next h =>
      subst h
      cases hg : s.gang? x.gang with
      | none => rfl
      | some g =>
        simp only [Option.map_some, Option.some.injEq]
        unfold Gang.updCtx Gang.still
        cases ha : x.access with
        | false =>
          simp only [Bool.false_eq_true, if_false]
          have := Ctx.still_of_kept (hk g g.cctx hg (by rw [ha]; rfl))
          rw [this]
        | true =>
          simp only [if_true]
          cases hac : g.actx with
          | none => simp
          | some a =>
            have := Ctx.still_of_kept (hk g a hg (by rw [ha]; exact hac))
            simp [this]
    · rfl
  · intro k; rfl
  · intro y
    rw [hc]
    split
    · next h =>
      subst h
      rw [hx]
      cases hg : s.gang? y.gang with
      | none => rfl
      | some g =>
        simp only [Option.bind_some]
        cases hcx : g.ctx? y.access with
        | none => rfl
        | some c => simp [hk g c hg hcx]
    · rfl
  · intro k n
    rw [State.thread?_of_gang?, State.thread?_of_gang?, State.gang?_updGang']
    split
    · cases s.gang? k with
      | none => rfl
      | some g => unfold Gang.updCtx; simp only [Option.map_some, Option.bind_some]; split <;> rfl
    · rfl
  · intro g q n
    rw [State.queue_of_gang?, State.queue_of_gang?, State.gang?_updGang']
    split
    · cases s.gang? g with
      | none => rfl
      | some g => unfold Gang.updCtx; simp only [Option.map_some, Option.bind_some]; split <;> rfl
    · rfl
  · intro y n
    unfold State.lane?
    rw [hc]
    split
    · next h =>
      subst h
      rw [hx]
      cases hg : s.gang? y.gang with
      | none => rfl
      | some g =>
        simp only [Option.bind_some]
        cases hcx : g.ctx? y.access with
        | none => rfl
        | some c => simpa using (hl g c hg hcx n).1
    · rfl
  · intro y n h
    unfold State.lane?
    rw [hc]
    split
    · next hy =>
      subst hy
      rw [hx]
      cases hg : s.gang? y.gang with
      | none => rfl
      | some g =>
        simp only [Option.bind_some]
        cases hcx : g.ctx? y.access with
        | none => rfl
        | some c => simpa using (hl g c hg hcx n).2 (h.resolve_left (by simp))
    · rfl

/-! ### Lanes under the updates of a context -/

theorem Assoc.mem_of_get? {α : Type} {t : Assoc α} {k : Nat} {x : α} (h : t.get? k = some x) : (k, x) ∈ t := by
  induction t with
  | nil => cases h
  | cons e t ih =>
    obtain ⟨j, y⟩ := e
    simp only [Assoc.get?] at h
    split at h
    · next hk => cases h; subst hk; exact List.mem_cons_self ..
    · exact List.mem_cons_of_mem _ (ih h)

theorem getLsbD_maskOf (ls : List Nat) (n : Nat) : (maskOf ls).getLsbD n = (decide (n < 64) && ls.contains n) := by
  have h : ∀ (ls : List Nat) (m : Mask), (ls.foldl (fun m n => m ||| bit n) m).getLsbD n = (m.getLsbD n || (decide (n < 64) && ls.contains n)) := by
    intro ls
    induction ls with
    | nil => intro m; simp
    | cons k ls ih =>
      intro m
      rw [List.foldl_cons, ih]
      rw [Bool.eq_iff_iff]
      simp only [bit, Bool.or_eq_true, Bool.and_eq_true, decide_eq_true_eq, BitVec.getLsbD_or, BitVec.getLsbD_twoPow,
        List.contains_iff_mem, List.mem_cons]
      by_cases hk : n = k
      · subst hk; tauto
      · have hk' : k ≠ n := fun h => hk h.symm
        tauto
  simpa [maskOf] using h ls 0#64

/-- A lane changes in a mask only, and only in what `LaneSt.still` leaves out. -/
theorem updLanes_lane (c : Ctx) (m : Mask) (f : LaneSt → LaneSt) (hf : ∀ l, (f l).still = l.still) (n : Nat) :
    ((c.updLanes m f).lanes.get? n).map LaneSt.still = (c.lanes.get? n).map LaneSt.still ∧
    (m.getLsbD n = false → (c.updLanes m f).lanes.get? n = c.lanes.get? n) := by
  unfold Ctx.updLanes
  dsimp only
  rw [Assoc.get?_mapVal]
  constructor
  · cases c.lanes.get? n with
    | none => rfl
    | some l => simp only [Option.map_some]; split <;> simp [hf]
  · intro h; simp [h]

/-- What `advance` and the rest need of a context: lanes of which none stops at a clause's end. -/
def Ctx.calm (c : Ctx) (m : Mask) : Prop := ∀ p ∈ c.lanes, p.2.ws ≠ .stopped ∧ (m.getLsbD p.1 = true → p.2.pstep = false)

theorem Ctx.calm_mapVal {c d : Ctx} {m : Mask} (h : c.calm m) (f : Nat → LaneSt → LaneSt) (he : d.lanes = c.lanes.mapVal f)
    (hf : ∀ k l, l.ws ≠ .stopped → (f k l).ws ≠ .stopped) (hp : ∀ k l, (f k l).pstep = l.pstep) : d.calm m := by
  intro p hp'
  rw [he] at hp'
  obtain ⟨q, hq, rfl⟩ := List.mem_map.1 hp'
  exact ⟨hf _ _ (h q hq).1, fun hm => by rw [hp]; exact (h q hq).2 hm⟩

theorem Ctx.readyOf_ne_stopped (c : Ctx) (n : Nat) : c.readyOf n ≠ .stopped := by
  unfold Ctx.readyOf
  split
  · simp
  · split <;> simp

/-- No stepped lane of the path: the mask of lanes to stop is empty. -/
theorem Ctx.calm_stop {c : Ctx} (h : c.calm c.path) : c.path &&& c.laneMask c.steps = 0#64 := by
  apply BitVec.eq_of_getLsbD_eq
  intro i hi
  rw [BitVec.getLsbD_and, Ctx.laneMask, getLsbD_maskOf]
  simp only [BitVec.getLsbD_zero, Bool.and_eq_false_iff]
  by_cases hp : c.path.getLsbD i
  · right; right
    rw [Bool.eq_false_iff]
    intro hc
    simp only [List.contains_iff_mem, Assoc.keys, List.mem_map, Assoc.keep, List.mem_filter] at hc
    obtain ⟨q, ⟨hq, hs⟩, rfl⟩ := hc
    simp [Ctx.steps, (h q hq).2 hp] at hs
  · left; simpa using hp

/-- Lanes of a mask that can issue. -/
def Ctx.alert (c : Ctx) (m : Mask) : Prop := ∀ p ∈ c.lanes, m.getLsbD p.1 = true → p.2.ws = .ready ∨ p.2.ws = .trapped

theorem Ctx.readyOf_alert (c : Ctx) (n : Nat) : c.readyOf n = .ready ∨ c.readyOf n = .trapped := by
  unfold Ctx.readyOf
  split
  · exact Or.inl rfl
  · split
    · exact Or.inr rfl
    · exact Or.inl rfl

theorem Ctx.wake_alert (c : Ctx) (m : Mask) : (c.wake m).alert m := by
  intro p hp hm
  obtain ⟨q, _, rfl⟩ := List.mem_map.1 hp
  have hm' : m.getLsbD q.1 = true := hm
  simp only [hm', if_true]
  exact c.readyOf_alert _

theorem Ctx.alert_mapVal {c d : Ctx} {m : Mask} (h : c.alert m) (f : Nat → LaneSt → LaneSt) (he : d.lanes = c.lanes.mapVal f)
    (hf : ∀ k l, (f k l).ws = l.ws) : d.alert m := by
  intro p hp hm
  rw [he] at hp
  obtain ⟨q, hq, rfl⟩ := List.mem_map.1 hp
  rw [hf]
  exact h q hq hm

theorem Ctx.setPc_alert {c : Ctx} {m : Mask} (h : c.alert m) (k : Mask) (pc : DWord) : (c.setPc k pc).alert m :=
  Ctx.alert_mapVal h (fun n l => if k.getLsbD n then { l with pc := pc } else l) rfl fun n l => by split <;> rfl

/-- A path whose lanes can issue does not step aside. -/
theorem Ctx.stepAside_alert {c : Ctx} (h : c.alert c.path) : c.stepAside = c := by
  unfold Ctx.stepAside
  dsimp only
  split
  · next hw =>
    obtain ⟨-, -, hw⟩ := hw
    simp only [List.any_eq_true, Assoc.vals, Assoc.keep, List.mem_map, List.mem_filter, decide_eq_true_eq] at hw
    obtain ⟨l, ⟨q, ⟨hq, hp⟩, rfl⟩, hw⟩ := hw
    rcases h q hq hp with h | h <;> rw [h] at hw <;> simp at hw
  · rfl

/-! ### Wake, selection, bookkeeping, advance -/

theorem State.wake_moves (s : State) (x : Site) (m : Mask) (hm : ∀ c, s.ctx? x = some c → c.path = m) :
    Moves x m s (s.updCtx x fun c => c.wake c.path) := by
  refine Moves.updCtx s x m (fun _ c => c.wake c.path) (fun _ _ _ _ => rfl) ?_
  intro g c hg hc n
  have : c.path = m := hm c (by rw [State.ctx?_of_gang?, hg]; exact hc)
  subst this
  simp only [Ctx.wake, Assoc.get?_mapVal]
  constructor
  · cases c.lanes.get? n with
    | none => rfl
    | some l => simp only [Option.map_some]; split <;> rfl
  · intro h; simp [h]

theorem State.selectPath_moves (s : State) (x : Site) (m : Mask) (hm : ∀ c, s.ctx? x = some c → c.path ≠ 0#64 ∧ c.alert c.path) :
    Moves x m s (s.selectPath x) := by
  have h : ∀ g c, s.gang? x.gang = some g → g.ctx? x.access = some c → g.selectPath c = c := by
    intro g c hg hc
    obtain ⟨hp, ha⟩ := hm c (by rw [State.ctx?_of_gang?, hg]; exact hc)
    simp [Gang.selectPath, hp, Ctx.stepAside_alert ha]
  refine Moves.updCtx s x m (fun g c => g.selectPath c) ?_ ?_
  · intro g c hg hc; rw [h g c hg hc]
  · intro g c hg hc n; rw [h g c hg hc]; exact ⟨rfl, fun _ => rfl⟩

theorem State.event_moves (s : State) (x : Site) (m : Mask) (n code w : Nat) (a : Option Bool) :
    Moves x m s (s.updGroup n fun r => r.event code w a) := by
  constructor
  all_goals try (intros; rfl)
  intro k
  by_cases h : k = n
  · subst h
    rw [State.group?_updGroup]
    cases s.group? k with
    | none => rfl
    | some r => simp only [Option.map_some, Group.event]; split <;> rfl
  · rw [State.group?_updGroup_ne _ _ h]

theorem State.pmEvent_moves (s : State) (x : Site) (m : Mask) (g : Nat) (a : Bool) (code w : Nat) : Moves x m s (s.pmEvent g a code w) := by
  unfold State.pmEvent
  split
  · exact Moves.refl x m s
  · exact s.event_moves x m _ code w _

/-- What every gang keeps when a pipe has issued. -/
structure GangAge (g h : Gang) : Prop where
  still : h.still = g.still
  ctx : ∀ a, (h.ctx? a).map Ctx.kept = (g.ctx? a).map Ctx.kept
  lanes : ∀ a, (h.ctx? a).map Ctx.lanes = (g.ctx? a).map Ctx.lanes
  threads : h.threads = g.threads
  queues : h.queues = g.queues

theorem GangAge.refl (g : Gang) : GangAge g g := ⟨rfl, fun _ => rfl, fun _ => rfl, rfl, rfl⟩

theorem GangAge.updCtx (g : Gang) (b : Bool) (F : Ctx → Ctx) (hk : ∀ c, (F c).kept = c.kept) (hl : ∀ c, (F c).lanes = c.lanes) :
    GangAge g (g.updCtx b F) := by
  have hs : ∀ c, (F c).still = c.still := fun c => Ctx.still_of_kept (hk c)
  constructor
  · unfold Gang.updCtx Gang.still
    split <;> simp [Option.map_map, Function.comp_def, hs]
  · intro a; rw [Gang.ctx?_updCtx]; split <;> simp [Option.map_map, Function.comp_def, hk]
  · intro a; rw [Gang.ctx?_updCtx]; split <;> simp [Option.map_map, Function.comp_def, hl]
  · unfold Gang.updCtx; split <;> rfl
  · unfold Gang.updCtx; split <;> rfl

theorem Env.ageOthers_age (e : Env) (s : State) (n : Nat) (g : Gang) : GangAge g (e.ageOthers s n g) := by
  unfold Env.ageOthers
  split
  · exact GangAge.refl g
  · split
    · exact GangAge.updCtx g e.x.access _ (fun _ => rfl) (fun _ => rfl)
    · exact GangAge.refl g

/-- A pass over every gang in which each only ages. -/
theorem State.mapGangs_moves (s : State) (x : Site) (m : Mask) (h : Nat → Gang → Gang) (ha : ∀ k g, GangAge g (h k g)) :
    Moves x m s (s.setGangs (s.gangs.mapVal h)) := by
  have hg : ∀ k, (s.setGangs (s.gangs.mapVal h)).gang? k = (s.gang? k).map (h k) := fun k => Assoc.get?_mapVal _ _ _
  have hc : ∀ y, (s.setGangs (s.gangs.mapVal h)).ctx? y = (s.gang? y.gang).bind fun g => (h y.gang g).ctx? y.access := by
    intro y; rw [State.ctx?_of_gang?, hg]; cases s.gang? y.gang <;> rfl
  have hl : ∀ y n, (s.setGangs (s.gangs.mapVal h)).lane? y n = s.lane? y n := by
    intro y n
    unfold State.lane?
    rw [hc, State.ctx?_of_gang?]
    cases s.gang? y.gang with
    | none => rfl
    | some g =>
      have := (ha y.gang g).lanes y.access
      simp only [Option.bind_some]
      cases h1 : (h y.gang g).ctx? y.access <;> cases h2 : g.ctx? y.access <;> simp_all
  constructor
  all_goals try rfl
  · intro k; rw [hg]; cases s.gang? k with
    | none => rfl
    | some g => simp [(ha k g).still]
  · intro k; rfl
  · intro y
    rw [hc, State.ctx?_of_gang?]
    cases s.gang? y.gang with
    | none => rfl
    | some g => simpa using (ha y.gang g).ctx y.access
  · intro k n
    rw [State.thread?_of_gang?, State.thread?_of_gang?, hg]
    cases s.gang? k with
    | none => rfl
    | some g => simp [(ha k g).threads]
  · intro k q n
    rw [State.queue_of_gang?, State.queue_of_gang?, hg]
    cases s.gang? k with
    | none => rfl
    | some g => simp [(ha k g).queues]
  · intro y n; rw [hl]
  · intro y n _; exact hl y n

theorem Env.event_moves (e : Env) (s : State) (x : Site) (m : Mask) (code w : Nat) : Moves x m s (e.event s code w) :=
  s.event_moves x m _ code w _

theorem Env.issued_moves (e : Env) (s : State) (m : Mask) : Moves e.x m s (e.issued s) := by
  unfold Env.issued Env.passed
  dsimp only
  have h1 := (e.event_moves s e.x m 0x04 e.passes).trans (e.event_moves _ e.x m 0x08 (if e.act = 0#64 then 0 else e.losses))
  generalize e.event (e.event s 0x04 e.passes) 0x08 (if e.act = 0#64 then 0 else e.losses) = s1 at h1 ⊢
  have h2 := h1.trans (State.mapGangs_moves s1 e.x m (fun n g => if n = e.x.gang then { g with evictable := none, deadlock := none } else e.ageOthers s1 n g) (by
    intro k g
    split
    · exact ⟨rfl, fun _ => rfl, fun _ => rfl, rfl, rfl⟩
    · exact e.ageOthers_age s1 k g))
  generalize (s1.setGangs (s1.gangs.mapVal fun n g => if n = e.x.gang then { g with evictable := none, deadlock := none } else e.ageOthers s1 n g)) = s2 at h2 ⊢
  have h3 : Moves e.x m s2 (if Env.spinning e.g then s2 else s2.updCtx e.x fun c => { c with since := 0, aged := false }) := by
    split
    · exact Moves.refl _ _ _
    · exact Moves.updCtx s2 e.x m (fun _ c => { c with since := 0, aged := false }) (fun _ _ _ _ => rfl) (fun _ _ _ _ _ => ⟨rfl, fun _ => rfl⟩)
  refine (h2.trans h3).trans ?_
  constructor <;> intros <;> rfl

/-- Where a context stands. -/
def Ctx.place (c : Ctx) : Assoc LaneSt × Mask := (c.lanes, c.path)

theorem State.pmEvent_ctx? (s : State) (g : Nat) (a : Bool) (code w : Nat) (y : Site) : (s.pmEvent g a code w).ctx? y = s.ctx? y := by
  unfold State.pmEvent; split <;> rfl

theorem Env.issued_place (e : Env) (s : State) : ((e.issued s).ctx? e.x).map Ctx.place = (s.ctx? e.x).map Ctx.place := by
  unfold Env.issued Env.passed
  dsimp only
  have h0 : ∀ y, (e.event (e.event s 0x04 e.passes) 0x08 (if e.act = 0#64 then 0 else e.losses)).ctx? y = s.ctx? y := fun _ => rfl
  generalize e.event (e.event s 0x04 e.passes) 0x08 (if e.act = 0#64 then 0 else e.losses) = s1 at h0 ⊢
  have h2 : (s1.setGangs (s1.gangs.mapVal fun n g => if n = e.x.gang then { g with evictable := none, deadlock := none } else e.ageOthers s1 n g)).ctx? e.x = s1.ctx? e.x := by
    rw [State.ctx?_of_gang?, State.ctx?_of_gang?]
    unfold State.gang?
    dsimp only [State.setGangs]
    rw [Assoc.get?_mapVal]
    simp only [if_true]
    cases s1.gangs.get? e.x.gang <;> rfl
  generalize (s1.setGangs (s1.gangs.mapVal fun n g => if n = e.x.gang then { g with evictable := none, deadlock := none } else e.ageOthers s1 n g)) = s2 at h2 ⊢
  rw [← h0, ← h2]
  split
  · rfl
  · show (((s2.updCtx e.x _)).ctx? e.x).map Ctx.place = _
    rw [State.ctx?_updCtx]
    simp only [if_true, Option.map_map]
    rfl

/-- A change of the round-robin order moves nothing. -/
theorem State.goLast_moves (s : State) (x : Site) (m : Mask) (p l g : Nat) : Moves x m s (s.goLast p l g) := by
  constructor <;> intros <;> rfl

/-- The end of a reservation changes the arbiters and the context's request alone. -/
theorem State.endGrant_moves (s : State) (x : Site) (m : Mask) :
    Moves x m s (s.endGrant x) ∧ (s.endGrant x).ctx? x = (s.ctx? x).map fun c => { c with vgrant := none } := by
  unfold State.endGrant
  split
  · next h =>
    refine ⟨Moves.refl _ _ _, ?_⟩
    cases hc : s.ctx? x with
    | none => rfl
    | some c =>
      rw [hc] at h
      have hv : c.vgrant = none := h
      simp only [Option.map_some, Option.some.injEq]
      rw [← hv]
  · next k _ h =>
    have h1 : Moves x m s (s.arbEnd (s.clusterOfGang x.gang) k) := by constructor <;> intros <;> rfl
    refine ⟨h1.trans (Moves.updCtx _ x m (fun _ c => { c with vgrant := none }) (fun _ _ _ _ => rfl) (fun _ _ _ _ _ => ⟨rfl, fun _ => rfl⟩)), ?_⟩
    rw [State.ctx?_updCtx]
    simp only [if_true]
    rfl

theorem Ctx.setPc_lane (c : Ctx) (m : Mask) (pc : DWord) (n : Nat) :
    ((c.setPc m pc).lanes.get? n).map LaneSt.still = (c.lanes.get? n).map LaneSt.still ∧
    (m.getLsbD n = false → (c.setPc m pc).lanes.get? n = c.lanes.get? n) :=
  updLanes_lane c m (fun l => { l with pc := pc }) (fun _ => rfl) n

theorem Ctx.setPc_calm {c : Ctx} {m : Mask} (h : c.calm m) (k : Mask) (pc : DWord) : (c.setPc k pc).calm m :=
  Ctx.calm_mapVal h (fun n l => if k.getLsbD n then { l with pc := pc } else l) rfl
    (fun n l hl => by split <;> exact hl) (fun n l => by split <;> rfl)

theorem foldl_keep_nil {α β : Type} (t : Assoc α) (p : Nat → α → Bool) (f : β → Nat → β) (b : β) (h : ∀ q ∈ t, p q.1 q.2 = false) :
    (t.keep p).keys.foldl f b = b := by
  have : t.keep p = [] := by
    unfold Assoc.keep
    rw [List.filter_eq_nil_iff]
    intro q hq
    simp [h q hq]
  rw [this]; rfl

/-- Where no lane of the path stops, the end of a clause only splits the path. -/
theorem stopStepped_calm (s : State) (x : Site) (split : Ctx → Ctx) (hm : ∀ c, s.ctx? x = some c → c.calm c.path)
    (hl : ∀ c, s.ctx? x = some c → (split c).lanes = c.lanes) :
    ∃ F : Ctx → Ctx, s.stopStepped x split = s.updCtx x F ∧ ∀ c, s.ctx? x = some c → F c = split c := by
  unfold State.stopStepped
  have hcx : ∀ F : Ctx → Ctx, (s.updCtx x F).ctx? x = (s.ctx? x).map F := by
    intro F; rw [State.ctx?_updCtx]; simp
  dsimp only
  generalize hFd : (fun c : Ctx => if c.path &&& c.laneMask c.steps = 0#64 then split c else _) = F
  have hFs : ∀ c, s.ctx? x = some c → F c = split c := by
    intro c hc; rw [← hFd]; exact if_pos (Ctx.calm_stop (hm c hc))
  refine ⟨F, ?_, hFs⟩
  split
  · rfl
  · next g hg =>
    split
    · rfl
    · next ha =>
      have hc' : (s.updCtx x F).ctx? x = some g.cctx := by
        rw [State.ctx?_of_gang?, hg]; simp [Gang.ctx?, ha]
      rw [hcx] at hc'
      apply foldl_keep_nil
      intro q _
      rw [Bool.and_eq_false_iff]
      right
      -- no lane is stopped
      cases hs : s.ctx? x with
      | none => rw [hs] at hc'; cases hc'
      | some c =>
        rw [hs] at hc'
        have e : F c = g.cctx := by simpa using hc'
        cases hq : g.cctx.lanes.get? q.1 with
        | none => rfl
        | some l =>
          have hml : (q.1, l) ∈ c.lanes := by
            rw [← hl c hs, ← hFs c hs, e]; exact Assoc.mem_of_get? hq
          have := ((hm c hs) _ hml).1
          simpa using this

theorem Moves.setAgenda (x : Site) (m : Mask) (s : State) (l : List Happening) : Moves x m s (s.setAgenda l) := by
  constructor <;> intros <;> rfl

theorem State.ctx?_setAgenda (s : State) (a : List Happening) (y : Site) : (s.setAgenda a).ctx? y = s.ctx? y := rfl

/-- The end of a clause at which no lane stops: lanes stand where `f` puts them, and `split` sets the path unless a stroke waits for its
commit. -/
theorem Env.closeClause_calm (e : Env) (s : State) (m : Mask) (f split : Ctx → Ctx)
    (hf : ∀ c, s.ctx? e.x = some c → (f c).kept = c.kept ∧ (f c).calm (f c).path ∧
      ∀ n, ((f c).lanes.get? n).map LaneSt.still = (c.lanes.get? n).map LaneSt.still ∧
        (m.getLsbD n = false → (f c).lanes.get? n = c.lanes.get? n))
    (hk : ∀ c, (split c).kept = c.kept) (hl : ∀ c, (split c).lanes = c.lanes) :
    Moves e.x m s (e.closeClause s f split) ∧
    ∀ c, s.ctx? e.x = some c → (e.closeClause s f split).ctx? e.x =
      some (if (f c).stroke.isSome then { f c with cur := none, vgrant := none } else split { f c with cur := none, vgrant := none }) := by
  unfold Env.closeClause
  have hgo : Moves e.x m s (if e.cur.hdr.yld then s.goLast e.pipe (e.g.level e.x.access) e.x.gang else s) ∧
      (if e.cur.hdr.yld then s.goLast e.pipe (e.g.level e.x.access) e.x.gang else s).ctx? e.x = s.ctx? e.x := by
    split
    · exact ⟨State.goLast_moves _ _ _ _ _ _, rfl⟩
    · exact ⟨Moves.refl _ _ _, rfl⟩
  obtain ⟨h0, hc0⟩ := hgo
  generalize (if e.cur.hdr.yld then s.goLast e.pipe (e.g.level e.x.access) e.x.gang else s) = s0 at h0 hc0 ⊢
  rw [← hc0] at hf ⊢
  have hctx : ∀ g c, s0.gang? e.x.gang = some g → g.ctx? e.x.access = some c → s0.ctx? e.x = some c := by
    intro g c hg hc; rw [State.ctx?_of_gang?, hg]; exact hc
  have h1 : Moves e.x m s0 (s0.updCtx e.x fun c => { f c with cur := none }) :=
    Moves.updCtx s0 e.x m (fun _ c => { f c with cur := none }) (fun g c hg hc => (hf c (hctx g c hg hc)).1)
      (fun g c hg hc n => (hf c (hctx g c hg hc)).2.2 n)
  have hx : (s0.updCtx e.x fun c => { f c with cur := none }).ctx? e.x = (s0.ctx? e.x).map fun c => { f c with cur := none } := by
    rw [State.ctx?_updCtx]; simp
  have hg := State.endGrant_moves (s0.updCtx e.x fun c => { f c with cur := none }) e.x m
  rw [hx] at hg
  have h1 := (h0.trans h1).trans hg.1
  have hx := hg.2
  dsimp only
  generalize ((s0.updCtx e.x fun c => { f c with cur := none }).endGrant e.x) = u at h1 hx ⊢
  cases hs : s0.ctx? e.x with
  | none =>
    rw [hs] at hx
    simp only [Option.map_none] at hx
    simp only [hx]
    exact ⟨h1, fun c hc => by cases hc⟩
  | some c =>
    rw [hs] at hx
    simp only [Option.map_some] at hx
    simp only [hx]
    cases hst : (f c).stroke.isSome with
    | true =>
      simp only [if_true]
      refine ⟨h1.trans (Moves.setAgenda _ _ _ _), fun d hd => ?_⟩
      cases hd
      rw [State.ctx?_setAgenda, hx, hst]; simp
    | false =>
      simp only [Bool.false_eq_true, if_false]
      obtain ⟨F, hF, he⟩ := stopStepped_calm u e.x split (by
        intro d hd; rw [hx] at hd; cases hd; exact (hf c hs).2.1) (fun d _ => hl d)
      rw [hF]
      refine ⟨h1.trans (Moves.updCtx u e.x m (fun _ c => F c) ?_ ?_), fun d hd => ?_⟩
      · intro g d hg hd
        have : u.ctx? e.x = some d := by rw [State.ctx?_of_gang?, hg]; exact hd
        rw [he d this]; exact hk d
      · intro g d hg hd n
        have : u.ctx? e.x = some d := by rw [State.ctx?_of_gang?, hg]; exact hd
        rw [he d this, hl]; exact ⟨rfl, fun _ => rfl⟩
      · cases hd
        rw [State.ctx?_updCtx, hx]
        simp [he _ hx, hst]

/-- The advance of an instruction at whose end no lane stops. -/
theorem Env.advance_moves (e : Env) (s : State) (m : Mask) (hp : ∀ c, s.ctx? e.x = some c → c.path = m ∧ c.alert m)
    (hm : e.c.resume.isSome = true ∨ e.last = false ∨ ∀ c, s.ctx? e.x = some c → c.calm m) :
    Moves e.x m s (e.advance s) ∧ ∀ c, (e.advance s).ctx? e.x = some c → c.path = m ∧ c.alert m := by
  unfold Env.advance
  have hctx : ∀ g c, s.gang? e.x.gang = some g → g.ctx? e.x.access = some c → s.ctx? e.x = some c := by
    intro g c hg hc; rw [State.ctx?_of_gang?, hg]; exact hc
  have hpath : ∀ F : Ctx → Ctx, (∀ c, (F c).path = c.path) → (∀ c, c.alert m → (F c).alert m) →
      ∀ c, (s.updCtx e.x F).ctx? e.x = some c → c.path = m ∧ c.alert m := by
    intro F hF ha c hc
    rw [State.ctx?_updCtx] at hc
    simp only [if_true] at hc
    cases hs : s.ctx? e.x with
    | none => rw [hs] at hc; cases hc
    | some d => rw [hs] at hc; cases hc; exact ⟨(hF d).trans (hp d hs).1, ha d (hp d hs).2⟩
  split
  · next r hr =>
    refine ⟨Moves.updCtx s e.x m (fun _ c => { (c.setPc c.path r.pc) with cur := r.cur, resume := none }) (fun _ _ _ _ => rfl) ?_,
      hpath _ (fun _ => rfl) fun c h => Ctx.setPc_alert h c.path r.pc⟩
    intro g c hg hc n
    have := Ctx.setPc_lane c c.path r.pc n
    rw [(hp c (hctx g c hg hc)).1] at this ⊢
    exact this
  · next hr =>
    split
    · next hlast =>
      have hcm : ∀ c, s.ctx? e.x = some c → c.calm m := by
        rcases hm with h | h | h
        · rw [hr] at h; cases h
        · rw [hlast] at h; cases h
        · exact h
      have h := Env.closeClause_calm e s m (fun c => c.setPc c.path e.next) id (by
        intro c hc
        refine ⟨rfl, ?_, fun n => ?_⟩
        · have := Ctx.setPc_calm (hcm c hc) c.path e.next
          have hpm : (c.setPc c.path e.next).path = m := (hp c hc).1
          rw [hpm]; exact this
        · have := Ctx.setPc_lane c c.path e.next n
          rw [(hp c hc).1] at this ⊢
          exact this) (fun _ => rfl) (fun _ => rfl)
      refine ⟨h.1, fun c hc => ?_⟩
      cases hs : s.ctx? e.x with
      | none =>
        have := h.1.ctxs e.x
        rw [hs] at this
        unfold Env.endClause at hc
        rw [hc] at this
        cases this
      | some d =>
        have := h.2 d hs
        unfold Env.endClause at hc
        rw [hc] at this
        simp only [Option.some.injEq] at this
        rw [this]
        have ha : (d.setPc d.path e.next).alert m := Ctx.setPc_alert (hp d hs).2 _ _
        split <;> exact ⟨(hp d hs).1, ha⟩
    · refine ⟨Moves.updCtx s e.x m (fun _ c => { (c.updLanes c.path fun l => { l with pc := e.next }) with
          cur := some { e.cur with idx := e.cur.idx + 1, ip := e.next, done := 0#64 } }) (fun _ _ _ _ => rfl) ?_,
        hpath _ (fun _ => rfl) fun c h => Ctx.setPc_alert h c.path e.next⟩
      intro g c hg hc n
      have := updLanes_lane c c.path (fun l => { l with pc := e.next }) (fun _ => rfl) n
      rw [(hp c (hctx g c hg hc)).1] at this ⊢
      exact this

end Sys2Proof.Machine
end

