-- ==== Sys2Proof/Laws/Effect.lean ====
section
/-! SUPPORT. The effect of an instruction that delivers its results and advances, as the statements speak of it. -/

namespace Sys2Proof.Machine

/-! ### The environment of an instruction -/

/-- A replayed instruction sees the registers of its issue, and all else of its context as it is. -/
theorem Ctx.asIssued_eq (c : Ctx) : ∃ v s, c.asIssued = { c with v := v, s := s } := by
  unfold Ctx.asIssued
  split
  · exact ⟨c.v, c.s, rfl⟩
  · exact ⟨_, _, rfl⟩

/-- What `env?` finds. -/
structure EnvSpec (i : Instr) (s : State) (e : Env) : Prop where
  cur : s.cur = some e.x
  gang : s.gang? e.x.gang = some e.g
  ctxOf : ∃ c, e.g.ctx? e.x.access = some c ∧ c.asIssued = e.c
  core : e.g.core = some e.core
  launch : s.launch? e.g.launch = some e.l
  cursor : e.c.cur = some e.cur
  path : e.c.path ≠ 0#64
  instr : e.i = i
  act : e.act = e.full &&& ~~~e.cur.done
  next : e.next = e.w + BitVec.ofNat 64 (4 * bodyWords i)
  word : e.w = e.cur.ip + BitVec.ofNat 64 (4 * pfxCount i.pfx)

theorem env?_spec {i : Instr} {s : State} {e : Env} (h : env? i s = some e) : EnvSpec i s e := by
  unfold env? at h
  split at h
  · cases h
  · next x hx =>
    split at h
    · cases h
    · next g hg =>
      split at h
      · next c core l hc hcore hl =>
        split at h
        · cases h
        · next cur hcur =>
          split at h
          · cases h
          · next hp =>
            cases h
            obtain ⟨v, r, ha⟩ := c.asIssued_eq
            exact ⟨hx, hg, ⟨c, hc, rfl⟩, hcore, hl, by rw [ha]; exact hcur, by rw [ha]; exact hp, rfl, rfl, rfl, rfl⟩
      · cases h

theorem EnvSpec.ctx {i : Instr} {s : State} {e : Env} (h : EnvSpec i s e) : ∃ c v r, s.ctx? e.x = some c ∧ e.c = { c with v := v, s := r } := by
  obtain ⟨c, hc, he⟩ := h.ctxOf
  obtain ⟨v, r, ha⟩ := c.asIssued_eq
  exact ⟨c, v, r, by rw [State.ctx?_of_gang?, h.gang]; exact hc, he ▸ ha⟩

theorem Env.goes_iff (e : Env) (s : State) : e.goes s = true ↔ e.gate s = .go := by
  unfold Env.goes
  split
  · next h => simp [h]
  · next h => simp; exact h

/-- What comes after an instruction's own effect. -/
def Env.finish (e : Env) (t : State) : State := (e.advance (e.issued t)).selectPath e.x

theorem run_done {i : Instr} {s : State} {e : Env} {b : Env → State → Res} {t : State} (h : env? i s = some e) (hg : e.goes s = true)
    (hb : b e (e.awake s) = .done t) : run i s b = .next (e.finish t) := by
  unfold run
  rw [h]
  simp only [(e.goes_iff s).1 hg]
  unfold Env.awake at hb
  rw [hb]
  rfl

theorem run_moved {i : Instr} {s : State} {e : Env} {b : Env → State → Res} {t : State} (h : env? i s = some e) (hg : e.goes s = true)
    (hb : b e (e.awake s) = .moved t) : run i s b = .next ((e.issued t).selectPath e.x) := by
  unfold run
  rw [h]
  simp only [(e.goes_iff s).1 hg]
  unfold Env.awake at hb
  rw [hb]

theorem run_raise {i : Instr} {s : State} {e : Env} {b : Env → State → Res} {t : State} {r : TrapRec} (h : env? i s = some e)
    (hg : e.goes s = true) (hb : b e (e.awake s) = .raise t r) : run i s b = .next ((e.passed t).raise e.x r) := by
  unfold run
  rw [h]
  simp only [(e.goes_iff s).1 hg]
  unfold Env.awake at hb
  rw [hb]

/-! ### The places of the path's lanes -/

theorem Ctx.calm_wake {c : Ctx} {m : Mask} (h : c.calm m) (k : Mask) : (c.wake k).calm m :=
  Ctx.calm_mapVal h (fun n l => if k.getLsbD n then { l with ws := c.readyOf n } else l) rfl
    (fun n l hl => by split; exact c.readyOf_ne_stopped n; exact hl) (fun n l => by split <;> rfl)

theorem Env.calm_spec {e : Env} (h : e.calm = true) : e.c.resume.isSome = true ∨ e.last = false ∨ e.c.calm e.c.path := by
  unfold Env.calm Env.atEase at h
  simp only [Bool.or_eq_true, Bool.not_eq_true', List.all_eq_true, Bool.and_eq_true, decide_eq_true_eq, Bool.and_eq_false_iff] at h
  rcases h with (h | h) | h
  · exact Or.inl h
  · exact Or.inr (Or.inl h)
  · refine Or.inr (Or.inr fun p hp => ⟨(h p hp).1, fun hm => ?_⟩)
    rcases (h p hp).2 with h' | h'
    · rw [hm] at h'; cases h'
    · exact h'

theorem settleCtx_place (e : Env) (m : Mask) (all : Bool) (c : Ctx) : (e.settleCtx m all c).place = c.place := by
  unfold Env.settleCtx
  rw [foldl_killUse_keeps Ctx.place (fun _ _ => rfl) (fun _ _ => rfl)]
  split <;> rfl

theorem writeCtx_place (o : Opnd) (n : Nat) (lanes : List Nat) (nib : Option Nat) (vals : Nat → List Word) (c : Ctx) :
    (writeCtx o n lanes nib vals c).place = c.place := by
  unfold writeCtx
  split
  · rfl
  · split
    · rfl
    · split <;> rfl
  · rfl

theorem sbCtx_place (e : Env) (c : Ctx) : (e.sbCtx c).place = c.place := by
  unfold Env.sbCtx; split <;> rfl

theorem deliverCtx_place (e : Env) (o : Out) (c : Ctx) : (e.deliverCtx o c).place = c.place := by
  obtain ⟨dst, lanes, vals, pred, flags, long⟩ := o
  unfold Env.deliverCtx
  dsimp only
  have h5 : ∀ d, (flagCtx flags d).place = d.place := fun _ => rfl
  have h3 : ∀ b p d, (e.predCtx b p d).place = d.place := fun _ _ _ => rfl
  rw [h5]
  by_cases ha : e.act = 0#64 <;> cases long <;> cases dst <;> cases pred <;>
    simp [ha, h3, sbCtx_place, writeCtx_place, settleCtx_place]

/-! ### The registers of a context after a delivery -/

/-- What a delivery does to the context before its predicate, flight and flags. -/
def Env.destCtx (e : Env) (o : Out) (c : Ctx) : Ctx :=
  match o.dst with
  | none => if e.act = 0#64 then c else e.settleCtx e.act true c
  | some (d, n) => writeCtx d n o.lanes e.nib o.vals (if e.act = 0#64 then c else e.settleCtx e.act true c)

/-- A part of the context that predicates, flight and flags keep. -/
theorem deliverCtx_dest {β : Type} (φ : Ctx → β) (hk : ∀ c x, φ { c with k := x } = φ c) (hsb : ∀ c x, φ { c with sb := x } = φ c)
    (hg : ∀ c x, φ { c with gst := x } = φ c) (e : Env) (o : Out) (c : Ctx) : φ (e.deliverCtx o c) = φ (e.destCtx o c) := by
  obtain ⟨dst, lanes, vals, pred, flags, long⟩ := o
  unfold Env.deliverCtx Env.destCtx
  dsimp only
  have h5 : ∀ d, φ (flagCtx flags d) = φ d := fun d => hg d _
  have h3 : ∀ b p d, φ (e.predCtx b p d) = φ d := fun _ _ d => hk d _
  have h4 : ∀ d, φ (e.sbCtx d) = φ d := by
    intro d; unfold Env.sbCtx; split
    · rfl
    · exact hsb d _
  rw [h5]
  by_cases ha : e.act = 0#64 <;> cases long <;> cases dst <;> cases pred <;> simp [ha, h3, h4]

theorem settled_v (e : Env) (c : Ctx) (r n : Nat) (hn : n < 64) :
    (if e.act = 0#64 then c else e.settleCtx e.act true c).v.get? (64 * r + n) = if e.killsV r n then none else c.v.get? (64 * r + n) := by
  have hk : e.killsV r n = e.uses.any (fun u => useKillsV e.replayed u e.act r n) := by
    unfold Env.killsV useKillsV
    cases e.act.getLsbD n <;> cases e.replayed true (64 * r + n) <;> simp
  by_cases ha : e.act = 0#64
  · have : e.killsV r n = false := by unfold Env.killsV; rw [ha]; simp
    rw [this]; simp [ha]
  · simp only [ha, if_false]
    unfold Env.settleCtx
    rw [foldl_killUse_v e.replayed e.act true e.uses _ r n hn, hk]
    congr 1
    split <;> rfl

theorem settled_s (e : Env) (c : Ctx) (r : Nat) :
    (if e.act = 0#64 then c else e.settleCtx e.act true c).s.get? r = if e.killsS r then none else c.s.get? r := by
  by_cases ha : e.act = 0#64
  · simp [Env.killsS, ha]
  · simp only [ha, if_false]
    unfold Env.settleCtx
    rw [foldl_killUse_s e.replayed (lanesOf e.act) true e.uses _ r]
    have hk : e.killsS r = e.uses.any (fun u => useKillsS e.replayed u true r) := by
      unfold Env.killsS useKillsS
      cases e.replayed false r <;> simp [ha]
    rw [hk]
    congr 1
    split <;> rfl

theorem deliverCtx_v (e : Env) (o : Out) (c : Ctx) (r n : Nat) (hn : n < 64) (h64 : ∀ k ∈ o.lanes, k < 64) :
    (e.deliverCtx o c).v.get? (64 * r + n) =
      if o.writesV r n then some ⟨o.word r n, false, false⟩ else if e.killsV r n then none else c.v.get? (64 * r + n) := by
  rw [deliverCtx_dest (fun c => c.v.get? (64 * r + n)) (fun _ _ => rfl) (fun _ _ => rfl) (fun _ _ => rfl)]
  rw [← settled_v e c r n hn]
  unfold Env.destCtx Out.writesV Out.word Out.base
  cases hd : o.dst with
  | none => simp
  | some p =>
    obtain ⟨d, k⟩ := p
    cases d with
    | v b =>
      simp only [writeCtx, Bool.and_eq_true, decide_eq_true_eq]
      rw [get?_put_lanes (fun k j => (⟨(o.vals k).getD j 0#32, false, false⟩ : Reg)) b.toNat k o.lanes _ r n hn h64]
    | s b =>
      simp only [writeCtx, Bool.false_eq_true, if_false]
      split
      · rfl
      · split <;> rfl
    | c b => simp [writeCtx]
    | q b => simp [writeCtx]

theorem deliverCtx_s (e : Env) (o : Out) (c : Ctx) (r : Nat) :
    (e.deliverCtx o c).s.get? r =
      if o.writesS e.nib r then some ⟨o.word r (e.nib.getD 0), false, false⟩ else if e.killsS r then none else c.s.get? r := by
  rw [deliverCtx_dest (fun c => c.s.get? r) (fun _ _ => rfl) (fun _ _ => rfl) (fun _ _ => rfl)]
  rw [← settled_s e c r]
  unfold Env.destCtx Out.writesS Out.word Out.base
  cases hd : o.dst with
  | none => simp
  | some p =>
    obtain ⟨d, k⟩ := p
    cases d with
    | s b =>
      cases hn : e.nib with
      | none => simp [writeCtx]
      | some m =>
        simp only [writeCtx]
        cases hm : o.lanes.contains m with
        | false => simp
        | true =>
          simp only [Bool.not_true, Bool.false_eq_true, if_false, writeS, Bool.true_and, decide_eq_true_eq, Option.getD_some]
          rw [get?_put_range (fun j => (⟨(o.vals m).getD j 0#32, false, false⟩ : Reg)) b.val k]
    | v b => simp [writeCtx]
    | c b => simp [writeCtx]
    | q b => simp [writeCtx]

theorem settled_k (e : Env) (c : Ctx) : (if e.act = 0#64 then c else e.settleCtx e.act true c).k = c.k := by
  split
  · rfl
  · unfold Env.settleCtx
    rw [foldl_killUse_keeps Ctx.k (fun _ _ => rfl) (fun _ _ => rfl)]
    split <;> rfl

theorem writeCtx_keeps {β : Type} (φ : Ctx → β) (hv : ∀ c x, φ { c with v := x } = φ c) (hs : ∀ c x, φ { c with s := x } = φ c)
    (o : Opnd) (n : Nat) (lanes : List Nat) (nib : Option Nat) (vals : Nat → List Word) (c : Ctx) :
    φ (writeCtx o n lanes nib vals c) = φ c := by
  unfold writeCtx
  split
  · exact hv _ _
  · split
    · rfl
    · split
      · rfl
      · exact hs _ _
  · rfl

theorem destCtx_keeps {β : Type} (φ : Ctx → β) (hv : ∀ c x, φ { c with v := x } = φ c) (hs : ∀ c x, φ { c with s := x } = φ c)
    (e : Env) (o : Out) (c : Ctx) : φ (e.destCtx o c) = φ (if e.act = 0#64 then c else e.settleCtx e.act true c) := by
  unfold Env.destCtx
  split
  · rfl
  · exact writeCtx_keeps φ hv hs ..

theorem deliverCtx_k (e : Env) (o : Out) (c : Ctx) (n : Nat) :
    (e.deliverCtx o c).k.getD n 0#64 = match o.pred with
      | none => c.k.getD n 0#64
      | some (b, p) => if n = b.toNat then (c.k.getD n 0#64 &&& ~~~e.act) ||| maskOf (e.lanes.filter p) else c.k.getD n 0#64 := by
  have hd : (e.destCtx o c).k = c.k := by
    rw [destCtx_keeps Ctx.k (fun _ _ => rfl) (fun _ _ => rfl), settled_k]
  have h5 : ∀ f d, (flagCtx f d).k = d.k := fun _ _ => rfl
  have h4 : ∀ d, (e.sbCtx d).k = d.k := by intro d; unfold Env.sbCtx; split <;> rfl
  have h3 : ∀ b p d, (e.predCtx b p d).k.getD n 0#64 =
      if n = b.toNat then (d.k.getD n 0#64 &&& ~~~e.act) ||| maskOf (e.lanes.filter p) else d.k.getD n 0#64 := by
    intro b p d; simp only [Env.predCtx, Assoc.getD_putD]; split
    · next h => rw [h]
    · rfl
  obtain ⟨dst, lanes, vals, pred, flags, long⟩ := o
  unfold Env.destCtx at hd
  unfold Env.deliverCtx
  dsimp only at hd ⊢
  rw [h5]
  by_cases ha : e.act = 0#64 <;> cases long <;> cases dst <;> cases pred <;> simp_all

theorem deliverCtx_gst (e : Env) (o : Out) (c : Ctx) : (e.deliverCtx o c).gst = c.gst ||| e.pz ||| o.flags := by
  have hs : (if e.act = 0#64 then c else e.settleCtx e.act true c).gst = c.gst ||| e.pz := by
    unfold Env.pz Env.lanes
    by_cases ha : e.act = 0#64
    · rw [ha]
      have : lanesOf 0#64 = [] := by decide
      simp [this]
    · simp only [ha, if_false]
      unfold Env.settleCtx
      rw [foldl_killUse_keeps Ctx.gst (fun _ _ => rfl) (fun _ _ => rfl)]
      split <;> simp [fPZ]
  have hd : (e.destCtx o c).gst = c.gst ||| e.pz := by
    rw [destCtx_keeps Ctx.gst (fun _ _ => rfl) (fun _ _ => rfl), hs]
  have h5 : ∀ f d, (flagCtx f d).gst = d.gst ||| f := fun _ _ => rfl
  have h4 : ∀ d, (e.sbCtx d).gst = d.gst := by intro d; unfold Env.sbCtx; split <;> rfl
  have h3 : ∀ b p d, (e.predCtx b p d).gst = d.gst := fun _ _ _ => rfl
  obtain ⟨dst, lanes, vals, pred, flags, long⟩ := o
  unfold Env.destCtx at hd
  unfold Env.deliverCtx
  dsimp only at hd ⊢
  rw [h5]
  by_cases ha : e.act = 0#64
  · cases long <;> cases dst <;> cases pred <;> simp only [ha, h3, if_true, Bool.false_eq_true, if_false] at hd ⊢ <;> exact congrArg (fun w => w ||| flags) hd
  · cases long <;> cases dst <;> cases pred <;> simp only [ha, h3, h4, if_true, Bool.false_eq_true, if_false] at hd ⊢ <;> exact congrArg (fun w => w ||| flags) hd

theorem deliverCtx_sb (e : Env) (o : Out) (c : Ctx) (n : Nat) : (e.deliverCtx o c).sbOf n =
    if o.long = true ∧ e.act ≠ 0#64 ∧ (∃ l, e.i.lf = some l ∧ l.sb.toNat = n) then c.sbOf n + 1 else c.sbOf n := by
  have hs : (if e.act = 0#64 then c else e.settleCtx e.act true c).sb = c.sb := by
    split
    · rfl
    · unfold Env.settleCtx
      rw [foldl_killUse_keeps Ctx.sb (fun _ _ => rfl) (fun _ _ => rfl)]
      split <;> rfl
  have hd : (e.destCtx o c).sbOf n = c.sbOf n := by
    unfold Ctx.sbOf
    rw [destCtx_keeps Ctx.sb (fun _ _ => rfl) (fun _ _ => rfl), hs]
  have h5 : ∀ f d, (flagCtx f d).sbOf n = d.sbOf n := fun _ _ => rfl
  have h4 : ∀ d, (e.sbCtx d).sbOf n = if ∃ l, e.i.lf = some l ∧ l.sb.toNat = n then d.sbOf n + 1 else d.sbOf n := by
    intro d
    unfold Env.sbCtx
    cases hl : e.i.lf with
    | none => simp
    | some l =>
      simp only [Option.some.injEq, exists_eq_left', Ctx.sbOf, Assoc.getD_putD]
      by_cases h : n = l.sb.toNat
      · simp [h]
      · simp [h, Ne.symm h]
  have h3 : ∀ b p d, (e.predCtx b p d).sbOf n = d.sbOf n := fun _ _ _ => rfl
  obtain ⟨dst, lanes, vals, pred, flags, long⟩ := o
  unfold Env.destCtx at hd
  unfold Env.deliverCtx
  dsimp only at hd ⊢
  rw [h5]
  by_cases ha : e.act = 0#64
  · cases long <;> cases dst <;> cases pred <;> simp [ha, h3] at hd ⊢ <;> exact hd
  · cases long <;> cases dst <;> cases pred <;> simp [ha, h3, h4] at hd ⊢ <;> first | exact hd | rw [hd]

/-! ### The effect -/

theorem Does.ctx? {x : Site} {F : Ctx → Ctx} {Q : Nat → Nat → List QEnt → List QEnt} {C : Nat → Nat → Word → Word} {s t : State}
    (h : Does x F Q C s t) (y : Site) : t.ctx? y = if y = x then (s.ctx? y).map F else s.ctx? y := by
  obtain ⟨f, o, a⟩ := h
  rw [State.ctx?_of_gang?, State.ctx?_of_gang?, o.gang]
  by_cases hy : y.gang = x.gang
  · simp only [hy, if_true, Site.eq_iff, true_and]
    cases s.gang? x.gang with
    | none => simp
    | some g => simp only [Option.map_some, Option.bind_some, a.ctx]
  · simp [hy, Site.eq_iff]

theorem Does.still {x : Site} {F : Ctx → Ctx} {Q : Nat → Nat → List QEnt → List QEnt} {C : Nat → Nat → Word → Word} {s t : State}
    (h : Does x F Q C s t) (k : Nat) : (t.gang? k).map Gang.still = (s.gang? k).map Gang.still := by
  obtain ⟨f, o, a⟩ := h
  rw [o.gang]
  split
  · rw [Option.map_map]; congr 1; funext g; exact a.still g
  · rfl

theorem Does.thread {x : Site} {F : Ctx → Ctx} {Q : Nat → Nat → List QEnt → List QEnt} {C : Nat → Nat → Word → Word} {s t : State}
    (h : Does x F Q C s t) (k n : Nat) : (t.thread? k n).map Thread.still = (s.thread? k n).map Thread.still := by
  obtain ⟨f, o, a⟩ := h
  rw [State.thread?_of_gang?, State.thread?_of_gang?, o.gang]
  split
  · cases s.gang? k with
    | none => rfl
    | some g => exact a.thr g n
  · rfl

theorem Does.creg {x : Site} {F : Ctx → Ctx} {Q : Nat → Nat → List QEnt → List QEnt} {C : Nat → Nat → Word → Word} {s t : State}
    (h : Does x F Q C s t) (k n r : Nat) : t.creg k n r = if k = x.gang then (s.creg k n r).map (C n r) else s.creg k n r := by
  obtain ⟨f, o, a⟩ := h
  unfold State.creg
  rw [State.thread?_of_gang?, State.thread?_of_gang?, o.gang]
  split
  · cases s.gang? k with
    | none => rfl
    | some g => exact a.creg g n r
  · rfl

theorem queue_eq_ents (s : State) (k q n : Nat) : s.queue k q n = ((s.gang? k).map fun g => g.ents q n).getD [] := by
  rw [State.queue_of_gang?]
  cases s.gang? k <;> rfl

theorem Does.queue {x : Site} {F : Ctx → Ctx} {Q : Nat → Nat → List QEnt → List QEnt} {C : Nat → Nat → Word → Word} {s t : State}
    (h : Does x F Q C s t) (k q n : Nat) : t.queue k q n =
      if k = x.gang then (if ((s.gang? k).map fun g => g.queues.has q).getD false then Q q n (s.queue k q n) else []) else s.queue k q n := by
  obtain ⟨f, o, a⟩ := h
  rw [queue_eq_ents, queue_eq_ents, o.gang]
  split
  · cases s.gang? k with
    | none => rfl
    | some g => exact a.ents g q n
  · rfl

theorem Env.popList_count (e : Env) (q : Nat) : e.popList.count q = e.pops q := by
  unfold Env.popList Env.pops
  generalize e.uses = us
  induction us with
  | nil => rfl
  | cons u us ih =>
    simp only [List.filterMap_cons, List.filter_cons]
    cases ho : u.o <;> cases hr : u.role <;> simp only [ih, decide_eq_true_eq, Bool.false_eq_true, if_false]
    · next b =>
      rw [List.count_cons, ih]
      by_cases h : b.toNat = q <;> simp [h]

theorem deliver_ops (e : Env) (s : State) (o : Out) :
    (o.long = false ∨ e.act = 0#64 → (e.deliver s o).ops = s.ops) ∧
    (o.long = true → e.act ≠ 0#64 → ∀ l, e.i.lf = some l → ∃ p, (e.deliver s o).ops = s.ops.put s.nextId p ∧ p.i = e.i ∧ p.gang = e.x.gang ∧
      p.access = e.x.access ∧ p.lanes = e.act ∧ p.left = o.left ∧ p.fails = [] ∧ p.data = o.data) := by
  have hf : ∀ s f, (e.flags s f).ops = s.ops := by intro s f; unfold Env.flags; split <;> rfl
  have h2 : (e.putDst (e.settle s e.act true) o).ops = s.ops ∧ (e.putDst (e.settle s e.act true) o).nextId = s.nextId := by
    have hset := e.settle_ops s e.act true
    have hsid := e.settle_nextId s e.act true
    unfold Env.putDst
    cases o.dst with
    | none => exact ⟨hset, hsid⟩
    | some d =>
      have := State.writeReg_ops (e.settle s e.act true) e.x d.1 d.2 o.lanes e.nib o.vals
      exact ⟨this.1.trans hset, this.2.trans hsid⟩
  have h3 : ∀ s2 : State, (e.putPred s2 o).ops = s2.ops ∧ (e.putPred s2 o).nextId = s2.nextId := by
    intro s2; unfold Env.putPred; cases o.pred <;> exact ⟨rfl, rfl⟩
  unfold Env.deliver
  dsimp only
  have h3 := h3 (e.putDst (e.settle s e.act true) o)
  generalize e.putPred (e.putDst (e.settle s e.act true) o) o = s3 at h3 ⊢
  rw [hf]
  have ho : s3.ops = s.ops := h3.1.trans h2.1
  have hi : s3.nextId = s.nextId := h3.2.trans h2.2
  constructor
  · rintro (h | h)
    · simp only [h, Bool.false_eq_true, if_false]; exact ho
    · split
      · rw [(e.enterOp_does s3 e.act o.left o.data).2.1 (Or.inl h), ho]
      · exact ho
  · rintro h ha l hl
    simp only [h, if_true]
    obtain ⟨p, hp, rest⟩ := (e.enterOp_does s3 e.act o.left o.data).2.2 ha l hl
    exact ⟨p, by rw [hp, ho, hi], rest⟩

theorem kept_eq {α : Type} (φ : Ctx → α) (hφ : ∀ c d : Ctx, c.kept = d.kept → φ c = φ d) {s t : State}
    {y : Site} (h : (t.ctx? y).map Ctx.kept = (s.ctx? y).map Ctx.kept) : (t.ctx? y).map φ = (s.ctx? y).map φ := by
  cases ht : t.ctx? y <;> cases hs : s.ctx? y <;> simp_all
  exact hφ _ _ h

theorem kept_v {c d : Ctx} (h : c.kept = d.kept) : c.v = d.v := by have := congrArg Ctx.v h; exact this
theorem kept_s {c d : Ctx} (h : c.kept = d.kept) : c.s = d.s := by have := congrArg Ctx.s h; exact this
theorem kept_k {c d : Ctx} (h : c.kept = d.kept) : c.k = d.k := by have := congrArg Ctx.k h; exact this
theorem kept_sb {c d : Ctx} (h : c.kept = d.kept) : c.sb = d.sb := by have := congrArg Ctx.sb h; exact this
theorem kept_gst {c d : Ctx} (h : c.kept = d.kept) : c.gst = d.gst := by have := congrArg Ctx.gst h; exact this

theorem bind_eq_map_join {α β : Type} (o : Option α) (f : α → Option β) : o.bind f = (o.map f).join := by cases o <;> rfl

theorem Moves.vreg {x : Site} {m : Mask} {s t : State} (h : Moves x m s t) (y : Site) (r n : Nat) : t.vreg y r n = s.vreg y r n := by
  unfold State.vreg
  rw [bind_eq_map_join, bind_eq_map_join, kept_eq (fun c => c.v.get? (64 * r + n)) (fun c d h => by rw [kept_v h]) (h.ctxs y)]
theorem Moves.sreg {x : Site} {m : Mask} {s t : State} (h : Moves x m s t) (y : Site) (r : Nat) : t.sreg y r = s.sreg y r := by
  unfold State.sreg
  rw [bind_eq_map_join, bind_eq_map_join, kept_eq (fun c => c.s.get? r) (fun c d h => by rw [kept_s h]) (h.ctxs y)]
theorem Moves.pred {x : Site} {m : Mask} {s t : State} (h : Moves x m s t) (y : Site) (n : Nat) : t.pred y n = s.pred y n :=
  kept_eq (fun c => c.k.getD n 0#64) (fun c d h => by rw [kept_k h]) (h.ctxs y)
theorem Moves.sbCount {x : Site} {m : Mask} {s t : State} (h : Moves x m s t) (y : Site) (n : Nat) : t.sbCount y n = s.sbCount y n :=
  kept_eq (fun c => c.sbOf n) (fun c d h => by unfold Ctx.sbOf; rw [kept_sb h]) (h.ctxs y)
theorem Moves.gst {x : Site} {m : Mask} {s t : State} (h : Moves x m s t) (y : Site) : t.gst y = s.gst y :=
  kept_eq (fun c => c.gst) (fun _ _ h => kept_gst h) (h.ctxs y)
theorem Moves.creg {x : Site} {m : Mask} {s t : State} (h : Moves x m s t) (k n r : Nat) : t.creg k n r = s.creg k n r := by
  unfold State.creg; rw [h.threads]

theorem Moves.rest {x : Site} {s t : State} {c : Ctx} (h : Moves x c.path s t) (hc : s.ctx? x = some c) : Rest x s t where
  mem := h.mem
  home := h.home
  launches := h.launches
  ctl := h.ctl
  dev := h.dev
  turn := h.turn
  cur := h.cur
  draws := h.draws
  recs := h.recs
  permits := h.permits
  heldLines := h.heldLines
  reads := h.reads
  gangs := h.gangs
  groups := h.groups
  threads := fun k n => by rw [h.threads]
  lanes := h.lanes
  outside := fun y n hy => h.outside y n (by
    rcases hy with hy | ⟨d, hd, hm⟩
    · exact Or.inl hy
    · rw [hc] at hd; cases hd; exact Or.inr hm)

/-- The end of an instruction whose context has kept its path and stops nowhere. -/
theorem Env.finish_moves_at (e : Env) (t : State) {c : Ctx} {m : Mask} (ht : t.ctx? e.x = some c) (hp : c.path = m) (hm : m ≠ 0#64) (ha : c.alert m)
    (hc : e.c.resume.isSome = true ∨ e.last = false ∨ c.calm m) : Moves e.x m t (e.finish t) := by
  have h1 := e.issued_moves t m
  have hpl := e.issued_place t
  rw [ht] at hpl
  have hp' : ∀ d, (e.issued t).ctx? e.x = some d → d.path = m ∧ d.lanes = c.lanes := by
    intro d hd
    rw [hd] at hpl
    simp only [Option.map_some, Option.some.injEq, Ctx.place, Prod.mk.injEq] at hpl
    exact ⟨hpl.2.trans hp, hpl.1⟩
  have h2 := e.advance_moves (e.issued t) m (fun d hd => ⟨(hp' d hd).1, fun p hq => by rw [(hp' d hd).2] at hq; exact ha p hq⟩) (by
    rcases hc with h | h | h
    · exact Or.inl h
    · exact Or.inr (Or.inl h)
    · refine Or.inr (Or.inr fun d hd p hq => ?_)
      rw [(hp' d hd).2] at hq
      exact h p hq)
  refine (h1.trans h2.1).trans (State.selectPath_moves _ e.x _ fun d hd => ?_)
  obtain ⟨h, ha⟩ := h2.2 d hd
  rw [h]
  exact ⟨hm, ha⟩

/-- What an instruction's own change outside registers keeps: the path, no lane that would stop, and which queues there are. -/
structure Env.Base (e : Env) (r : State) : Prop where
  ctx : ∃ c, r.ctx? e.x = some c ∧ c.path = e.c.path ∧ (e.c.resume.isSome = true ∨ e.last = false ∨ c.calm c.path)
  queues : ∀ q, (r.gang? e.x.gang).map (fun g => g.queues.has q) = some (e.g.queues.has q)

/-- An instruction that issues, changes the state to `r` outside registers, delivers `o` and advances has the effect `o` on `r`. -/
theorem Env.effect_at {i : Instr} {s : State} {e : Env} (hs : EnvSpec i s e) {r : State} (hr : e.Base r) (o : Out) (hl : o.lanes.Nodup)
    (h64 : ∀ n ∈ o.lanes, n < 64) (hlf : o.long = true → e.i.lf ≠ none) : Effect e r (e.finish (e.deliver (e.awake r) o)) o := by
  obtain ⟨⟨c, hctx, hp, hcm⟩, hq⟩ := hr
  have m1 : Moves e.x c.path r (e.awake r) :=
    State.wake_moves r e.x c.path fun d hd => by rw [hctx] at hd; cases hd; rfl
  have hx : (e.awake r).ctx? e.x = some (c.wake c.path) := by
    unfold Env.awake; rw [State.ctx?_updCtx, hctx]; simp
  have D := e.deliver_does (e.awake r) o hl
  have hD := deliver_ops e (e.awake r) o
  generalize hd : e.deliver (e.awake r) o = d at D hD ⊢
  have hdx : d.ctx? e.x = some (e.deliverCtx o (c.wake c.path)) := by rw [D.ctx? e.x, hx]; simp
  have m3 : Moves e.x c.path d (e.finish d) :=
    by
    have hpl := deliverCtx_place e o (c.wake c.path)
    simp only [Ctx.place, Prod.mk.injEq] at hpl
    refine e.finish_moves_at d hdx hpl.2 (by rw [hp]; exact hs.path) (fun p hp' => by
      rw [hpl.1] at hp'; exact Ctx.wake_alert c c.path p hp') ?_
    rcases hcm with h | h | h
    · exact Or.inl h
    · exact Or.inr (Or.inl h)
    · refine Or.inr (Or.inr fun p hp' => ?_)
      rw [hpl.1] at hp'
      exact Ctx.calm_wake h _ p hp'
  have hdy : ∀ y, y ≠ e.x → d.ctx? y = (e.awake r).ctx? y := by intro y hy; rw [D.ctx? y]; simp [hy]
  have hw : ∀ y, y ≠ e.x → (e.awake r).ctx? y = r.ctx? y := by
    intro y hy; unfold Env.awake; rw [State.ctx?_updCtx]; simp [hy]
  constructor
  · intro y rg n hn
    rw [m3.vreg]
    by_cases hy : y = e.x
    · subst hy
      unfold State.vreg
      rw [hdx, hctx]
      simp only [Option.bind_some, true_and]
      rw [deliverCtx_v e o _ rg n hn h64]
      rfl
    · unfold State.vreg; rw [hdy y hy, hw y hy]; simp [hy]
  · intro y rg
    rw [m3.sreg]
    by_cases hy : y = e.x
    · subst hy
      unfold State.sreg
      rw [hdx, hctx]
      simp only [Option.bind_some, true_and]
      rw [deliverCtx_s e o _ rg]
      rfl
    · unfold State.sreg; rw [hdy y hy, hw y hy]; simp [hy]
  · intro y n
    rw [m3.pred]
    by_cases hy : y = e.x
    · subst hy
      unfold State.pred
      rw [hdx, hctx]
      simp only [Option.map_some, true_and]
      rw [deliverCtx_k]
      cases o.pred with
      | none => rfl
      | some b => dsimp only; split <;> rfl
    · unfold State.pred; rw [hdy y hy, hw y hy]; cases o.pred <;> simp [hy]
  · intro y
    rw [m3.gst]
    by_cases hy : y = e.x
    · subst hy
      unfold State.gst
      rw [hdx, hctx]
      simp only [Option.map_some, if_true]
      rw [deliverCtx_gst]
      rfl
    · unfold State.gst; rw [hdy y hy, hw y hy]; simp [hy]
  · intro g n rr
    rw [m3.creg, D.creg, m1.creg]
    by_cases hg : g = e.x.gang
    · simp only [hg, if_true, true_and]
      unfold Out.writesC Out.word Out.base writeCreg
      rcases hdst : o.dst with _ | ⟨b, k⟩
      · simp
      · cases b with
        | c b =>
          simp only [Bool.and_eq_true, decide_eq_true_eq]
          by_cases hb : rr = b.toNat
          · subst hb; by_cases hc : n ∈ o.lanes <;> simp [hc]
          · simp [hb, Ne.symm hb]
        | _ => simp
    · simp [hg]
  · intro g q n
    rw [m3.queues, D.queue, m1.queues, Env.popList_count]
    by_cases hg : g = e.x.gang
    · have hgang : ((e.awake r).gang? g).map (fun g => g.queues.has q) = some (e.g.queues.has q) := by
        unfold Env.awake State.updCtx
        rw [State.gang?_updGang', hg]
        have hq' := hq q
        cases hgr : r.gang? e.x.gang with
        | none => rw [hgr] at hq'; cases hq'
        | some g' =>
          rw [hgr] at hq'
          simp only [if_true, Option.map_some, Gang.updCtx]
          split <;> exact hq'
      rw [hgang]
      have hnil : e.g.queues.has q = false → r.queue g q n = [] := by
        intro hh
        rw [queue_eq_ents, hg]
        have hq' := hq q
        cases hgr : r.gang? e.x.gang with
        | none => rfl
        | some g' =>
          rw [hgr] at hq'
          simp only [Option.map_some, Option.some.injEq] at hq'
          simpa using Gang.ents_of_not_has (hq'.trans hh)
      simp only [hg, if_true, Option.getD_some]
      rw [hg] at hnil
      unfold Out.pushes Out.word Out.base writeQueue
      cases hh : e.g.queues.has q with
      | false => simp [hnil hh]
      | true =>
        rcases hdst : o.dst with _ | ⟨b, k⟩
        · simp
        · cases b with
          | q b =>
            simp only [Bool.and_eq_true, decide_eq_true_eq]
            by_cases hb : q = b.toNat
            · subst hb; by_cases hc : n ∈ o.lanes <;> simp [hc]
            · simp [hb, Ne.symm hb]
          | _ => simp
    · simp [hg]
  · have hops : ∀ P : Prop, (P → (e.finish d).ops = d.ops) := fun _ _ => m3.ops
    have hid : (e.awake r).nextId = r.nextId := rfl
    have hso : (e.awake r).ops = r.ops := rfl
    rw [m3.ops]
    split
    · next hc =>
      cases hl : e.i.lf with
      | none => exact absurd hl (hlf hc.1)
      | some l => exact hD.2 hc.1 hc.2 l hl
    · next hc =>
      have : o.long = false ∨ e.act = 0#64 := by
        cases ho : o.long with
        | false => exact Or.inl rfl
        | true => right; by_contra h'; exact hc ⟨ho, h'⟩
      exact hD.1 this
  · intro y n
    rw [m3.sbCount]
    by_cases hy : y = e.x
    · subst hy
      unfold State.sbCount
      rw [hdx, hctx]
      simp only [Option.map_some, true_and]
      rw [deliverCtx_sb]
      split <;> rfl
    · unfold State.sbCount; rw [hdy y hy, hw y hy]; simp [hy]
  · have r1 := m1.rest hctx
    obtain ⟨f, og, ac⟩ := id D
    have hth : ∀ k n, (d.thread? k n).map Thread.still = ((e.awake r).thread? k n).map Thread.still := D.thread
    have hln : ∀ y n, d.lane? y n = (e.awake r).lane? y n := by
      intro y n
      unfold State.lane?
      by_cases hy : y = e.x
      · subst hy
        rw [hdx, hx]
        have := deliverCtx_place e o (c.wake c.path)
        simp only [Ctx.place, Prod.mk.injEq] at this
        simp only [Option.bind_some, this.1]
      · rw [hdy y hy]
    constructor
    · rw [m3.mem, og.mem, m1.mem]
    · rw [m3.home, og.home, m1.home]
    · rw [m3.launches, og.launches, m1.launches]
    · rw [m3.ctl, og.ctl, m1.ctl]
    · rw [m3.dev, og.dev, m1.dev]
    · rw [m3.turn, og.turn, m1.turn]
    · rw [m3.cur, og.cur, m1.cur]
    · rw [m3.draws, og.draws, m1.draws]
    · rw [m3.recs, og.cores, m1.recs]
    · rw [m3.permits, og.cores, m1.permits]
    · rw [m3.heldLines, og.cores, m1.heldLines]
    · rw [m3.reads, og.cores, m1.reads]
    · intro k; rw [m3.gangs, D.still, m1.gangs]
    · intro k
      rw [m3.groups]
      have : d.group? k = (e.awake r).group? k := by unfold State.group?; rw [og.groups]
      rw [this, m1.groups]
    · intro k n; rw [m3.threads, hth, m1.threads]
    · intro y n; rw [m3.lanes, hln, m1.lanes]
    · intro y n hy
      have hy' : y ≠ e.x ∨ c.path.getLsbD n = false := by
        rcases hy with hy | ⟨c2, hc, hm⟩
        · exact Or.inl hy
        · rw [hctx] at hc; cases hc; exact Or.inr hm
      rw [m3.outside y n hy', hln, m1.outside y n hy']

theorem Env.Base.of_ready {i : Instr} {s : State} {e : Env} (h : Ready i s e) : e.Base s where
  ctx := by
    obtain ⟨c, v, r, hc, he⟩ := (env?_spec h.env).ctx
    refine ⟨c, hc, by rw [he], ?_⟩
    have := Env.calm_spec h.calm
    rw [he] at this ⊢
    exact this
  queues := fun q => by rw [(env?_spec h.env).gang]; rfl

/-- An instruction that issues, delivers `o` and advances has the effect `o`. -/
theorem Env.effect {i : Instr} {s : State} {e : Env} (h : Ready i s e) (o : Out) (hl : o.lanes.Nodup) (h64 : ∀ n ∈ o.lanes, n < 64)
    (hlf : o.long = true → e.i.lf ≠ none) : Effect e s (e.finish (e.deliver (e.awake s) o)) o :=
  e.effect_at (env?_spec h.env) (Env.Base.of_ready h) o hl h64 hlf

theorem Env.lanes_nodup (e : Env) : e.lanes.Nodup := nodup_lanesOf e.act

theorem Env.lanes_lt (e : Env) : ∀ n ∈ e.lanes, n < 64 := by
  intro n hn
  simp only [Env.lanes, lanesOf, List.mem_filter, List.mem_range] at hn
  exact hn.1

/-- A meaning that is done with a delivery delivers. -/
theorem delivers_of_done {i : Instr} {o : State → Env → Out} {b : Env → State → Res} (hx : ∀ s, exec i s = run i s b)
    (hb : ∀ s e, EnvSpec i s e → b e (e.awake s) = .done (e.deliver (e.awake s) (o s e)))
    (hl : ∀ s e, (o s e).lanes = e.lanes ∨ (o s e).lanes = []) (hlf : ∀ s e, (o s e).long = true → i.lf ≠ none) : Delivers i o := by
  intro s e h
  have hs := env?_spec h.env
  refine ⟨_, (hx s).trans (run_done h.env h.goes (hb s e hs)), ?_⟩
  refine e.effect h (o s e) ?_ ?_ (fun hlo => by rw [hs.instr]; exact hlf s e hlo)
  · rcases hl s e with h | h <;> rw [h]
    · exact e.lanes_nodup
    · exact List.nodup_nil
  · rcases hl s e with h | h <;> rw [h]
    · exact e.lanes_lt
    · simp

/-- What `alu` answers for an instruction whose last use is its destination. -/
theorem Env.alu_eq {e : Env} {u : Use} (hu : e.uses.getLast? = some u) (s : State) (f : Nat → List Word × Word) :
    e.alu s f = .done (e.deliver s (e.result u.o u.n f)) := by
  simp only [Env.alu, Env.writeDst, hu]
  rfl

theorem Env.alu1_eq {e : Env} {u : Use} (hu : e.uses.getLast? = some u) (hn : u.n = 1) (s : State) (f : Nat → Word) :
    e.alu1 s f = .done (e.deliver s (e.result1 u.o f)) := by
  have h0 : e.lanes.foldl (fun (x : Word) (_ : Nat) => x ||| 0#32) 0#32 = 0#32 := by
    generalize e.lanes = ls
    induction ls with
    | nil => rfl
    | cons a ls ih => simp
  simp only [Env.alu1, Env.alu, Env.writeDst, hu, hn, h0]
  rfl

/-- What `longWrite` answers for a long form whose last use is its destination. -/
theorem Env.longWrite_eq {e : Env} {u : Use} (hu : e.uses.getLast? = some u) (s : State) (f : Nat → List Word) :
    e.longWrite s f = .done (e.deliver s (e.longResult u.o u.n f)) := by
  simp only [Env.longWrite, Env.writeDst, hu]
  rfl

/-- An instruction whose meaning is `alu` delivers its words and flags. -/
theorem delivers_alu {i : Instr} {d : Opnd} {n : Nat} {f : State → Env → Nat → List Word × Word} (u : Use)
    (hu : i.uses.getLast? = some u) (ho : u.o = d) (hn : u.n = n)
    (hx : ∀ s, exec i s = run i s fun e s => e.alu s (f s e))
    (hf : ∀ s e, f (e.awake s) e = f s e) : Delivers i fun s e => e.result d n (f s e) := by
  refine delivers_of_done hx ?_ (fun _ _ => Or.inl rfl) (fun _ _ h => by cases h)
  intro s e hs
  have : e.uses.getLast? = some u := by unfold Env.uses; rw [hs.instr]; exact hu
  rw [Env.alu_eq this, ho, hn, hf]

end Sys2Proof.Machine
end

