-- ==== Sys2Proof/Laws/Deliver.lean ====
section
/-! SUPPORT. What the shared shapes of a meaning deliver: `alu`, `alu1`, predicates, selects, long forms. -/

namespace Sys2Proof.Machine

/-- `intDeliver` on 32 bits, as the statements say it. -/
theorem intDeliver_deliver32 (sat u : Bool) (x : Int) :
    ([wrap32 (intDeliver sat (!u) 32 x).1], (intDeliver sat (!u) 32 x).2) = deliver32 sat u x := by
  cases sat <;> cases u <;> simp [intDeliver, deliver32, sat32, clamp, intRange, wrap32] <;> split <;> (try split) <;> simp_all

theorem intDeliver_deliver64 (sat : Bool) (x : Int) :
    (dwords (wrap64 (intDeliver sat true 64 x).1), (intDeliver sat true 64 x).2) = deliver64 sat x := by
  cases sat
  · simp [intDeliver, deliver64, wrap64, dwords]
  · simp only [intDeliver, deliver64, sat64, clamp, intRange, wrap64, dwords, if_true]
    have a : (-(2 ^ (64 - 1)) : Int) = -0x8000000000000000 := by decide
    have b : (2 ^ (64 - 1) - 1 : Int) = 0x7FFFFFFFFFFFFFFF := by decide
    rw [a, b]
    split <;> (try split) <;> rfl

theorem asInt_eq (u : Bool) (w : Word) : asInt u w = intOf u w := rfl

/-- The wake of the path leaves what `alu` reads. -/
theorem delivers_alu1 {i : Instr} {d : Opnd} {f : State → Env → Nat → Word} (u : Use)
    (hu : i.uses.getLast? = some u) (ho : u.o = d) (hn : u.n = 1)
    (hx : ∀ s, exec i s = run i s fun e s => e.alu1 s (f s e))
    (hf : ∀ s e, f (e.awake s) e = f s e) : Delivers i fun s e => e.result1 d (f s e) := by
  refine delivers_of_done hx ?_ (fun _ _ => Or.inl rfl) (fun _ _ h => by cases h)
  intro s e hs
  have : e.uses.getLast? = some u := by unfold Env.uses; rw [hs.instr]; exact hu
  rw [Env.alu1_eq this hn, ho, hf]

/-- An `alu` of a pair without flags. -/
theorem Env.result_pair (e : Env) (d : Opnd) (f : Nat → DWord) : e.result d 2 (fun k => (dwords (f k), 0#32)) = e.result2 d f := by
  have h0 : e.lanes.foldl (fun (x : Word) (_ : Nat) => x ||| 0#32) 0#32 = 0#32 := by
    generalize e.lanes = ls
    induction ls with
    | nil => rfl
    | cons a ls ih => simp
  simp only [Env.result, Env.result2, h0, dwords]

theorem delivers_alu2 {i : Instr} {d : Opnd} {f : State → Env → Nat → DWord} (u : Use)
    (hu : i.uses.getLast? = some u) (ho : u.o = d) (hn : u.n = 2)
    (hx : ∀ s, exec i s = run i s fun e s => e.alu s fun n => (dwords (f s e n), 0#32))
    (hf : ∀ s e, f (e.awake s) e = f s e) : Delivers i fun s e => e.result2 d (f s e) := by
  have := delivers_alu (f := fun s e n => (dwords (f s e n), 0#32)) u hu ho hn hx (fun s e => by rw [hf])
  intro s e h
  obtain ⟨t, ht, he⟩ := this s e h
  exact ⟨t, ht, by simpa only [Env.result_pair] using he⟩

/-- A predicate and flags. -/
theorem delivers_pred {i : Instr} {n : BitVec 3} {p : Env → Nat → Bool} {f : Env → Word}
    (hx : ∀ s, exec i s = run i s fun e s => .done (e.flags (e.writePred (e.settle s e.act true) n (p e)) (f e))) :
    Delivers i fun _ e => { pred := some (n, p e), flags := f e } :=
  delivers_of_done hx (fun _ _ _ => rfl) (fun _ _ => Or.inr rfl) (fun _ _ h => by cases h)

/-- Flags of zero are no change. -/
theorem Env.flags_zero (e : Env) (s : State) : e.flags s 0#32 = s := by unfold Env.flags; simp

/-- A predicate alone. -/
theorem delivers_pred0 {i : Instr} {n : BitVec 3} {p : Env → Nat → Bool}
    (hx : ∀ s, exec i s = run i s fun e s => .done (e.writePred (e.settle s e.act true) n (p e))) :
    Delivers i fun _ e => { pred := some (n, p e) } :=
  delivers_of_done hx (fun s e _ => by simp only [Env.deliver, Env.flags_zero]; rfl) (fun _ _ => Or.inr rfl) (fun _ _ h => by cases h)

/-- A long form whose meaning is `longWrite`. -/
theorem delivers_long {i : Instr} {d : Opnd} {n : Nat} {f : State → Env → Nat → List Word} (u : Use)
    (hu : i.uses.getLast? = some u) (ho : u.o = d) (hn : u.n = n) (hl : i.lf ≠ none)
    (hx : ∀ s, exec i s = run i s fun e s => e.longWrite s (f s e))
    (hf : ∀ s e, f (e.awake s) e = f s e) : Delivers i fun s e => e.longResult d n (f s e) := by
  refine delivers_of_done hx ?_ (fun _ _ => Or.inl rfl) (fun _ _ _ => hl)
  intro s e hs
  have : e.uses.getLast? = some u := by unfold Env.uses; rw [hs.instr]; exact hu
  rw [Env.longWrite_eq this, ho, hn, hf]

/-- A meaning that is done with a delivery under a condition. -/
theorem deliversTo_of_done {i : Instr} {ok : State → Env → Prop} {f : Env → State → State} {o : State → Env → Out}
    {b : Env → State → Res} (hx : ∀ s, exec i s = run i s b)
    (hb : ∀ s e, EnvSpec i s e → ok s e → b e (e.awake s) = .done (e.deliver (e.awake (f e s)) (o s e)))
    (hr : ∀ s e, Ready i s e → ok s e → Ready i (f e s) e)
    (hl : ∀ s e, (o s e).lanes = e.lanes ∨ (o s e).lanes = []) (hlf : ∀ s e, (o s e).long = true → i.lf ≠ none) :
    DeliversTo i ok f o := by
  intro s e h hk
  have hs := env?_spec h.env
  have h2 := hr s e h hk
  refine ⟨_, (hx s).trans (run_done h.env h.goes (hb s e hs hk)), ?_⟩
  refine e.effect h2 (o s e) ?_ ?_ (fun hlo => by rw [hs.instr]; exact hlf s e hlo)
  · rcases hl s e with h | h <;> rw [h]
    · exact e.lanes_nodup
    · exact List.nodup_nil
  · rcases hl s e with h | h <;> rw [h]
    · exact e.lanes_lt
    · simp

end Sys2Proof.Machine
end

