-- ==== Sys2Proof/Laws/DeliverTo.lean ====
section
/-! SUPPORT. The effect of an instruction whose meaning first changes the state outside registers: `f e s` in the statements. -/

namespace Sys2Proof.Machine

/-! ### States that keep the base -/

theorem Env.Base.of_gangs {e : Env} {s r : State} (h : e.Base s) (hg : r.gangs = s.gangs) : e.Base r where
  ctx := by
    obtain ⟨c, hc, rest⟩ := h.ctx
    exact ⟨c, by unfold State.ctx? State.gang? at hc ⊢; rw [hg]; exact hc, rest⟩
  queues := fun q => by have := h.queues q; unfold State.gang? at this ⊢; rw [hg]; exact this

theorem Env.Base.updCtx {e : Env} {s : State} (h : e.Base s) (x : Site) (F : Ctx → Ctx) (hp : ∀ c, (F c).path = c.path)
    (hc : ∀ c, s.ctx? e.x = some c → c.calm c.path → (F c).calm c.path) : e.Base (s.updCtx x F) where
  ctx := by
    obtain ⟨c, hx, hq, hm⟩ := h.ctx
    rw [State.ctx?_updCtx, hx]
    split
    · refine ⟨F c, rfl, by rw [hp, hq], ?_⟩
      rcases hm with h | h | h
      · exact Or.inl h
      · exact Or.inr (Or.inl h)
      · refine Or.inr (Or.inr ?_); rw [hp]; exact hc c hx h
    · exact ⟨c, rfl, hq, hm⟩
  queues := fun q => by
    have := h.queues q
    unfold State.updCtx
    rw [State.gang?_updGang']
    cases hg : s.gang? e.x.gang with
    | none => rw [hg] at this; cases this
    | some g =>
      rw [hg] at this
      split <;> simp only [Option.map_some, Gang.updCtx] <;> (try split) <;> exact this

theorem Env.Base.updGang {e : Env} {s : State} (h : e.Base s) (n : Nat) (f : Gang → Gang) (hc : ∀ g a, (f g).ctx? a = g.ctx? a)
    (hq : ∀ g q, (f g).queues.has q = g.queues.has q) : e.Base (s.updGang n f) where
  ctx := by
    obtain ⟨c, hx, rest⟩ := h.ctx
    refine ⟨c, ?_, rest⟩
    rw [State.ctx?_of_gang?] at hx ⊢
    rw [State.gang?_updGang']
    cases hg : s.gang? e.x.gang with
    | none => rw [hg] at hx; cases hx
    | some g =>
      rw [hg] at hx
      split
      · simp only [Option.map_some, Option.bind_some, hc]; exact hx
      · exact hx
  queues := fun q => by
    have := h.queues q
    rw [State.gang?_updGang']
    cases hg : s.gang? e.x.gang with
    | none => rw [hg] at this; cases this
    | some g =>
      rw [hg] at this
      split
      · simp only [Option.map_some, hq]; exact this
      · exact this

theorem Env.Base.updThread {e : Env} {s : State} (h : e.Base s) (n k : Nat) (f : Thread → Thread) : e.Base (s.updThread n k f) :=
  h.updGang n _ (fun _ _ => rfl) (fun _ _ => rfl)

theorem Env.Base.foldl {β : Type} {e : Env} (ls : List β) (f : State → β → State) (hf : ∀ s b, e.Base s → e.Base (f s b)) {s : State}
    (h : e.Base s) : e.Base (ls.foldl f s) := by
  induction ls generalizing s with
  | nil => exact h
  | cons b ls ih => exact ih (hf s b h)

theorem Assoc.put_put_self {α : Type} (t : Assoc α) (k : Nat) (x y : α) : (t.put k x).put k y = t.put k y := by
  induction t with
  | nil => show Assoc.put [(k, x)] k y = [(k, y)]; rw [Assoc.put, if_pos rfl]
  | cons p t ih =>
    obtain ⟨j, z⟩ := p
    rw [Assoc.put, Assoc.put]
    by_cases h : k = j
    · rw [if_pos h, if_pos h, Assoc.put, if_pos rfl]
    · rw [if_neg h, if_neg h]
      by_cases h2 : k < j
      · rw [if_pos h2, if_pos h2, Assoc.put, if_pos rfl]
      · rw [if_neg h2, if_neg h2, Assoc.put, if_neg h, if_neg h2, ih]

theorem Assoc.upd_upd_self {α : Type} (t : Assoc α) (k : Nat) (f g : α → α) : (t.upd k f).upd k g = t.upd k fun x => g (f x) := by
  unfold Assoc.upd
  cases h : t.get? k with
  | none => simp [h]
  | some x => simp [Assoc.put_put_self]

theorem State.updGang_updGang (s : State) (n : Nat) (f g : Gang → Gang) : (s.updGang n f).updGang n g = s.updGang n fun x => g (f x) := by
  simp only [State.updGang, State.setGangs, Assoc.upd_upd_self]

/-- The wake of the path as the first change and as the last. -/
theorem Env.awake_updGang (e : Env) (s : State) (f : Gang → Gang)
    (hf : ∀ g, (f g).updCtx e.x.access (fun c => c.wake c.path) = f (g.updCtx e.x.access fun c => c.wake c.path)) :
    e.awake (s.updGang e.x.gang f) = (e.awake s).updGang e.x.gang f := by
  unfold Env.awake State.updCtx
  rw [State.updGang_updGang, State.updGang_updGang]
  congr 1; funext g; exact hf g

/-- A meaning that changes the state to `f e s` outside registers and then delivers. -/
theorem deliversTo_at {i : Instr} {ok : State → Env → Prop} {f : Env → State → State} {o : State → Env → Out}
    {b : Env → State → Res} (hx : ∀ s, exec i s = run i s b)
    (hb : ∀ s e, Ready i s e → EnvSpec i s e → ok s e → b e (e.awake s) = .done (e.deliver (e.awake (f e s)) (o s e)))
    (hr : ∀ s e, Ready i s e → ok s e → e.Base (f e s))
    (hl : ∀ s e, (o s e).lanes = e.lanes ∨ (o s e).lanes = []) (hlf : ∀ s e, (o s e).long = true → i.lf ≠ none) :
    DeliversTo i ok f o := by
  intro s e h hk
  have hs := env?_spec h.env
  refine ⟨_, (hx s).trans (run_done h.env h.goes (hb s e h hs hk)), ?_⟩
  refine e.effect_at hs (hr s e h hk) (o s e) ?_ ?_ (fun hlo => by rw [hs.instr]; exact hlf s e hlo)
  · rcases hl s e with h | h <;> rw [h]
    · exact e.lanes_nodup
    · exact List.nodup_nil
  · rcases hl s e with h | h <;> rw [h]
    · exact e.lanes_lt
    · simp

end Sys2Proof.Machine
end

