-- ==== Sys2Proof/Laws/Encoding.lean ====
section
/-! SUPPORT. The words of the encoder read back: fields of short and long forms, operands, prefixes, and the two lemmas that
reduce a round trip to one row of the decoder's tables. -/

namespace Sys2Proof

/-! ### Concatenations -/

theorem extract_append_high {n m : Nat} (x : BitVec n) (y : BitVec m) (s k : Nat) (h : m ≤ s) :
    (x ++ y).extractLsb' s k = x.extractLsb' (s - m) k := by
  apply BitVec.eq_of_getLsbD_eq
  intro i hi
  have : ¬ s + i < m := by omega
  simp only [BitVec.getLsbD_extractLsb', BitVec.getLsbD_append, hi, decide_true, Bool.true_and, this, if_false]
  congr 1; omega

theorem extract_append_low {n m : Nat} (x : BitVec n) (y : BitVec m) : (x ++ y).extractLsb' 0 m = y := by
  apply BitVec.eq_of_getLsbD_eq
  intro i hi
  simp [BitVec.getLsbD_append, hi]

theorem bit_append_high {n m : Nat} (x : BitVec n) (y : BitVec m) (s : Nat) (h : m ≤ s) :
    (x ++ y).getLsbD s = x.getLsbD (s - m) := by
  have : ¬ s < m := by omega
  simp [BitVec.getLsbD_append, this]

theorem bit_append_bool {n : Nat} (x : BitVec n) (b : Bool) : (x ++ BitVec.ofBool b).getLsbD 0 = b := by
  rw [BitVec.getLsbD_append]; simp

/-! ### Words and their fields -/

theorem Short.ofWord_toWord (f : Short) : Short.ofWord f.toWord = f := by
  obtain ⟨page, op, d, fa, a, fb, b⟩ := f
  simp only [Short.ofWord, Short.toWord, Short.mk.injEq]
  refine ⟨?_, ?_, ?_, ?_, ?_, ?_, ?_⟩
  · exact (bit_append_high _ _ _ (by decide)).trans <| (bit_append_high _ _ _ (by decide)).trans <|
      (bit_append_high _ _ _ (by decide)).trans <| (bit_append_high _ _ _ (by decide)).trans <|
      (bit_append_high _ _ _ (by decide)).trans <| (bit_append_high _ _ _ (by decide)).trans <| bit_append_bool _ _
  · exact (extract_append_high _ _ _ _ (by decide)).trans <| (extract_append_high _ _ _ _ (by decide)).trans <|
      (extract_append_high _ _ _ _ (by decide)).trans <| (extract_append_high _ _ _ _ (by decide)).trans <|
      (extract_append_high _ _ _ _ (by decide)).trans <| extract_append_low _ _
  · exact (extract_append_high _ _ _ _ (by decide)).trans <| (extract_append_high _ _ _ _ (by decide)).trans <|
      (extract_append_high _ _ _ _ (by decide)).trans <| (extract_append_high _ _ _ _ (by decide)).trans <| extract_append_low _ _
  · exact (bit_append_high _ _ _ (by decide)).trans <| (bit_append_high _ _ _ (by decide)).trans <|
      (bit_append_high _ _ _ (by decide)).trans <| bit_append_bool _ _
  · exact (extract_append_high _ _ _ _ (by decide)).trans <| (extract_append_high _ _ _ _ (by decide)).trans <| extract_append_low _ _
  · exact (bit_append_high _ _ _ (by decide)).trans <| bit_append_bool _ _
  · exact extract_append_low _ _

theorem Long.ofWords_words (f : Long) : Long.ofWords f.word0 f.word1 = f := by
  obtain ⟨op, d, a, b, sb, la, ha, hb, hc, c, imm⟩ := f
  simp only [Long.ofWords, Long.word0, Long.word1, Long.mk.injEq]
  refine ⟨?_, ?_, ?_, ?_, ?_, ?_, ?_, ?_, ?_, ?_, ?_⟩
  · exact (extract_append_high _ _ _ _ (by decide)).trans <| (extract_append_high _ _ _ _ (by decide)).trans <|
      (extract_append_high _ _ _ _ (by decide)).trans <| (extract_append_high _ _ _ _ (by decide)).trans <| extract_append_low _ _
  · exact (extract_append_high _ _ _ _ (by decide)).trans <| (extract_append_high _ _ _ _ (by decide)).trans <|
      (extract_append_high _ _ _ _ (by decide)).trans <| extract_append_low _ _
  · exact (extract_append_high _ _ _ _ (by decide)).trans <| (extract_append_high _ _ _ _ (by decide)).trans <| extract_append_low _ _
  · exact (extract_append_high _ _ _ _ (by decide)).trans <| extract_append_low _ _
  · exact extract_append_low _ _
  · refine (extract_append_high _ _ _ _ (by decide)).trans <| (extract_append_high _ _ _ _ (by decide)).trans <|
      (extract_append_high _ _ _ _ (by decide)).trans <| (extract_append_high _ _ _ _ (by decide)).trans <|
      (extract_append_high _ _ _ _ (by decide)).trans ?_
    simp
  · exact (extract_append_high _ _ _ _ (by decide)).trans <| (extract_append_high _ _ _ _ (by decide)).trans <|
      (extract_append_high _ _ _ _ (by decide)).trans <| (extract_append_high _ _ _ _ (by decide)).trans <| extract_append_low _ _
  · exact (extract_append_high _ _ _ _ (by decide)).trans <| (extract_append_high _ _ _ _ (by decide)).trans <|
      (extract_append_high _ _ _ _ (by decide)).trans <| extract_append_low _ _
  · exact (extract_append_high _ _ _ _ (by decide)).trans <| (extract_append_high _ _ _ _ (by decide)).trans <| extract_append_low _ _
  · exact (extract_append_high _ _ _ _ (by decide)).trans <| extract_append_low _ _
  · exact extract_append_low _ _

theorem Mod.ofWord_toWord (m : Mod) : Mod.ofWord m.toWord = m := by
  obtain ⟨rnd, sat, pe, pn, pk, flo⟩ := m
  simp only [Mod.ofWord, Mod.toWord, Mod.mk.injEq]
  refine ⟨?_, ?_, ?_, ?_, ?_, ?_⟩
  · exact (extract_append_high _ _ _ _ (by decide)).trans <| (extract_append_high _ _ _ _ (by decide)).trans <|
      (extract_append_high _ _ _ _ (by decide)).trans <| (extract_append_high _ _ _ _ (by decide)).trans <|
      (extract_append_high _ _ _ _ (by decide)).trans <| (extract_append_high _ _ _ _ (by decide)).trans <| extract_append_low _ _
  · exact (bit_append_high _ _ _ (by decide)).trans <| (bit_append_high _ _ _ (by decide)).trans <|
      (bit_append_high _ _ _ (by decide)).trans <| (bit_append_high _ _ _ (by decide)).trans <|
      (bit_append_high _ _ _ (by decide)).trans <| bit_append_bool _ _
  · exact (bit_append_high _ _ _ (by decide)).trans <| (bit_append_high _ _ _ (by decide)).trans <|
      (bit_append_high _ _ _ (by decide)).trans <| (bit_append_high _ _ _ (by decide)).trans <| bit_append_bool _ _
  · exact (bit_append_high _ _ _ (by decide)).trans <| (bit_append_high _ _ _ (by decide)).trans <|
      (bit_append_high _ _ _ (by decide)).trans <| bit_append_bool _ _
  · exact (extract_append_high _ _ _ _ (by decide)).trans <| (extract_append_high _ _ _ _ (by decide)).trans <| extract_append_low _ _
  · exact (bit_append_high _ _ _ (by decide)).trans <| bit_append_bool _ _

theorem modReserved_toWord (m : Mod) : modReserved m.toWord = decide (6 ≤ m.rnd.toNat) := by
  have h : (m.toWord.extractLsb' 24 3) = m.rnd := congrArg Mod.rnd (Mod.ofWord_toWord m)
  have h0 : m.toWord.extractLsb' 0 17 = 0#17 := extract_append_low _ _
  simp [modReserved, h, h0]

theorem immWord_payload (x : BitVec 27) : (immWord x).extractLsb' 0 27 = x := extract_append_low _ _

/-! ### Kinds of words (02:R36) -/

theorem wordKind_short (f : Short) : wordKind f.toWord = .short := by
  have h : f.toWord.toNat < 2 ^ 31 := by
    have e : (f.toWord.extractLsb' 31 1) = 0#1 := by
      refine (extract_append_high _ _ _ _ (by decide)).trans <| (extract_append_high _ _ _ _ (by decide)).trans <|
        (extract_append_high _ _ _ _ (by decide)).trans <| (extract_append_high _ _ _ _ (by decide)).trans <|
        (extract_append_high _ _ _ _ (by decide)).trans <| (extract_append_high _ _ _ _ (by decide)).trans <|
        (extract_append_high _ _ _ _ (by decide)).trans ?_
      simp
    have e := congrArg BitVec.toNat e
    simp [BitVec.extractLsb'_toNat, Nat.shiftRight_eq_div_pow] at e
    have := f.toWord.isLt
    omega
  have k : (f.toWord.extractLsb' 28 4).toNat < 8 := by
    simp only [BitVec.extractLsb'_toNat, Nat.shiftRight_eq_div_pow]; omega
  simp only [wordKind, k, if_true]

theorem wordKind_long (f : Long) : wordKind f.word0 = .long := by
  have e : (f.word0.extractLsb' 30 2) = 0b10#2 := by
    refine (extract_append_high _ _ _ _ (by decide)).trans <| (extract_append_high _ _ _ _ (by decide)).trans <|
      (extract_append_high _ _ _ _ (by decide)).trans <| (extract_append_high _ _ _ _ (by decide)).trans <|
      (extract_append_high _ _ _ _ (by decide)).trans ?_
    simp
  have e := congrArg BitVec.toNat e
  simp only [BitVec.extractLsb'_toNat, Nat.shiftRight_eq_div_pow] at e
  have := f.word0.isLt
  have k : 8 ≤ (f.word0.extractLsb' 28 4).toNat ∧ (f.word0.extractLsb' 28 4).toNat < 12 := by
    simp only [BitVec.extractLsb'_toNat, Nat.shiftRight_eq_div_pow]
    simp at e
    omega
  simp only [wordKind, k.2, Nat.not_lt.2 k.1, if_true, if_false]

theorem wordKind_imm (x : BitVec 27) : wordKind (immWord x) = .im := by
  have e : ((immWord x).extractLsb' 27 5) = 0b11001#5 := by
    refine (extract_append_high _ _ _ _ (by decide)).trans ?_
    simp
  have e := congrArg BitVec.toNat e
  simp only [BitVec.extractLsb'_toNat, Nat.shiftRight_eq_div_pow] at e
  simp at e
  have k : ((immWord x).extractLsb' 28 4).toNat = 12 := by
    simp only [BitVec.extractLsb'_toNat, Nat.shiftRight_eq_div_pow]; omega
  have b : (immWord x).getLsbD 27 = true := (bit_append_high _ _ _ (by decide)).trans (by decide)
  simp only [wordKind, k, b]; decide

theorem wordKind_mod (m : Mod) : wordKind m.toWord = .md := by
  have e : (m.toWord.extractLsb' 27 5) = 0b11000#5 := by
    refine (extract_append_high _ _ _ _ (by decide)).trans <| (extract_append_high _ _ _ _ (by decide)).trans <|
      (extract_append_high _ _ _ _ (by decide)).trans <| (extract_append_high _ _ _ _ (by decide)).trans <|
      (extract_append_high _ _ _ _ (by decide)).trans <| (extract_append_high _ _ _ _ (by decide)).trans <|
      (extract_append_high _ _ _ _ (by decide)).trans ?_
    simp
  have e := congrArg BitVec.toNat e
  simp only [BitVec.extractLsb'_toNat, Nat.shiftRight_eq_div_pow] at e
  simp at e
  have k : (m.toWord.extractLsb' 28 4).toNat = 12 := by
    simp only [BitVec.extractLsb'_toNat, Nat.shiftRight_eq_div_pow]; omega
  have b : m.toWord.getLsbD 27 = false := by
    refine (bit_append_high _ _ _ (by decide)).trans <| (bit_append_high _ _ _ (by decide)).trans <|
      (bit_append_high _ _ _ (by decide)).trans <| (bit_append_high _ _ _ (by decide)).trans <|
      (bit_append_high _ _ _ (by decide)).trans <| (bit_append_high _ _ _ (by decide)).trans <|
      (bit_append_high _ _ _ (by decide)).trans (by decide)
  simp only [wordKind, k, b]; decide

/-! ### Prefixes -/

/-- A result of the decoder's tables after a MOD word. -/
theorem decodeRaw_pfx (p : Pfx) (w : Word) (rest : List Word) (hw : wordKind w = .short ∨ wordKind w = .long)
    (hm : ∀ m, p.md = some m → m.rnd.toNat < 6) :
    decodeRaw (p.words ++ w :: rest) = decodeBody p w rest p.words.length := by
  obtain ⟨md, im⟩ := p
  cases md with
  | none =>
    cases im with
    | none => rcases hw with h | h <;> simp [Pfx.words, decodeRaw, h]
    | some x => rcases hw with h | h <;> simp [Pfx.words, decodeRaw, h, wordKind_imm, immWord_payload]
  | some m =>
    have hr : modReserved m.toWord = false := by
      rw [modReserved_toWord]; have := hm m rfl; simp; omega
    cases im with
    | none => rcases hw with h | h <;> simp [Pfx.words, decodeRaw, h, wordKind_mod, hr, Mod.ofWord_toWord]
    | some x =>
      rcases hw with h | h <;>
        simp [Pfx.words, decodeRaw, h, wordKind_mod, wordKind_imm, hr, Mod.ofWord_toWord, immWord_payload]

/-- The MOD prefix of a well-formed instruction names no reserved rounding mode. -/
theorem Pfx.rnd_lt (p : Pfx) (a : Acc) (h : p.reasons a = []) : ∀ m, p.md = some m → m.rnd.toNat < 6 := by
  intro m hm
  obtain ⟨md, im⟩ := p
  cases hm
  simp only [Pfx.reasons, List.append_eq_nil_iff] at h
  have := h.1.1
  by_contra hc
  simp [Nat.not_lt.1 hc] at this

/-! ### From a row of the tables to the round trip -/

/-- The words of the encoder decode to the instruction they stand for, in any clause where it is well-formed and whatever
follows them. -/
def RoundTrip (i : Instr) : Prop :=
  ∀ (stroke : Bool) (rest : List Word), i.isEvent = false → i.static stroke = [] →
    ∃ ws, encode i = some ws ∧ decode stroke (ws ++ rest) = .ok (i, ws.length)

theorem roundTrip_short {i : Instr} {f : Short} (he : encodeShort i = some f)
    (hd : ∀ stroke, i.static stroke = [] → (if f.page then decodeB i.pfx f else decodeA i.pfx f) = .instr i []) : RoundTrip i := by
  intro stroke rest _ hs
  refine ⟨i.pfx.words ++ [f.toWord], by simp [encode, Instr.body, he], ?_⟩
  have hp : i.pfx.reasons i.acc = [] := by
    simp only [Instr.static, List.append_eq_nil_iff] at hs; exact hs.1.1
  have hr := decodeRaw_pfx i.pfx f.toWord rest (Or.inl (wordKind_short f)) (Pfx.rnd_lt _ _ hp)
  simp only [List.append_assoc, List.cons_append, List.nil_append]
  rw [decode, hr]
  simp only [decodeBody, wordKind_short, Short.ofWord_toWord, hd stroke hs, List.nil_append, hs, Reason.lowest]
  simp

theorem roundTrip_long {i : Instr} {f : Long} (he : encodeLong i = some f) (hn : encodeShort i = none)
    (hd : ∀ stroke, i.static stroke = [] → decodeL i.pfx f = .instr i []) : RoundTrip i := by
  intro stroke rest _ hs
  refine ⟨i.pfx.words ++ [f.word0, f.word1], by simp [encode, Instr.body, he, hn], ?_⟩
  have hp : i.pfx.reasons i.acc = [] := by
    simp only [Instr.static, List.append_eq_nil_iff] at hs; exact hs.1.1
  have hr := decodeRaw_pfx i.pfx f.word0 (f.word1 :: rest) (Or.inr (wordKind_long f)) (Pfx.rnd_lt _ _ hp)
  simp only [List.append_assoc, List.cons_append, List.nil_append]
  rw [decode, hr]
  simp only [decodeBody, wordKind_long, Long.ofWords_words, hd stroke hs, Fate.hinted, List.nil_append, hs, Reason.lowest]
  simp

/-- An event has no words. -/
theorem roundTrip_event {i : Instr} (h : i.isEvent = true) : RoundTrip i := by
  intro _ _ h' _
  rw [h] at h'; cases h'

/-! ### Operands and fields of shapes -/

@[simp] theorem Opnd.ofCode_code (o : Opnd) : Opnd.ofCode o.code = o := by
  cases o with
  | v n => revert n; decide
  | s n => revert n; decide
  | c n => revert n; decide
  | q n => revert n; decide

@[simp] theorem Hint.ofBits_bits (h : Hint) : Hint.ofBits h.bits = h := by cases h <;> rfl
@[simp] theorem hr_bits (h : Hint) : hr h.bits = [] := by cases h <;> rfl

@[simp] theorem imm8_parts (i : BitVec 8) : BitVec.ofBool i[7] ++ i.extractLsb' 0 7 = i := by revert i; decide
@[simp] theorem d64_of (c n : BitVec 3) : (c ++ 0#1 ++ n : BitVec 7).extractLsb' 4 3 = c := by revert c n; decide
@[simp] theorem d20_of (c n : BitVec 3) : (c ++ 0#1 ++ n : BitVec 7).extractLsb' 0 3 = n := by revert c n; decide
@[simp] theorem d3_of (c n : BitVec 3) : (c ++ 0#1 ++ n : BitVec 7)[3] = false := by revert c n; decide
@[simp] theorem pred_x (x : Bool) (n : BitVec 3) : (encPred x n)[3] = x := by revert x n; decide
@[simp] theorem pred_n (x : Bool) (n : BitVec 3) : (encPred x n).extractLsb' 0 3 = n := by revert x n; decide
@[simp] theorem pred_z (x : Bool) (n : BitVec 3) : Short.zPred (encPred x n) = [] := by revert x n; decide

/-! ### Fields of the immediates, by shape -/

theorem zero_append_lt {n m : Nat} (y : BitVec m) : (0#n ++ y).toNat < 2 ^ m := by
  rw [BitVec.toNat_append]; simpa using y.isLt

theorem append_lt {n m k : Nat} {x : BitVec n} (h : x.toNat < 2 ^ k) (y : BitVec m) : (x ++ y).toNat < 2 ^ (k + m) := by
  have := y.isLt
  rw [BitVec.toNat_append, ← Nat.shiftLeft_add_eq_or_of_lt this, Nat.shiftLeft_eq, Nat.pow_add]
  have : x.toNat + 1 ≤ 2 ^ k := h
  calc x.toNat * 2 ^ m + y.toNat < (x.toNat + 1) * 2 ^ m := by rw [Nat.add_mul]; omega
    _ ≤ 2 ^ k * 2 ^ m := Nat.mul_le_mul_right _ this

@[simp] theorem imm_mem_8 (o : BitVec 7) (s : BitVec 3) (r : BitVec 2) (c : BitVec 3) : (o ++ s ++ r ++ c : BitVec 15).extractLsb' 8 7 = o := by
  refine (extract_append_high _ _ _ _ (by decide)).trans <| (extract_append_high _ _ _ _ (by decide)).trans <| (extract_append_high _ _ _ _ (by decide)).trans ?_; simp
@[simp] theorem imm_mem_5 (o : BitVec 7) (s : BitVec 3) (r : BitVec 2) (c : BitVec 3) : (o ++ s ++ r ++ c : BitVec 15).extractLsb' 5 3 = s := by
  exact (extract_append_high _ _ _ _ (by decide)).trans <| (extract_append_high _ _ _ _ (by decide)).trans <| extract_append_low _ _
@[simp] theorem imm_mem_3 (o : BitVec 7) (s : BitVec 3) (r : BitVec 2) (c : BitVec 3) : (o ++ s ++ r ++ c : BitVec 15).extractLsb' 3 2 = r := by
  exact (extract_append_high _ _ _ _ (by decide)).trans <| extract_append_low _ _
@[simp] theorem imm_mem_0 (o : BitVec 7) (s : BitVec 3) (r : BitVec 2) (c : BitVec 3) : (o ++ s ++ r ++ c : BitVec 15).extractLsb' 0 3 = c := by
  exact extract_append_low _ _
@[simp] theorem imm_fence_8 (s : BitVec 3) (r : BitVec 2) : (0#7 ++ s ++ r ++ 0#3 : BitVec 15).extractLsb' 8 7 = 0#7 := by revert s r; decide
@[simp] theorem imm_fence_5 (s : BitVec 3) (r : BitVec 2) : (0#7 ++ s ++ r ++ 0#3 : BitVec 15).extractLsb' 5 3 = s := by revert s r; decide
@[simp] theorem imm_fence_3 (s : BitVec 3) (r : BitVec 2) : (0#7 ++ s ++ r ++ 0#3 : BitVec 15).extractLsb' 3 2 = r := by revert s r; decide
@[simp] theorem imm_fence_0 (s : BitVec 3) (r : BitVec 2) : (0#7 ++ s ++ r ++ 0#3 : BitVec 15).extractLsb' 0 3 = 0#3 := by revert s r; decide
@[simp] theorem imm_cv_0 (x : BitVec 3) : (0#12 ++ x : BitVec 15).extractLsb' 0 3 = x := by revert x; decide
@[simp] theorem imm_cv_bit3 (x : BitVec 3) : (0#12 ++ x : BitVec 15)[3] = false := by revert x; decide
@[simp] theorem imm_cv_lt3 (x : BitVec 3) : (0#12 ++ x : BitVec 15).toNat < 8 := by revert x; decide
@[simp] theorem imm_cv_lt4 (x : BitVec 3) : (0#12 ++ x : BitVec 15).toNat < 16 := by revert x; decide
@[simp] theorem imm_tok_0 (x : BitVec 3) : (0#11 ++ 1#1 ++ x : BitVec 15).extractLsb' 0 3 = x := by revert x; decide
@[simp] theorem imm_tok_bit3 (x : BitVec 3) : (0#11 ++ 1#1 ++ x : BitVec 15)[3] = true := by revert x; decide
@[simp] theorem imm_tok_lt4 (x : BitVec 3) : (0#11 ++ 1#1 ++ x : BitVec 15).toNat < 16 := by revert x; decide
@[simp] theorem imm_fmtres_0 (b : Bool) (w : BitVec 2) (f : BitVec 4) : (0#8 ++ BitVec.ofBool b ++ w ++ f : BitVec 15).extractLsb' 0 4 = f := by revert b w f; decide
@[simp] theorem imm_fmtres_4 (b : Bool) (w : BitVec 2) (f : BitVec 4) : (0#8 ++ BitVec.ofBool b ++ w ++ f : BitVec 15).extractLsb' 4 2 = w := by revert b w f; decide
@[simp] theorem imm_fmtres_bit6 (b : Bool) (w : BitVec 2) (f : BitVec 4) : (0#8 ++ BitVec.ofBool b ++ w ++ f : BitVec 15)[6] = b := by revert b w f; decide
@[simp] theorem imm_fmtres_lt7 (b : Bool) (w : BitVec 2) (f : BitVec 4) : (0#8 ++ BitVec.ofBool b ++ w ++ f : BitVec 15).toNat < 128 := by revert b w f; decide
@[simp] theorem imm_bit0_bit0 (b : Bool) : (0#14 ++ BitVec.ofBool b : BitVec 15)[0] = b := by revert b; decide
@[simp] theorem imm_bit0_lt1 (b : Bool) : (0#14 ++ BitVec.ofBool b : BitVec 15).toNat < 2 := by revert b; decide
@[simp] theorem imm_mrd_0 (w : BitVec 2) (t : BitVec 7) : (0#6 ++ w ++ t : BitVec 15).extractLsb' 0 7 = t := by revert w t; decide
@[simp] theorem imm_mrd_7 (w : BitVec 2) (t : BitVec 7) : (0#6 ++ w ++ t : BitVec 15).extractLsb' 7 2 = w := by revert w t; decide
@[simp] theorem imm_mrd_lt9 (w : BitVec 2) (t : BitVec 7) : (0#6 ++ w ++ t : BitVec 15).toNat < 512 := by revert w t; decide
@[simp] theorem imm_mclr_0 (b : Bool) (t : BitVec 7) : (0#7 ++ BitVec.ofBool b ++ t : BitVec 15).extractLsb' 0 7 = t := by revert b t; decide
@[simp] theorem imm_mclr_bit7 (b : Bool) (t : BitVec 7) : (0#7 ++ BitVec.ofBool b ++ t : BitVec 15)[7] = b := by revert b t; decide
@[simp] theorem imm_mclr_lt8 (b : Bool) (t : BitVec 7) : (0#7 ++ BitVec.ofBool b ++ t : BitVec 15).toNat < 256 := by revert b t; decide
@[simp] theorem imm_mqnt_0 (b : Bool) (x : Bool) (y : Bool) (t : BitVec 7) : (0#5 ++ BitVec.ofBool b ++ BitVec.ofBool x ++ BitVec.ofBool y ++ t : BitVec 15).extractLsb' 0 7 = t := by
  exact extract_append_low _ _
@[simp] theorem imm_mqnt_bit9 (b : Bool) (x : Bool) (y : Bool) (t : BitVec 7) : (0#5 ++ BitVec.ofBool b ++ BitVec.ofBool x ++ BitVec.ofBool y ++ t : BitVec 15)[9] = b := by
  rw [← BitVec.getLsbD_eq_getElem]; exact (bit_append_high _ _ _ (by decide)).trans <| (bit_append_high _ _ _ (by decide)).trans <| (bit_append_high _ _ _ (by decide)).trans <| bit_append_bool _ _
@[simp] theorem imm_mqnt_bit8 (b : Bool) (x : Bool) (y : Bool) (t : BitVec 7) : (0#5 ++ BitVec.ofBool b ++ BitVec.ofBool x ++ BitVec.ofBool y ++ t : BitVec 15)[8] = x := by
  rw [← BitVec.getLsbD_eq_getElem]; exact (bit_append_high _ _ _ (by decide)).trans <| (bit_append_high _ _ _ (by decide)).trans <| bit_append_bool _ _
@[simp] theorem imm_mqnt_bit7 (b : Bool) (x : Bool) (y : Bool) (t : BitVec 7) : (0#5 ++ BitVec.ofBool b ++ BitVec.ofBool x ++ BitVec.ofBool y ++ t : BitVec 15)[7] = y := by
  rw [← BitVec.getLsbD_eq_getElem]; exact (bit_append_high _ _ _ (by decide)).trans <| bit_append_bool _ _
@[simp] theorem imm_mqnt_lt10 (b : Bool) (x : Bool) (y : Bool) (t : BitVec 7) : (0#5 ++ BitVec.ofBool b ++ BitVec.ofBool x ++ BitVec.ofBool y ++ t : BitVec 15).toNat < 1024 := (append_lt ((append_lt ((append_lt (zero_append_lt _) _)) _)) _)
@[simp] theorem imm_qset_0 (n : BitVec 5) (q : BitVec 3) : (0#7 ++ n ++ q : BitVec 15).extractLsb' 0 3 = q := by revert n q; decide
@[simp] theorem imm_qset_3 (n : BitVec 5) (q : BitVec 3) : (0#7 ++ n ++ q : BitVec 15).extractLsb' 3 5 = n := by revert n q; decide
@[simp] theorem imm_qset_lt8 (n : BitVec 5) (q : BitVec 3) : (0#7 ++ n ++ q : BitVec 15).toNat < 256 := by revert n q; decide
@[simp] theorem imm_qcount_0 (k : BitVec 2) (q : BitVec 3) : (0#10 ++ k ++ q : BitVec 15).extractLsb' 0 3 = q := by revert k q; decide
@[simp] theorem imm_qcount_3 (k : BitVec 2) (q : BitVec 3) : (0#10 ++ k ++ q : BitVec 15).extractLsb' 3 2 = k := by revert k q; decide
@[simp] theorem imm_qcount_lt5 (k : BitVec 2) (q : BitVec 3) : (0#10 ++ k ++ q : BitVec 15).toNat < 32 := by revert k q; decide
@[simp] theorem imm_pw_0 (p : BitVec 4) : (0#11 ++ p : BitVec 15).extractLsb' 0 4 = p := by revert p; decide
@[simp] theorem imm_pw_lt4 (p : BitVec 4) : (0#11 ++ p : BitVec 15).toNat < 16 := by revert p; decide
@[simp] theorem imm_rcrd_0 (b : Bool) (k : BitVec 3) : (0#11 ++ BitVec.ofBool b ++ k : BitVec 15).extractLsb' 0 3 = k := by revert b k; decide
@[simp] theorem imm_rcrd_bit3 (b : Bool) (k : BitVec 3) : (0#11 ++ BitVec.ofBool b ++ k : BitVec 15)[3] = b := by revert b k; decide
@[simp] theorem imm_rcrd_lt4 (b : Bool) (k : BitVec 3) : (0#11 ++ BitVec.ofBool b ++ k : BitVec 15).toNat < 16 := by revert b k; decide
@[simp] theorem imm_bar_0 (k : BitVec 6) (b : Bool) (n : BitVec 4) : (0#4 ++ k ++ BitVec.ofBool b ++ n : BitVec 15).extractLsb' 0 4 = n := by
  exact extract_append_low _ _
@[simp] theorem imm_bar_5 (k : BitVec 6) (b : Bool) (n : BitVec 4) : (0#4 ++ k ++ BitVec.ofBool b ++ n : BitVec 15).extractLsb' 5 6 = k := by
  exact (extract_append_high _ _ _ _ (by decide)).trans <| (extract_append_high _ _ _ _ (by decide)).trans <| extract_append_low _ _
@[simp] theorem imm_bar_bit4 (k : BitVec 6) (b : Bool) (n : BitVec 4) : (0#4 ++ k ++ BitVec.ofBool b ++ n : BitVec 15)[4] = b := by
  rw [← BitVec.getLsbD_eq_getElem]; exact (bit_append_high _ _ _ (by decide)).trans <| bit_append_bool _ _
@[simp] theorem imm_bar_lt11 (k : BitVec 6) (b : Bool) (n : BitVec 4) : (0#4 ++ k ++ BitVec.ofBool b ++ n : BitVec 15).toNat < 2048 := (append_lt ((append_lt (zero_append_lt _) _)) _)
@[simp] theorem imm_barw_0 (b : Bool) (n : BitVec 4) : (0#10 ++ BitVec.ofBool b ++ n : BitVec 15).extractLsb' 0 4 = n := by revert b n; decide
@[simp] theorem imm_barw_bit4 (b : Bool) (n : BitVec 4) : (0#10 ++ BitVec.ofBool b ++ n : BitVec 15)[4] = b := by revert b n; decide
@[simp] theorem imm_barw_lt5 (b : Bool) (n : BitVec 4) : (0#10 ++ BitVec.ofBool b ++ n : BitVec 15).toNat < 32 := by revert b n; decide
@[simp] theorem imm_soft0_0 (k : BitVec 12) : (0b000#3 ++ k : BitVec 15).extractLsb' 0 12 = k := by
  exact extract_append_low _ _
@[simp] theorem imm_soft0_13 (k : BitVec 12) : (0b000#3 ++ k : BitVec 15).extractLsb' 13 2 = 0#2 := by
  refine (extract_append_high _ _ _ _ (by decide)).trans ?_; decide
@[simp] theorem imm_soft0_bit12 (k : BitVec 12) : (0b000#3 ++ k : BitVec 15)[12] = false := by
  rw [← BitVec.getLsbD_eq_getElem]; exact (bit_append_high _ _ _ (by decide)).trans <| (by decide)
@[simp] theorem imm_soft0_lt12 (k : BitVec 12) : (0b000#3 ++ k : BitVec 15).toNat < 4096 := zero_append_lt _
@[simp] theorem imm_soft1_0 (k : BitVec 12) : (0b001#3 ++ k : BitVec 15).extractLsb' 0 12 = k := by
  exact extract_append_low _ _
@[simp] theorem imm_soft1_13 (k : BitVec 12) : (0b001#3 ++ k : BitVec 15).extractLsb' 13 2 = 0#2 := by
  refine (extract_append_high _ _ _ _ (by decide)).trans ?_; decide
@[simp] theorem imm_soft1_bit12 (k : BitVec 12) : (0b001#3 ++ k : BitVec 15)[12] = true := by
  rw [← BitVec.getLsbD_eq_getElem]; exact (bit_append_high _ _ _ (by decide)).trans <| (by decide)
@[simp] theorem imm_gst_0 (k : BitVec 8) : (0b100#3 ++ 0#4 ++ k : BitVec 15).extractLsb' 0 8 = k := by revert k; decide
@[simp] theorem imm_gst_13 (k : BitVec 8) : (0b100#3 ++ 0#4 ++ k : BitVec 15).extractLsb' 13 2 = 2#2 := by revert k; decide
@[simp] theorem imm_gst_8 (k : BitVec 8) : (0b100#3 ++ 0#4 ++ k : BitVec 15).extractLsb' 8 4 = 0#4 := by revert k; decide
@[simp] theorem imm_gst_bit12 (k : BitVec 8) : (0b100#3 ++ 0#4 ++ k : BitVec 15)[12] = false := by revert k; decide
@[simp] theorem imm_sys_0 (n : BitVec 8) : (0#7 ++ n : BitVec 15).extractLsb' 0 8 = n := by revert n; decide
@[simp] theorem imm_sys_lt8 (n : BitVec 8) : (0#7 ++ n : BitVec 15).toNat < 256 := by revert n; decide
@[simp] theorem imm_pmrd_0 (b : Bool) (k : BitVec 4) (n : BitVec 2) : (0#8 ++ BitVec.ofBool b ++ k ++ n : BitVec 15).extractLsb' 0 2 = n := by revert b k n; decide
@[simp] theorem imm_pmrd_2 (b : Bool) (k : BitVec 4) (n : BitVec 2) : (0#8 ++ BitVec.ofBool b ++ k ++ n : BitVec 15).extractLsb' 2 4 = k := by revert b k n; decide
@[simp] theorem imm_pmrd_bit6 (b : Bool) (k : BitVec 4) (n : BitVec 2) : (0#8 ++ BitVec.ofBool b ++ k ++ n : BitVec 15)[6] = b := by revert b k n; decide
@[simp] theorem imm_pmrd_lt7 (b : Bool) (k : BitVec 4) (n : BitVec 2) : (0#8 ++ BitVec.ofBool b ++ k ++ n : BitVec 15).toNat < 128 := by revert b k n; decide
@[simp] theorem imm_two_0 (n : BitVec 2) : (0#13 ++ n : BitVec 15).extractLsb' 0 2 = n := by revert n; decide
@[simp] theorem imm_two_lt2 (n : BitVec 2) : (0#13 ++ n : BitVec 15).toNat < 4 := by revert n; decide
@[simp] theorem fld_k4_0 (k : BitVec 3) : (0#4 ++ k : BitVec 7).extractLsb' 0 3 = k := by revert k; decide
@[simp] theorem fld_k4_3 (k : BitVec 3) : (0#4 ++ k : BitVec 7).extractLsb' 3 4 = 0#4 := by revert k; decide
@[simp] theorem fld_b6_1 (b : Bool) : (0#6 ++ BitVec.ofBool b : BitVec 7).extractLsb' 1 6 = 0#6 := by revert b; decide
@[simp] theorem fld_b6_bit0 (b : Bool) : (0#6 ++ BitVec.ofBool b : BitVec 7)[0] = b := by revert b; decide
@[simp] theorem fld_c4_4 (c : BitVec 3) : (c ++ 0#4 : BitVec 7).extractLsb' 4 3 = c := by revert c; decide
@[simp] theorem fld_c4_0 (c : BitVec 3) : (c ++ 0#4 : BitVec 7).extractLsb' 0 4 = 0#4 := by revert c; decide
@[simp] theorem fld_bk_4 (m : BitVec 3) (b : Bool) (n : BitVec 3) : (m ++ BitVec.ofBool b ++ n : BitVec 7).extractLsb' 4 3 = m := by revert m b n; decide
@[simp] theorem fld_bk_0 (m : BitVec 3) (b : Bool) (n : BitVec 3) : (m ++ BitVec.ofBool b ++ n : BitVec 7).extractLsb' 0 3 = n := by revert m b n; decide
@[simp] theorem fld_bk_bit3 (m : BitVec 3) (b : Bool) (n : BitVec 3) : (m ++ BitVec.ofBool b ++ n : BitVec 7)[3] = b := by revert m b n; decide
@[simp] theorem fld_wait_0 (b : Bool) (x : Bool) (k : BitVec 4) : (0#2 ++ BitVec.ofBool b ++ BitVec.ofBool x ++ k : BitVec 8).extractLsb' 0 4 = k := by revert b x k; decide
@[simp] theorem fld_wait_bit5 (b : Bool) (x : Bool) (k : BitVec 4) : (0#2 ++ BitVec.ofBool b ++ BitVec.ofBool x ++ k : BitVec 8)[5] = b := by revert b x k; decide
@[simp] theorem fld_wait_bit4 (b : Bool) (x : Bool) (k : BitVec 4) : (0#2 ++ BitVec.ofBool b ++ BitVec.ofBool x ++ k : BitVec 8)[4] = x := by revert b x k; decide
@[simp] theorem fld_wait_bit7 (b : Bool) (x : Bool) (k : BitVec 4) : (0#2 ++ BitVec.ofBool b ++ BitVec.ofBool x ++ k : BitVec 8)[7] = false := by revert b x k; decide
@[simp] theorem fld_wait_bit6 (b : Bool) (x : Bool) (k : BitVec 4) : (0#2 ++ BitVec.ofBool b ++ BitVec.ofBool x ++ k : BitVec 8)[6] = false := by revert b x k; decide

theorem bv2_cases (n : BitVec 2) : n = 0#2 ∨ n = 1#2 ∨ n = 2#2 ∨ n = 3#2 := by revert n; decide
theorem bv3_cases (n : BitVec 3) : n = 0#3 ∨ n = 1#3 ∨ n = 2#3 ∨ n = 3#3 ∨ n = 4#3 ∨ n = 5#3 ∨ n = 6#3 ∨ n = 7#3 := by
  revert n; decide

/-- The limits of its own fields that a well-formed instruction keeps. -/
theorem fields_of_static {i : Instr} {stroke : Bool} (h : i.static stroke = []) : i.fieldReasons = [] := by
  simp only [Instr.static, List.append_eq_nil_iff] at h; exact h.2

theorem MemOp.scale_ne_zero {m : MemOp} {ords : List Nat} {top : Nat} {may : Bool} (h : m.ok ords top may = true) :
    ∀ c sc, m.idx = some (c, sc) → sc ≠ 0#3 := by
  intro c sc hi hz
  subst hz
  simp [MemOp.ok, MemOp.idxOk, hi] at h

theorem MemOp.no_index {m : MemOp} {ords : List Nat} {top : Nat} (h : m.ok ords top false = true) : m.idx = none := by
  cases hi : m.idx with
  | none => rfl
  | some x => simp [MemOp.ok, MemOp.idxOk, hi] at h

@[simp] theorem hr_zero : hr 0#2 = [] := rfl

theorem reason_none {b : Bool} (h : (if b then ([] : List Reason) else [.reservedField]) = []) : b = true := by
  cases b <;> simp_all
theorem form_none {p : Prop} [Decidable p] (h : (if p then ([] : List Reason) else [.unassignedForm]) = []) : p := by
  by_contra hp; simp [hp] at h
theorem cvt_dst (t s : BitVec 4) : (BitVec.ofBool t[3] ++ (t.extractLsb' 0 3 ++ s : BitVec 7) : BitVec 8).extractLsb' 4 4 = t := by revert t s; decide
theorem cvt_src (t s : BitVec 4) : (BitVec.ofBool t[3] ++ (t.extractLsb' 0 3 ++ s : BitVec 7) : BitVec 8).extractLsb' 0 4 = s := by revert t s; decide
theorem red_sel (o : BitVec 3) : (0#4 ++ o : BitVec 7).extractLsb' 0 3 = o := by revert o; decide
theorem red_z (o : BitVec 3) : (0#4 ++ o : BitVec 7).extractLsb' 3 4 = 0#4 := by revert o; decide
theorem scan_sel (e : Bool) (o : BitVec 3) : (0#3 ++ BitVec.ofBool e ++ o : BitVec 7).extractLsb' 0 3 = o := by revert e o; decide
theorem scan_ex (e : Bool) (o : BitVec 3) : (0#3 ++ BitVec.ofBool e ++ o : BitVec 7)[3] = e := by revert e o; decide
theorem scan_z (e : Bool) (o : BitVec 3) : (0#3 ++ BitVec.ofBool e ++ o : BitVec 7).extractLsb' 4 3 = 0#3 := by revert e o; decide
@[simp] theorem bit1_le (b : Bool) : (0#14 ++ BitVec.ofBool b : BitVec 15).toNat ≤ 1 := by revert b; decide
@[simp] theorem tok_0 (q : BitVec 3) : (1#12 ++ q : BitVec 15).extractLsb' 0 3 = q := by revert q; decide
@[simp] theorem tok_3 (q : BitVec 3) : (1#12 ++ q : BitVec 15)[3] = true := by revert q; decide
@[simp] theorem tok_lt (q : BitVec 3) : (1#12 ++ q : BitVec 15).toNat < 16 := by revert q; decide
@[simp] theorem gst_0 (q : BitVec 8) : (64#7 ++ q : BitVec 15).extractLsb' 0 8 = q := by revert q; decide
@[simp] theorem gst_13 (q : BitVec 8) : (64#7 ++ q : BitVec 15).extractLsb' 13 2 = 2#2 := by revert q; decide
@[simp] theorem gst_8 (q : BitVec 8) : (64#7 ++ q : BitVec 15).extractLsb' 8 4 = 0#4 := by revert q; decide
@[simp] theorem gst_12 (q : BitVec 8) : (64#7 ++ q : BitVec 15)[12] = false := by revert q; decide
@[simp] theorem Hint.bits_none : Hint.none.bits = 0#2 := rfl
@[simp] theorem Hint.ofBits_zero : Hint.ofBits 0#2 = .none := rfl

end Sys2Proof
end

