-- ==== Sys2Proof/Laws/Memory.lean ====
section
/-! SUPPORT. Writes of global memory: what they leave of bytes and KEYs, what is read after them, and that every operation over memory
keeps the canonical form of its bytes. -/

namespace Sys2Proof.Machine

/-! ### Keys of bytes and lines -/

theorem lineOf_eq (mt : BitVec 2) (pa : Nat) : lineOf mt pa = byteKey mt pa / 128 := by unfold lineOf byteKey; omega

theorem byteKey_ne {mt mt' : BitVec 2} {a b : Nat} (h : lineOf mt a ≠ lineOf mt' b) : byteKey mt a ≠ byteKey mt' b := by
  intro e; rw [lineOf_eq, lineOf_eq, e] at h; exact h rfl

theorem byteKey_inj {mt : BitVec 2} {a b : Nat} : byteKey mt a = byteKey mt b ↔ a = b := by unfold byteKey; omega

namespace MemSys

/-! ### The canonical form -/

theorem wf_listBytes (base : Nat) (xs : List Byte) {bs : List (Nat × Byte)} (h : Memory.wf bs = true) : Memory.wf (listBytes base xs bs) = true := by
  induction xs generalizing base bs with
  | nil => exact h
  | cons x xs ih => exact ih (base + 1) (Assoc.wf_put base x h)

theorem wf_tagLine {m : MemSys} (mt : BitVec 2) (key : BitVec 10) (pa : Nat) (h : Memory.wf m.bytes = true) :
    Memory.wf (m.tagLine mt key pa).bytes = true := by
  unfold tagLine
  split
  · exact h
  · dsimp only
    split
    · exact h
    · split
      · exact h
      · dsimp only
        exact wf_listBytes _ (m.lineAs _ key _) h

theorem wf_writeArea {m : MemSys} (base size draw : Nat) (h : Memory.wf m.bytes = true) : Memory.wf (m.writeArea base size draw).bytes = true :=
  Assoc.wf_filter _ h

theorem wf_writeByte {m : MemSys} (mt : BitVec 2) (key : BitVec 10) (pa : Nat) (b : Byte) (h : Memory.wf m.bytes = true) :
    Memory.wf (m.writeByte mt key pa b).bytes = true := Assoc.wf_put _ _ (wf_tagLine mt key pa h)

theorem wf_writeBytes {m : MemSys} (mt : BitVec 2) (key : BitVec 10) (pa : Nat) (bs : List Byte) (h : Memory.wf m.bytes = true) :
    Memory.wf (m.writeBytes mt key pa bs).bytes = true := by
  induction bs generalizing m pa with
  | nil => exact h
  | cons b bs ih => exact ih _ (wf_writeByte mt key pa b h)

/-! ### What a write at a home slice leaves -/

@[simp] theorem unpoison_bytes (m : MemSys) (mt : BitVec 2) (pa n : Nat) : (m.unpoison mt pa n).bytes = m.bytes := by unfold unpoison; split <;> rfl
@[simp] theorem unpoison_lineKey (m : MemSys) (mt : BitVec 2) (pa n : Nat) : (m.unpoison mt pa n).lineKey = m.lineKey := by unfold unpoison; split <;> rfl
@[simp] theorem unpoison_training (m : MemSys) (mt : BitVec 2) (pa n : Nat) : (m.unpoison mt pa n).training = m.training := by unfold unpoison; split <;> rfl

theorem homeWrite_bytes (m : MemSys) (core : Option Nat) (w : Writer) (rel : Option (BitVec 3)) (rmw : Bool) (mt : BitVec 2) (key : BitVec 10)
    (pa : Nat) (bs : List Byte) {sh : Bool} : (m.homeWrite core w rel rmw mt key pa bs sh).bytes = (m.writeBytes mt key pa bs).bytes := by
  unfold homeWrite; dsimp only; split <;> simp [setRel, dirWrite, homeFill]

theorem homeWrite_lineKey (m : MemSys) (core : Option Nat) (w : Writer) (rel : Option (BitVec 3)) (rmw : Bool) (mt : BitVec 2) (key : BitVec 10)
    (pa : Nat) (bs : List Byte) {sh : Bool} : (m.homeWrite core w rel rmw mt key pa bs sh).lineKey = (m.writeBytes mt key pa bs).lineKey := by
  unfold homeWrite; dsimp only; split <;> simp [setRel, dirWrite, homeFill]

theorem tagLine_training (m : MemSys) (mt : BitVec 2) (key : BitVec 10) (pa : Nat) : (m.tagLine mt key pa).training = m.training := by
  unfold tagLine; dsimp only; split
  · rfl
  · split
    · rfl
    · split <;> rfl

theorem writeBytes_training (m : MemSys) (mt : BitVec 2) (key : BitVec 10) (pa : Nat) (bs : List Byte) :
    (m.writeBytes mt key pa bs).training = m.training := by
  induction bs generalizing m pa with
  | nil => rfl
  | cons b bs ih => rw [writeBytes, ih]; exact tagLine_training m mt key pa

theorem homeWrite_training (m : MemSys) (core : Option Nat) (w : Writer) (rel : Option (BitVec 3)) (rmw : Bool) (mt : BitVec 2) (key : BitVec 10)
    (pa : Nat) (bs : List Byte) {sh : Bool} : (m.homeWrite core w rel rmw mt key pa bs sh).training = m.training := by
  unfold homeWrite; dsimp only; split <;> simp [setRel, dirWrite, homeFill, writeBytes_training]

theorem wf_homeWrite {m : MemSys} (core : Option Nat) (w : Writer) (rel : Option (BitVec 3)) (rmw : Bool) (mt : BitVec 2) (key : BitVec 10)
    (pa : Nat) (bs : List Byte) {sh : Bool} (h : Memory.wf m.bytes = true) : Memory.wf (m.homeWrite core w rel rmw mt key pa bs sh).bytes = true := by
  rw [homeWrite_bytes]; exact wf_writeBytes mt key pa bs h

theorem wf_sysWrite {m : MemSys} (pa : Nat) (bs : List Byte) (rel : Bool) (h : Memory.wf m.bytes = true) :
    Memory.wf (m.sysWrite pa bs rel).bytes = true := wf_homeWrite _ _ _ _ _ _ _ _ h

theorem wf_ringPost {m : MemSys} (cb e : Nat) (bs : List Byte) (h : Memory.wf m.bytes = true) :
    Memory.wf (m.ringPost cb e bs).bytes = true := wf_sysWrite _ _ _ (wf_sysWrite _ _ _ h)

theorem wf_pageWalk {m : MemSys} (core owner : Nat) (o : Owner) (kind : AccKind) (sys : Bool) (va : DWord) (h : Memory.wf m.bytes = true) :
    Memory.wf (m.pageWalk core owner o kind sys va).2.bytes = true := by
  unfold pageWalk
  split
  · exact h
  · split
    · exact h
    · dsimp only
      generalize (_ ||| _ : DWord) = raw
      split
      · exact h
      · exact wf_homeWrite _ _ _ _ _ _ _ _ h

theorem wf_translate {m : MemSys} (core owner : Nat) (kind : AccKind) (sys : Bool) (va : DWord) (h : Memory.wf m.bytes = true) :
    Memory.wf (m.translate core owner kind sys va).2.bytes = true := by
  unfold translate
  split
  · exact h
  · dsimp only
    split
    · exact h
    · split
      · exact h
      · split
        · exact h
        · exact wf_pageWalk _ _ _ _ _ _ h

theorem wf_codeLine {m : MemSys} (core : Nat) (x : Xlat) (h : Memory.wf m.bytes = true) : Memory.wf (m.codeLine core x).2.bytes = true := by
  unfold codeLine; dsimp only; split <;> exact h

theorem wf_dispXlat {m : MemSys} (owner : Nat) (kind : AccKind) (va : DWord) (h : Memory.wf m.bytes = true) :
    Memory.wf (m.dispXlat owner kind va).2.bytes = true := by
  unfold dispXlat
  split
  · exact h
  · split
    · exact h
    · exact wf_pageWalk _ _ _ _ _ _ h

theorem wf_sysXlat {m : MemSys} (ring : Nat) (kind : AccKind) (va : DWord) (h : Memory.wf m.bytes = true) :
    Memory.wf (m.sysXlat ring kind va).2.bytes = true := by
  unfold sysXlat
  split
  · exact h
  · split
    · exact h
    · exact wf_pageWalk _ _ _ _ _ _ h

theorem wf_dispReads {m : MemSys} (owner k : Nat) (va : DWord) (n : Nat) (h : Memory.wf m.bytes = true) :
    Memory.wf (m.dispReads owner k va n).2.bytes = true := by
  induction k generalizing m va n with
  | zero => exact h
  | succ k ih =>
    unfold dispReads
    split
    · exact h
    · dsimp only
      have hx := wf_dispXlat owner .read va h
      split
      · rename_i e; rw [e] at hx; exact hx
      · rename_i e; rw [e] at hx
        have hr := ih (va + BitVec.ofNat 64 (min n (4096 - va.toNat % 4096))) (n - min n (4096 - va.toNat % 4096)) hx
        split
        · rename_i e; rw [e] at hr; exact hr
        · rename_i e; rw [e] at hr; exact hr

theorem wf_extWrite {m : MemSys} (rel : Option (BitVec 3)) (key : BitVec 10) (k pa : Nat) (bs : List Byte) (h : Memory.wf m.bytes = true) :
    Memory.wf (m.extWrite rel key k pa bs).bytes = true := by
  induction k generalizing m pa bs with
  | zero => exact h
  | succ k ih =>
    unfold extWrite
    dsimp only
    split
    · exact h
    · exact ih _ _ (wf_homeWrite _ _ _ _ _ _ _ _ h)

theorem wf_extRead {m : MemSys} (host : Bool) (key : BitVec 10) (k pa n : Nat) (h : Memory.wf m.bytes = true) :
    Memory.wf (m.extRead host key k pa n).2.bytes = true := by
  induction k generalizing m pa n with
  | zero => exact h
  | succ k ih =>
    unfold extRead
    dsimp only
    split
    · exact h
    · refine ih _ _ ?_
      split <;> exact h

theorem wf_hostWrite {m : MemSys} (k pa : Nat) (bs : List Byte) (h : Memory.wf m.bytes = true) : Memory.wf (m.hostWrite k pa bs).bytes = true := by
  induction k generalizing m pa bs with
  | zero => exact h
  | succ k ih =>
    unfold hostWrite
    dsimp only
    split
    · exact h
    · exact ih _ _ (by rw [dropLine, unpoison_bytes]; exact wf_writeBytes 1#2 0#10 pa _ h)

/-- The host's read of its own memory changes no byte. -/
@[simp] theorem hostRead_bytes (m : MemSys) (pa n : Nat) : (m.hostRead pa n).bytes = m.bytes := by
  unfold hostRead
  generalize ((List.range (n / 128 + 2)).filter _) = is
  induction is generalizing m with
  | nil => rfl
  | cons i is ih => rw [List.foldl_cons, ih]; rfl

theorem wf_loadPair {m : MemSys} (key : BitVec 10) (p : BitVec 512) (draw : Nat) (h : Memory.wf m.bytes = true) :
    Memory.wf (m.loadPair key p draw).bytes = true := by
  unfold loadPair
  dsimp only
  generalize (List.map (fun x => x / 128) m.areas.keys) = as
  generalize ((m.lineKey.keep fun _ k => decide (k = key)).keys ++ if key = 0#10 then as else []) = ls
  generalize hm : ({ m with keyPairs := _, areas := _ } : MemSys) = t
  have ht : Memory.wf t.bytes = true := by rw [← hm]; exact h
  clear hm
  induction ls generalizing t with
  | nil => exact ht
  | cons l ls ih => exact ih _ (wf_listBytes _ _ ht)

/-! ### Reading after a write -/

theorem get?_listBytes (base k : Nat) (xs : List Byte) (bs : List (Nat × Byte)) (h : k < base ∨ base + xs.length ≤ k) :
    Assoc.get? (listBytes base xs bs) k = Assoc.get? bs k := by
  induction xs generalizing base bs with
  | nil => rfl
  | cons x xs ih =>
    simp only [List.length_cons] at h
    rw [listBytes, ih _ _ (by omega), Assoc.get?_put_ne _ _ (by omega)]

theorem xorBytes_length_le (a b : List Byte) : (xorBytes a b).length ≤ b.length := by
  simp only [xorBytes, List.length_zipWith]
  exact Nat.min_le_right _ _
theorem xorBytes_length_le_left (a b : List Byte) : (xorBytes a b).length ≤ a.length := by
  simp only [xorBytes, List.length_zipWith]
  exact Nat.min_le_left _ _

theorem leBytes_length (n x : Nat) : (leBytes n x).length = n := by
  induction n generalizing x with
  | zero => rfl
  | succ n ih => simp [leBytes, ih]

theorem xtsBlocks_length_le (f : List Byte → List Byte) (n : Nat) (t bs : List Byte) (h : t.length ≤ 16) : (xtsBlocks f n t bs).length ≤ 16 * n := by
  induction n generalizing t bs with
  | zero => simp [xtsBlocks]
  | succ n ih =>
    have h1 := xorBytes_length_le (f (xorBytes (bs.take 16) t)) t
    have h2 := ih (nextTweak t) (bs.drop 16) (Nat.le_of_eq (leBytes_length 16 _))
    rw [xtsBlocks, List.length_append]
    omega

/-- A line read through another KEY has no more bytes than a line. -/
theorem lineAs_length_le (m : MemSys) (k key : BitVec 10) (line : Nat) : (m.lineAs k key line).length ≤ 128 := by
  unfold lineAs xtsDec
  refine xtsBlocks_length_le _ 8 _ _ ?_
  unfold aesEnc
  refine Nat.le_trans (xorBytes_length_le_left _ _) ?_
  simp [shiftRows]

/-- The KEY of a line, where its tag names one. -/
theorem keyOf_of_tag {m : MemSys} {pa : Nat} {k : BitVec 10} (h : m.lineKey.get? (lineOf 0#2 pa) = some k) : m.keyOf pa = some k := by
  unfold keyOf; rw [h]

/-- Tagging a line changes no byte of another line, and none where the line already has the KEY. -/
theorem get?_tagLine (m : MemSys) (mt : BitVec 2) (key : BitVec 10) (pa k : Nat)
    (h : k / 128 ≠ lineOf mt pa ∨ m.lineKey.get? (lineOf mt pa) = some key) :
    Assoc.get? (m.tagLine mt key pa).bytes k = Assoc.get? m.bytes k := by
  unfold tagLine
  split
  · rfl
  · rename_i h0
    have h0 : mt = 0#2 := by simpa using h0
    subst h0
    dsimp only
    split
    · rfl
    · rename_i j e
      split
      · rfl
      · rename_i hj
        rcases h with h | h
        · simp only
          have hlen := m.lineAs_length_le j key (pa / 128)
          rw [get?_listBytes]
          have : lineOf 0#2 pa = pa / 128 := by unfold lineOf; rw [show (0#2).toNat = 0 from rfl]; omega
          rw [this] at h; omega
        · rw [keyOf_of_tag h] at e; exact absurd (Option.some.inj e).symm hj

theorem lineKey_tagLine (m : MemSys) (mt : BitVec 2) (key : BitVec 10) (pa l : Nat) :
    (m.tagLine mt key pa).lineKey.get? l = if mt = 0#2 ∧ l = lineOf mt pa then some key else m.lineKey.get? l := by
  unfold tagLine
  split
  · rename_i h; simp at h; simp [h]
  · rename_i h
    have h0 : mt = 0#2 := by simpa using h
    subst h0
    dsimp only
    split
    · simp [Assoc.get?_put]
    · split
      · rename_i hj; subst hj; simp [Assoc.get?_put]
      · simp [Assoc.get?_put]

theorem lineKey_writeByte (m : MemSys) (mt : BitVec 2) (key : BitVec 10) (pa l : Nat) (b : Byte) :
    (m.writeByte mt key pa b).lineKey.get? l = if mt = 0#2 ∧ l = lineOf mt pa then some key else m.lineKey.get? l :=
  lineKey_tagLine m mt key pa l

/-- A byte of an untouched line, or another byte of a line with the same KEY, does not change. -/
theorem get?_writeByte (m : MemSys) (mt : BitVec 2) (key : BitVec 10) (pa k : Nat) (b : Byte) (hk : k ≠ byteKey mt pa)
    (h : k / 128 ≠ lineOf mt pa ∨ m.lineKey.get? (lineOf mt pa) = some key) :
    Assoc.get? (m.writeByte mt key pa b).bytes k = Assoc.get? m.bytes k := by
  rw [writeByte, Assoc.get?_put_ne _ _ hk, get?_tagLine m mt key pa k h]

/-- The KEY of a line after a write: the write's where it touched the line. -/
theorem lineKey_writeBytes (m : MemSys) (mt : BitVec 2) (key : BitVec 10) (pa l : Nat) (bs : List Byte) :
    (m.writeBytes mt key pa bs).lineKey.get? l =
      if mt = 0#2 ∧ ∃ i, i < bs.length ∧ l = lineOf mt (pa + i) then some key else m.lineKey.get? l := by
  induction bs generalizing m pa with
  | nil => simp [writeBytes]
  | cons b bs ih =>
    rw [writeBytes, ih, lineKey_writeByte]
    by_cases h0 : mt = 0#2
    · by_cases h1 : l = lineOf mt pa
      · have : ∃ i, i < (b :: bs).length ∧ l = lineOf mt (pa + i) := ⟨0, by simp, by simpa using h1⟩
        simp [h0, h1]
        intro hx
        have := hx 0
        simp at this
      · by_cases h2 : ∃ i, i < bs.length ∧ l = lineOf mt (pa + 1 + i)
        · obtain ⟨i, hi, hl⟩ := h2
          have a : ∃ i, i < bs.length ∧ l = lineOf mt (pa + 1 + i) := ⟨i, hi, hl⟩
          have b : ∃ i, i < (b :: bs).length ∧ l = lineOf mt (pa + i) := ⟨i + 1, by simp [hi], by rw [hl]; congr 1; omega⟩
          rw [if_pos ⟨h0, a⟩, if_pos ⟨h0, b⟩]
        · have b : ¬ ∃ i, i < (b :: bs).length ∧ l = lineOf mt (pa + i) := by
            rintro ⟨i, hi, hl⟩
            cases i with
            | zero => exact h1 (by simpa using hl)
            | succ i => exact h2 ⟨i, by simpa using hi, by rw [hl]; congr 1; omega⟩
          rw [if_neg (fun c => h2 c.2), if_neg (fun c => h1 c.2), if_neg (fun c => b c.2)]
    · simp [h0]

/-- Bytes that a write does not touch: those of other lines, and the others of its lines where they have its KEY. -/
theorem get?_writeBytes (m : MemSys) (mt : BitVec 2) (key : BitVec 10) (pa k : Nat) (bs : List Byte)
    (hk : ∀ i, i < bs.length → k ≠ byteKey mt (pa + i))
    (h : ∀ i, i < bs.length → k / 128 ≠ lineOf mt (pa + i) ∨ mt ≠ 0#2 ∨ m.lineKey.get? (lineOf mt (pa + i)) = some key) :
    Assoc.get? (m.writeBytes mt key pa bs).bytes k = Assoc.get? m.bytes k := by
  induction bs generalizing m pa with
  | nil => rfl
  | cons b bs ih =>
    rw [writeBytes, ih]
    · have h0 := h 0 (by simp)
      have hk0 : k ≠ byteKey mt pa := by simpa using hk 0 (by simp)
      rcases h0 with a | a | a
      · exact get?_writeByte m mt key pa k b hk0 (.inl (by simpa using a))
      · rw [writeByte, Assoc.get?_put_ne _ _ hk0]; unfold tagLine; rw [if_pos a]
      · exact get?_writeByte m mt key pa k b hk0 (.inr (by simpa using a))
    · intro i hi; rw [show pa + 1 + i = pa + (i + 1) by omega]; exact hk (i + 1) (by simpa using hi)
    · intro i hi
      rw [show pa + 1 + i = pa + (i + 1) by omega, lineKey_writeByte]
      rcases h (i + 1) (by simpa using hi) with a | a | a
      · exact .inl a
      · exact .inr (.inl a)
      · refine .inr (.inr ?_); split
        · rfl
        · exact a

/-- The bytes that a write stores. -/
theorem get?_writeBytes_self (m : MemSys) (mt : BitVec 2) (key : BitVec 10) (pa : Nat) (bs : List Byte) (i : Nat) (hi : i < bs.length) :
    Assoc.get? (m.writeBytes mt key pa bs).bytes (byteKey mt (pa + i)) = some (bs.getD i 0#8) := by
  induction bs generalizing m pa i with
  | nil => simp at hi
  | cons b bs ih =>
    rw [writeBytes]
    cases i with
    | zero =>
      rw [get?_writeBytes]
      · simp [writeByte]
      · intro j _ e; rw [byteKey_inj] at e; omega
      · intro j _
        by_cases h0 : mt = 0#2
        · by_cases hl : lineOf mt (pa + 1 + j) = lineOf mt pa
          · exact .inr (.inr (by rw [lineKey_writeByte, if_pos ⟨h0, hl⟩]))
          · exact .inl (by rw [← lineOf_eq]; exact fun e => hl e.symm)
        · exact .inr (.inl h0)
    | succ i =>
      have := ih (m.writeByte mt key pa b) (pa + 1) i (by simpa using hi)
      rw [show pa + 1 + i = pa + (i + 1) by omega] at this
      simpa using this

end MemSys

/-! ### The scratchpad -/

/-- A byte of a scratchpad after a write: what is written where it lies in the range. -/
theorem Group.spadByte_spadPut (g : Group) (a k : Nat) (bs : List Byte) :
    (g.spadPut a bs).spadByte k = if a ≤ k ∧ k < a + bs.length then bs.getD (k - a) 0#8 else g.spadByte k := by
  induction bs generalizing g a with
  | nil => rw [spadPut, List.length_nil, if_neg (by omega)]
  | cons b bs ih =>
    rw [spadPut, ih]
    by_cases h1 : a + 1 ≤ k ∧ k < a + 1 + bs.length
    · rw [if_pos h1, if_pos (by simp; omega)]
      rw [show k - a = (k - (a + 1)) + 1 by omega]; simp
    · rw [if_neg h1]
      simp only [spadByte, Assoc.getD_putD]
      by_cases h2 : k = a
      · rw [if_pos h2, if_pos (by simp; omega)]; simp [h2]
      · rw [if_neg h2, if_neg (by simp; omega)]

theorem Group.spadByte_spadWrite (g : Group) (a k : Nat) (bs : List Byte) :
    (g.spadWrite a bs).spadByte k = if a ≤ k ∧ k < a + bs.length then bs.getD (k - a) 0#8 else g.spadByte k :=
  Group.spadByte_spadPut g a k bs

end Sys2Proof.Machine
end

