-- ==== Sys2Proof/Laws/PerInstr.lean ====
section
/-! SUPPORT. One lemma per constructor of `Instr`: the encoder and the decoder agree on it,
      with every operand at every value
its encoding admits. -/
set_option Elab.async false

namespace Sys2Proof.Laws

/-- What is proved of each instruction: its words decode to it, wherever it is well-formed. -/
def F.Statement (i : Instr) : Prop := RoundTrip i

theorem F.add (p : Pfx) (u : Bool) (d : Opnd) (a : S1) (b : RI) : F.Statement (.add p u d a b) :=
  roundTrip_short rfl (fun _ _ => by cases u <;> cases b <;> simp [decodeA, Instr.pfx, Short.mk3, Short.hi, Short.ri,
        Short.D, Short.A, Short.B, Short.i8, encRRI, RI.enc, RI.isImm])

theorem F.sub (p : Pfx) (u : Bool) (d : Opnd) (a : S1) (b : RI) : F.Statement (.sub p u d a b) :=
  roundTrip_short rfl (fun _ _ => by cases u <;> cases b <;> simp [decodeA, Instr.pfx, Short.mk3, Short.hi, Short.ri,
        Short.D, Short.A, Short.B, Short.i8, encRRI, RI.enc, RI.isImm])

theorem F.mul (p : Pfx) (u : Bool) (d : Opnd) (a : S1) (b : RI) : F.Statement (.mul p u d a b) :=
  roundTrip_short rfl (fun _ _ => by cases u <;> cases b <;> simp [decodeA, Instr.pfx, Short.mk3, Short.hi, Short.ri,
        Short.D, Short.A, Short.B, Short.i8, encRRI, RI.enc, RI.isImm])

theorem F.mulhi (p : Pfx) (u : Bool) (d : Opnd) (a : S1) (b : RI) : F.Statement (.mulhi p u d a b) :=
  roundTrip_short rfl (fun _ _ => by cases u <;> cases b <;> simp [decodeA, Instr.pfx, Short.mk3, Short.hi, Short.ri,
        Short.D, Short.A, Short.B, Short.i8, encRRI, RI.enc, RI.isImm])

theorem F.mad (p : Pfx) (u : Bool) (d : Opnd) (a : S1) (b : RI) : F.Statement (.mad p u d a b) :=
  roundTrip_short rfl (fun _ _ => by cases u <;> cases b <;> simp [decodeA, Instr.pfx, Short.mk3, Short.hi, Short.ri,
        Short.D, Short.A, Short.B, Short.i8, encRRI, RI.enc, RI.isImm])

theorem F.madhi (p : Pfx) (u : Bool) (d : Opnd) (a : S1) (b : RI) : F.Statement (.madhi p u d a b) :=
  roundTrip_short rfl (fun _ _ => by cases u <;> cases b <;> simp [decodeA, Instr.pfx, Short.mk3, Short.hi, Short.ri,
        Short.D, Short.A, Short.B, Short.i8, encRRI, RI.enc, RI.isImm])

theorem F.neg (p : Pfx) (w : Bool) (d : Opnd) (a : S1) : F.Statement (.neg p w d a) :=
  roundTrip_short rfl (fun _ _ => by cases w <;> simp [decodeA, Instr.pfx, Short.mk3, Short.lo, Short.D, Short.A,
        Short.zB, encUn, zr])

theorem F.abs (p : Pfx) (w : Bool) (d : Opnd) (a : S1) : F.Statement (.abs p w d a) :=
  roundTrip_short rfl (fun _ _ => by cases w <;> simp [decodeA, Instr.pfx, Short.mk3, Short.lo, Short.D, Short.A,
        Short.zB, encUn, zr])

theorem F.min (p : Pfx) (u : Bool) (d : Opnd) (a : S1) (b : RI) : F.Statement (.min p u d a b) :=
  roundTrip_short rfl (fun _ _ => by cases u <;> cases b <;> simp [decodeA, Instr.pfx, Short.mk3, Short.hi, Short.ri,
        Short.D, Short.A, Short.B, Short.i8, encRRI, RI.enc, RI.isImm])

theorem F.max (p : Pfx) (u : Bool) (d : Opnd) (a : S1) (b : RI) : F.Statement (.max p u d a b) :=
  roundTrip_short rfl (fun _ _ => by cases u <;> cases b <;> simp [decodeA, Instr.pfx, Short.mk3, Short.hi, Short.ri,
        Short.D, Short.A, Short.B, Short.i8, encRRI, RI.enc, RI.isImm])

theorem F.lea (p : Pfx) (d : Opnd) (a : S1) (b : LeaB) : F.Statement (.lea p d a b) :=
  roundTrip_short rfl (fun _ _ => by cases b <;> simp [decodeA, Instr.pfx, Short.mk3, Short.hi, Short.lo, Short.D,
        Short.A, Short.B, Short.i8, Short.leaB, LeaB.enc])

theorem F.shl (p : Pfx) (d : Opnd) (a : S1) (b : RI) : F.Statement (.shl p d a b) :=
  roundTrip_short rfl (fun _ _ => by cases b <;> simp [decodeA, Instr.pfx, Short.mk3, Short.ri, Short.D, Short.A,
        Short.B, Short.i8, encRI, RI.enc, RI.isImm])

theorem F.shr (p : Pfx) (d : Opnd) (a : S1) (b : RI) : F.Statement (.shr p d a b) :=
  roundTrip_short rfl (fun _ _ => by cases b <;> simp [decodeA, Instr.pfx, Short.mk3, Short.ri, Short.D, Short.A,
        Short.B, Short.i8, encRI, RI.enc, RI.isImm])

theorem F.sra (p : Pfx) (d : Opnd) (a : S1) (b : RI) : F.Statement (.sra p d a b) :=
  roundTrip_short rfl (fun _ _ => by cases b <;> simp [decodeA, Instr.pfx, Short.mk3, Short.ri, Short.D, Short.A,
        Short.B, Short.i8, encRI, RI.enc, RI.isImm])

theorem F.rotl (p : Pfx) (d : Opnd) (a : S1) (b : RI) : F.Statement (.rotl p d a b) :=
  roundTrip_short rfl (fun _ _ => by cases b <;> simp [decodeA, Instr.pfx, Short.mk3, Short.ri, Short.D, Short.A,
        Short.B, Short.i8, encRI, RI.enc, RI.isImm])

theorem F.and (p : Pfx) (d : Opnd) (a : S1) (b : RI) : F.Statement (.and p d a b) :=
  roundTrip_short rfl (fun _ _ => by cases b <;> simp [decodeA, Instr.pfx, Short.mk3, Short.ri, Short.D, Short.A,
        Short.B, Short.i8, encRI, RI.enc, RI.isImm])

theorem F.or (p : Pfx) (d : Opnd) (a : S1) (b : RI) : F.Statement (.or p d a b) :=
  roundTrip_short rfl (fun _ _ => by cases b <;> simp [decodeA, Instr.pfx, Short.mk3, Short.ri, Short.D, Short.A,
        Short.B, Short.i8, encRI, RI.enc, RI.isImm])

theorem F.xor (p : Pfx) (d : Opnd) (a : S1) (b : RI) : F.Statement (.xor p d a b) :=
  roundTrip_short rfl (fun _ _ => by cases b <;> simp [decodeA, Instr.pfx, Short.mk3, Short.ri, Short.D, Short.A,
        Short.B, Short.i8, encRI, RI.enc, RI.isImm])

theorem F.andn (p : Pfx) (d : Opnd) (a : S1) (b : RI) : F.Statement (.andn p d a b) :=
  roundTrip_short rfl (fun _ _ => by cases b <;> simp [decodeA, Instr.pfx, Short.mk3, Short.ri, Short.D, Short.A,
        Short.B, Short.i8, encRI, RI.enc, RI.isImm])

theorem F.not (p : Pfx) (d : Opnd) (a : S1) : F.Statement (.not p d a) :=
  roundTrip_short rfl (fun _ _ => by simp [decodeA, Instr.pfx, Short.mk3, Short.D, Short.A, Short.zB, encUn, zr])

theorem F.clz (p : Pfx) (d : Opnd) (a : S1) : F.Statement (.clz p d a) :=
  roundTrip_short rfl (fun _ _ => by simp [decodeA, Instr.pfx, Short.mk3, Short.D, Short.A, Short.zB, encUn, zr])

theorem F.ctz (p : Pfx) (d : Opnd) (a : S1) : F.Statement (.ctz p d a) :=
  roundTrip_short rfl (fun _ _ => by simp [decodeA, Instr.pfx, Short.mk3, Short.D, Short.A, Short.zB, encUn, zr])

theorem F.popc (p : Pfx) (d : Opnd) (a : S1) : F.Statement (.popc p d a) :=
  roundTrip_short rfl (fun _ _ => by simp [decodeA, Instr.pfx, Short.mk3, Short.D, Short.A, Short.zB, encUn, zr])

theorem F.brev (p : Pfx) (d : Opnd) (a : S1) : F.Statement (.brev p d a) :=
  roundTrip_short rfl (fun _ _ => by simp [decodeA, Instr.pfx, Short.mk3, Short.D, Short.A, Short.zB, encUn, zr])

theorem F.bfx (p : Pfx) (d : Opnd) (a : S1) (b : S1) : F.Statement (.bfx p d a b) :=
  roundTrip_short rfl (fun _ _ => by simp [decodeA, Instr.pfx, Short.mk3, Short.D, Short.A, Short.B, encRR])

theorem F.bfi (p : Pfx) (d : Opnd) (a : S1) (b : S1) : F.Statement (.bfi p d a b) :=
  roundTrip_short rfl (fun _ _ => by simp [decodeA, Instr.pfx, Short.mk3, Short.D, Short.A, Short.B, encRR])

theorem F.cmp (p : Pfx) (u : Bool) (c : BitVec 3) (n : BitVec 3) (a : S1) (b : RI) : F.Statement (.cmp p u c n a b) :=
  roundTrip_short rfl (fun _ _ => by cases u <;> cases b <;> simp [decodeA, Instr.pfx, Short.mk3, Short.hi, Short.ri,
        Short.A, Short.B, Short.i8, Short.d64, Short.d20, Short.zD3, RI.enc, RI.isImm, zr])

theorem F.sel (p : Pfx) (d : Opnd) (a : S1) (x : Bool) (n : BitVec 3) : F.Statement (.sel p d a x n) :=
  roundTrip_short rfl (fun _ _ => by simp [decodeA, Instr.pfx, Short.mk3, Short.D, Short.A, zr])

theorem F.selImm (p : Pfx) (d : Opnd) (x : Bool) (n : BitVec 3) (i : BitVec 8) : F.Statement (.selImm p d x n i) :=
  roundTrip_short rfl (fun _ _ => by simp [decodeA, Instr.pfx, Short.D, Short.i8, zr])

theorem F.mov (p : Pfx) (w : Bool) (d : Opnd) (a : S1) : F.Statement (.mov p w d a) :=
  roundTrip_short rfl (fun _ _ => by cases w <;> simp [decodeA, Instr.pfx, Short.mk3, Short.lo, Short.D, Short.A,
        Short.zB, encUn, zr])

theorem F.li (p : Pfx) (w : Bool) (d : Opnd) (i : BitVec 8) : F.Statement (.li p w d i) :=
  roundTrip_short rfl (fun _ _ => by cases w <;> simp [decodeA, Instr.pfx, Short.lo, Short.D, Short.i8, Short.zA, encI, zr])

theorem F.cvt (p : Pfx) (pk : BitVec 3) (d : Opnd) (a : S1) (t : BitVec 4) (s : BitVec 4) : F.Statement (.cvt p pk d a t s) :=
  roundTrip_short rfl (fun _ h => by
    have hf := fields_of_static h
    rcases bv3_cases pk with rfl | rfl | rfl | rfl | rfl | rfl | rfl | rfl <;>
      first
      | (simp [Instr.fieldReasons] at hf; done)
      | (simp [decodeA, Instr.pfx, Short.mk3, Short.D, Short.A, Short.i8]; exact ⟨cvt_dst _ _, cvt_src _ _⟩))

theorem F.req (p : Pfx) (w : Bool) (d : Opnd) (a : S1) (b : S1) : F.Statement (.req p w d a b) :=
  roundTrip_short rfl (fun _ _ => by cases w <;> simp [decodeA, Instr.pfx, Short.mk3, Short.lo, Short.D, Short.A,
        Short.B, encRR])

theorem F.pack4 (p : Pfx) (d : Opnd) (a : S1) (b : S1) : F.Statement (.pack4 p d a b) :=
  roundTrip_short rfl (fun _ _ => by simp [decodeA, Instr.pfx, Short.mk3, Short.D, Short.A, Short.B, encRR])

theorem F.unpack4 (p : Pfx) (q4 : Bool) (d : Opnd) (a : S1) : F.Statement (.unpack4 p q4 d a) :=
  roundTrip_short rfl (fun _ _ => by cases q4 <;> simp [decodeA, Instr.pfx, Short.mk3, Short.D, Short.A, zr])

theorem F.dot4 (p : Pfx) (n8 : Bool) (d : Opnd) (a : S1) (b : S1) : F.Statement (.dot4 p n8 d a b) :=
  roundTrip_short rfl (fun _ _ => by cases n8 <;> simp [decodeA, Instr.pfx, Short.mk3, Short.lo, Short.D, Short.A,
        Short.B, encRR])

theorem F.fadd (p : Pfx) (d : Opnd) (a : S1) (b : FSrc) : F.Statement (.fadd p d a b) :=
  roundTrip_short rfl (fun _ _ => by cases b <;> simp [decodeB, Instr.pfx, Short.mk3, Short.hi, Short.lo, Short.D,
        Short.A, Short.B, Short.i8, Short.fsrc, encF, FSrc.enc])

theorem F.fsub (p : Pfx) (d : Opnd) (a : S1) (b : FSrc) : F.Statement (.fsub p d a b) :=
  roundTrip_short rfl (fun _ _ => by cases b <;> simp [decodeB, Instr.pfx, Short.mk3, Short.hi, Short.lo, Short.D,
        Short.A, Short.B, Short.i8, Short.fsrc, encF, FSrc.enc])

theorem F.fmul (p : Pfx) (d : Opnd) (a : S1) (b : FSrc) : F.Statement (.fmul p d a b) :=
  roundTrip_short rfl (fun _ _ => by cases b <;> simp [decodeB, Instr.pfx, Short.mk3, Short.hi, Short.lo, Short.D,
        Short.A, Short.B, Short.i8, Short.fsrc, encF, FSrc.enc])

theorem F.ffma (p : Pfx) (d : Opnd) (a : S1) (b : FSrc) : F.Statement (.ffma p d a b) :=
  roundTrip_short rfl (fun _ _ => by cases b <;> simp [decodeB, Instr.pfx, Short.mk3, Short.hi, Short.lo, Short.D,
        Short.A, Short.B, Short.i8, Short.fsrc, encF, FSrc.enc])

theorem F.fmin (p : Pfx) (d : Opnd) (a : S1) (b : FSrc) : F.Statement (.fmin p d a b) :=
  roundTrip_short rfl (fun _ _ => by cases b <;> simp [decodeB, Instr.pfx, Short.mk3, Short.hi, Short.lo, Short.D,
        Short.A, Short.B, Short.i8, Short.fsrc, encF, FSrc.enc])

theorem F.fmax (p : Pfx) (d : Opnd) (a : S1) (b : FSrc) : F.Statement (.fmax p d a b) :=
  roundTrip_short rfl (fun _ _ => by cases b <;> simp [decodeB, Instr.pfx, Short.mk3, Short.hi, Short.lo, Short.D,
        Short.A, Short.B, Short.i8, Short.fsrc, encF, FSrc.enc])

theorem F.fabs (p : Pfx) (t : FTy) (d : Opnd) (a : S1) : F.Statement (.fabs p t d a) :=
  roundTrip_short rfl (fun _ _ => by cases t <;> simp [decodeB, Instr.pfx, Short.mk3, Short.lo, Short.D, Short.A,
        Short.fty, Short.zFty, FTy.enc, zr])

theorem F.fneg (p : Pfx) (t : FTy) (d : Opnd) (a : S1) : F.Statement (.fneg p t d a) :=
  roundTrip_short rfl (fun _ _ => by cases t <;> simp [decodeB, Instr.pfx, Short.mk3, Short.lo, Short.D, Short.A,
        Short.fty, Short.zFty, FTy.enc, zr])

theorem F.fcmp (p : Pfx) (c : BitVec 3) (n : BitVec 3) (a : S1) (b : FSrc) : F.Statement (.fcmp p c n a b) :=
  roundTrip_short rfl (fun _ _ => by cases b <;> simp [decodeB, Instr.pfx, Short.mk3, Short.hi, Short.lo, Short.A,
        Short.B, Short.i8, Short.d64, Short.d20, Short.zD3, Short.fsrc, encF, FSrc.enc, zr])

theorem F.fcls (p : Pfx) (y : BitVec 3) (n : BitVec 3) (a : S1) (b : RI) : F.Statement (.fcls p y n a b) :=
  roundTrip_short rfl (fun _ _ => by cases b <;> simp [decodeB, Instr.pfx, Short.mk3, Short.ri, Short.A, Short.B,
        Short.i8, Short.d64, Short.d20, Short.zD3, encRI, RI.enc, RI.isImm, zr])

theorem F.rcp (p : Pfx) (d : Opnd) (a : S1) : F.Statement (.rcp p d a) :=
  roundTrip_short rfl (fun _ _ => by simp [decodeB, Instr.pfx, Short.mk3, Short.D, Short.A, Short.zB, encUn, zr])

theorem F.rsq (p : Pfx) (d : Opnd) (a : S1) : F.Statement (.rsq p d a) :=
  roundTrip_short rfl (fun _ _ => by simp [decodeB, Instr.pfx, Short.mk3, Short.D, Short.A, Short.zB, encUn, zr])

theorem F.sqrt (p : Pfx) (d : Opnd) (a : S1) : F.Statement (.sqrt p d a) :=
  roundTrip_short rfl (fun _ _ => by simp [decodeB, Instr.pfx, Short.mk3, Short.D, Short.A, Short.zB, encUn, zr])

theorem F.exp2 (p : Pfx) (d : Opnd) (a : S1) : F.Statement (.exp2 p d a) :=
  roundTrip_short rfl (fun _ _ => by simp [decodeB, Instr.pfx, Short.mk3, Short.D, Short.A, Short.zB, encUn, zr])

theorem F.log2 (p : Pfx) (d : Opnd) (a : S1) : F.Statement (.log2 p d a) :=
  roundTrip_short rfl (fun _ _ => by simp [decodeB, Instr.pfx, Short.mk3, Short.D, Short.A, Short.zB, encUn, zr])

theorem F.sin (p : Pfx) (d : Opnd) (a : S1) : F.Statement (.sin p d a) :=
  roundTrip_short rfl (fun _ _ => by simp [decodeB, Instr.pfx, Short.mk3, Short.D, Short.A, Short.zB, encUn, zr])

theorem F.cos (p : Pfx) (d : Opnd) (a : S1) : F.Statement (.cos p d a) :=
  roundTrip_short rfl (fun _ _ => by simp [decodeB, Instr.pfx, Short.mk3, Short.D, Short.A, Short.zB, encUn, zr])

theorem F.tanh (p : Pfx) (d : Opnd) (a : S1) : F.Statement (.tanh p d a) :=
  roundTrip_short rfl (fun _ _ => by simp [decodeB, Instr.pfx, Short.mk3, Short.D, Short.A, Short.zB, encUn, zr])

theorem F.rng (p : Pfx) (f : Bool) (d : Opnd) : F.Statement (.rng p f d) :=
  roundTrip_short rfl (fun _ _ => by cases f <;> simp [decodeB, Instr.pfx, Short.lo, Short.D, Short.zB, Short.zA, encI, zr])

theorem F.shflIdx (p : Pfx) (d : Opnd) (a : S1) (b : S1) : F.Statement (.shflIdx p d a b) :=
  roundTrip_short rfl (fun _ _ => by simp [decodeB, Instr.pfx, Short.mk3, Short.D, Short.A, Short.B, encRR])

theorem F.shflUp (p : Pfx) (d : Opnd) (a : S1) (b : S1) : F.Statement (.shflUp p d a b) :=
  roundTrip_short rfl (fun _ _ => by simp [decodeB, Instr.pfx, Short.mk3, Short.D, Short.A, Short.B, encRR])

theorem F.shflDown (p : Pfx) (d : Opnd) (a : S1) (b : S1) : F.Statement (.shflDown p d a b) :=
  roundTrip_short rfl (fun _ _ => by simp [decodeB, Instr.pfx, Short.mk3, Short.D, Short.A, Short.B, encRR])

theorem F.shflXor (p : Pfx) (d : Opnd) (a : S1) (b : S1) : F.Statement (.shflXor p d a b) :=
  roundTrip_short rfl (fun _ _ => by simp [decodeB, Instr.pfx, Short.mk3, Short.D, Short.A, Short.B, encRR])

theorem F.vote (p : Pfx) (m : BitVec 3) (n : BitVec 3) (x : Bool) (k : BitVec 3) : F.Statement (.vote p m n x k) :=
  roundTrip_short rfl (fun _ _ => by simp [decodeB, Instr.pfx, Short.d64, Short.d20, Short.zB, Short.zD3, zr])

theorem F.voteBallot (p : Pfx) (d : Opnd) (x : Bool) (k : BitVec 3) : F.Statement (.voteBallot p d x k) :=
  roundTrip_short rfl (fun _ _ => by simp [decodeB, Instr.pfx, Short.D, Short.zB, zr])

theorem F.red (p : Pfx) (t : BitVec 2) (o : BitVec 3) (d : Opnd) (a : S1) : F.Statement (.red p t o d a) :=
  roundTrip_short rfl (fun _ _ => by
    rcases bv2_cases t with rfl | rfl | rfl | rfl <;> simp [decodeB, Instr.pfx, Short.mk3, Short.D, Short.A, zr])

theorem F.scan (p : Pfx) (t : BitVec 2) (e : Bool) (o : BitVec 3) (d : Opnd) (a : S1) : F.Statement (.scan p t e o d a) :=
  roundTrip_short rfl (fun _ _ => by
    rcases bv2_cases t with rfl | rfl | rfl | rfl <;> simp [decodeB, Instr.pfx, Short.mk3, Short.D, Short.A, zr])

theorem F.bcast (p : Pfx) (d : Opnd) (a : S1) (n : BitVec 8) : F.Statement (.bcast p d a n) :=
  roundTrip_short rfl (fun _ _ => by simp [decodeB, Instr.pfx, Short.mk3, Short.D, Short.A, Short.i8])

theorem F.bcastNib (p : Pfx) (d : Opnd) (a : S1) : F.Statement (.bcastNib p d a) :=
  roundTrip_short rfl (fun _ _ => by simp [decodeB, Instr.pfx, Short.mk3, Short.D, Short.A, Short.zB, encUn, zr])

theorem F.br (p : Pfx) (i : BitVec 8) : F.Statement (.br p i) :=
  roundTrip_short rfl (fun _ _ => by simp [decodeB, Instr.pfx, Short.i8, Short.zA, Short.zD, encI, zr])

theorem F.bk (p : Pfx) (m : BitVec 3) (x : Bool) (n : BitVec 3) (i : BitVec 8) : F.Statement (.bk p m x n i) :=
  roundTrip_short rfl (fun _ _ => by simp [decodeB, Instr.pfx, Short.i8, Short.d64, Short.d20, Short.zA, encI, zr])

theorem F.bs (p : Pfx) (c : BitVec 3) (a : S1) (i : BitVec 8) : F.Statement (.bs p c a i) :=
  roundTrip_short rfl (fun _ _ => by simp [decodeB, Instr.pfx, Short.mk3, Short.A, Short.i8, Short.d64, zr])

theorem F.call (p : Pfx) (d : Opnd) (i : BitVec 8) : F.Statement (.call p d i) :=
  roundTrip_short rfl (fun _ _ => by simp [decodeB, Instr.pfx, Short.D, Short.i8, Short.zA, encI, zr])

theorem F.ret (p : Pfx) (a : S1) : F.Statement (.ret p a) :=
  roundTrip_short rfl (fun _ _ => by simp [decodeB, Instr.pfx, Short.mk3, Short.A, Short.zB, Short.zD, zr])

theorem F.jmpr (p : Pfx) (link : Option Opnd) (a : S1) : F.Statement (.jmpr p link a) :=
  roundTrip_short (f := match link with
      | none => .mk3 true 0x5D#7 0#7 a false 0#7
      | some d => .mk3 true 0x5D#7 d.code a false 1#7) rfl (fun _ _ => by
    cases link <;> simp [decodeB, Instr.pfx, Short.mk3, Short.D, Short.A, Short.zD, zr])

theorem F.exit (p : Pfx) : F.Statement (.exit p) :=
  roundTrip_short rfl (fun _ _ => by simp [decodeB, Instr.pfx, Short.zB, Short.zA, Short.zD, encI, zr])

theorem F.enrol (p : Pfx) (n : BitVec 3) : F.Statement (.enrol p n) :=
  roundTrip_short rfl (fun _ _ => by simp [decodeB, Instr.pfx, Short.d20, Short.zB, Short.zA, encI, zr])

theorem F.park (p : Pfx) (n : BitVec 3) : F.Statement (.park p n) :=
  roundTrip_short rfl (fun _ _ => by simp [decodeB, Instr.pfx, Short.d20, Short.zB, Short.zA, encI, zr])

theorem F.strike (p : Pfx) (n : BitVec 3) : F.Statement (.strike p n) :=
  roundTrip_short rfl (fun _ _ => by simp [decodeB, Instr.pfx, Short.d20, Short.zB, Short.zA, encI, zr])

theorem F.yld (p : Pfx) : F.Statement (.yld p) :=
  roundTrip_short rfl (fun _ _ => by simp [decodeB, Instr.pfx, Short.zB, Short.zA, Short.zD, encI, zr])

theorem F.nop (p : Pfx) : F.Statement (.nop p) :=
  roundTrip_short rfl (fun _ _ => by simp [decodeB, Instr.pfx, Short.zB, Short.zA, Short.zD, encI, zr])

theorem F.wait (p : Pfx) (all : Bool) (fence : Bool) (sb : BitVec 4) : F.Statement (.wait p all fence sb) :=
  roundTrip_short rfl (fun _ _ => by simp [decodeB, Instr.pfx, Short.zA, Short.zD, encI, zr])

theorem F.ld (p : Pfx) (l : Lf) (n : BitVec 3) (d : Opnd) (m : MemOp) : F.Statement (.ld p l n d m) :=
  roundTrip_long rfl rfl (fun _ h => by
    have hf := fields_of_static h
    simp only [Instr.fieldReasons] at hf
    have hm : ∀ c sc, m.idx = some (c, sc) → sc ≠ 0#3 := MemOp.scale_ne_zero ((Bool.and_eq_true_iff.1 (reason_none (List.append_eq_nil_iff.1 hf).2)).1)
    obtain ⟨ma, idx, ofs, sco, ord⟩ := m
    have hn := form_none (List.append_eq_nil_iff.1 hf).1
    have hq : d.isQ = false := by simpa using (Bool.and_eq_true_iff.1 (reason_none (List.append_eq_nil_iff.1 hf).2)).2
    cases d with
    | q _ => cases hq
    | v _ | s _ | c _ =>
      cases idx with
      | none => rcases bv3_cases n with rfl | rfl | rfl | rfl | rfl | rfl | rfl | rfl <;> first | (simp at hn; done) | simp [decodeL, Instr.pfx, MemOp.c, MemOp.imm, encL, Long.D, Long.A, Long.l, Long.zB, Long.zC, Long.h3, Long.i, Long.mem, Long.zMem, zr]
      | some x =>
        have hx : x.2 ≠ 0#3 := hm x.1 x.2 rfl
        rcases bv3_cases n with rfl | rfl | rfl | rfl | rfl | rfl | rfl | rfl <;> first | (simp at hn; done) | simp [decodeL, Instr.pfx, MemOp.c, MemOp.imm, hx, encL, Long.D, Long.A, Long.C, Long.l, Long.zB, Long.h3, Long.i, Long.mem, Long.zMem, zr])

theorem F.ldToQueue (p : Pfx) (l : Lf) (n : BitVec 3) (q : BitVec 3) (m : MemOp) : F.Statement (.ldToQueue p l n q m) :=
  roundTrip_long rfl rfl (fun _ h => by
    have hf := fields_of_static h
    simp only [Instr.fieldReasons] at hf
    have hm : ∀ c sc, m.idx = some (c, sc) → sc ≠ 0#3 := MemOp.scale_ne_zero ((Bool.and_eq_true_iff.1 (reason_none (List.append_eq_nil_iff.1 hf).2)).1)
    obtain ⟨ma, idx, ofs, sco, ord⟩ := m
    have hn := form_none (List.append_eq_nil_iff.1 hf).1
    cases idx with
    | none => rcases bv3_cases n with rfl | rfl | rfl | rfl | rfl | rfl | rfl | rfl <;> first | (simp at hn; done) | simp [decodeL, Instr.pfx, MemOp.c, MemOp.imm, encL, Long.D, Long.A, Long.l, Long.zB, Long.zC, Long.h3, Long.i, Long.mem, Long.zMem, zr]
    | some x =>
      have hx : x.2 ≠ 0#3 := hm x.1 x.2 rfl
      rcases bv3_cases n with rfl | rfl | rfl | rfl | rfl | rfl | rfl | rfl <;> first | (simp at hn; done) | simp [decodeL, Instr.pfx, MemOp.c, MemOp.imm, hx, encL, Long.D, Long.A, Long.C, Long.l, Long.zB, Long.h3, Long.i, Long.mem, Long.zMem, zr])

theorem F.st (p : Pfx) (l : Lf) (n : BitVec 3) (m : MemOp) (b : Hs) : F.Statement (.st p l n m b) :=
  roundTrip_long rfl rfl (fun _ h => by
    have hf := fields_of_static h
    simp only [Instr.fieldReasons] at hf
    have hm : ∀ c sc, m.idx = some (c, sc) → sc ≠ 0#3 := MemOp.scale_ne_zero (reason_none (List.append_eq_nil_iff.1 hf).2)
    obtain ⟨ma, idx, ofs, sco, ord⟩ := m
    have hn := form_none (List.append_eq_nil_iff.1 hf).1
    cases idx with
    | none => rcases bv3_cases n with rfl | rfl | rfl | rfl | rfl | rfl | rfl | rfl <;> first | (simp at hn; done) | simp [decodeL, Instr.pfx, MemOp.c, MemOp.imm, encL, Long.A, Long.B, Long.l, Long.zD, Long.zC, Long.h3, Long.i, Long.mem, Long.zMem, zr]
    | some x =>
      have hx : x.2 ≠ 0#3 := hm x.1 x.2 rfl
      rcases bv3_cases n with rfl | rfl | rfl | rfl | rfl | rfl | rfl | rfl <;> first | (simp at hn; done) | simp [decodeL, Instr.pfx, MemOp.c, MemOp.imm, hx, encL, Long.A, Long.B, Long.C, Long.l, Long.zD, Long.h3, Long.i, Long.mem, Long.zMem, zr])

theorem F.lds (p : Pfx) (l : Lf) (n : BitVec 2) (d : Opnd) (m : MemOp) : F.Statement (.lds p l n d m) :=
  roundTrip_long rfl rfl (fun _ h => by
    have hf := fields_of_static h
    simp only [Instr.fieldReasons] at hf
    have hm : ∀ c sc, m.idx = some (c, sc) → sc ≠ 0#3 := MemOp.scale_ne_zero ((Bool.and_eq_true_iff.1 (reason_none hf)).1)
    obtain ⟨ma, idx, ofs, sco, ord⟩ := m
    cases idx with
    | none => rcases bv2_cases n with rfl | rfl | rfl | rfl <;> simp [decodeL, Instr.pfx, MemOp.c, MemOp.imm, encL,
          Long.D, Long.A, Long.l, Long.zB, Long.zC, Long.h3, Long.i, Long.mem, Long.zMem, zr]
    | some x =>
      have hx : x.2 ≠ 0#3 := hm x.1 x.2 rfl
      rcases bv2_cases n with rfl | rfl | rfl | rfl <;> simp [decodeL, Instr.pfx, MemOp.c, MemOp.imm, hx, encL, Long.D,
            Long.A, Long.C, Long.l, Long.zB, Long.h3, Long.i, Long.mem, Long.zMem, zr])

theorem F.sts (p : Pfx) (l : Lf) (n : BitVec 2) (m : MemOp) (b : Hs) : F.Statement (.sts p l n m b) :=
  roundTrip_long rfl rfl (fun _ h => by
    have hf := fields_of_static h
    simp only [Instr.fieldReasons] at hf
    have hm : ∀ c sc, m.idx = some (c, sc) → sc ≠ 0#3 := MemOp.scale_ne_zero (reason_none hf)
    obtain ⟨ma, idx, ofs, sco, ord⟩ := m
    cases idx with
    | none => rcases bv2_cases n with rfl | rfl | rfl | rfl <;> simp [decodeL, Instr.pfx, MemOp.c, MemOp.imm, encL,
          Long.A, Long.B, Long.l, Long.zD, Long.zC, Long.h3, Long.i, Long.mem, Long.zMem, zr]
    | some x =>
      have hx : x.2 ≠ 0#3 := hm x.1 x.2 rfl
      rcases bv2_cases n with rfl | rfl | rfl | rfl <;> simp [decodeL, Instr.pfx, MemOp.c, MemOp.imm, hx, encL, Long.A,
            Long.B, Long.C, Long.l, Long.zD, Long.h3, Long.i, Long.mem, Long.zMem, zr])

theorem F.cp (p : Pfx) (l : Lf) (n : BitVec 2) (d : Opnd) (a : Opnd) (b : Hs) (cv : BitVec 3) : F.Statement (.cp p l n d a b cv) :=
  roundTrip_long rfl rfl (fun _ _ => by
    rcases bv2_cases n with rfl | rfl | rfl | rfl <;> simp [decodeL, Instr.pfx, encL, Long.D, Long.B, Long.l, Long.zC,
          Long.h3, Long.zI, Long.i, zr])

theorem F.pref (p : Pfx) (l : Lf) (slice : Bool) (m : MemOp) : F.Statement (.pref p l slice m) :=
  roundTrip_long rfl rfl (fun _ h => by
    have hf := fields_of_static h
    simp only [Instr.fieldReasons] at hf
    have hm : ∀ c sc, m.idx = some (c, sc) → sc ≠ 0#3 := MemOp.scale_ne_zero (reason_none hf)
    obtain ⟨ma, idx, ofs, sco, ord⟩ := m
    cases idx with
    | none => simp [decodeL, Instr.pfx, MemOp.c, MemOp.imm, encL, Long.A, Long.l, Long.zD, Long.zC, Long.h3, Long.i,
          Long.mem, Long.zMem, Long.zB1, zr]
    | some x =>
      have hx : x.2 ≠ 0#3 := hm x.1 x.2 rfl
      simp [decodeL, Instr.pfx, MemOp.c, MemOp.imm, hx, encL, Long.A, Long.C, Long.l, Long.zD, Long.h3, Long.i, Long.mem,
            Long.zMem, Long.zB1, zr])

theorem F.cln (p : Pfx) (l : Lf) (toMem : Bool) (m : MemOp) : F.Statement (.cln p l toMem m) :=
  roundTrip_long rfl rfl (fun _ h => by
    have hf := fields_of_static h
    simp only [Instr.fieldReasons] at hf
    have hm : ∀ c sc, m.idx = some (c, sc) → sc ≠ 0#3 := MemOp.scale_ne_zero (reason_none hf)
    obtain ⟨ma, idx, ofs, sco, ord⟩ := m
    cases idx with
    | none => simp [decodeL, Instr.pfx, MemOp.c, MemOp.imm, encL, Long.A, Long.l, Long.zD, Long.zC, Long.h3, Long.i,
          Long.mem, Long.zMem, Long.zB1, zr]
    | some x =>
      have hx : x.2 ≠ 0#3 := hm x.1 x.2 rfl
      simp [decodeL, Instr.pfx, MemOp.c, MemOp.imm, hx, encL, Long.A, Long.C, Long.l, Long.zD, Long.h3, Long.i, Long.mem,
            Long.zMem, Long.zB1, zr])

theorem F.atom (p : Pfx) (l : Lf) (n : BitVec 2) (op : BitVec 7) (d : Opnd) (m : MemOp) (b : Hs) : F.Statement (.atom p l n op d m b) :=
  roundTrip_long rfl rfl (fun _ h => by
    have hf := fields_of_static h
    simp only [Instr.fieldReasons] at hf
    have hm : m.idx = none := MemOp.no_index ((Bool.and_eq_true_iff.1 (Bool.and_eq_true_iff.1 (reason_none hf)).1).1)
    obtain ⟨ma, idx, ofs, sco, ord⟩ := m
    cases hm
    rcases bv2_cases n with rfl | rfl | rfl | rfl <;> simp [decodeL, Instr.pfx, MemOp.imm, encL, Long.D, Long.A, Long.B,
          Long.l, Long.h3, Long.i, Long.mem0, Long.zMem0, zr])

theorem F.acas (p : Pfx) (l : Lf) (w : Bool) (d : Opnd) (m : MemOp) (b : Hs) (c : Hs) : F.Statement (.acas p l w d m b c) :=
  roundTrip_long rfl rfl (fun _ h => by
    have hf := fields_of_static h
    simp only [Instr.fieldReasons] at hf
    have hm : m.idx = none := MemOp.no_index (reason_none hf)
    obtain ⟨ma, idx, ofs, sco, ord⟩ := m
    cases hm
    cases w <;> simp [decodeL, Instr.pfx, MemOp.imm, encL, Long.D, Long.A, Long.B, Long.C, Long.l, Long.lo, Long.h3,
          Long.i, Long.mem0, Long.zMem0, zr])

theorem F.ared (p : Pfx) (l : Lf) (f : Bool) (op : BitVec 7) (m : MemOp) (b : Hs) : F.Statement (.ared p l f op m b) :=
  roundTrip_long rfl rfl (fun _ h => by
    have hf := fields_of_static h
    simp only [Instr.fieldReasons] at hf
    have hm : m.idx = none := MemOp.no_index ((Bool.and_eq_true_iff.1 (reason_none hf)).1)
    obtain ⟨ma, idx, ofs, sco, ord⟩ := m
    cases hm
    cases f <;> simp [decodeL, Instr.pfx, MemOp.imm, encL, Long.A, Long.B, Long.l, Long.lo, Long.zD, Long.h3, Long.i,
          Long.mem0, Long.zMem0, zr])

theorem F.waitv (p : Pfx) (l : Lf) (w : Bool) (d : Opnd) (m : MemOp) (b : Hs) : F.Statement (.waitv p l w d m b) :=
  roundTrip_long rfl rfl (fun _ h => by
    have hf := fields_of_static h
    simp only [Instr.fieldReasons] at hf
    have hm : m.idx = none := MemOp.no_index (reason_none hf)
    obtain ⟨ma, idx, ofs, sco, ord⟩ := m
    cases hm
    cases w <;> simp [decodeL, Instr.pfx, MemOp.imm, encL, Long.D, Long.A, Long.B, Long.l, Long.lo, Long.zC, Long.h3,
          Long.i, Long.mem0, Long.zMem0, zr])

theorem F.notify1 (p : Pfx) (l : Lf) (m : MemOp) : F.Statement (.notify1 p l m) :=
  roundTrip_long rfl rfl (fun _ h => by
    have hf := fields_of_static h
    simp only [Instr.fieldReasons] at hf
    have hm : m.idx = none := MemOp.no_index (reason_none hf)
    obtain ⟨ma, idx, ofs, sco, ord⟩ := m
    cases hm
    simp [decodeL, Instr.pfx, MemOp.imm, encL, Long.A, Long.l, Long.zD, Long.zB, Long.zC, Long.h3, Long.i, Long.mem0,
          Long.zMem0, zr])

theorem F.notifyall (p : Pfx) (l : Lf) (m : MemOp) : F.Statement (.notifyall p l m) :=
  roundTrip_long rfl rfl (fun _ h => by
    have hf := fields_of_static h
    simp only [Instr.fieldReasons] at hf
    have hm : m.idx = none := MemOp.no_index (reason_none hf)
    obtain ⟨ma, idx, ofs, sco, ord⟩ := m
    cases hm
    simp [decodeL, Instr.pfx, MemOp.imm, encL, Long.A, Long.l, Long.zD, Long.zB, Long.zC, Long.h3, Long.i, Long.mem0,
          Long.zMem0, zr])

theorem F.fence (p : Pfx) (l : Lf) (sco : BitVec 3) (ord : BitVec 2) : F.Statement (.fence p l sco ord) :=
  roundTrip_long rfl rfl (fun _ _ => by simp [decodeL, Instr.pfx, encL, Long.l, Long.zD, Long.zA, Long.zB, Long.zC,
        Long.h3, Long.i, Long.zMem0, zr])

theorem F.fmtres (p : Pfx) (l : Lf) (fmt : BitVec 4) (swz : BitVec 2) (blk : Bool) (d : Opnd) (a : Hs) : F.Statement (.fmtres p l fmt swz blk d a) :=
  roundTrip_long rfl rfl (fun _ _ => by simp [decodeL, Instr.pfx, encL, Long.D, Long.A, Long.l, Long.zB, Long.zC,
        Long.h3, Long.zI, Long.i, Long.bit, zr])

theorem F.fmtrel (p : Pfx) (l : Lf) (a : Hs) : F.Statement (.fmtrel p l a) :=
  roundTrip_long rfl rfl (fun _ _ => by simp [decodeL, Instr.pfx, encL, Long.A, Long.l, Long.zD, Long.zB, Long.zC,
        Long.h3, Long.zI, zr])

theorem F.mld (p : Pfx) (l : Lf) (scl : Bool) (d : Opnd) (a : Hs) (b : Hs) (c : Hs) : F.Statement (.mld p l scl d a b c) :=
  roundTrip_long rfl rfl (fun _ _ => by simp [decodeL, Instr.pfx, encL, Long.D, Long.A, Long.B, Long.C, Long.l, Long.h3,
        Long.zI, Long.bit, zr])

theorem F.mldT (p : Pfx) (l : Lf) (scl : Bool) (d : Opnd) (a : Hs) (b : Hs) (c : Hs) : F.Statement (.mldT p l scl d a b c) :=
  roundTrip_long rfl rfl (fun _ _ => by simp [decodeL, Instr.pfx, encL, Long.D, Long.A, Long.B, Long.C, Long.l, Long.h3,
        Long.zI, Long.bit, zr])

theorem F.mso (p : Pfx) (l : Lf) (scl : Bool) (d : Opnd) (a : Hs) (b : Hs) (c : Hs) : F.Statement (.mso p l scl d a b c) :=
  roundTrip_long rfl rfl (fun _ _ => by simp [decodeL, Instr.pfx, encL, Long.D, Long.A, Long.B, Long.C, Long.l, Long.h3,
        Long.zI, Long.bit, zr])

theorem F.mrd (p : Pfx) (l : Lf) (w : BitVec 2) (t : BitVec 7) (d : Opnd) (a : Hs) : F.Statement (.mrd p l w t d a) :=
  roundTrip_long rfl rfl (fun _ _ => by simp [decodeL, Instr.pfx, encL, Long.D, Long.A, Long.l, Long.zB, Long.zC,
        Long.h3, Long.zI, Long.i, zr])

theorem F.mclr (p : Pfx) (l : Lf) (st : Bool) (t : BitVec 7) : F.Statement (.mclr p l st t) :=
  roundTrip_long rfl rfl (fun _ _ => by simp [decodeL, Instr.pfx, encL, Long.l, Long.zD, Long.zA, Long.zB, Long.zC,
        Long.h3, Long.zI, Long.i, Long.bit, zr])

theorem F.mmac (p : Pfx) (l : Lf) (a : Hs) (b : Hs) : F.Statement (.mmac p l a b) :=
  roundTrip_long rfl rfl (fun _ _ => by simp [decodeL, Instr.pfx, encL, Long.A, Long.B, Long.l, Long.zD, Long.zC,
        Long.h3, Long.zI, zr])

theorem F.mmacI (p : Pfx) (l : Lf) (a : Hs) (b : Hs) : F.Statement (.mmacI p l a b) :=
  roundTrip_long rfl rfl (fun _ _ => by simp [decodeL, Instr.pfx, encL, Long.A, Long.B, Long.l, Long.zD, Long.zC,
        Long.h3, Long.zI, zr])

theorem F.mqnt (p : Pfx) (l : Lf) (t : BitVec 7) (e4 : Bool) (sat : Bool) (col : Bool) (a : Hs) (b : Hs) (c : Hs) : F.Statement (.mqnt p l t e4 sat col a b c) :=
  roundTrip_long rfl rfl (fun _ _ => by simp [decodeL, Instr.pfx, encL, Long.A, Long.B, Long.C, Long.l, Long.zD, Long.h3,
        Long.zI, Long.i, Long.bit, zr])

theorem F.spick (p : Pfx) (l : Lf) (a : Hs) (b : Hs) (c : Hs) : F.Statement (.spick p l a b c) :=
  roundTrip_long rfl rfl (fun _ _ => by simp [decodeL, Instr.pfx, encL, Long.A, Long.B, Long.C, Long.l, Long.zD, Long.h3,
        Long.zI, zr])

theorem F.mstat (p : Pfx) (l : Lf) (keep : Bool) (t : BitVec 7) (d : Opnd) : F.Statement (.mstat p l keep t d) :=
  roundTrip_long rfl rfl (fun _ _ => by simp [decodeL, Instr.pfx, encL, Long.D, Long.l, Long.zA, Long.zB, Long.zC,
        Long.h3, Long.zI, Long.i, Long.bit, zr])

theorem F.qset (p : Pfx) (l : Lf) (q : BitVec 3) (depth : BitVec 5) : F.Statement (.qset p l q depth) :=
  roundTrip_long rfl rfl (fun _ _ => by simp [decodeL, Instr.pfx, encL, Long.l, Long.zD, Long.zA, Long.zB, Long.zC,
        Long.h3, Long.zI, Long.i, zr])

theorem F.qpeek (p : Pfx) (l : Lf) (q : BitVec 3) (d : Opnd) : F.Statement (.qpeek p l q d) :=
  roundTrip_long rfl rfl (fun _ _ => by simp [decodeL, Instr.pfx, encL, Long.D, Long.l, Long.zA, Long.zB, Long.zC,
        Long.h3, Long.zI, Long.i, zr])

theorem F.qdrain (p : Pfx) (l : Lf) (q : BitVec 3) (d : Option Opnd) : F.Statement (.qdrain p l q d) :=
  roundTrip_long (f := match d with
      | none => encL l 0x42#7 0#7 none none none (0#12 ++ q)
      | some d => encL l 0x42#7 d.code none none none (0#11 ++ 1#1 ++ q)) rfl rfl (fun _ _ => by
    cases d <;> simp [decodeL, Instr.pfx, encL, Long.D, Long.l, Long.zD, Long.zA, Long.zB, Long.zC, Long.h3, Long.zI,
          Long.i, Long.bit, zr])

theorem F.qcount (p : Pfx) (l : Lf) (q : BitVec 3) (sel : BitVec 2) (d : Opnd) : F.Statement (.qcount p l q sel d) :=
  roundTrip_long rfl rfl (fun _ _ => by simp [decodeL, Instr.pfx, encL, Long.D, Long.l, Long.zA, Long.zB, Long.zC,
        Long.h3, Long.zI, Long.i, zr])

theorem F.qtokTest (p : Pfx) (l : Lf) (q : BitVec 3) (k : BitVec 3) : F.Statement (.qtokTest p l q k) :=
  roundTrip_long rfl rfl (fun _ _ => by simp [decodeL, Instr.pfx, encL, Long.l, Long.zA, Long.zB, Long.zC, Long.h3,
        Long.zI, Long.i, Long.bit, zr])

theorem F.qtokTake (p : Pfx) (l : Lf) (q : BitVec 3) (d : Opnd) : F.Statement (.qtokTake p l q d) :=
  roundTrip_long rfl rfl (fun _ _ => by simp [decodeL, Instr.pfx, encL, Long.D, Long.l, Long.zA, Long.zB, Long.zC,
        Long.h3, Long.zI, Long.i, Long.bit, zr])

theorem F.spawn (p : Pfx) (l : Lf) (pw : BitVec 4) (a : Hs) (c : Hs) : F.Statement (.spawn p l pw a c) :=
  roundTrip_long rfl rfl (fun _ _ => by simp [decodeL, Instr.pfx, encL, Long.A, Long.C, Long.l, Long.zD, Long.zB,
        Long.h3, Long.zI, Long.i, zr])

theorem F.tokput (p : Pfx) (l : Lf) (pw : BitVec 4) (a : Hs) (b : Hs) (c : Hs) : F.Statement (.tokput p l pw a b c) :=
  roundTrip_long rfl rfl (fun _ _ => by simp [decodeL, Instr.pfx, encL, Long.A, Long.B, Long.C, Long.l, Long.zD, Long.h3,
        Long.zI, Long.i, zr])

theorem F.dset (p : Pfx) (l : Lf) (d : Opnd) (a : Hs) (b : Hs) (c : Hs) : F.Statement (.dset p l d a b c) :=
  roundTrip_long rfl rfl (fun _ _ => by simp [decodeL, Instr.pfx, encL, Long.D, Long.A, Long.B, Long.C, Long.l, Long.h3,
        Long.zI, zr])

theorem F.dget (p : Pfx) (l : Lf) (d : Opnd) (a : Hs) (b : Hs) : F.Statement (.dget p l d a b) :=
  roundTrip_long rfl rfl (fun _ _ => by simp [decodeL, Instr.pfx, encL, Long.D, Long.A, Long.B, Long.l, Long.zC, Long.h3,
        Long.zI, zr])

theorem F.refill (p : Pfx) (l : Lf) : F.Statement (.refill p l) :=
  roundTrip_long rfl rfl (fun _ _ => by simp [decodeL, Instr.pfx, encL, Long.l, Long.zD, Long.zA, Long.zB, Long.zC,
        Long.h3, Long.zI, zr])

theorem F.itemfin (p : Pfx) (l : Lf) : F.Statement (.itemfin p l) :=
  roundTrip_long rfl rfl (fun _ _ => by simp [decodeL, Instr.pfx, encL, Long.l, Long.zD, Long.zA, Long.zB, Long.zC,
        Long.h3, Long.zI, zr])

theorem F.ddrain (p : Pfx) (l : Lf) (a : Hs) (b : Hs) : F.Statement (.ddrain p l a b) :=
  roundTrip_long rfl rfl (fun _ _ => by simp [decodeL, Instr.pfx, encL, Long.A, Long.B, Long.l, Long.zD, Long.zC,
        Long.h3, Long.zI, zr])

theorem F.dspill (p : Pfx) (l : Lf) (a : Hs) (b : Hs) (c : Hs) : F.Statement (.dspill p l a b c) :=
  roundTrip_long rfl rfl (fun _ _ => by simp [decodeL, Instr.pfx, encL, Long.A, Long.B, Long.C, Long.l, Long.zD, Long.h3,
        Long.zI, zr])

theorem F.rcq (p : Pfx) (l : Lf) (d : Opnd) (a : Hs) : F.Statement (.rcq p l d a) :=
  roundTrip_long rfl rfl (fun _ _ => by simp [decodeL, Instr.pfx, encL, Long.D, Long.A, Long.l, Long.zB, Long.zC,
        Long.h3, Long.zI, zr])

theorem F.rcrd (p : Pfx) (l : Lf) (sel : BitVec 3) (acc : Bool) (d : Opnd) (a : Hs) : F.Statement (.rcrd p l sel acc d a) :=
  roundTrip_long rfl rfl (fun _ _ => by simp [decodeL, Instr.pfx, encL, Long.D, Long.A, Long.l, Long.zB, Long.zC,
        Long.h3, Long.zI, Long.i, Long.bit, zr])

theorem F.famset (p : Pfx) (l : Lf) (d : Opnd) : F.Statement (.famset p l d) :=
  roundTrip_long rfl rfl (fun _ _ => by simp [decodeL, Instr.pfx, encL, Long.D, Long.l, Long.zA, Long.zB, Long.zC,
        Long.h3, Long.zI, zr])

theorem F.capo (p : Pfx) (l : Lf) (a : Hs) (i : BitVec 15) : F.Statement (.capo p l a i) :=
  roundTrip_long rfl rfl (fun _ _ => by simp [decodeL, Instr.pfx, encL, Long.A, Long.l, Long.zD, Long.zB, Long.zC,
        Long.h3, zr])

theorem F.capx (p : Pfx) (l : Lf) : F.Statement (.capx p l) :=
  roundTrip_long rfl rfl (fun _ _ => by simp [decodeL, Instr.pfx, encL, Long.l, Long.zD, Long.zA, Long.zB, Long.zC,
        Long.h3, Long.zI, zr])

theorem F.bar (p : Pfx) (l : Lf) (cnt : BitVec 6) (pair : Bool) (n : BitVec 4) : F.Statement (.bar p l cnt pair n) :=
  roundTrip_long rfl rfl (fun _ _ => by simp [decodeL, Instr.pfx, encL, Long.l, Long.zD, Long.zA, Long.zB, Long.zC,
        Long.h3, Long.zI, Long.i, Long.bit, zr])

theorem F.barr (p : Pfx) (l : Lf) (cnt : BitVec 6) (pair : Bool) (n : BitVec 4) (d : Opnd) : F.Statement (.barr p l cnt pair n d) :=
  roundTrip_long rfl rfl (fun _ _ => by simp [decodeL, Instr.pfx, encL, Long.D, Long.l, Long.zA, Long.zB, Long.zC,
        Long.h3, Long.zI, Long.i, Long.bit, zr])

theorem F.barw (p : Pfx) (l : Lf) (pair : Bool) (n : BitVec 4) (a : Hs) : F.Statement (.barw p l pair n a) :=
  roundTrip_long rfl rfl (fun _ _ => by simp [decodeL, Instr.pfx, encL, Long.A, Long.l, Long.zD, Long.zB, Long.zC,
        Long.h3, Long.zI, Long.i, Long.bit, zr])

theorem F.trapSoft (p : Pfx) (l : Lf) (code : BitVec 12) (a : Option Hs) : F.Statement (.trapSoft p l code a) :=
  roundTrip_long (f := match a with
      | none => encL l 0x70#7 0#7 none none none (0b000#3 ++ code)
      | some a => encL l 0x70#7 0#7 (some a) none none (0b001#3 ++ code)) rfl rfl (fun _ _ => by
    cases a <;> simp [decodeL, Instr.pfx, encL, Long.A, Long.l, Long.zD, Long.zA, Long.zB, Long.zC, Long.h3, Long.i,
          Long.bit, zr])

theorem F.trapLink (p : Pfx) (l : Lf) (a : Hs) : F.Statement (.trapLink p l a) :=
  roundTrip_long rfl rfl (fun _ _ => by simp [decodeL, Instr.pfx, encL, Long.A, Long.l, Long.zD, Long.zB, Long.zC,
        Long.h3, Long.i, Long.bit, zr])

theorem F.trapGst (p : Pfx) (l : Lf) (mask : BitVec 8) : F.Statement (.trapGst p l mask) :=
  roundTrip_long rfl rfl (fun _ _ => by simp [decodeL, Instr.pfx, encL, Long.l, Long.zD, Long.zA, Long.zB, Long.zC,
        Long.h3, Long.i, Long.bit, zr])

theorem F.tret (p : Pfx) (l : Lf) : F.Statement (.tret p l) :=
  roundTrip_long rfl rfl (fun _ _ => by simp [decodeL, Instr.pfx, encL, Long.l, Long.zD, Long.zA, Long.zB, Long.zC,
        Long.h3, Long.zI, zr])

theorem F.tdel (p : Pfx) (l : Lf) (a : Option Hs) : F.Statement (.tdel p l a) :=
  roundTrip_long (f := match a with
      | none => encL l 0x72#7 0#7 none none none 0#15
      | some a => encL l 0x72#7 0#7 (some a) none none 1#15) rfl rfl (fun _ _ => by
    cases a <;> simp [decodeL, Instr.pfx, encL, Long.A, Long.l, Long.zD, Long.zA, Long.zB, Long.zC, Long.h3, Long.zI,
          Long.bit, zr])

theorem F.sysrd (p : Pfx) (l : Lf) (n : BitVec 8) (d : Opnd) : F.Statement (.sysrd p l n d) :=
  roundTrip_long rfl rfl (fun _ _ => by simp [decodeL, Instr.pfx, encL, Long.D, Long.l, Long.zA, Long.zB, Long.zC,
        Long.h3, Long.zI, Long.i, zr])

theorem F.syswr (p : Pfx) (l : Lf) (n : BitVec 8) (a : Hs) : F.Statement (.syswr p l n a) :=
  roundTrip_long rfl rfl (fun _ _ => by simp [decodeL, Instr.pfx, encL, Long.A, Long.l, Long.zD, Long.zB, Long.zC,
        Long.h3, Long.zI, Long.i, zr])

theorem F.brk (p : Pfx) (l : Lf) (code : BitVec 12) : F.Statement (.brk p l code) :=
  roundTrip_long rfl rfl (fun _ _ => by simp [decodeL, Instr.pfx, encL, Long.l, Long.zD, Long.zA, Long.zB, Long.zC,
        Long.h3, Long.zI, Long.i, zr])

theorem F.pmrd (p : Pfx) (l : Lf) (n : BitVec 2) (sel : BitVec 4) (clr : Bool) (d : Opnd) : F.Statement (.pmrd p l n sel clr d) :=
  roundTrip_long rfl rfl (fun _ _ => by simp [decodeL, Instr.pfx, encL, Long.D, Long.l, Long.zA, Long.zB, Long.zC,
        Long.h3, Long.zI, Long.i, Long.bit, zr])

theorem F.pmset (p : Pfx) (l : Lf) (n : BitVec 2) (a : Hs) : F.Statement (.pmset p l n a) :=
  roundTrip_long rfl rfl (fun _ _ => by simp [decodeL, Instr.pfx, encL, Long.A, Long.l, Long.zD, Long.zB, Long.zC,
        Long.h3, Long.zI, Long.i, zr])

theorem F.tick (p : Pfx) (l : Lf) (w : Bool) (d : Opnd) : F.Statement (.tick p l w d) :=
  roundTrip_long rfl rfl (fun _ _ => by simp [decodeL, Instr.pfx, encL, Long.D, Long.l, Long.zA, Long.zB, Long.zC,
        Long.h3, Long.zI, Long.bit, zr])

theorem F.enrd (p : Pfx) (l : Lf) (sel : BitVec 2) (d : Opnd) : F.Statement (.enrd p l sel d) :=
  roundTrip_long rfl rfl (fun _ _ => by simp [decodeL, Instr.pfx, encL, Long.D, Long.l, Long.zA, Long.zB, Long.zC,
        Long.h3, Long.zI, Long.i, zr])

theorem F.clauseBegin (gang : Nat) (access : Bool) : F.Statement (.clauseBegin gang access) :=
  roundTrip_event rfl

theorem F.longFormComplete (op : Nat) (lat : Nat) : F.Statement (.longFormComplete op lat) :=
  roundTrip_event rfl

theorem F.queueLoadFill (req : Nat) : F.Statement (.queueLoadFill req) :=
  roundTrip_event rfl

theorem F.copyLineLands (op : Nat) : F.Statement (.copyLineLands op) :=
  roundTrip_event rfl

theorem F.matrixOpComplete (op : Nat) : F.Statement (.matrixOpComplete op) :=
  roundTrip_event rfl

theorem F.homeSliceAct (req : Nat) : F.Statement (.homeSliceAct req) :=
  roundTrip_event rfl

theorem F.writeBufferDrain (entry : Nat) : F.Statement (.writeBufferDrain entry) :=
  roundTrip_event rfl

theorem F.promotion (req : Nat) : F.Statement (.promotion req) :=
  roundTrip_event rfl

theorem F.pageWalk (core : Nat) (owner : Nat) (va : DWord) (write : Bool) : F.Statement (.pageWalk core owner va write) :=
  roundTrip_event rfl

theorem F.strokeCommit (gang : Nat) : F.Statement (.strokeCommit gang) :=
  roundTrip_event rfl

theorem F.absentLineWake (gang : Nat) (access : Bool) : F.Statement (.absentLineWake gang access) :=
  roundTrip_event rfl

theorem F.allotmentFill (group : Nat) (line : Nat) : F.Statement (.allotmentFill group line) :=
  roundTrip_event rfl

theorem F.accessContextEnd (gang : Nat) : F.Statement (.accessContextEnd gang) :=
  roundTrip_event rfl

theorem F.trapEntry (gang : Nat) (access : Bool) : F.Statement (.trapEntry gang access) :=
  roundTrip_event rfl

theorem F.permitBackoffExpiry (gang : Nat) (access : Bool) : F.Statement (.permitBackoffExpiry gang access) :=
  roundTrip_event rfl

theorem F.directDelegation (gang : Nat) (access : Bool) : F.Statement (.directDelegation gang access) :=
  roundTrip_event rfl

theorem F.doubleTrap (gang : Nat) (access : Bool) : F.Statement (.doubleTrap gang access) :=
  roundTrip_event rfl

theorem F.retry (entry : Nat) : F.Statement (.retry entry) :=
  roundTrip_event rfl

theorem F.skip (entry : Nat) : F.Statement (.skip entry) :=
  roundTrip_event rfl

theorem F.endRes (entry : Nat) : F.Statement (.endRes entry) :=
  roundTrip_event rfl

theorem F.queryStop (src : QSrc) : F.Statement (.queryStop src) :=
  roundTrip_event rfl

theorem F.queryStep (src : QSrc) : F.Statement (.queryStep src) :=
  roundTrip_event rfl

theorem F.queryResume (src : QSrc) : F.Statement (.queryResume src) :=
  roundTrip_event rfl

theorem F.queryKill (src : QSrc) : F.Statement (.queryKill src) :=
  roundTrip_event rfl

theorem F.queryRead (src : QSrc) : F.Statement (.queryRead src) :=
  roundTrip_event rfl

theorem F.queryWrite (src : QSrc) : F.Statement (.queryWrite src) :=
  roundTrip_event rfl

theorem F.deferredStepClause (gang : Nat) (access : Bool) : F.Statement (.deferredStepClause gang access) :=
  roundTrip_event rfl

theorem F.launchRecordTake (ring : Nat) : F.Statement (.launchRecordTake ring) :=
  roundTrip_event rfl

theorem F.rootDuneEnqueue (launch : Nat) (cluster : Nat) : F.Statement (.rootDuneEnqueue launch cluster) :=
  roundTrip_event rfl

theorem F.rootDuneFiring (launch : Nat) (cluster : Nat) (core : Nat) : F.Statement (.rootDuneFiring launch cluster core) :=
  roundTrip_event rfl

theorem F.duneFiring (cluster : Nat) (core : Nat) : F.Statement (.duneFiring cluster core) :=
  roundTrip_event rfl

theorem F.driftExpiry (launch : Nat) (dune : Nat) : F.Statement (.driftExpiry launch dune) :=
  roundTrip_event rfl

theorem F.starving (launch : Nat) (dune : Nat) : F.Statement (.starving launch dune) :=
  roundTrip_event rfl

theorem F.finalDrain (launch : Nat) : F.Statement (.finalDrain launch) :=
  roundTrip_event rfl

theorem F.ringItemMove (launch : Nat) (dune : Nat) : F.Statement (.ringItemMove launch dune) :=
  roundTrip_event rfl

theorem F.launchCompletion (launch : Nat) : F.Statement (.launchCompletion launch) :=
  roundTrip_event rfl

theorem F.launchEndEarly (launch : Nat) (cause : Nat) : F.Statement (.launchEndEarly launch cause) :=
  roundTrip_event rfl

theorem F.evictRequest (gang : Nat) : F.Statement (.evictRequest gang) :=
  roundTrip_event rfl

theorem F.evictionDelay (gang : Nat) : F.Statement (.evictionDelay gang) :=
  roundTrip_event rfl

theorem F.absentLineLimit (gang : Nat) : F.Statement (.absentLineLimit gang) :=
  roundTrip_event rfl

theorem F.gangRestore (gang : Nat) (core : Nat) : F.Statement (.gangRestore gang core) :=
  roundTrip_event rfl

theorem F.queueDeadlockLimit (gang : Nat) : F.Statement (.queueDeadlockLimit gang) :=
  roundTrip_event rfl

theorem F.gangAgeing (gang : Nat) (access : Bool) : F.Statement (.gangAgeing gang access) :=
  roundTrip_event rfl

theorem F.spinDemotion (gang : Nat) : F.Statement (.spinDemotion gang) :=
  roundTrip_event rfl

theorem F.referenceTick (cluster : Nat) : F.Statement (.referenceTick cluster) :=
  roundTrip_event rfl

theorem F.clusterEnergyAdvance (cluster : Nat) : F.Statement (.clusterEnergyAdvance cluster) :=
  roundTrip_event rfl

theorem F.deviceEnergyAdvance  : F.Statement (.deviceEnergyAdvance ) :=
  roundTrip_event rfl

theorem F.currentReservationGrant (cluster : Nat) : F.Statement (.currentReservationGrant cluster) :=
  roundTrip_event rfl

theorem F.peerTimeout (req : Nat) : F.Statement (.peerTimeout req) :=
  roundTrip_event rfl

theorem F.peerAccess (port : Nat) (addr : Nat) (acc : ExtAcc) : F.Statement (.peerAccess port addr acc) :=
  roundTrip_event rfl

theorem F.hostAccess (addr : Nat) (acc : ExtAcc) : F.Statement (.hostAccess addr acc) :=
  roundTrip_event rfl

theorem F.tail (ring : Nat) (t : DWord) : F.Statement (.tail ring t) :=
  roundTrip_event rfl

theorem F.rstat (ring : Nat) (w : DWord) : F.Statement (.rstat ring w) :=
  roundTrip_event rfl

theorem F.ringConfigure (ring : Nat) (cfg : DWord) (owner : Option (Nat × BitVec 10)) : F.Statement (.ringConfigure ring cfg owner) :=
  roundTrip_event rfl

theorem F.ringDisable (ring : Nat) (cfg : DWord) : F.Statement (.ringDisable ring cfg) :=
  roundTrip_event rfl

theorem F.deviceSettingWrite (r : SysReg) (w : List DWord) : F.Statement (.deviceSettingWrite r w) :=
  roundTrip_event rfl

theorem F.registerWrite (r : HostReg) (w : List DWord) : F.Statement (.registerWrite r w) :=
  roundTrip_event rfl

theorem F.attestation  : F.Statement (.attestation ) :=
  roundTrip_event rfl

theorem F.recoveryProgramming  : F.Statement (.recoveryProgramming ) :=
  roundTrip_event rfl

theorem F.attestationDone (ok : Bool) : F.Statement (.attestationDone ok) :=
  roundTrip_event rfl

theorem F.mlogExtend (d : BitVec 256) : F.Statement (.mlogExtend d) :=
  roundTrip_event rfl

theorem F.fuseBlow (n : Nat) : F.Statement (.fuseBlow n) :=
  roundTrip_event rfl

theorem F.deviceReset  : F.Statement (.deviceReset ) :=
  roundTrip_event rfl

theorem F.tlbInvalidation (owner : Nat) (lo : DWord) (hi : DWord) : F.Statement (.tlbInvalidation owner lo hi) :=
  roundTrip_event rfl

theorem F.icacheInvalidation (lo : Nat) (hi : Nat) : F.Statement (.icacheInvalidation lo hi) :=
  roundTrip_event rfl

theorem F.pendingEventPost  : F.Statement (.pendingEventPost ) :=
  roundTrip_event rfl

theorem F.uncorrectableError (e : ErrSite) : F.Statement (.uncorrectableError e) :=
  roundTrip_event rfl

theorem F.contextStoreError (gang : Nat) (access : Bool) : F.Statement (.contextStoreError gang access) :=
  roundTrip_event rfl

theorem F.hostWriteAcknowledgement (entry : Nat) : F.Statement (.hostWriteAcknowledgement entry) :=
  roundTrip_event rfl

theorem F.peerLinkDown (port : Nat) : F.Statement (.peerLinkDown port) :=
  roundTrip_event rfl

theorem F.peerLinkUp (port : Nat) : F.Statement (.peerLinkUp port) :=
  roundTrip_event rfl

theorem F.flitCrcRetry (port : Nat) : F.Statement (.flitCrcRetry port) :=
  roundTrip_event rfl

theorem F.functionLevelReset  : F.Statement (.functionLevelReset ) :=
  roundTrip_event rfl

theorem F.duneRingFaultResolution (launch : Nat) (dune : Nat) : F.Statement (.duneRingFaultResolution launch dune) :=
  roundTrip_event rfl

end Sys2Proof.Laws
end

