-- ==== Sys2Proof/Tests/Slice0.lean ====
section
/-! SUPPORT. Tests of this package: ill-formed instructions that each check refuses, words of the specification's encodings, results of its
worked examples, and for every statement a state and operands that meet its hypotheses. -/

namespace Sys2Proof.Tests

set_option Elab.async false

open Sys2Proof Sys2Proof.Machine

/-! ### States -/

/-- The placed gang of width 16, about to run the last instruction of its clause. -/
def base : State := (State.reset.placeWord []).setCur (some ⟨0, false⟩)
/-- Its compute context, changed. -/
def tweak (s : State) (f : Ctx → Ctx) : State := s.updCtx ⟨0, false⟩ f
/-- Words in v registers (register, lane, word), in s registers, and lanes as the path. -/
def withV (l : List (Nat × Nat × Word)) (s : State) : State :=
  tweak s fun c => { c with v := l.foldl (fun v x => v.put (64 * x.1 + x.2.1) ⟨x.2.2, false, false⟩) c.v }
def withS (l : List (Nat × Word)) (s : State) : State :=
  tweak s fun c => { c with s := l.foldl (fun v x => v.put x.1 ⟨x.2, false, false⟩) c.s }
def only (m : Mask) (s : State) : State := tweak s fun c => { c with path := m }
/-- The same word in a v register of all 16 lanes. -/
def allV (r : Nat) (w : Word) (s : State) : State := withV ((List.range 16).map fun k => (r, k, w)) s
/-- What an instruction leaves. -/
def after (i : Instr) (s : State) : State := match exec i s with | .next t => t | _ => s
/-- Whether it answers a next state of which a test holds. -/
def leaves (i : Instr) (s : State) (p : State → Bool) : Bool := match exec i s with | .next t => p t | _ => false
def word (s : State) (r n : Nat) : Option Word := (s.vreg ⟨0, false⟩ r n).map (·.val)
def gst (s : State) : Option Word := s.gst ⟨0, false⟩

/-! ### Instructions that issue -/

def readyWith (s : State) (p : Env → Bool) (i : Instr) : Bool :=
  match env? i s with
  | none => false
  | some e => e.goes s && e.calm && p e

theorem readyWith_spec {s : State} {p : Env → Bool} {i : Instr} (h : readyWith s p i = true) : ∃ e, Ready i s e ∧ p e = true := by
  unfold readyWith at h
  split at h
  · cases h
  · next e he =>
    simp only [Bool.and_eq_true] at h
    exact ⟨e, ⟨he, h.1.1, h.1.2⟩, h.2⟩

/-- A list of instructions each of which issues in a state, in an environment of which a test holds. -/
def Issue (s : State) (p : Env → Bool) (is : List Instr) : Prop := ∀ i ∈ is, ∃ e, Ready i s e ∧ p e = true

theorem issue {s : State} {p : Env → Bool} {is : List Instr} (h : is.all (readyWith s p) = true) : Issue s p is :=
  fun i hi => readyWith_spec (List.all_eq_true.1 h i hi)

/-- The compute context of the placed gang. -/
def X : Site := ⟨0, false⟩
def any (_ : Env) : Bool := true

/-- No prefix; a predicate k0 that is 0, so that no lane is active; v and s operands. -/
def P : Pfx := ⟨none, none⟩
def P0 : Pfx := ⟨some ⟨0, false, true, false, 0, false⟩, none⟩
def V (n : BitVec 6) : S1 := ⟨.v n, false⟩
def R (n : BitVec 6) : RI := .reg (V n)
def F (n : BitVec 6) : FSrc := .f32 (V n)
def H (n : BitVec 6) : Hs := ⟨.v n, .none⟩
def HS (n : Fin 48) : Hs := ⟨.s n, .none⟩
def L : Lf := ⟨0, 0⟩
/-- Memory at the pair s0:s1 (and so in one register s0), relaxed; with scope and order. -/
def M : MemOp := ⟨HS 0, none, 0, 0, 0⟩

/-! ### Words of the encodings (02:R43 to R49, R57 to R59 and each instruction's entry) -/

/-- Whether words decode to an instruction and to nothing more. -/
def reads (x : List Word × Instr) : Bool :=
  match decode false x.1 with
  | .ok (i, n) => decide (i = x.2 ∧ n = x.1.length)
  | .error _ => false

/-- Words of page A: integer arithmetic, shifts and logic. -/
theorem test_words_integer :
    [([0x00030102], .add P false (.v 3) (V 1) (R 2)), ([0x03C48185], .sub P true (.s 4) ⟨.v 1, true⟩ (.imm 0x85)),
     ([0x04030182], .mul P false (.v 3) (V 1) (.reg ⟨.v 2, true⟩)), ([0x07030102], .mulhi P true (.v 3) (V 1) (R 2)),
     ([0x08830107], .mad P false (.v 3) (V 1) (.imm 7)), ([0x0B030102], .madhi P true (.v 3) (V 1) (R 2)),
     ([0x0C030100], .neg P false (.v 3) (V 1)), ([0x0D840200], .abs P true (.v 4) (V 2)), ([0x0E030102], .min P false (.v 3) (V 1) (R 2)),
     ([0x11830109], .max P true (.v 3) (V 1) (.imm 9)), ([0x12040201], .lea P (.v 4) (V 2) (.i32 (V 1))),
     ([0x12840201], .lea P (.v 4) (V 2) (.n32 (V 1))), ([0x13040206], .lea P (.v 4) (V 2) (.i64 (V 6))),
     ([0x13840280], .lea P (.v 4) (V 2) (.imm 0x80)), ([0x20030102], .shl P (.v 3) (V 1) (R 2)),
     ([0x21830104], .shr P (.v 3) (V 1) (.imm 4)), ([0x22030102], .sra P (.v 3) (V 1) (R 2)),
     ([0x23830104], .rotl P (.v 3) (V 1) (.imm 4)), ([0x24030102], .and P (.v 3) (V 1) (R 2)), ([0x25830104], .or P (.v 3) (V 1) (.imm 4)),
     ([0x26030102], .xor P (.v 3) (V 1) (R 2)), ([0x27830104], .andn P (.v 3) (V 1) (.imm 4)), ([0x28030100], .not P (.v 3) (V 1)),
     ([0x28830100], .clz P (.v 3) (V 1)), ([0x29030100], .ctz P (.v 3) (V 1)), ([0x29830100], .popc P (.v 3) (V 1)),
     ([0x2A030100], .brev P (.v 3) (V 1)), ([0x2A830102], .bfx P (.v 3) (V 1) (V 2)), ([0x2B030102], .bfi P (.v 3) (V 1) (V 2))].all reads = true := by decide +kernel

/-- Words of page A: compare, move, conversions and bytes. -/
theorem test_words_moves :
    [([0x30510203], .cmp P false 5 1 (V 2) (R 3)), ([0x31F20203], .cmp P true 7 2 (V 2) (.imm 3)),
     ([0x3203010A], .sel P (.v 3) (V 1) true 2), ([0x32830299], .selImm P (.v 3) false 2 0x99), ([0x33030100], .mov P false (.v 3) (V 1)),
     ([0x33840200], .mov P true (.v 4) (V 2)), ([0x34440081], .li P false (.s 4) 0x81), ([0x34840001], .li P true (.v 4) 1),
     ([0x38050384], .cvt P 0 (.v 5) (V 3) 8 4), ([0x3A040340], .cvt P 4 (.v 4) (V 3) 4 0),
     ([0x3C098144], .req P false (.v 9) ⟨.v 1, true⟩ ⟨.s 4, false⟩), ([0x3C890104], .req P true (.v 9) (V 1) (V 4)),
     ([0x3D030102], .pack4 P (.v 3) (V 1) (V 2)), ([0x3D840101], .unpack4 P true (.v 4) (V 1)),
     ([0x3E830102], .dot4 P true (.v 3) (V 1) (V 2))].all reads = true := by decide +kernel

/-- Words of page B: floating point, special functions and lanes. -/
theorem test_words_float :
    [([0x40058607], .fadd P (.v 5) ⟨.v 6, true⟩ (F 7)), ([0x42830102], .fsub P (.v 3) (V 1) (.bf16 (V 2))),
     ([0x45030102], .fmul P (.v 3) (V 1) (.f16 (V 2))), ([0x47830180], .ffma P (.v 3) (V 1) (.lit 0x80)),
     ([0x48030102], .fmin P (.v 3) (V 1) (F 2)), ([0x4A830102], .fmax P (.v 3) (V 1) (.bf16 (V 2))),
     ([0x4C830101], .fabs P .f16 (.v 3) (V 1)), ([0x4D030100], .fneg P .f32 (.v 3) (V 1)), ([0x4E230102], .fcmp P 2 3 (V 1) (F 2)),
     ([0x50910180], .fcls P 1 1 (V 1) (.imm 0x80)), ([0x51030100], .rcp P (.v 3) (V 1)), ([0x51830100], .rsq P (.v 3) (V 1)),
     ([0x52030100], .sqrt P (.v 3) (V 1)), ([0x52830100], .exp2 P (.v 3) (V 1)), ([0x53030100], .log2 P (.v 3) (V 1)),
     ([0x53830100], .sin P (.v 3) (V 1)), ([0x54030100], .cos P (.v 3) (V 1)), ([0x54830100], .tanh P (.v 3) (V 1)),
     ([0x60830000], .rng P true (.v 3)), ([0x61030102], .shflIdx P (.v 3) (V 1) (V 2)), ([0x61830102], .shflUp P (.v 3) (V 1) (V 2)),
     ([0x62030102], .shflDown P (.v 3) (V 1) (V 2)), ([0x62830102], .shflXor P (.v 3) (V 1) (V 2)), ([0x63210A00], .vote P 2 1 true 2),
     ([0x63840200], .voteBallot P (.v 4) false 2), ([0x65080300], .red P 2 0 (.v 8) (V 3)), ([0x6789030B], .scan P 3 true 3 (.v 9) (V 3)),
     ([0x6803010F], .bcast P (.v 3) (V 1) 15), ([0x68830100], .bcastNib P (.v 3) (V 1))].all reads = true := by decide +kernel

/-- Words of page B: control. -/
theorem test_words_control :
    [([0x6C0000F6], .br P 0xF6), ([0x6CA90009], .bk P 2 true 1 9), ([0x6D30C109], .bs P 3 ⟨.s 1, true⟩ 9),
     ([0x6DC40009], .call P (.s 4) 9), ([0x6E008400], .ret P ⟨.v 4, true⟩), ([0x6E860401], .jmpr P (some (.v 6)) (V 4)),
     ([0x6E800400], .jmpr P none (V 4)), ([0x6F000000], .exit P), ([0x6F870000], .enrol P 7), ([0x70010000], .park P 1),
     ([0x70810000], .strike P 1), ([0x71000000], .yld P), ([0x71800000], .nop P), ([0x72000035], .wait P true true 5)].all reads = true := by decide +kernel

/-- Words of the long map: memory. -/
theorem test_words_memory :
    [([0x82040401, 0x2862C86B], .ld P ⟨1, 2⟩ 4 (.v 4) ⟨⟨.v 2, .last⟩, some (⟨.s 5, .keep⟩, 3), 0x48, 3, 1⟩),
     ([0x82788400, 0x00000000], .ldToQueue P L 4 0 ⟨HS 2, none, 0, 0, 0⟩),
     ([0x85800420, 0x02007F90], .st P L 3 ⟨H 2, none, 0x7F, 4, 2⟩ ⟨.v 8, .last⟩),
     ([0x89868202, 0x00000000], .lds P ⟨2, 0⟩ 3 (.v 6) ⟨HS 1, none, 0, 0, 0⟩),
     ([0x8B008220, 0x00008401], .sts P L 2 ⟨HS 1, some (H 1, 1), 4, 0, 0⟩ (H 8)),
     ([0x8C051514, 0x00000000], .cp P L 0 (.v 5) (.v 10) (HS 5) 0), ([0x8D841514, 0x02000005], .cp P L 3 (.v 4) (.v 10) ⟨.s 5, .last⟩ 5),
     ([0x8E000404, 0x00000000], .pref P L true ⟨H 2, none, 0, 0, 0⟩), ([0x8E800404, 0x00000000], .cln P L true ⟨H 2, none, 0, 0, 0⟩),
     ([0x8F060421, 0x00000078], .atom P ⟨1, 0⟩ 0 0 (.v 6) ⟨H 2, none, 0, 3, 3⟩ (H 8)),
     ([0x8F860420, 0x00090068], .atom P L 1 0x12 (.v 6) ⟨H 2, none, 0, 3, 1⟩ (H 8)),
     ([0x91860420, 0x00450000], .acas P L true (.v 6) ⟨H 2, none, 0, 0, 0⟩ (H 8) ⟨.v 10, .keep⟩),
     ([0x92000420, 0x00190000], .ared P L false 0x32 ⟨H 2, none, 0, 0, 0⟩ (H 8)),
     ([0x92800420, 0x00008000], .ared P L true 1 ⟨H 2, none, 0, 0, 0⟩ (H 8)),
     ([0x930A0C20, 0x00000068], .waitv P L false (.v 10) ⟨H 6, none, 0, 3, 1⟩ (H 8)),
     ([0x94000400, 0x00000070], .notify1 P L ⟨H 2, none, 0, 3, 2⟩), ([0x94800400, 0x00000000], .notifyall P L ⟨H 2, none, 0, 0, 0⟩),
     ([0x95000000, 0x00000098], .fence P L 4 3)].all reads = true := by decide +kernel

/-- Words of the long map: the matrix unit. -/
theorem test_words_matrix :
    [([0x984B9400, 0x00000012], .fmtres P L 2 1 false (.s 11) (HS 10)), ([0x98800600, 0x00000000], .fmtrel P L (H 3)),
     ([0x99488010, 0x09030001], .mld P L true (.s 8) ⟨.s 0, .last⟩ ⟨.v 4, .keep⟩ (H 6)),
     ([0x99C88110, 0x00230000], .mldT P L false (.s 8) (HS 0) (HS 4) (HS 6)),
     ([0x9A488110, 0x00230000], .mso P L false (.s 8) (HS 0) (HS 4) (HS 6)), ([0x9A840200, 0x00000085], .mrd P L 1 5 (.v 4) (H 1)),
     ([0x9B000000, 0x00000083], .mclr P L true 3), ([0x9B808D22, 0x10000000], .mmac P ⟨2, 1⟩ (HS 6) (HS 8)),
     ([0x9C008D20, 0x00000000], .mmacI P L (HS 6) (HS 8)), ([0x9C808104, 0x00210385], .mqnt P L 5 true true true (HS 0) (HS 1) (HS 2)),
     ([0x9D008104, 0x00210000], .spick P L (HS 0) (HS 1) (HS 2)), ([0x9D8A0003, 0x00000083], .mstat P ⟨3, 0⟩ true 3 (.v 10))].all reads = true := by decide +kernel

/-- Words of the long map: queues and dunes. -/
theorem test_words_queues :
    [([0xA0000000, 0x0000001A], .qset P L 2 3), ([0xA0840000, 0x00000001], .qpeek P L 1 (.v 4)),
     ([0xA1000000, 0x00000001], .qdrain P L 1 none), ([0xA1040000, 0x00000009], .qdrain P L 1 (some (.v 4))),
     ([0xA1840000, 0x00000011], .qcount P L 1 2 (.v 4)), ([0xA2030000, 0x00000001], .qtokTest P L 1 3),
     ([0xA2040000, 0x00000009], .qtokTake P L 1 (.v 4)), ([0xA8000800, 0x00840003], .spawn P L 3 (H 4) ⟨.v 8, .last⟩),
     ([0xA8800818, 0x00040003], .tokput P L 3 (H 4) (H 6) (H 8)), ([0xA9030818, 0x00040000], .dset P L (.v 3) (H 4) (H 6) (H 8)),
     ([0xA9880818, 0x00000000], .dget P L (.v 8) (H 4) (H 6)), ([0xAA000000, 0x00000000], .refill P L),
     ([0xAA800000, 0x00000000], .itemfin P L), ([0xAB000818, 0x00000000], .ddrain P L (H 4) (H 6)),
     ([0xAB800818, 0x00040000], .dspill P L (H 4) (H 6) (H 8))].all reads = true := by decide +kernel

/-- Words of the long map: the system class. -/
theorem test_words_system :
    [([0xB00A8C00, 0x00000000], .rcq P L (.v 10) (HS 6)), ([0xB0840400, 0x0000000A], .rcrd P L 2 true (.v 4) (H 2)),
     ([0xB1040000, 0x00000000], .famset P L (.v 4)), ([0xB4008400, 0x0000000C], .capo P L (HS 2) 0xC),
     ([0xB4800000, 0x00000000], .capx P L), ([0xB5000000, 0x00000051], .bar P L 2 true 1),
     ([0xB5840000, 0x00000041], .barr P L 2 false 1 (.v 4)), ([0xB6000400, 0x00000011], .barw P L true 1 (H 2)),
     ([0xB8000000, 0x00000FFF], .trapSoft P L 0xFFF none), ([0xB8000400, 0x00001005], .trapSoft P L 5 (some (H 2))),
     ([0xB8000400, 0x00003000], .trapLink P L (H 2)), ([0xB8000000, 0x00004010], .trapGst P L 0x10), ([0xB8800000, 0x00000000], .tret P L),
     ([0xB9000000, 0x00000000], .tdel P L none), ([0xB9000400, 0x00000001], .tdel P L (some (H 2))),
     ([0xB9800000, 0x00000009], .sysrd P L 9 (.v 0)), ([0xBA000400, 0x0000000C], .syswr P L 0xC (H 2)),
     ([0xBA800000, 0x00000007], .brk P L 7), ([0xBC060000, 0x0000004D], .pmrd P L 1 3 true (.v 6)),
     ([0xBC808800, 0x00000002], .pmset P L 2 (HS 4)), ([0xBD0A0001, 0x00000001], .tick P ⟨1, 0⟩ true (.v 10)),
     ([0xBD840000, 0x00000002], .enrd P L 2 (.v 4))].all reads = true := by decide +kernel

/-! ### Ill-formed instructions: each check refuses its term (02:R46, R47, R49, R50, R61, R62) -/

def refuses (x : Instr × Reason) : Bool := (x.1.static false).contains x.2
def md (rnd : BitVec 3) (sat pe flo : Bool) : Pfx := ⟨some ⟨rnd, sat, pe, false, 0, flo⟩, none⟩
def C (n : BitVec 3) : S1 := ⟨.c n, false⟩
def Q (n : BitVec 3) : S1 := ⟨.q n, false⟩

/-- Prefixes: a reserved rounding mode, each MOD field and an IMM that is not accepted. -/
theorem test_illFormed_prefixes :
    [(Instr.fadd (md 6 false false false) (.v 3) (V 1) (F 2), Reason.modReserved), (.and (md 1 false false false) (.v 3) (V 1) (R 2), .modNotAccepted),
     (.and (md 0 true false false) (.v 3) (V 1) (R 2), .modNotAccepted), (.br (md 0 false true false) 0, .modNotAccepted),
     (.add (md 0 false false true) false (.v 3) (V 1) (R 2), .modNotAccepted), (.add ⟨none, some 1⟩ false (.v 3) (V 1) (R 2), .immNotAccepted)].all
      refuses = true := by decide +kernel

/-- Operands: a hint on a port, pairs and quads that are odd, too high or ports, kinds of operand that a field does not admit. -/
theorem test_illFormed_operands :
    [(Instr.mov P false (.v 3) ⟨.q 0, true⟩, Reason.hintOnPort), (.mov P true (.v 3) (V 2), .absentOperand), (.mov P true (.s 47) (V 2), .absentOperand),
     (.lea P (.v 4) (Q 0) (.imm 0), .absentOperand), (.mad P false (.q 0) (V 1) (R 2), .absentOperand), (.cvt P 4 (.v 2) (V 3) 4 0, .absentOperand),
     (.shflIdx P (.v 3) (Q 0) (V 2), .reservedField), (.ld P L 4 (.c 0) M, .absentOperand), (.dget P L (.v 4) ⟨.q 0, .none⟩ (H 2), .absentOperand),
     (.fmtrel P L ⟨.q 0, .none⟩, .reservedField), (.scan P 0 false 0 (.s 3) (V 1), .reservedField), (.qtokTake P L 0 (.s 4), .absentOperand),
     (.bs P 0 (V 1) 0, .reservedField), (.spawn P L 8 (H 0) ⟨.v 60, .none⟩, .absentOperand), (.mov P false (.v 3) (C 0), .hintOnPort)].map refuses =
      List.replicate 14 true ++ [false] := by decide +kernel

/-- Fields: forms that no entry lists, and values that an entry excludes. -/
theorem test_illFormed_fields :
    [(Instr.cvt P 5 (.v 3) (V 1) 4 8, Reason.unassignedForm), (.cvt P 0 (.v 3) (V 1) 14 4, .reservedField), (.cvt P 1 (.v 3) (V 2) 4 8, .reservedField),
     (.fcls P 3 0 (V 1) (.imm 0), .reservedField), (.vote P 3 0 false 0, .reservedField), (.red P 3 0 (.v 3) (V 1), .reservedField),
     (.scan P 0 false 3 (.v 3) (V 1), .reservedField), (.bk P 3 false 0 0, .reservedField), (.bs P 6 ⟨.s 1, false⟩ 0, .reservedField),
     (.ld P L 7 (.v 4) M, .unassignedForm), (.ld P L 4 (.v 4) { M with ord := 2, sco := 3 }, .reservedField), (.ldToQueue P L 5 0 M, .reservedField),
     (.st P L 5 M (H 8), .unassignedForm), (.st P L 4 { M with sco := 3 } (H 8), .reservedField), (.lds P L 2 (.v 4) { M with ord := 1, sco := 3 }, .reservedField),
     (.sts P L 2 { M with idx := some (H 1, 6) } (H 8), .reservedField), (.cp P L 0 (.v 5) (.v 10) (H 4) 7, .reservedField),
     (.pref P L false { M with ord := 1, sco := 3 }, .reservedField), (.cln P L false { M with ord := 1, sco := 3 }, .reservedField),
     (.atom P L 0 7 (.v 4) M (H 8), .reservedField), (.atom P L 2 3 (.v 4) M (H 8), .reservedField), (.ared P L false 6 M (H 8), .reservedField),
     (.acas P L false (.v 4) { M with idx := some (H 1, 1) } (H 8) (H 10), .reservedField), (.waitv P L false (.v 4) { M with ord := 2, sco := 3 } (H 8), .reservedField),
     (.notify1 P L { M with ord := 1, sco := 3 }, .reservedField), (.notifyall P L { M with ord := 2, sco := 5 }, .reservedField), (.fence P L 3 0, .reservedField),
     (.fmtres P L 0 0 false (.v 4) (H 1), .reservedField), (.fmtres P L 1 3 false (.v 4) (H 1), .reservedField), (.mrd P L 3 0 (.v 4) (H 1), .reservedField),
     (.mqnt P L 0 false true false (HS 0) (HS 1) (HS 2), .reservedField), (.qset P L 0 0, .reservedField), (.qcount P L 0 3 (.v 4), .reservedField),
     (.spawn P L 9 (H 0) (H 2), .duneOperand), (.tokput P L 0 (H 0) (H 2) (H 4), .reservedField), (.rcrd P L 3 false (.v 4) (H 2), .reservedField),
     (.bar P L 33 false 0, .reservedField), (.barr P L 63 false 0 (.v 4), .reservedField), (.sysrd P L 7 (.v 4), .reservedField),
     (.sysrd P L 0x10 (.v 4), .reservedField), (.syswr P L 0x20 (HS 4), .reservedField), (.pmrd P L 0 13 false (.v 4), .reservedField),
     (.enrd P L 3 (.v 4), .reservedField)].all refuses = true := by decide +kernel

/-- Words that decode to nothing: an unassigned opcode, one left to a later member, a hint of 11, prefixes out of order or alone, a header in a
clause, a field that must be zero. -/
def rejects (x : List Word × Reject) : Bool :=
  match decode false x.1 with
  | .ok _ => false
  | .error r => decide (r = x.2)

theorem test_illFormed_words :
    [([0x72800000#32], Reject.reason .unassignedOpcode), ([0x14000000#32], .emulate), ([0x82040400#32, 0x0C000000#32], .reason .hint11),
     ([0xC8000000#32, 0xC0000000#32, 0x00030102#32], .reason .prefixOrder), ([0xC8000000#32, 0xC8000000#32, 0x00030102#32], .reason .orphanPrefix),
     ([0xD0000001#32], .reason .shortClause), ([0x0C030101#32], .reason .reservedField), ([0xC0000001#32, 0x00030102#32], .reason .modReserved),
     ([0x82040400#32], .more)].all rejects = true := by decide +kernel

/-! ### Results of the specification's worked examples and of its tables -/

def words (r : Nat) (s : State) : List (Option Word) := (List.range 4).map fun n => word s r n
/-- Four items: lanes 0 to 3 hold these words in a register. -/
def four (r : Nat) (a b c d : Word) (s : State) : State := only 0xF#64 (withV [(r, 0, a), (r, 1, b), (r, 2, c), (r, 3, d)] s)

/-- 05, requantising four lanes: 1000, 1020, 1012 and 2000 by 0.5 · 2^−2 with zero point −3; v1 is dead afterwards. -/
theorem test_req : leaves (.req P false (.v 9) ⟨.v 1, true⟩ ⟨.s 4, false⟩) (withS [(4, 0x40000000), (5, 0x00FD0002)] (four 1 1000 1020 1012 2000 base))
    (fun t => decide (words 9 t = [some 0x7A, some 0x7D, some 0x7B, some 0x7F] ∧ gst t = some 0x30 ∧ words 1 t = [none, none, none, none])) = true := by
  decide +kernel

/-- 06, tree order against lane order: `red`, `red.flo` and `scan` of 2^24, 1, 1, 1. -/
theorem test_red : leaves (.red P 2 0 (.v 8) (V 3)) (four 3 0x4B800000 0x3F800000 0x3F800000 0x3F800000 base)
    (fun t => decide (words 8 t = List.replicate 4 (some 0x4B800001) ∧ gst t = some 0x10)) = true := by decide +kernel
theorem test_red_flo : leaves (.red (md 0 false false true) 2 0 (.v 10) (V 3)) (four 3 0x4B800000 0x3F800000 0x3F800000 0x3F800000 base)
    (fun t => decide (words 10 t = List.replicate 4 (some 0x4B800000))) = true := by decide +kernel
theorem test_scan : leaves (.scan P 2 false 0 (.v 9) ⟨.v 3, true⟩) (four 3 0x4B800000 0x3F800000 0x3F800000 0x3F800000 base)
    (fun t => decide (words 9 t = [some 0x4B800000, some 0x4B800000, some 0x4B800000, some 0x4B800001])) = true := by decide +kernel

/-- 05:R111: an unsigned immediate of −1 wraps, or clamps with SAT; 05:R112: the negation of the least number; 05:R114: shifts by 32 and more. -/
theorem test_add_wraps : leaves (.add P true (.v 3) (V 1) (.imm 0xFF)) (four 1 0 1 5 0xFFFFFFFF base)
    (fun t => decide (words 3 t = [some 0xFFFFFFFF, some 0, some 4, some 0xFFFFFFFE])) = true := by decide +kernel
theorem test_add_clamps : leaves (.add (md 0 true false false) true (.v 3) (V 1) (.imm 0xFF)) (four 1 0 1 5 0xFFFFFFFF base)
    (fun t => decide (words 3 t = [some 0xFFFFFFFF, some 0xFFFFFFFF, some 0xFFFFFFFF, some 0xFFFFFFFF] ∧ gst t = some 0x20)) = true := by decide +kernel
theorem test_neg : leaves (.neg P false (.v 1) ⟨.v 1, true⟩) (four 1 0x80000000 1 0 0xFFFFFFFF base)
    (fun t => decide (words 1 t = [some 0x80000000, some 0xFFFFFFFF, some 0, some 1])) = true := by decide +kernel
theorem test_sra : leaves (.sra P (.v 3) (V 1) (.imm 32)) (four 1 0x80000000 0x7FFFFFFF 0 1 base)
    (fun t => decide (words 3 t = [some 0xFFFFFFFF, some 0, some 0, some 0])) = true := by decide +kernel
theorem test_mulhi : leaves (.mulhi P false (.v 3) (V 1) (.imm 0xFE)) (four 1 1 0x80000000 0 0xFFFFFFFF base)
    (fun t => decide (words 3 t = [some 0xFFFFFFFF, some 1, some 0, some 0])) = true := by decide +kernel

/-- 03:R51: a dead register reads as the poison word and sets PZ. -/
theorem test_dead_reads : leaves (.mov P false (.v 3) (V 1)) base (fun t => decide (word t 3 15 = some 0xFFA5A5A5) && (gst t).any fun w => decide (w ≠ 0)) = true := by
  decide +kernel

/-- 04, its table of conversions: 464.0 lies halfway between the largest `.e4m3` value and the next, and rounds to the largest. -/
theorem test_cvt : leaves (.cvt P 0 (.v 5) (V 3) 11 8) (four 3 0x43E80000 0x3F800000 0 0x80000000 base)
    (fun t => decide (words 5 t = [some 0x7E, some 0x38, some 0, some 0x80])) = true := by decide +kernel

/-- 06:R130 to R133: a sum of infinities of both signs, a comparison with a NaN, the lesser zero. -/
theorem test_fadd : leaves (.fadd P (.v 3) (V 1) (.lit 0)) (four 1 0x80000000 0x7F800001 0x3F800000 0xFF800000 base)
    (fun t => decide (words 3 t = [some 0, some 0x7FC00000, some 0x3F800000, some 0xFF800000])) = true := by decide +kernel
theorem test_fmin : leaves (.fmin P (.v 3) (V 1) (.lit 0)) (four 1 0x80000000 0x7FC00000 0x3F800000 0xBF800000 base)
    (fun t => decide (words 3 t = [some 0x80000000, some 0, some 0, some 0xBF800000])) = true := by decide +kernel
theorem test_sqrt : leaves (.sqrt P (.v 3) (V 1)) (four 1 0x40800000 0x80000000 0xBF800000 0x7F800000 base)
    (fun t => decide (words 3 t = [some 0x40000000, some 0x80000000, some 0x7FC00000, some 0x7F800000])) = true := by decide +kernel

/-- 06:R141, R142, R147. -/
theorem test_shfl : leaves (.shflUp P (.v 1) (V 1) (V 2)) (four 1 10 11 12 13 (allV 2 1 base)) (fun t => decide (words 1 t = [some 10, some 10, some 11, some 12])) = true := by
  decide +kernel
theorem test_ballot : leaves (.voteBallot P (.v 4) true 0) (only 0x5#64 base) (fun t => decide (word t 4 0 = some 5 ∧ word t 5 0 = some 0)) = true := by decide +kernel
theorem test_bcast : leaves (.bcastNib P (.v 3) (V 1)) (only 0xC#64 (withV [(1, 2, 7), (1, 3, 8)] base)) (fun t => decide (word t 3 3 = some 7 ∧ word t 3 0 = none)) = true := by
  decide +kernel

/-- 07:R148, R149: a branch of −10 words; lanes that fail `bk` stand after it. -/
def pcAt (s : State) (n : Nat) : Option DWord := (s.lane? X n).map (·.pc)
theorem test_br : leaves (.br P 0xF6) base (fun t => decide (pcAt t 3 = some 0xFFFDC#64)) = true := by decide +kernel
theorem test_bk : leaves (.bk P 0 false 1 9) (tweak base fun c => { c with k := [(1, 2#64)] })
    (fun t => decide (pcAt t 1 = some 0x100028#64 ∧ pcAt t 0 = some 0x100008#64)) = true := by decide +kernel

/-! ### Hypotheses of the statements about arithmetic -/

theorem test_witness_IntegerArithmetic : Issue base any
    [.add P false (.v 3) (V 1) (R 2), .sub P true (.s 3) (V 1) (.imm 5), .mul P false (.v 1) ⟨.v 1, true⟩ (R 2),
     .mulhi P true (.v 3) (V 1) (R 2), .mad P false (.v 3) (V 1) (R 2), .madhi P false (.v 3) (V 1) (R 2), .min P false (.v 3) (V 1) (R 2),
     .max P true (.v 3) (V 1) (R 2), .add P0 false (.v 3) (V 1) (R 2)] := issue (by decide +kernel)

theorem test_witness_SignAndAddress : Issue base any
    [.neg P false (.v 3) (V 1), .neg P true (.v 4) (V 2), .abs P false (.v 3) (V 1), .abs P true (.v 4) (V 2), .lea P (.v 4) (V 2) (.i32 (V 1)),
     .lea P (.v 4) (V 2) (.n32 (V 1)), .lea P (.v 4) (V 2) (.i64 (V 8)), .lea P (.s 4) (V 2) (.imm 0x80)] := issue (by decide +kernel)

theorem test_witness_ShiftsAndLogic : Issue base any
    [.shl P (.v 3) (V 1) (R 2), .shr P (.v 3) (V 1) (.imm 32), .sra P (.v 3) (V 1) (R 2), .rotl P (.v 3) (V 1) (R 2), .and P (.v 3) (V 1) (R 2),
     .or P (.v 3) (V 1) (R 2), .xor P (.v 3) (V 1) (R 2), .andn P (.v 3) (V 1) (R 2), .not P (.v 3) (V 1)] := issue (by decide +kernel)

theorem test_witness_BitFields : Issue base any
    [.clz P (.v 3) (V 1), .ctz P (.v 3) (V 1), .popc P (.v 3) (V 1), .brev P (.v 3) (V 1), .bfx P (.v 3) (V 1) (V 2), .bfi P (.v 3) (V 1) (V 2)] :=
  issue (by decide +kernel)

theorem test_witness_CompareSelectMove : Issue base any
    [.cmp P false 0 1 (V 1) (R 2), .cmp P true 7 7 (V 1) (.imm 0), .sel P (.v 3) (V 1) false 2, .selImm P (.v 3) true 2 9, .mov P false (.v 3) (V 1),
     .mov P true (.v 4) (V 2), .li P false (.s 47) 1, .li P true (.v 62) 255] := issue (by decide +kernel)

theorem test_witness_ConversionsAndBytes : Issue base any
    [.cvt P 0 (.v 5) (V 3) 8 4, .cvt P 4 (.v 4) (V 3) 4 0, .req P false (.v 9) (V 1) ⟨.s 4, false⟩, .req P true (.v 9) (V 1) (V 4),
     .pack4 P (.v 3) (V 1) (V 2), .unpack4 P true (.v 4) (V 1), .dot4 P true (.v 3) (V 1) (V 2)] := issue (by decide +kernel)

theorem test_witness_FloatArithmetic : Issue base any
    [.fadd P (.v 3) (V 1) (F 2), .fsub P (.v 3) (V 1) (.bf16 (V 2)), .fmul P (.v 3) (V 1) (.lit 0), .ffma P (.v 3) (V 1) (.f16 (V 2))] :=
  issue (by decide +kernel)

theorem test_witness_FloatSelectCompare : Issue base any
    [.fmin P (.v 3) (V 1) (F 2), .fmax P (.v 3) (V 1) (.f16 (V 2)), .fabs P .f32 (.v 3) (V 1), .fneg P .bf16 (.v 3) (V 1), .fcmp P 0 3 (V 1) (F 2),
     .fcls P 2 3 (V 1) (.imm 3)] := issue (by decide +kernel)

theorem test_witness_SpecialFunctions : Issue base any
    [.rcp P (.v 3) (V 1), .rsq P (.v 3) (V 1), .sqrt P (.v 3) (V 1), .exp2 P (.v 3) (V 1), .log2 P (.v 3) (V 1), .sin P (.v 3) (V 1),
     .cos P (.v 3) (V 1), .tanh P (.v 3) (V 1)] := issue (by decide +kernel)

theorem test_witness_LanesTogether : Issue base any
    [.shflIdx P (.v 3) (V 1) (V 2), .shflUp P (.v 3) (V 1) (V 2), .shflDown P (.v 3) (V 1) (V 2), .shflXor P (.v 3) (V 1) (V 2), .vote P 0 1 false 2,
     .voteBallot P (.v 4) true 2, .bcastNib P (.v 3) (V 1)] ∧
    Issue base (fun e => e.act.getLsbD 15) [.bcast P (.v 3) (V 1) 15] ∧
    Issue (only 0x7FFF#64 base) (fun e => !e.act.getLsbD 15) [.bcast P (.v 3) (V 1) 15] :=
  ⟨issue (by decide +kernel), issue (by decide +kernel), issue (by decide +kernel)⟩

theorem test_witness_ReduceAndScan : Issue base (fun e => decide (e.act ≠ 0#64)) [.red P 0 0 (.v 3) (V 1), .scan P 2 true 1 (.v 3) (V 1)] ∧
    Issue base (fun e => decide (e.act = 0#64)) [.scan P0 0 false 0 (.v 3) (V 1), .red P0 3 3 (.s 3) (V 1)] :=
  ⟨issue (by decide +kernel), issue (by decide +kernel)⟩

/-! ### Random numbers, transfers, paths and waits -/

theorem test_witness_RandomNumbers : Issue base any [.rng P false (.v 3), .rng P true (.s 3)] := issue (by decide +kernel)

/-- Whether the targets of a transfer's lanes are good. -/
def goodTargets (t : Env → Nat → DWord) (go : Env → Nat → Bool) (e : Env) : Bool :=
  e.atEase && e.lanes.all fun n => !go e n || (decide ((t e n).toNat % 4 = 0) && canonical (t e n))

theorem test_witness_TransfersOfControl :
    Issue base (goodTargets (fun e _ => e.disp 0xF6) fun _ _ => true) [.br P 0xF6, .call P (.s 4) 0xF6] ∧
    Issue base (goodTargets (fun e _ => e.disp 9) fun _ _ => true) [.bk P 0 false 1 9, .bs P 0 ⟨.s 1, false⟩ 9] ∧
    Issue (allV 4 0x100040 (allV 5 0 base)) (goodTargets (fun e k => e.pair 0 k) fun _ _ => true)
      [.ret P (V 4), .jmpr P none (V 4), .jmpr P (some (.v 6)) (V 4)] :=
  ⟨issue (by decide +kernel), issue (by decide +kernel), issue (by decide +kernel)⟩

theorem test_witness_ExitEndsLanes : Issue base (fun e => e.holder.isNone && e.lanes.all fun n =>
    match e.g.threads.get? n with | none => true | some t => decide (t.item = .no ∧ t.link.role ≠ .contender)) [.exit P] := issue (by decide +kernel)

theorem test_witness_RejoinMasks : Issue base (fun e => e.unheld && e.atEase) [.enrol P 0, .strike P 7, .park P 1] := issue (by decide +kernel)

theorem test_witness_WaitsPass : Issue base (fun e => e.waitMet base true 15#4) [.yld P, .nop P, .wait P false true 15] := issue (by decide +kernel)

/-! ### Hypotheses of the statements about memory -/

/-- An instruction issues in a state, all its lanes pass their checks, and a test holds of its environment, the state after the checks and
the translations. -/
def Reach (s : State) (kind : AccKind) (n : Nat) (va : Env → Nat → DWord) (p : Env → State → List (Nat × Xlat) → Bool) (i : Instr) : Prop :=
  ∃ e u xs, Ready i s e ∧ e.reaches s u kind n (va e) xs ∧ p e u xs = true

def reachWith (s : State) (kind : AccKind) (n : Nat) (va : Env → Nat → DWord) (p : Env → State → List (Nat × Xlat) → Bool) (i : Instr) : Bool :=
  readyWith s (fun e =>
    let c := e.checkLanes s kind n (va e)
    (c.1.all fun x => match x.2 with | .ok _ => true | .error _ => false) && p e c.2 (passesOf c.1)) i

theorem passes_all {l : List (Nat × Except TrapRec Xlat)} (h : (l.all fun x => match x.2 with | .ok _ => true | .error _ => false) = true) :
    l = (passesOf l).map fun p => (p.1, .ok p.2) := by
  induction l with
  | nil => rfl
  | cons a l ih =>
    obtain ⟨k, r⟩ := a
    simp only [List.all_cons, Bool.and_eq_true] at h
    cases r with
    | error t => simp at h
    | ok x =>
      have ih := ih h.2
      unfold passesOf at ih ⊢
      simp only [List.filterMap_cons, List.map_cons]
      exact congrArg _ ih

theorem reach {s : State} {kind : AccKind} {n : Nat} {va : Env → Nat → DWord} {p : Env → State → List (Nat × Xlat) → Bool} {i : Instr}
    (h : reachWith s kind n va p i = true) : Reach s kind n va p i := by
  obtain ⟨e, hr, hp⟩ := readyWith_spec h
  simp only [Bool.and_eq_true] at hp
  refine ⟨e, _, _, hr, ?_, hp.2⟩
  unfold Env.reaches
  rw [← passes_all hp.1]

/-- The pair s0:s1 and s2:s3 hold addresses in memory of the placed gang; its scratchpad; a queue q0 into the compute context. -/
def mem : State := withS [(0, 0x200000), (1, 0), (2, 0x300000), (3, 0)] base
def active (e : Env) : Bool := decide (e.act ≠ 0#64)

theorem test_witness_LoadsRead :
    Reach mem .read (ldSize 4) (fun e => e.gaddr M 1) (fun e u xs => active e && !e.stroke && xs.all fun x =>
      decide (x.2.mt = 0#2) && !u.readPoison e.core (ldSize 4) x.2 && !u.lineOwned (lineOf x.2.mt x.2.pa) &&
        !u.pendingOver e.x x.1 u.nextId x.2.mt x.2.pa (ldSize 4) && !e.g.queueLoadOver e.x.access x.1 u.nextId (e.gaddr M 1 x.1) (ldSize 4) &&
        decide (u.queueRecords e.core + xs.length ≤ 2048)) (.ld P L 4 (.v 4) M) ∧
    Reach mem .read (ldSize 4) (fun e => e.gaddr M 1) (fun e u xs => active e && !e.stroke && decide (u.queueRecords e.core + xs.length ≤ 2048))
      (.ld P L 4 (.v 4) { M with ord := 1, sco := 3 }) := ⟨reach (by decide +kernel), reach (by decide +kernel)⟩

theorem test_witness_StoresAreBuffered :
    Reach mem .write (stSize 4) (fun e => e.gaddr M 2) (fun e u xs => active e && !e.stroke && (xs.all fun x => !x.2.sh && decide (x.2.mt ≠ 2#2) &&
        !u.pendingOver e.x x.1 u.nextId x.2.mt x.2.pa (stSize 4)) &&
      u.mem.wbuf.keys.all fun k => decide (k ≤ u.nextId)) (.st P L 4 M (H 8)) := reach (by decide +kernel)

/-- Whether a request at home slices may be made. -/
def atHome (hbm : Bool) (e : Env) (_ : State) (xs : List (Nat × Xlat)) : Bool :=
  active e && !e.stroke && (!hbm || xs.all fun x => decide (x.2.mt = 0#2)) && xs.all fun x => decide (x.2.mt ≠ 2#2)

theorem test_witness_HomeRequests :
    Reach mem .rmw 4 (fun e => e.gaddr M 0) (atHome false) (.atom P L 0 0 (.v 4) M (H 8)) ∧
    Reach mem .rmw 8 (fun e => e.gaddr M 0) (atHome false) (.acas P L true (.v 4) M (H 8) (H 10)) ∧
    Reach mem .rmw 4 (fun e => e.gaddr M 0) (atHome false) (.ared P L false 0 M (H 8)) ∧
    Reach mem .waitv 4 (fun e => e.gaddr M 0) (atHome true) (.waitv P L false (.v 4) M (H 8)) ∧
    Reach mem .read 4 (fun e => e.gaddr M 0) (atHome true) (.notify1 P L M) ∧
    Reach mem .read 4 (fun e => e.gaddr M 0) (atHome true) (.notifyall P L M) :=
  ⟨reach (by decide +kernel), reach (by decide +kernel), reach (by decide +kernel), reach (by decide +kernel), reach (by decide +kernel),
   reach (by decide +kernel)⟩

/-- The placed gang as one of a decoupled kernel, with queues q0 into the compute context and q1 out of it; its access context stands too. -/
def queueKern (k : Kern) : Kern :=
  { k with decoupled := true, avregs := 32, asregs := 32, qdecl := [(0, ⟨false, 4⟩), (1, ⟨true, 4⟩)] }
def queued (s : State) : State :=
  (s.updLaunch 0 fun l => { l with kern := queueKern l.kern }).updGang 0 fun g =>
    { g with queues := [(0, ⟨false, 4, 4, []⟩), (1, ⟨true, 4, 4, []⟩)], actx := some g.cctx }
def access (s : State) : State := s.setCur (some ⟨0, true⟩)
/-- An entry in every lane of q0. -/
def filled (x : QEnt) (s : State) : State :=
  s.updGang 0 fun g => { g with queues := g.queues.upd 0 fun r => { r with ents := (List.range 16).map fun n => (n, [x]) } }

theorem test_witness_QueueLoadsIssue :
    let s := access (queued mem)
    Issue s (fun e => active e && (e.lanes.all fun k => match e.pushState 0 k with | .ready => true | _ => false) &&
      decide (s.queueRecords e.core + e.lanes.length ≤ 2048)) [.ldToQueue P L 4 0 M] := issue (by decide +kernel)

theorem test_witness_ScratchpadAccesses :
    let s := withS [(0, 0x100)] base
    Issue s (fun e => active e && e.spadGoes s M .read 4 1) [.lds P L 2 (.v 4) M] ∧
    Issue s (fun e => active e && e.spadGoes s M .write 8 2) [.sts P L 3 M (H 8)] := ⟨issue (by decide +kernel), issue (by decide +kernel)⟩

theorem test_witness_PrefetchCleanFence : Issue mem any [.pref P L true M] ∧
    Issue mem (fun e => active e && (failsOf (e.checkLanes (e.awake mem) .read 1 (e.gaddr M 1)).1).isEmpty) [.cln P L true M] ∧
    Issue mem active [.fence P L 3 3] :=
  ⟨issue (by decide +kernel), issue (by decide +kernel), issue (by decide +kernel)⟩

/-! ### Hypotheses about copies and the matrix unit -/

/-- The environment of an instruction that issues. -/
def env (i : Instr) (s : State) (h : (env? i s).isSome = true) : Env := (env? i s).get h

theorem ready_of {i : Instr} {s : State} (h : (env? i s).isSome = true) (g : (env i s h).goes s = true) (c : (env i s h).calm = true) :
    Ready i s (env i s h) := ⟨(Option.some_get h).symm, g, c⟩

def okOr {ε α : Type} (x : Except ε α) (d : α) : α := match x with | .ok a => a | .error _ => d
theorem okOr_eq {ε α : Type} {x : Except ε α} (d : α) (h : (match x with | .ok _ => true | .error _ => false) = true) : x = .ok (okOr x d) := by
  cases x with
  | error t => simp at h
  | ok a => rfl
def blockOf (b : Block) : List Byte := match b with | .ok bs => bs | _ => []
theorem blockOf_eq {b : Block} (h : (match b with | .ok _ => true | _ => false) = true) : b = .ok (blockOf b) := by
  cases b <;> first | rfl | simp at h

/-- One lane of the placed gang, whose group has 64 KiB of scratchpad with a parameter block at 0, and two reservations: 16 and 32 rows of 64
elements of `.bf16` (11, the example of one accumulation); a record of scales stands at 0x100. -/
def mtx : State :=
  let s := (only 1#64 base).updLaunch 0 fun l => { l with kern := { l.kern with spadb := 65536 } }
  let s := s.updGroup 0 fun g => { g with spad := [(0, 16#8), (2, 32#8), (4, 16#8), (0x102, 0x80#8), (0x103, 0x40#8)] }
  (s.setCores { s.cores with recs := [(0, ⟨0, 0, 16, 0, 1, false, 0, 1, 16⟩), (1, ⟨0, 16, 32, 0, 1, false, 0, 1, 32⟩)] })
def copyIn : Instr := .cp P L 0 (.s 6) (.s 0) (HS 7) 0
def copying : State := only 1#64 (withS [(6, 0x100), (7, 256)] mem)

theorem test_witness_CopiesIssue : Issue copying (fun e =>
    let c := e.cpLanes copying 0 0
    let jobs := c.1.filterMap fun x => match x.2 with | .ok ss ds => some (x.1, ss, ds) | _ => none
    active e && (c.1.all fun x => match x.2 with | .bad .. => false | _ => true) && decide (jobs.length = 1) &&
    jobs.all fun j => !(j.2.1.any (e.spanHeld c.2 j.1 false)) && !(j.2.2.any (e.spanHeld c.2 j.1 true)) &&
      j.2.1.all fun q => !q.spad || (c.2.absentLines ⟨q.group, q.at_, false⟩ q.n).isEmpty) [copyIn] := issue (by decide +kernel)

theorem test_witness_Reservations : Issue base (fun e => e.nib.isSome) [.fmtres P L 1 0 false (.v 4) (H 1)] ∧
    Issue (withS [(1, 1)] mtx) (fun e => e.nib.isSome && decide ((e.word 0 0).toNat < 64) && (e.recOf mtx (e.word 0 0).toNat).isSome)
      [.fmtrel P L (HS 1)] := ⟨issue (by decide +kernel), issue (by decide +kernel)⟩

/-- A rectangle of one row of 16 elements, 32 bytes, at 0x200. -/
def rects : State := withS [(0, 0x200), (4, 0x100001), (5, 0x20), (6, 0), (8, 0)] mtx
def load : Instr := .mld P L false (.s 8) (HS 0) (HS 4) (HS 6)
def loadT : Instr := .mldT P L false (.s 8) (HS 0) (HS 4) (HS 6)
def storeOut : Instr := .mso P L false (.s 8) (HS 0) (HS 4) (HS 6)
def rect0 : Rec := ⟨0, 0, 16, 0, 1, false, 0, 1, 16⟩
def rectRefs (e : Env) (s : State) (out : Bool) : List SpadRef :=
  okOr (e.spadAll s (if out then .write else .read) ((e.rect.bytes rect0 false e.rectBase).map (·.2.2))) []

theorem test_witness_RectanglesMove :
    (∃ e refs, Ready load rects e ∧ e.rectGoes rects false false false rect0 refs ∧ rects.absentAll refs = [] ∧ rects.heldAll refs none = false) ∧
    (∃ e refs, Ready loadT rects e ∧ e.rectGoes rects false false true rect0 refs ∧ rects.absentAll refs = [] ∧ rects.heldAll refs none = false) ∧
    (∃ e refs, Ready storeOut rects e ∧ e.rectGoes rects false true false rect0 refs ∧ e.partnerAbsent rects refs = [] ∧
      rects.heldAll refs (some e.g.group) = false ∧ e.copyAhead rects refs = false) := by
  refine ⟨⟨env load rects (by decide +kernel), rectRefs (env load rects (by decide +kernel)) rects false,
      ready_of _ (by decide +kernel) (by decide +kernel), ⟨0, ?_⟩, by decide +kernel, by decide +kernel⟩,
    ⟨env loadT rects (by decide +kernel), rectRefs (env loadT rects (by decide +kernel)) rects false,
      ready_of _ (by decide +kernel) (by decide +kernel), ⟨0, ?_⟩, by decide +kernel, by decide +kernel⟩,
    ⟨env storeOut rects (by decide +kernel), rectRefs (env storeOut rects (by decide +kernel)) rects true,
      ready_of _ (by decide +kernel) (by decide +kernel), ⟨0, ?_⟩, by decide +kernel, by decide +kernel, by decide +kernel⟩⟩
  all_goals exact ⟨by decide +kernel, by decide +kernel, by decide +kernel, by decide +kernel, by decide +kernel, by decide +kernel,
    fun h => absurd h (by decide), by decide +kernel, okOr_eq [] (by decide +kernel)⟩

/-- The selection word of the example of one accumulation, in tile 0. -/
def macs : State := withS [(6, 0), (8, 0x00800100)] mtx
/-- Integer reservations. -/
def macsI : State := macs.setCores { macs.cores with recs := [(0, ⟨0, 0, 16, 0, 5, false, 0, 1, 16⟩), (1, ⟨0, 16, 32, 0, 5, false, 0, 1, 32⟩)] }
def macOf (q r : Rec) : Mac := ⟨true, 0, 16, 32, 16, 0, 0, 0, 0, q, r⟩

theorem test_witness_MultiplyAccumulates :
    (∃ e, Ready (.mmac P L (HS 6) (HS 8)) macs e ∧ e.macGoes macs false (macOf ⟨0, 0, 16, 0, 1, false, 0, 1, 16⟩ ⟨0, 16, 32, 0, 1, false, 0, 1, 32⟩) 6) ∧
    (∃ e, Ready (.mmacI P L (HS 6) (HS 8)) macsI e ∧
      e.macGoes macsI true (macOf ⟨0, 0, 16, 0, 5, false, 0, 1, 16⟩ ⟨0, 16, 32, 0, 5, false, 0, 1, 32⟩) 7) := by
  refine ⟨⟨env (.mmac P L (HS 6) (HS 8)) macs (by decide +kernel), ready_of _ (by decide +kernel) (by decide +kernel), 0,
      blockOf ((env (.mmac P L (HS 6) (HS 8)) macs (by decide +kernel)).readBlock macs 0 16 true), 8, ?_⟩,
    ⟨env (.mmacI P L (HS 6) (HS 8)) macsI (by decide +kernel), ready_of _ (by decide +kernel) (by decide +kernel), 0,
      blockOf ((env (.mmacI P L (HS 6) (HS 8)) macsI (by decide +kernel)).readBlock macsI 0 16 true), 16, ?_⟩⟩
  · refine ⟨by decide +kernel, by decide +kernel, ?_, ?_⟩
    · exact blockOf_eq (by decide +kernel)
    · decide +kernel
  · refine ⟨by decide +kernel, by decide +kernel, ?_, ?_⟩
    · exact blockOf_eq (by decide +kernel)
    · decide +kernel

theorem test_witness_TilesReadAndClear :
    (Issue (withV [(1, 0, 130)] mtx) (fun e => decide (e.act = 1#64) && !mtx.matBusy e.g.group && decide (0 < e.l.kern.acct) &&
      decide (e.word 0 0 = 130) && (mtx.group? e.g.group).any fun g => !g.tilePoison 0 130 && !g.tilePoison 0 131) [.mrd P L 1 0 (.v 4) (H 1)]) ∧
    Issue mtx (fun e => active e && !mtx.matBusy e.g.group && decide (0 < e.l.kern.acct)) [.mclr P L true 0, .mstat P L false 0 (.v 10)] :=
  ⟨issue (by decide +kernel), issue (by decide +kernel)⟩

/-- Addresses of data, record and statistics for `mqnt`; of statistics and record with the control word of 11's example for `spick`. -/
def quants : State := withS [(0, 0x1000), (1, 0x100), (2, 0x3000)] mtx
def picks : State := withS [(0, 0), (1, 0x400), (2, 0x00022003)] mtx
def quant : Instr := .mqnt P L 0 false false false (HS 0) (HS 1) (HS 2)
def pick : Instr := .spick P L (HS 0) (HS 1) (HS 2)
def isOk {ε α : Type} (x : Except ε α) (p : α → Bool) : Bool := match x with | .ok a => p a | .error _ => false

theorem test_witness_QuantiseAndPick :
    Issue quants (fun e => decide (e.nib = some 0) && decide (0 < e.l.kern.acct) &&
      isOk (e.spadAll quants .write ((List.range 4096).map (0x1000 + ·))) (fun dr =>
        isOk (e.spadAll quants .write ((List.range 1024).map (0x3000 + ·))) fun sr =>
          !quants.heldAll (dr ++ sr) (some e.g.group) && (e.partnerAbsent quants (dr ++ sr)).isEmpty && !e.copyAhead quants (dr ++ sr) && dr.head?.isSome && sr.head?.isSome) &&
      match e.readBlock quants 0x100 272 true with | .ok bs => scaleOk (leNat (bs.take 4)) | _ => false) [quant] ∧
    Issue picks (fun e => decide (e.nib = some 0) && decide (e.pickBlocks 0 = 3) && decide (((e.word 2 0).extractLsb' 10 7).toNat = 8) &&
      decide ((e.word 2 0).extractLsb' 19 13 = 0#13) &&
      isOk (e.spadAll picks .write ((List.range 272).map (0x400 + ·))) (fun dr =>
        !picks.heldAll dr (some e.g.group) && (e.partnerAbsent picks dr).isEmpty && !e.copyAhead picks dr) &&
      match e.readBlock picks 0 24 false with | .ok _ => true | _ => false) [pick] :=
  ⟨issue (by decide +kernel), issue (by decide +kernel)⟩

/-! ### Hypotheses about queues and dunes -/

def settledHeads (tok : Bool) (e : Env) : Bool :=
  active e && Env.settled (e.heads 0) && (e.portTrap [(0, (e.heads 0).filter fun x => match x.2 with | .token _ => !tok | _ => true)]).isNone
def token : Token := ⟨0x200000, 0x100200, 4, false, 3, 1, 0, 0x200000, 0, 4096⟩

theorem test_witness_QueueInstructions :
    Issue (filled (.val 7) (queued base)) active [.qset P L 0 3, .qdrain P L 0 none, .qdrain P L 0 (some (.v 4))] ∧
    Issue (filled (.val 7) (queued base)) (settledHeads false) [.qpeek P L 0 (.v 4)] ∧
    Issue (filled (.tok token) (queued base)) (settledHeads true) [.qtokTest P L 0 1, .qtokTake P L 0 (.v 4)] :=
  ⟨issue (by decide +kernel), issue (by decide +kernel), issue (by decide +kernel)⟩

/-- One lane with an entry address in v0:v1 and a key in v2. -/
def spawning : State := withV [(0, 0, 0x100000), (1, 0, 0), (2, 0, 9), (4, 0, 1), (5, 0, 0), (6, 0, 0), (7, 0, 0)] (only 1#64 base)
/-- The dune of the entry in v0:v1 and a key, without items. -/
def empty (key : Word) : Dune := ⟨0x100000, key, 0, 0, [], 0, [], [], none, 0, none⟩
def having (key : Word) : State := spawning.updLaunch 0 fun l => { l with dunes := [(5, empty key)] }
/-- The same with a descriptor of a spill ring in v6:v7. -/
def ringing (r : Word) : State := tweak (having 9) fun c => { c with v := (c.v.put (64 * 6) ⟨r, false, false⟩) }
/-- Whether the one lane of an instruction finds that dune, its store with room. -/
def finds (key : Word) (e : Env) : Bool :=
  decide (e.lanes = [0]) && !badEntry (e.pair 0 0) && ((having key).thread? e.x.gang 0).isSome && decide (0 < (having key).freeSlots (empty key).home) &&
  ((having key).launch? e.g.launch).any fun w => !w.ordered && decide (w.findDune (e.pair 0 0) key = some 5) && decide (w.dunes.get? 5 = some (empty key))

theorem test_witness_DuneInstructions :
    Issue spawning (fun e => (e.enqueued (e.awake spawning) (fun _ => 0#32) 1 1).isSome) [.spawn P L 1 (H 0) (H 3)] ∧
    Issue spawning (fun e => (e.enqueued (e.awake spawning) (e.word 1) 2 1).isSome) [.tokput P L 1 (H 0) (H 2) (H 3)] ∧
    Issue (having 0) (finds 0) [.spawn P L 1 (H 0) (H 3)] ∧
    Issue (having 9) (fun e => finds 9 e && decide (e.word 1 0 = 9)) [.tokput P L 1 (H 0) (H 2) (H 3)] ∧
    Issue (having 9) (fun e => finds 9 e && decide (e.word 1 0 = 9) && !badConfig e.width (e.pair 2 0)) [.dset P L (.v 8) (H 0) (H 2) (H 4)] ∧
    Issue (having 9) (fun e => finds 9 e && decide (e.word 1 0 = 9) && !badRing (e.pair 2 0) && decide ((e.pair 2 0).extractLsb' 0 5 = 0#5))
      [.dspill P L (H 0) (H 2) (H 6)] ∧
    Issue (ringing 0x200001) (fun e => finds 9 e && decide (e.word 1 0 = 9) && !badRing (e.pair 2 0) && decide ((e.pair 2 0).extractLsb' 0 5 ≠ 0#5) &&
      (e.pagesFail ((64 * 2 ^ ((e.pair 2 0).extractLsb' 0 5).toNat + 4095) / 4096) (e.pair 2 0 &&& ~~~0xFFF#64) (e.awake (ringing 0x200001))).1.isNone)
      [.dspill P L (H 0) (H 2) (H 6)] ∧
    Issue spawning (fun e => (e.lanes.all fun k => !badConfig e.width (e.pair 2 k)) && (eachLane e.dsetLane e.lanes (e.awake spawning) [] []).2.2.isEmpty)
      [.dset P L (.v 8) (H 0) (H 2) (H 4)] ∧
    Issue spawning (fun e => (e.lanes.all fun k => !badRing (e.pair 2 k)) && (eachLane e.dspillLane e.lanes (e.awake spawning) [] []).2.2.isEmpty)
      [.dspill P L (H 0) (H 2) (H 6)] ∧
    Issue spawning any [.dget P L (.v 8) (H 0) (H 2), .ddrain P L (H 0) (H 2)] := by
  refine ⟨?_, ?_, ?_, ?_, ?_, ?_, ?_, ?_, ?_, ?_⟩ <;> exact issue (by decide +kernel)

/-- The placed gang as one that a program dune fired, its lanes with finished or live items, one item in the dune's store. -/
def item0 : Item := ⟨0x100000, 0, 0, 0, 0, List.replicate 8 0, 0⟩
def firedFrom : Dune := ⟨0x100000, 0, 1, 0, [item0], 0, [], [], none, 1, none⟩
def fired (x : ItemSt) (s : State) : State :=
  (s.updLaunch 0 fun l => { l with dunes := [(0, firedFrom)] }).updGang 0 fun g =>
    { g with dune := some 0, threads := g.threads.map fun t => (t.1, { t.2 with item := x }) }
def refilling : State := only 1#64 (fired .finished base)
/-- Its dune without items; one lane holds a live item, the other a finished one. -/
def exhausted : State := only 3#64 (((fired .live base).updLaunch 0 fun l => { l with dunes := [(0, { firedFrom with store := [] })] }).updThread 0 1
  fun t => { t with item := .finished })
def isItems (n : Nat) (t : Take) : Bool := match t with | .items xs _ => decide (xs.length = n) | _ => false

theorem test_witness_ItemInstructions :
    Issue (fired .live base) (fun e => active e && e.g.dune.isSome) [.itemfin P L] ∧
    Issue refilling (fun e => active e && e.g.dune.isSome && decide (e.wants = e.lanes ∧ e.noneHere = []) && !e.x.access &&
      isItems e.lanes.length ((e.awake refilling).takeItems e.x.gang e.wants)) [.refill P L] ∧
    Issue exhausted (fun e => decide (e.act = 3#64 ∧ e.g.dune = some 0) && !e.x.access && (exhausted.dune? e.g.launch 0).any (fun u => u.items.isEmpty) &&
      e.itemIs .live 0 && e.itemIs .finished 1) [.refill P L] :=
  ⟨issue (by decide +kernel), issue (by decide +kernel), issue (by decide +kernel)⟩

/-! ### Hypotheses about run control, capsules and barriers -/

/-- A query record at 0x200 whose action is to read one result, into 0x400. -/
def asking : State := withV [(1, 0, 0x200)] (mtx.updGroup 0 fun g => { g with spad := g.spad ++ [(0x200, 4#8), (0x209, 4#8), (0x20C, 1#8)] })

theorem test_witness_RunControlInstructions :
    Issue (withV [(1, 0, 0x200)] mtx) (fun e => decide (e.nib = some 0) && decide ((e.word 0 0).toNat % 64 = 0) &&
      match e.readBlock (withV [(1, 0, 0x200)] mtx) 0x200 64 true with
        | .ok r => ((Query.ofBytes r).refused e.l.kern).isNone && decide ((Query.ofBytes r).action ≠ 4)
        | _ => false) [.rcq P L (.v 4) (H 1)] ∧
    Issue asking (fun e => decide (e.nib = some 0) && decide ((e.word 0 0).toNat % 64 = 0) &&
      match e.readBlock asking 0x200 64 true with
        | .ok r => ((Query.ofBytes r).refused e.l.kern).isNone && decide ((Query.ofBytes r).action = 4 ∧ (Query.ofBytes r).low = 0x400 ∧ (Query.ofBytes r).cap = 1) &&
            isOk (e.spadAll asking .write ((List.range 16).map (0x400 + ·))) fun refs => (asking.absentAll refs).isEmpty && !asking.heldAll refs none
        | _ => false) [.rcq P L (.v 4) (H 1)] ∧
    Issue base any [.rcrd P L 0 false (.v 4) (H 2)] := ⟨issue (by decide +kernel), issue (by decide +kernel), issue (by decide +kernel)⟩

/-- The second GiB of addresses as one shared page; an anchor line at its start, FREE; the anchor's address in v0:v1. -/
def shared : State :=
  let e : TlbEnt := ⟨0, 2 ^ 30, 2 ^ 30, 2 ^ 30, 0, 1, false, true, true, true, true⟩
  let m := base.mem.writeBytes 0#2 1#10 (2 ^ 30) (List.replicate 128 0#8)
  withV [(0, 0, 0x40000000), (1, 0, 0)] (base.setMem { m with tlb := m.tlb.put 0 (e :: m.tlb.getD 0 []) })
def opening : Instr := .capo P L (H 0) 0xC
/-- The cursor of the placed clause put back, long forms completed. -/
def rewind (s : State) : State := tweak (s.setOps []) fun c => { c with cur := ((base.ctx? ⟨0, false⟩).bind (·.cur)) }
/-- The gang inside the capsule; and another that meets the anchor LIVE. -/
def inside : State := rewind (after opening shared)
def meeting : State := rewind (after opening shared) |>.updThread 0 0 fun t => { t with link := Link.zero }

def opens (s : State) (p : BitVec 8 → Bool) (e : Env) : Bool :=
  decide (lowest e.act = some 0) && !e.x.access && decide ((e.pair 0 0).toNat % 128 = 0) && e.c.stroke.isNone &&
  ((e.g.threads.get? 0).any fun x => decide (x.link.role = .none)) &&
  match s.xlat e.x e.core e.l.owner .write (e.pair 0 0) with
  | (.error _, _) => false
  | (.ok t, v) => let u := v.onKey t.key t.pa
      t.sh && decide (t.mt = 0#2) && !v.actWaits e.x [lineOf 0#2 t.pa] && !v.anchorPoison t.pa && !u.badAnchor t.pa &&
      u.roomFor (ancEnt (t.pa / 128)) (homeSlice t.pa true) && p (u.mem.anc0 t.pa).state

/-- The gang in a stroke at offset 0x100 of its page, whose stroke has stored one byte there. -/
def stroked : Stroke := ⟨0, 0x100000, [], [(2 ^ 30 + 0x100, [9#8], 0x40000100)]⟩
def stroking : State := (tweak inside fun c =>
  { c with stroke := some stroked, cur := c.cur.map fun k => { k with hdr := { k.hdr with cap := true } } }).updThread 0 0 fun t => { t with c := [(0, 0x100)] }
def inPage : MemOp := { M with a := ⟨.c 0, .none⟩ }

/-- Whether an access of `n` bytes at offset 0x100 is good in the stroke. -/
def strokesAt (k n : Nat) (e : Env) : Bool :=
  e.stroke && decide (e.c.stroke = some stroked ∧ e.nib = some 0 ∧ e.strokeOfs inPage k 0 = 0x100) && decide (0x100 % n = 0) &&
  (e.g.threads.get? 0).any fun t => decide (0x100 / 128 ≠ t.link.anc % 4096 / 128) && !stroking.mem.poisoned 0 (t.pagePa 0x100) &&
    !stroking.lineOwned (lineOf 0 (t.pagePa 0x100)) && decide (stroking.queueRecords e.core < 2048)

theorem test_witness_CapsulesOpenAndClose_strokes :
    Issue stroking (strokesAt 1 4) [.ld P L 4 (.c 4) inPage] ∧ Issue stroking (strokesAt 2 4) [.st P L 2 inPage ⟨.c 1, .none⟩] :=
  ⟨issue (by decide +kernel), issue (by decide +kernel)⟩

/-- The load takes the byte that the stroke stored (15:R357). -/
theorem test_stroke_reads_own_store : leaves (.ld P L 0 (.c 4) inPage) stroking (fun s => s.creg 0 0 4 = some 9) = true := by decide +kernel

theorem test_witness_CapsulesOpenAndClose :
    Issue shared (opens shared fun a => decide (a = 0#8)) [opening] ∧
    Issue meeting (opens meeting fun a => decide (a = 1#8)) [opening] ∧
    Issue inside (fun e => !e.x.access && match e.holder with
      | none => false
      | some h => e.act.getLsbD h && (e.g.threads.get? h).any fun t => let u := inside.onKey t.link.key t.link.anc
          decide (t.link.role = .owner) && !t.link.adopted && !inside.anchorPoison t.link.anc &&
          u.linkMatches e.x.gang h t.link && !inside.actWaits e.x [t.link.line] &&
          decide (u.mem.ancWord t.link.anc 1 = u.mem.ancWord t.link.anc 8)) [.capx P L] :=
  ⟨issue (by decide +kernel), issue (by decide +kernel), issue (by decide +kernel)⟩

/-- Whether an arrival of the placed gang has an entry, and completes the phase or does not. -/
def arrives (cnt : Nat) (full : Bool) (e : Env) : Bool :=
  active e && base.barRoom e.g.group false 1 && (base.fills e.g.group e.x.gang false 1 cnt == full) && (base.group? e.g.group).isSome &&
  base.pairLaunch e.g.group false

theorem test_witness_BarrierInstructions :
    Issue base (arrives 2 false) [.bar P L 2 false 1, .barr P L 2 false 1 (.v 4)] ∧
    Issue base (fun e => arrives 0 true e && base.barStays e.g.group e.x.gang false 1 0) [.bar P L 0 false 1, .barr P L 0 false 1 (.v 4)] ∧
    Issue base (fun e => decide (e.act = 0#64) && e.nib.isNone) [.bar P0 L 0 false 1, .barr P0 L 0 false 1 (.v 4), .barw P0 L false 1 (H 2)] ∧
    Issue (allV 2 0xFFFFFFFF base) (fun e => decide (e.nib = some 0) && phasePast (base.barOf e.g.group false 1).phase (e.word 0 0)) [.barw P L false 1 (H 2)] ∧
    Issue (allV 2 0 base) (fun e => decide (e.nib = some 0) && !phasePast (base.barOf e.g.group false 1).phase (e.word 0 0)) [.barw P L false 1 (H 2)] :=
  ⟨issue (by decide +kernel), issue (by decide +kernel), issue (by decide +kernel), issue (by decide +kernel), issue (by decide +kernel)⟩

/-- A last arrival by `barr` receives the phase that it met, and the next phase stands without arrivals (15:R374). -/
theorem test_barr_completes : leaves (.barr P L 0 false 1 (.v 4)) base (fun s => word s 4 0 = some 0 &&
    decide (s.barOf 0 false 1 = { Barrier.fresh with phase := 1 })) = true := by decide +kernel

/-! ### Hypotheses about traps, special registers and counters -/

/-- Delegation and event rings with room, and the handler of a trap. -/
def rings (s : State) : State :=
  let put (m : MemSys) (cb : Nat) : MemSys := m.sysWrite cb (leBytes 8 0 ++ leBytes 8 0 ++ leBytes 8 (cb + 0x1000) ++ leBytes 8 8) false
  (s.setMem (put (put s.mem 0x80000) 0x90000)).setCtl { s.ctl with dring := some 0x80000, ering := some 0x90000 }
def handler : State := rings (rewind (after (.trapSoft P L 5 none) base))

theorem test_witness_TrapInstructions :
    Issue base (fun e => e.canEnter base && e.nib.isSome) [.trapSoft P L 5 none, .trapSoft P L 0xFFF (some (H 2)), .trapLink P L (H 2)] ∧
    Issue (tweak base fun c => { c with gst := 0x10 })
      (fun e => e.canEnter (tweak base fun c => { c with gst := 0x10 }) && active e && decide (e.c.gst &&& 0x10#32 ≠ 0#32)) [.trapGst P L 0x10] ∧
    Issue base (fun e => decide (e.c.gst &&& 0x10#32 = 0#32)) [.trapGst P L 0x10] :=
  ⟨issue (by decide +kernel), issue (by decide +kernel), issue (by decide +kernel)⟩

theorem test_witness_TrapsEndAndBreak :
    Issue handler (fun e => e.c.frame.any fun f => active e && !e.x.access && e.g.holder?.isNone && !f.trap.tok && (e.c.lanes.all fun a =>
      !f.path.getLsbD a.1 || (!a.2.pstop && !a.2.pkill)) && e.c.lanes.any fun x => f.path.getLsbD x.1) [.tret P L] ∧
    Issue handler (fun e => e.nib.isSome && e.c.frame.isSome && handler.delegRoom) [.tdel P L none, .tdel P L (some (H 2))] ∧
    Issue (rings base) (fun e => active e && (rings base).eventRoom && e.c.frame.isNone && e.g.holder?.isNone && e.atEase) [.brk P L 7] :=
  ⟨issue (by decide +kernel), issue (by decide +kernel), issue (by decide +kernel)⟩

theorem test_witness_SystemRegisters :
    Issue base any [.sysrd P L 9 (.v 4), .sysrd P L 0x10 (.s 4)] ∧
    Issue (allV 2 1 base) (fun e => e.nib.isSome && decide (e.pz = 0#32)) [.syswr P L 0x00 (H 2)] ∧
    Issue base active [.syswr P L 0x0C (H 2), .syswr P L 9 (H 2)] ∧
    Issue base (fun e => e.nib.isSome) [.syswr P L 0x10 (HS 2), .syswr P L 0x17 (HS 2)] :=
  ⟨issue (by decide +kernel), issue (by decide +kernel), issue (by decide +kernel), issue (by decide +kernel)⟩

theorem test_witness_CounterInstructions :
    Issue base (fun e => active e && (base.group? e.g.group).isSome) [.tick P L false (.v 10), .tick P L true (.v 10), .enrd P L 0 (.v 4),
      .pmrd P L 0 0 false (.v 4), .pmrd P L 0 0 true (.v 4)] ∧
    Issue base (fun e => e.nib.isNone) [.pmrd P0 L 0 0 false (.v 4), .pmrd P0 L 0 0 true (.v 4), .pmset P0 L 0 (H 2)] ∧
    Issue (allV 2 0 base) (fun e => e.nib.isSome && selectorOk (e.word 0 0) && (base.group? e.g.group).isSome) [.pmset P L 0 (H 2)] :=
  ⟨issue (by decide +kernel), issue (by decide +kernel), issue (by decide +kernel)⟩

/-! ### Hypotheses of the statements about events -/

/-- A test of the gang with key 0, of one of its contexts, of the placed launch. -/
def onGang (s : State) (p : Gang → Bool) : Bool := (s.gang? 0).any p
def onCtx (s : State) (a : Bool) (p : Ctx → Bool) : Bool := (s.ctx? ⟨0, a⟩).any p
def onLaunch (s : State) (p : Launch → Bool) : Bool := (s.launch? 0).any p

/-- The placed gang before the header of an `.alu` clause of one instruction; with lane 0 stepped at it. -/
def header : State := tweak (State.reset.placeWord (bytesOf [0xD0000001#32])) fun c => { c with cur := none }
/-- An `.alu` clause whose current is granted, and one that has yet to request it. -/
def granted : State := tweak header fun c => { c with vgrant := some (3, true) }
def stepping : State := tweak header fun c =>
  { c with path := 0xFFFE#64, lanes := c.lanes.upd 0 fun l => { l with pstep := true } }

/-- One lane in `waitv` inside its clause, another stepped at its header. -/
def inside2 : State := tweak base fun c =>
  { c with path := 1#64, lanes := (c.lanes.upd 0 fun l => { l with ws := .waitv }).upd 1 fun l => { l with pc := 0x100000#64, pstep := true } }

/-- Whether the clause of a state begins, its header of vector work and its reservation so. -/
def begins (s : State) (p : Ctx → Bool) : Bool :=
  onGang s fun g => onLaunch s fun l => onCtx s false fun c => decide (g.core = some 0 ∧ s.selectPath X = s) && c.free &&
    c.cur.isNone && c.pathAble && decide (s.stepGroup X = none) && !s.trapAhead X c && !s.frozen 0 g.launch &&
    match s.fetchWord X 0 l.owner c.pathPc with
    | (.ok w, t) => (match t.headerCheck X g c l 0 w c.pathPc with
      | .ok h => (headerParity c h).isNone && t.headerReady X g c 0 l.owner h c.pathPc && decide (h.cls = .alu) && p c
      | .error _ => false)
    | (.error _, _) => false

theorem test_witness_ClausesBegin :
    begins granted (fun c => decide (c.vgrant.map (·.2) = some true)) = true ∧ begins header (fun c => decide (c.vgrant = none)) = true ∧
    (onCtx stepping false fun c => (stepping.stepGroup X).isSome && c.cur.isNone && c.free && c.aside.isNone) = true ∧
    (onCtx inside2 false fun c => (inside2.stepGroup X).isSome && c.stroke.isNone && c.waitsInside && c.free && c.aside.isNone) = true := by
  refine ⟨?_, ?_, ?_, ?_⟩ <;> decide +kernel

/-- A copy and a matrix operation of the placed gang in flight; a load into q0 in flight; a long form that has nothing left to do. -/
def opOf (i : Instr) (left : Mask) (d : OpData) : Op :=
  { gang := 0, access := false, launch := 0, core := 0, i := i, sb := 0, la := 0, serial := 1, idx := 0
    cur := ⟨placedHeader, 0x100000#64, 0, 0x100004#64, 1, 0#64⟩, mix := true, lanes := 1#64, left := left, fails := [], data := d
    vsrc := [], ssrc := [], pops := [], tick := 0 }
def flying (o : Op) (s : State) : State := (s.setOps [(7, o)]).setNextId 100
def part (spad : Bool) : CopyPart := ⟨0, spad, 0, 0x200, 1, [1#8, 2#8], false⟩
def copyOp (spad : Bool) : Op := opOf copyIn 0#64 (.copy [part spad] true)
def finished : State := flying (opOf (.mclr P L true 0) 0#64 .none) base
def filling : State := filled (.pend 9 0x200000 4 false 0x100200 false 0) (queued mem)
def matFlying (m : MatOp) : State := flying (opOf load 0#64 (.matrix m 0 true)) mtx
def waiting : State :=
  let s := flying (opOf load 0#64 (.matrix (.load []) 0 false)) mtx
  s.setDev { s.dev with arb := [(0, ⟨[⟨7, 6, false⟩], []⟩)] }
def requesting : State := (tweak header fun c => { c with vgrant := some (7, false) }).setDev { header.dev with arb := [(0, ⟨[⟨7, 1, false⟩], []⟩)] }

theorem test_witness_LongFormsComplete :
    (finished.opReady 7 && (finished.op? 7).any fun o => o.fails.isEmpty && onGang finished fun g => !g.over &&
      (g.ctx? o.access).any fun c => c.pend.isNone && decide (c.path ≠ 0#64)) = true ∧
    ((filling.gangs.find? fun e => (e.2.findPend 9).isSome).any fun p => match p.2.findPend 9 with
      | some (q, lane, .pend _ va size _ _ pop _) => p.1 == 0 && decide (p.2.core = some 0) && onLaunch filling fun l =>
          (p.2.queues.get? q).any fun r => !p.2.queueLoadOver (if pop then r.ca else !r.ca) lane 9 va size && !filling.lowerLaneFirst 9 lane va size &&
            (match filling.checkVa ⟨0, if pop then r.ca else !r.ca⟩ 0 l.owner .read size va with
            | (.ok t, u) => !u.lineOwned (lineOf t.mt t.pa) && !u.pendingOver ⟨0, if pop then r.ca else !r.ca⟩ lane 9 t.mt t.pa size && !u.readPoison 0 size t
            | (.error _, _) => false) &&
            match filling.checkVa ⟨0, if pop then r.ca else !r.ca⟩ 0 l.owner .read size 0x200001 with
            | (.ok _, _) => false
            | (.error f, _) => decide (f.cause = 5)
      | _ => false) = true := by
  constructor <;> decide +kernel

def flyingIs (s : State) (p : OpData → Bool) : Bool := (s.op? 7).any fun o => p o.data

theorem test_witness_EnginesFinish :
    (flyingIs (flying (copyOp true) mem) (fun d => match d with | .copy (p :: _) true => p.spad | _ => false) &&
      !(flying (copyOp true) mem).lineAwaited 7 0 4 true) = true ∧
    flyingIs (flying (copyOp false) mem) (fun d => match d with
      | .copy (p :: _) true => !p.spad && decide (p.dst / 2 ^ 52 ≠ 2) && !(flying (copyOp false) mem).pairBehind 0 ((flying (copyOp false) mem).fencedTo X p.lane) 7
      | _ => false) = true ∧
    (scaleOk 0x3F800000 && [MatOp.load [], .put [], .mac false true 0 16 32 16 0 0 0 0 rect0 rect0, .store [(0, 0x200, 0), (0, 0x201, 1)],
        .quant 0 true false false 0x3F800000 [] 0 0x1000 0 0x3000 [(0, 0x104)], .quant 0 false false true 0x3F800000 [] 0 0x1000 0 0x3000 []].all fun m =>
      (flyingIs (matFlying m) fun d => match d with | .matrix _ _ g => g | _ => false) && (matFlying m).matFirst 7 0) = true ∧
    (waiting.arbCan 0 && (waiting.arbOf 0).q.head?.any fun r => (waiting.op? r.op).isSome) = true ∧
    (requesting.arbCan 0 && (requesting.arbOf 0).q.head?.any fun r => (requesting.op? r.op).isNone && decide (requesting.arbClause r.op = some X)) = true := by
  refine ⟨?_, ?_, ?_, ?_, ?_⟩ <;> decide +kernel

/-- A buffered write of core 0; a write that waits for its acknowledgement; requests at a home slice; tables that map one page of 1 GiB. -/
def write (mt : BitVec 2) : WbEnt := ⟨0, 0, false, 0, 0, mt, 1, 0x200000, 0x200000, [1#8], none, 0, 0, false, none, 0⟩
def buffered (mt : BitVec 2) : State := mem.setMem { mem.mem with wbuf := [(5, write mt)] }
def unacknowledged : State := mem.setMem { mem.mem with hostWr := [(5, ⟨0, 0, false, 0, 0, none⟩)] }
def request (mt : BitVec 2) (i : Instr) (promoting : Bool) : State :=
  let s := flying (opOf i 1#64 .home) mem
  s.setHome { s.home with q := [(9, ⟨7, 0, false, 0, 0x200000, mt, 1, 0x200000, false, [5#32, 0#32], [6#32, 0#32], promoting, false, none, 0⟩)] }
def tables (s : State) : State :=
  let m := s.mem.sysWrite 0x1000 (leBytes 8 0x2007) false
  let m := m.sysWrite 0x2000 (leBytes 8 0x3007) false
  let m := m.sysWrite 0x3000 (leBytes 8 (2 ^ 52 + 0x87)) false
  s.setMem { m with owners := [(0, ⟨0x1000, 0⟩)] }
def actsIn (ordered : Bool) (s : State) : Bool :=
  (s.home.q.get? 9).any fun r => decide (s.home.sameAct r = [9]) && s.reqReady 9 r && (s.home.wakeOf r).isNone && r.late.isNone &&
    (s.op? r.op).any fun o => ((s.writer o.gang r.lane o.access).ordered == ordered) && match s.reqCheck o r with | .pass => true | _ => false
def acts (i : Instr) : Bool :=
  actsIn false (request 0 i false)
/-- A relaxed add that its home slice has accepted. -/
def addition : Instr := .ared P L false 0 M (H 8)
def accepted : State :=
  let s := request 0 addition false
  s.setHome { s.home with q := s.home.q.mapVal fun _ r => { r with late := some (opOf addition 1#64 .home) } }
/-- A request to peer memory that has had no response for the default timeout. -/
def unanswered (i : Instr) : State :=
  let s := request 2 i false
  s.setDev { s.dev with ioTick := 2000000 }

theorem test_witness_HomeSlicesAct :
    ((buffered 0).mem.wbuf.get? 5).any ((buffered 0).drainable 5) = true ∧ ((buffered 1).mem.wbuf.get? 5).any ((buffered 1).drainable 5) = true ∧
    (unacknowledged.mem.hostWr.get? 5).isSome = true ∧
    [Instr.ld P L 4 (.v 4) M, .st P L 4 M (H 8), .atom P L 0 0 (.v 4) M (H 8), .ared P L false 0 { M with ord := 2, sco := 3 } (H 8),
      .acas P L true (.v 4) M (H 8) (H 10)].all acts = true ∧
    (acts addition && actsIn true ((request 0 addition false).updLaunch 0 fun l => { l with ordered := true })) = true ∧ ((accepted.home.q.get? 9).any fun r => r.late.isSome && accepted.reqReady 9 r && decide (accepted.home.sameAct r = [9])) = true ∧
    (((request 0 (.ld P L 4 (.v 4) M) true).home.q.get? 9).any fun r => r.waitsPromotion && ((request 0 (.ld P L 4 (.v 4) M) true).op? r.op).any fun o =>
      decide (o.data = .home) && (request 0 (.ld P L 4 (.v 4) M) true).mem.wbuf.vals.isEmpty) = true ∧
    (canonical 0x1234#64 && ((tables base).mem.owners.get? 0).any fun o => isOk ((tables base).mem.ownerWalk o 0x1234) fun l =>
      decide (permitted .write false l.e.x l.w l.u = none)) = true ∧
    ([Instr.ld P L 4 (.v 4) M, .st P L 4 M (H 8), .atom P L 0 0 (.v 4) M (H 8), addition].all fun i => (unanswered i).home.q.vals.any fun r =>
      decide (r.mt = 2#2) && (unanswered i).peerLate r.io && ((unanswered i).op? r.op).any fun o =>
        ((unanswered i).reqBytesNow o r).isSome == homeWrites i) = true := by
  refine ⟨?_, ?_, ?_, ?_, ?_, ?_, ?_, ?_, ?_⟩ <;> decide +kernel

/-- A `waitv` at its home slice that expects the value there, or another; one whose slice has 64 entries and no spill table; a waiter of lane 3, and
a notify of lane 0 on its address. -/
def watch : Instr := .waitv P L false (.v 4) M (H 8)
def zeroed (s : State) : State := s.setMem (s.mem.writeBytes 0#2 1#10 0x200000 (List.replicate 128 0#8))
def watching (w : Word) : State :=
  let s := zeroed (request 0 watch false)
  s.setHome { s.home with q := s.home.q.mapVal fun _ r => { r with b := [w] } }
def crowded : State := (watching 0).setHome { (watching 0).home with
  spillCap := 0, lastAct := (List.range 64).map fun i => (2 * i, (i, homeSlice 0x200000 false)) }
def waiter : Waiter := ⟨0, false, 3, 8, 1, 0x200000, 1, false, false, false⟩
def notifying (i : Instr) (ws : List Waiter) : State :=
  let s := zeroed (request 0 i false)
  (s.setOps (s.ops ++ [(8, opOf watch 8#64 .home)])).setHome { s.home with monitors := if ws.isEmpty then [] else [(0x200000, ws)] }
def watches (s : State) (p : List Word → Req → Bool) : Bool := actsIn false s && (s.home.q.get? 9).any fun r =>
  decide (r.gang = 0 ∧ r.access = false ∧ r.b.length = 1) && s.laneLive X r.lane && p (bytesWords 1 (s.mem.readBytes r.mt r.key r.pa 4)) r

theorem unspilled_of {s : State} (a : s.home.spilled = []) (b : s.home.lastAct.length < 64) (c : s.home.monitors.vals.map List.length = [])
    (d : s.home.fifos.vals.map List.length = []) : s.unspilled := by
  refine ⟨a, b, fun n => ?_⟩
  have e : s.home.monitors = [] := by cases h : s.home.monitors <;> simp_all [Assoc.vals]
  have f : s.home.fifos = [] := by cases h : s.home.fifos <;> simp_all [Assoc.vals]
  unfold HomeSys.records
  split <;> simp [e, f, Assoc.keep, Assoc.vals]

theorem test_witness_HomeSlicesAct_waits :
    watches (watching 1) (fun v r => decide (v ≠ r.b)) = true ∧ (watches (watching 0) (fun v r => decide (v = r.b)) = true ∧ (watching 0).unspilled) ∧
    watches crowded (fun v r => decide (v = r.b) && !crowded.roomFor (waitEnt (r.pa / 128)) (homeSlice r.pa r.sh)) = true :=
  ⟨by decide +kernel, ⟨by decide +kernel, unspilled_of (by decide +kernel) (by decide +kernel) (by decide +kernel) (by decide +kernel)⟩, by decide +kernel⟩

/-- Whether the first waiter of an address is woken at once, as the instructions of this file have it. -/
def wakesNow (s : State) : Bool := (s.home.q.get? 9).any fun r => (s.op? r.op).any fun o =>
  let t := s.notified 9 o r
  decide (r.mt = 0#2) && (t.op? 8).any fun q => decide (q.gang = 0 ∧ q.access = false ∧ q.i = watch) && (t.coreOf 0).isSome && t.laneLive X 3 &&
    !t.laneStopped X 3 && !t.mem.poisoned 0 r.pa && match t.acquireAct q 3 0x200000 0 r.pa with | .pass => true | _ => false

theorem test_witness_HomeSlicesAct_notifies :
    [Instr.notify1 P L M, .notifyall P L { M with ord := 2, sco := 3 }].all (fun i => actsIn false (notifying i [waiter]) && wakesNow (notifying i [waiter]) &&
      (notifying i [waiter]).home.spilled.isEmpty && decide ((notifying i [waiter]).home.lastAct.length < 64) && actsIn false (notifying i [])) = true := by
  decide +kernel

/-- A woken waiter takes the value at its address and goes on; another value than the one expected is delivered at once (09:R215, R216). -/
theorem test_wake_delivers :
    leaves (.homeSliceAct 9) (notifying (.notify1 P L M) [waiter]) (fun s => word s 4 3 = some 0 && s.home.monitors.isEmpty) = true ∧
    leaves (.homeSliceAct 9) (watching 1) (fun s => word s 4 0 = some 0 && decide (s.home.q.get? 9 = none)) = true := by constructor <;> decide +kernel

/-- An atomic add delivers the old value (09:R211). -/
theorem test_atom_delivers_old : leaves (.homeSliceAct 9) (zeroed (request 0 (.atom P L 0 0 (.v 4) M (H 8)) false)) (fun s => word s 4 0 = some 0 &&
    decide (s.mem.readBytes 0 1 0x200000 4 = [5, 0, 0, 0])) = true := by decide +kernel

/-- A trap raised and not yet entered, in the compute context; one that goes past its handler; one in a handler; a context in back-off; a trap
delegated and not yet resolved. -/
def trapOf (cause : Nat) : TrapRec :=
  { cause := cause, reason := 0, tok := false, x := 0, d1 := 0, d2 := 0, tra := 0x100004, lanes := 1#64, ret := 0x100008, cur := none
    skip := some 0x100008, skipCur := none, resume := none, ports := [], act := 0 }
def raised (cause : Nat) : State := rings (tweak base fun c => { c with cur := none, pend := some (trapOf cause) })
def raisedIn : State := tweak handler fun c => { c with cur := none, pend := some (trapOf 1) }
def backoff : State := tweak base fun c => { c with retryAt := some 0, backoff := 1 }
def delegated : State :=
  let s := rings (tweak base fun c => { c with frame := some ⟨0xFFFF#64, [], trapOf 4, true⟩ })
  s.setCtl { s.ctl with delegs := [(8, ⟨.context X, trapOf 4, 0, false, false⟩)] }
/-- A page fault of a dune's ring, delegated. -/
def ringDelegated : State := base.setCtl { base.ctl with delegs := [(8, ⟨.ring 0 0 0, trapOf 4, 0, true, false⟩)] }

def takes (s : State) (k : Taking) : Bool := onGang s fun g => decide (g.core = some 0) && g.holder?.isNone && (s.launch? g.launch).isSome &&
  onCtx s false fun c => c.late.isEmpty && c.pend.isSome && decide (s.taking X = some k) && s.quiet X && !s.noPermit X 0

theorem test_witness_TrapEventsHappen :
    takes (raised 1) .handler = true ∧ (takes (raised 2) .direct && (raised 2).delegRoom) = true ∧ (takes raisedIn .double && raisedIn.delegRoom) = true ∧
    onCtx backoff false (fun c => c.retryAt.any fun t => decide (t ≤ backoff.tick (backoff.clusterOfGang 0))) = true ∧
    (match delegated.delegOf 8 with
     | .context x _ f => decide (x = X) && !delegated.frameHolder X f && !f.trap.tok && f.trap.resume.isNone && f.trap.skip.isSome &&
        onCtx delegated false fun c => (c.lanes.all fun a => !f.path.getLsbD a.1 || (!a.2.pstop && !a.2.pkill)) && c.lanes.any fun a => f.path.getLsbD a.1
     | _ => false) = true ∧
    (onGang delegated (fun g => g.holder?.isNone) && (delegated.ctl.delegs.get? 8).isSome) = true ∧
    onLaunch ringDelegated (fun l => decide (l.seq = 0) && (ringDelegated.ctl.delegs.get? 8).any fun d => decide (d.src = .ring 0 0 0)) = true := by
  refine ⟨?_, ?_, ?_, ?_, ?_, ?_, ?_⟩ <;> decide +kernel

/-! ### Hypotheses about launches, dunes and gangs -/

/-- The bytes of a record of `n` bytes with fields at offsets (offset, length, value). -/
def image (n : Nat) (fs : List (Nat × Nat × Nat)) : List Byte := (List.range n).map fun i =>
  match fs.find? fun f => decide (f.1 ≤ i ∧ i < f.1 + f.2.1) with
  | none => 0#8
  | some f => BitVec.ofNat 8 (f.2.2 / 256 ^ (i - f.1))

/-- A launch record in ring 0 for the descriptor at virtual address 0x4000: one team of one gang. -/
def submitted : State :=
  let s := tables State.reset
  let m := s.mem.writeBytes 0#2 0#10 0xA000 (image 128 [(0x00, 8, 0x4000), (0x14, 4, 1), (0x18, 2, 1), (0x1A, 2, 1), (0x30, 8, 0x5000)])
  let m := m.writeBytes 0#2 1#10 0x4000 (image 64 [(0x00, 8, 0x100000), (0x10, 8, 0x100100), (0x19, 1, 16), (0x1A, 1, 8)])
  ((s.setMem m).setLaunches { s.launches with rings := [(0, ⟨1#64, 0#64, 0#64, 0x800000000000A001#64, some 0⟩)] }).setDev { s.dev with stage := 4 }

/-- Whether a record is taken (01:R16 to R19). -/
def good (s : State) : Bool := s.takesRecord 0 && (s.launches.rings.get? 0).any fun r =>
  let e := s.ringEntry r
  match s.mem.dispXlat (s.ringOwner 0) .write (fieldD e 0x30) with
  | (.ok _, m1) => (match m1.dispReads (s.ringOwner 0) 2 (fieldD e 0x00) 64 with
    | (some d, m2) => (m2.dispReads (s.ringOwner 0) (fieldAt e 0x10 4 / 4096 + 2) (fieldD e 0x08) (fieldAt e 0x10 4)).1.isSome &&
        decide ((fieldD e 0x30).toNat % 8 = 0) && recordOk e && kernOk d (fieldAt e 0x10 4) && ptwOk (launchPtw e d) &&
        fitsEmpty (BitVec.ofNat 24 (launchPtw e d)) (Kern.ofBytes d) (fieldAt e 0x1A 2) && (freeLaunch s.launches.tab 0xFFFF 0).isSome
    | _ => false)
  | _ => false

/-- A launch with nothing resident, changed. -/
def lonely (f : Launch → Launch) : State :=
  let s := tables State.reset
  s.setLaunches { s.launches with tab := [(0, f placedLaunch)] }
def absent : State := base.updGroup 0 fun g => { g with filling := [3], absent := [(3, ())] }
def orphaned : State := (queued base).updGang 0 fun g => { g with threads := g.threads.del 0, actx := some { g.cctx with cur := none } }

theorem test_witness_LaunchesComeAndGo :
    good submitted = true ∧
    (onLaunch (lonely id) fun l => (lonely id).launchDone 0 l && isOk ((lonely id).mem.dispXlat l.owner .write l.done).1 fun _ => true) = true ∧
    onLaunch base (fun l => l.ended.isNone) = true ∧
    (onLaunch (lonely fun l => { l with ended := some 13 }) (fun l => l.ended.isSome) &&
      (lonely fun l => { l with ended := some 13 }).launchQuiet 0 && ((lonely fun l => { l with ended := some 13 }).gangsOfLaunch 0).isEmpty) = true ∧
    ((absent.group? 0).any fun g => g.core.isSome && g.filling.contains 3 && absent.ops.vals.isEmpty && !absent.lineOwed 0 3) = true ∧
    (onGang orphaned fun g => g.actx.any fun a => decide (g.orphansAtEnd ≠ 0#64) && a.cur.isNone) = true := by
  refine ⟨?_, ?_, ?_, ?_, ?_, ?_⟩ <;> decide +kernel

/-- A root dune with a team item; a program dune with an item in its store, with one in its ring. -/
def rooted (items : List (Nat × Word)) : State := lonely fun l => { l with roots := [(0, ⟨0, items⟩)] }
def duned (d : Dune) : State := lonely fun l => { l with dunes := [(0, d)] }
def ringed : Dune := { firedFrom with store := [], ring := 0x6001, ringed := [{ item0 with serial := 4 }] }

theorem test_witness_DunesFire :
    (onLaunch (rooted []) fun l => l.ended.isNone && (l.roots.get? 0).any fun r => decide (r.items.length < 64 ∧ r.cursor < l.teams)) = true ∧
    (let s := rooted [(0, 0#32)]
     match s.ranking 0 with
     | r :: _ => decide (r.launch = 0 ∧ r.dune = 1024) && (s.fireCores 0 r).contains 0 && onLaunch s fun l => (l.roots.get? 0).any fun q => !q.items.isEmpty
     | [] => false) = true ∧
    (let s := duned firedFrom
     match s.ranking firedFrom.home with
     | r :: _ => decide (r.dune ≠ 1024) && !(s.fireCores firedFrom.home r).isEmpty && (s.dune? r.launch r.dune).isSome &&
        (s.launch? r.launch).any fun l => (s.freshTeam r.launch l).isSome &&
          isOk (s.mem.headItems l.owner firedFrom (s.batchSize r.launch l r.dune firedFrom)) fun xs => decide (xs.length = 1)
     | [] => false) = true ∧
    (let s := duned { firedFrom with covered := [0] }
     (s.firing? firedFrom.home).isSome && onLaunch s fun l => (s.dune? 0 0).any fun d => s.duneReady 0 l 0 d && s.duneStarving 0 l 0 d) = true ∧
    onLaunch (duned firedFrom) (fun l => (duned firedFrom).finalDue 0 l) = true ∧
    (onLaunch (duned ringed) fun l => ringed.ringFault.isNone && decide ((duned ringed).freeSlots ringed.home ≠ 0) && decide ((duned ringed).dune? 0 0 = some ringed) &&
      isOk ((duned ringed).mem.dispRead l.owner (ringed.ringVa ringed.ringPos) 64) fun _ => true) = true := by
  refine ⟨?_, ?_, ?_, ?_, ?_, ?_⟩ <;> decide +kernel

/-- Two gangs of one group, the first with every lane stopped; the first evicted; and at a late tick with a dune ready. -/
def stopped : State :=
  let s := tweak base fun c => { c with cur := none, path := 0#64, lanes := c.lanes.mapVal fun _ l => { l with ws := .stopped } }
  match base.gang? 0 with
  | none => s
  | some g => s.setGangs (s.gangs.put 1 { g with num := 1, slot := 1 })
def late (s : State) : State := s.setDev { s.dev with ticks := (List.range 24).map fun c => (c, 2 ^ 40) }
def delayed : State := late ((stopped.updLaunch 0 fun l => { l with roots := [(0, ⟨24, [(5, 0#32)]⟩)] }).updGang 0 fun g => { g with evictable := some 0 })
def evicted : State := base.updGang 0 fun g => { g with core := none }
def parked : State := tweak base fun c => { c with parkedAt := some 0, lanes := c.lanes.mapVal fun _ l => { l with ws := .parked } }
def striking : State := tweak inside fun c => { c with cur := none, stroke := some stroked }
def old : State := tweak base fun c => { c with since := 1000 }
def spinning : State := base.updGang 0 fun g => { g with spin := some ⟨0, 0, 0, none, 8, [], [], false⟩ }
def waits (c : Ctx) : Ctx := { c with lanes := c.lanes.mapVal fun _ l => { l with ws := .queueWait } }
def full : State := late ((queued base).updGang 0 fun g =>
  { g with deadlock := some (0, false), cctx := waits g.cctx, actx := g.actx.map waits })
def starved : State := rings full
def unheard : State := full.setCtl { full.ctl with ering := none }
def posting : State := rings (base.setCtl { base.ctl with pending := [⟨1, 0, 0, 0, 0⟩] })

theorem test_witness_GangsComeAndGo :
    (onGang stopped fun g => stopped.evictableNow 0 && decide (g.core = some 0) && g.holder?.isNone && (stopped.launch? g.launch).isSome &&
      stopped.mem.wbuf.vals.isEmpty && stopped.ops.vals.isEmpty && !stopped.coreHeld 0 &&
      ((stopped.mem.areas.get? g.savep.toNat).all fun r => (stopped.launch? g.launch).any fun l => decide (r.size ≤ l.kern.saveBytes g.width)) &&
      (stopped.gangsOf g.group).any fun k => decide (k ≠ 0) && (stopped.coreOf k).isSome) = true ∧
    base.evictableNow 0 = false ∧
    (onGang delayed fun g => delayed.evictableNow 0 && decide (g.evictable = some 0) &&
      decide (delayed.setting 0 ≤ delayed.tick (delayed.clusterOfGang 0)) && !((delayed.noteEvictable 0).ranking (delayed.clusterOfGang 0)).isEmpty) = true ∧
    (onGang evicted fun g => evicted.restorable 0 && decide (g.core = none) && !evicted.coreHeld 0 && !evicted.launchHeld g.launch &&
      evicted.home.monitors.isEmpty && (g.threads.vals.all fun t => decide (t.link.role = .none)) && decide (evicted.recordsBack 0 0 ≤ 2048) && (evicted.launch? g.launch).any fun l =>
      l.ended.isNone && evicted.gangsFit 0 l.ptw l.kern 1 && evicted.areasGood g l && (evicted.group? g.group).any fun r => decide (r.core = some 0)) = true ∧
    (onCtx parked false fun c => c.parkedAt.isSome && c.frame.isNone && c.parkedOn.isEmpty && (parked.coreOf 0).isSome) = true ∧
    (onCtx striking false fun c => c.cur.isNone && c.pend.isNone && striking.quiet X && (striking.coreOf 0).isSome &&
      (c.lanes.all fun a => decide (a.2.ws ≠ .stopped) && !a.2.pstep) && c.stroke.any fun k => (k.own (2 ^ 30 + 0x100)).isSome && (k.stores.all fun w => !striking.anchorAt 0 w.1) && (striking.thread? 0 k.lane).any fun t =>
      !t.link.adopted && !striking.anchorPoison t.link.anc && (striking.onKey t.link.key t.link.anc).linkMatches 0 k.lane t.link && decide (t.link.stroke ≠ 32) && !striking.actWaits X (t.link.line :: k.stores.map fun w => lineOf 0 w.1) && decide (t.link.anc % 128 = 0)) = true ∧
    (onGang old fun g => onCtx old false fun c => g.core.isSome && old.readyAt X g && !c.aged && decide (64 ≤ c.since ∧ 12 * old.pipeReady g false ≤ c.since)) = true ∧
    (onGang spinning fun g => g.holder?.isNone && g.spin.any fun p => decide (8 ≤ p.same) && !p.spinning) = true ∧
    (starved.eventRoom && starved.ctl.ering.isSome && starved.deadlocked 0 && decide (starved.setting 0x10 ≤ starved.tick (starved.clusterOfGang 0)) &&
      onGang starved fun g => decide (g.deadlock = some (0, false))) = true ∧
    (!unheard.eventRoom && unheard.deadlocked 0 && decide (unheard.setting 0x10 ≤ unheard.tick (unheard.clusterOfGang 0)) &&
      onGang unheard fun g => decide (g.deadlock = some (0, false))) = true ∧
    (let s := State.reset.setDev { State.reset.dev with ticks := [(3, 256)], ioTick := 1024 }
     decide (s.dev.advances.getD 3 0 < s.tick 3 / 256 ∧ s.dev.devAdvances < s.dev.ioTick / 1024 ∧ s.tick 4 / 256 ≤ s.dev.advances.getD 4 0 ∧
       State.reset.dev.ioTick / 1024 ≤ State.reset.dev.devAdvances)) = true ∧
    (decide (posting.ctl.pending.length = 1) && posting.ctl.ering.any posting.mem.ringRoom) = true := by
  refine ⟨?_, ?_, ?_, ?_, ?_, ?_, ?_, ?_, ?_, ?_, ?_, ?_⟩ <;> decide +kernel

/-! ### Hypotheses about queries, registers and the outside world -/

/-- A command of an action held on core 0, that matches the one thread of a gang whose lane waits so. -/
def querying (action actw : Nat) (ws : WS) (q : Option (Nat × Nat)) : State :=
  let s := base.updGang 0 fun g => { g with threads := g.threads.keep fun n _ => n == 0, cctx :=
    { g.cctx with path := 1#64, cur := none, lanes := [(0, ⟨0x100004#64, ws, .ready, none, false, false, false⟩)] } }
  let s := s.setOps [(7, opOf (.rcq P L (.v 4) (H 1)) 1#64 .wait)]
  s.setCtl { s.ctl with holds := [(3, ⟨0, q, some 7, image 64 [(0, 8, action + 2048), (8, 8, actw)], 0, 0, 0, 0, 0, [0], 0, [0]⟩)] }

def queries (action actw : Nat) (ws : WS) (k : Option (Nat × Nat)) : Bool :=
  let s := querying action actw ws k
  (s.ctl.holds.get? 3).any fun h =>
    let q := Query.ofBytes h.rec_
    s.holdReady 3 h && decide (q.ctxs = [false] ∧ s.matched h q = [(0, 0)] ∧ q.action = action ∧ h.q = k) && onGang s fun g => g.holder?.isNone &&
      g.cctx.frame.isNone && (g.threads.get? 0).all (fun t => decide (t.link.role = .none)) && (g.cctx.lanes.get? 0).any fun a => decide (a.ws = ws ∧ a.under = .ready)

theorem test_witness_QueriesAct :
    (queries 0 0 .ready none && queries 1 0 .ready none && queries 1 0 .stopped none && queries 2 0 .stopped none && queries 3 0 .ready none && queries 5 (3 * 2 ^ 56 + 77) .ready none &&
      queries 5 (0x43 * 2 ^ 56 + 77) .ready none && queries 5 (0x71 * 2 ^ 56 + 77) .ready none && queries 5 (0x92 * 2 ^ 56 + 1) .ready none) = true ∧
    (queries 4 (2 ^ 56 + 2 ^ 32 + 0x40) .ready (some (0, 0)) && ((querying 4 (2 ^ 56 + 2 ^ 32 + 0x40) .ready (some (0, 0))).spadRef 0 0x40).any fun r =>
      decide (r.group = 0)) = true := by
  refine ⟨?_, ?_⟩ <;> decide +kernel

theorem test_witness_DeviceRegisters :
    (State.reset.ringOf 63).en = false ∧ (submitted.ringOf 0).en = true ∧ ([0x0000, 0x0010, 0x0100].all fun k => (settingRange k).isSome) = true ∧
    State.reset.dev.mbox.nonce.length = 32 ∧ State.reset.dev.mbox.status ≠ 1 ∧
    (after .attestation State.reset).dev.mbox.status = 1 ∧ (after .attestation State.reset).dev.mbox.recovery = false := by decide +kernel

/-- A window of port 3 that admits writes, and one that does not; a slot A whose image is the byte 0xFF, with its header. -/
def peered : State := State.reset.setDev { State.reset.dev with windows := [(48, ⟨0x10000, 1, 5, true⟩), (49, ⟨0x20000, 1, 5, false⟩)] }
def slotHeader : List Byte := leBytes 4 0x38324850 ++ leBytes 4 1 ++ leBytes 8 3 ++ leBytes 8 1 ++ leBytes 8 0 ++
  (leBytes 32 0xa8100ae6aa1940d0b663bb31cd466142ebbdbd5187131b92d93818987832eb89).reverse
def flashed : State := State.reset.setDev { State.reset.dev with
  flash := ⟨slotHeader.zipIdx.map fun b => (b.2, b.1), none⟩, stage := 4, fuses := 0, fwver := 3 }

/-- The digest is that of 18:R424, so that with a good signature slot A starts. -/
theorem test_witness_boot (h : Config.signatureOk (flashed.dev.flash.read 0 64) (flashed.dev.flash.read 0x40 29792) = true) :
    flashed.dev.bootSlot = some (1, flashed.dev.flash.slot 0) := by
  have a : (flashed.dev.flash.slot 0).base = 0 := rfl
  have b : decide ((flashed.dev.flash.slot 0).magic = 0x38324850#32 ∧ (flashed.dev.flash.slot 0).hver = 1#32 ∧ 1 ≤ (flashed.dev.flash.slot 0).len ∧
    (flashed.dev.flash.slot 0).len ≤ 0x3BFF8000 ∧ flashed.dev.fuses ≤ (flashed.dev.flash.slot 0).fwver) = true := by decide +kernel
  have c : sha256 (flashed.dev.flash.image (flashed.dev.flash.slot 0)) = (flashed.dev.flash.slot 0).digest := by decide +kernel
  have d : decide ((flashed.dev.flash.slot 1).magic = 0x38324850#32) = false := by decide +kernel
  have x : flashed.dev.flash.verifies (flashed.dev.flash.slot 0) flashed.dev.fuses = true := by
    unfold Flash.verifies; rw [b, c, a, Nat.zero_add, h]; simp
  have y : flashed.dev.flash.verifies (flashed.dev.flash.slot 1) flashed.dev.fuses = false := by
    unfold Flash.verifies; simp only [decide_eq_false_iff_not] at d; simp [d]
  unfold Device.bootSlot; simp [x, y]

theorem test_witness_OutsideWorld :
    State.reset.extHeld 0#2 0x1000 8 = false ∧ State.reset.extHeld 1#2 0x1000 8 = false ∧ 0x1000 < (State.reset.setDev { State.reset.dev with hdmBase := 0x2000 }).dev.hdmBase ∧ (peered.windowOf 3 0x10008 8).any (·.we) = true ∧ (peered.windowOf 3 0x20008 8).any (fun w => !w.we) = true ∧ peered.windowOf 3 0x8 8 = none ∧ peered.dev.linkDown.has 3 = false ∧
    peered.extHeld 0#2 0x10008 8 = false ∧ peered.recovering = false ∧ State.reset.recovering = false ∧ (after .deviceReset State.reset).recovering = true ∧ onGang base (fun g => (g.ctx? false).isSome) = true ∧
    (2 ≤ flashed.dev.stage ∧ flashed.dev.stage ≠ 15 ∧ flashed.dev.fuses ≤ 3 ∧ 3 ≤ flashed.dev.fwver) ∧ State.reset.dev.bootSlot = none := by
  decide +kernel

/-! ### Hypotheses about decoding, the step and the whole machine -/

theorem test_witness_EncodeThenDecode : Instr.isEvent (.add P false (.v 3) (V 1) (R 2)) = false ∧ Instr.static true (.add P false (.v 3) (V 1) (R 2)) = [] := by
  decide +kernel

/-- The word of `fadd.f32 v5, v6!, v7` (06) as the next to issue. -/
def placed : State := State.reset.withFetchWord 32 0x40058607

theorem test_witness_StepRunsTheDecodedInstruction :
    (let s := placed.setAgenda []
     decide (placed.agenda = [.issue 0 false] ∧ s.selectPath X = s) && onGang placed fun g => onCtx placed false fun c => onLaunch placed fun l =>
       decide (g.core = some 0) && c.free && c.pathAble && c.cur.any fun cur => match s.fetchInstr X 0 l.owner cur.ip with
         | (.ok ws _, _) => (match decode cur.hdr.cap ws with | .ok (.fadd .., _) => true | _ => false)
         | _ => false) = true ∧
    (State.reset.setAgenda [.event (.referenceTick 0)]).agenda = [.event (.referenceTick 0)] := by
  refine ⟨?_, ?_⟩ <;> decide +kernel

theorem test_witness_MemoryKeepsItsForm : Memory.wf placed.mem.bytes = true ∧ ∃ t, step placed = .next t := ⟨by decide +kernel, _, rfl⟩

theorem test_witness_WhatIsWrittenIsRead : Stored State.reset.mem (State.reset.mem.writeBytes 0#2 1#10 0x200 [1#8, 2#8]) 0#2 1#10 0x200 [1#8, 2#8] :=
  ⟨rfl, rfl, rfl, rfl, rfl⟩

/-- Whether an instruction has a reason of INSN, its lowest is this one, and no dead register stands before it. -/
def refusedBy (s : State) (r : Reason) (i : Instr) : Bool :=
  (env? i s).any fun e => decide (Reason.lowest (i.static e.stroke ++ e.dynamic) = some r) && (decide (r.code < 20) || e.undead s) &&
    !(i.pfx.md.any fun m => decide (6 ≤ m.rnd.toNat))

/-- The placed instruction as one that does not end its clause. -/
def midway : State := tweak base fun c => { c with cur := c.cur.map fun k => { k with hdr := { k.hdr with count := 2 } } }

theorem test_witness_ChecksComeFirst :
    refusedBy base .absentOperand (.ret P (V 5)) = true ∧ refusedBy (queued base) .reservedField (.qcount P L 0 3 (.v 4)) = true ∧
    ((env? (.mov P false (.v 3) ⟨.q 0, false⟩) (queued base)).any fun e => match e.gate (queued base) with | .hold _ => true | _ => false) = true := by
  refine ⟨?_, ?_, ?_⟩ <;> decide +kernel

theorem test_witness_TrapControlIsChecked : [Instr.tret P L, .tdel P L none].all (refusedBy base .trapReturn) = true ∧
    [Instr.tret P L, .tdel P L none, .brk P L 1].all (refusedBy midway .trapReturn) = true := by
  refine ⟨?_, ?_⟩ <;> decide +kernel

theorem test_witness_QueueCounts : Issue (queued base) any [.qcount P L 0 0 (.v 4), .qcount P L 0 1 (.v 4), .qcount P L 0 2 (.s 4)] ∧
    refusedBy (queued base) .reservedField (.qcount P L 0 3 (.v 4)) = true := ⟨issue (by decide +kernel), by decide +kernel⟩

theorem test_witness_FamilyWords : Issue base (fun _ => (base.opsOf X).vals.isEmpty) [.famset P L (.v 4)] ∧
    Issue base active [.syswr P L 0x0A (H 2)] ∧ ((base.thread? 0 15).map (·.fam)).isSome = true :=
  ⟨issue (by decide +kernel), issue (by decide +kernel), by decide +kernel⟩

/-! ### Results of memory, the matrix unit, queues, traps -/

/-- 09:R199: a byte 0x80 zero-extended and sign-extended; 08:R184: what a scratchpad store wrote is loaded. -/
def bytes80 : State := mem.setMem (mem.mem.writeBytes 0#2 1#10 0x200000 [0x80#8, 0x91#8, 0x12#8, 0x73#8])
theorem test_ld : [Instr.ld P L 0 (.v 4) M, .ld P L 1 (.v 4) M, .ld P L 3 (.v 4) M, .ld P L 4 (.v 4) M].map (fun i => word (after i bytes80) 4 5) =
    [some 0x80, some 0xFFFFFF80, some 0xFFFF9180, some 0x73129180] := by decide +kernel
theorem test_sts_lds : (after (.lds P L 2 (.v 4) M) (rewind (after (.sts P L 1 M (H 8)) (allV 8 0xABCD1234 (withS [(0, 0x40)] base))))
    |> fun t => word t 4 0) = some 0x1234 := by decide +kernel

/-- 10:R221: a store is in the buffer, whose entry holds its bytes, before memory changes; 09:R212: an add returns the old value at its act. -/
theorem test_st : ((after (.st P L 2 M (H 8)) (only 1#64 (allV 8 0x01020304 bytes80))).mem.wbuf.vals.map fun w => (w.pa, w.bytes)) =
    [(0x200000, [4#8, 3#8, 2#8, 1#8])] := by decide +kernel
def adding : State := after (.atom P L 0 0 (.v 4) M (H 8)) (only 1#64 (allV 8 5 bytes80))
theorem test_atom : (adding.home.q.keys.map fun k => let t := after (.homeSliceAct k) adding; (t.mem.readBytes 0#2 1#10 0x200000 4, word t 4 0)) =
    [([0x85#8, 0x91#8, 0x12#8, 0x73#8], some 0x73129180)] := by decide +kernel

/-- 11, one BF16 accumulation: rows 0 to 2 of column 0. -/
def filledOpnd : State := (matFlying (.mac false true 0 3 1 16 0 0 0 0 rect0 ⟨0, 16, 32, 0, 1, false, 0, 1, 32⟩)).updGroup 0 fun g =>
  let row (o : Nat) (f : Nat → Nat) : List (Nat × Byte) := ((List.range 16).map fun k => [(o + 2 * k, BitVec.ofNat 8 (f k)), (o + 2 * k + 1, BitVec.ofNat 8 (f k / 256))]).flatten
  let ws := row 0 (fun k => if k = 0 then 0x4B80 else 0x3F80) ++ row 128 (fun k => if k % 8 = 0 then 0x7F7F else 0) ++
    row 256 (fun k => if k = 3 then 0x7FC1 else 0) ++ row 2048 fun _ => 0x3F80
  { g with opnd := ws.foldl (fun m x => m.put x.1 x.2) [] }
theorem test_mmac : ((after (.matrixOpComplete 7) filledOpnd).group? 0).map (fun g => [0, 128, 256].map fun k => g.tileElem 0 k) =
    some [0x4B800008, 0x7F800000, 0x7FC00000] := by decide +kernel

/-- 11, picking scales. -/
theorem test_spick : ((pickRecord false 8 1 [(0x40400000, 2), (0x3F400000, 20), (0, 0)]).take 19).map (·.toNat) =
    [0, 0, 0x80, 0x40, 0, 0, 0, 0, 0, 0, 0, 0, 0, 0, 0, 0, 0xBF, 0x17, 0] := by decide +kernel

/-- 12:R281: a source pops its queue in each active lane; 12:R295: a count. -/
theorem test_pop : leaves (.mov P false (.v 3) (Q 0)) (filled (.val 7) (queued base)) (fun t => decide (word t 3 9 = some 7 ∧ t.queue 0 0 9 = [])) = true := by
  decide +kernel
theorem test_qcount : leaves (.qcount P L 0 2 (.v 4)) (filled (.val 7) (queued base)) (fun t => decide (word t 4 0 = some 3)) = true := by decide +kernel

/-- 14:R324: the family word of group 0, gang 0, lane 5 of team 0; 15:R374: a completed phase. -/
theorem test_famset : leaves (.famset P L (.v 4)) base (fun t => decide (word t 4 5 = some 0x80000005)) = true := by decide +kernel
theorem test_bar : ((after (.bar P L 0 false 1) base).barOf 0 false 1).phase = 1#32 := by decide +kernel

/-- 16:R384, R387: a software trap at its entry. -/
theorem test_trap : ((after (.trapSoft P L 5 none) base).ctx? X).map (fun c => (c.tcg, c.tlm, c.tra, c.d0)) = some (14#32, 0xFFFF#64, 0x100004#64, 5#32) ∧
    pcAt (after (.trapSoft P L 5 none) base) 0 = some 0x100100#64 := by decide +kernel

/-- 15:R349, R363: a capsule opens and closes. -/
theorem test_capo : (after opening shared).mem.anc0 (2 ^ 30) = ⟨0, 0, false, false, false, 0, 1⟩ := by decide +kernel
theorem test_capx : (after (.capx P L) inside).mem.anc0 (2 ^ 30) = ⟨1, 0, false, false, false, 0, 0⟩ := by decide +kernel

end Sys2Proof.Tests
end

section
/-! SUPPORT. The bytes of a number and the number of its bytes (00:R5), a run of words as bytes, and a list with a stretch replaced. -/

namespace Sys2Proof.Machine

/-! ### Little-endian bytes -/

theorem leNat_leBytes (n x : Nat) : leNat (leBytes n x) = x % 2 ^ (8 * n) := by
  induction n generalizing x with
  | zero => simp [leBytes, leNat, Nat.mod_one]
  | succ n ih =>
    calc leNat (leBytes (n + 1) x) = x % 256 + 256 * (x / 256 % 2 ^ (8 * n)) := by simp [leBytes, leNat, ih]
      _ = x % (256 * 2 ^ (8 * n)) := Nat.mod_mul.symm
      _ = x % 2 ^ (8 * (n + 1)) := by rw [show 8 * (n + 1) = 8 + 8 * n by omega, Nat.pow_add]

theorem toNat_getD_leBytes {n i : Nat} (x : Nat) (hi : i < n) : ((leBytes n x).getD i 0#8).toNat = x / 2 ^ (8 * i) % 256 := by
  induction n generalizing x i with
  | zero => omega
  | succ n ih =>
    cases i with
    | zero => simp [leBytes]
    | succ i =>
      have step : x / 256 / 2 ^ (8 * i) = x / 2 ^ (8 * (i + 1)) := by
        rw [Nat.div_div_eq_div_mul, show 8 * (i + 1) = 8 + 8 * i by omega, Nat.pow_add]
      rw [← step, ← ih (x / 256) (by omega)]
      rfl

/-- The bytes of a word give the word back. -/
theorem ofNat_leNat_leBytes (x : DWord) : BitVec.ofNat 64 (leNat (leBytes 8 x.toNat)) = x := by
  rw [leNat_leBytes, Nat.mod_eq_of_lt x.isLt, BitVec.ofNat_toNat, BitVec.setWidth_eq]

/-- A byte of a run of 64-bit words is a byte of one of them. -/
theorem getD_flatMap_leBytes (ws : List DWord) (j : Nat) {i : Nat} (hi : i < 8) :
    (ws.flatMap fun w => leBytes 8 w.toNat).getD (8 * j + i) 0#8 = (leBytes 8 (ws.getD j 0#64).toNat).getD i 0#8 := by
  induction ws generalizing j with
  | nil =>
    have zero : (leBytes 8 0).getD i 0#8 = 0#8 := BitVec.eq_of_toNat_eq (by rw [toNat_getD_leBytes 0 hi]; simp)
    simpa using zero.symm
  | cons w ws ih =>
    have len : (leBytes 8 w.toNat).length = 8 := MemSys.leBytes_length 8 _
    rw [List.flatMap_cons]
    cases j with
    | zero => rw [List.getD_append _ _ _ _ (by omega)]; simp
    | succ j =>
      rw [List.getD_append_right _ _ _ _ (by omega), len, show 8 * (j + 1) + i - 8 = 8 * j + i by omega, ih]
      rfl

/-! ### A stretch of a list replaced -/

/-- An element of a list in which `new` stands in the place of as many elements from `k` on. -/
theorem getD_splice {α : Type} (old new : List α) {k : Nat} (j : Nat) (d : α) (h : k + new.length ≤ old.length) :
    (old.take k ++ new ++ old.drop (k + new.length)).getD j d =
      if k ≤ j ∧ j < k + new.length then new.getD (j - k) d else old.getD j d := by
  have len : (old.take k).length = k := by rw [List.length_take]; omega
  have len' : (old.take k ++ new).length = k + new.length := by rw [List.length_append, len]
  by_cases before : j < k
  · rw [List.getD_append _ _ _ _ (by omega), List.getD_append _ _ _ _ (by omega), if_neg (by omega)]
    simp [List.getD_eq_getElem?_getD, before]
  · by_cases inside : j < k + new.length
    · rw [List.getD_append _ _ _ _ (by omega), List.getD_append_right _ _ _ _ (by omega), len, if_pos (by omega)]
    · rw [List.getD_append_right _ _ _ _ (by omega), len', if_neg (by omega)]
      simp [List.getD_eq_getElem?_getD, List.getElem?_drop, show k + new.length + (j - (k + new.length)) = j by omega]

end Sys2Proof.Machine
end

section
/-! PROOF. What is written is read (08:R178, R184): a write of global memory as a KEY reads it, byte by byte, and a write of a scratchpad. -/

namespace Sys2Proof.Machine

/-! ### What a byte of global memory depends on -/

namespace MemSys

/-- A byte read under the KEY of its line, or outside HBM, is the byte that is listed there. -/
theorem readByte_eq_ownByte {m : MemSys} {mt : BitVec 2} {key : BitVec 10} {pa : Nat} (h : mt = 0#2 → m.keyOf pa = some key) :
    m.readByte mt key pa = m.ownByte mt key pa := by
  unfold readByte
  by_cases h0 : mt = 0#2
  · subst h0; simp [h rfl]
  · simp [h0]

theorem ownByte_of_get? {m : MemSys} {mt : BitVec 2} {pa : Nat} {b : Byte} (key : BitVec 10) (h : Assoc.get? m.bytes (byteKey mt pa) = some b) :
    m.ownByte mt key pa = b := by
  unfold ownByte; rw [h]

/-- The line of a byte of HBM is the line of every byte at its line's addresses. -/
theorem lineOf_line_add (mt : BitVec 2) (a : Nat) {i : Nat} (hi : i < 128) : lineOf mt (128 * (a / 128) + i) = lineOf mt a := by
  unfold lineOf; omega

end MemSys

/-! ### Reading after a write -/

namespace Stored
variable {m n : MemSys} {mt : BitVec 2} {key : BitVec 10} {pa : Nat} {bs : List Byte}

theorem areaOf (h : Stored m n mt key pa bs) (a : Nat) : n.areaOf a = m.areaOf a := by unfold MemSys.areaOf; rw [h.areas]

theorem pair (h : Stored m n mt key pa bs) (k : BitVec 10) : n.pair k = m.pair k := by unfold MemSys.pair; rw [h.keyPairs]

/-- Apart from what is listed at it, a byte depends on nothing that a write changes. -/
theorem ownByte_of_get? (h : Stored m n mt key pa bs) (mt' : BitVec 2) (k : BitVec 10) {a : Nat}
    (hb : Assoc.get? n.bytes (byteKey mt' a) = Assoc.get? m.bytes (byteKey mt' a)) : n.ownByte mt' k a = m.ownByte mt' k a := by
  unfold MemSys.ownByte MemSys.bootByte
  rw [hb, h.areaOf, h.pair, h.training]

theorem keyOf_touched (h : Stored m n 0#2 key pa bs) {a i : Nat} (hi : i < bs.length) (ha : lineOf 0#2 a = lineOf 0#2 (pa + i)) :
    n.keyOf a = some key := by
  apply MemSys.keyOf_of_tag
  rw [h.keys, MemSys.lineKey_writeBytes, if_pos ⟨rfl, i, hi, ha⟩]

/-- The KEY of a line that the write does not touch stays. -/
theorem keyOf_other_line (h : Stored m n mt key pa bs) {a : Nat} (ha : ∀ i, i < bs.length → lineOf 0#2 a ≠ lineOf mt (pa + i)) :
    n.keyOf a = m.keyOf a := by
  have tag : n.lineKey.get? (lineOf 0#2 a) = m.lineKey.get? (lineOf 0#2 a) := by
    rw [h.keys, MemSys.lineKey_writeBytes, if_neg]
    rintro ⟨-, i, hi, e⟩
    exact ha i hi e
  unfold MemSys.keyOf
  rw [tag, h.areaOf]

theorem ownByte_other_line (h : Stored m n mt key pa bs) {mt' : BitVec 2} (k : BitVec 10) {a : Nat}
    (ha : ∀ i, i < bs.length → lineOf mt' a ≠ lineOf mt (pa + i)) : n.ownByte mt' k a = m.ownByte mt' k a := by
  refine h.ownByte_of_get? mt' k ?_
  rw [h.bytes]
  refine MemSys.get?_writeBytes m mt key pa _ bs (fun i hi => byteKey_ne (ha i hi)) fun i hi => .inl ?_
  rw [← lineOf_eq]
  exact ha i hi

theorem lineAs_other_line (h : Stored m n mt key pa bs) (k k' : BitVec 10) {a : Nat}
    (ha : ∀ i, i < bs.length → lineOf 0#2 a ≠ lineOf mt (pa + i)) : n.lineAs k k' (a / 128) = m.lineAs k k' (a / 128) := by
  have line : (List.range 128).map (fun i => n.ownByte 0#2 k (128 * (a / 128) + i)) =
      (List.range 128).map fun i => m.ownByte 0#2 k (128 * (a / 128) + i) := by
    refine List.map_congr_left fun i hi => h.ownByte_other_line k fun j hj => ?_
    rw [MemSys.lineOf_line_add 0#2 a (List.mem_range.mp hi)]
    exact ha j hj
  unfold MemSys.lineAs
  rw [line, h.pair, h.pair]

/-- What was written is read under the KEY of the write. -/
theorem readByte_written (h : Stored m n mt key pa bs) {i : Nat} (hi : i < bs.length) : n.readByte mt key (pa + i) = bs.getD i 0#8 := by
  have listed : Assoc.get? n.bytes (byteKey mt (pa + i)) = some (bs.getD i 0#8) := by
    rw [h.bytes, MemSys.get?_writeBytes_self m mt key pa bs i hi]
  rw [MemSys.readByte_eq_ownByte, MemSys.ownByte_of_get? key listed]
  rintro rfl
  exact h.keyOf_touched hi rfl

/-- Another line reads as before, under every KEY. -/
theorem readByte_other_line (h : Stored m n mt key pa bs) (mt' : BitVec 2) (k : BitVec 10) {a : Nat}
    (ha : ∀ i, i < bs.length → lineOf mt' a ≠ lineOf mt (pa + i)) : n.readByte mt' k a = m.readByte mt' k a := by
  have own := h.ownByte_other_line k ha
  by_cases h0 : mt' = 0#2
  · subst h0
    unfold MemSys.readByte
    rw [h.keyOf_other_line ha, own]
    cases m.keyOf a with
    | none => rfl
    | some j => simp only [h.lineAs_other_line j k ha]
  · rw [MemSys.readByte_eq_ownByte fun e => absurd e h0, own, MemSys.readByte_eq_ownByte fun e => absurd e h0]

/-- A byte beside the written ones reads as before under the KEY of the write, where that was the KEY of each line touched. -/
theorem readByte_same_key (h : Stored m n mt key pa bs) {a : Nat} (ha : ∀ i, i < bs.length → a ≠ pa + i)
    (hk : mt ≠ 0#2 ∨ ∀ i, i < bs.length → m.lineKey.get? (lineOf mt (pa + i)) = some key) : n.readByte mt key a = m.readByte mt key a := by
  by_cases touched : ∃ i, i < bs.length ∧ lineOf mt a = lineOf mt (pa + i)
  · obtain ⟨i, hi, e⟩ := touched
    have own : n.ownByte mt key a = m.ownByte mt key a := by
      refine h.ownByte_of_get? mt key ?_
      rw [h.bytes]
      exact MemSys.get?_writeBytes m mt key pa _ bs (fun j hj c => ha j hj (byteKey_inj.mp c)) fun j hj => .inr (hk.imp_right fun g => g j hj)
    have before : mt = 0#2 → m.keyOf a = some key := by
      rintro rfl
      have tag := hk.resolve_left (fun c => c rfl) i hi
      exact MemSys.keyOf_of_tag (e ▸ tag)
    have after : mt = 0#2 → n.keyOf a = some key := by
      rintro rfl
      exact h.keyOf_touched hi e
    rw [MemSys.readByte_eq_ownByte after, own, MemSys.readByte_eq_ownByte before]
  · exact h.readByte_other_line mt key fun i hi e => touched ⟨i, hi, e⟩

end Stored

/-! ### The statement -/

/-- Settles O56: global memory by the three cases of a byte (written, of another line, beside the written ones in a line of the same KEY),
the scratchpad by its law of reading after a write, numbers by their bytes. -/
theorem whatIsWrittenIsRead : Obligations.WhatIsWrittenIsRead := by
  unfold Obligations.WhatIsWrittenIsRead
  refine ⟨fun m n mt key pa bs h => ⟨fun i hi => h.readByte_written hi, fun mt' k a ha => h.readByte_other_line mt' k ha,
    fun a ha hk => h.readByte_same_key ha hk⟩, fun g a bs => ⟨fun i hi => ?_, fun k hk => ?_⟩, fun n x hx => ⟨?_, ?_, fun i hi => ?_⟩⟩
  · rw [Group.spadByte_spadWrite, if_pos (by omega), Nat.add_sub_cancel_left]
  · rw [Group.spadByte_spadWrite, if_neg (by omega)]
  · rw [leNat_leBytes, Nat.mod_eq_of_lt hx]
  · exact MemSys.leBytes_length n x
  · exact toNat_getD_leBytes x hi

end Sys2Proof.Machine
end

section
/-! PROOF. Registers of the device, its settings and its mailbox, as they are written and read (18:R414 to R433, 08:R179). -/

namespace Sys2Proof.Machine

/-! ### The events of registers and settings -/

theorem exec_tail (ring : Nat) (t : DWord) (s : State) : exec (.tail ring t) s = execTail ring t s := rfl
theorem exec_rstat (ring : Nat) (w : DWord) (s : State) : exec (.rstat ring w) s = execRstat ring w s := rfl
theorem exec_ringConfigure (ring : Nat) (w : DWord) (o : Option (Nat × BitVec 10)) (s : State) :
    exec (.ringConfigure ring w o) s = execRingConfigure ring w o s := rfl
theorem exec_ringDisable (ring : Nat) (w : DWord) (s : State) : exec (.ringDisable ring w) s = execRingDisable ring w s := rfl
theorem exec_deviceSettingWrite (r : SysReg) (w : List DWord) (s : State) :
    exec (.deviceSettingWrite r w) s = execDeviceSettingWrite r w s := rfl
theorem exec_registerWrite (r : HostReg) (w : List DWord) (s : State) : exec (.registerWrite r w) s = execRegisterWrite r w s := rfl
theorem exec_attestation (s : State) : exec .attestation s = execAttestation s := rfl
theorem exec_recoveryProgramming (s : State) : exec .recoveryProgramming s = execRecoveryProgramming s := rfl
theorem exec_attestationDone (ok : Bool) (s : State) : exec (.attestationDone ok) s = execAttestationDone ok s := rfl
theorem exec_mlogExtend (d : BitVec 256) (s : State) : exec (.mlogExtend d) s = execMlogExtend d s := rfl

/-- An event that touches no gang touches no register and no queue of one. -/
theorem Quiet.of_gangs {s u : State} (h : u.gangs = s.gangs) : Quiet s u := by
  have gang (k : Nat) : u.gang? k = s.gang? k := by unfold State.gang?; rw [h]
  have ctx (x : Site) : u.ctx? x = s.ctx? x := by rw [State.ctx?_of_gang?, State.ctx?_of_gang?, gang]
  have thread (g n : Nat) : u.thread? g n = s.thread? g n := by rw [State.thread?_of_gang?, State.thread?_of_gang?, gang]
  refine ⟨fun y r k => ?_, fun y r => ?_, fun g n r => ?_, fun g q n => ?_⟩
  · unfold State.vreg; rw [ctx]
  · unfold State.sreg; rw [ctx]
  · unfold State.creg; rw [thread]
  · rw [State.queue_of_gang?, State.queue_of_gang?, gang]

/-! ### Tables with a default -/

theorem Assoc.get?_putD_ne {α : Type} [DecidableEq α] (t : Assoc α) {k j : Nat} (x d : α) (h : j ≠ k) :
    Assoc.get? (t.putD k x d) j = Assoc.get? t j := by
  unfold Assoc.putD
  split
  · exact Assoc.get?_del_ne t h
  · exact Assoc.get?_put_ne t x h

/-! ### Rings (18:R417 to R419) -/

namespace State

@[simp] theorem setRing_gangs (s : State) (n : Nat) (r : Ring) : (s.setRing n r).gangs = s.gangs := rfl
@[simp] theorem setRing_mem (s : State) (n : Nat) (r : Ring) : (s.setRing n r).mem = s.mem := rfl
@[simp] theorem setRing_msix (s : State) (n : Nat) (r : Ring) : (s.setRing n r).launches.msix = s.launches.msix := rfl
@[simp] theorem ringOf_setRing (s : State) (n : Nat) (r : Ring) : (s.setRing n r).ringOf n = r :=
  (Assoc.getD_put _ _ _ _ _).trans (if_pos rfl)

@[simp] theorem msi_gangs (s : State) (v : Nat) : (s.msi v).gangs = s.gangs := rfl
@[simp] theorem msi_mem (s : State) (v : Nat) : (s.msi v).mem = s.mem := rfl
@[simp] theorem msi_dev (s : State) (v : Nat) : (s.msi v).dev = s.dev := rfl
@[simp] theorem msi_msix (s : State) (v : Nat) : (s.msi v).launches.msix = s.launches.msix ++ [v] := rfl
@[simp] theorem ringOf_msi (s : State) (v n : Nat) : (s.msi v).ringOf n = s.ringOf n := rfl

/-- A bit of RSTAT is set; vector 63 is signalled where it was 0. -/
theorem ringFlag_eq (s : State) (n : Nat) (f : DWord) :
    s.ringFlag n f = if (s.ringOf n).rstat &&& f = f then s.setRing n { s.ringOf n with rstat := (s.ringOf n).rstat ||| f }
      else (s.setRing n { s.ringOf n with rstat := (s.ringOf n).rstat ||| f }).msi 63 := rfl

@[simp] theorem ringFlag_gangs (s : State) (n : Nat) (f : DWord) : (s.ringFlag n f).gangs = s.gangs := by rw [ringFlag_eq]; split <;> rfl
@[simp] theorem ringFlag_mem (s : State) (n : Nat) (f : DWord) : (s.ringFlag n f).mem = s.mem := by rw [ringFlag_eq]; split <;> rfl

theorem ringOf_ringFlag (s : State) (n : Nat) (f : DWord) :
    (s.ringFlag n f).ringOf n = { s.ringOf n with rstat := (s.ringOf n).rstat ||| f } := by
  rw [ringFlag_eq]; split <;> simp

theorem ringFlag_msix (s : State) (n : Nat) (f : DWord) :
    (s.ringFlag n f).launches.msix = s.launches.msix ++ if (s.ringOf n).rstat &&& f = f then [] else [63] := by
  rw [ringFlag_eq]; split <;> simp

theorem writeCfg_of_not_en {s : State} {n : Nat} (w : DWord) (h : (s.ringOf n).en = false) :
    s.writeCfg n w = s.setRing n ⟨0#64, 0#64, 0#64, cfgWord w, (s.ringOf n).owner⟩ := by
  unfold writeCfg; simp [h]

theorem writeCfg_of_en {s : State} {n : Nat} {w : DWord} (h : (s.ringOf n).en = true) (hw : w.getLsbD 63 = false) :
    s.writeCfg n w = s.setRing n { s.ringOf n with cfg := (s.ringOf n).cfg &&& ~~~(1#64 <<< 63) } := by
  unfold writeCfg
  dsimp only
  rw [if_neg (by simp [h]), if_neg (by rw [hw]; exact Bool.false_ne_true)]

/-- A ring is bound to an owner number that stands for the root table and the KEY: one that it had before, or a fresh one. -/
theorem bindOwner_eq (s : State) (n root : Nat) (key : BitVec 10) :
    ∃ o os, (o, (⟨root, key⟩ : Owner)) ∈ os ∧
      s.bindOwner n root key = (s.setMem { s.mem with owners := os }).setRing n { s.ringOf n with owner := some o } := by
  unfold bindOwner
  split
  next o t heq =>
    split at heq
    next k ks hk =>
      have known : k ∈ (s.mem.owners.keep fun _ o => decide (o = ⟨root, key⟩)).keys := by rw [hk]; exact List.mem_cons_self
      obtain ⟨⟨i, x⟩, hx, rfl⟩ := List.mem_map.mp known
      obtain ⟨mem, is⟩ := List.mem_filter.mp hx
      cases heq
      exact ⟨i, s.mem.owners, by rwa [← of_decide_eq_true is], rfl⟩
    next =>
      cases heq
      exact ⟨_, _, Assoc.mem_of_get? (Assoc.get?_put_self _ _ _), rfl⟩

end State

/-- 18:R417, R419: TAIL takes a write that rises by no more entries than the ring has; another one sets ERR. -/
theorem tail_written (s : State) {n : Nat} (t : DWord) (hn : n < 64) : ∃ u, exec (.tail n t) s = .next u ∧ u.mem = s.mem ∧ Quiet s u ∧
    if (s.ringOf n).tail.toNat < t.toNat ∧ (t - (s.ringOf n).head).toNat ≤ (s.ringOf n).size then u.ringOf n = { s.ringOf n with tail := t }
    else u.ringOf n = { s.ringOf n with rstat := (s.ringOf n).rstat ||| 1#64 } ∧
      u.launches.msix = s.launches.msix ++ if (s.ringOf n).rstat &&& 1#64 = 1#64 then [] else [63] := by
  rw [exec_tail, execTail, if_neg (by omega)]
  dsimp only
  by_cases posts : (s.ringOf n).tail.toNat < t.toNat ∧ (t - (s.ringOf n).head).toNat ≤ (s.ringOf n).size
  · rw [if_pos posts]
    exact ⟨_, rfl, rfl, .of_gangs rfl, by rw [if_pos posts, State.ringOf_setRing]⟩
  · rw [if_neg posts]
    refine ⟨_, rfl, s.ringFlag_mem n _, .of_gangs (s.ringFlag_gangs n _), ?_⟩
    rw [if_neg posts]
    exact ⟨s.ringOf_ringFlag n _, s.ringFlag_msix n _⟩

theorem rstat_written (s : State) {n : Nat} (w : DWord) (hn : n < 64) : ∃ u, exec (.rstat n w) s = .next u ∧ u.mem = s.mem ∧ Quiet s u ∧
    u.ringOf n = { s.ringOf n with rstat := (s.ringOf n).rstat &&& ~~~(w &&& 3#64) } := by
  rw [exec_rstat, execRstat, if_neg (by omega)]
  exact ⟨_, rfl, rfl, .of_gangs rfl, State.ringOf_setRing _ _ _⟩

theorem ring_configured (s : State) {n : Nat} (w : DWord) (root : Nat) (key : BitVec 10) (hn : n < 64) (off : (s.ringOf n).en = false) :
    ∃ u, exec (.ringConfigure n w (some (root, key))) s = .next u ∧ Quiet s u ∧
      (∃ o, u.ringOf n = ⟨0#64, 0#64, 0#64, cfgWord w, some o⟩ ∧ (o, ⟨root, key⟩) ∈ u.mem.owners) ∧ u.mem.bytes = s.mem.bytes := by
  obtain ⟨o, os, ho, bound⟩ := s.bindOwner_eq n root key
  rw [exec_ringConfigure, execRingConfigure, if_neg (by omega)]
  dsimp only
  rw [if_neg (by simp [off]), bound, State.writeCfg_of_not_en w (by rw [State.ringOf_setRing]; exact off), State.ringOf_setRing]
  exact ⟨_, rfl, .of_gangs rfl, ⟨o, State.ringOf_setRing _ _ _, ho⟩, rfl⟩

theorem ring_disabled (s : State) {n : Nat} (w : DWord) (hn : n < 64) (on : (s.ringOf n).en = true) :
    ∃ u, exec (.ringDisable n w) s = .next u ∧ u.mem = s.mem ∧ Quiet s u ∧
      u.ringOf n = { s.ringOf n with cfg := (s.ringOf n).cfg &&& ~~~(1#64 <<< 63) } := by
  rw [exec_ringDisable, execRingDisable, if_neg (by omega), State.writeCfg_of_en on (by simp)]
  exact ⟨_, rfl, rfl, .of_gangs rfl, State.ringOf_setRing _ _ _⟩

/-! ### Settings, windows and key pairs (18:R433, R421, 08:R179) -/

theorem State.writeSetting_eq (s : State) {ofs lo hi d : Nat} (w : DWord) (h : settingRange ofs = some (lo, hi, d)) :
    s.writeSetting ofs w = s.setDev { s.dev with settings := s.dev.settings.putD ofs (min hi (max lo w.toNat)) d } := by
  unfold State.writeSetting
  rw [h]
  rfl

theorem setting_written (s : State) {ofs lo hi d : Nat} (w : DWord) (h : settingRange ofs = some (lo, hi, d)) :
    ∃ u, exec (.deviceSettingWrite (.setting ofs) [w]) s = .next u ∧ u.mem = s.mem ∧ Quiet s u ∧
      u.setting ofs = min hi (max lo w.toNat) ∧ ∀ k, k ≠ ofs → u.setting k = s.setting k := by
  have run : exec (.deviceSettingWrite (.setting ofs) [w]) s = .next (s.writeSetting ofs w) := rfl
  rw [run, s.writeSetting_eq w h]
  refine ⟨_, rfl, rfl, .of_gangs rfl, ?_, fun k hk => ?_⟩
  · unfold State.setting
    rw [h]
    simp [Assoc.getD_putD]
  · unfold State.setting
    simp only [State.setDev_dev, Assoc.getD, Assoc.get?_putD_ne _ _ _ hk]

theorem window_written (s : State) {port k : Nat} (w : List DWord) (hp : port < 16) (hk : k < 16) (hw : wordAt w 1 ≠ 0#64) :
    ∃ u, exec (.deviceSettingWrite (.window port k) w) s = .next u ∧ u.mem = s.mem ∧ Quiet s u ∧
      u.dev.windows.get? (16 * port + k) = some (windowFrom w) ∧ ∀ j, j ≠ 16 * port + k → u.dev.windows.get? j = s.dev.windows.get? j := by
  rw [exec_deviceSettingWrite, execDeviceSettingWrite]
  dsimp only
  rw [if_neg (by omega), if_neg hw]
  exact ⟨_, rfl, rfl, .of_gangs rfl, Assoc.get?_put_self _ _ _, fun j hj => Assoc.get?_put_ne _ _ hj⟩

/-- Lines under the KEY are turned one after another, with the new pair in place from the start. -/
theorem MemSys.loadPair_keyPairs (m : MemSys) (key : BitVec 10) (p : BitVec 512) (draw : Nat) :
    (m.loadPair key p draw).keyPairs = m.keyPairs.put key.toNat p :=
  List.foldlRecOn (motive := fun t : MemSys => t.keyPairs = m.keyPairs.put key.toNat p) _ _ rfl fun _ ht _ _ => ht

theorem keyPair_and_decoderKey_written (s : State) (key : BitVec 10) (w : List DWord) :
    (∃ u, exec (.deviceSettingWrite (.keyPair key) w) s = .next u ∧ u.mem.keyPairs = s.mem.keyPairs.put key.toNat (pairOf w) ∧ Quiet s u) ∧
    ∃ u, exec (.deviceSettingWrite .decoderKey w) s = .next u ∧ u.dev.hdmKey = (wordAt w 0).setWidth 10 ∧ u.mem = s.mem ∧ Quiet s u :=
  ⟨⟨_, rfl, s.mem.loadPair_keyPairs key _ _, .of_gangs rfl⟩, ⟨_, rfl, rfl, rfl, .of_gangs rfl⟩⟩

/-! ### Registers of the host (18:R414 to R416, R426) -/

@[simp] theorem Msix.signal_tab (m : Msix) (v : Nat) : (m.signal v).tab = m.tab := by unfold Msix.signal; split <;> rfl

/-- Sending what was pending changes no entry of the vector table. -/
@[simp] theorem Msix.flush_tab (m : Msix) : m.flush.tab = m.tab :=
  List.foldlRecOn (motive := fun t : Msix => t.tab = m.tab) _ _ rfl fun t ht v _ => (t.signal_tab v).trans ht

theorem msixEntry_and_decoderBase_written (s : State) {v : Nat} (a d : DWord) (hv : v < 64) :
    (∃ u, exec (.registerWrite (.msixEntry v) [a, d]) s = .next u ∧
      u.launches.msi.entry v = ⟨a, d.setWidth 32, d.getLsbD 32⟩ ∧ u.mem = s.mem ∧ Quiet s u) ∧
    ∃ u, exec (.registerWrite .decoderBase [a]) s = .next u ∧ u.dev.hdmBase = a.toNat ∧ u.mem = s.mem ∧ Quiet s u := by
  refine ⟨?_, ⟨_, rfl, rfl, rfl, .of_gangs rfl⟩⟩
  rw [exec_registerWrite, execRegisterWrite]
  dsimp only
  rw [if_neg (by omega)]
  refine ⟨_, rfl, ?_, rfl, .of_gangs rfl⟩
  unfold Msix.entry
  rw [State.setLaunches_launches, Msix.flush_tab, Assoc.getD_put, if_pos rfl]
  rfl

/-- A write of NONCE puts its eight bytes in the place of those from its offset on. -/
theorem State.writeBar0_nonce (s : State) {i : Nat} (w : DWord) (hi : i < 4) :
    s.writeBar0 (0x10020 + 8 * i) w =
      s.setMbox { s.dev.mbox with nonce := s.dev.mbox.nonce.take (8 * i) ++ leBytes 8 w.toNat ++ s.dev.mbox.nonce.drop (8 * i + 8) } := by
  unfold State.writeBar0
  rw [if_pos (by omega), Nat.add_sub_cancel_left]

theorem nonce_written (s : State) {i : Nat} (w : DWord) (hi : i < 4) (len : s.dev.mbox.nonce.length = 32) :
    ∃ u, exec (.registerWrite (.bar0 (0x10020 + 8 * i)) [w]) s = .next u ∧ u.mem = s.mem ∧ Quiet s u ∧
      (∀ k, k < 8 → u.dev.mbox.nonce.getD (8 * i + k) 0#8 = (leBytes 8 w.toNat).getD k 0#8) ∧
      ∀ k, k < 8 * i ∨ 8 * i + 8 ≤ k → u.dev.mbox.nonce.getD k 0#8 = s.dev.mbox.nonce.getD k 0#8 := by
  have run : exec (.registerWrite (.bar0 (0x10020 + 8 * i)) [w]) s = .next (s.writeBar0 (0x10020 + 8 * i) w) := rfl
  rw [run, s.writeBar0_nonce w hi]
  have eight : (leBytes 8 w.toNat).length = 8 := MemSys.leBytes_length 8 _
  have byte (k : Nat) := getD_splice s.dev.mbox.nonce (leBytes 8 w.toNat) (k := 8 * i) k 0#8 (by omega)
  rw [eight] at byte
  refine ⟨_, rfl, rfl, .of_gangs rfl, fun k hk => ?_, fun k hk => ?_⟩
  · refine (byte (8 * i + k)).trans ?_
    rw [if_pos (by omega), Nat.add_sub_cancel_left]
  · exact (byte k).trans (if_neg (by omega))

/-! ### What the host reads (18:R415, R417, R426) -/

/-- A register whose eight bytes are those of a word reads as the word. -/
theorem State.bar0_eq (s : State) (ofs : Nat) (x : DWord) (h : ∀ i, i < 8 → s.bar0Byte (ofs + i) = (leBytes 8 x.toNat).getD i 0#8) :
    s.bar0 ofs = x := by
  have bytes : (List.range 8).map (fun i => s.bar0Byte (ofs + i)) = leBytes 8 x.toNat := by
    refine List.ext_getElem (by simp [MemSys.leBytes_length]) fun i hi hi' => ?_
    rw [List.getElem_map, List.getElem_range, h i (by simpa using hi), List.getD_eq_getElem _ _ hi']
  rw [State.bar0, bytes, ofNat_leNat_leBytes]

theorem Ring.page_eq (r : Ring) : r.page = [r.tail, r.head, r.rstat, r.cfg].flatMap fun w => leBytes 8 w.toNat := by
  simp [Ring.page]

/-- Word `j` of the page of a ring. -/
theorem State.bar0_page (s : State) {n j : Nat} (hn : n < 64) (hj : j < 4) :
    s.bar0 (0x100000 + 0x1000 * n + 8 * j) =
      [(s.ringOf n).tail, (s.ringOf n).head, (s.ringOf n).rstat, (s.ringOf n).cfg].getD j 0#64 := by
  refine s.bar0_eq _ _ fun i hi => ?_
  rw [← getD_flatMap_leBytes _ j hi, ← Ring.page_eq]
  unfold State.bar0Byte
  rw [if_neg (by omega), if_neg (by omega), if_pos (by omega)]
  rw [show (0x100000 + 0x1000 * n + 8 * j + i - 0x100000) / 0x1000 = n by omega,
    show (0x100000 + 0x1000 * n + 8 * j + i) % 0x1000 = 8 * j + i by omega]

/-- COMMAND is written only. -/
theorem State.bar0_command (s : State) : s.bar0 0x10000 = 0#64 := by
  refine s.bar0_eq _ _ fun i hi => ?_
  have zero : (leBytes 8 (0#64).toNat).getD i 0#8 = 0#8 := BitVec.eq_of_toNat_eq (by rw [toNat_getD_leBytes _ hi]; simp)
  rw [zero]
  unfold State.bar0Byte
  rw [if_neg (by omega), if_pos (by omega)]
  unfold Mailbox.byte
  rw [if_neg (by omega), if_neg (by omega), if_neg (by omega)]

theorem bar0_read (s : State) {n : Nat} (hn : n < 64) :
    s.bar0 (0x100000 + 0x1000 * n) = (s.ringOf n).tail ∧ s.bar0 (0x100008 + 0x1000 * n) = (s.ringOf n).head ∧
    s.bar0 (0x100010 + 0x1000 * n) = (s.ringOf n).rstat ∧ s.bar0 (0x100018 + 0x1000 * n) = (s.ringOf n).cfg ∧ s.bar0 0x10000 = 0#64 := by
  refine ⟨s.bar0_page hn (j := 0) (by omega), ?_, ?_, ?_, s.bar0_command⟩
  · rw [show 0x100008 + 0x1000 * n = 0x100000 + 0x1000 * n + 8 * 1 by omega]; exact s.bar0_page hn (by omega)
  · rw [show 0x100010 + 0x1000 * n = 0x100000 + 0x1000 * n + 8 * 2 by omega]; exact s.bar0_page hn (by omega)
  · rw [show 0x100018 + 0x1000 * n = 0x100000 + 0x1000 * n + 8 * 3 by omega]; exact s.bar0_page hn (by omega)

/-! ### The mailbox (18:R425, R426) -/

namespace State

/-! With the mailbox a variable: where it holds a digest, the kernel would compute SHA-256 to compare the states. -/

@[simp] theorem setMbox_gangs (s : State) (m : Mailbox) : (s.setMbox m).gangs = s.gangs := rfl
@[simp] theorem setMbox_mem (s : State) (m : Mailbox) : (s.setMbox m).mem = s.mem := rfl
theorem setMbox_mlog (s : State) (m : Mailbox) (x : BitVec 256) : (s.setMbox { m with mlog := x }).dev.mbox.mlog = x := rfl

end State

theorem command_accepted (s : State) (h : s.dev.mbox.status ≠ 1) :
    exec .attestation s = .next (s.setMbox { s.dev.mbox with status := 1, recovery := false }) ∧
    exec .recoveryProgramming s = .next (s.setMbox { s.dev.mbox with status := 1, recovery := true }) := by
  rw [exec_attestation, exec_recoveryProgramming, execAttestation, execRecoveryProgramming]
  exact ⟨if_neg h, if_neg h⟩

theorem attestation_failed (s : State) (h : s.dev.mbox.status = 1) :
    ∃ u, exec (.attestationDone false) s = .next u ∧ u.dev.mbox.status = 3 ∧ u.launches.msix = s.launches.msix ++ [62] ∧ Quiet s u := by
  rw [exec_attestationDone, execAttestationDone, if_neg (not_not_intro h), if_pos (by simp)]
  exact ⟨_, rfl, rfl, rfl, .of_gangs rfl⟩

theorem attestation_reported (s : State) (h : s.dev.mbox.status = 1) (hr : s.dev.mbox.recovery = false) :
    ∃ u, exec (.attestationDone true) s = .next u ∧ u.dev.mbox.status = 2 ∧ u.dev.mbox.report = s.dev.reportHead ∧
      u.launches.msix = s.launches.msix ++ [62] ∧ Quiet s u := by
  rw [exec_attestationDone, execAttestationDone, if_neg (not_not_intro h), if_neg (by simp), if_neg (by simp [hr])]
  exact ⟨_, rfl, rfl, rfl, rfl, .of_gangs rfl⟩

theorem mlog_extended (s : State) (d : BitVec 256) :
    ∃ u, exec (.mlogExtend d) s = .next u ∧ u.dev.mbox.mlog = sha256 (digestBytes s.dev.mbox.mlog ++ digestBytes d) ∧ u.mem = s.mem ∧ Quiet s u :=
  ⟨_, exec_mlogExtend d s, s.setMbox_mlog s.dev.mbox _, s.setMbox_mem _, .of_gangs (s.setMbox_gangs _)⟩

/-! ### The statement -/

/-- Settles O48: each register, setting and table by the law of its write, and what the host reads byte by byte. -/
theorem deviceRegisters : Obligations.DeviceRegisters := by
  unfold Obligations.DeviceRegisters
  refine ⟨fun s n t hn => tail_written s t hn, fun s n w hn => rstat_written s w hn,
    fun s n w root key hn off => ring_configured s w root key hn off, fun s n w hn on => ring_disabled s w hn on,
    fun s ofs w lo hi d h => setting_written s w h, fun s port k w hp hk hw => window_written s w hp hk hw,
    keyPair_and_decoderKey_written, fun s v a d hv => msixEntry_and_decoderBase_written s a d hv,
    fun s i w hi len => nonce_written s w hi len, command_accepted,
    fun s h => ⟨attestation_failed s h, attestation_reported s h⟩, fun s n hn => bar0_read s hn, mlog_extended⟩

end Sys2Proof.Machine
end

section
/-! PROOF. A step runs the instruction that the words at its program counter decode to (01:R29, 02:R37, R62), and what reset leaves (17:R402, 18:R423). -/

namespace Sys2Proof

/-! ### What decodes -/

theorem Reason.eq_nil_of_lowest {rs : List Reason} (h : Reason.lowest rs = none) : rs = [] := by
  cases rs with
  | nil => rfl
  | cons r rs =>
    rw [Reason.lowest] at h
    split at h
    · cases h
    · split at h <;> cases h

/-- What decodes carries no reason. -/
theorem decode_ok {stroke : Bool} {ws : List Word} {i : Instr} {n : Nat} (h : decode stroke ws = .ok (i, n)) :
    ∃ p pos, decodeRaw ws = .fate (.instr i []) p pos n := by
  unfold decode at h
  split at h
  case h_5 j raw p pos len hraw =>
    split at h
    · cases h
    · next none =>
      cases h
      obtain ⟨rfl, -⟩ := List.append_eq_nil_iff.mp (Reason.eq_nil_of_lowest none)
      exact ⟨p, pos, hraw⟩
  all_goals cases h

namespace Machine

/-! ### The step -/

/-- The words that a fetch gives are those decoded, or end where a later word's fetch fails behind words that already carry a reason. -/
theorem State.fetchMore_ok {s t : State} {x : Site} {core owner k : Nat} {va : DWord} {ws vs : List Word} {r : DecRes}
    (h : s.fetchMore x core owner va k ws = (.ok vs r, t)) : r = decodeRaw vs ∨ decodeRaw vs = .more := by
  induction k generalizing s ws with
  | zero => cases h; exact .inl rfl
  | succ k ih =>
    rw [State.fetchMore] at h
    split at h
    · next more =>
      split at h
      · split at h
        · split at h
          · cases h; exact .inr more
          · cases h
        · cases h
      · exact ih h
    · cases h; exact .inl rfl

/-- The issue of a context whose path stands at words that decode is the execution of their instruction. -/
theorem State.issue_exec {s t : State} {x : Site} {g : Gang} {c : Ctx} {core : Nat} {l : Launch} {cur : Cursor} {ws : List Word} {r : DecRes}
    {i : Instr} {n : Nat} (path : s.selectPath x = s) (gang : s.gang? x.gang = some g) (ctx : g.ctx? x.access = some c)
    (home : g.core = some core) (launch : s.launch? g.launch = some l) (free : c.free = true) (able : c.pathAble = true)
    (stands : c.cur = some cur) (fetch : s.fetchInstr x core l.owner cur.ip = (.ok ws r, t)) (dec : decode cur.hdr.cap ws = .ok (i, n)) :
    s.issue x = .exec i (t.setCur (some x)) := by
  obtain ⟨p, pos, raw⟩ := decode_ok dec
  have fate : r = .fate (.instr i []) p pos n := by
    rcases State.fetchMore_ok fetch with h | h
    · rw [h, raw]
    · rw [raw] at h; cases h
  subst fate
  simp only [State.issue, path, gang, ctx, home, launch, free, able, stands, fetch]
  simp

/-- Settles O52: an issue executes what its words decode to, and an event is itself the step. -/
theorem stepRunsTheDecodedInstruction : Obligations.StepRunsTheDecodedInstruction := by
  unfold Obligations.StepRunsTheDecodedInstruction
  refine ⟨fun s x rest g c core l cur ws r t i n next path gang ctx home launch free able stands fetch dec => ?_, fun s i rest next event => ?_⟩
  · have issue := State.issue_exec path gang ctx home launch free able stands fetch dec
    simp only [step, next, perform, issue]
  · simp only [step, next, perform, event, if_true]

/-- Settles O55: every table is empty, so each lookup finds its reset value. -/
theorem resetState : Obligations.ResetState := by
  unfold Obligations.ResetState
  refine ⟨rfl, fun k => ⟨rfl, rfl, rfl⟩, fun k => rfl, fun k lo hi d h => ?_, fun k => rfl, rfl, rfl⟩
  unfold State.setting
  rw [h]
  rfl

end Machine

end Sys2Proof
end

section
/-! PROOF. Placement, and the firing of dunes: teams and items enter them, and leave with what is placed (01:R14, R21, R22, 13:R304 to R308). -/

namespace Sys2Proof.Machine

/-! ### The events of dunes -/

theorem exec_rootDuneEnqueue (n c : Nat) (s : State) : exec (.rootDuneEnqueue n c) s = execRootDuneEnqueue n c s := rfl
theorem exec_rootDuneFiring (n c core : Nat) (s : State) : exec (.rootDuneFiring n c core) s = execRootDuneFiring n c core s := rfl
theorem exec_duneFiring (c core : Nat) (s : State) : exec (.duneFiring c core) s = execDuneFiring c core s := rfl
theorem exec_driftExpiry (n d : Nat) (s : State) : exec (.driftExpiry n d) s = execDriftExpiry n d s := rfl
theorem exec_starving (n d : Nat) (s : State) : exec (.starving n d) s = execStarving n d s := rfl
theorem exec_finalDrain (n : Nat) (s : State) : exec (.finalDrain n) s = execFinalDrain n s := rfl
theorem exec_ringItemMove (n d : Nat) (s : State) : exec (.ringItemMove n d) s = execRingItemMove n d s := rfl
theorem exec_duneRingFaultResolution (n d : Nat) (s : State) :
    exec (.duneRingFaultResolution n d) s = execDuneRingFaultResolution n d s := rfl

/-! ### Dunes as data -/

namespace State

theorem dune?_of_launch? (s : State) (n d : Nat) : s.dune? n d = (s.launch? n).bind fun l => l.dunes.get? d := by
  unfold dune?; cases s.launch? n <;> rfl

@[simp] theorem dune?_updDune (s : State) (n d : Nat) (f : Dune → Dune) : (s.updDune n d f).dune? n d = (s.dune? n d).map f := by
  rw [dune?_of_launch?, dune?_of_launch?, updDune, launch?_updLaunch]
  cases s.launch? n <;> simp

/-- A change of a launch that leaves its dunes alone. -/
theorem dune?_updLaunch (s : State) (n d : Nat) {f : Launch → Launch} (hf : ∀ l, (f l).dunes = l.dunes) :
    (s.updLaunch n f).dune? n d = s.dune? n d := by
  rw [dune?_of_launch?, dune?_of_launch?, launch?_updLaunch]
  cases s.launch? n <;> simp [hf]

/-- Forgetting a lineage mark changes at most the mark. -/
theorem unmark_eq (s : State) (n d : Nat) : s.unmark n d = s ∨ s.unmark n d = s.updDune n d fun u => { u with mark := none } := by
  unfold unmark
  split
  · split
    · exact .inl rfl
    · split
      · exact .inl rfl
      · exact .inr rfl
  · exact .inl rfl

/-- What forgetting a lineage mark keeps. -/
theorem unmark_keeps {β : Type} (φ : State → β) (s : State) (n d : Nat) (h : ∀ f, φ (s.updLaunch n f) = φ s) : φ (s.unmark n d) = φ s := by
  rcases s.unmark_eq n d with e | e
  · rw [e]
  · rw [e]; exact h _

theorem items_unmark (s : State) (n d : Nat) : ((s.unmark n d).dune? n d).map Dune.items = (s.dune? n d).map Dune.items := by
  rcases s.unmark_eq n d with e | e
  · rw [e]
  · rw [e, dune?_updDune, Option.map_map]; rfl

end State

theorem Dune.items_dropHead (u : Dune) (n : Nat) : (u.dropHead n).items = u.items.drop n := List.drop_append.symm

/-! ### Placement -/

/-- 01:R33: what a gang is at its placement, but for where its core keeps it and its save area. -/
structure Gang.PlacedAs (g : Gang) (grp launch num core : Nat) (dune : Option Nat) (prio : Nat) (threads : Assoc Thread) (cctx : Ctx) : Prop where
  group : g.group = grp
  launch : g.launch = launch
  num : g.num = num
  core : g.core = some core
  dune : g.dune = dune
  prio : g.prio = prio
  threads : g.threads = threads
  cctx : g.cctx = cctx

/-- A gang is placed under the next key; beside it only the pool of save areas changes. -/
theorem State.placeGang_eq (s : State) (grp launch : Nat) (l : Launch) (num core : Nat) (dune : Option Nat) (prio : Nat)
    (threads : Assoc Thread) (cctx : Ctx) :
    ∃ g pool next, s.placeGang grp launch l num core dune prio threads cctx =
        ((s.setNextId (s.nextId + 1)).setLaunches { s.launches with savePool := pool, saveNext := next }).setGangs (s.gangs.put s.nextId g) ∧
      g.PlacedAs grp launch num core dune prio threads cctx :=
  ⟨_, _, _, rfl, ⟨rfl, rfl, rfl, rfl, rfl, rfl, rfl, rfl⟩⟩

/-- Gang `num` of a group of a team. -/
def State.placeNth (s : State) (id launch : Nat) (l : Launch) (team grp core num : Nat) : State :=
  s.placeGang id launch l num core none l.prio ((List.range l.kern.width).map fun n => (n, Thread.fresh 0#32 (linRoot team grp num n) .no))
    (Ctx.fresh (List.range l.kern.width) l.kern.centry)

theorem State.placeGroup_eq (s : State) (launch : Nat) (l : Launch) (team grp core : Nat) :
    s.placeGroup launch l team grp core = (List.range l.gangs).foldl (fun t num => t.placeNth s.nextId launch l team grp core num)
      ((s.setNextId (s.nextId + 1)).setGroups (s.groups.put s.nextId (Group.placed l launch team grp core))) := rfl

/-- `t` is `s` after the first `n` gangs of group `id` of a team have been placed. -/
structure TeamPlaced (id launch : Nat) (l : Launch) (team grp core n : Nat) (s t : State) : Prop where
  nextId : t.nextId = s.nextId + n
  mem : t.mem = s.mem
  groups : t.groups = s.groups
  tab : t.launches.tab = s.launches.tab
  earlier : ∀ k, k < s.nextId → t.gang? k = s.gang? k
  gangs : ∀ i, i < n → ∃ g, t.gang? (s.nextId + i) = some g ∧ g.PlacedAs id launch i core none l.prio
    ((List.range l.kern.width).map fun n => (n, Thread.fresh 0#32 (linRoot team grp i n) .no)) (Ctx.fresh (List.range l.kern.width) l.kern.centry)

theorem State.placeNth_foldl (s : State) (id launch : Nat) (l : Launch) (team grp core n : Nat) :
    TeamPlaced id launch l team grp core n s ((List.range n).foldl (fun t num => t.placeNth id launch l team grp core num) s) := by
  induction n with
  | zero => exact ⟨rfl, rfl, rfl, rfl, fun _ _ => rfl, fun i hi => absurd hi (Nat.not_lt_zero i)⟩
  | succ n ih =>
    rw [List.range_succ, List.foldl_append, List.foldl_cons, List.foldl_nil]
    generalize (List.range n).foldl _ s = t at ih
    obtain ⟨g, pool, next, placed, as⟩ := t.placeGang_eq id launch l n core none l.prio
      ((List.range l.kern.width).map fun k => (k, Thread.fresh 0#32 (linRoot team grp n k) .no)) (Ctx.fresh (List.range l.kern.width) l.kern.centry)
    have gang (k : Nat) : (t.placeNth id launch l team grp core n).gang? k = if k = s.nextId + n then some g else t.gang? k := by
      rw [State.placeNth, placed, ← ih.nextId]; exact Assoc.get?_put _ _ _ _
    refine ⟨?_, ?_, ?_, ?_, fun k hk => ?_, fun i hi => ?_⟩
    · rw [State.placeNth, placed]; exact congrArg (· + 1) ih.nextId
    · rw [State.placeNth, placed]; exact ih.mem
    · rw [State.placeNth, placed]; exact ih.groups
    · rw [State.placeNth, placed]; exact ih.tab
    · rw [gang, if_neg (by omega)]; exact ih.earlier k hk
    · by_cases last : i = n
      · subst last; exact ⟨g, (gang _).trans (if_pos rfl), as⟩
      · rw [gang, if_neg (by omega)]; exact ih.gangs i (by omega)

/-- 01:R10 to R12: a group is placed with all its gangs, under the next keys. -/
theorem State.placeGroup_placed (s : State) (launch : Nat) (l : Launch) (team grp core : Nat) :
    TeamPlaced s.nextId launch l team grp core l.gangs
      ((s.setNextId (s.nextId + 1)).setGroups (s.groups.put s.nextId (Group.placed l launch team grp core)))
      (s.placeGroup launch l team grp core) := by
  rw [State.placeGroup_eq]
  exact State.placeNth_foldl _ _ _ _ _ _ _ _

/-- `t` is `s` after a team has been placed, its first group under the next key and the gangs of it under those after. -/
structure TeamStands (launch : Nat) (l : Launch) (team core : Nat) (s t : State) : Prop where
  mem : t.mem = s.mem
  tab : t.launches.tab = s.launches.tab
  group : t.group? s.nextId = some (Group.placed l launch team 0 core)
  gangs : ∀ i, i < l.gangs → ∃ g, t.gang? (s.nextId + 1 + i) = some g ∧ g.PlacedAs s.nextId launch i core none l.prio
    ((List.range l.kern.width).map fun n => (n, Thread.fresh 0#32 (linRoot team 0 i n) .no)) (Ctx.fresh (List.range l.kern.width) l.kern.centry)

theorem State.placeTeam_stands (s : State) (launch : Nat) (l : Launch) (team core : Nat) :
    TeamStands launch l team core s (s.placeTeam launch l team core) := by
  have first := s.placeGroup_placed launch l team 0 core
  unfold State.placeTeam
  generalize s.placeGroup launch l team 0 core = t at first
  have group : t.group? s.nextId = some (Group.placed l launch team 0 core) := by
    unfold State.group?; rw [first.groups]; exact Assoc.get?_put_self _ _ _
  have next : t.nextId = s.nextId + 1 + l.gangs := first.nextId
  dsimp only
  split
  · have second := t.placeGroup_placed launch l team 1 (partnerOf core)
    refine ⟨second.mem.trans first.mem, second.tab.trans first.tab, ?_, fun i hi => ?_⟩
    · unfold State.group?; rw [second.groups]
      exact (Assoc.get?_put_ne _ _ (by omega)).trans group
    · rw [second.earlier _ (show s.nextId + 1 + i < t.nextId + 1 by omega)]
      exact first.gangs i hi
  · exact ⟨first.mem, first.tab, group, first.gangs⟩

/-! ### Firing -/

/-- 13:R306: the engine fires the first of its ranking where that may choose the core. -/
theorem State.engine_fires {s : State} {cluster core : Nat} {pick : Ranked → Bool} {r : Ranked} {rs : List Ranked} (h : core ∈ s.fireCores cluster r)
    (hp : pick r = true) : s.engine cluster core pick (r :: rs) = s.fireRanked cluster core r := by
  have some : (s.fireCores cluster r).isEmpty = false := by simp [List.ne_nil_of_mem h]
  simp [State.engine, some, hp, h]

theorem rootDune_enqueued {s : State} {n cluster : Nat} {l : Launch} {r : Root} (launch : s.launch? n = some l)
    (root : l.roots.get? cluster = some r) (room : r.items.length < 64) (left : r.cursor < l.teams) (lives : l.ended = none) :
    ∃ u, exec (.rootDuneEnqueue n cluster) s = .next u ∧
      (u.launch? n).bind (·.roots.get? cluster) = some ⟨r.cursor + 24, r.items ++ [(r.cursor, BitVec.ofNat 32 (s.tick cluster))]⟩ ∧
      u.mem = s.mem ∧ Quiet s u := by
  rw [exec_rootDuneEnqueue, execRootDuneEnqueue, launch]
  dsimp only
  rw [root]
  dsimp only
  rw [if_pos ⟨room, left, by rw [lives]; rfl⟩]
  refine ⟨_, rfl, ?_, rfl, .of_gangs rfl⟩
  rw [State.launch?_updLaunch, launch]
  exact Assoc.get?_put_self _ _ _

theorem rootDune_fired {s : State} {n cluster core : Nat} {r : Ranked} {rs : List Ranked} {l : Launch} {q : Root} {team : Nat} {t : Word}
    {rest : List (Nat × Word)} (first : s.ranking cluster = r :: rs) (of : r.launch = n) (isRoot : r.dune = 1024) (may : core ∈ s.fireCores cluster r)
    (launch : s.launch? n = some l) (root : l.roots.get? cluster = some q) (items : q.items = (team, t) :: rest) :
    ∃ u, exec (.rootDuneFiring n cluster core) s = .next u ∧ u.group? s.nextId = some (Group.placed l n team 0 core) ∧
      (∀ i, i < l.gangs → ∃ g, u.gang? (s.nextId + 1 + i) = some g ∧ g.group = s.nextId ∧ g.launch = n ∧ g.num = i ∧ g.core = some core ∧
        g.cctx = Ctx.fresh (List.range l.kern.width) l.kern.centry ∧ g.threads.keys = List.range l.kern.width) ∧ u.mem = s.mem := by
  subst of
  have fires : s.fireRanked cluster core r = (s.placeTeam r.launch l team core).updLaunch r.launch fun l =>
      { l with roots := if rest.isEmpty ∧ l.teams ≤ q.cursor then l.roots.del cluster else l.roots.put cluster { q with items := rest } } := by
    simp only [State.fireRanked, isRoot, launch, root, items]; rfl
  rw [exec_rootDuneFiring, execRootDuneFiring, first, State.engine_fires may (by simp [isRoot]), fires]
  have stands := s.placeTeam_stands r.launch l team core
  refine ⟨_, rfl, stands.group, fun i hi => ?_, stands.mem⟩
  obtain ⟨g, gang, as⟩ := stands.gangs i hi
  refine ⟨g, gang, as.group, as.launch, as.num, as.core, as.cctx, ?_⟩
  simp [as.threads, Assoc.keys, Function.comp_def]

/-- The state in which the first `n` items of a dune have left it for a gang of a fresh team. -/
def State.batchTaken (s : State) (n d k : Nat) : State :=
  ((s.updDune n d fun u => u.dropHead k).unmark n d).updLaunch n fun l =>
    { l with nextTeam := if l.nextTeam ≤ 0x3FFFFFF then l.nextTeam + 1 else l.nextTeam }

namespace State

theorem batchTaken_keeps {β : Type} (φ : State → β) (s : State) (n d k : Nat) (h : ∀ t f, φ (t.updLaunch n f) = φ t) :
    φ (s.batchTaken n d k) = φ s :=
  (h _ _).trans ((unmark_keeps φ _ n d (h _)).trans (h _ _))

theorem items_batchTaken (s : State) (n d k : Nat) :
    ((s.batchTaken n d k).dune? n d).map Dune.items = (s.dune? n d).map fun u => u.items.drop k := by
  unfold batchTaken
  rw [dune?_updLaunch _ _ _ fun _ => by rfl, items_unmark, dune?_updDune, Option.map_map]
  exact Option.map_congr fun u _ => u.items_dropHead k

/-- Places a group of one gang. -/
def placeLone (s : State) (n : Nat) (l : Launch) (team core : Nat) (dune : Option Nat) (prio : Nat) (threads : Assoc Thread) (cctx : Ctx) : State :=
  ((s.setNextId (s.nextId + 1)).setGroups (s.groups.put s.nextId (Group.placed l n team 0 core))).placeGang s.nextId n l 0 core dune prio threads cctx

theorem placeLone_placed (s : State) (n : Nat) (l : Launch) (team core : Nat) (dune : Option Nat) (prio : Nat) (threads : Assoc Thread) (cctx : Ctx) :
    ∃ g, (s.placeLone n l team core dune prio threads cctx).gang? (s.nextId + 1) = some g ∧
      g.PlacedAs s.nextId n 0 core dune prio threads cctx ∧
      (s.placeLone n l team core dune prio threads cctx).group? s.nextId = some (Group.placed l n team 0 core) ∧
      (s.placeLone n l team core dune prio threads cctx).mem = s.mem ∧
      (s.placeLone n l team core dune prio threads cctx).launches.tab = s.launches.tab := by
  obtain ⟨g, pool, next, placed, as⟩ :=
    placeGang_eq ((s.setNextId (s.nextId + 1)).setGroups (s.groups.put s.nextId (Group.placed l n team 0 core))) s.nextId n l 0 core dune prio
      threads cctx
  rw [placeLone, placed]
  exact ⟨g, Assoc.get?_put_self _ _ _, as, Assoc.get?_put_self _ _ _, rfl, rfl⟩

/-- 13:R308: a firing places one gang, in a group of a fresh team, after its batch has left the dune. -/
theorem fireDune_eq {s : State} {n d core team : Nat} {l : Launch} {u : Dune} {xs : List Item} (launch : s.launch? n = some l)
    (dune : s.dune? n d = some u) (fresh : s.freshTeam n l = some team) (batch : s.mem.headItems l.owner u (s.batchSize n l d u) = .ok xs) :
    ∃ c, s.fireDune n d core = (s.batchTaken n d (s.batchSize n l d u)).placeLone n l team core (some d) u.cls
      (xs.zipIdx.map fun p => (p.2, Thread.fresh p.1.fam p.1.lin .live)) c := by
  unfold fireDune
  simp only [launch, dune, fresh, batch]
  exact ⟨_, rfl⟩

end State

theorem dune_fired {s : State} {cluster core : Nat} {r : Ranked} {rs : List Ranked} {l : Launch} {d : Dune} {team : Nat} {xs : List Item}
    (first : s.ranking cluster = r :: rs) (isProgram : r.dune ≠ 1024) (may : core ∈ s.fireCores cluster r)
    (launch : s.launch? r.launch = some l) (dune : s.dune? r.launch r.dune = some d) (fresh : s.freshTeam r.launch l = some team)
    (batch : s.mem.headItems l.owner d (s.batchSize r.launch l r.dune d) = .ok xs) :
    ∃ u g, exec (.duneFiring cluster core) s = .next u ∧ u.group? s.nextId = some (Group.placed l r.launch team 0 core) ∧
      u.gang? (s.nextId + 1) = some g ∧ g.group = s.nextId ∧ g.core = some core ∧ g.dune = some r.dune ∧ g.prio = d.cls ∧
      g.threads = xs.zipIdx.map (fun p => (p.2, Thread.fresh p.1.fam p.1.lin .live)) ∧ u.mem = s.mem ∧
      ((u.dune? r.launch r.dune).map fun a => a.items) = some (d.items.drop (s.batchSize r.launch l r.dune d)) := by
  obtain ⟨c, fires⟩ := State.fireDune_eq (core := core) launch dune fresh batch
  rw [exec_duneFiring, execDuneFiring, first, State.engine_fires may (by simp [isProgram]), State.fireRanked, if_pos isProgram, fires]
  have items := s.items_batchTaken r.launch r.dune (s.batchSize r.launch l r.dune d)
  have nextId := s.batchTaken_keeps State.nextId r.launch r.dune (s.batchSize r.launch l r.dune d) fun _ _ => rfl
  have mem := s.batchTaken_keeps State.mem r.launch r.dune (s.batchSize r.launch l r.dune d) fun _ _ => rfl
  generalize s.batchTaken r.launch r.dune (s.batchSize r.launch l r.dune d) = t at items nextId mem
  obtain ⟨g, gang, as, group, sameMem, tab⟩ := t.placeLone_placed r.launch l team core (some r.dune) d.cls
    (xs.zipIdx.map fun p => (p.2, Thread.fresh p.1.fam p.1.lin .live)) c
  rw [nextId] at gang as group
  refine ⟨_, g, rfl, group, gang, as.group, as.core, as.dune, as.prio, as.threads, sameMem.trans mem, ?_⟩
  rw [dune] at items
  refine Eq.trans ?_ items
  unfold State.dune? State.launch?
  rw [tab]

/-! ### What is ready makes its engine look -/

/-- 01:R21: an engine that looks puts the firing that is possible on the agenda, and does nothing else. -/
theorem State.engineLooks_eq {s : State} {cluster : Nat} {i : Instr} (h : s.firing? cluster = some i) :
    s.engineLooks cluster = s.setAgenda (.event i :: s.agenda) := by
  unfold State.engineLooks; rw [h]

theorem drift_expired {s : State} {n dn : Nat} {l : Launch} {d : Dune} {i : Instr} (launch : s.launch? n = some l) (dune : s.dune? n dn = some d)
    (fires : s.firing? d.home = some i) (ready : s.duneReady n l dn d = true) :
    ∃ u, exec (.driftExpiry n dn) s = .next u ∧ u.agenda = .event i :: s.agenda ∧ u.mem = s.mem ∧ Quiet s u := by
  simp only [exec_driftExpiry, execDriftExpiry, launch, dune, ready, if_true, State.engineLooks_eq fires]
  exact ⟨_, rfl, rfl, rfl, .of_gangs rfl⟩

theorem starving_looks {s : State} {n dn : Nat} {l : Launch} {d : Dune} {i : Instr} (launch : s.launch? n = some l) (dune : s.dune? n dn = some d)
    (fires : s.firing? d.home = some i) (starves : s.duneStarving n l dn d = true) :
    ∃ u, exec (.starving n dn) s = .next u ∧ u.agenda = .event i :: s.agenda ∧ u.mem = s.mem ∧ Quiet s u := by
  simp only [exec_starving, execStarving, launch, dune, starves, if_true, State.engineLooks_eq fires]
  exact ⟨_, rfl, rfl, rfl, .of_gangs rfl⟩

/-! ### Final drain and spill rings -/

theorem final_drained {s : State} {n : Nat} {l : Launch} (launch : s.launch? n = some l) (due : s.finalDue n l = true) :
    ∃ u, exec (.finalDrain n) s = .next u ∧ u.mem = s.mem ∧ Quiet s u ∧
      (u.launch? n).map (·.finalDrain) = some ((l.dunes.filter fun e => decide (e.2.count ≠ 0)).map fun e =>
        (e.1, e.2.items.map (·.serial))) := by
  simp only [exec_finalDrain, execFinalDrain, launch, due, if_true]
  refine ⟨_, rfl, rfl, .of_gangs rfl, ?_⟩
  rw [State.launch?_updLaunch, launch]
  rfl

theorem MemSys.ringRead_one {m : MemSys} {owner pos : Nat} {d : Dune} {x : Item} {bs : List Byte} (h : m.dispRead owner (d.ringVa pos) 64 = .ok bs) :
    m.ringRead owner d pos [x] = .ok [Item.ofBytes bs x.serial] := by
  simp [MemSys.ringRead, h]

theorem ring_item_moved {s : State} {n dn : Nat} {l : Launch} {d : Dune} {x : Item} {xs : List Item} {bs : List Byte}
    (launch : s.launch? n = some l) (dune : s.dune? n dn = some d) (ring : d.ringed = x :: xs) (sound : d.ringFault = none)
    (room : s.freeSlots d.home ≠ 0) (read : s.mem.dispRead l.owner (d.ringVa d.ringPos) 64 = .ok bs) :
    ∃ u, exec (.ringItemMove n dn) s = .next u ∧ u.mem = s.mem ∧ Quiet s u ∧ u.dune? n dn =
      some { d with store := d.store ++ [Item.ofBytes bs x.serial], ringPos := d.ringPos + 1, ringed := xs } := by
  have head : s.mem.ringRead l.owner d d.ringPos (d.ringed.take 1) = .ok [Item.ofBytes bs x.serial] := by
    rw [ring]; exact MemSys.ringRead_one read
  simp only [exec_ringItemMove, execRingItemMove, launch, dune]
  rw [if_neg (by simp [ring, sound, room]), head]
  refine ⟨_, rfl, rfl, .of_gangs rfl, ?_⟩
  rw [State.dune?_updDune, dune, Option.map_some, ring]
  rfl

/-- A delegation entry that leaves its queue leaves the table of those not yet resolved. -/
theorem State.delegs_dropDeleg (s : State) (id : Nat) : (s.dropDeleg id).ctl.delegs = s.ctl.delegs.del id := by
  unfold State.dropDeleg; dsimp only; split <;> rfl

/-- What leaving the queue keeps: all but the entry and memory. -/
theorem State.dropDeleg_gangs (s : State) (id : Nat) : (s.dropDeleg id).gangs = s.gangs := by
  unfold State.dropDeleg; dsimp only; split <;> rfl
theorem State.dropDeleg_launches (s : State) (id : Nat) : (s.dropDeleg id).launches = s.launches := by
  unfold State.dropDeleg; dsimp only; split <;> rfl

theorem State.get?_delegs_foldl_dropDeleg (ids : List Nat) (s : State) (k : Nat) :
    (ids.foldl State.dropDeleg s).ctl.delegs.get? k = if k ∈ ids then none else s.ctl.delegs.get? k := by
  induction ids generalizing s with
  | nil => simp
  | cons i ids ih =>
    rw [List.foldl_cons, ih, State.delegs_dropDeleg, Assoc.get?_del]
    by_cases here : k = i <;> by_cases later : k ∈ ids <;> simp [here, later]

theorem ring_fault_resolved {s : State} {n dn : Nat} {d : Dune} (dune : s.dune? n dn = some d) :
    ∃ u, exec (.duneRingFaultResolution n dn) s = .next u ∧ u.dune? n dn = some { d with ringFault := none } ∧ Quiet s u ∧
      ∀ k, u.ctl.delegs.get? k = if k ∈ s.ringDelegs n dn then none else s.ctl.delegs.get? k := by
  rw [exec_duneRingFaultResolution, execDuneRingFaultResolution]
  have gangs : ((s.ringDelegs n dn).foldl State.dropDeleg s).gangs = s.gangs :=
    List.foldlRecOn (motive := fun t : State => t.gangs = s.gangs) _ _ rfl fun t ht i _ => (t.dropDeleg_gangs i).trans ht
  have launches : ((s.ringDelegs n dn).foldl State.dropDeleg s).launches = s.launches :=
    List.foldlRecOn (motive := fun t : State => t.launches = s.launches) _ _ rfl fun t ht i _ => (t.dropDeleg_launches i).trans ht
  have same : ((s.ringDelegs n dn).foldl State.dropDeleg s).dune? n dn = some d := by
    rw [← dune]; unfold State.dune? State.launch?; rw [launches]
  refine ⟨_, rfl, ?_, .of_gangs gangs, State.get?_delegs_foldl_dropDeleg _ s⟩
  rw [State.dune?_updDune, same]
  rfl

/-! ### The statement -/

/-- Settles O45: each event by the law of what it does to the dunes of its launch, the two firings by what the engine's first choice places. -/
theorem dunesFire : Obligations.DunesFire := by
  unfold Obligations.DunesFire
  exact ⟨fun s n cluster l r launch root room left lives => rootDune_enqueued launch root room left lives,
    fun s n cluster core r rs l q team t rest first of isRoot may launch root items => rootDune_fired first of isRoot may launch root items,
    fun s cluster core r rs l d team xs first isProgram may launch dune fresh batch => dune_fired first isProgram may launch dune fresh batch,
    fun s n dn l d i launch dune fires => ⟨drift_expired launch dune fires, starving_looks launch dune fires⟩,
    fun s n l launch due => final_drained launch due,
    fun s n dn l d x xs bs launch dune ring sound room read => ring_item_moved launch dune ring sound room read,
    fun s n dn d dune => ring_fault_resolved dune⟩

end Sys2Proof.Machine
end

section
/-! PROOF. The eviction of a gang whose save area lies above HBM (01:R26, 16:R392): a counterexample. -/

namespace Sys2Proof.Machine

/-- A gang on core 0 with one lane, stopped, and a save area from 2^52 on: beyond HBM, where the bytes of host memory have their keys. -/
def farGang : Gang :=
  { group := 0, launch := 0, num := 0, width := 16, core := some 0, quad := 0, slot := 0, dune := none, prio := 0
    threads := [(0, Thread.fresh 0#32 0#96 .no)]
    cctx := { Ctx.fresh [] 0#64 with lanes := [(0, { LaneSt.ready 0#64 with ws := .stopped })] }
    actx := none, queues := [], savep := 0x10000000000000#64, evictable := none, deadlock := none, spin := none }

/-- That gang and another one of its group, and one byte of host memory written, at address 0. -/
def farSaved (b : Byte) : State :=
  { State.reset with
    launches := { State.reset.launches with tab := [(0, placedLaunch)] }
    groups := [(0, Group.placed placedLaunch 0 0 0 0)]
    gangs := [(0, farGang), (1, { farGang with num := 1, slot := 1 })]
    mem := { State.reset.mem with bytes := [(byteKey 1#2 0, b)] } }

theorem farSaved_evictable (b : Byte) : (farSaved b).evictableNow 0 = true := rfl

theorem byte_farSaved (b : Byte) : (farSaved b).byte 1#2 0#10 0 = b := rfl

/-- The eviction writes the save area, and with it drops the byte of host memory: it reads as one never written. -/
theorem farSaved_evicted (b : Byte) : ∃ u, exec (.evictRequest 0) (farSaved b) = .next u ∧ u.byte 1#2 0#10 0 = Config.bootByte 1 0 0 :=
  ⟨_, rfl, rfl⟩

/-- Refutes O46: nothing bounds the address of a save area, so an eviction can change host memory. System software may set the pool anywhere
(16:R392); from 2^52 on its addresses are the keys of bytes of host memory, which the write of the area at the eviction drops. -/
theorem not_gangsComeAndGo : ¬ Obligations.GangsComeAndGo := by
  unfold Obligations.GangsComeAndGo
  rintro ⟨evict, -⟩
  obtain ⟨b, written⟩ : ∃ b, b ≠ Config.bootByte 1 0 0 := ⟨Config.bootByte 1 0 0 + 1#8, by simp⟩
  obtain ⟨u, run, -, -, -, -, frame⟩ := evict (farSaved b) 0 farGang 0 placedLaunch (2 ^ 52) rfl (farSaved_evictable b) rfl rfl rfl
    (fun w none => nomatch none) (fun o none => nomatch none) rfl rfl rfl (fun r none => nomatch none)
  obtain ⟨v, run', dropped⟩ := farSaved_evicted b
  obtain rfl : v = u := Host.Outcome.next.inj (run'.symm.trans run)
  have kept : v.byte 1#2 0#10 0 = b := (frame 1#2 0#10 0 (.inl (by decide))).trans (byte_farSaved b)
  exact written (kept.symm.trans dropped)

end Sys2Proof.Machine
end

section
/-! PROOF. Launches: records taken, completion and ends, allotments and access contexts (01:R16 to R28, 08:R183). -/

namespace Sys2Proof.Machine

/-! ### The events of launches -/

theorem exec_launchRecordTake (ring : Nat) (s : State) : exec (.launchRecordTake ring) s = execLaunchRecordTake ring s := rfl
theorem exec_launchCompletion (n : Nat) (s : State) : exec (.launchCompletion n) s = execLaunchCompletion n s := rfl
theorem exec_launchEndEarly (n cause : Nat) (s : State) : exec (.launchEndEarly n cause) s = execLaunchEndEarly n cause s := rfl
theorem exec_allotmentFill (n line : Nat) (s : State) : exec (.allotmentFill n line) s = execAllotmentFill n line s := rfl
theorem exec_accessContextEnd (n : Nat) (s : State) : exec (.accessContextEnd n) s = execAccessContextEnd n s := rfl

/-! ### Records -/

namespace State

/-- The head of a ring that advances leaves its owner. -/
@[simp] theorem ringOwner_ringTaken (s : State) (ring : Nat) : (s.ringTaken ring).ringOwner ring = s.ringOwner ring := by
  unfold ringOwner ringTaken
  simp only [setLaunches_launches, setLaunches_mem, Assoc.getD, Assoc.get?_upd_self]
  cases s.launches.rings.get? ring <;> rfl

/-- 01:R16 to R19: a record that passes every check becomes a launch under a free number. -/
theorem takeRecord_good {s : State} {ring : Nat} {e d ps : List Byte} {t : Xlat} {m1 m2 m3 : MemSys} {n : Nat}
    (done : s.mem.dispXlat (s.ringOwner ring) .write (fieldD e 0x30) = (.ok t, m1)) (aligned : (fieldD e 0x30).toNat % 8 = 0)
    (kernel : m1.dispReads (s.ringOwner ring) 2 (fieldD e 0x00) 64 = (some d, m2))
    (params : m2.dispReads (s.ringOwner ring) (fieldAt e 0x10 4 / 4096 + 2) (fieldD e 0x08) (fieldAt e 0x10 4) = (some ps, m3))
    (record : recordOk e = true) (kern : kernOk d (fieldAt e 0x10 4) = true) (ptw : ptwOk (launchPtw e d) = true)
    (fits : fitsEmpty (BitVec.ofNat 24 (launchPtw e d)) (Kern.ofBytes d) (fieldAt e 0x1A 2) = true)
    (free : freeLaunch s.launches.tab 0xFFFF (match s.launches.last with | none => 0 | some k => k + 1) = some n) :
    s.takeRecord ring e = (s.setMem m3).setLaunches { s.launches with
      tab := s.launches.tab.put n (Launch.ofRecord e d ps ring (s.ringOwner ring) s.launches.seq), last := some n, seq := s.launches.seq + 1 } := by
  have fits' : fitsEmpty (Launch.ofRecord e d ps ring (s.ringOwner ring) s.launches.seq).ptw (Launch.ofRecord e d ps ring (s.ringOwner ring) s.launches.seq).kern
    (Launch.ofRecord e d ps ring (s.ringOwner ring) s.launches.seq).gangs = true := fits
  unfold takeRecord
  simp only [done, aligned, setMem_mem, kernel, params, record, kern, setMem_launches, ptw, fits']
  simp only [ne_eq, not_true_eq_false, Bool.not_true, Bool.false_eq_true, or_self, if_false]
  split
  · next none => exact absurd (none.symm.trans free) nofun
  · next k some => obtain rfl := Option.some.inj (some.symm.trans free); rfl

end State

theorem launchRecord_taken {s : State} {ring : Nat} {r : Ring} {e d ps : List Byte} {t : Xlat} {m1 m2 m3 : MemSys} {n : Nat}
    (takes : s.takesRecord ring = true) (known : s.launches.rings.get? ring = some r) (entry : s.ringEntry r = e)
    (done : s.mem.dispXlat (s.ringOwner ring) .write (fieldD e 0x30) = (.ok t, m1)) (aligned : (fieldD e 0x30).toNat % 8 = 0)
    (kernel : m1.dispReads (s.ringOwner ring) 2 (fieldD e 0x00) 64 = (some d, m2))
    (params : m2.dispReads (s.ringOwner ring) (fieldAt e 0x10 4 / 4096 + 2) (fieldD e 0x08) (fieldAt e 0x10 4) = (some ps, m3))
    (record : recordOk e = true) (kern : kernOk d (fieldAt e 0x10 4) = true) (ptw : ptwOk (launchPtw e d) = true)
    (fits : fitsEmpty (BitVec.ofNat 24 (launchPtw e d)) (Kern.ofBytes d) (fieldAt e 0x1A 2) = true)
    (free : freeLaunch s.launches.tab 0xFFFF (match s.launches.last with | none => 0 | some k => k + 1) = some n) :
    ∃ u, exec (.launchRecordTake ring) s = .next u ∧ u.launch? n = some (Launch.ofRecord e d ps ring (s.ringOwner ring) s.launches.seq) ∧
      u.launches.rings.get? ring = some { r with head := r.head + 1#64 } ∧ u.mem = m3 ∧ Quiet s u := by
  have taken := State.takeRecord_good (s := s.ringTaken ring) (ring := ring) (by rw [State.ringOwner_ringTaken]; exact done) aligned
    (by rw [State.ringOwner_ringTaken]; exact kernel) (by rw [State.ringOwner_ringTaken]; exact params) record kern ptw fits free
  rw [exec_launchRecordTake, execLaunchRecordTake, takes, known]
  simp only [Bool.not_true, Bool.false_eq_true, if_false, entry, taken, State.ringOwner_ringTaken]
  refine ⟨_, rfl, Assoc.get?_put_self _ _ _, ?_, rfl, .of_gangs rfl⟩
  refine (Assoc.get?_upd_self _ _ _).trans ?_
  rw [known]
  rfl

/-! ### Completion -/

namespace MemSys

@[simp] theorem tagLine_areas (m : MemSys) (mt : BitVec 2) (key : BitVec 10) (pa : Nat) : (m.tagLine mt key pa).areas = m.areas := by
  unfold tagLine; dsimp only; split
  · rfl
  · split
    · rfl
    · split <;> rfl
@[simp] theorem tagLine_keyPairs (m : MemSys) (mt : BitVec 2) (key : BitVec 10) (pa : Nat) : (m.tagLine mt key pa).keyPairs = m.keyPairs := by
  unfold tagLine; dsimp only; split
  · rfl
  · split
    · rfl
    · split <;> rfl

theorem writeBytes_areas (m : MemSys) (mt : BitVec 2) (key : BitVec 10) (pa : Nat) (bs : List Byte) :
    (m.writeBytes mt key pa bs).areas = m.areas := by
  induction bs generalizing m pa with
  | nil => rfl
  | cons b bs ih => rw [writeBytes, ih]; exact tagLine_areas m mt key pa
theorem writeBytes_keyPairs (m : MemSys) (mt : BitVec 2) (key : BitVec 10) (pa : Nat) (bs : List Byte) :
    (m.writeBytes mt key pa bs).keyPairs = m.keyPairs := by
  induction bs generalizing m pa with
  | nil => rfl
  | cons b bs ih => rw [writeBytes, ih]; exact tagLine_keyPairs m mt key pa

/-- A write at the home slice is, beside what it writes, one of tags, records and poison (08:R175, R180, 10:R233). -/
theorem homeWrite_eq (m : MemSys) (core : Option Nat) (w : Writer) (rel : Option (BitVec 3)) (rmw : Bool) (mt : BitVec 2) (key : BitVec 10)
    (pa : Nat) (bs : List Byte) (sh : Bool) : ∃ poison home host l1 rec, m.homeWrite core w rel rmw mt key pa bs sh =
      { m.writeBytes mt key pa bs with poison := poison, homeTag := home, hostCopy := host, l1Tag := l1, rel := rec } := by
  unfold homeWrite unpoison
  split <;> split <;> exact ⟨_, _, _, _, _, rfl⟩

end MemSys

/-- A write at the home slice stores its bytes. -/
theorem Stored.homeWrite (m : MemSys) (core : Option Nat) (w : Writer) (rel : Option (BitVec 3)) (rmw : Bool) (mt : BitVec 2) (key : BitVec 10)
    (pa : Nat) (bs : List Byte) (sh : Bool) : Stored m (m.homeWrite core w rel rmw mt key pa bs sh) mt key pa bs := by
  obtain ⟨_, _, _, _, _, e⟩ := m.homeWrite_eq core w rel rmw mt key pa bs sh
  rw [e]
  exact ⟨rfl, rfl, m.writeBytes_training mt key pa bs, m.writeBytes_areas mt key pa bs, m.writeBytes_keyPairs mt key pa bs⟩

/-- 01:R20, R447: the completion word is written, its vector signalled, and the number of the launch returns. -/
theorem State.finishLaunch_done {s : State} {n : Nat} {l : Launch} {t : Xlat} {m : MemSys} (done : s.mem.dispXlat l.owner .write l.done = (.ok t, m))
    (outcome cause : Nat) :
    (s.finishLaunch n l outcome cause).launch? n = none ∧ (s.finishLaunch n l outcome cause).groups = s.groups ∧
      (s.finishLaunch n l outcome cause).gangs = s.gangs ∧
      Stored m (s.finishLaunch n l outcome cause).mem t.mt t.key t.pa (leBytes 8 (l.retired * 2 ^ 32 + outcome * 32 + cause)) ∧
      (s.finishLaunch n l outcome cause).launches.msix = s.launches.msix ++ if l.irq then [l.ivec] else [] := by
  unfold finishLaunch writeDone
  simp only [done]
  cases l.irq
  · exact ⟨Assoc.get?_del_self _ _, rfl, rfl, .homeWrite .., (List.append_nil _).symm⟩
  · exact ⟨Assoc.get?_del_self _ _, rfl, rfl, .homeWrite .., rfl⟩

/-- OUTCOME and CAUSE of a launch whose work is done (01:R20). -/
def Launch.outcome (l : Launch) : Nat × Nat :=
  if l.killed then (2, 0) else match l.exitCause with | some c => (3, c) | none => (0, 0)

theorem execLaunchCompletion_done {s : State} {n : Nat} {l : Launch} (launch : s.launch? n = some l) (done : s.launchDone n l = true) :
    execLaunchCompletion n s = .next (s.finishLaunch n l l.outcome.1 l.outcome.2) := by
  simp only [execLaunchCompletion, launch, done, Bool.not_true, Bool.false_eq_true, if_false, Launch.outcome]
  cases l.killed with
  | true => rfl
  | false => cases l.exitCause <;> rfl

/-- The two as the completion word holds them. -/
theorem Launch.outcome_word (l : Launch) (k : Nat) : k + l.outcome.1 * 32 + l.outcome.2 =
    k + (if l.killed then 2 * 32 else match l.exitCause with | some c => 3 * 32 + c | none => 0) := by
  unfold Launch.outcome
  cases l.killed with
  | true => rfl
  | false => cases l.exitCause with
    | none => rfl
    | some c => exact Nat.add_assoc _ _ _

theorem launch_completed {s : State} {n : Nat} {l : Launch} {t : Xlat} {m : MemSys} (launch : s.launch? n = some l)
    (done : s.launchDone n l = true) (word : s.mem.dispXlat l.owner .write l.done = (.ok t, m)) :
    ∃ u, exec (.launchCompletion n) s = .next u ∧ u.launch? n = none ∧ u.groups = s.groups ∧ u.gangs = s.gangs ∧
      Stored m u.mem t.mt t.key t.pa (leBytes 8 (l.retired * 2 ^ 32 +
        (if l.killed then 2 * 32 else match l.exitCause with | some c => 3 * 32 + c | none => 0))) ∧
      u.launches.msix = s.launches.msix ++ (if l.irq then [l.ivec] else []) := by
  rw [exec_launchCompletion, execLaunchCompletion_done launch done]
  obtain ⟨gone, groups, gangs, stored, msix⟩ := State.finishLaunch_done (n := n) word l.outcome.1 l.outcome.2
  rw [Launch.outcome_word] at stored
  exact ⟨_, rfl, gone, groups, gangs, stored, msix⟩

/-! ### Early ends -/

theorem earlyEnd_recorded {s : State} {n : Nat} {l : Launch} (cause : Nat) (launch : s.launch? n = some l) (lives : l.ended = none) :
    ∃ u, exec (.launchEndEarly n cause) s = .next u ∧ (u.launch? n).map (·.ended) = some (some cause) ∧ u.mem = s.mem ∧ Quiet s u := by
  simp only [exec_launchEndEarly, execLaunchEndEarly, launch, lives]
  refine ⟨_, rfl, ?_, rfl, .of_gangs rfl⟩
  rw [State.launch?_updLaunch, launch]
  rfl

theorem State.launch?_endLaunch (s : State) (n : Nat) (l : Launch) (cause : Nat) : (s.endLaunch n l cause).launch? n = none :=
  Assoc.get?_del_self _ _

theorem earlyEnd_carriedOut {s : State} {n c : Nat} {l : Launch} (cause : Nat) (launch : s.launch? n = some l) (ended : l.ended = some c)
    (dead : ∀ k ∈ s.gangsOfLaunch n, ∀ g, s.gang? k = some g → g.over = true) (quiet : s.launchQuiet n = true) :
    ∃ u, exec (.launchEndEarly n cause) s = .next u ∧ u.launch? n = none := by
  simp only [exec_launchEndEarly, execLaunchEndEarly, launch, ended]
  rw [if_neg, if_pos quiet]
  · exact ⟨_, rfl, State.launch?_endLaunch _ _ _ _⟩
  · rw [Bool.not_eq_true, List.any_eq_false]
    intro k hk
    cases gang : s.gang? k with
    | none => exact Bool.false_ne_true
    | some g => simp [dead k hk g gang]

/-! ### Allotments -/

theorem allotment_filled {s : State} {n line : Nat} {g : Group} (group : s.group? n = some g) (here : g.core.isSome = true) (fills : line ∈ g.filling)
    (copies : (s.ops.vals.any fun o => match o.data with | .copy .. => true | _ => false) = false) (owed : s.lineOwed n line = false) :
    ∃ u h, exec (.allotmentFill n line) s = .next u ∧ u.group? n = some h ∧ h.absent = g.absent.del line ∧ line ∉ h.filling ∧
      h.spad = g.spad ∧ u.mem = s.mem := by
  have awaits : s.lineAwaits n line = false := by
    unfold State.lineAwaits
    rw [List.any_eq_false] at copies ⊢
    intro o ho
    have none := copies o ho
    cases data : o.data with
    | copy ps granted => rw [data] at none; exact absurd rfl none
    | _ => exact Bool.false_ne_true
  have stands : g.core.isNone = false := Option.isNone_eq_false_iff.mpr here
  have fill : g.fillLine line = { g with absent := g.absent.del line, filling := g.filling.filter fun l => decide (l ≠ line) } := by
    unfold Group.fillLine; rw [if_pos (List.contains_iff_mem.mpr fills)]
  simp only [exec_allotmentFill, execAllotmentFill, group, stands, awaits, owed, Bool.or_self, Bool.false_eq_true, if_false]
  refine ⟨_, g.fillLine line, rfl, by rw [State.group?_updGroup, group]; rfl, ?_⟩
  rw [fill]
  exact ⟨rfl, fun still => by simpa using (List.mem_filter.mp still).2, rfl, rfl⟩

/-! ### The end of access lanes (01:R27, 12:R287) -/

theorem Assoc.get?_keep_eq_none {α : Type} (t : Assoc α) {p : Nat → α → Bool} {k : Nat} (h : ∀ x, p k x = false) : (t.keep p).get? k = none := by
  induction t with
  | nil => rfl
  | cons e t ih =>
    obtain ⟨j, x⟩ := e
    simp only [Assoc.keep, List.filter_cons] at ih ⊢
    split
    · next kept =>
      have other : k ≠ j := fun same => by rw [← same, h] at kept; cases kept
      simp only [Assoc.get?, if_neg other]
      exact ih
    · exact ih

/-! Paths change no lane's entry. -/

@[simp] theorem Ctx.leavePath_lanes (c : Ctx) (m : Mask) : (c.leavePath m).lanes = c.lanes := rfl

@[simp] theorem Ctx.stepBack_lanes (c : Ctx) : c.stepBack.lanes = c.lanes := by unfold Ctx.stepBack; split <;> rfl

@[simp] theorem Ctx.stepAside_lanes (c : Ctx) : c.stepAside.lanes = c.lanes := by
  unfold Ctx.stepAside; dsimp only; split <;> simp

@[simp] theorem Gang.selectPath_lanes (g : Gang) (c : Ctx) : (g.selectPath c).lanes = c.lanes := by
  have back : (if c.stepAside.path = 0#64 then c.stepAside.stepBack else c.stepAside).lanes = c.lanes := by split <;> simp
  unfold Gang.selectPath
  extract_lets d e
  change e.lanes = c.lanes at back
  rw [← back]
  split
  · rfl
  · next able _ => cases able <;> rfl

/-- Lanes that leave a context have no entry in it. -/
theorem Ctx.dropLanes_lane (c : Ctx) {m : Mask} {k : Nat} (h : m.getLsbD k = true) : (c.dropLanes m).lanes.get? k = none := by
  exact Assoc.get?_keep_eq_none (p := fun k _ => !m.getLsbD k) _ fun _ => by simp [h]

/-- Queues hold no entry of lanes whose entries are discarded. -/
theorem Gang.ents_dropEntries (g : Gang) {m : Mask} {k : Nat} (q : Nat) (h : m.getLsbD k = true) : (g.dropEntries m).ents q k = [] := by
  unfold Gang.ents Gang.dropEntries
  simp only [Assoc.get?_mapVal, Assoc.getD]
  cases g.queues.get? q with
  | none => rfl
  | some r =>
    have gone : (r.ents.keep fun k _ => !m.getLsbD k).get? k = none := Assoc.get?_keep_eq_none _ fun _ => by simp [h]
    simp [gone]

/-! Lanes that wait for nothing any longer, in the access context: home slices and long forms change, gangs do not. -/

namespace State

theorem wakeNext_gangs (s : State) (pa : Nat) : (s.wakeNext pa).gangs = s.gangs := by unfold wakeNext; split <;> rfl

theorem killWaiter_gangs (s : State) (g : Nat) (access : Bool) (lane : Nat) : (s.killWaiter g access lane).gangs = s.gangs :=
  List.foldlRecOn (motive := fun t : State => t.gangs = s.gangs) _ _ rfl fun t ht pa _ => (t.wakeNext_gangs pa).trans ht

theorem forgetLanes_access_gangs (s : State) (g : Nat) (m : Mask) : (s.forgetLanes g true m).gangs = s.gangs := by
  unfold forgetLanes
  refine List.foldlRecOn (motive := fun t : State => t.gangs = s.gangs) _ _ rfl fun t ht n _ => ?_
  have same : (t.killWaiter g true n).gangs = s.gangs := (t.killWaiter_gangs g true n).trans ht
  dsimp only
  split <;> exact same

/-- Access lanes that end leave their context; those whose threads have ended leave no queue entry. -/
theorem endLanes_access_gang (s : State) (g : Nat) (m : Mask) : (s.endLanes g true m).gang? g =
    (s.gang? g).map fun x => (x.updCtx true fun c => c.dropLanes m).dropEntries (m &&& ~~~maskOf (x.updCtx true fun c => c.dropLanes m).threads.keys) := by
  unfold endLanes
  simp only [if_true]
  rw [gang?_updGang]
  unfold gang?
  rw [forgetLanes_access_gangs]

end State

/-- Nothing is left of an access lane: neither its place nor an entry of a queue. -/
def Gang.AccessGone (g : Gang) (k : Nat) : Prop := (∀ c, g.actx = some c → c.lanes.get? k = none) ∧ ∀ q, g.ents q k = []

theorem Gang.AccessGone.of_dropEntries (g : Gang) {m d : Mask} {k : Nat} (ends : m.getLsbD k = true) (discards : d.getLsbD k = true) :
    ((g.updCtx true fun c => c.dropLanes m).dropEntries d).AccessGone k := by
  refine ⟨fun c hc => ?_, fun q => Gang.ents_dropEntries _ q discards⟩
  obtain ⟨a, -, rfl⟩ := Option.map_eq_some_iff.mp hc
  exact a.dropLanes_lane ends

theorem Gang.AccessGone.selectPath {g : Gang} {k : Nat} (h : g.AccessGone k) : (g.updCtx true g.selectPath).AccessGone k := by
  refine ⟨fun c hc => ?_, h.2⟩
  obtain ⟨a, ha, rfl⟩ := Option.map_eq_some_iff.mp hc
  rw [Gang.selectPath_lanes]
  exact h.1 a ha

/-- What an observer sees of such a lane. -/
theorem Gang.AccessGone.seen {s : State} {n k : Nat} (h : ∀ g, s.gang? n = some g → g.AccessGone k) :
    s.lane? ⟨n, true⟩ k = none ∧ ∀ q, s.queue n q k = [] := by
  rw [State.lane?, State.ctx?_of_gang?]
  simp only [State.queue_of_gang?]
  cases gang : s.gang? n with
  | none => exact ⟨rfl, fun _ => rfl⟩
  | some g =>
    obtain ⟨lane, ents⟩ := h g gang
    refine ⟨?_, ents⟩
    change (g.actx.bind fun c => c.lanes.get? k) = none
    cases ctx : g.actx with
    | none => rfl
    | some c => exact lane c ctx

/-! A gang that has gone stays away. -/

namespace State

theorem gang?_updGang_none {s : State} {n : Nat} (h : s.gang? n = none) (g : Nat) (f : Gang → Gang) : (s.updGang g f).gang? n = none := by
  rw [gang?_updGang']; split <;> simp [h]

theorem gang?_none_of_gangs {s t : State} {n : Nat} (h : s.gang? n = none) (same : t.gangs = s.gangs) : t.gang? n = none := by
  unfold gang? at h ⊢; rw [same, h]

@[simp] theorem setBar_gangs (s : State) (grp : Nat) (pair : Bool) (n : Nat) (b : Barrier) : (s.setBar grp pair n b).gangs = s.gangs := by
  unfold setBar; split
  · rfl
  · split <;> rfl

@[simp] theorem barTrim_gangs (s : State) (core : Nat) : (s.barTrim core).gangs = s.gangs := by
  unfold barTrim; dsimp only; split
  · rfl
  · split
    · rfl
    · exact setBar_gangs _ _ _ _ _

@[simp] theorem barTouch_gangs (s : State) (grp : Nat) (pair : Bool) (n : Nat) : (s.barTouch grp pair n).gangs = s.gangs := by
  unfold barTouch
  dsimp only
  split
  · rw [setBar_gangs]; split <;> rfl
  · rw [barTrim_gangs, setBar_gangs]; split <;> rfl

@[simp] theorem endGroup_gangs (s : State) (grp : Nat) : (s.endGroup grp).gangs = s.gangs := by
  unfold endGroup
  split
  · rfl
  · extract_lets area t u stays both v
    split <;> rfl

/-- The end of a barrier's phase changes gangs that are there, and makes none. -/
theorem gang?_barRelease_none {s : State} {n : Nat} (h : s.gang? n = none) (gs : List Nat) (pair : Bool) (k : Nat) (phase : Word) :
    (s.barRelease gs pair k phase).gang? n = none := by
  unfold barRelease
  refine List.foldlRecOn (motive := fun t : State => t.gang? n = none) _ _ ?_ fun t ht o _ => gang?_updGang_none ht _ _
  exact List.foldlRecOn (motive := fun t : State => t.gang? n = none) _ _ h fun t ht o _ => gang?_updGang_none ht _ _

theorem gang?_barTest_none {s : State} {n : Nat} (h : s.gang? n = none) (grp : Nat) (pair : Bool) (k : Nat) :
    (s.barTest grp pair k).gang? n = none := by
  unfold barTest
  dsimp only
  split
  · have released := gang?_barRelease_none (gang?_none_of_gangs h (setBar_gangs s grp pair k { s.barOf grp pair k with
      phase := (s.barOf grp pair k).phase + 1#32, count := none, arrivals := [] })) (s.barGangs grp pair) pair k ((s.barOf grp pair k).phase + 1#32)
    split
    · exact gang?_none_of_gangs released (barTouch_gangs _ _ _ _)
    · exact gang?_none_of_gangs released (setBar_gangs _ _ _ _ _)
  · exact h

theorem gang?_barTestAll_none {s : State} {n : Nat} (h : s.gang? n = none) (grp : Nat) : (s.barTestAll grp).gang? n = none :=
  List.foldlRecOn (motive := fun t : State => t.gang? n = none) _ _ h fun _ ht _ _ => gang?_barTest_none (gang?_barTest_none ht _ _ _) _ _ _

@[simp] theorem gang?_removeGang (s : State) (n : Nat) : (s.removeGang n).gang? n = none := by
  unfold removeGang
  split
  · assumption
  · extract_lets bytes t u v
    have gone : v.gang? n = none := Assoc.get?_del_self _ _
    split
    · exact gang?_none_of_gangs gone (endGroup_gangs _ _)
    · exact gone

/-- 01:R27: a gang whose retirement is tried is gone, or nothing has changed. -/
theorem tryRetire_cases (s : State) (n : Nat) : (s.tryRetire n).gang? n = none ∨ s.tryRetire n = s := by
  unfold tryRetire
  split
  · exact .inr rfl
  · split
    · exact .inl (gang?_barTestAll_none (gang?_none_of_gangs (gang?_removeGang s n) (updLaunch_gangs _ _ _)) _)
    · exact .inr rfl

end State

/-- A bit of a mask of lanes is a lane of the context that meets the mask's condition. -/
theorem Ctx.of_laneMask {c : Ctx} {p : Nat → LaneSt → Bool} {k : Nat} (h : (c.laneMask p).getLsbD k = true) : k < 64 ∧ ∃ l, (k, l) ∈ c.lanes ∧ p k l = true := by
  unfold Ctx.laneMask at h
  rw [getLsbD_maskOf, Bool.and_eq_true, decide_eq_true_eq, List.contains_iff_mem] at h
  obtain ⟨small, key⟩ := h
  obtain ⟨⟨j, l⟩, entry, rfl⟩ := List.mem_map.mp key
  exact ⟨small, l, List.mem_filter.mp entry⟩

theorem Assoc.has_of_mem_keys {α : Type} {t : Assoc α} {k : Nat} (h : k ∈ t.keys) : t.has k = true := by
  induction t with
  | nil => cases h
  | cons e t ih =>
    obtain ⟨j, x⟩ := e
    unfold Assoc.has Assoc.get?
    split
    · rfl
    · next other => exact ih ((List.mem_cons.mp h).resolve_left other)

/-- The thread of an access lane that ends at a clause boundary has ended. -/
theorem Gang.not_thread_of_orphansAtEnd {g : Gang} {k : Nat} (h : g.orphansAtEnd.getLsbD k = true) : (~~~maskOf g.threads.keys).getLsbD k = true := by
  unfold Gang.orphansAtEnd Gang.orphans at h
  cases ctx : g.actx with
  | none => simp [ctx] at h
  | some a =>
    simp only [ctx, BitVec.getLsbD_and, Bool.and_eq_true] at h
    obtain ⟨small, l, -, ended⟩ := Ctx.of_laneMask h.1
    have thread : k ∉ g.threads.keys := fun key => by simp [Assoc.has_of_mem_keys key] at ended
    rw [BitVec.getLsbD_not, getLsbD_maskOf, List.contains_eq_mem, decide_eq_false thread, decide_eq_true small]
    rfl

/-- At a clause boundary of the path every orphan of the boundary is among the lanes that end. -/
theorem State.endingAccess_boundary (s : State) (n : Nat) (g : Gang) {a : Ctx} (boundary : a.cur = none) :
    ∃ apart, s.endingAccess n g a = g.orphansAtEnd ||| apart := by
  unfold State.endingAccess
  extract_lets stuck apart
  rw [boundary]
  exact ⟨apart, rfl⟩

/-- What leaves the access context leaves nothing there, whatever path is selected next and whether or not the gang retires. -/
theorem State.accessGone_endLanes {s : State} {n k : Nat} {g : Gang} {m : Mask} (gang : s.gang? n = some g) (ends : m.getLsbD k = true)
    (thread : (~~~maskOf g.threads.keys).getLsbD k = true) :
    ∀ x, (((s.endLanes n true m).selectPath ⟨n, true⟩).tryRetire n).gang? n = some x → x.AccessGone k := by
  intro x hx
  have discards : (m &&& ~~~maskOf g.threads.keys).getLsbD k = true := by rw [BitVec.getLsbD_and, ends, thread]; rfl
  have selected : ((s.endLanes n true m).selectPath ⟨n, true⟩).gang? n =
      ((s.endLanes n true m).gang? n).map fun g => g.updCtx true g.selectPath := gang?_updGang _ _ _
  rcases State.tryRetire_cases ((s.endLanes n true m).selectPath ⟨n, true⟩) n with retired | same
  · rw [retired] at hx; cases hx
  · rw [same, selected, State.endLanes_access_gang, gang] at hx
    obtain rfl := Option.some.inj hx
    exact (Gang.AccessGone.of_dropEntries g ends discards).selectPath

theorem accessLanes_ended {s : State} {n : Nat} {g : Gang} {a : Ctx} (gang : s.gang? n = some g) (ctx : g.actx = some a) (orphans : g.orphansAtEnd ≠ 0#64)
    (boundary : a.cur = none) : ∃ u, exec (.accessContextEnd n) s = .next u ∧
      ∀ k, g.orphansAtEnd.getLsbD k = true → u.lane? ⟨n, true⟩ k = none ∧ ∀ q, u.queue n q k = [] := by
  obtain ⟨apart, ending⟩ := s.endingAccess_boundary n g boundary
  have some_end : g.orphansAtEnd ||| apart ≠ 0#64 := fun none => orphans (BitVec.or_eq_zero_iff.mp none).1
  simp only [exec_accessContextEnd, execAccessContextEnd, gang, ctx, ending, some_end, if_false]
  refine ⟨_, rfl, fun k orphan => Gang.AccessGone.seen (State.accessGone_endLanes gang ?_ (Gang.not_thread_of_orphansAtEnd orphan))⟩
  rw [BitVec.getLsbD_or, orphan, Bool.true_or]

/-- Settles O44: the record's checks, the completion word, the two acts of an early end, the allotment's line and the orphans' lanes are
one lemma each. The last turns on `State.tryRetire_cases`: whatever follows the end of the lanes, the gang is gone or is as they left it. -/
theorem launchesComeAndGo : Obligations.LaunchesComeAndGo := by
  unfold Obligations.LaunchesComeAndGo
  refine ⟨?record, fun _ _ _ _ _ launch done word => launch_completed launch done word,
    fun _ _ _ cause launch lives => earlyEnd_recorded cause launch lives,
    fun _ _ _ _ cause launch ended dead quiet => earlyEnd_carriedOut cause launch ended dead quiet,
    fun _ _ _ _ group here fills copies owed => allotment_filled group here fills copies owed,
    fun _ _ _ _ gang ctx orphans boundary => accessLanes_ended gang ctx orphans boundary⟩
  case record =>
    rintro s ring r e _ t m1 d m2 ps m3 n takes known entry rfl done aligned kernel params record kern ptw fits free
    exact launchRecord_taken takes known entry done aligned kernel params record kern ptw fits free

end Sys2Proof.Machine
end

section
/-! PROOF. The encoder and the decoder agree (02:R36, R43 to R49, R57 to R59): on every well-formed instruction, and on words of the encodings. -/

namespace Sys2Proof

open Laws in
/-- One case per constructor of `Instr`, in the order of their declaration. -/
theorem Instr.roundTrip (i : Instr) : RoundTrip i :=
  Instr.rec
    -- page A (05)
    F.add F.sub F.mul F.mulhi F.mad F.madhi F.neg F.abs F.min F.max F.lea F.shl F.shr F.sra F.rotl F.and F.or F.xor F.andn F.not
    F.clz F.ctz F.popc F.brev F.bfx F.bfi F.cmp F.sel F.selImm F.mov F.li F.cvt F.req F.pack4 F.unpack4 F.dot4
    -- page B, ALU (06)
    F.fadd F.fsub F.fmul F.ffma F.fmin F.fmax F.fabs F.fneg F.fcmp F.fcls F.rcp F.rsq F.sqrt F.exp2 F.log2 F.sin F.cos F.tanh
    F.rng F.shflIdx F.shflUp F.shflDown F.shflXor F.vote F.voteBallot F.red F.scan F.bcast F.bcastNib
    -- page B, CTL (07)
    F.br F.bk F.bs F.call F.ret F.jmpr F.exit F.enrol F.park F.strike F.yld F.nop F.wait
    -- MEM (09)
    F.ld F.ldToQueue F.st F.lds F.sts F.cp F.pref F.cln F.atom F.acas F.ared F.waitv F.notify1 F.notifyall F.fence
    -- MTX (11)
    F.fmtres F.fmtrel F.mld F.mldT F.mso F.mrd F.mclr F.mmac F.mmacI F.mqnt F.spick F.mstat
    -- QUE (12, 13)
    F.qset F.qpeek F.qdrain F.qcount F.qtokTest F.qtokTake F.spawn F.tokput F.dset F.dget F.refill F.itemfin F.ddrain F.dspill
    -- SYS (14, 15, 16, 17)
    F.rcq F.rcrd F.famset F.capo F.capx F.bar F.barr F.barw F.trapSoft F.trapLink F.trapGst F.tret F.tdel F.sysrd F.syswr F.brk
    F.pmrd F.pmset F.tick F.enrd
    -- events (spec/95)
    F.clauseBegin F.longFormComplete F.queueLoadFill F.copyLineLands F.matrixOpComplete F.homeSliceAct F.writeBufferDrain
    F.promotion F.pageWalk F.strokeCommit F.absentLineWake F.allotmentFill F.accessContextEnd F.trapEntry F.permitBackoffExpiry
    F.directDelegation F.doubleTrap F.retry F.skip F.endRes F.queryStop F.queryStep F.queryResume F.queryKill F.queryRead
    F.queryWrite F.deferredStepClause F.launchRecordTake F.rootDuneEnqueue F.rootDuneFiring F.duneFiring F.driftExpiry F.starving
    F.finalDrain F.ringItemMove F.launchCompletion F.launchEndEarly F.evictRequest F.evictionDelay F.absentLineLimit F.gangRestore
    F.queueDeadlockLimit F.gangAgeing F.spinDemotion F.referenceTick F.clusterEnergyAdvance F.deviceEnergyAdvance
    F.currentReservationGrant F.peerTimeout F.peerAccess F.hostAccess F.tail F.rstat F.ringConfigure F.ringDisable
    F.deviceSettingWrite F.registerWrite F.attestation F.recoveryProgramming F.attestationDone F.mlogExtend F.fuseBlow
    F.deviceReset F.tlbInvalidation F.icacheInvalidation F.pendingEventPost F.uncorrectableError F.contextStoreError
    F.hostWriteAcknowledgement F.peerLinkDown F.peerLinkUp F.flitCrcRetry F.functionLevelReset F.duneRingFaultResolution
    i

/-- Settles O51: every constructor has its round trip. -/
theorem encodeThenDecode : Obligations.EncodeThenDecode := by
  unfold Obligations.EncodeThenDecode
  exact Instr.roundTrip

/-- Settles O50: each list of words by evaluation of the decoder. -/
theorem wordsDecode : Obligations.WordsDecode := by
  unfold Obligations.WordsDecode
  refine ⟨?_, ?_, ?_, ?_, ?_, ?_, ?_, ?_, ?_, ?_, ?_, ?_⟩ <;> decide +kernel

end Sys2Proof
end

section
/-! SUPPORT. What leaves general registers, capsule registers and queues as they are: changes of where a context stands, selections of a path,
fetches. -/

namespace Sys2Proof.Machine

/-- The general registers of a context. -/
def Ctx.regs (c : Ctx) : Assoc Reg × Assoc Reg := (c.v, c.s)

theorem State.vreg_of_regs (s : State) (x : Site) (r k : Nat) : s.vreg x r k = ((s.ctx? x).map Ctx.regs).bind fun p => p.1.get? (64 * r + k) := by
  unfold State.vreg; cases s.ctx? x <;> rfl

theorem State.sreg_of_regs (s : State) (x : Site) (r : Nat) : s.sreg x r = ((s.ctx? x).map Ctx.regs).bind fun p => p.2.get? r := by
  unfold State.sreg; cases s.ctx? x <;> rfl

theorem Quiet.trans {s t u : State} (a : Quiet s t) (b : Quiet t u) : Quiet s u where
  vregs y r k := (b.vregs y r k).trans (a.vregs y r k)
  sregs y r := (b.sregs y r).trans (a.sregs y r)
  cregs g n r := (b.cregs g n r).trans (a.cregs g n r)
  queues g q n := (b.queues g q n).trans (a.queues g q n)

/-- A change of one context, which may depend on its gang, that keeps the context's registers. -/
theorem Quiet.onCtx (s : State) (x : Site) {F : Gang → Ctx → Ctx} (h : ∀ g c, (F g c).regs = c.regs) :
    Quiet s (s.updGang x.gang fun g => g.updCtx x.access (F g)) := by
  have ctx (y : Site) : ((s.updGang x.gang fun g => g.updCtx x.access (F g)).ctx? y).map Ctx.regs = (s.ctx? y).map Ctx.regs := by
    rw [State.ctx?_updGang]
    split
    · next same =>
      rw [State.ctx?_of_gang?, ← same]
      cases s.gang? y.gang with
      | none => rfl
      | some g =>
        simp only [Option.bind_some, Gang.ctx?_updCtx]
        split
        · simp [Option.map_map, Function.comp_def, h]
        · rfl
    · rfl
  have threads (g : Gang) (f : Ctx → Ctx) : (g.updCtx x.access f).threads = g.threads := by unfold Gang.updCtx; split <;> rfl
  have queues (g : Gang) (f : Ctx → Ctx) : (g.updCtx x.access f).queues = g.queues := by unfold Gang.updCtx; split <;> rfl
  refine ⟨fun y r k => ?_, fun y r => ?_, fun g n r => ?_, fun g q n => ?_⟩
  · rw [State.vreg_of_regs, ctx, State.vreg_of_regs]
  · rw [State.sreg_of_regs, ctx, State.sreg_of_regs]
  · unfold State.creg
    rw [State.thread?_of_gang?, State.thread?_of_gang?, State.gang?_updGang']
    split
    · cases s.gang? g <;> simp [threads]
    · rfl
  · rw [State.queue_of_gang?, State.queue_of_gang?, State.gang?_updGang']
    split
    · cases s.gang? g <;> simp [queues]
    · rfl

theorem Quiet.updCtx (s : State) (x : Site) {F : Ctx → Ctx} (h : ∀ c, (F c).regs = c.regs) : Quiet s (s.updCtx x F) :=
  .onCtx s x fun _ => h

/-! ### The selection of a path -/

theorem Ctx.stepBack_regs (c : Ctx) : c.stepBack.regs = c.regs := by unfold Ctx.stepBack; split <;> rfl

theorem Ctx.stepAside_regs (c : Ctx) : c.stepAside.regs = c.regs := by
  unfold Ctx.stepAside
  dsimp only
  split
  · exact (c.leavePath c.path).stepBack_regs
  · rfl

theorem Gang.selectPath_regs (g : Gang) (c : Ctx) : (g.selectPath c).regs = c.regs := by
  have back : (if c.stepAside.path = 0#64 then c.stepAside.stepBack else c.stepAside).regs = c.regs := by
    split
    · exact c.stepAside.stepBack_regs.trans c.stepAside_regs
    · exact c.stepAside_regs
  unfold Gang.selectPath
  extract_lets d e
  change e.regs = c.regs at back
  rw [← back]
  split
  · rfl
  · next able _ => cases able <;> rfl

theorem Quiet.selectPath (s : State) (x : Site) : Quiet s (s.selectPath x) := .onCtx s x Gang.selectPath_regs

/-! ### Fetches count events and change what the memory system keeps of a translation -/

namespace State

@[simp] theorem pmEvent_gangs (s : State) (g : Nat) (a : Bool) (code w : Nat) : (s.pmEvent g a code w).gangs = s.gangs := by
  unfold pmEvent; split <;> rfl
@[simp] theorem pmEvent_agenda (s : State) (g : Nat) (a : Bool) (code w : Nat) : (s.pmEvent g a code w).agenda = s.agenda := by
  unfold pmEvent; split <;> rfl
@[simp] theorem pmEvent_mem (s : State) (g : Nat) (a : Bool) (code w : Nat) : (s.pmEvent g a code w).mem = s.mem := by
  unfold pmEvent; split <;> rfl

/-- What the events of a translation and its result in memory leave as it was, a translation leaves. -/
theorem xlat_keeps {β : Type} (φ : State → β) (mem : ∀ s m, φ (s.setMem m) = φ s) (event : ∀ s g a k w, φ (pmEvent s g a k w) = φ s)
    (s : State) (x : Site) (core owner : Nat) (kind : AccKind) (va : DWord) : φ (s.xlat x core owner kind va).2 = φ s := by
  unfold xlat
  dsimp only
  split <;> split <;> simp only [event, mem]

theorem fetchWord_keeps {β : Type} (φ : State → β) (mem : ∀ s m, φ (s.setMem m) = φ s) (event : ∀ s g a k w, φ (pmEvent s g a k w) = φ s)
    {s t : State} {x : Site} {core owner : Nat} {va : DWord} {r : Except XFault Word} (h : s.fetchWord x core owner va = (r, t)) : φ t = φ s := by
  have kept := xlat_keeps φ mem event s x core owner .fetch va
  unfold fetchWord at h
  split at h <;> next translated =>
    rw [translated] at kept
    cases h
    simpa only [mem] using kept

end State

end Sys2Proof.Machine
end

section
/-! PROOF. The checks before an instruction issues (02:R54, R62, R63, 12:R281): the lowest reason is raised, a wait changes nothing. -/

namespace Sys2Proof.Machine

/-- The meaning of an instruction is its gate, then a body of its own; events have none. -/
theorem exec_eq_run {i : Instr} (h : i.isEvent = false) : ∃ body, ∀ s, exec i s = run i s body := by
  cases i <;> cases h
  all_goals
    unfold exec
    exact ⟨_, fun _ => rfl⟩

/-- Where reasons of INSN stand, the gate raises the lowest: at once below 20; from 20 on once the registers that the instruction reads are
known to be live (02:R51, R62). -/
theorem Env.gate_lowest {e : Env} {s : State} {r : Reason} (rounds : (e.i.pfx.md.any fun m => decide (6 ≤ m.rnd.toNat)) = false)
    (lowest : Reason.lowest (e.i.static e.stroke ++ e.dynamic) = some r) (known : r.code < 20 ∨ e.undead s = true) :
    e.gate s = .raise (e.insn r) := by
  unfold Env.gate
  simp only [rounds, Bool.false_eq_true, if_false, lowest]
  split
  · rfl
  · next late =>
    obtain ⟨high, trapping⟩ := not_or.1 late
    have traps : e.l.kern.poisonTrap = true := by simpa using trapping
    obtain ⟨hazard, live⟩ : e.hazard s = false ∧ e.poisonTrap = [] := by simpa [Env.undead, traps] using known.resolve_left high
    simp [hazard, live, Reason.lowest]

theorem run_of_raise {i : Instr} {s : State} {e : Env} {t : TrapRec} (env : env? i s = some e) (gate : e.gate s = .raise t)
    (body : Env → State → Res) : run i s body = .next (s.raise e.x t) := by
  unfold run; simp only [env, gate]

theorem run_of_hold {i : Instr} {s : State} {e : Env} {q : Bool} (env : env? i s = some e) (gate : e.gate s = .hold q)
    (body : Env → State → Res) : run i s body = .next (if q then s.blockPath e.x e.c.path .queueWait else s) := by
  unfold run; simp only [env, gate]

theorem Quiet.blockPath (s : State) (x : Site) (m : Mask) (w : WS) : Quiet s (s.blockPath x m w) :=
  (Quiet.updCtx s x (F := fun c => c.setWs m w) fun _ => rfl).trans (.selectPath _ x)

/-- Settles O57: every instruction begins with its gate, which raises the lowest reason, or holds and moves no more than the path's lanes. -/
theorem checksComeFirst : Obligations.ChecksComeFirst := by
  unfold Obligations.ChecksComeFirst
  refine ⟨fun i s e r instr env rounds lowest known => ?_, fun i s e q instr env gate => ?_⟩
  · obtain ⟨body, runs⟩ := exec_eq_run instr
    obtain rfl : e.i = i := (env?_spec env).instr
    exact ⟨(runs s).trans (run_of_raise env (Env.gate_lowest rounds lowest known) body), rfl, rfl, rfl⟩
  · obtain ⟨body, runs⟩ := exec_eq_run instr
    refine ⟨_, (runs s).trans (run_of_hold env gate body), ?_⟩
    cases q with
    | true => exact ⟨rfl, rfl, rfl, rfl, .blockPath s e.x e.c.path .queueWait⟩
    | false => exact ⟨rfl, rfl, rfl, rfl, .of_gangs rfl⟩

end Sys2Proof.Machine
end

section
/-! PROOF. Clauses begin (02:R39, R40, 07:R160, 18:R429): the first instruction issues next, current is requested, stepped lanes go ahead. -/

namespace Sys2Proof.Machine

theorem exec_clauseBegin (x : Site) (s : State) : exec (.clauseBegin x.gang x.access) s = .next (s.beginClause x) := rfl
theorem exec_deferredStepClause (x : Site) (s : State) :
    exec (.deferredStepClause x.gang x.access) s = execDeferredStepClause x.gang x.access s := rfl

/-! ### A clause that opens -/

/-- A context at the first instruction of the clause whose header stands at `pc`; `k` is its stroke. -/
def Ctx.opened (c : Ctx) (h : Header) (pc : DWord) (k : Option Stroke) : Ctx :=
  { (c.wake c.path).updLanes c.path fun l => { l with pc := pc + 4#64 } with
    cur := some { hdr := h, at_ := pc, idx := 0, ip := pc + 4#64, serial := c.serial + 1, done := 0#64 }
    serial := c.serial + 1, since := 0, aged := false, stroke := k }

theorem Gang.openClause_eq (x : Site) (h : Header) (pc : DWord) : ∃ k : Gang → Option Stroke,
    (fun g => Gang.openClause g x h pc) = fun g => g.updCtx x.access fun c => c.opened h pc (k g) := ⟨_, rfl⟩

theorem Ctx.opened_pc (c : Ctx) (h : Header) (pc : DWord) (k : Option Stroke) {n : Nat} (on : c.path.getLsbD n = true) :
    ((c.opened h pc k).lanes.get? n).map (·.pc) = (c.lanes.get? n).map fun _ => pc + 4#64 := by
  simp only [Ctx.opened, Ctx.updLanes, Ctx.wake, Assoc.get?_mapVal, Option.map_map, Function.comp_def, on, if_true]

/-! ### A header that passes -/

/-- A context stands at a clause position, may run, and no stepped lanes go ahead of it; the header there passes its checks, and its waits hold. -/
structure HeaderPasses (s t : State) (x : Site) (g : Gang) (c : Ctx) (core : Nat) (l : Launch) (w : Word) (h : Header) : Prop where
  gang : s.gang? x.gang = some g
  ctx : g.ctx? x.access = some c
  home : g.core = some core
  launch : s.launch? g.launch = some l
  path : s.selectPath x = s
  free : c.free = true
  boundary : c.cur = none
  able : c.pathAble = true
  first : c.aside.isSome = true ∨ s.stepGroup x = none
  untrapped : s.trapAhead x c = false
  unfrozen : s.frozen core g.launch = false
  noOrphans : x.access = true → g.orphansAtEnd = 0#64
  fetch : s.fetchWord x core l.owner c.pathPc = (.ok w, t)
  check : t.headerCheck x g c l core w c.pathPc = .ok h
  sound : headerParity c h = none
  ready : t.headerReady x g c core l.owner h c.pathPc = true

namespace HeaderPasses

variable {s t : State} {x : Site} {g : Gang} {c : Ctx} {core : Nat} {l : Launch} {w : Word} {h : Header}
variable (p : HeaderPasses s t x g c core l w h)
include p

theorem gangs : t.gangs = s.gangs := State.fetchWord_keeps State.gangs (fun _ _ => rfl) State.pmEvent_gangs p.fetch

theorem agenda : t.agenda = s.agenda := State.fetchWord_keeps State.agenda (fun _ _ => rfl) State.pmEvent_agenda p.fetch

theorem fetched_gang : t.gang? x.gang = some g := by
  have same : t.gang? x.gang = s.gang? x.gang := by unfold State.gang?; rw [p.gangs]
  rw [same, p.gang]

/-- The clause begins, or requests its current. -/
theorem beginClause_eq : s.beginClause x =
    if h.cls = .alu ∧ !x.access ∧ c.vgrant.map (·.2) ≠ some true then t.requestClause x g c core
    else ((t.updGang x.gang fun g => g.openClause x h c.pathPc).pmEvent x.gang x.access 0x03 1).setAgenda (.issue x.gang x.access :: s.agenda) := by
  have stays : ¬ (c.aside.isNone = true ∧ (s.stepGroup x).isSome = true) := by
    rintro ⟨here, ahead⟩
    rcases p.first with apart | none
    · simp_all
    · simp [none] at ahead
  have whole : ¬ (x.access = true ∧ g.orphansAtEnd ≠ 0#64) := fun ⟨access, orphans⟩ => orphans (p.noOrphans access)
  unfold State.beginClause
  simp only [p.path, p.gang, p.ctx, p.home, p.launch, p.free, p.boundary, p.untrapped, p.able, p.unfrozen, stays, whole, p.fetch, p.check,
    p.sound, p.ready, State.pmEvent_agenda, State.updGang_agenda, p.agenda]
  simp

/-- 02:R39, R40: its first instruction issues next. -/
theorem begins (grant : h.cls = .alu → x.access = false → c.vgrant.map (·.2) = some true) :
    ∃ u d, exec (.clauseBegin x.gang x.access) s = .next u ∧ u.ctx? x = some d ∧
      d.cur = some { hdr := h, at_ := c.pathPc, idx := 0, ip := c.pathPc + 4#64, serial := c.serial + 1, done := 0#64 } ∧ d.path = c.path ∧
      (∀ n, c.path.getLsbD n = true → (u.lane? x n).map (·.pc) = (s.lane? x n).map fun _ => c.pathPc + 4#64) ∧
      u.agenda = .issue x.gang x.access :: s.agenda ∧ u.mem = t.mem ∧ Quiet s u := by
  have granted : ¬ (h.cls = .alu ∧ (!x.access) = true ∧ c.vgrant.map (·.2) ≠ some true) := by
    rintro ⟨alu, compute, ungranted⟩
    exact ungranted (grant alu (by simpa using compute))
  obtain ⟨k, opens⟩ := Gang.openClause_eq x h c.pathPc
  have before : s.ctx? x = some c := by rw [State.ctx?_of_gang?, p.gang]; exact p.ctx
  have after : (t.updGang x.gang fun g => g.updCtx x.access fun d => d.opened h c.pathPc (k g)).ctx? x = some (c.opened h c.pathPc (k g)) := by
    rw [State.ctx?_updGang, if_pos rfl, p.fetched_gang]
    simp [Gang.ctx?_updCtx, p.ctx]
  rw [exec_clauseBegin, p.beginClause_eq, if_neg granted, opens]
  refine ⟨_, c.opened h c.pathPc (k g), rfl, ?_, rfl, rfl, fun n on => ?_, rfl, ?_, ?_⟩
  · rw [State.ctx?_setAgenda, State.pmEvent_ctx?, after]
  · unfold State.lane?
    rw [State.ctx?_setAgenda, State.pmEvent_ctx?, after, before]
    exact c.opened_pc h c.pathPc (k g) on
  · simp
  · have opened := Quiet.onCtx t x (F := fun g d => d.opened h c.pathPc (k g)) fun _ _ => rfl
    exact ((Quiet.of_gangs p.gangs).trans opened).trans (.of_gangs (by simp))

/-- 18:R429: a clause of vector work without a request for its cluster's current makes one. -/
theorem requests (alu : h.cls = .alu) (compute : x.access = false) (unasked : c.vgrant = none) :
    ∃ u d, exec (.clauseBegin x.gang x.access) s = .next u ∧ u.ctx? x = some d ∧ d.vgrant = some (t.nextId, false) ∧ d.cur = none ∧
      u.arbOf (clusterOf core) = (t.arbRequest (clusterOf core) ⟨t.nextId, 1, g.holders.any c.path.getLsbD⟩).arbOf (clusterOf core) ∧
      u.mem = t.mem ∧ Quiet s u := by
  have after : (t.updCtx x fun c => { c with vgrant := some (t.nextId, false) }).ctx? x = some { c with vgrant := some (t.nextId, false) } := by
    rw [State.ctx?_updCtx, if_pos rfl, State.ctx?_of_gang?, p.fetched_gang, Option.bind_some, p.ctx, Option.map_some]
  rw [exec_clauseBegin, p.beginClause_eq, if_pos ⟨alu, by simp [compute], by simp [unasked]⟩, State.requestClause, if_neg (by simp [unasked])]
  have asked := Quiet.updCtx t x (F := fun c => { c with vgrant := some (t.nextId, false) }) fun _ => rfl
  exact ⟨_, _, rfl, after, rfl, p.boundary, rfl, rfl, ((Quiet.of_gangs p.gangs).trans asked).trans (.of_gangs rfl)⟩

end HeaderPasses

/-! ### Stepped lanes -/

/-- Lanes `m`, which stand at `k`, become the path of a context, and its own is set aside. -/
def Ctx.stepAhead (c : Ctx) (m : Mask) (k : Option Cursor) : Ctx :=
  { c with path := m, cur := k, aside := some (c.path, c.cur), mid := c.mid.keep fun n _ => !m.getLsbD n }

/-- 07:R160: stepped lanes that can run become the path, and the running one is set aside. -/
theorem stepGroup_runs {s : State} {x : Site} {c : Ctx} {m : Mask} {k : Option Cursor} (ctx : s.ctx? x = some c) (able : s.stepGroup x = some (m, k))
    (waits : c.cur = none ∨ (c.stroke = none ∧ c.waitsInside = true)) (free : c.free = true) (alone : c.aside = none) :
    ∃ u d, exec (.deferredStepClause x.gang x.access) s = .next u ∧ u.ctx? x = some d ∧ d.path = m ∧ d.cur = k ∧
      d.aside = some (c.path, c.cur) ∧ d.lanes = c.lanes ∧ u.mem = s.mem ∧ Quiet s u := by
  have goes : ¬ ((c.cur.isSome = true ∧ (c.stroke.isSome = true ∨ (!c.waitsInside) = true)) ∨ (!c.free) = true ∨ c.aside.isSome = true) := by
    rcases waits with boundary | ⟨noStroke, inside⟩
    · simp [boundary, free, alone]
    · simp [noStroke, inside, free, alone]
  have run : exec (.deferredStepClause x.gang x.access) s = .next (s.updCtx x fun c => c.stepAhead m k) := by
    rw [exec_deferredStepClause, execDeferredStepClause]
    simp only [ctx, able, if_neg goes]
    rfl
  have after : (s.updCtx x fun c => c.stepAhead m k).ctx? x = some (c.stepAhead m k) := by
    rw [State.ctx?_updCtx, if_pos rfl, ctx, Option.map_some]
  exact ⟨_, _, run, after, rfl, rfl, rfl, rfl, rfl, .updCtx s x fun _ => rfl⟩

/-- Settles O39: the header's checks and waits are one hypothesis, under which the clause begins or asks for its current. -/
theorem clausesBegin : Obligations.ClausesBegin := by
  unfold Obligations.ClausesBegin
  refine ⟨?begins, ?requests, fun s x c m k ctx able waits free alone => stepGroup_runs ctx able waits free alone⟩
  case begins =>
    intro s t x g c core l w h gang ctx home launch path free boundary able first untrapped unfrozen noOrphans fetch check sound ready grant
    exact HeaderPasses.begins ⟨gang, ctx, home, launch, path, free, boundary, able, first, untrapped, unfrozen, noOrphans, fetch, check, sound,
      ready⟩ grant
  case requests =>
    intro s t x g c core l w h gang ctx home launch path free boundary able first untrapped unfrozen fetch check sound ready alu compute unasked
    exact HeaderPasses.requests ⟨gang, ctx, home, launch, path, free, boundary, able, first, untrapped, unfrozen,
      fun access => absurd access (by simp [compute]), fetch, check, sound, ready⟩ alu compute unasked

end Sys2Proof.Machine
end

section
/-! PROOF. The completion of a long form for which a trap has waited (02:R55, 16:R384, R385): a counterexample. -/

namespace Sys2Proof.Machine

theorem exec_longFormComplete (id lat : Nat) (s : State) : exec (.longFormComplete id lat) s = .next (s.completeOp id lat) := rfl

/-- Where the access context of the placed gang issued a load and, after it, a prefetch. -/
def streamCursor (idx : Nat) (ip : DWord) : Cursor := ⟨placedHeader, 0x100000#64, idx, ip, 1, 0#64⟩

/-- The load has failed in lane 0 without a translation, after the prefetch had issued. -/
def failedLoad : TrapRec :=
  { cause := 3, reason := 1, tok := false, x := 0#17, d1 := 0x200000#32, d2 := 0#32, tra := 0x100004#64, lanes := 1#64, ret := 0x100004#64
    cur := some (streamCursor 0 0x100004#64), skip := none, skipCur := none, resume := some ⟨none, 0#64, 1#64, [], []⟩, ports := [], act := 1#64 }

/-- The prefetch, in flight with nothing left to do. -/
def lastPrefetch : Op :=
  { gang := 0, access := true, launch := 0, core := 0, i := .pref ⟨none, none⟩ ⟨0, 0⟩ true ⟨⟨.s 0, .none⟩, none, 0, 0, 0⟩, sb := 0, la := 0
    serial := 1, idx := 1, cur := streamCursor 1 0x10000C#64, mix := false, lanes := 1#64, left := 0#64, fails := [], data := .none
    vsrc := [], ssrc := [], pops := [], tick := 0 }

/-- An empty delegation queue of eight entries at 0x81000, its control block at 0x80000 (16:R401). -/
def delegationQueue : List Byte := leBytes 8 0 ++ leBytes 8 0 ++ leBytes 8 0x81000 ++ leBytes 8 3

/-- The placed gang with an access context whose failed load waits for the prefetch to complete. -/
def trapWaits : State :=
  let s := (State.reset.placeWord []).updGang 0 fun g => { g with actx := some { g.cctx with late := [failedLoad] } }
  { s with ops := [(7, lastPrefetch)], mem := s.mem.sysWrite 0x80000 delegationQueue false, ctl := { s.ctl with dring := some 0x80000 } }

theorem trapWaits_queue : trapWaits.mem.sys64 0x80000 = 0 := by decide +kernel

/-- With the completion the trap is entered, and as one of an access context delegated at once: PROD of the queue, in memory, is 1. -/
theorem trapWaits_completed : (trapWaits.completeOp 7 0).mem.sys64 0x80000 = 1 := by decide +kernel

/-- Refutes O40: a completion can change memory. Where it is the last for which an earlier trap of the context has waited, that trap is entered
with it (02:R55, 16:R384); in an access context its delegation is written to the queue in memory (16:R385, R389). -/
theorem not_longFormsComplete : ¬ Obligations.LongFormsComplete := by
  unfold Obligations.LongFormsComplete
  rintro ⟨complete, -⟩
  obtain ⟨u, run, -, -, -, kept, -⟩ := complete trapWaits 7 0 lastPrefetch _ _ (by decide +kernel) rfl rfl rfl rfl rfl rfl (by decide)
  obtain rfl : trapWaits.completeOp 7 0 = u := Host.Outcome.next.inj ((exec_longFormComplete 7 0 trapWaits).symm.trans run)
  have posted := trapWaits_completed
  rw [kept, trapWaits_queue] at posted
  cases posted

end Sys2Proof.Machine
end

section
/-! PROOF. The outside world: accesses of the host and of peers, links, invalidations, errors, fuses and resets (03:R78, R79, 08:R174 to R180,
10:R239, R240, 16:R392, R397, 18:R413 to R424). -/

namespace Sys2Proof.Machine

/-! ### The events of the outside world -/

theorem exec_hostAccess (addr : Nat) (acc : ExtAcc) (s : State) : exec (.hostAccess addr acc) s = execHostAccess addr acc s := rfl
theorem exec_peerAccess (port addr : Nat) (acc : ExtAcc) (s : State) : exec (.peerAccess port addr acc) s = execPeerAccess port addr acc s := rfl
theorem exec_flitCrcRetry (port : Nat) (s : State) : exec (.flitCrcRetry port) s = .next s := rfl
theorem exec_peerLinkDown (port : Nat) (s : State) : exec (.peerLinkDown port) s = execPeerLinkDown port s := rfl
theorem exec_peerLinkUp (port : Nat) (s : State) : exec (.peerLinkUp port) s = execPeerLinkUp port s := rfl
theorem exec_tlbInvalidation (owner : Nat) (lo hi : DWord) (s : State) :
    exec (.tlbInvalidation owner lo hi) s = execTlbInvalidation owner lo hi s := rfl
theorem exec_icacheInvalidation (lo hi : Nat) (s : State) : exec (.icacheInvalidation lo hi) s = execIcacheInvalidation lo hi s := rfl
theorem exec_uncorrectableError (e : ErrSite) (s : State) : exec (.uncorrectableError e) s = execUncorrectableError e s := rfl
theorem exec_contextStoreError (n : Nat) (a : Bool) (s : State) : exec (.contextStoreError n a) s = execContextStoreError n a s := rfl
theorem exec_fuseBlow (n : Nat) (s : State) : exec (.fuseBlow n) s = execFuseBlow n s := rfl
theorem exec_functionLevelReset (s : State) : exec .functionLevelReset s = execFunctionLevelReset s := rfl
theorem exec_deviceReset (s : State) : exec .deviceReset s = execDeviceReset s := rfl

/-! ### Writes of one line -/

/-- Bytes inside one line end before the next one. -/
theorem length_le_of_one_line {a : Nat} {bs : List Byte} (line : a / 128 = (a + bs.length - 1) / 128) (nonempty : bs ≠ []) :
    0 < bs.length ∧ bs.length ≤ 128 - a % 128 := by
  have := List.length_pos_iff.mpr nonempty
  omega

/-- The host's and the peers' writes leave a release of their own, or none (10:R232, R233). -/
theorem RelRec.write_host_v (r : RelRec) (rel : Option (BitVec 3)) : (r.write Writer.host rel false).v = rel.isSome := by
  cases rel <;> rfl

namespace MemSys

@[simp] theorem unpoison_areas (m : MemSys) (mt : BitVec 2) (pa n : Nat) : (m.unpoison mt pa n).areas = m.areas := by unfold unpoison; split <;> rfl
@[simp] theorem unpoison_keyPairs (m : MemSys) (mt : BitVec 2) (pa n : Nat) : (m.unpoison mt pa n).keyPairs = m.keyPairs := by
  unfold unpoison; split <;> rfl

theorem setRel_relOf (m : MemSys) (line : Nat) (r : RelRec) : (m.setRel line r).relOf line = r := by
  unfold setRel relOf
  rw [Assoc.getD_putD, if_pos rfl]

/-- The record of a line of HBM after a write is one that its writer leaves. -/
theorem relOf_homeWrite (m : MemSys) (core : Option Nat) (w : Writer) (rel : Option (BitVec 3)) (rmw : Bool) (key : BitVec 10) (pa : Nat)
    (bs : List Byte) (sh : Bool) :
    ∃ r : RelRec, (m.homeWrite core w rel rmw 0#2 key pa bs sh).relOf (lineOf 0#2 pa) = r.write w rel rmw :=
  ⟨_, setRel_relOf _ _ _⟩

/-- A write from outside within one line is one write at its home slice. -/
theorem extWrite_of_one_line (m : MemSys) (rel : Option (BitVec 3)) (key : BitVec 10) (k : Nat) {a : Nat} {bs : List Byte}
    (line : a / 128 = (a + bs.length - 1) / 128) (nonempty : bs ≠ []) :
    m.extWrite rel key (k + 2) a bs = m.homeWrite none Writer.host rel false 0#2 key a bs := by
  obtain ⟨pos, fits⟩ := length_le_of_one_line line nonempty
  rw [extWrite, Nat.min_eq_left fits, if_neg (by omega), List.take_length, List.drop_length]
  rfl

/-- A write of the host to its own memory within one line writes its bytes and leaves no copy of the line in the device. -/
theorem hostWrite_of_one_line (m : MemSys) (k : Nat) {a : Nat} {bs : List Byte} (line : a / 128 = (a + bs.length - 1) / 128) (nonempty : bs ≠ []) :
    m.hostWrite (k + 2) a bs = ((m.writeBytes 1#2 0#10 a bs).unpoison 1#2 a bs.length).dropLine (lineOf 1#2 a) := by
  obtain ⟨pos, fits⟩ := length_le_of_one_line line nonempty
  rw [hostWrite, Nat.min_eq_left fits, if_neg (by omega), List.take_length, List.drop_length]
  rfl

end MemSys

theorem Stored.dropLine_unpoison (m : MemSys) (mt : BitVec 2) (key : BitVec 10) (pa n line : Nat) (bs : List Byte) :
    Stored m (((m.writeBytes mt key pa bs).unpoison mt pa n).dropLine line) mt key pa bs :=
  ⟨MemSys.unpoison_bytes .., MemSys.unpoison_lineKey .., (MemSys.unpoison_training ..).trans (m.writeBytes_training mt key pa bs),
    (MemSys.unpoison_areas ..).trans (m.writeBytes_areas mt key pa bs), (MemSys.unpoison_keyPairs ..).trans (m.writeBytes_keyPairs mt key pa bs)⟩

/-! ### Reads -/

namespace MemSys

/-- The same memory with other lines held by the home slices and other copies at the host. -/
def retag (m : MemSys) (tags : Assoc HomeLine) (copies : Assoc Unit) : MemSys := { m with homeTag := tags, hostCopy := copies }

/-- Tags of caches change no value that is read (08:R175). -/
theorem readBytes_retag (m : MemSys) (tags : Assoc HomeLine) (copies : Assoc Unit) (mt : BitVec 2) (key : BitVec 10) (pa n : Nat) :
    (m.retag tags copies).readBytes mt key pa n = m.readBytes mt key pa n := by
  induction n generalizing pa with
  | zero => rfl
  | succ n ih => exact congrArg (m.readByte mt key pa :: ·) (ih (pa + 1))

theorem readBytes_add (m : MemSys) (mt : BitVec 2) (key : BitVec 10) (pa i j : Nat) :
    m.readBytes mt key pa (i + j) = m.readBytes mt key pa i ++ m.readBytes mt key (pa + i) j := by
  induction i generalizing pa with
  | zero => simp [readBytes]
  | succ i ih =>
    rw [show i + 1 + j = i + j + 1 by omega, readBytes, readBytes, ih, List.cons_append, show pa + 1 + i = pa + (i + 1) by omega]

/-- A read from outside takes `i` bytes of its first line, and the rest from a memory in which that line is held. -/
theorem extRead_first_line (m : MemSys) (host : Bool) (key : BitVec 10) (k : Nat) {pa n i : Nat} (here : min n (128 - pa % 128) = i) (nonempty : i ≠ 0) :
    ∃ tags copies, m.extRead host key (k + 1) pa n =
      (m.readBytes 0#2 key pa i ++ ((m.retag tags copies).extRead host key k (pa + i) (n - i)).1,
        ((m.retag tags copies).extRead host key k (pa + i) (n - i)).2) := by
  rw [extRead, here, if_neg nonempty]
  cases host <;> exact ⟨_, _, rfl⟩

/-- A read from outside, taken line by line, delivers the bytes of its range and changes only which lines are held. -/
theorem extRead_eq (m : MemSys) (host : Bool) (key : BitVec 10) {k pa n : Nat} (fuel : n ≤ 128 * k - pa % 128) :
    ∃ tags copies, m.extRead host key k pa n = (m.readBytes 0#2 key pa n, m.retag tags copies) := by
  induction k generalizing m pa n with
  | zero =>
    obtain rfl : n = 0 := by omega
    exact ⟨_, _, rfl⟩
  | succ k ih =>
    obtain ⟨i, here⟩ : ∃ i, min n (128 - pa % 128) = i := ⟨_, rfl⟩
    by_cases done : i = 0
    · obtain rfl : n = 0 := by omega
      exact ⟨_, _, by rw [extRead, here, if_pos done]; rfl⟩
    · obtain ⟨tags, copies, first⟩ := m.extRead_first_line host key k here done
      obtain ⟨tags', copies', rest⟩ := ih (m.retag tags copies) (pa := pa + i) (n := n - i) (by omega)
      refine ⟨tags', copies', ?_⟩
      rw [first, rest, readBytes_retag, ← readBytes_add, show i + (n - i) = n by omega]
      rfl

end MemSys

/-! ### Accesses to HBM (10:R239, R240, 18:R414, R421) -/

namespace State

/-- In recovery only the mailbox and BAR0 answer (18:R424). -/
theorem extAccess_of_recovering {s : State} (host : Bool) (key : BitVec 10) (pa : Nat) (acc : ExtAcc) (h : s.recovering = true) :
    s.extAccess host key pa acc = s.setDev { s.dev with answer := none } := by
  cases acc <;> exact if_pos (.inl h)

theorem extAccess_read {s : State} (host : Bool) (key : BitVec 10) {a n : Nat} (inside : a + n ≤ 1536 * 2 ^ 30) (serves : s.recovering = false) :
    ∃ tags copies, s.extAccess host key a (.read n) =
      (s.setMem (s.mem.retag tags copies)).setDev { s.dev with answer := some (s.mem.readBytes 0#2 key a n) } := by
  obtain ⟨tags, copies, read⟩ := s.mem.extRead_eq host key (k := n / 128 + 2) (pa := a) (n := n) (by omega)
  refine ⟨tags, copies, ?_⟩
  simp only [extAccess]
  rw [if_neg (by rw [serves]; exact not_or.mpr ⟨Bool.false_ne_true, Nat.not_lt.mpr inside⟩), read]

theorem extAccess_write {s : State} (host : Bool) (key : BitVec 10) {a : Nat} {bs : List Byte} (r : Bool)
    (line : a / 128 = (a + bs.length - 1) / 128) (nonempty : bs ≠ []) (inside : a + bs.length ≤ 1536 * 2 ^ 30)
    (unheld : s.extHeld 0#2 a bs.length = false) (serves : s.recovering = false) :
    s.extAccess host key a (.write bs r) = (s.setMem (s.mem.homeWrite none Writer.host (if r && !host then some 4#3 else none) false 0#2 key a bs)).setDev
      { s.dev with answer := some [] } := by
  simp only [extAccess]
  rw [if_neg (by rw [serves]; exact not_or.mpr ⟨Bool.false_ne_true, Nat.not_lt.mpr inside⟩), if_neg (by simp [unheld]),
    MemSys.extWrite_of_one_line _ _ _ _ line nonempty]

/-- A write from outside stores its bytes; its record is a release where a peer's write is one (10:R232). -/
theorem extAccess_written {s : State} (host : Bool) (key : BitVec 10) {a : Nat} {bs : List Byte} (r : Bool)
    (line : a / 128 = (a + bs.length - 1) / 128) (nonempty : bs ≠ []) (inside : a + bs.length ≤ 1536 * 2 ^ 30)
    (unheld : s.extHeld 0#2 a bs.length = false) (serves : s.recovering = false) :
    Stored s.mem (s.extAccess host key a (.write bs r)).mem 0#2 key a bs ∧
      ((s.extAccess host key a (.write bs r)).mem.relOf (lineOf 0#2 a)).v = (r && !host) ∧ Quiet s (s.extAccess host key a (.write bs r)) := by
  rw [extAccess_write host key r line nonempty inside unheld serves]
  obtain ⟨old, rel⟩ := s.mem.relOf_homeWrite none Writer.host (if r && !host then some 4#3 else none) false key a bs false
  refine ⟨Stored.homeWrite s.mem none _ _ false 0#2 key a bs false, ?_, .of_gangs rfl⟩
  refine (congrArg RelRec.v rel).trans ((old.write_host_v _).trans ?_)
  cases r && !host <;> rfl

end State

/-- An address at an offset into the range of the HDM decoder is one of device HBM (18:R414). -/
theorem execHostAccess_inside (s : State) {a : Nat} (acc : ExtAcc) (inside : a < 1536 * 2 ^ 30) :
    execHostAccess (s.dev.hdmBase + a) acc s = .next (s.extAccess true s.dev.hdmKey a acc) := by
  have range : s.dev.hdmBase ≤ s.dev.hdmBase + a ∧ s.dev.hdmBase + a < s.dev.hdmBase + Config.hbmBytes :=
    ⟨by omega, Nat.add_lt_add_left inside _⟩
  rw [execHostAccess, if_pos range, Nat.add_sub_cancel_left]

theorem execHostAccess_outside {s : State} {a : Nat} (acc : ExtAcc) (outside : a < s.dev.hdmBase ∨ s.dev.hdmBase + 1536 * 2 ^ 30 ≤ a) :
    execHostAccess a acc s = .next (s.hostAccess a acc) := by
  rw [execHostAccess, if_neg]
  rintro ⟨low, high⟩
  exact outside.elim (Nat.not_lt.mpr low) (Nat.not_le.mpr high)

/-- 18:R421: an access inside a window that allows it is served under the window's KEY. -/
theorem execPeerAccess_served {s : State} {port a : Nat} {acc : ExtAcc} {w : Window} (up : s.dev.linkDown.has port = false)
    (window : s.windowOf port a (extBytes acc) = some w) (allowed : extWrites acc = false ∨ w.we = true) :
    execPeerAccess port a acc s = .next (s.extAccess false w.key a acc) := by
  simp only [execPeerAccess, up, window, Bool.false_eq_true, if_false]
  rcases allowed with h | h <;> simp [h]

theorem hostWrite_served {s : State} {a : Nat} {bs : List Byte} (r : Bool) (line : a / 128 = (a + bs.length - 1) / 128) (nonempty : bs ≠ [])
    (inside : a + bs.length ≤ 1536 * 2 ^ 30) (unheld : s.extHeld 0#2 a bs.length = false) (serves : s.recovering = false) :
    ∃ u, exec (.hostAccess (s.dev.hdmBase + a) (.write bs r)) s = .next u ∧ Stored s.mem u.mem 0#2 s.dev.hdmKey a bs ∧
      (u.mem.relOf (lineOf 0#2 a)).v = false ∧ Quiet s u := by
  obtain ⟨pos, -⟩ := length_le_of_one_line line nonempty
  obtain ⟨stored, record, quiet⟩ := State.extAccess_written true s.dev.hdmKey r line nonempty inside unheld serves
  exact ⟨_, execHostAccess_inside s _ (by omega), stored, record.trans (Bool.and_false r), quiet⟩

theorem peerWrite_served {s : State} {port a : Nat} {bs : List Byte} {r : Bool} {w : Window} (window : s.windowOf port a bs.length = some w)
    (writes : w.we = true) (up : s.dev.linkDown.has port = false) (line : a / 128 = (a + bs.length - 1) / 128) (nonempty : bs ≠ [])
    (inside : a + bs.length ≤ 1536 * 2 ^ 30) (unheld : s.extHeld 0#2 a bs.length = false) (serves : s.recovering = false) :
    ∃ u, exec (.peerAccess port a (.write bs r)) s = .next u ∧ Stored s.mem u.mem 0#2 w.key a bs ∧ (u.mem.relOf (lineOf 0#2 a)).v = r ∧
      Quiet s u := by
  obtain ⟨stored, record, quiet⟩ := State.extAccess_written false w.key r line nonempty inside unheld serves
  exact ⟨_, execPeerAccess_served up window (.inr writes), stored, record.trans (Bool.and_true r), quiet⟩

theorem hostRead_served {s : State} {a n : Nat} (nonempty : 0 < n) (inside : a + n ≤ 1536 * 2 ^ 30) (serves : s.recovering = false) :
    ∃ u, exec (.hostAccess (s.dev.hdmBase + a) (.read n)) s = .next u ∧ u.dev.answer = some (s.mem.readBytes 0#2 s.dev.hdmKey a n) ∧
      u.mem.bytes = s.mem.bytes ∧ Quiet s u := by
  obtain ⟨tags, copies, read⟩ := State.extAccess_read true s.dev.hdmKey inside serves
  rw [exec_hostAccess, execHostAccess_inside s _ (by omega), read]
  exact ⟨_, rfl, rfl, rfl, .of_gangs rfl⟩

theorem peerRead_served {s : State} {port a n : Nat} {w : Window} (inside : a + n ≤ 1536 * 2 ^ 30) (serves : s.recovering = false)
    (window : s.windowOf port a n = some w) (up : s.dev.linkDown.has port = false) :
    ∃ u, exec (.peerAccess port a (.read n)) s = .next u ∧ u.dev.answer = some (s.mem.readBytes 0#2 w.key a n) ∧
      u.mem.bytes = s.mem.bytes ∧ Quiet s u := by
  obtain ⟨tags, copies, read⟩ := State.extAccess_read false w.key inside serves
  rw [exec_peerAccess, execPeerAccess_served up window (.inl rfl), read]
  exact ⟨_, rfl, rfl, rfl, .of_gangs rfl⟩

theorem accesses_in_recovery {s : State} (port a : Nat) (acc : ExtAcc) (h : s.recovering = true) :
    (a < 1536 * 2 ^ 30 → exec (.hostAccess (s.dev.hdmBase + a) acc) s = .next (s.setDev { s.dev with answer := none })) ∧
    (s.dev.linkDown.has port = false → exec (.peerAccess port a acc) s = .next (s.setDev { s.dev with answer := none })) := by
  refine ⟨fun inside => ?_, fun up => ?_⟩
  · rw [exec_hostAccess, execHostAccess_inside s acc inside, State.extAccess_of_recovering _ _ _ _ h]
  · simp only [exec_peerAccess, execPeerAccess, up, Bool.false_eq_true, if_false]
    cases s.windowOf port a (extBytes acc) with
    | none => rfl
    | some w =>
      simp only [State.extAccess_of_recovering _ _ _ _ h]
      rw [ite_self]

theorem peerAccess_refused {s : State} {port a : Nat} {acc : ExtAcc} (up : s.dev.linkDown.has port = false)
    (h : s.windowOf port a (extBytes acc) = none ∨ ∃ w, s.windowOf port a (extBytes acc) = some w ∧ w.we = false ∧ extWrites acc = true) :
    exec (.peerAccess port a acc) s = .next (s.setDev { s.dev with answer := none }) := by
  simp only [exec_peerAccess, execPeerAccess, up, Bool.false_eq_true, if_false]
  rcases h with window | ⟨w, window, readOnly, writes⟩
  · rw [window]
  · simp [window, readOnly, writes]

/-! ### The host's own memory (18:R413) -/

namespace State

theorem hostAccess_write {s : State} {a : Nat} {bs : List Byte} (r : Bool) (line : a / 128 = (a + bs.length - 1) / 128) (nonempty : bs ≠ [])
    (inside : a + bs.length ≤ Config.hostBytes) (unheld : s.extHeld 1#2 a bs.length = false) :
    s.hostAccess a (.write bs r) =
      (s.setMem (((s.mem.writeBytes 1#2 0#10 a bs).unpoison 1#2 a bs.length).dropLine (lineOf 1#2 a))).setDev { s.dev with answer := some [] } := by
  simp only [hostAccess]
  rw [if_neg (Nat.not_lt.mpr inside), if_neg (by simp [unheld]), MemSys.hostWrite_of_one_line _ _ line nonempty]
  rfl

theorem hostAccess_read {s : State} {a n : Nat} (inside : a + n ≤ Config.hostBytes) :
    s.hostAccess a (.read n) = (s.setMem (s.mem.hostRead a n)).setDev { s.dev with answer := some (s.mem.readBytes 1#2 0#10 a n) } :=
  if_neg (Nat.not_lt.mpr inside)

end State

theorem ownWrite_performed {s : State} {a : Nat} {bs : List Byte} (r : Bool) (outside : a < s.dev.hdmBase ∨ s.dev.hdmBase + 1536 * 2 ^ 30 ≤ a)
    (line : a / 128 = (a + bs.length - 1) / 128) (nonempty : bs ≠ []) (inside : a + bs.length ≤ 2 ^ 52) (unheld : s.extHeld 1#2 a bs.length = false) :
    ∃ u, exec (.hostAccess a (.write bs r)) s = .next u ∧ Stored s.mem u.mem 1#2 0#10 a bs ∧
      u.mem.homeTag.get? (lineOf 1#2 a) = none ∧ Quiet s u := by
  rw [exec_hostAccess, execHostAccess_outside _ outside, State.hostAccess_write r line nonempty inside unheld]
  exact ⟨_, rfl, Stored.dropLine_unpoison s.mem .., Assoc.get?_del_self _ _, .of_gangs rfl⟩

theorem ownRead_performed {s : State} {a n : Nat} (outside : a < s.dev.hdmBase ∨ s.dev.hdmBase + 1536 * 2 ^ 30 ≤ a) (inside : a + n ≤ 2 ^ 52) :
    ∃ u, exec (.hostAccess a (.read n)) s = .next u ∧ u.dev.answer = some (s.mem.readBytes 1#2 0#10 a n) ∧ u.mem.bytes = s.mem.bytes ∧
      Quiet s u := by
  rw [exec_hostAccess, execHostAccess_outside _ outside, State.hostAccess_read inside]
  exact ⟨_, rfl, rfl, MemSys.hostRead_bytes _ _ _, .of_gangs rfl⟩

/-! ### Links and invalidations (08:R174, R176, 18:R420) -/

theorem peerLink_down_and_up (s : State) {port : Nat} (h : port < 16) :
    (∃ u, exec (.peerLinkDown port) s = .next u ∧ u.dev.linkDown.has port = true ∧ u.mem = s.mem ∧ Quiet s u) ∧
    ∃ u, exec (.peerLinkUp port) s = .next u ∧ u.dev.linkDown.has port = false ∧ u.mem = s.mem ∧ Quiet s u := by
  constructor
  · rw [exec_peerLinkDown, execPeerLinkDown, if_neg (by omega)]
    exact ⟨_, rfl, by simp [Assoc.has], rfl, .of_gangs rfl⟩
  · exact ⟨_, exec_peerLinkUp port s, by simp [Assoc.has], rfl, .of_gangs rfl⟩

/-- Entries that a lookup finds in a table whose lists have been filtered meet the condition. -/
theorem Assoc.of_mem_get?_mapVal_filter {α : Type} {t : Assoc (List α)} {p : α → Bool} {k : Nat} {es : List α} {e : α}
    (h : (t.mapVal fun _ es => es.filter p).get? k = some es) (he : e ∈ es) : p e = true := by
  rw [Assoc.get?_mapVal, Option.map_eq_some_iff] at h
  obtain ⟨old, -, rfl⟩ := h
  exact (List.mem_filter.mp he).2

theorem tlb_invalidated (s : State) (o : Nat) (lo hi : DWord) :
    ∃ u, exec (.tlbInvalidation o lo hi) s = .next u ∧ u.mem.bytes = s.mem.bytes ∧ Quiet s u ∧
      (∀ k es, u.mem.tlb.get? k = some es ∨ u.mem.ctlb.get? k = some es → ∀ e ∈ es, ¬(e.owner = o ∧ e.va ≤ hi.toNat ∧ lo.toNat < e.va + e.size)) := by
  rw [exec_tlbInvalidation, execTlbInvalidation]
  refine ⟨_, rfl, rfl, .of_gangs rfl, fun k es found e he => ?_⟩
  have kept : (!decide (e.owner = o ∧ e.va ≤ hi.toNat ∧ lo.toNat < e.va + e.size)) = true :=
    found.elim (fun h => Assoc.of_mem_get?_mapVal_filter (t := s.mem.tlb) h he) fun h => Assoc.of_mem_get?_mapVal_filter (t := s.mem.ctlb) h he
  exact of_decide_eq_false ((Bool.not_eq_true' _).mp kept)

theorem icache_invalidated (s : State) (lo hi : Nat) :
    ∃ u, exec (.icacheInvalidation lo hi) s = .next u ∧ u.mem.bytes = s.mem.bytes ∧ Quiet s u ∧
      ∀ k, lo / 128 ≤ k % 2 ^ 47 → k % 2 ^ 47 ≤ hi / 128 → u.mem.icache.get? k = none := by
  rw [exec_icacheInvalidation, execIcacheInvalidation]
  refine ⟨_, rfl, rfl, .of_gangs rfl, fun k low high => ?_⟩
  exact Assoc.get?_keep_eq_none s.mem.icache (p := fun k _ => !decide (lo / 128 ≤ k % 2 ^ 47 ∧ k % 2 ^ 47 ≤ hi / 128))
    fun _ => by rw [decide_eq_true ⟨low, high⟩]; rfl

/-! ### Errors (03:R78, 08:R180, 16:R397) -/

theorem vcopy_poisoned (s : State) (g : Nat) (a : Bool) (r n : Nat) (b : Bool) :
    ∃ u, exec (.uncorrectableError (.vcopy g a r n b)) s = .next u ∧ u.mem = s.mem ∧
      u.vreg ⟨g, a⟩ r n = (s.vreg ⟨g, a⟩ r n).map fun v => v.poisonHalf b := by
  refine ⟨_, exec_uncorrectableError _ s, rfl, ?_⟩
  unfold State.vreg
  rw [State.ctx?_updCtx, if_pos rfl]
  cases s.ctx? ⟨g, a⟩ with
  | none => rfl
  | some c => exact Assoc.get?_upd_self _ _ _

theorem scopy_poisoned (s : State) (g : Nat) (a : Bool) (r : Nat) (b : Bool) :
    ∃ u, exec (.uncorrectableError (.scopy g a r b)) s = .next u ∧ u.mem = s.mem ∧
      u.sreg ⟨g, a⟩ r = (s.sreg ⟨g, a⟩ r).map fun v => v.poisonHalf b := by
  refine ⟨_, exec_uncorrectableError _ s, rfl, ?_⟩
  unfold State.sreg
  rw [State.ctx?_updCtx, if_pos rfl]
  cases s.ctx? ⟨g, a⟩ with
  | none => rfl
  | some c => exact Assoc.get?_upd_self _ _ _

theorem line_poisoned (s : State) (line : Nat) :
    ∃ u, exec (.uncorrectableError (.line 0 line)) s = .next u ∧ u.mem.poisoned 0#2 (128 * line) = true ∧ u.mem.bytes = s.mem.bytes ∧
      Quiet s u := by
  refine ⟨_, exec_uncorrectableError _ s, ?_, rfl, .of_gangs rfl⟩
  exact congrArg Option.isSome (Assoc.get?_put_self _ _ _)

theorem contextStoreError_endsLaunch {s : State} {n : Nat} {g : Gang} {c : Ctx} {access : Bool} (gang : s.gang? n = some g)
    (ctx : g.ctx? access = some c) :
    ∃ u, exec (.contextStoreError n access) s = .next u ∧ u.agenda = .event (.launchEndEarly g.launch 13) :: s.agenda ∧ u.mem = s.mem ∧
      Quiet s u := by
  simp only [exec_contextStoreError, execContextStoreError, gang, ctx]
  exact ⟨_, rfl, rfl, rfl, .of_gangs rfl⟩

/-! ### Fuses and resets (18:R416, R422 to R424) -/

theorem fuse_blown {s : State} {n : Nat} (running : 2 ≤ s.dev.stage) (healthy : s.dev.stage ≠ 15) (rises : s.dev.fuses ≤ n) (own : n ≤ s.dev.fwver)
    (cells : n ≤ 64) : exec (.fuseBlow n) s = .next (s.setDev { s.dev with fuses := n }) := by
  rw [exec_fuseBlow, execFuseBlow, if_pos ⟨running, healthy, rises, own, cells⟩]

/-- The slot that the ROM starts is a matter of the flash and the fuses. -/
theorem Device.bootSlot_congr {d e : Device} (flash : d.flash = e.flash) (fuses : d.fuses = e.fuses) : d.bootSlot = e.bootSlot := by
  unfold Device.bootSlot
  rw [flash, fuses]

namespace State

theorem afterReset_bootSlot (s : State) : s.afterReset.dev.bootSlot = s.dev.bootSlot := Device.bootSlot_congr rfl rfl

/-- Changes of STAGE or ERR are signalled, and nothing else changes (18:R416). -/
theorem stageSignals_eq (s : State) (n : Nat) :
    ∃ m, s.stageSignals n = s.setLaunches { s.launches with msix := s.launches.msix ++ List.replicate n 63, msi := m } := by
  induction n with
  | zero => exact ⟨s.launches.msi, by rw [List.replicate_zero, List.append_nil]; rfl⟩
  | succ n ih =>
    obtain ⟨m, eq⟩ := ih
    have step : s.stageSignals (n + 1) = (s.stageSignals n).msi 63 := by
      unfold stageSignals
      rw [List.range_succ, List.foldl_append]
      rfl
    refine ⟨m.signal 63, ?_⟩
    rw [step, eq, List.replicate_succ', ← List.append_assoc]
    rfl

/-- The device of a slot that starts: its image runs, and the rest of boot went as it did (18:R423, R424). -/
def booted (s : State) (n : Nat) (x : Slot) (err stage : Nat) : State :=
  s.setDev { s.dev with
    fwver := x.fwver, slot := n, err := err, stage := stage, image := x.digest, program := s.dev.flash.image x, entry := x.entry
    mbox := { s.dev.mbox with mlog := x.digest } }

end State

theorem execDeviceReset_of_none {s : State} (h : s.dev.bootSlot = none) :
    execDeviceReset s = .next ((s.afterReset.setDev { s.afterReset.dev with stage := 15, err := 1 }).stageSignals 2) := by
  rw [execDeviceReset, s.afterReset_bootSlot, h]

/-- A boot that reaches a stage signals it at least once, whether it goes on from there or ends with an error (18:R416). -/
theorem bootSignals_pos (err failed : Nat) :
    0 < if err = 0 then (if err = 0 then 4 else failed) else (if err = 0 then 4 else failed) + 1 := by
  by_cases good : err = 0
  · simp [good]
  · rw [if_neg good]; omega

theorem execDeviceReset_of_some {s : State} {n : Nat} {x : Slot} (h : s.dev.bootSlot = some (n, x)) :
    ∃ draws err stage signals, 0 < signals ∧
      execDeviceReset s = .next (((s.afterReset.setDraws draws).booted n x err stage).stageSignals signals) := by
  rw [execDeviceReset, s.afterReset_bootSlot, h]
  exact ⟨_, _, _, _, bootSignals_pos _ _, rfl⟩

/-- What a device reset leaves where no slot verifies, and where one starts (18:R416, R423, R424). -/
theorem device_reset (s : State) :
    ∃ u, exec .deviceReset s = .next u ∧ u.gangs = [] ∧ u.groups = [] ∧ u.ops = [] ∧ u.launches.tab = [] ∧ u.launches.rings = [] ∧
      u.dev.settings = [] ∧ u.launches.msix ≠ [] ∧ (∀ v ∈ u.launches.msix, v = 63) ∧ u.dev.fuses = s.dev.fuses ∧ u.dev.flash = s.dev.flash ∧
      (s.dev.bootSlot = none → u.dev.stage = 15 ∧ u.dev.err = 1 ∧ u.launches.msix = [63, 63]) ∧
      ∀ n x, s.dev.bootSlot = some (n, x) → u.dev.slot = n ∧ u.dev.fwver = x.fwver ∧ u.dev.image = x.digest ∧ u.dev.mbox.mlog = x.digest ∧
        u.dev.program = s.dev.flash.image x ∧ u.dev.entry = x.entry := by
  rw [exec_deviceReset]
  cases boot : s.dev.bootSlot with
  | none =>
    obtain ⟨m, eq⟩ := (s.afterReset.setDev { s.afterReset.dev with stage := 15, err := 1 }).stageSignals_eq 2
    rw [execDeviceReset_of_none boot, eq]
    exact ⟨_, rfl, rfl, rfl, rfl, rfl, rfl, rfl, List.cons_ne_nil _ _, fun v hv => List.eq_of_mem_replicate (n := 2) hv, rfl, rfl,
      fun _ => ⟨rfl, rfl, rfl⟩, nofun⟩
  | some p =>
    obtain ⟨n, x⟩ := p
    obtain ⟨draws, err, stage, signals, pos, run⟩ := execDeviceReset_of_some boot
    obtain ⟨m, eq⟩ := ((s.afterReset.setDraws draws).booted n x err stage).stageSignals_eq signals
    rw [run, eq]
    refine ⟨_, rfl, rfl, rfl, rfl, rfl, rfl, rfl, ?_, fun v hv => List.eq_of_mem_replicate (n := signals) hv, rfl, rfl, nofun, ?_⟩
    · exact fun unsignalled => pos.ne' (List.replicate_eq_nil_iff _ |>.mp unsignalled)
    · rintro _ _ ⟨⟩
      exact ⟨rfl, rfl, rfl, rfl, rfl, rfl⟩

/-! ### The statement -/

/-- Settles O49: accesses by the law of each, in or out of the decoder's range, a window, recovery; links, invalidations and errors by their
tables; a device reset by whether a slot verifies. -/
theorem outsideWorld : Obligations.OutsideWorld := by
  unfold Obligations.OutsideWorld
  refine ⟨fun s a bs r line nonempty inside unheld serves => hostWrite_served r line nonempty inside unheld serves,
    fun s port a bs r w window writes up line nonempty inside unheld serves => peerWrite_served window writes up line nonempty inside unheld serves,
    fun s a n nonempty inside serves => ⟨hostRead_served nonempty inside serves, fun port w window up => peerRead_served inside serves window up⟩,
    fun s a outside => ⟨fun bs r line nonempty inside unheld => ownWrite_performed r outside line nonempty inside unheld,
      fun n inside => ownRead_performed outside inside⟩,
    fun s port a acc h => accesses_in_recovery port a acc h, fun s port a acc up h => peerAccess_refused up h,
    fun s port => exec_flitCrcRetry port s, fun s port h => peerLink_down_and_up s h, tlb_invalidated, icache_invalidated, vcopy_poisoned,
    scopy_poisoned, line_poisoned, fun s n g c access gang ctx => contextStoreError_endsLaunch gang ctx,
    fun s n running healthy rises own cells => fuse_blown running healthy rises own cells, exec_functionLevelReset, device_reset⟩

end Sys2Proof.Machine
end

section
/-! PROOF. A pick that the lanes of its path have all completed before (11:R254, R273): a counterexample. -/

namespace Sys2Proof.Machine

/-- `spick` with the address of the statistics in s0, that of the record in s1 and the control word in s2. -/
def pickScales : Instr := .spick ⟨none, none⟩ ⟨0, 0⟩ ⟨.s 0, .none⟩ ⟨.s 1, .none⟩ ⟨.s 2, .none⟩

/-- The placed gang before a pick from one block's statistics at 0 into a record at 0x400. Lane 0, alone in the path, has completed it. -/
def pickCompleted : State :=
  let s := ((State.reset.placeWord []).setCur (some ⟨0, false⟩)).updLaunch 0 fun l => { l with kern := { l.kern with spadb := 4096 } }
  s.updCtx ⟨0, false⟩ fun c =>
    { c with path := 1#64, cur := c.cur.map fun k => { k with done := 1#64 }
             s := [(0, ⟨0#32, false, false⟩), (1, ⟨0x400#32, false, false⟩), (2, ⟨1#32, false, false⟩)] }

/-- The bytes of the record, all in the group's own scratchpad. -/
def pickedBytes : List SpadRef := (List.range 272).map fun i => ⟨0, 0x400 + i, false⟩

theorem pickCompleted_env : (env? pickScales pickCompleted).isSome = true := by decide +kernel

/-- The environment of that pick. -/
def pickEnv : Env := (env? pickScales pickCompleted).get pickCompleted_env

theorem pickEnv_ready : Ready pickScales pickCompleted pickEnv :=
  ⟨(Option.some_get pickCompleted_env).symm, by decide +kernel, by decide +kernel⟩

/-- A lane that has completed the instruction still counts for the nib, though none is active. -/
theorem pickEnv_lanes : pickEnv.nib = some 0 ∧ pickEnv.act = 0#64 := by decide +kernel

theorem pickEnv_control : (pickEnv.word 2 0).extractLsb' 19 13 = 0#13 ∧ pickEnv.pickBlocks 0 = 1 ∧
    ((pickEnv.word 2 0).extractLsb' 10 7).toNat = 0 := by decide +kernel

theorem pickEnv_aligned : (pickEnv.word 0 0).toNat % 8 = 0 ∧ (pickEnv.word 1 0).toNat % 16 = 0 := by decide +kernel

theorem pickEnv_statistics :
    pickEnv.readBlock pickCompleted (pickEnv.word 0 0).toNat (8 * pickEnv.pickBlocks 0) false = .ok (List.replicate 8 0#8) := rfl

theorem pickEnv_record :
    pickEnv.spadAll pickCompleted .write ((List.range 272).map ((pickEnv.word 1 0).toNat + ·)) = .ok pickedBytes := by decide +kernel

theorem pickEnv_unhindered : pickEnv.partnerAbsent pickCompleted pickedBytes = [] ∧
    pickCompleted.heldAll pickedBytes (some pickEnv.g.group) = false ∧ pickEnv.copyAhead pickCompleted pickedBytes = false := by decide +kernel

/-- Without an active lane the pick enters flight all the same. -/
theorem pickCompleted_enters {t : State} (run : exec pickScales pickCompleted = .next t) : t.ops ≠ [] := by
  have enters : (match exec pickScales pickCompleted with | .next u => u.ops.isEmpty | _ => true) = false := by decide +kernel
  rw [run] at enters
  exact List.isEmpty_eq_false_iff.mp enters

/-- Refutes O28: good operands and a nib do not make a lane active. The model's nib is the lowest of all lanes of the instruction, those that have
completed it before among them. Where they all have, no lane is active, and `spick` enters flight nevertheless; the statement, as 11:R254,
asks that an instruction without an active lane enter none. -/
theorem not_quantiseAndPick : ¬ Obligations.QuantiseAndPick := by
  unfold Obligations.QuantiseAndPick
  rintro ⟨-, picks⟩
  obtain ⟨nib, inactive⟩ := pickEnv_lanes
  obtain ⟨reserved, blocks, limit⟩ := pickEnv_control
  obtain ⟨alignedStatistics, alignedRecord⟩ := pickEnv_aligned
  obtain ⟨present, unheld, landed⟩ := pickEnv_unhindered
  obtain ⟨t, run, effect⟩ := picks _ _ _ _ _ 0 _ _ pickCompleted pickEnv pickEnv_ready
    ⟨nib, reserved, blocks.ge, by omega, by omega, alignedStatistics, alignedRecord, pickEnv_statistics, pickEnv_record, present, unheld, landed⟩
  have noFlight : t.ops = pickCompleted.ops := (if_neg fun flies => flies.2 inactive).mp effect.ops
  exact pickCompleted_enters run noFlight

end Sys2Proof.Machine
end

section
/-! PROOF. Words of bits: a word named by its bits, shifts by a whole word, bit counts, reversal, and the fields of 05:R117. -/

namespace Sys2Proof.Machine

/-! ### A word named by its bits -/

theorem getLsbD_foldl_twoPow (is : List Nat) (f : Nat → Bool) (w : Word) (j : Nat) :
    (is.foldl (fun w i => if f i then w ||| BitVec.twoPow 32 i else w) w).getLsbD j =
      (w.getLsbD j || (decide (j < 32 ∧ j ∈ is) && f j)) := by
  induction is generalizing w with
  | nil => simp
  | cons i is ih =>
    rw [List.foldl_cons, ih]
    by_cases set : f i
    · by_cases same : j = i
      · by_cases small : i < 32 <;> simp [same, set, small]
      · simp [same, set, BitVec.getLsbD_twoPow, Ne.symm same]
    · by_cases same : j = i
      · simp [same, set]
      · simp [same, set]

@[simp] theorem getLsbD_wordOf (f : Nat → Bool) (j : Nat) : (wordOf f).getLsbD j = (decide (j < 32) && f j) := by
  simp [wordOf, getLsbD_foldl_twoPow]

/-- A word is the one that its bits name. -/
theorem eq_wordOf {w : Word} {f : Nat → Bool} (h : ∀ j < 32, w.getLsbD j = f j) : w = wordOf f :=
  BitVec.eq_of_getLsbD_eq fun j small => by rw [h j small, getLsbD_wordOf, decide_eq_true small, Bool.true_and]

/-! ### Shifts by the whole of a word (05:R114) -/

theorem shlW_eq (a n : Word) : shlW a n = a <<< n := by
  rw [shlW, BitVec.shiftLeft_eq']
  split
  · next large => exact (BitVec.shiftLeft_eq_zero large).symm
  · rfl

theorem shrW_eq (a n : Word) : shrW a n = a >>> n := by
  rw [shrW, BitVec.ushiftRight_eq']
  split
  · next large => exact (BitVec.ushiftRight_eq_zero large).symm
  · rfl

/-- A shift by 31 already fills the word with its sign. -/
theorem sraW_eq (a n : Word) : sraW a n = a.sshiftRight n.toNat := by
  unfold sraW
  rcases Nat.le_total n.toNat 31 with small | large
  · rw [Nat.min_eq_left small]
  · refine BitVec.eq_of_getLsbD_eq fun j hj => ?_
    rw [Nat.min_eq_right large, BitVec.getLsbD_sshiftRight, BitVec.getLsbD_sshiftRight, BitVec.msb_eq_getLsbD_last]
    by_cases inside : n.toNat + j < 32
    · obtain ⟨shift, rfl⟩ : n.toNat = 31 ∧ j = 0 := by omega
      rw [shift]
    · rw [if_neg inside]
      split
      · next first => rw [show 31 + j = 32 - 1 by omega]
      · rfl

/-! ### Counts and reversal (05:R116) -/

/-- The length of the run of clear bits that a range begins with is the place of the first set bit. -/
theorem length_takeWhile_range' (f : Nat → Bool) (n k : Nat) :
    (((List.range' k n).map f).takeWhile (!·)).length + k = ((List.range' k n).find? f).getD (k + n) := by
  induction n generalizing k with
  | zero => simp
  | succ n ih =>
    rw [List.range'_succ, List.map_cons, List.find?_cons]
    cases set : f k with
    | true => simp
    | false =>
      have rest := ih (k + 1)
      rw [show k + 1 + n = k + (n + 1) by omega] at rest
      simp only [List.takeWhile_cons, Bool.not_false, if_true, List.length_cons]
      omega

theorem length_takeWhile_range (f : Nat → Bool) (n : Nat) :
    (((List.range n).map f).takeWhile (!·)).length = ((List.range n).find? f).getD n := by
  have run := length_takeWhile_range' f n 0
  rwa [Nat.zero_add, Nat.add_zero, ← List.range_eq_range'] at run

/-- The bits of a word from bit 31 down. -/
theorem reverse_bitsOf (w : Word) : (bitsOf w).reverse = (List.range 32).map fun i => w.getLsbD (31 - i) := rfl

theorem clzW_eq (w : Word) : clzW w = BitVec.ofNat 32 (leadingZeros w) := by
  rw [clzW, reverse_bitsOf, length_takeWhile_range]
  rfl

theorem ctzW_eq (w : Word) : ctzW w = BitVec.ofNat 32 (trailingZeros w) := by
  rw [ctzW, bitsOf, length_takeWhile_range]
  rfl

theorem popcW_eq (w : Word) : popcW w = BitVec.ofNat 32 ((List.range 32).countP w.getLsbD) := by
  rw [popcW, bitsOf, ← List.countP_eq_length_filter, List.countP_map]
  rfl

theorem brevW_eq (w : Word) : brevW w = wordOf fun i => w.getLsbD (31 - i) :=
  eq_wordOf fun j small => by
    rw [brevW, BitVec.getLsbD_reverse, BitVec.getMsbD, decide_eq_true small, Bool.true_and]

/-! ### Fields (05:R117) -/

/-- The sign extension of a number's low bits is that of the word of so many bits. -/
theorem sextInt_eq_toInt (x w : Nat) : sextInt x w = (BitVec.ofNat w x).toInt := by
  rw [sextInt, BitVec.toInt_eq_toNat_cond, BitVec.toNat_ofNat]
  by_cases negative : 2 ^ w ≤ 2 * (x % 2 ^ w)
  · simp [negative]
  · simp [negative]

theorem bfxW_eq (a b : Word) : bfxW a b = wordOf fun i =>
    if i < (fieldOf b).2 then a.getLsbD ((fieldOf b).1 + i)
    else b.getLsbD 11 && decide (0 < (fieldOf b).2) && a.getLsbD ((fieldOf b).1 + (fieldOf b).2 - 1) := by
  rcases field : fieldOf b with ⟨p, w⟩
  refine eq_wordOf fun j small => ?_
  have bits (i : Nat) : (a.toNat / 2 ^ p % 2 ^ w).testBit i = (decide (i < w) && a.getLsbD (p + i)) := by
    rw [Nat.testBit_mod_two_pow, Nat.testBit_div_two_pow, BitVec.testBit_toNat, Nat.add_comm]
  rw [bfxW, field]
  dsimp only
  by_cases empty : w = 0
  · simp [empty]
  · rw [if_neg empty]
    by_cases signed : b.getLsbD 11
    · have extended : wrap32 (sextInt (a.toNat / 2 ^ p % 2 ^ w) w) = (BitVec.ofNat w (a.toNat / 2 ^ p % 2 ^ w)).signExtend 32 := by
        rw [sextInt_eq_toInt]; rfl
      rw [if_pos signed, extended, BitVec.getLsbD_signExtend, BitVec.msb_eq_getLsbD_last]
      simp only [BitVec.getLsbD_ofNat, bits, small, signed]
      by_cases inside : j < w
      · simp [inside]
      · simp [inside, Nat.pos_of_ne_zero empty, Nat.add_sub_assoc (Nat.pos_of_ne_zero empty)]
    · rw [if_neg signed, BitVec.getLsbD_ofNat, bits]
      rw [Bool.eq_false_iff.mpr signed]
      by_cases inside : j < w <;> simp [inside, small]

/-- The bits of the mask of a field. -/
theorem getLsbD_fieldMask (p w : Nat) {j : Nat} (small : j < 32) :
    (BitVec.ofNat 32 ((2 ^ w - 1) * 2 ^ p)).getLsbD j = decide (p ≤ j ∧ j < p + w) := by
  rw [BitVec.getLsbD_ofNat, Nat.testBit_mul_two_pow, Nat.testBit_two_pow_sub_one, Bool.eq_iff_iff]
  simp only [Bool.and_eq_true, decide_eq_true_eq]
  omega

theorem bfiW_eq (a b d : Word) : bfiW a b d = wordOf fun i =>
    if (fieldOf b).1 ≤ i ∧ i < (fieldOf b).1 + (fieldOf b).2 then a.getLsbD (i - (fieldOf b).1) else d.getLsbD i := by
  rcases field : fieldOf b with ⟨p, w⟩
  refine eq_wordOf fun j small => ?_
  rw [bfiW, field]
  dsimp only
  rw [BitVec.getLsbD_or, BitVec.getLsbD_and, BitVec.getLsbD_and, BitVec.getLsbD_not, getLsbD_fieldMask p w small, BitVec.getLsbD_shiftLeft]
  by_cases inside : p ≤ j ∧ j < p + w
  · simp [inside, small]
  · simp [inside, small]

end Sys2Proof.Machine
end

section
/-! PROOF. The integer instructions (05): each delivers what the statements say, by the law of the shape of its meaning and the values of its
words. -/

namespace Sys2Proof.Machine

/-! ### Shapes of a meaning -/

theorem Delivers.congr {i : Instr} {o o' : State → Env → Out} (h : Delivers i o) (same : ∀ s e, o s e = o' s e) : Delivers i o' :=
  (funext fun s => funext (same s) : o = o') ▸ h

/-- A meaning that is `alu`, of an instruction whose last use is its destination. -/
theorem delivers_words {i : Instr} {d : Opnd} {n : Nat} {u : Use} {f g : Env → Nat → List Word × Word}
    (hu : i.uses.getLast? = some u) (hx : ∀ s, exec i s = run i s fun e s => e.alu s (f e)) (ho : u.o = d) (hn : u.n = n)
    (hfg : ∀ e k, f e k = g e k) : Delivers i fun _ e => e.result d n (g e) :=
  (delivers_alu (f := fun _ e => f e) u hu ho hn hx fun _ _ => rfl).congr fun _ e => by rw [funext (hfg e)]

/-- A meaning that is `alu` of one word without flags. -/
theorem delivers_word {i : Instr} {d : Opnd} {u : Use} {f g : Env → Nat → Word}
    (hu : i.uses.getLast? = some u) (hx : ∀ s, exec i s = run i s fun e s => e.alu1 s (f e)) (ho : u.o = d) (hn : u.n = 1)
    (hfg : ∀ e k, f e k = g e k) : Delivers i fun _ e => e.result1 d (g e) :=
  (delivers_alu1 (f := fun _ e => f e) u hu ho hn hx fun _ _ => rfl).congr fun _ e => by rw [funext (hfg e)]

/-- A meaning that is `alu` of a pair without flags. -/
theorem delivers_pair {i : Instr} {d : Opnd} {u : Use} {f : Env → Nat → List Word × Word} {g : Env → Nat → DWord}
    (hu : i.uses.getLast? = some u) (hx : ∀ s, exec i s = run i s fun e s => e.alu s (f e)) (ho : u.o = d) (hn : u.n = 2)
    (hfg : ∀ e k, f e k = (dwords (g e k), 0#32)) : Delivers i fun _ e => e.result2 d (g e) :=
  (delivers_words hu hx ho hn hfg).congr fun _ e => e.result_pair d (g e)

/-- A meaning that writes one word in the active lanes that pass a test (05:R119). -/
theorem delivers_select {i : Instr} {d : Opnd} {u : Use} {x : Bool} {n : BitVec 3} {f : Env → Nat → Word}
    (hu : i.uses.getLast? = some u) (hx : ∀ s, exec i s = run i s fun e s => e.select s x n (f e)) (ho : u.o = d) :
    Delivers i fun _ e => { dst := some (d, 1), lanes := e.lanes.filter (e.selTest x n), vals := fun k => [f e k] } := by
  intro s e ready
  have last : e.uses.getLast? = some u := by rw [Env.uses, (env?_spec ready.env).instr, hu]
  have done : e.select (e.awake s) x n (f e) = .done (e.deliver (e.awake s)
      { dst := some (d, 1), lanes := e.lanes.filter (e.selTest x n), vals := fun k => [f e k] }) := by
    simp only [Env.select, last, ho, Env.deliver, Env.flags_zero]
    rfl
  exact ⟨_, (hx s).trans (run_done ready.env ready.goes done),
    e.effect ready _ (e.lanes_nodup.filter _) (fun k hk => e.lanes_lt k (List.mem_of_mem_filter hk)) (fun h => by cases h)⟩

/-! ### Exact results (05:R111) -/

@[simp] theorem wrap32_intOf (u : Bool) (w : Word) : wrap32 (intOf u w) = w := by
  cases u
  · exact BitVec.ofInt_toInt
  · exact (BitVec.ofNat_toNat 32 w).trans (BitVec.setWidth_eq w)

/-- A choice between two words is the choice between their integers. -/
theorem wrap32_ite (c : Prop) [Decidable c] (u : Bool) (x y : Word) : wrap32 (if c then intOf u x else intOf u y) = if c then x else y := by
  rw [apply_ite wrap32, wrap32_intOf, wrap32_intOf]

/-- Settles O1: an exact result clamped or wrapped is what `deliver32` says, a high word is a quotient, and a choice of integers one of words. -/
theorem integerArithmetic : Obligations.IntegerArithmetic := by
  unfold Obligations.IntegerArithmetic
  intro p u d a b
  refine ⟨?add, ?sub, ?mul, ?mulhi, ?mad, ?madhi, ?min, ?max⟩
  case add => exact delivers_words List.getLast?_concat (fun _ => rfl) rfl rfl fun e _ => intDeliver_deliver32 e.sat u _
  case sub => exact delivers_words List.getLast?_concat (fun _ => rfl) rfl rfl fun e _ => intDeliver_deliver32 e.sat u _
  case mul => exact delivers_words List.getLast?_concat (fun _ => rfl) rfl rfl fun e _ => intDeliver_deliver32 e.sat u _
  case mulhi => exact delivers_word List.getLast?_concat (fun _ => rfl) rfl rfl fun _ _ => rfl
  case mad => exact delivers_words List.getLast?_concat (fun _ => rfl) rfl rfl fun e _ => intDeliver_deliver32 e.sat u _
  case madhi => exact delivers_word List.getLast?_concat (fun _ => rfl) rfl rfl fun _ _ => rfl
  case min => exact delivers_word List.getLast?_concat (fun _ => rfl) rfl rfl fun _ _ => wrap32_ite _ u _ _
  case max => exact delivers_word List.getLast?_concat (fun _ => rfl) rfl rfl fun _ _ => wrap32_ite _ u _ _

/-! ### Signs and addresses (05:R112, R113) -/

theorem dwords_dword (lo hi : Word) : dwords (dword lo hi) = [lo, hi] := by
  rw [dwords, dword, BitVec.extractLsb'_append_eq_right, BitVec.extractLsb'_append_eq_left]

/-- The magnitude as `abs` computes it. -/
theorem natAbs_eq_ite (x : Int) : (if x < 0 then -x else x) = x.natAbs := by
  split <;> omega

/-- Settles O2: a negation or magnitude is exact before its clamp, and `lea` adds a pair's words to those of its extended operand. -/
theorem signAndAddress : Obligations.SignAndAddress := by
  unfold Obligations.SignAndAddress
  refine ⟨fun p d a => ⟨?neg, ?negPair, ?abs, ?absPair⟩, fun p d a x => ?leaSigned, fun p d a x => ?leaUnsigned, fun p d a x => ?leaPair,
    fun p d a i => ?leaImm⟩
  case neg => exact delivers_words rfl (fun _ => rfl) rfl rfl fun e _ => intDeliver_deliver32 e.sat false _
  case negPair => exact delivers_words rfl (fun _ => rfl) rfl rfl fun e _ => intDeliver_deliver64 e.sat _
  case abs =>
    exact delivers_words rfl (fun _ => rfl) rfl rfl fun e k =>
      (intDeliver_deliver32 e.sat false _).trans (congrArg _ (natAbs_eq_ite _))
  case absPair =>
    exact delivers_words rfl (fun _ => rfl) rfl rfl fun e k => (intDeliver_deliver64 e.sat _).trans (congrArg _ (natAbs_eq_ite _))
  case leaSigned => exact delivers_pair rfl (fun _ => rfl) rfl rfl fun _ _ => rfl
  case leaUnsigned => exact delivers_pair rfl (fun _ => rfl) rfl rfl fun _ _ => rfl
  case leaPair => exact delivers_pair rfl (fun _ => rfl) rfl rfl fun _ _ => rfl
  case leaImm => exact delivers_pair rfl (fun _ => rfl) rfl rfl fun _ _ => rfl

/-! ### Shifts, logic, counts and fields (05:R114 to R117) -/

/-- Settles O3: the shifts by the laws of a shift by a whole word; the others compute what the statement says. -/
theorem shiftsAndLogic : Obligations.ShiftsAndLogic := by
  unfold Obligations.ShiftsAndLogic
  intro p d a b
  refine ⟨?shl, ?shr, ?sra, ?rotl, ?and, ?or, ?xor, ?andn, ?not⟩
  case shl => exact delivers_word List.getLast?_concat (fun _ => rfl) rfl rfl fun _ _ => shlW_eq _ _
  case shr => exact delivers_word List.getLast?_concat (fun _ => rfl) rfl rfl fun _ _ => shrW_eq _ _
  case sra => exact delivers_word List.getLast?_concat (fun _ => rfl) rfl rfl fun _ _ => sraW_eq _ _
  case rotl => exact delivers_word List.getLast?_concat (fun _ => rfl) rfl rfl fun _ _ => rfl
  case and => exact delivers_word List.getLast?_concat (fun _ => rfl) rfl rfl fun _ _ => rfl
  case or => exact delivers_word List.getLast?_concat (fun _ => rfl) rfl rfl fun _ _ => rfl
  case xor => exact delivers_word List.getLast?_concat (fun _ => rfl) rfl rfl fun _ _ => rfl
  case andn => exact delivers_word List.getLast?_concat (fun _ => rfl) rfl rfl fun _ _ => rfl
  case not => exact delivers_word rfl (fun _ => rfl) rfl rfl fun _ _ => rfl

/-- Settles O4: each count and field by the law of its word. -/
theorem bitFields : Obligations.BitFields := by
  unfold Obligations.BitFields
  intro p d a b
  refine ⟨?clz, ?ctz, ?popc, ?brev, ?bfx, ?bfi⟩
  case clz => exact delivers_word rfl (fun _ => rfl) rfl rfl fun _ _ => clzW_eq _
  case ctz => exact delivers_word rfl (fun _ => rfl) rfl rfl fun _ _ => ctzW_eq _
  case popc => exact delivers_word rfl (fun _ => rfl) rfl rfl fun _ _ => popcW_eq _
  case brev => exact delivers_word rfl (fun _ => rfl) rfl rfl fun _ _ => brevW_eq _
  case bfx => exact delivers_word rfl (fun _ => rfl) rfl rfl fun _ _ => bfxW_eq _ _
  case bfi => exact delivers_word rfl (fun _ => rfl) rfl rfl fun _ _ => bfiW_eq _ _ _

/-! ### Compare, select, move (05:R118 to R120) -/

/-- Settles O5: a predicate, the lanes that pass a test, and the words of an operand or of an immediate. -/
theorem compareSelectMove : Obligations.CompareSelectMove := by
  unfold Obligations.CompareSelectMove
  refine ⟨fun p u c n a b => ?cmp, fun p d a x n => ?sel, fun p d x n i => ?selImm, fun p d a => ?mov, fun p d a => ?movPair,
    fun p d i => ?li, fun p d i => ?liPair⟩
  case cmp => exact delivers_pred0 fun _ => rfl
  case sel => exact delivers_select rfl (fun _ => rfl) rfl
  case selImm => exact delivers_select rfl (fun _ => rfl) rfl
  case mov => exact delivers_word rfl (fun _ => rfl) rfl rfl fun _ _ => rfl
  case movPair =>
    exact delivers_pair rfl (fun _ => rfl) rfl rfl fun e k => congrArg (·, 0#32) (dwords_dword (e.val 0 0 k) (e.val 0 1 k)).symm
  case li => exact delivers_word rfl (fun _ => rfl) rfl rfl fun _ _ => (BitVec.setWidth_eq_extractLsb' (by decide)).symm
  case liPair => exact delivers_pair rfl (fun _ => rfl) rfl rfl fun _ _ => rfl

/-! ### Conversions and bytes (05:R121 to R126) -/

/-- A clamp between two bounds. -/
theorem clamp_eq {lo hi : Int} (x : Int) (ordered : lo ≤ hi) :
    clamp lo hi x = (max lo (min hi x), if lo ≤ x ∧ x ≤ hi then 0#32 else fSAT) := by
  unfold clamp
  split
  · next below => rw [min_eq_right (by omega), max_eq_left below.le, if_neg (by omega)]
  · split
    · next above => rw [min_eq_left above.le, max_eq_right ordered, if_neg (by omega)]
    · rw [min_eq_right (by omega), max_eq_right (by omega), if_pos (by omega)]

/-- The range of the signed integers that `req` delivers. -/
theorem intRange_req (w : Bool) :
    intRange true (if w then 4 else 8) = ((if w then -8 else -128 : Int), (if w then 7 else 127 : Int)) := by
  cases w <;> rfl

/-- Settles O6: `req` clamps to the range of its type and `dot4` as 05:R111; the others compute what the statement says. -/
theorem conversionsAndBytes : Obligations.ConversionsAndBytes := by
  unfold Obligations.ConversionsAndBytes
  refine ⟨fun p pk d a t sc => ?cvt, fun p w d a b => ?req, fun p d a b => ?pack4, fun p q d a => ?unpack4, fun p n d a b => ?dot4⟩
  case cvt => exact delivers_words rfl (fun _ => rfl) rfl rfl fun _ _ => rfl
  case req =>
    refine delivers_words rfl (fun _ => rfl) rfl rfl fun e k => ?_
    have ordered : (if w then -8 else -128 : Int) ≤ (if w then 7 else 127 : Int) := by cases w <;> decide
    simp only [reqW, intRange_req, clamp_eq _ ordered]
    rfl
  case pack4 => exact delivers_words rfl (fun _ => rfl) rfl rfl fun _ _ => rfl
  case unpack4 => exact delivers_words rfl (fun _ => rfl) rfl rfl fun _ _ => rfl
  case dot4 => exact delivers_words rfl (fun _ => rfl) rfl rfl fun e _ => intDeliver_deliver32 e.sat false _

end Sys2Proof.Machine
end

section
/-! PROOF. The floating-point and special instructions (06:R130 to R137): each delivers what the statements say, by the law of the shape of its
meaning. -/

namespace Sys2Proof.Machine

/-- Settles O7: the meaning is the exact operation, rounded once, in every active lane. -/
theorem floatArithmetic : Obligations.FloatArithmetic := by
  unfold Obligations.FloatArithmetic
  intro p d a b
  refine ⟨?fadd, ?fsub, ?fmul, ?ffma⟩
  case fadd => exact delivers_words List.getLast?_concat (fun _ => rfl) rfl rfl fun _ _ => rfl
  case fsub => exact delivers_words List.getLast?_concat (fun _ => rfl) rfl rfl fun _ _ => rfl
  case fmul => exact delivers_words List.getLast?_concat (fun _ => rfl) rfl rfl fun _ _ => rfl
  case ffma => exact delivers_words List.getLast?_concat (fun _ => rfl) rfl rfl fun _ _ => rfl

/-- Settles O8: patterns and sign changes are words with flags; a comparison sets its predicate and flags, a class its predicate alone. -/
theorem floatSelectCompare : Obligations.FloatSelectCompare := by
  unfold Obligations.FloatSelectCompare
  refine ⟨fun p d a b => ⟨?fmin, ?fmax⟩, fun p t d a => ⟨?fabs, ?fneg⟩, fun p c n a b => ?fcmp, fun p y n a b => ?fcls⟩
  case fmin => exact delivers_words List.getLast?_concat (fun _ => rfl) rfl rfl fun _ _ => rfl
  case fmax => exact delivers_words List.getLast?_concat (fun _ => rfl) rfl rfl fun _ _ => rfl
  case fabs => exact delivers_words rfl (fun _ => rfl) rfl rfl fun _ _ => rfl
  case fneg => exact delivers_words rfl (fun _ => rfl) rfl rfl fun _ _ => rfl
  case fcmp => exact delivers_pred fun _ => rfl
  case fcls => exact delivers_pred0 fun _ => rfl

/-- What a special function of the word A delivers, for an instruction whose last use is its destination (06:R135). -/
theorem delivers_special {i : Instr} {d : Opnd} {u : Use} {f : Env → Word → Nat × Word} (hu : i.uses.getLast? = some u)
    (hx : ∀ s, exec i s = run i s fun e s => e.special s (f e)) (ho : u.o = d) (hn : u.n = 1) :
    Delivers i fun _ e => e.special1 d (f e) :=
  delivers_words (f := fun e k => ([BitVec.ofNat 32 (f e (e.word 0 k)).1], (f e (e.word 0 k)).2)) hu hx ho hn fun _ _ => rfl

/-- Settles O9: each instruction is its function of A in every active lane; `rcp` and `sqrt` round in the mode in force. -/
theorem specialFunctions : Obligations.SpecialFunctions := by
  unfold Obligations.SpecialFunctions
  intro p d a
  refine ⟨?rcp, ?rsq, ?sqrt, ?exp2, ?log2, ?sin, ?cos, ?tanh⟩
  case rcp => exact delivers_special (f := fun e w => rcpFn (e.mode .rne) (Fmt.f32.decode w.toNat)) rfl (fun _ => rfl) rfl rfl
  case rsq => exact delivers_special (f := fun _ => rsqFn) rfl (fun _ => rfl) rfl rfl
  case sqrt => exact delivers_special (f := fun e w => sqrtFn (e.mode .rne) (Fmt.f32.decode w.toNat)) rfl (fun _ => rfl) rfl rfl
  case exp2 => exact delivers_special (f := fun _ => exp2Fn) rfl (fun _ => rfl) rfl rfl
  case log2 => exact delivers_special (f := fun _ => log2Fn) rfl (fun _ => rfl) rfl rfl
  case sin => exact delivers_special (f := fun _ => sinFn) rfl (fun _ => rfl) rfl rfl
  case cos => exact delivers_special (f := fun _ => cosFn) rfl (fun _ => rfl) rfl rfl
  case tanh => exact delivers_special (f := fun _ => tanhFn) rfl (fun _ => rfl) rfl rfl

end Sys2Proof.Machine
end

section
/-! PROOF. Shuffles, votes, broadcasts, reductions and scans (06:R141 to R147), with and without active lanes. -/

namespace Sys2Proof.Machine

/-! ### Shapes of a meaning under a condition -/

/-- A meaning that, where a condition holds, is `alu` of an instruction whose last use is its destination. -/
theorem deliversTo_words {i : Instr} {ok : State → Env → Prop} {d : Opnd} {n : Nat} {u : Use} {b : Env → State → Res}
    {f : Env → Nat → List Word × Word} (hu : i.uses.getLast? = some u) (hx : ∀ s, exec i s = run i s b) (ho : u.o = d) (hn : u.n = n)
    (hb : ∀ s e, ok s e → ∀ t, b e t = e.alu t (f e)) : DeliversTo i ok (fun _ s => s) fun _ e => e.result d n (f e) := by
  refine deliversTo_of_done hx (fun s e spec holds => ?_) (fun _ _ ready _ => ready) (fun _ _ => .inl rfl) fun _ _ long => by cases long
  have last : e.uses.getLast? = some u := by rw [Env.uses, spec.instr, hu]
  rw [hb s e holds, Env.alu_eq last, ho, hn]

/-- One word without flags. -/
theorem Env.result_word (e : Env) (d : Opnd) (f : Nat → Word) : e.result d 1 (fun k => ([f k], 0#32)) = e.result1 d f := by
  have quiet : e.lanes.foldl (fun (x : Word) _ => x ||| 0#32) 0#32 = 0#32 := by simp
  simp only [Env.result, Env.result1, quiet]

/-- A meaning that, where a condition holds, consumes its sources, sets flags and writes nothing. -/
theorem deliversTo_flags {i : Instr} {ok : State → Env → Prop} {w : Word} {b : Env → State → Res} (hx : ∀ s, exec i s = run i s b)
    (hb : ∀ s e, ok s e → ∀ t, b e t = .done (e.flags (e.settle t e.act true) w)) :
    DeliversTo i ok (fun _ s => s) fun _ _ => { flags := w } :=
  deliversTo_of_done hx (fun s e _ holds => hb s e holds _) (fun _ _ ready _ => ready) (fun _ _ => .inr rfl) fun _ _ long => by cases long

/-- Without active lanes nothing is consumed. -/
theorem Env.settle_of_act_zero {e : Env} (idle : e.act = 0#64) (t : State) : e.settle t e.act true = t := by
  rw [Env.settle_eq, if_pos idle]

/-! ### Shuffles, votes, broadcasts -/

theorem exec_bcast (p : Pfx) (d : Opnd) (a : S1) (n : BitVec 8) (s : State) : exec (.bcast p d a n) s = run (.bcast p d a n) s fun e s =>
    if e.act.getLsbD n.toNat then e.alu1 s fun _ => e.word 0 n.toNat else .done (e.settle s e.act true) := rfl

/-- Settles O10: a shuffle, a ballot and a broadcast are words in every active lane, a vote a predicate; a broadcast from a lane that is not active
only consumes its sources. -/
theorem lanesTogether : Obligations.LanesTogether := by
  unfold Obligations.LanesTogether
  refine ⟨fun p d a b => ⟨?idx, ?up, ?down, ?xor⟩, fun p m n x k => ?vote, fun p d x k => ?ballot, fun p d a n => ?bcast, fun p d a n => ?absent,
    fun p d a => ?nib⟩
  case idx => exact delivers_word rfl (fun _ => rfl) rfl rfl fun _ _ => rfl
  case up => exact delivers_word rfl (fun _ => rfl) rfl rfl fun _ _ => rfl
  case down => exact delivers_word rfl (fun _ => rfl) rfl rfl fun _ _ => rfl
  case xor => exact delivers_word rfl (fun _ => rfl) rfl rfl fun _ _ => rfl
  case vote => exact delivers_pred0 fun _ => rfl
  case ballot => exact delivers_pair rfl (fun _ => rfl) rfl rfl fun _ _ => rfl
  case bcast =>
    simp only [← Env.result_word]
    exact deliversTo_words rfl (exec_bcast p d a n) rfl rfl fun _ _ active _ => if_pos active
  case absent =>
    refine deliversTo_flags (exec_bcast p d a n) fun _ e inactive t => ?_
    rw [Env.flags_zero]
    exact if_neg (by simp [inactive])
  case nib => exact delivers_word rfl (fun _ => rfl) rfl rfl fun _ _ => rfl

/-! ### A reduction to an s register without active lanes (06:R146) -/

theorem Env.ctx?_awake {e : Env} {s : State} {c : Ctx} (ctx : s.ctx? e.x = some c) : (e.awake s).ctx? e.x = some (c.wake c.path) := by
  rw [Env.awake, State.ctx?_updCtx, if_pos rfl, ctx, Option.map_some]

/-- An instruction that issues, changes its context but for its place, and advances: beside that only places change. -/
theorem Env.finish_moves_of_does {i : Instr} {s t : State} {e : Env} {F : Ctx → Ctx} {Q : Nat → Nat → List QEnt → List QEnt}
    {C : Nat → Nat → Word → Word} (ready : Ready i s e) (does : Does e.x F Q C (e.awake s) t) (keeps : ∀ c, (F c).place = c.place) :
    Moves e.x e.c.path s (e.awake s) ∧ Moves e.x e.c.path t (e.finish t) := by
  obtain ⟨c, ctx, path, calm⟩ := (Env.Base.of_ready ready).ctx
  have after : t.ctx? e.x = some (F (c.wake c.path)) := by rw [does.ctx?, if_pos rfl, Env.ctx?_awake ctx, Option.map_some]
  obtain ⟨lanes, stands⟩ : (F (c.wake c.path)).lanes = (c.wake c.path).lanes ∧ (F (c.wake c.path)).path = c.path := Prod.mk.inj (keeps _)
  refine ⟨State.wake_moves s e.x _ fun d hd => ?_, e.finish_moves_at t after (stands.trans path) (env?_spec ready.env).path ?_ ?_⟩
  · rw [ctx] at hd; cases hd; exact path
  · rw [← path]
    unfold Ctx.alert
    rw [lanes]
    exact c.wake_alert c.path
  · rw [← path]
    refine calm.imp_right (Or.imp_right fun still => ?_)
    unfold Ctx.calm
    rw [lanes]
    exact Ctx.calm_wake still c.path

/-- What a reduction without active lanes writes: the identity, to an s register. -/
def Env.emptyRed (e : Env) (s : State) (d : Opnd) (w : Word) : State :=
  match d with
  | .s _ => s.writeReg e.x d 1 [0] (some 0) fun _ => [w]
  | _ => s

theorem exec_red (p : Pfx) (t : BitVec 2) (o : BitVec 3) (d : Opnd) (a : S1) (s : State) :
    exec (.red p t o d a) s = run (.red p t o d a) s fun e s =>
      if e.act = 0#64 then .done (e.flags (e.emptyRed s d (redIdentity t o)) fEMPTY)
      else e.alu s fun _ => ([(e.fold t o e.width).1], (e.fold t o e.width).2) := rfl

theorem exec_scan (p : Pfx) (t : BitVec 2) (x : Bool) (o : BitVec 3) (d : Opnd) (a : S1) (s : State) :
    exec (.scan p t x o d a) s = run (.scan p t x o d a) s fun e s =>
      if e.act = 0#64 then .done (e.flags s fEMPTY)
      else e.alu s fun k => ([(e.fold t o (if x then k else k + 1)).1], (e.fold t o (if x then k else k + 1)).2) := rfl

/-- The context after a reduction without active lanes to an s register: EMPTY is set, and the register holds the identity. -/
def emptyRedCtx (b : Fin 48) (w : Word) (c : Ctx) : Ctx := flagCtx fEMPTY (writeS b.val 1 0 (fun _ => [w]) c)

theorem emptyRedCtx_s (b : Fin 48) (w : Word) (c : Ctx) (r : Nat) :
    (emptyRedCtx b w c).s.get? r = if r = b.val then some ⟨w, false, false⟩ else c.s.get? r := Assoc.get?_put c.s b.val r ⟨w, false, false⟩

theorem Env.emptyRed_does (e : Env) (s : State) (b : Fin 48) (w : Word) :
    Does e.x (emptyRedCtx b w) (fun _ _ q => q) (fun _ _ v => v) s (e.flags (e.emptyRed s (.s b) w) fEMPTY) :=
  (State.writeReg_does s e.x (.s b) 1 [0] (some 0) (fun _ => [w]) (List.nodup_singleton 0)).trans (e.flags_does _ fEMPTY)

/-- 06:R146: only the s register and EMPTY change. -/
theorem red_emptyRed {p : Pfx} {t : BitVec 2} {o : BitVec 3} {b : Fin 48} {a : S1} {s : State} {e : Env}
    (ready : Ready (.red p t o (.s b) a) s e) (idle : e.act = 0#64) : ∃ u, exec (.red p t o (.s b) a) s = .next u ∧
      (∀ r, u.sreg e.x r = if r = b.val then some ⟨redIdentity t o, false, false⟩ else s.sreg e.x r) ∧
      (∀ r n, u.vreg e.x r n = s.vreg e.x r n) ∧ u.gst e.x = (s.gst e.x).map (· ||| fEMPTY) ∧ u.mem = s.mem := by
  have does := e.emptyRed_does (e.awake s) b (redIdentity t o)
  obtain ⟨woken, moved⟩ := e.finish_moves_of_does ready does fun _ => rfl
  generalize written : e.flags (e.emptyRed (e.awake s) (.s b) (redIdentity t o)) fEMPTY = v at does moved
  obtain ⟨c, here, -⟩ := (Env.Base.of_ready ready).ctx
  have awake := Env.ctx?_awake here
  have ctx : v.ctx? e.x = some (emptyRedCtx b (redIdentity t o) (c.wake c.path)) := by rw [does.ctx?, if_pos rfl, awake, Option.map_some]
  refine ⟨e.finish v, (exec_red p t o (.s b) a s).trans (run_done ready.env ready.goes ?_), fun r => ?_, fun r n => ?_, ?_, ?_⟩
  · exact (if_pos idle).trans (congrArg Res.done written)
  · rw [moved.sreg, ← woken.sreg, State.sreg, State.sreg, ctx, awake]
    exact emptyRedCtx_s b _ _ r
  · rw [moved.vreg, ← woken.vreg, State.vreg, State.vreg, ctx, awake]
    rfl
  · rw [moved.gst, ← woken.gst, State.gst, State.gst, ctx, awake]
    rfl
  · obtain ⟨f, only, -⟩ := does
    rw [moved.mem, only.mem, woken.mem]

/-- Settles O11: with active lanes both are words in every active lane; without, nothing is consumed, and an s register takes the identity. -/
theorem reduceAndScan : Obligations.ReduceAndScan := by
  unfold Obligations.ReduceAndScan
  refine ⟨fun p t o d a => ?red, fun p t x o d a => ?scan, fun p t x o d a => ?scanEmpty, fun p t o b a => ?redEmpty,
    fun p t o b a s e ready idle => red_emptyRed ready idle⟩
  case red => exact deliversTo_words rfl (exec_red p t o d a) rfl rfl fun _ _ active _ => if_neg active
  case scan => exact deliversTo_words rfl (exec_scan p t x o d a) rfl rfl fun _ _ active _ => if_neg active
  case scanEmpty =>
    refine deliversTo_flags (exec_scan p t x o d a) fun _ e idle u => ?_
    rw [Env.settle_of_act_zero idle]
    exact if_pos idle
  case redEmpty =>
    refine deliversTo_flags (exec_red p t o (.v b) a) fun _ e idle u => ?_
    rw [Env.settle_of_act_zero idle]
    exact if_pos idle

end Sys2Proof.Machine
end

section
/-! PROOF. `rng` (06:R138, R139, 03:R79): the counters of its threads may as well advance before the draw is delivered. -/

namespace Sys2Proof.Machine

/-! ### Changes that commute -/

/-- Each of the two entries goes before the first key above its own. -/
theorem Assoc.put_comm {α : Type} (t : Assoc α) {k j : Nat} (x y : α) (apart : k ≠ j) : (t.put k x).put j y = (t.put j y).put k x := by
  induction t with
  | nil => grind [Assoc.put]
  | cons p t ih => grind [Assoc.put]

theorem Assoc.upd_comm {α : Type} (t : Assoc α) (k j : Nat) {f h : α → α} (comm : ∀ x, f (h x) = h (f x)) :
    (t.upd k h).upd j f = (t.upd j f).upd k h := by
  by_cases same : k = j
  · subst same
    rw [Assoc.upd_upd_self, Assoc.upd_upd_self, funext comm]
  · unfold Assoc.upd
    cases here : t.get? k <;> cases there : t.get? j <;>
      simp only [here, there, Assoc.get?_put_ne _ _ same, Assoc.get?_put_ne _ _ (Ne.symm same)]
    exact t.put_comm _ _ same

/-- A gang with a change of one of its threads. -/
def Gang.updThread (k : Nat) (f : Thread → Thread) (g : Gang) : Gang := { g with threads := g.threads.upd k f }

theorem Gang.updThread_comm (k j : Nat) {f h : Thread → Thread} (comm : ∀ t, f (h t) = h (f t)) (g : Gang) :
    (g.updThread k h).updThread j f = (g.updThread j f).updThread k h :=
  congrArg (fun t => { g with threads := t }) (g.threads.upd_comm k j comm)

theorem Gang.updCtx_updThread (a : Bool) (F : Ctx → Ctx) (k : Nat) (f : Thread → Thread) (g : Gang) :
    (g.updThread k f).updCtx a F = (g.updCtx a F).updThread k f := by
  cases a <;> rfl

theorem Gang.hashWrites_updThread (a : Bool) (ws : List Word) (k : Nat) (f : Thread → Thread) (g : Gang) :
    Env.hashWrites (g.updThread k f) a ws = (Env.hashWrites g a ws).updThread k f := by
  unfold Env.hashWrites Gang.updThread
  cases a with
  | true => rfl
  | false => cases spin : g.spin <;> simp only [spin]

theorem Gang.popLanes_updThread (qs : List Nat) (ls : List Nat) (k : Nat) (f : Thread → Thread) (g : Gang) :
    qs.foldl (fun g q => Env.popLanes g q 1 ls) (g.updThread k f) = (qs.foldl (fun g q => Env.popLanes g q 1 ls) g).updThread k f :=
  List.foldl_hom (Gang.updThread k f) fun _ _ => rfl

namespace State

theorem updThread_eq (s : State) (n k : Nat) (f : Thread → Thread) : s.updThread n k f = s.updGang n (Gang.updThread k f) := rfl

/-- A change of a gang that does not look at its threads commutes with one of a thread. -/
theorem updGang_updThread (s : State) (n k : Nat) {f : Thread → Thread} {h : Gang → Gang}
    (comm : ∀ g, h (g.updThread k f) = (h g).updThread k f) : (s.updThread n k f).updGang n h = (s.updGang n h).updThread n k f := by
  rw [updThread_eq, updThread_eq, updGang_updGang, updGang_updGang, funext comm]

theorem updThread_comm (s : State) (n k j : Nat) {f h : Thread → Thread} (comm : ∀ t, f (h t) = h (f t)) :
    (s.updThread n k h).updThread n j f = (s.updThread n j f).updThread n k h :=
  s.updGang_updThread n k (Gang.updThread_comm k j comm)

theorem updCtx_updThread (s : State) (x : Site) (F : Ctx → Ctx) (k : Nat) (f : Thread → Thread) :
    (s.updThread x.gang k f).updCtx x F = (s.updCtx x F).updThread x.gang k f :=
  s.updGang_updThread x.gang k (Gang.updCtx_updThread x.access F k f)

theorem settle_updThread (e : Env) (s : State) (m : Mask) (all : Bool) (k : Nat) (f : Thread → Thread) :
    e.settle (s.updThread e.x.gang k f) m all = (e.settle s m all).updThread e.x.gang k f := by
  rw [Env.settle_eq, Env.settle_eq]
  split
  · rfl
  · dsimp only
    rw [updCtx_updThread]
    split
    · rfl
    · exact updGang_updThread _ _ k (Gang.popLanes_updThread e.popList (lanesOf m) k f)

/-- A write of a destination does not look at threads but for the capsule registers that it writes. -/
theorem writeReg_updThread (s : State) (x : Site) (o : Opnd) (n : Nat) (lanes : List Nat) (nib : Option Nat) (vals : Nat → List Word) (k : Nat)
    {f : Thread → Thread} (keeps : ∀ (t : Thread) b w, f { t with c := t.c.putD b w 0#32 } = { f t with c := (f t).c.putD b w 0#32 }) :
    (s.updThread x.gang k f).writeReg x o n lanes nib vals = (s.writeReg x o n lanes nib vals).updThread x.gang k f := by
  cases o with
  | v r => exact s.updGang_updThread _ k fun g => by rw [Gang.hashWrites_updThread, Gang.updCtx_updThread]
  | s r =>
    cases nib with
    | none => rfl
    | some m =>
      simp only [writeReg]
      split
      · rfl
      · exact s.updGang_updThread _ k fun g => by rw [Gang.hashWrites_updThread, Gang.updCtx_updThread]
  | c r => exact List.foldl_hom (fun s : State => s.updThread x.gang k f) fun t j => t.updThread_comm _ k j fun u => (keeps u _ _).symm
  | q r => exact s.updGang_updThread _ k fun _ => rfl

end State

/-! ### The draw -/

/-- A thread whose counter has advanced. -/
def Thread.drawn (t : Thread) : Thread := { t with rngc := t.rngc + 1#64 }

/-- The threads of the active lanes have their counters advanced. -/
def Env.draws (e : Env) (s : State) : State := e.lanes.foldl (fun s k => s.updThread e.x.gang k Thread.drawn) s

theorem Env.Base.draws {e : Env} {s : State} (base : e.Base s) : e.Base (e.draws s) :=
  base.foldl e.lanes _ fun _ k base => base.updThread e.x.gang k Thread.drawn

/-- A word is delivered after the counters have advanced as before. -/
theorem Env.deliver_draws (e : Env) (s : State) (d : Opnd) (f : Nat → Word) :
    e.deliver (e.awake (e.draws s)) (e.result1 d f) = e.draws ((e.settle (e.awake s) e.act true).writeReg e.x d 1 e.lanes e.nib fun k => [f k]) := by
  rw [Env.deliver]
  simp only [Env.result1, Env.putDst, Env.putPred, Env.flags_zero, Bool.false_eq_true, if_false]
  refine (List.foldl_hom (fun s => (e.settle (e.awake s) e.act true).writeReg e.x d 1 e.lanes e.nib fun k => [f k]) fun t k => ?_).symm
  rw [Env.awake, Env.awake, State.updCtx_updThread, State.settle_updThread, State.writeReg_updThread _ _ _ _ _ _ _ _ fun _ _ _ => rfl]

theorem Ctx.seen_of_sound {c : Ctx} (sound : c.spoiled = []) (n k : Nat) (own : DWord) : c.seen n k own = own := by
  rw [Ctx.seen, sound]
  rfl

namespace State

theorem idnSeen_of_sound {s : State} {x : Site} (k : Nat) (sound : ∀ c, s.ctx? x = some c → c.spoiled = []) :
    s.idnSeen x k = s.idn x.gang k x.access := by
  unfold idnSeen
  cases ctx : s.ctx? x with
  | none => rfl
  | some c => exact Ctx.seen_of_sound (sound c ctx) _ _ _

/-- The identity of a thread is that of its gang and group. -/
theorem idn_updCtx (s : State) (x : Site) (F : Ctx → Ctx) (n k : Nat) (a : Bool) : (s.updCtx x F).idn n k a = s.idn n k a := by
  unfold idn updCtx group?
  rw [gang?_updGang', updGang_groups]
  by_cases here : n = x.gang
  · rw [if_pos here]
    cases s.gang? n with
    | none => rfl
    | some g => cases x.access <;> rfl
  · rw [if_neg here]

theorem idnSeen_awake (e : Env) (s : State) (k : Nat) : (e.awake s).idnSeen e.x k = s.idnSeen e.x k := by
  unfold idnSeen
  rw [Env.awake, idn_updCtx, ctx?_updCtx, if_pos rfl]
  cases s.ctx? e.x <;> rfl

end State

theorem exec_rng (p : Pfx) (f : Bool) (d : Opnd) (s : State) : exec (.rng p f d) s = run (.rng p f d) s fun e s =>
    .done (e.draws (e.writeDst (e.settle s e.act true) fun k => [rngWord f (e.drawOf s k)])) := rfl

/-- The word of a lane without a thread is that of a draw of zero. -/
theorem rngWord_drawOf (e : Env) (s : State) (f : Bool) (k : Nat) : rngWord f (e.drawOf (e.awake s) k) =
    if (e.g.threads.get? k).isNone then rngWord f 0#64
    else rngWord f (rngmix (e.c.seen 0x0B k e.l.seed ^^^ kidOf e.l.ordered (s.idnSeen e.x k) (((e.g.threads.get? k).map (·.clin)).getD 0#96))
      (((e.g.threads.get? k).map (·.rngc)).getD 0#64)) := by
  unfold Env.drawOf
  rw [State.idnSeen_awake]
  cases e.g.threads.get? k with
  | none => simp only [Option.isNone_none, if_true]
  | some t => simp only [Option.isNone_some, Bool.false_eq_true, if_false, Option.map_some, Option.getD_some]

/-- Settles O12: the advance of the counters commutes with the delivery, and the draw reads the state before. -/
theorem randomNumbers : Obligations.RandomNumbers := by
  unfold Obligations.RandomNumbers
  refine ⟨fun c n k own sound => Ctx.seen_of_sound sound n k own, fun s x k sound => State.idnSeen_of_sound k sound, fun p f d => ?_⟩
  refine deliversTo_at (exec_rng p f d) (fun s e ready spec _ => ?_) (fun _ _ ready _ => (Env.Base.of_ready ready).draws)
    (fun _ _ => .inl rfl) fun _ _ long => by cases long
  have last : e.uses.getLast? = some (.dst d 1) := by rw [Env.uses, spec.instr]; rfl
  refine congrArg Res.done (Eq.trans ?_ (e.deliver_draws s d _).symm)
  simp only [Env.writeDst, last, rngWord_drawOf]
  rfl

end Sys2Proof.Machine
end

section
/-! PROOF. Instructions that answer where their context continues, and instructions without operands (07:R153, R163, R164): their effect up to
where contexts stand. -/

namespace Sys2Proof.Machine

/-! ### Effects up to where contexts stand -/

theorem Moves.symm {x : Site} {m : Mask} {s t : State} (a : Moves x m s t) : Moves x m t s where
  mem := a.mem.symm
  home := a.home.symm
  launches := a.launches.symm
  ctl := a.ctl.symm
  dev := a.dev.symm
  turn := a.turn.symm
  cur := a.cur.symm
  draws := a.draws.symm
  ops := a.ops.symm
  nextId := a.nextId.symm
  recs := a.recs.symm
  permits := a.permits.symm
  heldLines := a.heldLines.symm
  reads := a.reads.symm
  gangs k := (a.gangs k).symm
  groups k := (a.groups k).symm
  ctxs y := (a.ctxs y).symm
  threads k n := (a.threads k n).symm
  queues g q n := (a.queues g q n).symm
  lanes y n := (a.lanes y n).symm
  outside y n h := (a.outside y n h).symm

theorem Rest.moves {x : Site} {s t u : State} {c : Ctx} (rest : Rest x s t) (ctx : s.ctx? x = some c) (m : Moves x c.path t u) : Rest x s u where
  mem := m.mem.trans rest.mem
  home := m.home.trans rest.home
  launches := m.launches.trans rest.launches
  ctl := m.ctl.trans rest.ctl
  dev := m.dev.trans rest.dev
  turn := m.turn.trans rest.turn
  cur := m.cur.trans rest.cur
  draws := m.draws.trans rest.draws
  recs := m.recs.trans rest.recs
  permits := m.permits.trans rest.permits
  heldLines := m.heldLines.trans rest.heldLines
  reads := m.reads.trans rest.reads
  gangs k := (m.gangs k).trans (rest.gangs k)
  groups k := (m.groups k).trans (rest.groups k)
  threads k n := (congrArg (Option.map Thread.still) (m.threads k n)).trans (rest.threads k n)
  lanes y n := (m.lanes y n).trans (rest.lanes y n)
  outside y n h := by
    refine (m.outside y n (h.imp_right ?_)).trans (rest.outside y n h)
    rintro ⟨d, same, off⟩
    obtain rfl : c = d := Option.some.inj (ctx.symm.trans same)
    exact off

/-- An effect does not see where the context stands afterwards. -/
theorem Effect.moves {e : Env} {s t u : State} {o : Out} {c : Ctx} (effect : Effect e s t o) (ctx : s.ctx? e.x = some c)
    (m : Moves e.x c.path t u) : Effect e s u o where
  vregs y r n small := (m.vreg y r n).trans (effect.vregs y r n small)
  sregs y r := (m.sreg y r).trans (effect.sregs y r)
  preds y n := (m.pred y n).trans (effect.preds y n)
  status y := (m.gst y).trans (effect.status y)
  cregs g n r := (m.creg g n r).trans (effect.cregs g n r)
  queues g q n := (m.queues g q n).trans (effect.queues g q n)
  ops := by rw [m.ops]; exact effect.ops
  sb y n := (m.sbCount y n).trans (effect.sb y n)
  rest := effect.rest.moves ctx m

/-- An instruction that delivers, and after that only moves its context, has the effect of its delivery. -/
theorem Env.effect_of_moves {i : Instr} {s u : State} {e : Env} {c : Ctx} (ready : Ready i s e) (ctx : s.ctx? e.x = some c) (o : Out)
    (lanes : o.lanes.Nodup) (small : ∀ n ∈ o.lanes, n < 64) (short : o.long = false)
    (m : Moves e.x c.path (e.deliver (e.awake s) o) u) : Effect e s u o := by
  have path : c.path = e.c.path := by
    obtain ⟨d, here, path, -⟩ := (Env.Base.of_ready ready).ctx
    rw [Option.some.inj (ctx.symm.trans here), path]
  have finished := (e.finish_moves_of_does ready (e.deliver_does (e.awake s) o lanes) (deliverCtx_place e o)).2
  exact (e.effect ready o lanes small fun long => by rw [short] at long; cases long).moves ctx (path ▸ finished.symm.trans (path ▸ m))

/-- An instruction without operands that only moves its context has no effect. -/
theorem Env.effect_of_no_uses {s u : State} {e : Env} {c : Ctx} (uses : e.uses = []) (ctx : s.ctx? e.x = some c) (m : Moves e.x c.path s u) :
    Effect e s u {} where
  vregs y r n _ := by simp [m.vreg, Out.writesV, Env.killsV, uses]
  sregs y r := by simp [m.sreg, Out.writesS, Env.killsS, uses]
  preds y n := m.pred y n
  status y := by simp [m.gst, Env.pz, Env.deadIn, uses]
  cregs g n r := by simp [m.creg, Out.writesC]
  queues g q n := by simp [m.queues, Env.pops, uses, Out.pushes]
  ops := by simpa using m.ops
  sb y n := by simp [m.sbCount]
  rest := m.rest ctx

/-! ### `yield`, `nop` and `wait` (07:R163, R164) -/

/-- An instruction without operands whose meaning changes no more than the order of a pipe. -/
theorem Env.effect_idle {i : Instr} {s t : State} {e : Env} (ready : Ready i s e) (uses : i.uses = [])
    (same : t.ctx? e.x = (e.awake s).ctx? e.x) (m : ∀ k, Moves e.x k (e.awake s) t) : Effect e s (e.finish t) {} := by
  have spec := env?_spec ready.env
  obtain ⟨c, ctx, path, calm⟩ := (Env.Base.of_ready ready).ctx
  have wakes : Moves e.x c.path s (e.awake s) :=
    s.wake_moves e.x c.path fun d hd => by rw [Option.some.inj (ctx.symm.trans hd)]
  have finished : Moves e.x c.path t (e.finish t) :=
    e.finish_moves_at t (same.trans (Env.ctx?_awake ctx)) rfl (path ▸ spec.path) (c.wake_alert c.path)
      (calm.imp_right (.imp_right fun calm => Ctx.calm_wake calm c.path))
  exact e.effect_of_no_uses (by rw [Env.uses, spec.instr, uses]) ctx ((wakes.trans (m _)).trans finished)

theorem exec_yld (p : Pfx) (s : State) :
    exec (.yld p) s = run (.yld p) s fun e s => .done (s.goLast e.pipe (e.g.level e.x.access) e.x.gang) := rfl
theorem exec_nop (p : Pfx) (s : State) : exec (.nop p) s = run (.nop p) s fun _ s => .done s := rfl
theorem exec_wait (p : Pfx) (all fence : Bool) (sb : BitVec 4) (s : State) :
    exec (.wait p all fence sb) s = run (.wait p all fence sb) s fun e s => if e.waitMet s fence sb then .done s else .hold s := rfl

/-- The wake of the path meets no condition of a `wait`. -/
theorem Env.waitMet_awake (e : Env) (s : State) (fence : Bool) (sb : BitVec 4) : e.waitMet (e.awake s) fence sb = e.waitMet s fence sb := rfl

/-- Settles O16: none of them has operands, and each changes no more than the order of its pipe. -/
theorem waitsPass : Obligations.WaitsPass := by
  unfold Obligations.WaitsPass
  refine ⟨fun p s e ready => ?yield, fun p s e ready => ?nop, fun p all fence sb s e ready met => ?wait⟩
  case yield =>
    exact ⟨_, (exec_yld p s).trans (run_done ready.env ready.goes rfl),
      e.effect_idle ready rfl rfl fun k => State.goLast_moves _ e.x k _ _ _⟩
  case nop => exact ⟨_, (exec_nop p s).trans (run_done ready.env ready.goes rfl), e.effect_idle ready rfl rfl fun k => .refl e.x k _⟩
  case wait =>
    have done : (if e.waitMet (e.awake s) fence sb then Res.done (e.awake s) else .hold (e.awake s)) = .done (e.awake s) :=
      if_pos ((e.waitMet_awake s fence sb).trans met)
    exact ⟨_, (exec_wait p all fence sb s).trans (run_done ready.env ready.goes done), e.effect_idle ready rfl rfl fun k => .refl e.x k _⟩

end Sys2Proof.Machine
end

section
/-! PROOF. Transfers of control (07:R148 to R154): the lanes that go stand at their targets, the others after the instruction. -/

namespace Sys2Proof.Machine

/-! ### What a transfer does before its clause ends -/

/-- The registers of a transfer: its sources are consumed, a link register holds the address after it. -/
def Env.linked (e : Env) (s : State) : Option Opnd → State
  | none => e.settle s e.act true
  | some d => (e.settle s e.act true).writeReg e.x d 2 e.lanes e.nib fun _ => dwords e.next

/-- What a transfer delivers. -/
def Env.linkOut (e : Env) : Option Opnd → Out
  | none => {}
  | some d => e.result2 d fun _ => e.next

theorem Env.deliver_linkOut (e : Env) (s : State) (link : Option Opnd) : e.deliver s (e.linkOut link) = e.linked s link := by
  cases link <;> simp only [Env.deliver, Env.linkOut, Env.linked, Env.result2, Env.putDst, Env.putPred, Env.flags_zero] <;> rfl

theorem Env.settle_updGroup (e : Env) (s : State) (k : Nat) (f : Group → Group) (m : Mask) (all : Bool) :
    e.settle (s.updGroup k f) m all = (e.settle s m all).updGroup k f := by
  rw [Env.settle_eq, Env.settle_eq]
  split
  · rfl
  · dsimp only; split <;> rfl

theorem State.writeReg_updGroup (s : State) (k : Nat) (f : Group → Group) (x : Site) (o : Opnd) (n : Nat) (lanes : List Nat)
    (nib : Option Nat) (vals : Nat → List Word) :
    (s.updGroup k f).writeReg x o n lanes nib vals = (s.writeReg x o n lanes nib vals).updGroup k f := by
  cases o with
  | v r => rfl
  | s r =>
    cases nib with
    | none => rfl
    | some j => simp only [State.writeReg]; split <;> rfl
  | c r => exact List.foldl_hom (fun s : State => s.updGroup k f) fun _ _ => rfl
  | q r => rfl

theorem Env.linked_updGroup (e : Env) (s : State) (k : Nat) (f : Group → Group) (link : Option Opnd) :
    e.linked (s.updGroup k f) link = (e.linked s link).updGroup k f := by
  cases link with
  | none => exact e.settle_updGroup s k f _ _
  | some d => simp only [Env.linked, e.settle_updGroup, State.writeReg_updGroup]

/-- The event of a transfer is counted, where it has one (17:R404). -/
def Env.counts (e : Env) (event : Nat) (s : State) : State := if event = 0 then s else s.pmEvent e.x.gang e.x.access event 1

/-- A count before the registers of a transfer change is as well made after. -/
theorem Env.linked_counts (e : Env) (event : Nat) (s : State) (link : Option Opnd) (m : Mask) :
    Moves e.x m (e.linked s link) (e.linked (e.counts event s) link) ∧
      (e.linked (e.counts event s) link).ctx? e.x = (e.linked s link).ctx? e.x := by
  unfold Env.counts State.pmEvent
  split
  · exact ⟨.refl _ _ _, rfl⟩
  · split
    · exact ⟨.refl _ _ _, rfl⟩
    · rw [e.linked_updGroup]
      exact ⟨State.event_moves _ e.x m _ event 1 _, rfl⟩

/-- A change of a gang that keeps its contexts, threads and queues moves nothing. -/
theorem Moves.updGang (s : State) (x : Site) (m : Mask) (k : Nat) (f : Gang → Gang) (ctx : ∀ g a, (f g).ctx? a = g.ctx? a)
    (still : ∀ g, (f g).still = g.still) (threads : ∀ g, (f g).threads = g.threads) (queues : ∀ g, (f g).queues = g.queues) :
    Moves x m s (s.updGang k f) ∧ ∀ y, (s.updGang k f).ctx? y = s.ctx? y := by
  have same (y : Site) : (s.updGang k f).ctx? y = s.ctx? y := by
    rw [State.ctx?_updGang]
    split
    · next here => rw [State.ctx?_of_gang?, here]; cases s.gang? k <;> simp [ctx]
    · rfl
  refine ⟨?_, same⟩
  constructor
  case gangs =>
    intro j
    rw [State.gang?_updGang']
    split
    · rw [Option.map_map]; congr 1; funext g; exact still g
    · rfl
  case threads =>
    intro j n
    rw [State.thread?_of_gang?, State.thread?_of_gang?, State.gang?_updGang']
    split
    · cases s.gang? j <;> simp [threads]
    · rfl
  case queues =>
    intro j q n
    rw [State.queue_of_gang?, State.queue_of_gang?, State.gang?_updGang']
    split
    · cases s.gang? j <;> simp [queues]
    · rfl
  case ctxs => intro y; rw [same]
  case lanes => intro y n; unfold State.lane?; rw [same]
  case outside => intro y n _; unfold State.lane?; rw [same]
  all_goals intros; rfl

/-- A gang with another state of its spin detector. -/
def Gang.setSpin (p : Option Spin) (g : Gang) : Gang := { g with spin := p }

/-- The spin detector changes nothing but itself and the agenda (01:R31). -/
theorem Env.spin_cases (e : Env) (s : State) (t : Option DWord) :
    e.spin s t = s ∨ ∃ p, e.spin s t = s.updGang e.x.gang (Gang.setSpin p) ∨
      ∃ l, e.spin s t = (s.updGang e.x.gang (Gang.setSpin p)).setAgenda l := by
  unfold Env.spin
  split
  · exact .inl rfl
  · cases t with
    | some t =>
      dsimp only
      split
      · cases e.g.spin with
        | some p =>
          dsimp only
          split
          · split
            · exact .inr ⟨_, .inr ⟨_, rfl⟩⟩
            · exact .inr ⟨_, .inl rfl⟩
          · exact .inr ⟨_, .inl rfl⟩
        | none => exact .inr ⟨_, .inl rfl⟩
      · cases e.g.spin with
        | some p => dsimp only; split; exacts [.inl rfl, .inr ⟨_, .inl rfl⟩]
        | none => exact .inl rfl
    | none =>
      cases e.g.spin with
      | some p => dsimp only; split; exacts [.inr ⟨_, .inl rfl⟩, .inl rfl]
      | none => exact .inl rfl

theorem Env.spin_moves (e : Env) (s : State) (t : Option DWord) (m : Mask) :
    Moves e.x m s (e.spin s t) ∧ (e.spin s t).ctx? e.x = s.ctx? e.x := by
  have set (p : Option Spin) := Moves.updGang s e.x m e.x.gang (Gang.setSpin p) (fun _ _ => rfl) (fun _ => rfl) (fun _ => rfl) fun _ => rfl
  rcases e.spin_cases s t with h | ⟨p, h | ⟨l, h⟩⟩
  · rw [h]; exact ⟨.refl _ _ _, rfl⟩
  · rw [h]; exact ⟨(set p).1, (set p).2 _⟩
  · rw [h]; exact ⟨(set p).1.trans (.setAgenda _ _ _ l), (set p).2 _⟩

/-- A transfer before its clause ends. -/
def Env.sent (e : Env) (s : State) (link : Option Opnd) (event : Nat) (taken : Option DWord) : State :=
  e.spin (e.linked (e.counts event s) link) taken

theorem Env.sent_moves (e : Env) (s : State) (link : Option Opnd) (event : Nat) (taken : Option DWord) (m : Mask) :
    Moves e.x m (e.linked s link) (e.sent s link event taken) ∧ (e.sent s link event taken).ctx? e.x = (e.linked s link).ctx? e.x := by
  obtain ⟨counted, same⟩ := e.linked_counts event s link m
  obtain ⟨spun, same'⟩ := e.spin_moves (e.linked (e.counts event s) link) taken m
  exact ⟨counted.trans spun, same'.trans same⟩

/-! ### Where the lanes of the path go on -/

/-- Where a lane of the path goes on: at its target, or after the instruction. -/
def Env.goal (e : Env) (t : Nat → DWord) (go : Nat → Bool) (n : Nat) : DWord := if e.act.getLsbD n && go n then t n else e.next

/-- The lanes of the path stand at their places, at a clause position. -/
def Ctx.standAt (pc : Nat → DWord) (c : Ctx) : Ctx :=
  { (c.setPc c.path 0#64) with lanes := c.lanes.mapVal fun n l => if c.path.getLsbD n then { l with pc := pc n } else l }

/-- The lanes of the path that stand elsewhere leave it (07:R152). -/
def Ctx.keepAt (pc : DWord) (c : Ctx) : Ctx := c.leavePath (c.laneMask fun n l => c.path.getLsbD n && decide (l.pc ≠ pc))

theorem Ctx.standAt_lanes (pc : Nat → DWord) (c : Ctx) :
    (c.standAt pc).lanes = c.lanes.mapVal fun n l => if c.path.getLsbD n then { l with pc := pc n } else l := rfl

theorem Ctx.standAt_get? (pc : Nat → DWord) (c : Ctx) (n : Nat) :
    (c.standAt pc).lanes.get? n = (c.lanes.get? n).map fun l => if c.path.getLsbD n then { l with pc := pc n } else l := by
  rw [Ctx.standAt_lanes, Assoc.get?_mapVal]

/-- A transfer whose targets are good. -/
theorem Env.transfer_of_good {e : Env} {t : Nat → DWord} {go : Nat → Bool}
    (good : ∀ n, e.act.getLsbD n = true → go n = true → (t n).toNat % 4 = 0 ∧ canonical (t n) = true) (s : State) (link : Option Opnd)
    (event : Nat) : ∃ taken stay, e.transfer s t go link event =
      .moved (e.closeClause (e.sent s link event taken) (Ctx.standAt (e.goal t go)) (Ctx.keepAt stay)) := by
  have active {n : Nat} (here : n ∈ e.lanes.filter go) : (t n).toNat % 4 = 0 ∧ canonical (t n) = true :=
    good n (mem_lanesOf.1 (List.mem_of_mem_filter here)) (List.of_mem_filter here)
  have odd : (e.lanes.filter go).filter (fun n => decide ((t n).toNat % 4 ≠ 0)) = [] :=
    List.filter_eq_nil_iff.2 fun n here => by simp [(active here).1]
  have far : (e.lanes.filter go).filter (fun n => !canonical (t n)) = [] :=
    List.filter_eq_nil_iff.2 fun n here => by simp [(active here).2]
  have goal : (fun n => if (e.lanes.filter go).contains n then t n else e.next) = e.goal t go := by
    funext n
    unfold Env.goal
    congr 1
    simp [Env.lanes, mem_lanesOf]
  refine ⟨(e.lanes.filter go).head?.map t, match e.nib with | none => e.next | some n => e.goal t go n, ?_⟩
  unfold Env.transfer
  dsimp only
  rw [odd, far, ← goal]
  cases link <;> rfl

/-! ### The selection of the next path -/

theorem Ctx.stepBack_kept (c : Ctx) : c.stepBack.kept = c.kept := by unfold Ctx.stepBack; split <;> rfl

theorem Ctx.stepAside_kept (c : Ctx) : c.stepAside.kept = c.kept := by
  unfold Ctx.stepAside
  dsimp only
  split
  · exact (c.leavePath c.path).stepBack_kept
  · rfl

theorem Gang.selectPath_kept (g : Gang) (c : Ctx) : (g.selectPath c).kept = c.kept := by
  have back : (if c.stepAside.path = 0#64 then c.stepAside.stepBack else c.stepAside).kept = c.kept := by
    split
    · exact c.stepAside.stepBack_kept.trans c.stepAside_kept
    · exact c.stepAside_kept
  unfold Gang.selectPath
  extract_lets d e
  change e.kept = c.kept at back
  rw [← back]
  split
  · rfl
  · next able _ => cases able <;> rfl

/-- The selection of a path moves no lane. -/
theorem State.selectPath_stands (s : State) (x : Site) (m : Mask) : Moves x m s (s.selectPath x) :=
  Moves.updCtx s x m Gang.selectPath (fun g c _ _ => g.selectPath_kept c) fun g c _ _ n => by rw [g.selectPath_lanes]; exact ⟨rfl, fun _ => rfl⟩

/-- What follows the end of a clause leaves every lane where it stands. -/
theorem Env.issued_lane? (e : Env) (s : State) (n : Nat) : ((e.issued s).selectPath e.x).lane? e.x n = s.lane? e.x n :=
  ((e.issued_moves s 0#64).trans (State.selectPath_stands _ e.x 0#64)).outside e.x n (.inr BitVec.getLsbD_zero)

/-! ### The statement -/

/-- The context of an instruction at whose end no lane stops. -/
theorem Ready.ctx_of_atEase {i : Instr} {s : State} {e : Env} (ready : Ready i s e) (ease : e.atEase = true) :
    ∃ c, s.ctx? e.x = some c ∧ c.path = e.c.path ∧ c.calm c.path := by
  obtain ⟨c, v, r, ctx, seen⟩ := (env?_spec ready.env).ctx
  have calm : e.c.calm e.c.path := by
    simp only [Env.atEase, List.all_eq_true, Bool.and_eq_true, decide_eq_true_eq, Bool.not_eq_true', Bool.and_eq_false_imp] at ease
    exact ease
  rw [seen] at calm ⊢
  exact ⟨c, ctx, rfl, calm⟩

theorem Env.linkOut_lanes (e : Env) (link : Option Opnd) : (e.linkOut link).lanes.Nodup ∧ ∀ n ∈ (e.linkOut link).lanes, n < 64 := by
  cases link with
  | none => exact ⟨List.nodup_nil, fun _ none => nomatch none⟩
  | some d => exact ⟨e.lanes_nodup, e.lanes_lt⟩

/-- A clause that ends with the lanes of the path at places of their own. -/
theorem Env.closeClause_standAt (e : Env) (s : State) {c : Ctx} (ctx : s.ctx? e.x = some c) (calm : c.calm c.path) (pc : Nat → DWord) (stay : DWord) :
    Moves e.x c.path s (e.closeClause s (Ctx.standAt pc) (Ctx.keepAt stay)) ∧
    ∀ n l, c.path.getLsbD n = true → (e.closeClause s (Ctx.standAt pc) (Ctx.keepAt stay)).lane? e.x n = some l → l.pc = pc n := by
  obtain ⟨moves, after⟩ := e.closeClause_calm s c.path (Ctx.standAt pc) (Ctx.keepAt stay) (fun d here => by
    obtain rfl : c = d := Option.some.inj (ctx.symm.trans here)
    refine ⟨rfl, Ctx.calm_mapVal calm _ (c.standAt_lanes pc) (fun k l running => ?_) (fun k l => ?_), fun n => ⟨?_, fun off => ?_⟩⟩
    · split <;> exact running
    · split <;> rfl
    · rw [Ctx.standAt_get?]; cases c.lanes.get? n <;> simp only [Option.map_none, Option.map_some]; split <;> rfl
    · rw [Ctx.standAt_get?, off]; simp) (fun _ => rfl) fun _ => rfl
  refine ⟨moves, fun n l on lane => ?_⟩
  have lanes : (e.closeClause s (Ctx.standAt pc) (Ctx.keepAt stay)).lane? e.x n = (c.standAt pc).lanes.get? n := by
    rw [State.lane?, after c ctx]; split <;> rfl
  rw [lanes, Ctx.standAt_get?] at lane
  obtain ⟨k, -, rfl⟩ := Option.map_eq_some_iff.1 lane
  rw [if_pos on]

/-- An instruction whose meaning is a transfer. -/
theorem transfers_of_exec {i : Instr} {t : Env → Nat → DWord} {go : Env → Nat → Bool} {link : Option Opnd} {event : Nat}
    (exec_eq : ∀ s, exec i s = run i s fun e s => e.transfer s (t e) (go e) link event) : Transfers i t go link := by
  intro s e ready ease good
  obtain ⟨c, ctx, path, calm⟩ := ready.ctx_of_atEase ease
  obtain ⟨taken, stay, moved⟩ := Env.transfer_of_good good (e.awake s) link event
  obtain ⟨sent, sentCtx⟩ := e.sent_moves (e.awake s) link event taken c.path
  generalize e.sent _ link event taken = v at moved sent sentCtx
  have delivered : v.ctx? e.x = some (e.deliverCtx (e.linkOut link) (c.wake c.path)) := by
    rw [sentCtx, ← e.deliver_linkOut, (e.deliver_does _ _ (e.linkOut_lanes link).1).ctx?, if_pos rfl, Env.ctx?_awake ctx]; rfl
  obtain ⟨lanes, stands⟩ : (e.deliverCtx (e.linkOut link) (c.wake c.path)).lanes = (c.wake c.path).lanes ∧
      (e.deliverCtx (e.linkOut link) (c.wake c.path)).path = c.path := Prod.mk.inj (deliverCtx_place e _ _)
  obtain ⟨closed, places⟩ := e.closeClause_standAt v delivered (by
    rw [Ctx.calm, lanes, stands]; exact Ctx.calm_wake calm c.path) (e.goal (t e) (go e)) stay
  rw [stands] at closed places
  generalize e.closeClause v _ _ = w at moved closed places
  have moves : Moves e.x c.path (e.deliver (e.awake s) (e.linkOut link)) ((e.issued w).selectPath e.x) :=
    e.deliver_linkOut _ link ▸ ((sent.trans closed).trans (e.issued_moves w _)).trans (State.selectPath_stands _ _ _)
  have effect : Effect e s ((e.issued w).selectPath e.x) (e.linkOut link) :=
    e.effect_of_moves ready ctx _ (e.linkOut_lanes link).1 (e.linkOut_lanes link).2 (by cases link <;> rfl) moves
  refine ⟨_, (exec_eq s).trans (run_moved ready.env ready.goes moved), by cases link <;> exact effect, fun n on => ?_⟩
  have there := effect.rest.lanes e.x n
  rw [e.issued_lane?] at there ⊢
  cases here : w.lane? e.x n with
  | none => rw [here] at there; rw [Option.map_eq_none_iff.1 there.symm]; rfl
  | some l =>
    rw [here] at there
    obtain ⟨k, before, -⟩ := Option.map_eq_some_iff.1 there.symm
    rw [before, Option.map_some, places n l (path ▸ on) here]
    rfl

theorem exec_br (p : Pfx) (i : BitVec 8) (s : State) :
    exec (.br p i) s = run (.br p i) s fun e s => e.transfer s (fun _ => e.disp i) (fun _ => true) none := rfl
theorem exec_bk (p : Pfx) (m : BitVec 3) (x : Bool) (n : BitVec 3) (i : BitVec 8) (s : State) :
    exec (.bk p m x n i) s = run (.bk p m x n i) s fun e s =>
      e.transfer s (fun _ => e.disp i) (bkGo m (maskOf (e.lanes.filter (e.selTest x n))) e.act) none := rfl
theorem exec_bs (p : Pfx) (c : BitVec 3) (a : S1) (i : BitVec 8) (s : State) :
    exec (.bs p c a i) s = run (.bs p c a i) s fun e s =>
      e.transfer s (fun _ => e.disp i) (fun n => bsCond c (e.word 0 n).toInt) none := rfl
theorem exec_call (p : Pfx) (d : Opnd) (i : BitVec 8) (s : State) :
    exec (.call p d i) s = run (.call p d i) s fun e s => e.transfer s (fun _ => e.disp i) (fun _ => true) (some d) := rfl
theorem exec_ret (p : Pfx) (a : S1) (s : State) :
    exec (.ret p a) s = run (.ret p a) s fun e s => e.transfer s (e.pair 0) (fun _ => true) none 0x05 := rfl
theorem exec_jmpr (p : Pfx) (link : Option Opnd) (a : S1) (s : State) :
    exec (.jmpr p link a) s = run (.jmpr p link a) s fun e s => e.transfer s (e.pair 0) (fun _ => true) link 0x06 := rfl

/-- Settles O13: the meaning of each is the one transfer, with its targets, the lanes that go, and its link register. -/
theorem transfersOfControl : Obligations.TransfersOfControl := by
  unfold Obligations.TransfersOfControl
  exact ⟨fun p i => transfers_of_exec (exec_br p i), fun p m x n i => transfers_of_exec (exec_bk p m x n i),
    fun p c a i => transfers_of_exec (exec_bs p c a i), fun p d i => transfers_of_exec (exec_call p d i),
    fun p a => transfers_of_exec (exec_ret p a), fun p d a => transfers_of_exec (exec_jmpr p d a)⟩

end Sys2Proof.Machine
end

section
/-! PROOF. `exit` as the end of a trap (07:R155, 15:R360, 16:R440): a counterexample. -/

namespace Sys2Proof.Machine

/-- A trap that lane 0 raised with its first instruction and that its handler still runs. -/
def handledTrap : TrapRec :=
  { cause := 7, reason := 1, tok := false, x := 0#17, d1 := 0#32, d2 := 0#32, tra := 0x100004#64, lanes := 1#64, ret := 0x100004#64
    cur := none, skip := none, skipCur := none, resume := none, ports := [], act := 1#64 }

/-- The line of an anchor in state STALLED whose runner is the thread with the identity `idn`: its words 0 and 8 (15:R350, R351). -/
def stalledAnchor (idn : DWord) : List Byte :=
  leBytes 64 AncSt.stalled.code.toNat ++ leBytes 64 idn.toNat

/-- The placed gang in that trap, lane 0 alone in its path. Lane 1, ready outside it, is the owner of the anchor at 0x200000, which the entry of the
trap has marked STALLED (15:R360). -/
def trapStalls : State :=
  let s := ((State.reset.placeWord []).setCur (some ⟨0, false⟩)).updThread 0 1 fun t =>
    { t with link := { Link.zero with role := .owner, anc := 0x200000 } }
  let s := s.updCtx ⟨0, false⟩ fun c =>
    { (c.setWs 1#64 .trapped) with path := 1#64, tcg := 7#32, frame := some ⟨1#64, [], handledTrap, false⟩ }
  s.setMem (s.mem.sysWrite 0x200000 (stalledAnchor (s.idn 0 1 false)) false)

theorem trapStalls_env : (env? (.exit ⟨none, none⟩) trapStalls).isSome = true := by decide +kernel

/-- The environment of an `exit` with which lane 0 leaves its handler. -/
def exitEnv : Env := (env? (.exit ⟨none, none⟩) trapStalls).get trapStalls_env

theorem exitEnv_ready : Ready (.exit ⟨none, none⟩) trapStalls exitEnv :=
  ⟨(Option.some_get trapStalls_env).symm, by decide +kernel, by decide +kernel⟩

theorem exitEnv_holder : exitEnv.holder = none := by decide +kernel

/-- Lane 0 alone exits: it takes no item and contends for nothing. -/
theorem exitEnv_threads (n : Nat) (on : exitEnv.act.getLsbD n = true) (t : Thread) (thread : exitEnv.g.threads.get? n = some t) :
    t.item = .no ∧ t.link.role ≠ .contender := by
  have act : exitEnv.act = 1#64 := by decide +kernel
  have first : (exitEnv.g.threads.get? 0).all fun t => decide (t.item = .no ∧ t.link.role ≠ .contender) := by decide +kernel
  obtain rfl : n = 0 := by
    rw [act, BitVec.getLsbD_one] at on
    simpa using on
  rw [thread] at first
  simpa using first

/-- The anchor of lane 1 in memory, before and after the `exit`. -/
theorem trapStalls_anchor : (trapStalls.mem.anc0 0x200000).state = AncSt.stalled.code := by decide +kernel

theorem trapStalls_exits {u : State} (run : exec (.exit ⟨none, none⟩) trapStalls = .next u) :
    (u.mem.anc0 0x200000).state = AncSt.live.code := by
  have exits : (match exec (.exit ⟨none, none⟩) trapStalls with
    | .next u => decide ((u.mem.anc0 0x200000).state = AncSt.live.code)
    | _ => false) = true := by decide +kernel
  rw [run] at exits
  simpa using exits

/-- Refutes O14: an `exit` can change memory. Where it takes the last lane of a trap's path the trap ends (16:R440), and the anchors of the gang's
holders, STALLED since its entry, return to LIVE (15:R360). -/
theorem not_exitEndsLanes : ¬ Obligations.ExitEndsLanes := by
  unfold Obligations.ExitEndsLanes
  intro exits
  obtain ⟨u, run, -, kept, -⟩ := exits _ trapStalls exitEnv exitEnv_ready exitEnv_holder exitEnv_threads
  have live := trapStalls_exits run
  rw [kept, trapStalls_anchor] at live
  cases live

end Sys2Proof.Machine
end

section
/-! PROOF. `park` in a context that keeps a stroke (07:R157, 15:R358): a counterexample. -/

namespace Sys2Proof.Machine

/-- The placed gang, every lane of it enrolled in rejoin mask 0, in a context that keeps a stroke outside the stroke's clause. -/
def strokeKept : State :=
  ((State.reset.placeWord []).setCur (some ⟨0, false⟩)).updCtx ⟨0, false⟩ fun c =>
    { c with j := [(0, widthMask 16)], stroke := some ⟨0, 0x100000#64, [], []⟩ }

theorem strokeKept_env : (env? (.park ⟨none, none⟩ 0) strokeKept).isSome = true := by decide +kernel

/-- The environment of a `park` on that mask. -/
def parkEnv : Env := (env? (.park ⟨none, none⟩ 0) strokeKept).get strokeKept_env

theorem parkEnv_ready : Ready (.park ⟨none, none⟩ 0) strokeKept parkEnv :=
  ⟨(Option.some_get strokeKept_env).symm, by decide +kernel, by decide +kernel⟩

theorem parkEnv_atEase : parkEnv.atEase = true := by decide +kernel
theorem parkEnv_unheld : parkEnv.unheld = true := by decide +kernel

/-- The mask has all its lanes once they park: the statement's test of it releases lane 0. -/
theorem parkEnv_releases : ((strokeKept.updCtx parkEnv.x fun c =>
    (c.updLanes (parkEnv.act &&& c.jmask 0) fun l => { l with ws := .parked, held := some 0#3 }).testRejoin 0).lane? ⟨0, false⟩ 0).map (·.held) =
      some none := by decide +kernel

/-- The clause ends with the commit of the stroke to come, and lane 0 held. -/
theorem strokeKept_parks {t : State} (run : exec (.park ⟨none, none⟩ 0) strokeKept = .next t) :
    (t.lane? ⟨0, false⟩ 0).map (·.held) = some (some 0#3) := by
  have parks : (match exec (.park ⟨none, none⟩ 0) strokeKept with
    | .next t => decide ((t.lane? ⟨0, false⟩ 0).map (·.held) = some (some 0#3))
    | _ => false) = true := by decide +kernel
  rw [run] at parks
  simpa using parks

/-- Refutes O15: `park` does not test its mask where the context keeps a stroke. A clause that ends there has the model wait for the commit
(15:R358), without the test of 07:R157; the statement's hypotheses do not exclude a stroke that is kept outside its own clause. -/
theorem not_rejoinMasks : ¬ Obligations.RejoinMasks := by
  unfold Obligations.RejoinMasks
  rintro ⟨-, -, parks⟩
  obtain ⟨t, run, effect, -⟩ := parks _ _ strokeKept parkEnv parkEnv_ready parkEnv_atEase parkEnv_unheld
  have held : ∀ o : Option LaneSt, (o.map LaneSt.still).map (·.held) = o.map (·.held) := fun o => by cases o <;> rfl
  have same := congrArg (Option.map (·.held)) (effect.rest.lanes ⟨0, false⟩ 0)
  rw [held, held, strokeKept_parks run] at same
  exact absurd (same.trans parkEnv_releases) (by decide)

end Sys2Proof.Machine
end

section
/-! PROOF. The effect of an instruction whose meaning changes memory, home slices or keys beside its own gang: what it does to its gang decides
registers, queues and places. -/

namespace Sys2Proof.Machine

/-! ### One change of a gang, whatever happens beside it -/

/-- The gangs of `t` are those of `s` after one change of one. -/
def ChangesGang (x : Site) (F : Ctx → Ctx) (Q : Nat → Nat → List QEnt → List QEnt) (C : Nat → Nat → Word → Word) (s t : State) : Prop :=
  Does x F Q C s (s.setGangs t.gangs)

/-- No change of queues, and none of capsule registers. -/
def sameQueues (_ _ : Nat) (es : List QEnt) : List QEnt := es
def sameCregs (_ _ : Nat) (w : Word) : Word := w

section
variable {x : Site} {F F' : Ctx → Ctx} {Q Q' : Nat → Nat → List QEnt → List QEnt} {C C' : Nat → Nat → Word → Word} {s t u : State}

theorem Does.changesGang (h : Does x F Q C s t) : ChangesGang x F Q C s t := by
  obtain ⟨f, one, acts⟩ := h
  exact ⟨f, ⟨one.gang, rfl, rfl, rfl, rfl, rfl, rfl, rfl, rfl, rfl, rfl⟩, acts⟩

theorem ChangesGang.trans (h : ChangesGang x F Q C s t) (h' : ChangesGang x F' Q' C' t u) :
    ChangesGang x (fun c => F' (F c)) (fun k n es => Q' k n (Q k n es)) (fun n r w => C' n r (C n r w)) s u := by
  obtain ⟨f, one, acts⟩ := h
  obtain ⟨f', one', acts'⟩ := h'
  refine ⟨_, ⟨fun k => ?_, rfl, rfl, rfl, rfl, rfl, rfl, rfl, rfl, rfl, rfl⟩, acts.trans acts'⟩
  have first : t.gang? k = if k = x.gang then (s.gang? k).map f else s.gang? k := one.gang k
  have second : u.gang? k = if k = x.gang then (t.gang? k).map f' else t.gang? k := one'.gang k
  show u.gang? k = _
  rw [second, first]
  split
  · rw [Option.map_map]; rfl
  · rfl

theorem ChangesGang.of_gangs (x : Site) (same : t.gangs = s.gangs) : ChangesGang x (fun c => c) sameQueues sameCregs s t := by
  unfold ChangesGang
  rw [same]
  exact Does.refl x s

/-- What happens beside the gangs after the change is of no matter. -/
theorem ChangesGang.gangs (h : ChangesGang x F Q C s t) (same : u.gangs = t.gangs) : ChangesGang x F Q C s u := by
  unfold ChangesGang at h ⊢
  rwa [same]

/-- Two states hold the same contexts, queues and capsule registers, and gangs and threads alike. -/
structure SameGangs (s t : State) : Prop where
  ctxs : ∀ y, t.ctx? y = s.ctx? y
  cregs : ∀ g n r, t.creg g n r = s.creg g n r
  queues : ∀ g q n, t.queue g q n = s.queue g q n
  gangs : ∀ k, (t.gang? k).map Gang.still = (s.gang? k).map Gang.still
  threads : ∀ k n, (t.thread? k n).map Thread.still = (s.thread? k n).map Thread.still

/-- One change leads to one state of the gangs. -/
theorem ChangesGang.same (h : ChangesGang x F Q C s t) (h' : ChangesGang x F Q C s u) : SameGangs t u where
  ctxs y := (Does.ctx? h' y).trans (Does.ctx? h y).symm
  cregs g n r := (Does.creg h' g n r).trans (Does.creg h g n r).symm
  queues g q n := (Does.queue h' g q n).trans (Does.queue h g q n).symm
  gangs k := (Does.still h' k).trans (Does.still h k).symm
  threads k n := (Does.thread h' k n).trans (Does.thread h k n).symm

end

/-! ### What lies beside the gangs -/

/-- `t` has all of `s` beside gangs, long forms and keys, but for the counters of groups and the arbiters. -/
structure Beside (s t : State) : Prop where
  mem : t.mem = s.mem
  home : t.home = s.home
  launches : t.launches = s.launches
  ctl : t.ctl = s.ctl
  dev : t.dev.still = s.dev.still
  turn : t.turn = s.turn
  cur : t.cur = s.cur
  draws : t.draws = s.draws
  cores : t.cores = s.cores
  groups : ∀ k, (t.group? k).map Group.still = (s.group? k).map Group.still

theorem Beside.refl (s : State) : Beside s s := by constructor <;> intros <;> rfl

theorem Beside.trans {s t u : State} (h : Beside s t) (h' : Beside t u) : Beside s u where
  mem := h'.mem.trans h.mem
  home := h'.home.trans h.home
  launches := h'.launches.trans h.launches
  ctl := h'.ctl.trans h.ctl
  dev := h'.dev.trans h.dev
  turn := h'.turn.trans h.turn
  cur := h'.cur.trans h.cur
  draws := h'.draws.trans h.draws
  cores := h'.cores.trans h.cores
  groups k := (h'.groups k).trans (h.groups k)

theorem Does.beside {x : Site} {F : Ctx → Ctx} {Q : Nat → Nat → List QEnt → List QEnt} {C : Nat → Nat → Word → Word} {s t : State}
    (h : Does x F Q C s t) : Beside s t := by
  obtain ⟨f, one, -⟩ := h
  refine ⟨one.mem, one.home, one.launches, one.ctl, by rw [one.dev], one.turn, one.cur, one.draws, one.cores, fun k => ?_⟩
  unfold State.group?
  rw [one.groups]

/-! ### Effects -/

/-- The long form of a delivery enters flight under the next key; without one none does. -/
def Env.Enters (e : Env) (s t : State) (o : Out) : Prop :=
  if o.long = true ∧ e.act ≠ 0#64 then
    ∃ p, t.ops = s.ops.put s.nextId p ∧ p.i = e.i ∧ p.gang = e.x.gang ∧ p.access = e.x.access ∧ p.lanes = e.act ∧ p.left = o.left ∧
      p.fails = [] ∧ p.data = o.data
  else t.ops = s.ops

/-- A state with gangs as after an effect has it too, where all else is as before it. -/
theorem Effect.same {e : Env} {r t u : State} {o : Out} (effect : Effect e r t o) (gangs : SameGangs t u) (rest : Beside r u) (ops : e.Enters r u o) :
    Effect e r u o where
  vregs y n k small := by rw [State.vreg, gangs.ctxs]; exact effect.vregs y n k small
  sregs y n := by rw [State.sreg, gangs.ctxs]; exact effect.sregs y n
  preds y n := by rw [State.pred, gangs.ctxs]; exact effect.preds y n
  status y := by rw [State.gst, gangs.ctxs]; exact effect.status y
  cregs g n k := (gangs.cregs g n k).trans (effect.cregs g n k)
  queues g q n := (gangs.queues g q n).trans (effect.queues g q n)
  ops := ops
  sb y n := by rw [State.sbCount, gangs.ctxs]; exact effect.sb y n
  rest :=
    { mem := rest.mem, home := rest.home, launches := rest.launches, ctl := rest.ctl, dev := rest.dev, turn := rest.turn, cur := rest.cur
      draws := rest.draws, recs := by rw [rest.cores], permits := by rw [rest.cores], heldLines := by rw [rest.cores], reads := by rw [rest.cores]
      gangs := fun k => (gangs.gangs k).trans (effect.rest.gangs k)
      groups := rest.groups
      threads := fun k n => (gangs.threads k n).trans (effect.rest.threads k n)
      lanes := fun y n => by rw [State.lane?, gangs.ctxs]; exact effect.rest.lanes y n
      outside := fun y n away => by rw [State.lane?, gangs.ctxs]; exact effect.rest.outside y n away }

/-- What a delivery does to queues and to capsule registers. -/
def Env.deliverQueues (e : Env) (o : Out) (k n : Nat) (es : List QEnt) : List QEnt :=
  (match o.dst with | none => id | some (d, _) => writeQueue d o.lanes o.vals k n) (es.drop (if e.act.getLsbD n then e.popList.count k else 0))
def Out.deliverCregs (o : Out) (n r : Nat) (w : Word) : Word := (match o.dst with | none => id | some (d, _) => writeCreg d o.lanes o.vals n r) w

/-- An instruction that issues, changes the state to `r` outside registers, has its gang changed as by the delivery of `o`, and advances, has the
effect `o` on `r`. -/
theorem Env.effect_of_gangs {i : Instr} {s b r d : State} {e : Env} (spec : EnvSpec i s e) (base : e.Base r) (o : Out) (nodup : o.lanes.Nodup)
    (small : ∀ n ∈ o.lanes, n < 64) (form : o.long = true → e.i.lf ≠ none)
    (before : ChangesGang e.x (fun c => c) sameQueues sameCregs b (e.awake r))
    (changes : ChangesGang e.x (e.deliverCtx o) (e.deliverQueues o) o.deliverCregs b d) (beside : Beside r d) (enters : e.Enters r d o) :
    Effect e r (e.finish d) o := by
  obtain ⟨c, ctx, path, calm⟩ := base.ctx
  have delivered := before.trans (e.deliver_does (e.awake r) o nodup).changesGang
  have gangs : SameGangs (e.deliver (e.awake r) o) d := ChangesGang.same delivered changes
  have here : (e.deliver (e.awake r) o).ctx? e.x = some (e.deliverCtx o (c.wake c.path)) := by
    rw [(e.deliver_does (e.awake r) o nodup).ctx? e.x, if_pos rfl, Env.ctx?_awake ctx]; rfl
  have place := deliverCtx_place e o (c.wake c.path)
  simp only [Ctx.place, Prod.mk.injEq] at place
  obtain ⟨lanes, still⟩ := place
  have advances : ∀ t : State, t.ctx? e.x = some (e.deliverCtx o (c.wake c.path)) → Moves e.x c.path t (e.finish t) := fun t at_ =>
    e.finish_moves_at t at_ still (path ▸ spec.path) (by rw [Ctx.alert, lanes]; exact c.wake_alert c.path)
      (calm.imp_right (.imp_right fun calm => by rw [Ctx.calm, lanes]; exact Ctx.calm_wake calm c.path))
  exact (((e.effect_at spec base o nodup small form).moves ctx (advances _ here).symm).same gangs beside enters).moves ctx
    (advances d ((gangs.ctxs e.x).trans here))

end Sys2Proof.Machine
end

section
/-! PROOF. The checks of an instruction's lanes (09:R196, R197): they do not look at the context's wake, and change memory, event counters and free
values only. -/

namespace Sys2Proof.Machine

namespace State

/-! ### Translations and checks beside a change of a context -/

/-- The group whose counters an event reaches is that of the gang. -/
theorem pmEvent_updCtx (s : State) (x : Site) (F : Ctx → Ctx) (g : Nat) (a : Bool) (k w : Nat) :
    (s.updCtx x F).pmEvent g a k w = (s.pmEvent g a k w).updCtx x F := by
  unfold pmEvent
  have group : ((s.updCtx x F).gang? g).map (·.group) = (s.gang? g).map (·.group) := by
    rw [updCtx, gang?_updGang']
    split
    · rw [Option.map_map]
      congr 1
      funext q
      unfold Function.comp Gang.updCtx
      split <;> rfl
    · rfl
  cases here : s.gang? g with
  | none =>
    rw [here, Option.map_none, Option.map_eq_none_iff] at group
    rw [group]
  | some q =>
    rw [here, Option.map_some, Option.map_eq_some_iff] at group
    obtain ⟨q', here', same⟩ := group
    rw [here']
    show (s.updCtx x F).updGroup q'.group _ = _
    rw [same]
    rfl

theorem xlat_updCtx (s : State) (x y : Site) (F : Ctx → Ctx) (core owner : Nat) (kind : AccKind) (va : DWord) :
    (s.updCtx x F).xlat y core owner kind va = ((s.xlat y core owner kind va).1, (s.xlat y core owner kind va).2.updCtx x F) := by
  unfold xlat
  dsimp only
  rw [updCtx_mem]
  refine Prod.ext rfl ?_
  have memory : ∀ m, (s.updCtx x F).setMem m = (s.setMem m).updCtx x F := fun _ => rfl
  split <;> split <;> simp only [memory, pmEvent_updCtx]

theorem checkVa_updCtx (s : State) (x y : Site) (F : Ctx → Ctx) (core owner : Nat) (kind : AccKind) (n : Nat) (va : DWord) (hbm : Bool) :
    (s.updCtx x F).checkVa y core owner kind n va hbm =
      ((s.checkVa y core owner kind n va hbm).1, (s.checkVa y core owner kind n va hbm).2.updCtx x F) := by
  unfold checkVa
  split
  · rfl
  · rw [xlat_updCtx]
    rcases s.xlat y core owner kind va with ⟨f | t, u⟩
    · rfl
    · dsimp only
      rw [updCtx_dev]
      split
      · rfl
      · split
        · rfl
        · split
          · rfl
          · cases draw : (Config.freeWord u.draws).getLsbD 0 <;> simp only [peerRefuses, State.draw, updCtx_draws, draw] <;> rfl

/-- What translations' events, their results in memory and draws leave as it was, the checks of an access leave. -/
theorem checkVa_keeps {β : Type} (φ : State → β) (mem : ∀ s m, φ (s.setMem m) = φ s) (event : ∀ s g a k w, φ (pmEvent s g a k w) = φ s)
    (draw : ∀ s k, φ (setDraws s k) = φ s) (s : State) (x : Site) (core owner : Nat) (kind : AccKind) (n : Nat) (va : DWord) (hbm : Bool) :
    φ (s.checkVa x core owner kind n va hbm).2 = φ s := by
  have kept := xlat_keeps φ mem event s x core owner kind va
  revert kept
  unfold checkVa
  split
  · exact fun _ => rfl
  · rcases s.xlat x core owner kind va with ⟨f | t, u⟩
    · exact fun kept => kept
    · dsimp only
      intro kept
      split
      · exact kept
      · split
        · exact kept
        · split
          · exact kept
          · have drawn : φ u.peerRefuses.2 = φ s := (draw u _).trans kept
            revert drawn
            rcases u.peerRefuses with ⟨refuses | refuses, v⟩
            · exact fun drawn => drawn
            · exact fun drawn => drawn

/-- What passes is what the translation gives. -/
theorem checkVa_ok {s : State} {x : Site} {core owner : Nat} {kind : AccKind} {n : Nat} {va : DWord} {hbm : Bool} {t : Xlat}
    (ok : (s.checkVa x core owner kind n va hbm).1 = .ok t) : (s.xlat x core owner kind va).1 = .ok t := by
  revert ok
  unfold checkVa
  split
  · intro ok; cases ok
  · rcases s.xlat x core owner kind va with ⟨f | t', u⟩
    · intro ok; cases ok
    · dsimp only
      split
      · intro ok; cases ok
      · split
        · intro ok; cases ok; rfl
        · split
          · intro ok; cases ok
          · rcases u.peerRefuses with ⟨refuses | refuses, v⟩
            · intro ok; cases ok; rfl
            · intro ok; cases ok

/-- Asking for device memory makes no difference to an access of it. -/
theorem checkVa_device {s : State} {x : Site} {core owner : Nat} {kind : AccKind} {n : Nat} {va : DWord} {t : Xlat}
    (ok : (s.xlat x core owner kind va).1 = .ok t) (device : t.mt = 0#2) :
    s.checkVa x core owner kind n va true = s.checkVa x core owner kind n va := by
  unfold checkVa
  rcases translated : s.xlat x core owner kind va with ⟨f | t', u⟩
  · rfl
  · rw [translated] at ok
    obtain rfl := Except.ok.inj ok
    simp only [device, ne_eq, not_true_eq_false, and_false, if_false]

end State

namespace Env
variable (e : Env) (s : State) (kind : AccKind) (n : Nat) (va : Nat → DWord) (hbm : Bool)

/-- The checks of one more lane. -/
def checkNext (t : List (Nat × Except TrapRec Xlat) × State) (lane : Nat) : List (Nat × Except TrapRec Xlat) × State :=
  (t.1 ++ [(lane, (e.checkLane t.2 kind n lane (va lane) hbm).1)], (e.checkLane t.2 kind n lane (va lane) hbm).2)

theorem checkLanes_eq : e.checkLanes s kind n va hbm = e.lanes.foldl (e.checkNext kind n va hbm) ([], s) := rfl

theorem checkLane_awake (lane : Nat) (a : DWord) :
    e.checkLane (e.awake s) kind n lane a hbm = ((e.checkLane s kind n lane a hbm).1, e.awake (e.checkLane s kind n lane a hbm).2) := by
  unfold checkLane awake
  rw [State.checkVa_updCtx]
  rcases s.checkVa e.x e.core e.l.owner kind n a hbm with ⟨f | t, u⟩ <;> rfl

/-- The checks of a context's lanes do not look at its wake. -/
theorem checkLanes_awake : e.checkLanes (e.awake s) kind n va hbm = ((e.checkLanes s kind n va hbm).1, e.awake (e.checkLanes s kind n va hbm).2) := by
  rw [checkLanes_eq, checkLanes_eq]
  refine (List.foldl_hom (init := ([], s)) (fun t : List (Nat × Except TrapRec Xlat) × State => (t.1, e.awake t.2)) fun t lane => ?_)
  unfold checkNext
  rw [checkLane_awake]

theorem checkLane_keeps {β : Type} (φ : State → β) (mem : ∀ s m, φ (State.setMem s m) = φ s)
    (event : ∀ s g a k w, φ (State.pmEvent s g a k w) = φ s)
    (draw : ∀ s k, φ (State.setDraws s k) = φ s) (lane : Nat) (a : DWord) : φ (e.checkLane s kind n lane a hbm).2 = φ s := by
  have kept := State.checkVa_keeps φ mem event draw s e.x e.core e.l.owner kind n a hbm
  unfold checkLane
  split <;> next checked => rw [checked] at kept; exact kept

theorem checkLanes_keeps {β : Type} (φ : State → β) (mem : ∀ s m, φ (State.setMem s m) = φ s)
    (event : ∀ s g a k w, φ (State.pmEvent s g a k w) = φ s)
    (draw : ∀ s k, φ (State.setDraws s k) = φ s) : φ (e.checkLanes s kind n va hbm).2 = φ s := by
  rw [checkLanes_eq]
  refine List.foldlRecOn (motive := fun t : List (Nat × Except TrapRec Xlat) × State => φ t.2 = φ s) e.lanes _ rfl fun t kept lane _ => ?_
  exact (checkLane_keeps e t.2 kind n hbm φ mem event draw lane (va lane)).trans kept

theorem checkLanes_gangs : (e.checkLanes s kind n va hbm).2.gangs = s.gangs :=
  checkLanes_keeps e s kind n va hbm State.gangs (fun _ _ => rfl) State.pmEvent_gangs fun _ _ => rfl

/-- Later checks keep the answers of earlier ones. -/
theorem mem_checkLanes (ls : List Nat) {t : List (Nat × Except TrapRec Xlat) × State} {y : Nat × Except TrapRec Xlat} (on : y ∈ t.1) :
    y ∈ (ls.foldl (e.checkNext kind n va hbm) t).1 :=
  List.foldlRecOn (motive := fun t : List (Nat × Except TrapRec Xlat) × State => y ∈ t.1) ls _ on fun _ on _ _ => List.mem_append_left _ on

/-- Every active lane is checked, in rising order. -/
theorem checkLanes_lanes : (e.checkLanes s kind n va hbm).1.map Prod.fst = e.lanes := by
  have walk : ∀ (ls : List Nat) (t : List (Nat × Except TrapRec Xlat) × State),
      (ls.foldl (e.checkNext kind n va hbm) t).1.map Prod.fst = t.1.map Prod.fst ++ ls := by
    intro ls
    induction ls with
    | nil => simp
    | cons k ls ih => intro t; rw [List.foldl_cons, ih]; simp [checkNext]
  rw [checkLanes_eq, walk]
  rfl

end Env

/-! ### Lanes that all pass -/

/-- The lanes that pass. -/
def allPass (xs : List (Nat × Xlat)) : List (Nat × Except TrapRec Xlat) := xs.map fun p => (p.1, .ok p.2)

theorem failsOf_allPass (xs : List (Nat × Xlat)) : failsOf (allPass xs) = [] := by
  induction xs with
  | nil => rfl
  | cons p xs ih => exact ih

theorem passesOf_allPass (xs : List (Nat × Xlat)) : passesOf (allPass xs) = xs := by
  induction xs with
  | nil => rfl
  | cons p xs ih => exact congrArg (p :: ·) ih

theorem maskOf_lanes (e : Env) : maskOf e.lanes = e.act := by
  refine BitVec.eq_of_getLsbD_eq fun n small => ?_
  rw [getLsbD_maskOf, decide_eq_true small, Bool.true_and, Bool.eq_iff_iff, List.contains_iff_mem]
  exact mem_lanesOf

section
variable {e : Env} {s u : State} {kind : AccKind} {n : Nat} {va : Nat → DWord} {xs : List (Nat × Xlat)}

theorem Env.reaches_awake (reaches : e.reaches s u kind n va xs) : e.checkLanes (e.awake s) kind n va = (allPass xs, e.awake u) := by
  rw [Env.checkLanes_awake, show e.checkLanes s kind n va = _ from reaches]
  rfl

theorem Env.reaches_lanes (reaches : e.reaches s u kind n va xs) : xs.map Prod.fst = e.lanes := by
  have lanes := e.checkLanes_lanes s kind n va false
  rw [show e.checkLanes s kind n va = _ from reaches, List.map_map] at lanes
  exact lanes

theorem Env.reaches_mask (reaches : e.reaches s u kind n va xs) : maskOf (xs.map (·.1)) = e.act := by
  rw [show xs.map (·.1) = e.lanes from Env.reaches_lanes reaches, maskOf_lanes]

theorem Env.reaches_gangs (reaches : e.reaches s u kind n va xs) : u.gangs = s.gangs := by
  have gangs := e.checkLanes_gangs s kind n va false
  rwa [show e.checkLanes s kind n va = _ from reaches] at gangs

theorem Env.Base.reaches (base : e.Base s) (reaches : e.reaches s u kind n va xs) : e.Base u := base.of_gangs (Env.reaches_gangs reaches)

/-- The check of a lane that reaches device memory may ask for it. -/
theorem Env.checkLane_device {lane : Nat} {a : DWord} {t : Xlat} (ok : (e.checkLane s kind n lane a).1 = .ok t) (device : t.mt = 0#2) :
    e.checkLane s kind n lane a true = e.checkLane s kind n lane a := by
  have passed : (s.checkVa e.x e.core e.l.owner kind n a).1 = .ok t := by
    revert ok
    unfold Env.checkLane
    rcases s.checkVa e.x e.core e.l.owner kind n a with ⟨f | t', v⟩
    · intro ok; cases ok
    · intro ok; cases ok; rfl
  unfold Env.checkLane
  rw [State.checkVa_device (State.checkVa_ok passed) device]

/-- The checks of lanes that all reach device memory may ask for it. -/
theorem Env.checkLanes_device (reaches : e.reaches s u kind n va xs) (device : ∀ p ∈ xs, p.2.mt = 0#2) :
    e.checkLanes s kind n va true = e.checkLanes s kind n va := by
  have walk : ∀ (ls : List Nat) (t : List (Nat × Except TrapRec Xlat) × State),
      (∀ y ∈ (ls.foldl (e.checkNext kind n va false) t).1, ∃ x, y.2 = .ok x ∧ x.mt = 0#2) →
      ls.foldl (e.checkNext kind n va true) t = ls.foldl (e.checkNext kind n va false) t := by
    intro ls
    induction ls with
    | nil => exact fun _ _ => rfl
    | cons k ls ih =>
      intro t all
      have here : (k, (e.checkLane t.2 kind n k (va k)).1) ∈ (ls.foldl (e.checkNext kind n va false) (e.checkNext kind n va false t k)).1 :=
        e.mem_checkLanes kind n va false ls (List.mem_append_right _ (List.mem_singleton_self _))
      obtain ⟨x, ok, dev⟩ := all _ here
      have same : e.checkNext kind n va true t k = e.checkNext kind n va false t k := by
        unfold Env.checkNext
        rw [Env.checkLane_device ok dev]
      rw [List.foldl_cons, same]
      exact ih _ all
  refine walk e.lanes _ fun y on => ?_
  rw [← Env.checkLanes_eq, show e.checkLanes s kind n va = _ from reaches, List.mem_map] at on
  obtain ⟨p, on, rfl⟩ := on
  exact ⟨p.2, rfl, device p on⟩

end

end Sys2Proof.Machine
end

section
/-! PROOF. Accesses of which every lane passes its checks (09:R197): the long form enters flight, and its lanes are done now or have requests at home
slices. -/

namespace Sys2Proof.Machine

/-! ### The long form enters flight -/

/-- The sources of every active lane are consumed, and the long form is in flight. -/
def Env.flight (e : Env) (s : State) (left : Mask) (data : OpData) : State := (e.issueOp (e.settle s e.act true) e.act left data).2

/-- What a flight does to the context, and to the queues. -/
def Env.flightCtx (e : Env) (c : Ctx) : Ctx := e.sbCtx (e.settleCtx e.act true c)
def Env.flightQueues (e : Env) (k n : Nat) (es : List QEnt) : List QEnt := es.drop (if e.act.getLsbD n then e.popList.count k else 0)

section
variable {e : Env} (s : State) (left : Mask) (data : OpData)

theorem Env.issueOp_id : (e.issueOp (e.settle s e.act true) e.act left data).1 = s.nextId := by
  unfold Env.issueOp
  dsimp only [State.freshId]
  split <;> exact e.settle_nextId s e.act true

theorem Env.flight_nextId : (e.flight s left data).nextId = s.nextId + 1 := by
  rw [Env.flight, (e.issueOp_does _ e.act left data).2.1, e.settle_nextId]

theorem Env.flight_beside : Beside s (e.flight s left data) :=
  (e.settle_does s e.act true).beside.trans (e.issueOp_does _ e.act left data).1.beside

theorem Env.flight_changes (active : e.act ≠ 0#64) :
    ChangesGang e.x e.flightCtx e.flightQueues sameCregs s (e.flight s left data) := by
  have settles := (e.settle_does s e.act true).changesGang
  simp only [if_neg active] at settles
  exact settles.trans (e.issueOp_does _ e.act left data).1.changesGang

/-- The long form under its key. -/
theorem Env.flight_ops {l : Lf} (form : e.i.lf = some l) : ∃ p, (e.flight s left data).ops = s.ops.put s.nextId p ∧ p.i = e.i ∧ p.gang = e.x.gang ∧
    p.access = e.x.access ∧ p.lanes = e.act ∧ p.left = left ∧ p.fails = [] ∧ p.data = data := by
  obtain ⟨p, ops, rest⟩ := (e.issueOp_does (e.settle s e.act true) e.act left data).2.2.1 l form
  rw [e.settle_ops, e.settle_nextId] at ops
  exact ⟨p, ops, rest⟩

end

/-- A delivery of a long form that sets no predicate and no flag, in one order and in the other. -/
theorem Env.deliverCtx_long (e : Env) {o : Out} (active : e.act ≠ 0#64) (long : o.long = true) (pred : o.pred = none) (flags : o.flags = 0#32) :
    e.deliverCtx o = fun c => (match o.dst with | none => id | some (d, n) => writeCtx d n o.lanes e.nib o.vals) (e.flightCtx c) := by
  have flagless : ∀ c : Ctx, flagCtx 0#32 c = c := fun c => by simp [flagCtx]
  funext c
  unfold Env.deliverCtx Env.flightCtx
  rw [long, pred, flags, flagless]
  simp only [if_neg active, if_true]
  generalize e.settleCtx e.act true c = c
  unfold Env.sbCtx
  rcases o.dst with _ | ⟨d | d | d | d, n⟩
  · rfl
  · cases e.i.lf <;> rfl
  · cases e.i.lf with
    | none => rfl
    | some l =>
      cases e.nib with
      | none => rfl
      | some k =>
        unfold writeCtx
        dsimp only
        split <;> rfl
  · cases e.i.lf <;> rfl
  · cases e.i.lf <;> rfl

/-- A delivery without a destination consumes the sources. -/
theorem Env.deliverQueues_none (e : Env) {o : Out} (dst : o.dst = none) : e.deliverQueues o = e.flightQueues := by
  unfold Env.deliverQueues Env.flightQueues
  rw [dst]
  rfl
theorem Out.deliverCregs_none {o : Out} (dst : o.dst = none) : o.deliverCregs = sameCregs := by
  unfold Out.deliverCregs sameCregs
  rw [dst]
  rfl

/-! ### An access none of whose lanes fails -/

/-- Lanes that are done now. -/
theorem Env.access_now {e : Env} (s : State) (active : e.act ≠ 0#64) (va : Nat → DWord) (b c : Nat → List Word) (eff : Nat → State → State) :
    e.access s [] e.act 0#64 [] va b c eff = .done (eff s.nextId (e.flight s 0#64 .none)) := by
  unfold Env.access
  simp only [List.map_nil, maskOf, List.foldl_nil, if_true, if_neg active, List.isEmpty_nil]
  rw [← Env.issueOp_id (e := e) s 0#64 .none]
  rfl

/-- The request of a lane. -/
def Env.reqFor (e : Env) (id io : Nat) (va : Nat → DWord) (b c : Nat → List Word) (p : Nat × Xlat) : Req :=
  { op := id, gang := e.x.gang, access := e.x.access, lane := p.1, va := va p.1, mt := p.2.mt, key := p.2.key, pa := p.2.pa, sh := p.2.sh
    b := b p.1, c := c p.1, promoting := false, promoted := false, io := io }

/-- It takes its place at the home slice under the next key. -/
def Env.placeReq (e : Env) (id : Nat) (va : Nat → DWord) (b c : Nat → List Word) (s : State) (p : Nat × Xlat) : State :=
  (s.setNextId (s.nextId + 1)).setHome { s.home with q := s.home.q.put s.nextId (e.reqFor id s.dev.ioTick va b c p) }

/-- The requests of lanes at home slices, under the keys from `base` on. -/
def Env.sentHome (e : Env) (id base io : Nat) (va : Nat → DWord) (b c : Nat → List Word) (xs : List ((Nat × Xlat) × Nat)) (h : HomeSys) : HomeSys :=
  { h with q := xs.foldl (fun q p => q.put (base + p.2) (e.reqFor id io va b c p.1)) h.q }

theorem Env.requests_eq (e : Env) (u : State) (va : Nat → DWord) (b c : Nat → List Word) (xs : List (Nat × Xlat)) :
    e.requests u va b c xs = u.setHome (e.sentHome u.nextId (u.nextId + 1) u.dev.ioTick va b c xs.zipIdx u.home) := rfl

/-- The requests placed one by one. -/
theorem Env.foldl_placeReq (e : Env) (id : Nat) (va : Nat → DWord) (b c : Nat → List Word) (xs : List (Nat × Xlat)) (s : State) (base k : Nat)
    (next : s.nextId = base + k) : xs.foldl (e.placeReq id va b c) s =
      (s.setHome (e.sentHome id base s.dev.ioTick va b c (xs.zipIdx k) s.home)).setNextId (s.nextId + xs.length) := by
  induction xs generalizing s k with
  | nil => rfl
  | cons p xs ih =>
    have after : (e.placeReq id va b c s p).nextId = s.nextId + 1 := rfl
    rw [List.foldl_cons, ih (e.placeReq id va b c s p) (k + 1) (by rw [after]; omega), List.zipIdx_cons, List.length_cons, after,
      show s.nextId + (xs.length + 1) = s.nextId + 1 + xs.length by omega]
    unfold Env.sentHome
    rw [List.foldl_cons, ← next]
    rfl

/-- The long form that waits for its requests, none of whose lanes has failed. -/
def Env.waiting (e : Env) (s : State) : State := (e.flight s e.act .home).updOp s.nextId fun o => { o with fails := [] }

/-- Lanes that all have requests. -/
theorem Env.access_requests {e : Env} (s : State) (active : e.act ≠ 0#64) {xs : List (Nat × Xlat)} (mask : maskOf (xs.map (·.1)) = e.act)
    (va : Nat → DWord) (b c : Nat → List Word) (eff : Nat → State → State) :
    e.access s [] 0#64 0#64 xs va b c eff = .done (eff s.nextId (xs.foldl (e.placeReq s.nextId va b c) (e.waiting s))) := by
  unfold Env.access Env.waiting
  simp only [mask, if_neg active, BitVec.or_zero]
  rw [← Env.issueOp_id (e := e) s e.act .home]
  rfl

theorem Env.waiting_ops {e : Env} (s : State) {l : Lf} (form : e.i.lf = some l) : ∃ p, (e.waiting s).ops = s.ops.put s.nextId p ∧ p.i = e.i ∧
    p.gang = e.x.gang ∧ p.access = e.x.access ∧ p.lanes = e.act ∧ p.left = e.act ∧ p.fails = [] ∧ p.data = .home := by
  obtain ⟨p, ops, its, gang, access, lanes, left, -, data⟩ := Env.flight_ops s e.act .home form
  refine ⟨{ p with fails := [] }, ?_, its, gang, access, lanes, left, rfl, data⟩
  show (e.flight s e.act .home).ops.upd s.nextId _ = _
  rw [ops, Assoc.upd, Assoc.get?_put_self]
  exact Assoc.put_put_self _ _ _ _

/-- What stands beside the gangs once the requests are placed. -/
theorem Env.waiting_beside (e : Env) (u : State) (va : Nat → DWord) (b c : Nat → List Word) (xs : List (Nat × Xlat)) :
    Beside (e.requests u va b c xs) (xs.foldl (e.placeReq u.nextId va b c) (e.waiting (e.awake u))) := by
  have next : (e.waiting (e.awake u)).nextId = u.nextId + 1 + 0 := Env.flight_nextId (e.awake u) e.act .home
  have beside := Env.flight_beside (e := e) (e.awake u) e.act .home
  have home : (e.waiting (e.awake u)).home = u.home := beside.home
  have clock : (e.waiting (e.awake u)).dev.ioTick = u.dev.ioTick := by
    have clock := congrArg Device.ioTick beside.dev
    exact clock
  rw [e.foldl_placeReq u.nextId va b c xs _ _ _ next, home, clock, e.requests_eq]
  exact ⟨beside.mem, rfl, beside.launches, beside.ctl, beside.dev, beside.turn, beside.cur, beside.draws, beside.cores, beside.groups⟩

/-- What an access with a request of every lane leaves. -/
theorem Env.effect_of_requests {i : Instr} {s u : State} {e : Env} {xs : List (Nat × Xlat)} {kind : AccKind} {n : Nat} {va : Nat → DWord}
    (ready : Ready i s e) (active : e.act ≠ 0#64) {l : Lf} (form : i.lf = some l) (reaches : e.reaches s u kind n va xs) (at_ : Nat → DWord)
    (b c : Nat → List Word) : Effect e (e.requests u at_ b c xs) (e.finish (xs.foldl (e.placeReq u.nextId at_ b c) (e.waiting (e.awake u))))
      { long := true, left := e.act, data := .home } := by
  have spec := env?_spec ready.env
  have form : e.i.lf = some l := by rw [spec.instr]; exact form
  have placed := e.foldl_placeReq u.nextId at_ b c xs (e.waiting (e.awake u)) (u.nextId + 1) 0 (Env.flight_nextId (e.awake u) e.act .home)
  refine Env.effect_of_gangs spec (b := e.awake u) (r := e.requests u at_ b c xs) (((Env.Base.of_ready ready).reaches reaches).of_gangs rfl)
    { long := true, left := e.act, data := .home } List.nodup_nil (fun _ on => nomatch on) (fun _ => by rw [form]; exact Option.some_ne_none l)
    (ChangesGang.of_gangs e.x rfl) ?_
    (e.waiting_beside u at_ b c xs) ?_
  · rw [e.deliverCtx_long active rfl rfl rfl, e.deliverQueues_none rfl, Out.deliverCregs_none rfl, placed]
    exact (Env.flight_changes (e.awake u) e.act .home active).gangs rfl
  · rw [placed]
    exact (if_pos ⟨rfl, active⟩).mpr (Env.waiting_ops (e.awake u) form)

end Sys2Proof.Machine
end

section
/-! PROOF. Long forms that do something between their flight and their destination, and beside their gang. -/

namespace Sys2Proof.Machine

/-- A long form enters flight from a state with the gangs before it, changes what lies beside them, and writes its destination: it has the effect of its
delivery on the state with that change. -/
theorem Env.effect_of_flight {i : Instr} {s b r t v : State} {e : Env} (spec : EnvSpec i s e) (base : e.Base r) (active : e.act ≠ 0#64) (o : Out)
    (long : o.long = true) (pred : o.pred = none) (flags : o.flags = 0#32) (nodup : o.lanes.Nodup) (small : ∀ n ∈ o.lanes, n < 64) {l : Lf}
    (form : i.lf = some l) (before : ChangesGang e.x (fun c => c) sameQueues sameCregs b (e.awake r)) (first : t.gangs = b.gangs)
    (ops : t.ops = r.ops) (next : t.nextId = r.nextId) (gangs : v.gangs = (e.flight t o.left o.data).gangs) (beside : Beside r v)
    (flies : v.ops = (e.flight t o.left o.data).ops) : Effect e r (e.finish (e.putDst v o)) o := by
  have form : e.i.lf = some l := by rw [spec.instr]; exact form
  have flown : ChangesGang e.x e.flightCtx e.flightQueues sameCregs b v :=
    ((ChangesGang.of_gangs e.x first).trans (Env.flight_changes t o.left o.data active)).gangs gangs
  obtain ⟨p, entered, its⟩ := Env.flight_ops t o.left o.data form
  rw [ops, next, ← flies] at entered
  refine e.effect_of_gangs spec base o nodup small (fun _ => by rw [form]; exact Option.some_ne_none l) before ?_ ?_
    ((if_pos ⟨long, active⟩).mpr ⟨p, ?_, its⟩)
  · rw [e.deliverCtx_long active long pred flags]
    unfold Env.deliverQueues Out.deliverCregs Env.putDst
    rcases o.dst with _ | ⟨d, n⟩
    · exact flown
    · exact flown.trans (State.writeReg_does v e.x d n o.lanes e.nib o.vals nodup).changesGang
  · unfold Env.putDst
    rcases o.dst with _ | ⟨d, n⟩
    · exact beside
    · exact beside.trans (State.writeReg_does v e.x d n o.lanes e.nib o.vals nodup).beside
  · rw [← entered]
    unfold Env.putDst
    rcases o.dst with _ | ⟨d, n⟩
    · rfl
    · exact (v.writeReg_ops e.x d n o.lanes e.nib o.vals).1

/-- The wake looks at the gangs alone. -/
theorem Env.awake_gangs {e : Env} {s t : State} (same : t.gangs = s.gangs) : (e.awake t).gangs = (e.awake s).gangs :=
  congrArg (fun g : Assoc Gang => g.upd e.x.gang fun g => g.updCtx e.x.access fun c => c.wake c.path) same

theorem Env.awake_beside (e : Env) (s : State) : Beside s (e.awake s) := ⟨rfl, rfl, rfl, rfl, rfl, rfl, rfl, rfl, rfl, fun _ => rfl⟩

theorem State.pmEvent_beside (s : State) (g : Nat) (a : Bool) (code w : Nat) : Beside s (s.pmEvent g a code w) := by
  have groups := (s.pmEvent_moves ⟨g, a⟩ 0#64 g a code w).groups
  revert groups
  unfold State.pmEvent
  split
  · exact fun _ => Beside.refl s
  · exact fun groups => ⟨rfl, rfl, rfl, rfl, rfl, rfl, rfl, rfl, rfl, groups⟩

/-- The same change of a group on both sides, blind to its counters. -/
theorem Beside.updGroup {s t : State} (h : Beside s t) (n : Nat) {f : Group → Group} (blind : ∀ g, (f g).still = f g.still) :
    Beside (s.updGroup n f) (t.updGroup n f) := by
  refine ⟨h.mem, h.home, h.launches, h.ctl, h.dev, h.turn, h.cur, h.draws, h.cores, fun k => ?_⟩
  have alike : ∀ u : State, ((u.updGroup n f).group? k).map Group.still =
      if k = n then ((u.group? k).map Group.still).map fun g => (f g).still else (u.group? k).map Group.still := by
    intro u
    by_cases here : k = n
    · subst here
      rw [State.group?_updGroup, if_pos rfl, Option.map_map, Option.map_map]
      congr 1
      funext g
      show (f g).still = (f g.still).still
      rw [blind, blind]
      rfl
    · rw [State.group?_updGroup_ne _ _ here, if_neg here]
  rw [alike, alike, h.groups]

end Sys2Proof.Machine
end

section
/-! PROOF. Instructions that act at home slices place a request of every active lane (09:R210 to R217). -/

namespace Sys2Proof.Machine

/-- A lane that would release to peer memory below sys is the only one that the check of 10:R240 refuses. -/
theorem Env.peerRelease_allPass (e : Env) {rel : Option (BitVec 3)} (va : Nat → DWord) {xs : List (Nat × Xlat)}
    (reach : ∀ p ∈ xs, p.2.mt = 2#2 → ∀ a ∈ rel, 4 ≤ scopeOf a) : e.peerRelease rel va (allPass xs) = allPass xs := by
  unfold Env.peerRelease allPass
  rw [List.map_map]
  refine List.map_congr_left fun p on => if_neg ?_
  rintro ⟨peer, below⟩
  obtain ⟨a, its, low⟩ := Option.any_eq_true _ _ |>.1 below
  exact absurd (of_decide_eq_true low) (Nat.not_lt.2 (reach p on peer a its))

/-- The words of an operand of a request. -/
def Env.operand (e : Env) (n : Nat) (k : Option Nat) (lane : Nat) : List Word :=
  match k with
  | none => []
  | some k => e.words k (n / 4) lane

/-- Where every lane passes its checks, every lane has a request. -/
theorem Env.homeIssue_requests {e : Env} {s u : State} {xs : List (Nat × Xlat)} {m : MemOp} {kind : AccKind} {n : Nat} {hbm : Bool} (b c : Option Nat)
    (active : e.act ≠ 0#64) (order : Env.orderOf e.i = (m.ord.getLsbD 0, m.ord.getLsbD 1, m.sco)) (reaches : e.reaches s u kind n (e.gaddr m 0) xs)
    (device : hbm = true → ∀ p ∈ xs, p.2.mt = 0#2) (peer : ∀ p ∈ xs, p.2.mt = 2#2 → m.ord.getLsbD 1 = true → m.sco = 4#3) :
    e.homeIssue (e.awake s) m kind n hbm b c =
      .done (xs.foldl (e.placeReq u.nextId (e.gaddr m 0) (e.operand n b) (e.operand n c)) (e.waiting (e.awake u))) := by
  have checks : e.checkLanes (e.awake s) kind n (e.gaddr m 0) hbm = (allPass xs, e.awake u) := by
    cases hbm with
    | false => exact Env.reaches_awake reaches
    | true => rw [Env.checkLanes_awake, Env.checkLanes_device reaches (device rfl), ← Env.checkLanes_awake, Env.reaches_awake reaches]
  have reach : ∀ p ∈ xs, p.2.mt = 2#2 → ∀ a ∈ (if m.ord.getLsbD 1 then some m.sco else none), 4 ≤ scopeOf a := by
    intro p on far a its
    split at its
    · next release =>
      obtain rfl := Option.some.inj its
      rw [peer p on far release]
      decide
    · cases its
  unfold Env.homeIssue
  simp only [if_neg active, checks, order, e.peerRelease_allPass _ reach, ite_self, failsOf_allPass, passesOf_allPass]
  exact Env.access_requests (e.awake u) active (Env.reaches_mask reaches) _ _ _ _

/-- An instruction whose lanes all act at home slices places their requests. -/
theorem requests_of_homeIssue {i : Instr} {m : MemOp} {kind : AccKind} {n : Nat} {hbm : Bool} {b c : Option Nat}
    (meaning : ∀ s, exec i s = run i s fun e s => e.homeIssue s m kind n hbm b c) {l : Lf} (form : i.lf = some l)
    (order : Env.orderOf i = (m.ord.getLsbD 0, m.ord.getLsbD 1, m.sco)) :
    Requests i m 0 kind n hbm (fun e => e.operand n b) fun e => e.operand n c := by
  intro u xs s e ready ok
  obtain ⟨active, -, reaches, device, peer⟩ := ok
  have order : Env.orderOf e.i = (m.ord.getLsbD 0, m.ord.getLsbD 1, m.sco) := by rw [(env?_spec ready.env).instr]; exact order
  exact ⟨_, (meaning s).trans (run_done ready.env ready.goes (Env.homeIssue_requests b c active order reaches device peer)),
    Env.effect_of_requests ready active form reaches _ _ _⟩

theorem words_half (w : Bool) : (if w then 8 else 4) / 4 = if w then 2 else 1 := by cases w <;> rfl

/-- Settles O19: each of them is `homeIssue` of its operands, all of whose lanes have requests where all pass their checks. -/
theorem homeRequests : Obligations.HomeRequests := by
  unfold Obligations.HomeRequests
  refine ⟨fun p l n op d m b => ?_, fun p l w d m b c => ?_, fun p l f op m b => ?_, fun p l w d m b => ?_, fun p l m => ?_, fun p l m => ?_⟩
  · exact requests_of_homeIssue (b := some 1) (c := none) (fun _ => rfl) rfl rfl
  · rw [← words_half w]
    exact requests_of_homeIssue (b := some 1) (c := some 2) (fun _ => rfl) rfl rfl
  · exact requests_of_homeIssue (b := some 1) (c := none) (fun _ => rfl) rfl rfl
  · rw [← words_half w]
    exact requests_of_homeIssue (b := some 1) (c := none) (fun _ => rfl) rfl rfl
  · exact requests_of_homeIssue (b := none) (c := none) (fun _ => rfl) rfl rfl
  · exact requests_of_homeIssue (b := none) (c := none) (fun _ => rfl) rfl rfl

end Sys2Proof.Machine
end

section
/-! PROOF. Scratchpad loads and stores all of whose accesses go (09:R203, 08:R184). -/

namespace Sys2Proof.Machine

/-! ### Accesses that go -/

/-- The places of lanes whose checks pass. -/
def Env.refsOf (e : Env) (s : State) (m : MemOp) (kind : AccKind) (n k : Nat) (ls : List Nat) : List (Nat × SpadRef) :=
  ls.filterMap fun lane => match e.spadLane s kind n lane (e.saddr m k lane) with | .ok r => some (lane, r) | .error _ => none

/-- Where every lane's access goes, every lane has a place, whose lines are present and not held, and which holds no poison that is read. -/
theorem Env.refsOf_go {e : Env} {s : State} {m : MemOp} {kind : AccKind} {n k : Nat} {ls : List Nat}
    (goes : ∀ lane ∈ ls, (match e.spadLane s kind n lane (e.saddr m k lane) with
      | .ok r => (s.absentLines r n).isEmpty && !s.spadHeld r n && (kind.writes || !s.spadPoisoned r n)
      | .error _ => false) = true) :
    (ls.map fun lane => (lane, e.spadLane s kind n lane (e.saddr m k lane))) = (e.refsOf s m kind n k ls).map (fun p => (p.1, .ok p.2)) ∧
    (e.refsOf s m kind n k ls).map (·.1) = ls ∧
    ∀ p ∈ e.refsOf s m kind n k ls, s.absentLines p.2 n = [] ∧ s.spadHeld p.2 n = false ∧
      (kind.writes = false → s.spadPoisoned p.2 n = false) := by
  induction ls with
  | nil => exact ⟨rfl, rfl, fun _ on => nomatch on⟩
  | cons lane ls ih =>
    obtain ⟨places, lanes, free⟩ := ih fun j on => goes j (List.mem_cons_of_mem _ on)
    have first := goes lane (List.mem_cons_self ..)
    cases here : e.spadLane s kind n lane (e.saddr m k lane) with
    | error t => rw [here] at first; cases first
    | ok r =>
      rw [here] at first
      simp only [Bool.and_eq_true, Bool.or_eq_true, Bool.not_eq_true', List.isEmpty_iff] at first
      obtain ⟨⟨present, unheld⟩, sound⟩ := first
      have refs : e.refsOf s m kind n k (lane :: ls) = (lane, r) :: e.refsOf s m kind n k ls := by
        unfold Env.refsOf
        rw [List.filterMap_cons, here]
      rw [refs]
      refine ⟨by rw [List.map_cons, here, places]; rfl, by rw [List.map_cons, lanes], fun p on => ?_⟩
      rcases List.mem_cons.1 on with rfl | on
      · exact ⟨present, unheld, fun reads => sound.resolve_left (by rw [reads]; exact Bool.false_ne_true)⟩
      · exact free p on

/-- A scratchpad access that goes is in flight, bank conflicts counted, before it does what it does at its places. -/
theorem Env.spad_goes {e : Env} {s : State} {m : MemOp} {kind : AccKind} {n k : Nat} (active : e.act ≠ 0#64) (goes : e.spadGoes s m kind n k = true)
    (eff : List (Nat × SpadRef) → State → State) : e.spad (e.awake s) m kind n k eff = .done (eff (e.spadRefs s m kind n k)
      (e.flight ((e.awake s).pmEvent e.x.gang e.x.access 0x0E (bankCycles e.width n (e.spadRefs s m kind n k))) 0#64 .none)) := by
  obtain ⟨places, lanes, free⟩ := Env.refsOf_go (List.all_eq_true.1 goes)
  rw [show e.spadRefs s m kind n k = e.refsOf s m kind n k e.lanes from rfl]
  generalize e.refsOf s m kind n k e.lanes = rs at places lanes free
  have checks : (e.lanes.map fun lane => (lane, e.spadLane (e.awake s) kind n lane (e.saddr m k lane))) =
      rs.map fun p => (p.1, .ok p.2) := places
  have present : (rs.map fun p => (e.awake s).absentLines p.2 n).flatten = [] := by
    rw [List.flatten_eq_nil_iff]
    intro ls on
    obtain ⟨p, here, rfl⟩ := List.mem_map.1 on
    exact (free p here).1
  have unheld : (rs.any fun p => (e.awake s).spadHeld p.2 n) = false := by
    rw [List.any_eq_false]
    intro p on
    rw [show (e.awake s).spadHeld p.2 n = false from (free p on).2.1]
    exact Bool.false_ne_true
  have sound : kind.writes = false → (rs.filter fun p => (e.awake s).spadPoisoned p.2 n) = [] := by
    intro reads
    rw [List.filter_eq_nil_iff]
    intro p on
    rw [show (e.awake s).spadPoisoned p.2 n = false from (free p on).2.2 reads]
    exact Bool.false_ne_true
  have mask : maskOf (rs.map (·.1)) = e.act := by rw [lanes, maskOf_lanes]
  unfold Env.spad
  simp only [if_neg active, checks, List.filterMap_map, Function.comp_def, Prod.mk.eta, List.filterMap_some, List.filterMap_none, present, unheld, mask,
    ne_eq, not_true_eq_false, Bool.false_eq_true, if_false, List.isEmpty_nil, Env.launchOp]
  cases reads : kind.writes with
  | true => rfl
  | false =>
    simp only [sound reads]
    rfl

/-! ### Loads and stores -/

theorem exec_lds (p : Pfx) (l : Lf) (n : BitVec 2) (d : Opnd) (m : MemOp) (s : State) : exec (.lds p l n d m) s = run (.lds p l n d m) s fun e s =>
    e.spad s m .read (2 ^ n.toNat) 1 fun go t => t.writeReg e.x d (if 2 ^ n.toNat = 8 then 2 else 1) (go.map (·.1)) e.nib fun k =>
      match go.find? fun p => decide (p.1 = k) with
      | none => []
      | some p => extendBytes false (s.spadBytes p.2 (2 ^ n.toNat)) := rfl

/-- A store at the places of its lanes. -/
def Env.spadStores (e : Env) (n : Nat) (refs : List (Nat × SpadRef)) (s : State) : State :=
  refs.foldl (fun s p => s.updGroup p.2.group fun g => g.spadWrite p.2.ofs (e.storeBytes 1 n p.1)) s

theorem exec_sts (p : Pfx) (l : Lf) (n : BitVec 2) (m : MemOp) (b : Hs) (s : State) :
    exec (.sts p l n m b) s = run (.sts p l n m b) s fun e s => e.spad s m .write (2 ^ n.toNat) 2 (e.spadStores (2 ^ n.toNat)) := rfl

/-- Stores change bytes and poison of groups. -/
theorem Env.spadStores_keeps {β : Type} (φ : State → β) (group : ∀ s k f, φ (State.updGroup s k f) = φ s) (e : Env) (n : Nat)
    (refs : List (Nat × SpadRef)) (s : State) : φ (e.spadStores n refs s) = φ s :=
  List.foldlRecOn (motive := fun t => φ t = φ s) refs _ rfl fun _ kept _ _ => (group _ _ _).trans kept

theorem Env.spadStores_gangs (e : Env) (n : Nat) (refs : List (Nat × SpadRef)) (s : State) : (e.spadStores n refs s).gangs = s.gangs :=
  e.spadStores_keeps State.gangs (fun _ _ _ => rfl) n refs s
theorem Env.spadStores_ops (e : Env) (n : Nat) (refs : List (Nat × SpadRef)) (s : State) : (e.spadStores n refs s).ops = s.ops :=
  e.spadStores_keeps State.ops (fun _ _ _ => rfl) n refs s
theorem Env.spadStores_nextId (e : Env) (n : Nat) (refs : List (Nat × SpadRef)) (s : State) : (e.spadStores n refs s).nextId = s.nextId :=
  e.spadStores_keeps State.nextId (fun _ _ _ => rfl) n refs s

theorem Group.spadPut_still (g : Group) (a : Nat) (bs : List Byte) : (g.spadPut a bs).still = g.still.spadPut a bs := by
  induction bs generalizing g a with
  | nil => rfl
  | cons b bs ih => exact ih _ (a + 1)

theorem Group.spadWrite_still (g : Group) (a : Nat) (bs : List Byte) : (g.spadWrite a bs).still = g.still.spadWrite a bs := by
  show ({ (g.spadPut a bs).still with spadPoison := clearWords g.spadPoison a bs.length } : Group) = _
  rw [g.spadPut_still]
  rfl

theorem Beside.spadStores {s t : State} (h : Beside s t) (e : Env) (n : Nat) (refs : List (Nat × SpadRef)) :
    Beside (e.spadStores n refs s) (e.spadStores n refs t) := by
  unfold Env.spadStores
  induction refs generalizing s t with
  | nil => exact h
  | cons p refs ih => exact ih (h.updGroup p.2.group fun g => g.spadWrite_still _ _)

/-- The event of the bank conflicts changes nothing that a statement sees. -/
theorem Env.counted_beside (e : Env) (s : State) (w : Nat) (left : Mask) (data : OpData) :
    Beside s (e.flight ((e.awake s).pmEvent e.x.gang e.x.access 0x0E w) left data) :=
  (e.awake_beside s).trans ((State.pmEvent_beside ..).trans (Env.flight_beside ..))

theorem two_pow_eq_eight (n : BitVec 2) : 2 ^ n.toNat = 8 ↔ n = 3#2 := by revert n; decide

section
variable {i : Instr} {s : State} {e : Env} {l : Lf} (ready : Ready i s e) (active : e.act ≠ 0#64) (form : i.lf = some l) (w : Nat)
include ready active form

/-- A load writes its destination in every active lane. -/
theorem Env.effect_lds (d : Opnd) (n : Nat) (vals : Nat → List Word) :
    Effect e s (e.finish ((e.flight ((e.awake s).pmEvent e.x.gang e.x.access 0x0E w) 0#64 .none).writeReg e.x d n e.lanes e.nib vals))
      (e.longResult d n vals) := by
  have counts := (e.awake s).pmEvent_moves e.x 0#64 e.x.gang e.x.access 0x0E w
  exact Env.effect_of_flight (env?_spec ready.env) (Env.Base.of_ready ready) active (e.longResult d n vals) rfl rfl rfl e.lanes_nodup e.lanes_lt form
    (ChangesGang.of_gangs e.x rfl) (State.pmEvent_gangs ..) counts.ops counts.nextId rfl (e.counted_beside s w _ _) rfl

/-- A store writes its bytes to its groups. -/
theorem Env.effect_sts (n : Nat) (refs : List (Nat × SpadRef)) :
    Effect e (e.spadStores n refs s)
      (e.finish (e.spadStores n refs (e.flight ((e.awake s).pmEvent e.x.gang e.x.access 0x0E w) 0#64 .none))) { long := true } := by
  have counts := (e.awake s).pmEvent_moves e.x 0#64 e.x.gang e.x.access 0x0E w
  have gangs := e.spadStores_gangs n refs s
  exact Env.effect_of_flight (env?_spec ready.env) ((Env.Base.of_ready ready).of_gangs gangs) active { long := true } rfl rfl rfl List.nodup_nil
    (fun _ on => nomatch on) form (b := e.awake s) (ChangesGang.of_gangs e.x (Env.awake_gangs gangs)) (State.pmEvent_gangs ..)
    (counts.ops.trans (e.spadStores_ops n refs s).symm) (counts.nextId.trans (e.spadStores_nextId n refs s).symm) (e.spadStores_gangs n refs _)
    ((e.counted_beside s w _ _).spadStores e n refs) (e.spadStores_ops n refs _)

end

/-- Settles O21: an access that goes enters flight with its bank conflicts counted, which no statement sees; a load then writes what it reads to its
destination, a store its bytes to its groups. -/
theorem scratchpadAccesses : Obligations.ScratchpadAccesses := by
  unfold Obligations.ScratchpadAccesses
  refine ⟨fun p l n d m s e ready ok => ?_, fun p l n m b s e ready ok => ?_⟩
  · obtain ⟨active, goes⟩ := ok
    obtain ⟨-, lanes, -⟩ := Env.refsOf_go (List.all_eq_true.1 goes)
    refine ⟨_, (exec_lds p l n d m s).trans (run_done ready.env ready.goes (Env.spad_goes active goes _)), ?_⟩
    rw [show (e.spadRefs s m .read (2 ^ n.toNat) 1).map (·.1) = e.lanes from lanes]
    simp only [two_pow_eq_eight]
    exact Env.effect_lds ready active rfl _ d _ _
  · obtain ⟨active, goes⟩ := ok
    exact ⟨_, (exec_sts p l n m b s).trans (run_done ready.env ready.goes (Env.spad_goes active goes _)), Env.effect_sts ready active rfl _ _ _⟩

end Sys2Proof.Machine
end

section
/-! PROOF. Prefetch, clean and fence (09:R208, R209, R218). -/

namespace Sys2Proof.Machine

/-! ### A path that has woken stays awake -/

theorem Ctx.wake_wake (c : Ctx) (m : Mask) : (c.wake m).wake m = c.wake m := by
  unfold Ctx.wake
  congr 1
  rw [Assoc.mapVal, Assoc.mapVal, List.map_map]
  refine List.map_congr_left fun p _ => ?_
  dsimp only [Function.comp]
  split <;> rfl

theorem Env.awake_awake (e : Env) (s : State) : e.awake (e.awake s) = e.awake s := by
  unfold Env.awake State.updCtx
  rw [State.updGang_updGang]
  congr 1
  funext g
  unfold Gang.updCtx
  cases e.x.access with
  | false => exact congrArg (fun c => { g with cctx := c }) (g.cctx.wake_wake g.cctx.path)
  | true =>
    show ({ g with actx := (g.actx.map _).map _ } : Gang) = _
    rw [Option.map_map]
    exact congrArg (fun f : Ctx → Ctx => ({ g with actx := g.actx.map f } : Gang)) (funext fun c => c.wake_wake c.path)

theorem Env.Base.awake {e : Env} {s : State} (base : e.Base s) : e.Base (e.awake s) :=
  base.updCtx e.x _ (fun _ => rfl) fun _ _ calm => Ctx.calm_wake calm _

section
variable {e : Env} {s r : State}

/-- A state with the gangs of the state that has woken. -/
theorem Env.awake_of_awake (gangs : r.gangs = (e.awake s).gangs) : (e.awake r).gangs = r.gangs := by
  rw [Env.awake_gangs gangs, e.awake_awake, gangs]

end

/-! ### Prefetch and clean change what caches hold -/

namespace MemSys
variable (m : MemSys) (mt : BitVec 2) (key : BitVec 10) (pa : Nat)

theorem readByte_l1Fill (core line : Nat) (d : Bool) : (m.l1Fill core line d).readByte mt key pa = m.readByte mt key pa := rfl
theorem readByte_homeFill (mt' : BitVec 2) (key' : BitVec 10) (sh : Bool) (pa' : Nat) (d : Bool) :
    (m.homeFill mt' key' sh pa' d).readByte mt key pa = m.readByte mt key pa := rfl

theorem readByte_cleanLine (core : Nat) (t : Xlat) (toMem : Bool) : (m.cleanLine core t toMem).readByte mt key pa = m.readByte mt key pa := by
  unfold cleanLine
  dsimp only
  split
  · rfl
  · split
    · exact m.readByte_homeFill mt key pa t.mt t.key t.sh t.pa true
    · rfl

end MemSys

namespace Env
variable (e : Env) (s : State) (b : Bool) (m : MemOp) (mt : BitVec 2) (key : BitVec 10) (pa : Nat)

/-- The lines that a prefetch fills. -/
def fills (e : Env) (slice : Bool) (xs : List (Nat × Xlat)) (t : MemSys) : MemSys :=
  xs.foldl (fun t x =>
    let t := t.homeFill x.2.mt x.2.key x.2.sh x.2.pa false
    if slice then t else t.l1Fill e.core (lineOf x.2.mt x.2.pa) false) t

/-- The lines that a clean writes back. -/
def cleans (e : Env) (toMem : Bool) (xs : List (Nat × Xlat)) (t : MemSys) : MemSys := xs.foldl (fun t x => t.cleanLine e.core x.2 toMem) t

theorem readByte_fills (xs : List (Nat × Xlat)) (t : MemSys) : (e.fills b xs t).readByte mt key pa = t.readByte mt key pa :=
  List.foldlRecOn (motive := fun u : MemSys => u.readByte mt key pa = t.readByte mt key pa) xs _ rfl fun u kept x _ => by
    dsimp only
    split
    · rw [MemSys.readByte_homeFill, kept]
    · rw [MemSys.readByte_l1Fill, MemSys.readByte_homeFill, kept]

theorem readByte_cleans (xs : List (Nat × Xlat)) (t : MemSys) : (e.cleans b xs t).readByte mt key pa = t.readByte mt key pa :=
  List.foldlRecOn (motive := fun u : MemSys => u.readByte mt key pa = t.readByte mt key pa) xs _ rfl fun u kept x _ =>
    (u.readByte_cleanLine mt key pa e.core x.2 b).trans kept

end Env

/-! ### The instructions -/

theorem exec_pref (p : Pfx) (l : Lf) (slice : Bool) (m : MemOp) (s : State) : exec (.pref p l slice m) s = run (.pref p l slice m) s fun e s =>
    let t := e.settle (e.checkLanes s .read 1 (e.gaddr m 1)).2 e.act true
    .done (t.setMem (e.fills slice (passesOf (e.checkLanes s .read 1 (e.gaddr m 1)).1) t.mem)) := rfl

theorem exec_cln (p : Pfx) (l : Lf) (toMem : Bool) (m : MemOp) (s : State) : exec (.cln p l toMem m) s = run (.cln p l toMem m) s fun e s =>
    if e.act = 0#64 then .done s
    else e.access (e.checkLanes s .read 1 (e.gaddr m 1)).2 (failsOf (e.checkLanes s .read 1 (e.gaddr m 1)).1)
      (maskOf ((passesOf (e.checkLanes s .read 1 (e.gaddr m 1)).1).map (·.1))) 0#64 [] (e.gaddr m 1) noWords noWords fun _ t =>
        t.setMem (e.cleans toMem (passesOf (e.checkLanes s .read 1 (e.gaddr m 1)).1) t.mem) := rfl

theorem exec_fence (p : Pfx) (l : Lf) (sco : BitVec 3) (ord : BitVec 2) (s : State) : exec (.fence p l sco ord) s = run (.fence p l sco ord) s fun e s =>
    if e.act = 0#64 then .done s
    else .done (e.issueOp (e.fencedBy sco ord s) e.act 0#64 (.fence (ord.getLsbD 1) (ord.getLsbD 0) sco)).2 := rfl

/-- An instruction that delivers nothing consumes its sources. -/
theorem Env.settle_changes (e : Env) (s : State) :
    ChangesGang e.x (e.deliverCtx {}) (e.deliverQueues {}) (Out.deliverCregs {}) s (e.settle s e.act true) := by
  have idle : e.deliverCtx {} = fun c => if e.act = 0#64 then c else e.settleCtx e.act true c := by
    funext c
    show flagCtx 0#32 _ = _
    simp [flagCtx]
  rw [idle, e.deliverQueues_none rfl, Out.deliverCregs_none rfl]
  exact (e.settle_does s e.act true).changesGang

/-- A prefetch consumes its sources and fills lines. -/
theorem Env.effect_pref {i : Instr} {s : State} {e : Env} (ready : Ready i s e) (slice : Bool) (m : MemOp) :
    Effect e (e.prefetched (e.awake s) slice m) (e.finish ((e.settle (e.checkLanes (e.awake s) .read 1 (e.gaddr m 1)).2 e.act true).setMem
      (e.fills slice (passesOf (e.checkLanes (e.awake s) .read 1 (e.gaddr m 1)).1)
        (e.settle (e.checkLanes (e.awake s) .read 1 (e.gaddr m 1)).2 e.act true).mem))) {} := by
  have gangs := e.checkLanes_gangs (e.awake s) .read 1 (e.gaddr m 1) false
  have woken : (e.awake (e.prefetched (e.awake s) slice m)).gangs = (e.checkLanes (e.awake s) .read 1 (e.gaddr m 1)).2.gangs :=
    Env.awake_of_awake gangs
  have settled := (e.settle_does (e.checkLanes (e.awake s) .read 1 (e.gaddr m 1)).2 e.act true).beside
  refine e.effect_of_gangs (env?_spec ready.env) (r := e.prefetched (e.awake s) slice m) (d := (e.settle _ e.act true).setMem _)
    ((Env.Base.of_ready ready).awake.of_gangs gangs) {} List.nodup_nil (fun _ on => nomatch on)
    (fun long => nomatch long) (ChangesGang.of_gangs e.x woken) ((e.settle_changes _).gangs rfl) ?_ (e.settle_ops _ e.act true)
  refine ⟨?_, settled.home, settled.launches, settled.ctl, settled.dev, settled.turn, settled.cur, settled.draws, settled.cores, settled.groups⟩
  show e.fills slice _ (e.settle _ e.act true).mem = _
  rw [settled.mem]
  rfl

/-- Lanes none of which fails all pass. -/
theorem passesOf_lanes {xs : List (Nat × Except TrapRec Xlat)} (pass : failsOf xs = []) : (passesOf xs).map (·.1) = xs.map (·.1) := by
  induction xs with
  | nil => rfl
  | cons x xs ih =>
    obtain ⟨lane, t | x⟩ := x
    · cases pass
    · exact congrArg (lane :: ·) (ih pass)

/-- A clean enters flight, and writes lines back. -/
theorem Env.effect_cln {i : Instr} {s u : State} {e : Env} {l : Lf} (ready : Ready i s e) (active : e.act ≠ 0#64) (form : i.lf = some l) (toMem : Bool)
    (xs : List (Nat × Xlat)) (gangs : u.gangs = (e.awake s).gangs) :
    Effect e (u.setMem (e.cleans toMem xs u.mem)) (e.finish ((e.flight u 0#64 .none).setMem (e.cleans toMem xs (e.flight u 0#64 .none).mem)))
      { long := true } := by
  have woken : (e.awake (u.setMem (e.cleans toMem xs u.mem))).gangs = u.gangs := Env.awake_of_awake gangs
  have flown := Env.flight_beside (e := e) u 0#64 .none
  refine Env.effect_of_flight (env?_spec ready.env) (b := u) (r := u.setMem (e.cleans toMem xs u.mem)) (t := u)
    (v := (e.flight u 0#64 .none).setMem (e.cleans toMem xs (e.flight u 0#64 .none).mem)) ((Env.Base.of_ready ready).awake.of_gangs gangs) active
    { long := true } rfl rfl rfl List.nodup_nil (fun _ on => nomatch on) form (ChangesGang.of_gangs e.x woken) rfl rfl rfl rfl ?_ rfl
  refine ⟨?_, flown.home, flown.launches, flown.ctl, flown.dev, flown.turn, flown.cur, flown.draws, flown.cores, flown.groups⟩
  show e.cleans toMem xs (e.flight u 0#64 .none).mem = _
  rw [flown.mem]
  rfl

/-- What a fence with a release part leaves in its context. -/
def Env.fencedCtx (e : Env) (sco : BitVec 3) (id : Nat) (c : Ctx) : Ctx :=
  { c with fenced := e.lanes.foldl (fun t n => t.put n (t.getD n [] ++ [(id, BitVec.ofNat 3 (scopeOf sco))])) c.fenced
           relTo := e.lanes.foldl (fun t n => t.putD n (max (t.getD n 0) (scopeOf sco)) 0) c.relTo }

theorem Env.fencedBy_eq (e : Env) (sco : BitVec 3) (ord : BitVec 2) (s : State) :
    e.fencedBy sco ord s = if ord.getLsbD 1 then s.updCtx e.x (e.fencedCtx sco s.nextId) else s := rfl

/-- The wake and the fence change different parts of the context. -/
theorem Env.fencedBy_awake (e : Env) (sco : BitVec 3) (ord : BitVec 2) (s : State) :
    e.fencedBy sco ord (e.awake s) = e.awake (e.fencedBy sco ord s) := by
  rw [e.fencedBy_eq, e.fencedBy_eq]
  split
  · refine (e.awake_updGang s _ fun g => ?_).symm
    unfold Gang.updCtx
    cases e.x.access with
    | false => rfl
    | true =>
      show ({ g with actx := (g.actx.map _).map _ } : Gang) = { g with actx := (g.actx.map _).map _ }
      rw [Option.map_map, Option.map_map]
      rfl
  · rfl

/-- An instruction without sources enters flight without any consumed. -/
theorem Env.effect_fence {i : Instr} {s r : State} {e : Env} {l : Lf} (ready : Ready i s e) (active : e.act ≠ 0#64) (form : i.lf = some l)
    (uses : i.uses = []) (base : e.Base r) (data : OpData) :
    Effect e r (e.finish (e.issueOp (e.awake r) e.act 0#64 data).2) { long := true, data := data } := by
  have spec := env?_spec ready.env
  have form : e.i.lf = some l := by rw [spec.instr]; exact form
  have uses : e.uses = [] := by rw [Env.uses, spec.instr, uses]
  obtain ⟨does, -, ops, -⟩ := e.issueOp_does (e.awake r) e.act 0#64 data
  refine e.effect_of_gangs spec base { long := true, data := data } List.nodup_nil (fun _ on => nomatch on)
    (fun _ => by rw [form]; exact Option.some_ne_none l) (ChangesGang.of_gangs e.x rfl) ?_ (?_ : Beside r _)
    ((if_pos ⟨rfl, active⟩).mpr (ops l form))
  · have ctx : e.flightCtx = e.sbCtx := by
      funext c
      have alive : (lanesOf e.act).any e.deadIn = false := List.any_eq_false.2 fun n _ => by simp [Env.deadIn, uses]
      show e.sbCtx (e.settleCtx e.act true c) = _
      unfold Env.settleCtx
      rw [uses, alive]
      rfl
    have queues : e.flightQueues = sameQueues := by
      funext k n es
      unfold Env.flightQueues Env.popList
      rw [uses]
      simp [sameQueues]
    rw [e.deliverCtx_long active rfl rfl rfl, e.deliverQueues_none rfl, Out.deliverCregs_none rfl, ctx, queues]
    exact does.changesGang
  · exact (e.awake_beside r).trans does.beside

/-- Settles O22: each changes lines or its context's fences, and enters flight or, a prefetch, consumes its sources. -/
theorem prefetchCleanFence : Obligations.PrefetchCleanFence := by
  unfold Obligations.PrefetchCleanFence
  refine ⟨fun p l slice m s e ready _ => ?_, fun p l toMem m s e ready ok => ?_, fun p l sco ord s e ready active => ?_,
    fun e s b m mt key pa => ?_⟩
  · exact ⟨_, (exec_pref p l slice m s).trans (run_done ready.env ready.goes rfl), e.effect_pref ready slice m⟩
  · obtain ⟨active, pass⟩ := ok
    have mask : maskOf ((passesOf (e.checkLanes (e.awake s) .read 1 (e.gaddr m 1)).1).map (·.1)) = e.act := by
      rw [passesOf_lanes pass, show _ = e.lanes from e.checkLanes_lanes (e.awake s) .read 1 (e.gaddr m 1) false, maskOf_lanes]
    refine ⟨_, (exec_cln p l toMem m s).trans (run_done ready.env ready.goes ?_),
      Env.effect_cln ready active rfl toMem _ (e.checkLanes_gangs (e.awake s) .read 1 (e.gaddr m 1) false)⟩
    rw [if_neg active, pass, mask]
    exact Env.access_now _ active _ _ _ _
  · have base : e.Base (e.fencedBy sco ord s) := by
      rw [e.fencedBy_eq]
      split
      · exact (Env.Base.of_ready ready).updCtx e.x _ (fun _ => rfl) fun _ _ calm => calm
      · exact Env.Base.of_ready ready
    refine ⟨_, (exec_fence p l sco ord s).trans (run_done ready.env ready.goes (if_neg active)), ?_⟩
    rw [e.fencedBy_awake]
    exact Env.effect_fence ready active rfl rfl base _
  · refine ⟨e.readByte_fills b mt key pa _ _, e.readByte_cleans b mt key pa _ _, fun sco ord => ?_⟩
    rw [e.fencedBy_eq]
    split <;> rfl

end Sys2Proof.Machine
end

section
/-! PROOF. What counterexamples share: what an evaluation of the model on one state says, and long forms in flight. -/

namespace Sys2Proof.Machine

/-- Whether an instruction answers a next state of which a test holds. -/
def nextPasses (i : Instr) (s : State) (p : State → Bool) : Bool :=
  match exec i s with
  | .next t => p t
  | _ => false

theorem nextPasses_spec {i : Instr} {s t : State} {p : State → Bool} (passes : nextPasses i s p = true) (run : exec i s = .next t) : p t = true := by
  unfold nextPasses at passes
  rw [run] at passes
  exact passes

/-- Whether the checks of lanes say that lane 0 alone is active and reaches what `x` says. -/
def reachesAlone (c : List (Nat × Except TrapRec Xlat)) (x : Xlat) : Bool :=
  match c with
  | [(0, .ok t)] => decide (t = x)
  | _ => false

theorem reachesAlone_spec {c : List (Nat × Except TrapRec Xlat)} {x : Xlat} (alone : reachesAlone c x = true) : c = [(0, .ok x)] := by
  unfold reachesAlone at alone
  split at alone
  · rw [of_decide_eq_true alone]
  · cases alone

/-- Where the placed gang issues an instruction. -/
def placedCursor : Cursor := ⟨placedHeader, 0x100000#64, 0, 0x100004#64, 1, 0#64⟩

/-- A long form of the placed launch that lane 0 of a gang issued. -/
def loneOp (gang : Nat) (i : Instr) (data : OpData) : Op :=
  { gang := gang, access := false, launch := 0, core := 0, i := i, sb := 0, la := 0, serial := 1, idx := 0, cur := placedCursor, mix := false
    lanes := 1#64, left := 1#64, fails := [], data := data, vsrc := [], ssrc := [], pops := [], tick := 0 }

end Sys2Proof.Machine
end

section
/-! PROOF. A load whose context's wake is not the state's own table of gangs (12:R277): counterexamples. -/

namespace Sys2Proof.Machine

/-- A relaxed load of the word at s0:s1. -/
def plainLoad : Instr := .ld ⟨none, none⟩ ⟨0, 0⟩ 4 (.v 8) ⟨⟨.s 0, .none⟩, none, 0, 0, 0⟩
/-- A load of another gang of the launch, in flight in 64 lanes. -/
def loadAbove : Op := { loneOp 7 plainLoad .home with lanes := -1#64, left := -1#64 }

/-- Lane 0 of both contexts of the placed gang, its address at s0:s1, with an empty queue 0, and 40 loads into queue 1 in flight. Other gangs of the core
have 31 loads in flight. The table of gangs lists another gang, which is not resident, before this one: its keys do not rise. -/
def tableUnordered : State :=
  let s := (State.reset.placeWord []).updLaunch 0 fun l =>
    { l with kern := { l.kern with decoupled := true, avregs := 32, asregs := 32, qdecl := [(0, ⟨false, 4⟩), (1, ⟨false, 64⟩)] } }
  let gangs := s.gangs.mapVal fun _ g =>
    let c := { g.cctx with path := 1#64, s := [(0, ⟨0x200000#32, false, false⟩), (1, ⟨0#32, false, false⟩)] }
    { g with
      cctx := c, actx := some c
      queues := [(0, ⟨false, 4, 4, []⟩), (1, ⟨false, 64, 64, [(5, List.replicate 40 (.pend 0 0x3000#64 4 false 0#64 false 0))]⟩)] }
  (s.setGangs ((gangs.mapVal fun _ g => { g with core := none, queues := [] }).map (fun p => (1, p.2)) ++ gangs)).setOps
    ((List.range 31).map fun k => (k, loadAbove))

/-- A load of the same word into queue 0. -/
def queueLoad : Instr := .ldToQueue ⟨none, none⟩ ⟨0, 0⟩ 4 0 ⟨⟨.s 0, .none⟩, none, 0, 0, 0⟩

/-- The compute context is about to issue the first, the access context the second. -/
def loadUnordered : State := tableUnordered.setCur (some ⟨0, false⟩)
def queueUnordered : State := tableUnordered.setCur (some ⟨0, true⟩)

/-- Their environments. -/
def loadEnv : Env := (env? plainLoad loadUnordered).get (by decide +kernel)
def queueEnv : Env := (env? queueLoad queueUnordered).get (by decide +kernel)

theorem loadEnv_ready : Ready plainLoad loadUnordered loadEnv :=
  ⟨(Option.some_get _).symm, by decide +kernel, by decide +kernel⟩
theorem queueEnv_ready : Ready queueLoad queueUnordered queueEnv :=
  ⟨(Option.some_get _).symm, by decide +kernel, by decide +kernel⟩

/-- The checks of the load's lanes, and the translation of lane 0. -/
def loadChecks : List (Nat × Except TrapRec Xlat) × State :=
  loadEnv.checkLanes loadUnordered .read 4 (loadEnv.gaddr ⟨⟨.s 0, .none⟩, none, 0, 0, 0⟩ 1)
def loadXlat : Xlat := ⟨0#2, 1#10, 0x200000, false, 3, 2 ^ 30⟩

theorem loadChecks_eq : loadChecks = ([(0, .ok loadXlat)], loadChecks.2) :=
  Prod.ext (reachesAlone_spec (x := loadXlat) (by decide +kernel)) rfl

/-- The wake of the path puts the gang where it belongs in the table, and leaves the entry that it had: its loads count twice, and there is no room for
one more request record. -/
theorem loadUnordered_holds {t : State} (run : exec plainLoad loadUnordered = .next t) : t.vreg loadEnv.x 8 0 = none :=
  Option.isNone_iff_eq_none.1 (nextPasses_spec (p := fun t => (t.vreg loadEnv.x 8 0).isNone) (by decide +kernel) run)

theorem queueUnordered_holds {t : State} (run : exec queueLoad queueUnordered = .next t) : (t.queue 0 0 0).length = 0 :=
  of_decide_eq_true (nextPasses_spec (p := fun t => decide ((t.queue 0 0 0).length = 0)) (by decide +kernel) run)

/-- The table itself has room. -/
theorem loadChecks_room : loadChecks.2.queueRecords loadEnv.core + 1 ≤ 2048 := by decide +kernel
theorem queueUnordered_room : queueUnordered.queueRecords queueEnv.core + queueEnv.lanes.length ≤ 2048 := by decide +kernel

theorem loadXlat_free : loadChecks.2.readPoison loadEnv.core 4 loadXlat = false ∧
    loadChecks.2.lineOwned (lineOf loadXlat.mt loadXlat.pa) = false ∧
    loadChecks.2.pendingOver loadEnv.x 0 loadChecks.2.nextId loadXlat.mt loadXlat.pa 4 = false ∧
    loadEnv.g.queueLoadOver loadEnv.x.access 0 loadChecks.2.nextId (loadEnv.gaddr ⟨⟨.s 0, .none⟩, none, 0, 0, 0⟩ 1 0) 4 = false := by decide +kernel

theorem loadEnv_writes (vals : Nat → List Word) : (loadEnv.longResult (.v 8) (ldWords 4) vals).writesV 8 0 = true := by
  have lane : (loadEnv.lanes.contains 0 && decide (8 < 8 + ldWords 4)) = true := by decide +kernel
  simpa [Out.writesV, Env.longResult] using lane

/-- Refutes O17: a state may hold a table of gangs whose keys do not rise, which no machine that starts from reset does, but which the statement's
hypotheses do not exclude. There the request records that the load counts once its path has woken (12:R277) are more than those of the state before,
of which the statement speaks: the load waits for a record, and reads nothing. -/
theorem not_loadsRead : ¬ Obligations.LoadsRead := by
  unfold Obligations.LoadsRead
  intro loads
  obtain ⟨poison, owned, pending, queued⟩ := loadXlat_free
  obtain ⟨t, run, effect⟩ := (loads _ _ _ _ _ loadChecks.2 [(0, loadXlat)]).1 rfl loadUnordered loadEnv loadEnv_ready
    ⟨by decide +kernel, by decide +kernel, loadChecks_eq, loadChecks_room, by
      intro x on
      obtain rfl := List.mem_singleton.1 on
      exact ⟨rfl, poison, owned, pending, queued⟩⟩
  have read := effect.vregs loadEnv.x 8 0 (by decide)
  rw [loadUnordered_holds run, if_pos ⟨rfl, loadEnv_writes _⟩] at read
  cases read

/-- Refutes O20: as a load to a register, a load into a queue counts the request records once its path has woken, which in a table of gangs whose keys do
not rise are more than those of the state before. It waits for a record, and its queue has no new entry. -/
theorem not_queueLoadsIssue : ¬ Obligations.QueueLoadsIssue := by
  unfold Obligations.QueueLoadsIssue
  intro loads
  have ready : ∀ k ∈ queueEnv.lanes, (match queueEnv.pushState 0 k with | .ready => true | _ => false) = true := by decide +kernel
  obtain ⟨t, run, -, -, pushed, -⟩ := loads _ _ _ _ _ queueUnordered queueEnv queueEnv_ready (by decide +kernel) (by
    intro k on
    have now := ready k (mem_lanesOf.2 on)
    split at now
    · assumption
    · cases now) queueUnordered_room
  obtain ⟨r, entry⟩ := pushed 0 (by decide +kernel)
  have none := List.length_eq_zero_iff.1 (queueUnordered_holds run)
  have here : t.queue queueEnv.x.gang (0 : BitVec 3).toNat 0 = t.queue 0 0 0 := by rw [show queueEnv.x.gang = 0 by decide +kernel]; rfl
  rw [here, none] at entry
  exact absurd entry.symm (by simp)

end Sys2Proof.Machine
end

section
/-! PROOF. A store whose number a request at a home slice carries before the store has issued (10:R233): a counterexample. -/

namespace Sys2Proof.Machine

/-- A relaxed store of the word s2 at s0:s1. -/
def fencedStore : Instr := .st ⟨none, none⟩ ⟨0, 0⟩ 2 ⟨⟨.s 0, .none⟩, none, 0, 0, 0⟩ ⟨.s 2, .none⟩

/-- A request of lane 0 at another line, under the key 5, of the long form 10. -/
def requestAhead : Req :=
  { op := 10, gang := 0, access := false, lane := 0, va := 0x300000#64, mt := 0#2, key := 1#10, pa := 0x300000, sh := false, b := [], c := []
    promoting := false, promoted := false }

/-- Lane 0 of the placed gang about to issue the store, which will be the long form 10. Its release fence at dev scope issued under the key 3. -/
def storeNumbered : State :=
  let s := ((State.reset.placeWord []).setCur (some ⟨0, false⟩)).updCtx ⟨0, false⟩ fun c =>
    { c with path := 1#64, fenced := [(0, [(3, 3#3)])]
             s := [(0, ⟨0x200000#32, false, false⟩), (1, ⟨0#32, false, false⟩), (2, ⟨7#32, false, false⟩)] }
  { s with nextId := 10, home := { s.home with q := [(5, requestAhead)] } }

/-- The environment of the store. -/
def storeEnv : Env := (env? fencedStore storeNumbered).get (by decide +kernel)

theorem storeEnv_ready : Ready fencedStore storeNumbered storeEnv :=
  ⟨(Option.some_get _).symm, by decide +kernel, by decide +kernel⟩

/-- The checks of its lanes, and the translation of lane 0. -/
def storeChecks : List (Nat × Except TrapRec Xlat) × State :=
  storeEnv.checkLanes storeNumbered .write 4 (storeEnv.gaddr ⟨⟨.s 0, .none⟩, none, 0, 0, 0⟩ 2)
def storeXlat : Xlat := ⟨0#2, 1#10, 0x200000, false, 3, 2 ^ 30⟩

theorem storeChecks_eq : storeChecks = ([(0, .ok storeXlat)], storeChecks.2) :=
  Prod.ext (reachesAlone_spec (x := storeXlat) (by decide +kernel)) rfl

theorem storeXlat_waits : storeChecks.2.pendingOver storeEnv.x 0 storeChecks.2.nextId 0#2 0x200000 4 = false := by decide +kernel

/-- The scopes of the buffered writes that are releases. -/
def State.releases (s : State) : List (Option (BitVec 3)) := s.mem.wbuf.vals.map (·.rel)

/-- With the store in flight the request counts as a write of its lane since the fence, so the store is no release. -/
theorem storeNumbered_stores {t : State} (run : exec fencedStore storeNumbered = .next t) : t.releases = [none] :=
  of_decide_eq_true (nextPasses_spec (p := fun t => decide (t.releases = [none])) (by decide +kernel) run)

/-- Without it the store is the first write since the fence, and a release. -/
theorem storeAll_releases : (storeAll storeEnv ⟨⟨.s 0, .none⟩, none, 0, 0, 0⟩ 2 storeChecks.2 [(0, storeXlat)]).releases = [some 3#3] := by decide +kernel

/-- Refutes O18: a state may hold a request with the number that the store is about to take, which no machine that starts from reset does, as numbers
rise, but which the statement's hypotheses do not exclude. Whether the request writes is then decided by the store itself (10:R233): with it in
flight, as the instruction enters its buffer, the request has written since the lane's fence; without it, as in the statement, it has not. -/
theorem not_storesAreBuffered : ¬ Obligations.StoresAreBuffered := by
  unfold Obligations.StoresAreBuffered
  intro stores
  obtain ⟨t, run, effect⟩ := (stores _ _ _ _ _ storeChecks.2 [(0, storeXlat)]).1 storeNumbered storeEnv storeEnv_ready
    ⟨by decide +kernel, by decide +kernel, storeChecks_eq, by
      intro x on
      obtain rfl := List.mem_singleton.1 on
      exact ⟨rfl, (fun peer => by cases peer), storeXlat_waits⟩⟩
  have released := storeNumbered_stores run
  rw [State.releases, effect.rest.mem] at released
  exact absurd (released.symm.trans storeAll_releases) (by decide)

end Sys2Proof.Machine
end

section
/-! PROOF. A copy that a lane executes again after a fault (08:R186, 09:R207): a counterexample. -/

namespace Sys2Proof.Machine

/-- A copy from global memory at s0:s1 to the scratchpad at s6, of as many bytes as s7 says. -/
def copyToPad : Instr := .cp ⟨none, none⟩ ⟨0, 0⟩ 0 (.s 6) (.s 0) ⟨.s 7, .none⟩ 0

/-- Lane 0 of the placed gang about to execute the copy: 256 bytes from 0x200000 to lines 2 and 3 of the scratchpad. It has executed it before and
failed, so it owes those lines (09:R207). -/
def copyRetried : State :=
  ((State.reset.placeWord []).setCur (some ⟨0, false⟩)).updCtx ⟨0, false⟩ fun c =>
    { c with path := 1#64, owed := [(0, 0, 2), (0, 0, 3)]
             s := [(0, ⟨0x200000#32, false, false⟩), (1, ⟨0#32, false, false⟩), (6, ⟨0x100#32, false, false⟩), (7, ⟨256#32, false, false⟩)] }

/-- The environment of the copy. -/
def copyEnv : Env := (env? copyToPad copyRetried).get (by decide +kernel)

theorem copyEnv_ready : Ready copyToPad copyRetried copyEnv :=
  ⟨(Option.some_get _).symm, by decide +kernel, by decide +kernel⟩

/-- What the checks of its lanes give, and what the engine has to do. -/
def copyChecks : List (Nat × CpLane) × State := copyEnv.cpLanes copyRetried 0 0
def copyJobs : List (Nat × List Span × List Span) := copyChecks.1.filterMap fun x => match x.2 with | .ok ss ds => some (x.1, ss, ds) | _ => none

/-- Every lane passes its checks. -/
theorem copyChecks_pass : ∀ x ∈ copyChecks.1, (∃ t ls, x.2 = .bad t ls) → False := by
  have pass : (copyChecks.1.all fun x => match x.2 with | .bad .. => false | _ => true) = true := by decide +kernel
  rintro x on ⟨t, ls, bad⟩
  have := List.all_eq_true.1 pass x on
  rw [bad] at this
  cases this

/-- No line of its source is absent, and none of its lines is held. -/
theorem copyJobs_free : (∀ j ∈ copyJobs, ∀ q ∈ j.2.1, q.spad = true → copyChecks.2.absentLines ⟨q.group, q.at_, false⟩ q.n = []) ∧
    ∀ j ∈ copyJobs, j.2.1.any (copyEnv.spanHeld copyChecks.2 j.1 false) = false ∧ j.2.2.any (copyEnv.spanHeld copyChecks.2 j.1 true) = false := by
  decide +kernel

/-- What the lanes of the compute context of gang 0 owe. -/
def State.owes (s : State) : Option (List (Nat × Nat × Nat)) := ((s.gang? 0).map Gang.still).map fun g => g.cctx.owed

theorem copyRetried_pays {t : State} (run : exec copyToPad copyRetried = .next t) : t.owes = some [] :=
  of_decide_eq_true (nextPasses_spec (p := fun t => decide (t.owes = some [])) (by decide +kernel) run)

/-- The checks, the absent lines and the request of a reservation leave what is owed. -/
theorem copyChecks_owes :
    (let v := copyChecks.2.clearLines (copyJobs.map fun j => (j.2.2.map Span.spadLines).flatten).flatten
     (if (copyEnv.cpParts copyChecks.2 0 copyJobs).isEmpty then v
      else v.arbRequest (clusterOf copyEnv.core) ⟨v.nextId, 2, !copyEnv.x.access && copyEnv.g.holders.any copyEnv.act.getLsbD⟩).owes) =
      some [(0, 0, 2), (0, 0, 3)] := by decide +kernel

/-- Refutes O23: a copy changes more of its context than the statement says. The lines that its lanes owe since an earlier fault are owed no longer,
now that the lanes execute it again (08:R186, 09:R207). -/
theorem not_copiesIssue : ¬ Obligations.CopiesIssue := by
  unfold Obligations.CopiesIssue
  intro copies
  obtain ⟨t, run, effect⟩ := copies _ _ 0 _ _ _ 0 copyChecks.2 copyJobs copyRetried copyEnv copyEnv_ready
    ⟨by decide +kernel, ⟨copyChecks.1, rfl, copyChecks_pass, rfl⟩, copyJobs_free.1, copyJobs_free.2⟩
  have same := congrArg (Option.map fun g : Gang => g.cctx.owed) (effect.rest.gangs 0)
  have paid := (copyRetried_pays run).symm.trans (same.trans copyChecks_owes)
  exact absurd paid (by decide)

end Sys2Proof.Machine
end

section
/-! PROOF. A multiply-accumulate whose occupancy a performance counter samples (11:R267, 17:R404, R406): a counterexample. -/

namespace Sys2Proof.Machine

/-- Two reservations of `.bf16` elements: 16 and 32 rows of 64 (11:R248). -/
def operandRows (base rows : Nat) : Rec := ⟨0, base, rows, 0, 1, false, 0, 1, rows⟩

/-- A multiply-accumulate of 16 rows, 32 columns and K = 16 into tile 0, which it clears first (11:R262). -/
def firstMac : MatOp := .mac false true 0 16 32 16 0 0 0 0 (operandRows 0 16) (operandRows 16 32)

/-- It is in flight with its reservation granted. -/
def macInFlight : Op := { loneOp 0 (.mmac ⟨none, none⟩ ⟨0, 0⟩ ⟨.s 6, .none⟩ ⟨.s 8, .none⟩) (.matrix firstMac 0 true) with left := 0#64 }

/-- A counter of its group samples event 0x43, the occupancy of the engine. -/
def occupancySampled : State :=
  let s := State.reset.placeWord []
  { s with
    groups := s.groups.upd 0 fun r => { r with pm := [(0, PerfCtr.clear 0xA0000043#32)] }
    ops := [(7, macInFlight)] }

/-- What the counter has counted. -/
def State.occupancies (s : State) : Option Nat := ((s.group? 0).bind fun r => r.pm.get? 0).map (·.count)

/-- The completion gives the counter a sample. -/
theorem occupancySampled_completes {u : State} (run : exec (.matrixOpComplete 7) occupancySampled = .next u) : u.occupancies = some 1 :=
  of_decide_eq_true (nextPasses_spec (p := fun u => decide (u.occupancies = some 1)) (by decide +kernel) run)

/-- The multiply-accumulate by itself gives none. -/
theorem occupancySampled_macDo : (occupancySampled.updGroup 0 fun g =>
    g.macDo false true 0 16 32 16 0 0 0 0 (operandRows 0 16) (operandRows 16 32)).occupancies = some 0 := by decide +kernel

/-- Refutes O41: the completion of a multiply-accumulate changes more of its group than its tile. It gives its occupancy as a sample of event 0x43
(17:R404, R406), which the performance counters of the group take that select it. -/
theorem not_enginesFinish : ¬ Obligations.EnginesFinish := by
  unfold Obligations.EnginesFinish
  rintro ⟨-, -, -, completes, -⟩
  obtain ⟨u, run, -, -, -, -, -, -, -, macs⟩ := completes occupancySampled 7 macInFlight firstMac 0 rfl rfl (by decide +kernel)
  have same := macs _ _ _ _ _ _ _ _ _ _ _ _ rfl
  have sampled := occupancySampled_completes run
  rw [State.occupancies, State.group?, same] at sampled
  exact absurd (sampled.symm.trans occupancySampled_macDo) (by decide)

end Sys2Proof.Machine
end

section
/-! PROOF. An addition that its home slice accepted before its gang was over (09:R212, 01:R27, 15:R371): a counterexample. -/

namespace Sys2Proof.Machine

theorem exec_homeSliceAct (k : Nat) (s : State) : exec (.homeSliceAct k) s = .next (s.homeAct k) := rfl

/-- A relaxed addition of a word to memory, without a result. -/
def plainAdd : Instr := .ared ⟨none, none⟩ ⟨0, 0⟩ false 0 ⟨⟨.s 0, .none⟩, none, 0, 0, 0⟩ ⟨.v 8, .none⟩

/-- The addition at its home slice: accepted, its long form complete, its act still to come (09:R212). -/
def acceptedAdd : Req :=
  { op := 7, gang := 0, access := false, lane := 0, va := 0x200000#64, mt := 0#2, key := 1#10, pa := 0x200000, sh := false, b := [5#32], c := []
    promoting := false, promoted := false, late := some (loneOp 0 plainAdd .home) }

/-- Barrier 2 of the group, its entry in the spill table: of the two gangs, gang 1 has arrived in phase 0, in which all gangs take part. -/
def spilledBarrier : Barrier := { phase := 0#32, count := some 0, arrivals := [1], last := 0, out := true }

/-- Gang 0 has no thread left and retires with its addition; gang 1 of its group waits for the phase after the next of the barrier. -/
def lastAddition : State :=
  let s := State.reset.placeWord []
  { s with
    gangs := (s.gangs.mapVal fun _ g => { g with threads := [], cctx := { g.cctx with lanes := [], path := 0#64, cur := none } }) ++
      s.gangs.map fun e => (1, { e.2 with num := 1, slot := 1 })
    groups := s.groups.upd 0 fun r => { r with bars := [(2, spilledBarrier)] }
    ops := [(8, loneOp 1 (.barw ⟨none, none⟩ ⟨0, 0⟩ false 2 ⟨.v 8, .none⟩) (.barw 1#32))]
    home := { s.home with q := [(9, acceptedAdd)] } }

theorem lastAddition_alone : lastAddition.home.sameAct acceptedAdd = [9] := by decide +kernel
theorem lastAddition_ready : lastAddition.reqReady 9 acceptedAdd = true := by decide +kernel

/-- No area of memory is the device's own before the addition; after it the spill table is one. -/
theorem lastAddition_areas : lastAddition.mem.areas = [] ∧ (lastAddition.homeAct 9).mem.areas ≠ [] := by decide +kernel

/-- Refutes O42: the act of an accepted addition can change more of memory than it adds to. Where it is the last act of a gang that is over, the gang
retires with it (01:R27), which can complete the phase of a barrier (15:R374); a barrier whose entry lies in the spill table, and which gangs still
wait for, is brought back, and the walker writes the table in HBM (15:R371). -/
theorem not_homeSlicesAct : ¬ Obligations.HomeSlicesAct := by
  unfold Obligations.HomeSlicesAct
  rintro ⟨-, -, -, -, -, additions, -⟩
  obtain ⟨-, accepted⟩ := additions lastAddition 9 acceptedAdd (loneOp 0 plainAdd .home) _ _ _ _ _ _ rfl lastAddition_alone lastAddition_ready rfl
    rfl
  obtain ⟨u, run, -, stored⟩ := accepted rfl
  obtain rfl : lastAddition.homeAct 9 = u := Host.Outcome.next.inj ((exec_homeSliceAct 9 lastAddition).symm.trans run)
  obtain ⟨before, after⟩ := lastAddition_areas
  exact after (stored.areas.trans before)

end Sys2Proof.Machine
end

section
/-! PROOF. Reservations of the operand buffer are made and freed (11:R249 to R252). -/

namespace Sys2Proof.Machine

/-- An instruction that writes its destination in its active lanes, and does no more, delivers the words. -/
theorem Env.writeDst_settled {e : Env} {u : Use} (last : e.uses.getLast? = some u) (s : State) (f : Nat → List Word) :
    e.writeDst (e.settle s e.act true) f = e.deliver s { dst := some (u.o, u.n), lanes := e.lanes, vals := f } := by
  rw [Env.writeDst, last, Env.deliver, Env.flags_zero]
  rfl

/-- An instruction that delivers nothing consumes its sources. -/
theorem Env.deliver_empty (e : Env) (s : State) : e.deliver s {} = e.settle s e.act true := e.flags_zero _

/-- The sources of an instruction are not among what the cores keep. -/
theorem Env.settle_setCores (e : Env) (s : State) (cores : CoreSys) (m : Mask) (all : Bool) :
    e.settle (s.setCores cores) m all = (e.settle s m all).setCores cores := by
  rw [Env.settle_eq, Env.settle_eq]
  split
  · rfl
  · dsimp only
    split <;> rfl

theorem exec_fmtres (p : Pfx) (l : Lf) (fmt : BitVec 4) (swz : BitVec 2) (blk : Bool) (d : Opnd) (a : Hs) (s : State) :
    exec (.fmtres p l fmt swz blk d a) s = run (.fmtres p l fmt swz blk d a) s fun e s =>
      match e.nib with
      | none => .done s
      | some n =>
        let (st, r) := s.reserve e.core e.g.group e.l.kern.opndk fmt.toNat swz.toNat blk (e.word 0 n)
        let s := match r with
          | none => s
          | some (k, r) => s.setCores { s.cores with recs := s.cores.recs.put (64 * e.core + k) r }
        .done (e.writeDst (e.settle s e.act true) fun _ => [st]) := rfl

theorem exec_fmtrel (p : Pfx) (l : Lf) (a : Hs) (s : State) : exec (.fmtrel p l a) s = run (.fmtrel p l a) s fun e s =>
    match e.nib with
    | none => .done s
    | some n =>
      let x := (e.word 0 n).toNat
      if 64 ≤ x then .raise s e.matInsn
      else match e.recOf s x with
        | none => .raise s (e.notHeld 6 x)
        | some _ => .done ((e.settle s e.act true).setCores { s.cores with recs := s.cores.recs.del (64 * e.core + x) }) := rfl

/-- The record that `fmtres` makes, if any, in the table of its core. -/
def Env.keepRec (e : Env) (r : Option (Nat × Rec)) (s : State) : State :=
  match r with
  | none => s
  | some (n, r) => s.setCores { s.cores with recs := s.cores.recs.put (64 * e.core + n) r }

theorem Env.keepRec_gangs (e : Env) (r : Option (Nat × Rec)) (s : State) : (e.keepRec r s).gangs = s.gangs := by cases r <;> rfl

theorem Env.keepRec_awake (e : Env) (r : Option (Nat × Rec)) (s : State) : e.keepRec r (e.awake s) = e.awake (e.keepRec r s) := by
  cases r <;> rfl

/-- `fmtres` decides from the records of its core, whether or not its path has woken, and delivers the status word. -/
theorem deliversTo_fmtres (p : Pfx) (l : Lf) (fmt : BitVec 4) (swz : BitVec 2) (blk : Bool) (d : Opnd) (a : Hs) (k : Nat) :
    DeliversTo (.fmtres p l fmt swz blk d a) (fun _ e => e.nib = some k)
      (fun e s => e.keepRec (s.reserve e.core e.g.group e.l.kern.opndk fmt.toNat swz.toNat blk (e.word 0 k)).2 s)
      fun s e => e.result1 d fun _ => (s.reserve e.core e.g.group e.l.kern.opndk fmt.toNat swz.toNat blk (e.word 0 k)).1 := by
  refine deliversTo_at (exec_fmtres p l fmt swz blk d a) ?_ (fun s e ready _ => (Env.Base.of_ready ready).of_gangs (e.keepRec_gangs _ s))
    (fun _ _ => Or.inl rfl) (fun _ _ long => nomatch long)
  intro s e _ spec nib
  have last : e.uses.getLast? = some (.dst d 1 .plain) := by rw [Env.uses, spec.instr]; rfl
  rw [nib, ← e.keepRec_awake]
  exact congrArg Res.done (Env.writeDst_settled last _ _)

/-- `fmtrel` consumes its source, and the record is gone. -/
theorem deliversTo_fmtrel (p : Pfx) (l : Lf) (a : Hs) (k : Nat) : DeliversTo (.fmtrel p l a)
    (fun s e => e.nib = some k ∧ (e.word 0 k).toNat < 64 ∧ (e.recOf s (e.word 0 k).toNat).isSome = true)
    (fun e s => s.setCores { s.cores with recs := s.cores.recs.del (64 * e.core + (e.word 0 k).toNat) }) fun _ _ => {} := by
  refine deliversTo_at (exec_fmtrel p l a) ?_ (fun s e ready _ => (Env.Base.of_ready ready).of_gangs rfl)
    (fun _ _ => Or.inr rfl) (fun _ _ long => nomatch long)
  rintro s e - - ⟨nib, small, held⟩
  obtain ⟨r, held⟩ := Option.isSome_iff_exists.1 held
  have held : e.recOf (e.awake s) (e.word 0 k).toNat = some r := held
  simp only [nib, held, if_neg (Nat.not_le.2 small)]
  rw [e.deliver_empty, ← e.settle_setCores]
  rfl

/-- Settles O24: `fmtres` keeps the record that its reservation names and delivers its status word, `fmtrel` deletes a record of its group. -/
theorem reservations : Obligations.Reservations := by
  unfold Obligations.Reservations
  exact ⟨deliversTo_fmtres, deliversTo_fmtrel⟩

end Sys2Proof.Machine
end

section
/-! PROOF. Tiles are read and cleared, and status words read (11:R268 to R270). -/

namespace Sys2Proof.Machine

/-- The trap of a lane of `mrd` that fails a check (09:R197). -/
def Env.mrdCheck (e : Env) (tile n lane : Nat) : Option TrapRec :=
  let x := (e.word 0 lane).toNat
  if e.l.kern.acct ≤ tile then some (e.trap 4 6 (bit lane) (BitVec.ofNat 17 tile) 0#32 0#32)
  else if x % n ≠ 0 then some (e.trap 5 1 (bit lane) (kindX .read (Nat.log2 (4 * n))) (BitVec.ofNat 32 x) 0#32)
  else if 8191 < x then some (e.trap 4 8 (bit lane) (BitVec.ofNat 17 tile) (BitVec.ofNat 32 x) 0#32)
  else none

/-- The trap of a lane of `mrd` that reads a poisoned element (08:R190). -/
def Env.mrdPoison (e : Env) (g : Group) (tile n lane : Nat) : Option TrapRec :=
  let x := (e.word 0 lane).toNat
  ((List.range n).find? fun j => g.tilePoison tile (x + j)).map fun j =>
    e.trap 13 4 (bit lane) 0#17 (0xC0000000#32 + BitVec.ofNat 32 (4 * accKey tile (x + j))) 0#32

/-- Lanes that fail, with their traps. -/
def failing (check : Nat → Option TrapRec) (lanes : List Nat) : Assoc TrapRec := lanes.filterMap fun k => (check k).map fun t => (k, t)

theorem failing_none {check : Nat → Option TrapRec} {lanes : List Nat} (pass : ∀ k ∈ lanes, check k = none) : failing check lanes = [] :=
  List.filterMap_eq_nil_iff.2 fun k on => by rw [pass k on]; rfl

theorem exec_mrd (p : Pfx) (l : Lf) (w : BitVec 2) (t : BitVec 7) (d : Opnd) (a : Hs) (s : State) :
    exec (.mrd p l w t d a) s = run (.mrd p l w t d a) s fun e s =>
      if e.act = 0#64 then .done s
      else if s.matBusy e.g.group then .hold s
      else match s.group? e.g.group with
        | none => .hold s
        | some g =>
          let fails := failing (e.mrdCheck t.toNat (2 ^ w.toNat)) e.lanes
          let ok := e.act &&& ~~~failMask fails
          let bad := failing (e.mrdPoison g t.toNat (2 ^ w.toNat)) (lanesOf ok)
          if !bad.isEmpty then s.allFail bad
          else if ok = 0#64 then e.part s fails
          else e.part (e.launchOp ((e.settle s ok fails.isEmpty).writeReg e.x d (2 ^ w.toNat) (lanesOf ok) e.nib fun k =>
            (List.range (2 ^ w.toNat)).map fun j => g.tileElem t.toNat ((e.word 0 k).toNat + j)) ok) fails := rfl

theorem exec_mclr (p : Pfx) (l : Lf) (st : Bool) (t : BitVec 7) (s : State) : exec (.mclr p l st t) s = run (.mclr p l st t) s fun e s =>
    if e.act = 0#64 then .done s
    else if e.l.kern.acct ≤ t.toNat then .raise s (e.notHeld 6 t.toNat)
    else if s.matBusy e.g.group then .hold s
    else .done (e.launchOp (s.updGroup e.g.group fun g => g.clearTile t.toNat st) e.act) := rfl

/-- The status word of a tile of a group; 0 where there is no group. -/
def State.tileStatus (s : State) (group tile : Nat) : DWord :=
  match s.group? group with
  | none => 0#64
  | some g => g.tstat.getD tile 0#64

theorem State.tileStatus_eq (s : State) (group tile : Nat) :
    s.tileStatus group tile = ((s.group? group).map fun g => g.tstat.getD tile 0#64).getD 0#64 := by
  unfold State.tileStatus
  cases s.group? group <;> rfl

/-- The status word of a tile is cleared unless it is kept. -/
def State.readStatus (s : State) (keep : Bool) (group tile : Nat) : State :=
  if keep then s else s.updGroup group fun g => { g with tstat := g.tstat.del tile }

theorem State.readStatus_gangs (s : State) (keep : Bool) (group tile : Nat) : (s.readStatus keep group tile).gangs = s.gangs := by
  cases keep <;> rfl

theorem Env.readStatus_awake (e : Env) (s : State) (keep : Bool) (group tile : Nat) :
    (e.awake s).readStatus keep group tile = e.awake (s.readStatus keep group tile) := by
  cases keep <;> rfl

theorem exec_mstat (p : Pfx) (l : Lf) (keep : Bool) (t : BitVec 7) (d : Opnd) (s : State) :
    exec (.mstat p l keep t d) s = run (.mstat p l keep t d) s fun e s =>
      if e.act = 0#64 then .done s
      else if e.l.kern.acct ≤ t.toNat then .raise s (e.notHeld 6 t.toNat)
      else if s.matBusy e.g.group then .hold s
      else e.longWrite (s.readStatus keep e.g.group t.toNat) fun _ => dwords (s.tileStatus e.g.group t.toNat) := rfl

/-- `mrd` whose lanes all pass writes its destination and enters flight. -/
theorem deliversTo_mrd (p : Pfx) (l : Lf) (w : BitVec 2) (t : BitVec 7) (d : Opnd) (a : Hs) (g : Group) : DeliversTo (.mrd p l w t d a)
    (fun s e => e.act ≠ 0#64 ∧ s.matBusy e.g.group = false ∧ s.group? e.g.group = some g ∧ t.toNat < e.l.kern.acct ∧
      ∀ k, e.act.getLsbD k = true → (e.word 0 k).toNat % 2 ^ w.toNat = 0 ∧ (e.word 0 k).toNat ≤ 8191 ∧
        ∀ j, j < 2 ^ w.toNat → g.tilePoison t.toNat ((e.word 0 k).toNat + j) = false) (fun _ s => s)
    fun _ e => e.longResult d (2 ^ w.toNat) fun k => (List.range (2 ^ w.toNat)).map fun j => g.tileElem t.toNat ((e.word 0 k).toNat + j) := by
  refine deliversTo_at (exec_mrd p l w t d a) ?_ (fun s e ready _ => Env.Base.of_ready ready) (fun _ _ => Or.inl rfl)
    (fun _ _ _ => Option.some_ne_none l)
  rintro s e - - ⟨active, idle, group, tile, lanes⟩
  have idle : (e.awake s).matBusy e.g.group = false := idle
  have group : (e.awake s).group? e.g.group = some g := group
  have pass : failing (e.mrdCheck t.toNat (2 ^ w.toNat)) e.lanes = [] := failing_none fun k on => by
    obtain ⟨aligned, inside, -⟩ := lanes k (mem_lanesOf.1 on)
    simp only [Env.mrdCheck, if_neg (Nat.not_le.2 tile), aligned, ne_eq, not_true, if_false, if_neg (Nat.not_lt.2 inside)]
  have clean : failing (e.mrdPoison g t.toNat (2 ^ w.toNat)) e.lanes = [] := failing_none fun k on => by
    obtain ⟨-, -, clean⟩ := lanes k (mem_lanesOf.1 on)
    exact Option.map_eq_none_iff.2 (List.find?_eq_none.2 fun j small => by rw [clean j (List.mem_range.1 small)]; exact Bool.false_ne_true)
  have all : e.act &&& ~~~failMask [] = e.act := BitVec.and_allOnes
  have clean : failing (e.mrdPoison g t.toNat (2 ^ w.toNat)) (lanesOf e.act) = [] := clean
  simp only [if_neg active, idle, group, pass, all, clean, Bool.false_eq_true, List.isEmpty_nil, Bool.not_true, if_false]
  exact congrArg Res.done (e.flags_zero _).symm

/-- `mclr` has no sources: its group's tile is cleared, and it enters flight. -/
theorem deliversTo_mclr (p : Pfx) (l : Lf) (st : Bool) (t : BitVec 7) : DeliversTo (.mclr p l st t)
    (fun s e => e.act ≠ 0#64 ∧ s.matBusy e.g.group = false ∧ t.toNat < e.l.kern.acct)
    (fun e s => s.updGroup e.g.group fun g => g.clearTile t.toNat st) fun _ _ => { long := true } := by
  rintro s e ready ⟨active, idle, tile⟩
  have idle : (e.awake s).matBusy e.g.group = false := idle
  refine ⟨_, (exec_mclr p l st t s).trans (run_done ready.env ready.goes ?_),
    Env.effect_fence (r := s.updGroup e.g.group fun g => g.clearTile t.toNat st) ready active rfl rfl ((Env.Base.of_ready ready).of_gangs rfl) .none⟩
  simp only [if_neg active, if_neg (Nat.not_le.2 tile), idle, Bool.false_eq_true, if_false]
  exact congrArg Res.done (if_neg active)

/-- `mstat` is a long form that writes the status word, once it has been cleared or kept. -/
theorem deliversTo_mstat (p : Pfx) (l : Lf) (keep : Bool) (t : BitVec 7) (d : Opnd) : DeliversTo (.mstat p l keep t d)
    (fun s e => e.act ≠ 0#64 ∧ s.matBusy e.g.group = false ∧ t.toNat < e.l.kern.acct)
    (fun e s => s.readStatus keep e.g.group t.toNat)
    fun s e => e.longResult d 2 fun _ => dwords (((s.group? e.g.group).map fun g => g.tstat.getD t.toNat 0#64).getD 0#64) := by
  refine deliversTo_at (exec_mstat p l keep t d) ?_ (fun s e ready _ => (Env.Base.of_ready ready).of_gangs (s.readStatus_gangs ..))
    (fun _ _ => Or.inl rfl) (fun _ _ _ => Option.some_ne_none l)
  rintro s e - spec ⟨active, idle, tile⟩
  have idle : (e.awake s).matBusy e.g.group = false := idle
  have last : e.uses.getLast? = some (.dst d 2 .plain) := by rw [Env.uses, spec.instr]; rfl
  simp only [if_neg active, if_neg (Nat.not_le.2 tile), idle, Bool.false_eq_true, if_false]
  rw [Env.longWrite_eq last, e.readStatus_awake, ← s.tileStatus_eq]
  rfl

/-- Settles O27: where all lanes pass, `mrd` writes the elements and enters flight; `mclr` consumes nothing and clears the tile of its group; `mstat`
reads the status word before it clears it. -/
theorem tilesReadAndClear : Obligations.TilesReadAndClear := by
  unfold Obligations.TilesReadAndClear
  exact ⟨deliversTo_mrd, deliversTo_mclr, deliversTo_mstat⟩

end Sys2Proof.Machine
end

section
/-! PROOF. Matrix instructions that the lanes of their path have all completed before (11:R254): counterexamples. -/

namespace Sys2Proof.Machine

/-- Two reservations of `.bf16` elements, of 16 and 32 rows of 64, follow each other in the operand buffer. The scratchpad of the group holds at 0 the
parameters of 11's example of one accumulation: M 16, N 32, K 16, all offsets 0. Lane 0 of the placed gang, alone in the path, has completed the
instruction that stands next; its s registers hold the operands. -/
def matrixCompleted (regs : Assoc Reg) : State :=
  let s := ((State.reset.placeWord []).setCur (some ⟨0, false⟩)).updLaunch 0 fun l => { l with kern := { l.kern with spadb := 4096 } }
  let s := s.updGroup 0 fun g => { g with spad := [(0, 16#8), (2, 32#8), (4, 16#8)] }
  let s := s.setCores { s.cores with recs := [(0, operandRows 0 16), (1, operandRows 16 32)] }
  s.updCtx ⟨0, false⟩ fun c => { c with path := 1#64, cur := c.cur.map fun k => { k with done := 1#64 }, s := regs }

/-- Whether a matrix instruction leaves long forms in flight. -/
def State.flying (s : State) : Bool := !s.ops.isEmpty

/-- An instruction in whose environment no lane is active delivers no flight to a state without long forms. -/
theorem grounded_of_delivers {s t : State} {e : Env} {o : Out} (effect : Effect e s t o) (inactive : e.act = 0#64) (grounded : s.ops = []) :
    t.flying = false := by
  have same : t.ops = s.ops := (if_neg fun flies => flies.2 inactive).mp effect.ops
  rw [State.flying, same, grounded]
  rfl

/-! ### A load of a rectangle -/

/-- `mld` with the scratchpad address in s0, the descriptor in s4:s5, the place of the rectangle in s6 and the record in s8. -/
def loadRect : Instr := .mld ⟨none, none⟩ ⟨0, 0⟩ false (.s 8) ⟨.s 0, .none⟩ ⟨.s 4, .none⟩ ⟨.s 6, .none⟩

/-- A row of 16 elements at 0x200, into the first row of the first reservation. -/
def loadCompleted : State :=
  matrixCompleted [(0, ⟨0x200#32, false, false⟩), (4, ⟨0x100001#32, false, false⟩), (5, ⟨0x20#32, false, false⟩), (6, ⟨0#32, false, false⟩),
    (8, ⟨0#32, false, false⟩)]

/-- The environment of that load. -/
def rectEnv : Env := (env? loadRect loadCompleted).get (by decide +kernel)

theorem rectEnv_ready : Ready loadRect loadCompleted rectEnv := ⟨(Option.some_get _).symm, by decide +kernel, by decide +kernel⟩

/-- The bytes of the rectangle, all in the group's own scratchpad. -/
def rectPlaces : List SpadRef := (List.range 32).map fun i => ⟨0, 0x200 + i, false⟩

theorem rectEnv_goes : rectEnv.rectGoes loadCompleted false false false (operandRows 0 16) rectPlaces :=
  ⟨0, by decide +kernel, by decide +kernel, by decide +kernel, by decide +kernel, by decide +kernel, by decide +kernel,
    fun swizzled => absurd rfl swizzled, by decide +kernel, by decide +kernel⟩

theorem rectPlaces_free : loadCompleted.absentAll rectPlaces = [] ∧ loadCompleted.heldAll rectPlaces none = false := by decide +kernel

/-- A lane that has completed the load still counts for the nib, though none is active; the load enters flight. -/
theorem loadCompleted_flies {t : State} (run : exec loadRect loadCompleted = .next t) : t.flying = true :=
  nextPasses_spec (by decide +kernel) run

/-- Refutes O25: a good rectangle and a nib do not make a lane active. The model's nib is the lowest of all lanes of the instruction, those that have
completed it before among them. Where they all have, no lane is active, and `mld` enters flight nevertheless; the statement, as 11:R254, asks that
an instruction without an active lane enter none. -/
theorem not_rectanglesMove : ¬ Obligations.RectanglesMove := by
  unfold Obligations.RectanglesMove
  rintro ⟨loads, -⟩
  obtain ⟨t, run, effect⟩ := loads _ _ _ _ _ _ _ (operandRows 0 16) rectPlaces loadCompleted rectEnv rectEnv_ready ⟨rectEnv_goes, rectPlaces_free⟩
  exact absurd (loadCompleted_flies run) (by rw [grounded_of_delivers effect (by decide +kernel) rfl]; exact Bool.false_ne_true)

/-! ### A multiply-accumulate -/

/-- `mmac` with the address of its parameters in s6 and the selection word in s8. -/
def accumulateOnce : Instr := .mmac ⟨none, none⟩ ⟨0, 0⟩ ⟨.s 6, .none⟩ ⟨.s 8, .none⟩

/-- The accumulation of `firstMac`: its parameters at 0, records 0 and 1, tile 0 with ZERO. -/
def macCompleted : State := matrixCompleted [(6, ⟨0#32, false, false⟩), (8, ⟨0x00800100#32, false, false⟩)]

/-- The environment of that accumulation, and its operands. -/
def macEnv : Env := (env? accumulateOnce macCompleted).get (by decide +kernel)
def macOperands : Mac := ⟨true, 0, 16, 32, 16, 0, 0, 0, 0, operandRows 0 16, operandRows 16 32⟩

theorem macEnv_ready : Ready accumulateOnce macCompleted macEnv := ⟨(Option.some_get _).symm, by decide +kernel, by decide +kernel⟩

/-- The parameters of the accumulation as bytes. -/
def macParameters : List Byte := [16#8, 0#8, 32#8, 0#8, 16#8] ++ List.replicate 11 0#8

theorem macEnv_parameters : macEnv.readBlock macCompleted (macEnv.word 0 0).toNat 16 true = .ok macParameters := rfl

/-- The example's products take steps of 8 along K and demand 6 units of current. -/
theorem macEnv_goes : macEnv.macGoes macCompleted false macOperands 6 :=
  ⟨0, macParameters, 8, by decide +kernel, by decide +kernel, macEnv_parameters, by decide +kernel⟩

theorem macCompleted_flies {t : State} (run : exec accumulateOnce macCompleted = .next t) : t.flying = true :=
  nextPasses_spec (by decide +kernel) run

/-- Refutes O26: as a load of a rectangle, a multiply-accumulate whose checks pass enters flight, and asks for current, where all lanes of its path have
completed it before and none is active. -/
theorem not_multiplyAccumulates : ¬ Obligations.MultiplyAccumulates := by
  unfold Obligations.MultiplyAccumulates
  rintro ⟨accumulates, -⟩
  obtain ⟨t, run, effect⟩ := accumulates _ _ _ _ macOperands 6 macCompleted macEnv macEnv_ready macEnv_goes
  exact absurd (macCompleted_flies run) (by rw [grounded_of_delivers effect (by decide +kernel) rfl]; exact Bool.false_ne_true)

end Sys2Proof.Machine
end

section
/-! SUPPORT. Bookkeeping, the advance of a clause and the selection of a path leave the queues of every gang, with their limits, as they are. -/

namespace Sys2Proof.Machine

/-- The queues of a gang. -/
def State.queuesOf (s : State) (k : Nat) : Option (Assoc Queue) := (s.gang? k).map Gang.queues

theorem Gang.updCtx_queues (g : Gang) (a : Bool) (F : Ctx → Ctx) : (g.updCtx a F).queues = g.queues := by cases a <;> rfl

namespace State

theorem queuesOf_of_gangs {s t : State} (same : t.gangs = s.gangs) (k : Nat) : t.queuesOf k = s.queuesOf k := by
  unfold queuesOf gang?; rw [same]

theorem queuesOf_updGang (s : State) (n : Nat) {f : Gang → Gang} (keeps : ∀ g, (f g).queues = g.queues) (k : Nat) :
    (s.updGang n f).queuesOf k = s.queuesOf k := by
  unfold queuesOf
  rw [gang?_updGang']
  split
  · rw [Option.map_map]; exact congrArg (Option.map · _) (funext keeps)
  · rfl

theorem queuesOf_mapGangs (s : State) {f : Nat → Gang → Gang} (keeps : ∀ n g, (f n g).queues = g.queues) (k : Nat) :
    (s.setGangs (s.gangs.mapVal f)).queuesOf k = s.queuesOf k := by
  unfold queuesOf gang?
  rw [setGangs_gangs, Assoc.get?_mapVal, Option.map_map]
  exact congrArg (Option.map · _) (funext (keeps k))

@[simp] theorem queuesOf_updCtx (s : State) (x : Site) (F : Ctx → Ctx) (k : Nat) : (s.updCtx x F).queuesOf k = s.queuesOf k :=
  s.queuesOf_updGang x.gang (fun g => g.updCtx_queues x.access F) k

@[simp] theorem queuesOf_updThread (s : State) (g n : Nat) (f : Thread → Thread) (k : Nat) : (s.updThread g n f).queuesOf k = s.queuesOf k :=
  s.queuesOf_updGang g (f := fun x => { x with threads := x.threads.upd n f }) (fun _ => rfl) k

@[simp] theorem queuesOf_selectPath (s : State) (x : Site) (k : Nat) : (s.selectPath x).queuesOf k = s.queuesOf k :=
  s.queuesOf_updGang x.gang (fun g => g.updCtx_queues x.access _) k

@[simp] theorem queuesOf_setMem (s : State) (m : MemSys) (k : Nat) : (s.setMem m).queuesOf k = s.queuesOf k := rfl

/-! ### Anchors -/

@[simp] theorem ancFlags_gangs (s : State) (pa : Nat) : (s.ancFlags pa).gangs = s.gangs := setMem_gangs _ _

@[simp] theorem spillWalk_gangs (s : State) : s.spillWalk.gangs = s.gangs := setMem_gangs _ _

@[simp] theorem monTouch_gangs (s : State) (slice ent : Nat) : (s.monTouch slice ent).gangs = s.gangs := by
  unfold monTouch freshId
  dsimp only
  split
  · split <;> simp
  · split <;> split <;> simp

@[simp] theorem queuesOf_ancTouch (s : State) (pa k : Nat) : (s.ancTouch pa).queuesOf k = s.queuesOf k := by
  refine queuesOf_of_gangs ?_ k
  unfold ancTouch
  dsimp only
  split <;> split <;> simp

@[simp] theorem queuesOf_acquire (s : State) (pa : Nat) (va : DWord) (g lane : Nat) (capa exit resume : DWord) (k : Nat) :
    (s.acquire pa va g lane capa exit resume).queuesOf k = s.queuesOf k := by
  unfold acquire
  split
  · rfl
  · simp

@[simp] theorem queuesOf_adopt (s : State) (pa : Nat) (va : DWord) (g lane : Nat) (capa exit : DWord) (k : Nat) :
    (s.adopt pa va g lane capa exit).queuesOf k = s.queuesOf k := by
  unfold adopt
  split
  · rfl
  · dsimp only
    split <;> simp

theorem queuesOf_grant (s : State) (pa : Nat) (c : Contender) (adopting : Bool) (k : Nat) : (s.grant pa c adopting).queuesOf k = s.queuesOf k := by
  unfold grant
  split
  · rfl
  · next t _ =>
    have woken : (((s.onKey t.link.key pa).leaveFifo pa c).updCtx ⟨c.gang, false⟩ fun x => x.wake (bit c.lane)).queuesOf k = s.queuesOf k :=
      queuesOf_updCtx ..
    dsimp only
    rw [queuesOf_selectPath, holderDone, queuesOf_of_gangs (setOps_gangs _ _)]
    split
    · rw [queuesOf_adopt, woken]
    · rw [queuesOf_acquire, woken]

theorem queuesOf_stallAnchor (s : State) (g lane k : Nat) : (s.stallAnchor g lane).queuesOf k = s.queuesOf k := by
  unfold stallAnchor
  split
  · rfl
  · dsimp only
    split
    · split
      · simp
      · rw [queuesOf_grant, queuesOf_setMem]
    · rfl

/-! ### The end of an instruction -/

theorem queuesOf_stopStepped (s : State) (x : Site) (split : Ctx → Ctx) (k : Nat) : (s.stopStepped x split).queuesOf k = s.queuesOf k := by
  unfold stopStepped
  dsimp only
  split
  · exact queuesOf_updCtx ..
  · split
    · exact queuesOf_updCtx ..
    · exact List.foldlRecOn (motive := fun u : State => u.queuesOf k = s.queuesOf k) _ _ (queuesOf_updCtx ..)
        fun u kept h _ => (u.queuesOf_stallAnchor x.gang h k).trans kept

theorem queuesOf_endGrant (s : State) (x : Site) (k : Nat) : (s.endGrant x).queuesOf k = s.queuesOf k := by
  unfold endGrant
  split
  · rfl
  · exact queuesOf_updCtx ..

end State

namespace Env

theorem queuesOf_closeClause (e : Env) (s : State) (f split : Ctx → Ctx) (k : Nat) : (e.closeClause s f split).queuesOf k = s.queuesOf k := by
  unfold closeClause
  extract_lets t u
  have yielded : t.queuesOf k = s.queuesOf k := by unfold t; split <;> rfl
  have ended : u.queuesOf k = s.queuesOf k := by unfold u; rw [State.queuesOf_endGrant, State.queuesOf_updCtx, yielded]
  split
  · exact ended
  · split
    · exact ended
    · rw [State.queuesOf_stopStepped, ended]

theorem queuesOf_advance (e : Env) (s : State) (k : Nat) : (e.advance s).queuesOf k = s.queuesOf k := by
  unfold advance
  split
  · exact State.queuesOf_updCtx ..
  · split
    · exact e.queuesOf_closeClause ..
    · exact State.queuesOf_updCtx ..

theorem queuesOf_issued (e : Env) (s : State) (k : Nat) : (e.issued s).queuesOf k = s.queuesOf k := by
  unfold issued
  extract_lets t u v
  have aged : u.queuesOf k = s.queuesOf k := t.queuesOf_mapGangs (fun n g => by
    split
    · rfl
    · exact (e.ageOthers_age t n g).queues) k
  show v.queuesOf k = _
  unfold v
  split
  · exact aged
  · rw [State.queuesOf_updCtx, aged]

/-- What follows an instruction's own effect leaves queues and limits. -/
theorem queuesOf_finish (e : Env) (s : State) (k : Nat) : (e.finish s).queuesOf k = s.queuesOf k := by
  rw [finish, State.queuesOf_selectPath, queuesOf_advance, queuesOf_issued]

end Env

end Sys2Proof.Machine
end

section
/-! PROOF. The queue instructions (12:R292 to R296): each changes its queue before it delivers, and none reads a register. -/

namespace Sys2Proof.Machine

/-! ### An instruction without sources -/

/-- An instruction whose operands are destinations consumes nothing. -/
theorem Env.settleCtx_of_dst {e : Env} (dst : ∀ u ∈ e.uses, u.role = .dst ∧ u.last = false) (m : Mask) (all : Bool) (c : Ctx) :
    e.settleCtx m all c = c := by
  have live : (lanesOf m).any e.deadIn = false := List.any_eq_false.2 fun n _ => by
    rw [Env.deadIn, Bool.not_eq_true, List.any_eq_false]
    intro u on
    simp [Env.deadUse, Env.useReads, (dst u.1 (List.fst_mem_of_mem_zipIdx on)).1]
  unfold Env.settleCtx
  rw [live]
  exact List.foldlRecOn (motive := fun d => d = c) _ _ rfl fun d same u on => by
    rw [killUse, (dst u on).2]; exact same

/-- The wake of the path writes the table of gangs, so that an instruction without sources leaves its woken state to the letter. -/
theorem Env.settle_awake_of_dst {e : Env} (dst : ∀ u ∈ e.uses, u.role = .dst ∧ u.last = false) (s : State) (m : Mask) (all : Bool) :
    e.settle (e.awake s) m all = e.awake s := by
  have popless : e.popList = [] := List.filterMap_eq_nil_iff.2 fun u on => by rw [(dst u on).1]; cases u.o <;> rfl
  have same : e.settleCtx m all = id := funext (e.settleCtx_of_dst dst m all)
  have idle : (e.awake s).updCtx e.x id = e.awake s := by
    unfold Env.awake State.updCtx
    rw [State.updGang_updGang]
    congr 1
    funext g
    unfold Gang.updCtx
    cases e.x.access <;> simp
  rw [Env.settle_eq, same, idle, popless]
  exact ite_self _

/-- An instruction whose one operand is its destination, and that only writes it, delivers the words. -/
theorem Env.writeDst_awake {e : Env} {u : Use} (uses : e.uses = [u]) (dst : u.role = .dst ∧ u.last = false) (s : State) (f : Nat → List Word) :
    e.writeDst (e.awake s) f = e.deliver (e.awake s) { dst := some (u.o, u.n), lanes := e.lanes, vals := f } := by
  have all : ∀ v ∈ e.uses, v.role = .dst ∧ v.last = false := fun v on => by
    rw [uses] at on; rwa [List.mem_singleton.1 on]
  rw [← Env.writeDst_settled (by rw [uses]; rfl), e.settle_awake_of_dst all]

theorem Env.deliver_empty_awake {e : Env} (uses : e.uses = []) (s : State) : e.deliver (e.awake s) {} = e.awake s := by
  rw [e.deliver_empty, e.settle_awake_of_dst (by simp [uses])]

/-! ### Counts (12:R295) -/

theorem EnvSpec.queue {i : Instr} {s : State} {e : Env} (spec : EnvSpec i s e) (q : BitVec 3) (n : Nat) :
    s.queue e.x.gang q.toNat n = e.entries q n := by
  rw [State.queue, spec.gang]; rfl

theorem exec_qcount (p : Pfx) (l : Lf) (q : BitVec 3) (sel : BitVec 2) (d : Opnd) (s : State) : exec (.qcount p l q sel d) s =
    run (.qcount p l q sel d) s fun e s => .done (e.writeDst s fun n => [BitVec.ofNat 32 (e.queueCount q sel n)]) := rfl

/-- `qcount` delivers its count in every active lane and enters no flight. -/
theorem delivers_qcount (p : Pfx) (l : Lf) (q : BitVec 3) (sel : BitVec 2) (d : Opnd) {count : State → Env → Nat → Nat}
    (counts : ∀ s e, EnvSpec (.qcount p l q sel d) s e → count s e = e.queueCount q sel) :
    Delivers (.qcount p l q sel d) fun s e => e.result1 d fun k => BitVec.ofNat 32 (count s e k) := by
  refine delivers_of_done (exec_qcount p l q sel d) (fun s e spec => ?_) (fun _ _ => .inl rfl) fun _ _ long => nomatch long
  have uses : e.uses = [.dst d 1 .plain] := by rw [Env.uses, spec.instr]; rfl
  rw [e.writeDst_awake uses ⟨rfl, rfl⟩, counts s e spec]
  rfl

/-- Settles O59: a count is of the entries that the gang's queue holds in the lane; SEL 11 is no form of `qcount`. -/
theorem queueCounts : Obligations.QueueCounts := by
  unfold Obligations.QueueCounts
  refine ⟨fun p l q d => ?all, fun p l q d => ?ready, fun p l q d => ?free, fun p l q d s e env rounds => ?reserved⟩
  case all => exact delivers_qcount p l q 0#2 d fun s e spec => funext fun n => congrArg List.length (spec.queue q n)
  case ready =>
    refine delivers_qcount p l q 1#2 d fun s e spec => funext fun n => ?_
    rw [spec.queue q n]
    rfl
  case free =>
    refine delivers_qcount p l q 2#2 d fun s e spec => funext fun n => ?_
    rw [spec.queue q n]
    show _ = (match e.g.queues.get? q.toNat with | none => 0 | some r => r.limit) - (e.entries q n).length
    cases e.g.queues.get? q.toNat <;> rfl
  case reserved =>
    have instr : e.i = .qcount p l q 3#2 d := (env?_spec env).instr
    refine ⟨List.mem_append_left _ (List.mem_append_right _ (List.mem_singleton_self _)), fun lowest live => ⟨?_, rfl⟩⟩
    rw [exec_qcount]
    exact run_of_raise env (Env.gate_lowest (by rw [instr]; exact rounds) (by rw [instr]; exact lowest) (.inr live)) _

/-! ### Changes of a queue -/

/-- A change of one queue of a gang. -/
def Gang.updQueue (q : BitVec 3) (f : Queue → Queue) (g : Gang) : Gang := { g with queues := g.queues.upd q.toNat f }

theorem Assoc.has_upd {α : Type} (t : Assoc α) (k j : Nat) (f : α → α) : (t.upd k f).has j = t.has j := by
  unfold Assoc.has
  rw [Assoc.get?_upd]
  split
  · next same => rw [same, Option.isSome_map]
  · rfl

/-- The wake of the path and the change of a queue are of different parts of the gang. -/
theorem Env.awake_updQueue (e : Env) (s : State) (q : BitVec 3) (f : Queue → Queue) :
    (e.awake s).updGang e.x.gang (Gang.updQueue q f) = e.awake (s.updGang e.x.gang (Gang.updQueue q f)) :=
  (e.awake_updGang s _ fun g => by unfold Gang.updCtx; cases e.x.access <;> rfl).symm

theorem Env.Base.updQueue {e : Env} {s : State} (base : e.Base s) (q : BitVec 3) (f : Queue → Queue) :
    e.Base (s.updGang e.x.gang (Gang.updQueue q f)) :=
  base.updGang _ _ (fun _ _ => rfl) fun g k => Assoc.has_upd g.queues q.toNat k f

/-- A change of a queue that keeps its entries moves nothing. -/
theorem Moves.updQueue (s : State) (x : Site) (m : Mask) (k : Nat) (q : BitVec 3) {f : Queue → Queue} (keeps : ∀ r, (f r).ents = r.ents) :
    Moves x m s (s.updGang k (Gang.updQueue q f)) ∧ ∀ y, (s.updGang k (Gang.updQueue q f)).ctx? y = s.ctx? y := by
  have same (y : Site) : (s.updGang k (Gang.updQueue q f)).ctx? y = s.ctx? y := by
    rw [State.ctx?_updGang]
    split
    · next here => rw [State.ctx?_of_gang?, here]; rfl
    · rfl
  have ents (g : Gang) (j n : Nat) : (g.updQueue q f).ents j n = g.ents j n := by
    unfold Gang.ents Gang.updQueue
    rw [Assoc.get?_upd]
    split
    · next here => rw [here, Option.map_map]; simp only [Function.comp_def, keeps]
    · rfl
  refine ⟨?_, same⟩
  constructor
  case gangs => intro j; rw [State.gang?_updGang']; split; exacts [Option.map_map .., rfl]
  case threads =>
    intro j n
    rw [State.thread?_of_gang?, State.thread?_of_gang?, State.gang?_updGang']
    split
    · exact Option.bind_map ..
    · rfl
  case queues =>
    intro j i n
    rw [queue_eq_ents, queue_eq_ents, State.gang?_updGang']
    split
    · rw [Option.map_map]; simp only [Function.comp_def, ents]
    · rfl
  case ctxs => intro y; rw [same]
  case lanes => intro y n; unfold State.lane?; rw [same]
  case outside => intro y n _; unfold State.lane?; rw [same]
  all_goals intros; rfl

/-! ### Limits (12:R292) -/

/-- A queue with another live limit. -/
def Queue.setLimit (n : Nat) (r : Queue) : Queue := { r with limit := n }

theorem exec_qset (p : Pfx) (l : Lf) (q : BitVec 3) (n : BitVec 5) (s : State) : exec (.qset p l q n) s = run (.qset p l q n) s fun e s =>
    if e.act = 0#64 then .done s else .done (s.updGang e.x.gang (Gang.updQueue q (Queue.setLimit n.toNat))) := rfl

theorem State.queuesOf_updQueue (s : State) (k : Nat) (q : BitVec 3) (f : Queue → Queue) :
    (s.updGang k (Gang.updQueue q f)).queuesOf k = (s.queuesOf k).map fun t => t.upd q.toNat f := by
  rw [queuesOf, queuesOf, gang?_updGang, Option.map_map, Option.map_map]
  rfl

/-- The live limit of a queue is a matter of the gang's queues alone. -/
theorem State.limit_of_queuesOf (s : State) (k q : Nat) :
    ((s.gang? k).bind fun g => g.queues.get? q).map (·.limit) = ((s.queuesOf k).bind fun t => t.get? q).map (·.limit) := by
  rw [State.queuesOf, Option.bind_map]; rfl

/-- A limit that is set stands after the instruction. -/
theorem Env.limit_finish {i : Instr} {s : State} {e : Env} (spec : EnvSpec i s e) {q : BitVec 3}
    (declared : e.g.queues.has q.toNat = true) (n : Nat) :
    (((e.finish ((e.awake s).updGang e.x.gang (Gang.updQueue q (Queue.setLimit n)))).gang? e.x.gang).bind fun g =>
      g.queues.get? q.toNat).map (·.limit) = some n := by
  obtain ⟨r, found⟩ := Option.isSome_iff_exists.1 declared
  have table : (e.awake s).queuesOf e.x.gang = some e.g.queues :=
    (State.queuesOf_updCtx ..).trans (by rw [State.queuesOf, spec.gang]; rfl)
  rw [State.limit_of_queuesOf, e.queuesOf_finish, State.queuesOf_updQueue, table, Option.map_some, Option.bind_some, Assoc.get?_upd_self, found]
  rfl

/-- `qset` has no operands and moves nothing; its limit outlasts the end of the clause. -/
theorem qset_sets_limit (p : Pfx) (l : Lf) (q : BitVec 3) (n : BitVec 5) {s : State} {e : Env} (ready : Ready (.qset p l q n) s e)
    (active : e.act ≠ 0#64) : ∃ t, exec (.qset p l q n) s = .next t ∧ Effect e s t {} ∧
      (e.g.queues.has q.toNat = true → ((t.gang? e.x.gang).bind fun g => g.queues.get? q.toNat).map (·.limit) = some n.toNat) := by
  have moves (m : Mask) := Moves.updQueue (e.awake s) e.x m e.x.gang q (f := Queue.setLimit n.toNat) fun _ => rfl
  exact ⟨_, (exec_qset p l q n s).trans (run_done ready.env ready.goes (if_neg active)),
    e.effect_idle ready rfl ((moves 0#64).2 e.x) fun m => (moves m).1, fun declared => Env.limit_finish (env?_spec ready.env) declared n.toNat⟩

/-! ### Drains (12:R294) -/

/-- The entries of a queue in lanes are discarded. -/
def Queue.drain (m : Mask) (r : Queue) : Queue := { r with ents := r.ents.keep fun k _ => !m.getLsbD k }

theorem exec_qdrain (p : Pfx) (l : Lf) (q : BitVec 3) (d : Option Opnd) (s : State) :
    exec (.qdrain p l q d) s = run (.qdrain p l q d) s fun e s =>
      let s := s.updGang e.x.gang (Gang.updQueue q (Queue.drain e.act))
      .done (match d with
        | none => s
        | some _ => e.writeDst s fun n => [BitVec.ofNat 32 (e.entries q n).length]) := rfl

/-- What `qdrain` delivers: nothing, or how many entries it discards. -/
def Env.drainOut (e : Env) (q : BitVec 3) (d : Option Opnd) : Out :=
  match d with | none => {} | some d => e.result1 d fun k => BitVec.ofNat 32 (e.entries q k).length

theorem deliversTo_qdrain (p : Pfx) (l : Lf) (q : BitVec 3) (d : Option Opnd) : DeliversTo (.qdrain p l q d) (fun _ _ => True)
    (fun e s => s.updGang e.x.gang (Gang.updQueue q (Queue.drain e.act))) fun _ e => e.drainOut q d := by
  refine deliversTo_at (exec_qdrain p l q d) (fun s e _ spec _ => ?_) (fun s e ready _ => (Env.Base.of_ready ready).updQueue q _)
    (fun _ _ => ?_) (fun _ _ _ => Option.some_ne_none l)
  · dsimp only
    rw [e.awake_updQueue]
    cases d with
    | none => exact congrArg Res.done (e.deliver_empty_awake (by rw [Env.uses, spec.instr]; rfl) _).symm
    | some d => exact congrArg Res.done (e.writeDst_awake (u := .dst d 1 .plain) (by rw [Env.uses, spec.instr]; rfl) ⟨rfl, rfl⟩ _ _)
  · cases d
    · exact .inr rfl
    · exact .inl rfl

/-! ### Heads (12:R293, R296) -/

/-- The heads at which a queue instruction may raise a trap: all, or those without a token. -/
def Env.faultHeads (e : Env) (q : BitVec 3) (tokens : Bool) : List (Nat × Env.Port) :=
  if tokens then e.heads q else (e.heads q).filter fun x => match x.2 with | .token _ => false | _ => true

/-- A lane is active, and the heads are settled and raise no trap. -/
def Env.goodHeads (e : Env) (q : BitVec 3) (tokens : Bool) : Prop :=
  e.act ≠ 0#64 ∧ Env.settled (e.heads q) = true ∧ e.portTrap [(q, e.faultHeads q tokens)] = none

/-- Where the heads are good, the instruction goes on. -/
theorem Env.atHeads_of_good {e : Env} {q : BitVec 3} {tokens : Bool} (good : e.goodHeads q tokens) (s : State) (eff : State → Res) :
    e.atHeads s q tokens eff = eff s := by
  obtain ⟨active, settled, good⟩ := good
  unfold Env.faultHeads at good
  unfold Env.atHeads
  simp only [if_neg active, settled, Bool.not_true, Bool.false_eq_true, if_false]
  split
  · next trap => cases good.symm.trans trap
  · rfl

theorem exec_qpeek (p : Pfx) (l : Lf) (q : BitVec 3) (d : Opnd) (s : State) : exec (.qpeek p l q d) s = run (.qpeek p l q d) s fun e s =>
    e.atHeads s q true fun s => e.longWrite s fun n => [e.read (.q q) 0 0 n] := rfl
theorem exec_qtokTest (p : Pfx) (l : Lf) (q k : BitVec 3) (s : State) : exec (.qtokTest p l q k) s = run (.qtokTest p l q k) s fun e s =>
    e.atHeads s q false fun s => .done (e.launchOp (e.writePred s k fun n => (e.headToken q n).isSome) e.act) := rfl

/-- The heads in lanes leave a queue. -/
def Queue.popHeads (lanes : List Nat) (r : Queue) : Queue :=
  { r with ents := lanes.foldl (fun t k => t.put k ((t.getD k []).drop 1)) r.ents }

/-- The active lanes whose head is a token. -/
def Env.tokenLanes (e : Env) (q : BitVec 3) : List Nat := e.lanes.filter fun n => (e.headToken q n).isSome

/-- What `qtok.take` delivers: the token at the head, or zeros. -/
def Env.tokenWords (e : Env) (q : BitVec 3) (n : Nat) : List Word :=
  match e.headToken q n with
  | none => [0#32, 0#32, 0#32, 0#32]
  | some t => t.words

theorem exec_qtokTake (p : Pfx) (l : Lf) (q : BitVec 3) (d : Opnd) (s : State) : exec (.qtokTake p l q d) s = run (.qtokTake p l q d) s fun e s =>
    e.atHeads s q false fun s => e.longWrite (s.updGang e.x.gang (Gang.updQueue q (Queue.popHeads (e.tokenLanes q)))) (e.tokenWords q) := rfl

/-- `qpeek` is a long form that reads the head. -/
theorem deliversTo_qpeek (p : Pfx) (l : Lf) (q : BitVec 3) (d : Opnd) : DeliversTo (.qpeek p l q d) (fun _ e => e.goodHeads q true) (fun _ s => s)
    fun _ e => e.longResult d 1 fun k => [e.read (.q q) 0 0 k] := by
  refine deliversTo_at (exec_qpeek p l q d) ?_ (fun s e ready _ => .of_ready ready) (fun _ _ => .inl rfl) fun _ _ _ => Option.some_ne_none l
  intro s e _ spec good
  rw [Env.atHeads_of_good good]
  exact Env.longWrite_eq (u := .dst d 1 .vOnly) (by rw [Env.uses, spec.instr]; rfl) _ _

/-- `qtok.test` is a long form that writes a predicate. -/
theorem deliversTo_qtokTest (p : Pfx) (l : Lf) (q k : BitVec 3) : DeliversTo (.qtokTest p l q k) (fun _ e => e.goodHeads q false) (fun _ s => s)
    fun _ e => { pred := some (k, fun n => (e.headToken q n).isSome), long := true } := by
  refine deliversTo_at (exec_qtokTest p l q k) ?_ (fun s e ready _ => .of_ready ready) (fun _ _ => .inr rfl) fun _ _ _ => Option.some_ne_none l
  intro s e _ spec good
  have uses : e.uses = [] := by rw [Env.uses, spec.instr]; rfl
  rw [Env.atHeads_of_good good, Env.deliver, Env.flags_zero, e.settle_awake_of_dst (by simp [uses])]
  rfl

/-- `qtok.take` is a long form that writes the tokens once they have left their queue. -/
theorem deliversTo_qtokTake (p : Pfx) (l : Lf) (q : BitVec 3) (d : Opnd) : DeliversTo (.qtokTake p l q d) (fun _ e => e.goodHeads q false)
    (fun e s => s.updGang e.x.gang (Gang.updQueue q (Queue.popHeads (e.tokenLanes q)))) fun _ e => e.longResult d 4 (e.tokenWords q) := by
  refine deliversTo_at (exec_qtokTake p l q d) ?_ (fun s e ready _ => (Env.Base.of_ready ready).updQueue q _) (fun _ _ => .inl rfl)
    fun _ _ _ => Option.some_ne_none l
  intro s e _ spec good
  rw [Env.atHeads_of_good good, e.awake_updQueue]
  exact Env.longWrite_eq (u := .dst d 4 .v17) (by rw [Env.uses, spec.instr]; rfl) _ _

/-- Settles O29: the queue changes first, where it changes at all, and the instruction then delivers what stood in it. -/
theorem queueInstructions : Obligations.QueueInstructions := by
  unfold Obligations.QueueInstructions
  exact ⟨fun p l q n s e ready active => qset_sets_limit p l q n ready active, deliversTo_qpeek, deliversTo_qdrain, deliversTo_qtokTest,
    deliversTo_qtokTake⟩

end Sys2Proof.Machine
end

section
/-! SUPPORT. The canonical form of memory (log 2): what folds of operations keep, and what anchors, events, barriers and the ends of lanes do to
memory. An operation that writes none leaves it as it was (`f_mem`); any other keeps its form (`wf_f`). -/

namespace Sys2Proof.Machine

theorem wf_foldl {α : Type} {f : State → α → State} {s : State} (xs : List α)
    (hf : ∀ s x, Memory.wf s.mem.bytes = true → Memory.wf (f s x).mem.bytes = true)
    (h : Memory.wf s.mem.bytes = true) : Memory.wf (xs.foldl f s).mem.bytes = true := by
  induction xs generalizing s with
  | nil => exact h
  | cons x xs ih => exact ih (hf s x h)

theorem wf_foldl_snd {α β : Type} {f : β × State → α → β × State} {r : β × State} (xs : List α)
    (hf : ∀ r x, Memory.wf r.2.mem.bytes = true → Memory.wf (f r x).2.mem.bytes = true) (h : Memory.wf r.2.mem.bytes = true) :
    Memory.wf (xs.foldl f r).2.mem.bytes = true :=
  List.foldlRecOn (motive := fun r : β × State => Memory.wf r.2.mem.bytes = true) xs f h fun r hr x _ => hf r x hr

theorem MemSys.wf_foldl {α : Type} {f : MemSys → α → MemSys} {m : MemSys} (xs : List α)
    (hf : ∀ m x, Memory.wf m.bytes = true → Memory.wf (f m x).bytes = true) (h : Memory.wf m.bytes = true) :
    Memory.wf (xs.foldl f m).bytes = true :=
  List.foldlRecOn (motive := fun m : MemSys => Memory.wf m.bytes = true) xs f h fun m hm x _ => hf m x hm

theorem foldl_mem {α : Type} {f : State → α → State} (s : State) (xs : List α) (hf : ∀ s x, (f s x).mem = s.mem) :
    (xs.foldl f s).mem = s.mem := by
  induction xs generalizing s with
  | nil => rfl
  | cons x xs ih => exact (ih (f s x)).trans (hf s x)

theorem MemSys.l1Fill_bytes (m : MemSys) (core line : Nat) (dirty : Bool) : (m.l1Fill core line dirty).bytes = m.bytes := by
  unfold l1Fill
  grind

theorem MemSys.homeFill_bytes (m : MemSys) (mt : BitVec 2) (key : BitVec 10) (sh : Bool) (pa : Nat) (dirty : Bool) :
    (m.homeFill mt key sh pa dirty).bytes = m.bytes := by
  unfold homeFill
  grind

theorem MemSys.dirWrite_bytes (m : MemSys) (core : Option Nat) (mt : BitVec 2) (key : BitVec 10) (sh : Bool) (pa : Nat) :
    (m.dirWrite core mt key sh pa).bytes = m.bytes := by
  simp [dirWrite, homeFill]

theorem MemSys.setRel_bytes (m : MemSys) (line : Nat) (r : RelRec) : (m.setRel line r).bytes = m.bytes := by
  unfold setRel
  grind

namespace State

@[simp] theorem selectPath_mem (s : State) (x : Site) : (s.selectPath x).mem = s.mem := rfl

theorem wf_onKey {s : State} (key : BitVec 10) (pa : Nat) (h : Memory.wf s.mem.bytes = true) :
    Memory.wf (s.onKey key pa).mem.bytes = true := by
  unfold onKey
  grind [State.setMem_mem, MemSys.wf_tagLine]

end State

namespace MemSys

theorem wf_setAncWord {m : MemSys} (pa i : Nat) (x : DWord) (h : Memory.wf m.bytes = true) :
    Memory.wf (m.setAncWord pa i x).bytes = true := by
  unfold setAncWord
  grind [MemSys.dirWrite_bytes, MemSys.wf_writeBytes]

theorem wf_updAnc0 {m : MemSys} (pa : Nat) (f : Anc0 → Anc0) (h : Memory.wf m.bytes = true) :
    Memory.wf (m.updAnc0 pa f).bytes = true := by
  unfold updAnc0
  grind [MemSys.wf_setAncWord]

end MemSys

namespace State

theorem wf_ancFlags {s : State} (pa : Nat) (h : Memory.wf s.mem.bytes = true) : Memory.wf (s.ancFlags pa).mem.bytes = true := by
  unfold ancFlags
  grind [State.setMem_mem, MemSys.wf_setAncWord, MemSys.wf_updAnc0]

theorem wf_spillWalk {s : State} (h : Memory.wf s.mem.bytes = true) : Memory.wf (s.spillWalk).mem.bytes = true := by
  unfold spillWalk
  grind [State.draw, State.setDraws_mem, State.setMem_mem, MemSys.wf_writeArea]

theorem wf_monTouch {s : State} (slice ent : Nat) (h : Memory.wf s.mem.bytes = true) :
    Memory.wf (s.monTouch slice ent).mem.bytes = true := by
  unfold monTouch
  grind [State.freshId, State.setNextId_mem, State.wf_spillWalk, State.setHome_mem, State.wf_ancFlags]

theorem wf_ancTouch {s : State} (pa : Nat) (h : Memory.wf s.mem.bytes = true) : Memory.wf (s.ancTouch pa).mem.bytes = true := by
  unfold ancTouch
  grind [State.wf_ancFlags, State.setHome_mem, State.wf_monTouch]

end State

namespace MemSys

theorem wf_setCheckpoint {m : MemSys} (pa : Nat) (ws : List Word) (h : Memory.wf m.bytes = true) :
    Memory.wf (m.setCheckpoint pa ws).bytes = true := by
  unfold setCheckpoint
  grind [MemSys.wf_writeBytes]

end MemSys

namespace State

@[simp] theorem holderDone_mem (s : State) (g lane : Nat) : (s.holderDone g lane).mem = s.mem := rfl

theorem wf_acquire {s : State} (pa : Nat) (va : DWord) (g lane : Nat) (capa exit resume : DWord) (h : Memory.wf s.mem.bytes = true) :
    Memory.wf (s.acquire pa va g lane capa exit resume).mem.bytes = true := by
  unfold acquire
  grind [MemSys.wf_updAnc0, MemSys.wf_setAncWord, MemSys.wf_setCheckpoint, State.setMem_mem, State.updThread_mem, State.wf_ancTouch]

theorem wf_adopt {s : State} (pa : Nat) (va : DWord) (g lane : Nat) (capa exit : DWord) (h : Memory.wf s.mem.bytes = true) :
    Memory.wf (s.adopt pa va g lane capa exit).mem.bytes = true := by
  unfold adopt
  grind [State.updThread_mem, MemSys.wf_updAnc0, MemSys.wf_setAncWord, State.setMem_mem, State.updCtx_mem, State.wf_ancTouch]

@[simp] theorem leaveFifo_mem (s : State) (pa : Nat) (c : Contender) : (s.leaveFifo pa c).mem = s.mem := rfl

theorem wf_grant {s : State} (pa : Nat) (c : Contender) (adopting : Bool) (h : Memory.wf s.mem.bytes = true) :
    Memory.wf (s.grant pa c adopting).mem.bytes = true := by
  unfold grant
  grind [State.leaveFifo_mem, State.wf_onKey, State.updCtx_mem, State.wf_adopt, State.wf_acquire, State.selectPath_mem, State.holderDone_mem]

theorem wf_stallAnchor {s : State} (g lane : Nat) (h : Memory.wf s.mem.bytes = true) :
    Memory.wf (s.stallAnchor g lane).mem.bytes = true := by
  unfold stallAnchor
  grind [State.setMem_mem, MemSys.wf_updAnc0, State.wf_ancTouch, State.wf_grant]

theorem wf_unstallAnchor {s : State} (g lane : Nat) (h : Memory.wf s.mem.bytes = true) :
    Memory.wf (s.unstallAnchor g lane).mem.bytes = true := by
  unfold unstallAnchor
  grind [State.wf_ancTouch, State.setMem_mem, MemSys.wf_updAnc0]

theorem wf_stallGang {s : State} (g : Nat) (h : Memory.wf s.mem.bytes = true) : Memory.wf (s.stallGang g).mem.bytes = true := by
  unfold stallGang
  grind [State.wf_stallAnchor, wf_foldl]

theorem wf_unstallGang {s : State} (g : Nat) (h : Memory.wf s.mem.bytes = true) : Memory.wf (s.unstallGang g).mem.bytes = true := by
  unfold unstallGang
  grind [State.wf_unstallAnchor, wf_foldl]

theorem wf_contenderBack {s : State} (g lane : Nat) (h : Memory.wf s.mem.bytes = true) :
    Memory.wf (s.contenderBack g lane).mem.bytes = true := by
  unfold contenderBack
  grind [State.wf_grant]

theorem wf_releaseAnchor {s : State} (pa : Nat) (h : Memory.wf s.mem.bytes = true) : Memory.wf (s.releaseAnchor pa).mem.bytes = true := by
  unfold releaseAnchor
  grind [State.setMem_mem, MemSys.wf_updAnc0, State.wf_grant, MemSys.wf_setAncWord, State.wf_ancTouch]

theorem wf_writeEvent {s : State} (e : Event) (h : Memory.wf s.mem.bytes = true) : Memory.wf (s.writeEvent e).mem.bytes = true := by
  unfold writeEvent
  grind [State.msi_mem, State.setMem_mem, MemSys.wf_ringPost]

theorem wf_postEvent {s : State} (e : Event) (h : Memory.wf s.mem.bytes = true) : Memory.wf (s.postEvent e).mem.bytes = true := by
  unfold postEvent
  grind [State.wf_writeEvent, State.setCtl_mem]

@[simp] theorem pmSample_mem (s : State) (gang : Nat) (access : Bool) (code v : Nat) : (s.pmSample gang access code v).mem = s.mem := by
  unfold pmSample
  grind [State.updGroup_mem]

@[simp] theorem spillEvent_mem (s : State) (gang : Nat) (access : Bool) (ent more : Nat) : (s.spillEvent gang access ent more).mem = s.mem := by
  unfold spillEvent
  grind [State.pmEvent_mem]

@[simp] theorem setArb_mem (s : State) (cluster : Nat) (a : Arb) : (s.setArb cluster a).mem = s.mem := rfl

@[simp] theorem arbRequest_mem (s : State) (cluster : Nat) (r : ArbReq) : (s.arbRequest cluster r).mem = s.mem := rfl

@[simp] theorem arbEnd_mem (s : State) (cluster op : Nat) : (s.arbEnd cluster op).mem = s.mem := rfl

@[simp] theorem endGrant_mem (s : State) (x : Site) : (s.endGrant x).mem = s.mem := by
  unfold endGrant
  grind [State.updCtx_mem, State.arbEnd_mem]

@[simp] theorem barRelease_mem (s : State) (gangs : List Nat) (pair : Bool) (n : Nat) (phase : Word) :
    (s.barRelease gangs pair n phase).mem = s.mem := by
  unfold barRelease
  grind [State.setOps_mem, State.updCtx_mem, State.selectPath_mem, foldl_mem]

@[simp] theorem setBar_mem (s : State) (grp : Nat) (pair : Bool) (n : Nat) (b : Barrier) : (s.setBar grp pair n b).mem = s.mem := by
  unfold setBar
  grind [State.updLaunch_mem, State.updGroup_mem]

theorem wf_barTrim {s : State} (core : Nat) (h : Memory.wf s.mem.bytes = true) : Memory.wf (s.barTrim core).mem.bytes = true := by
  unfold barTrim
  grind [State.setBar_mem, State.wf_spillWalk, wf_foldl]

theorem wf_barTouch {s : State} (grp : Nat) (pair : Bool) (n : Nat) (h : Memory.wf s.mem.bytes = true) :
    Memory.wf (s.barTouch grp pair n).mem.bytes = true := by
  unfold barTouch
  grind [State.freshId, State.setNextId_mem, State.wf_spillWalk, State.setBar_mem, State.wf_barTrim]

theorem wf_barAct {s : State} (grp gang : Nat) (pair : Bool) (n : Nat) (h : Memory.wf s.mem.bytes = true) :
    Memory.wf (s.barAct grp gang pair n).mem.bytes = true := by
  unfold barAct
  grind [State.wf_barTouch, State.pmEvent_mem]

theorem wf_barTest {s : State} (grp : Nat) (pair : Bool) (n : Nat) (h : Memory.wf s.mem.bytes = true) :
    Memory.wf (s.barTest grp pair n).mem.bytes = true := by
  unfold barTest
  grind [State.barRelease_mem, State.setBar_mem, State.wf_barTouch]

theorem wf_barTestAll {s : State} (grp : Nat) (h : Memory.wf s.mem.bytes = true) : Memory.wf (s.barTestAll grp).mem.bytes = true := by
  unfold barTestAll
  grind [State.wf_barTest, wf_foldl]

@[simp] theorem endGroup_mem (s : State) (grp : Nat) : (s.endGroup grp).mem = s.mem := by
  unfold endGroup
  grind [State.setLaunches_mem, State.setCores_mem, State.setGroups_mem, State.updLaunch_mem]

@[simp] theorem removeGang_mem (s : State) (g : Nat) : (s.removeGang g).mem = s.mem := by
  unfold removeGang
  grind [State.setGangs_mem, State.setLaunches_mem, State.setCores_mem, State.endGroup_mem]

theorem wf_tryRetire {s : State} (g : Nat) (h : Memory.wf s.mem.bytes = true) : Memory.wf (s.tryRetire g).mem.bytes = true := by
  unfold tryRetire
  grind [State.updLaunch_mem, State.removeGang_mem, State.wf_barTestAll]

@[simp] theorem wakeNext_mem (s : State) (pa : Nat) : (s.wakeNext pa).mem = s.mem := by
  unfold wakeNext
  grind [State.freshId, State.setNextId_mem, State.setHome_mem, State.setAgenda_mem]

@[simp] theorem dropWaitv_mem (s : State) (g : Nat) (access : Bool) (lane : Nat) : (s.dropWaitv g access lane).mem = s.mem := rfl

@[simp] theorem killWaiter_mem (s : State) (g : Nat) (access : Bool) (lane : Nat) : (s.killWaiter g access lane).mem = s.mem := by
  unfold killWaiter
  grind [State.setHome_mem, State.dropWaitv_mem, State.wakeNext_mem, foldl_mem]

theorem wf_forgetLanes {s : State} (g : Nat) (access : Bool) (m : Mask) (h : Memory.wf s.mem.bytes = true) :
    Memory.wf (s.forgetLanes g access m).mem.bytes = true := by
  unfold forgetLanes
  exact wf_foldl _ (fun s n h => by grind [State.killWaiter_mem, State.wf_ancTouch, State.leaveFifo_mem]) h

theorem wf_endLanes {s : State} (g : Nat) (access : Bool) (m : Mask) (h : Memory.wf s.mem.bytes = true) :
    Memory.wf (s.endLanes g access m).mem.bytes = true := by
  unfold endLanes
  grind [State.wf_forgetLanes, State.updGang_mem]

end State

end Sys2Proof.Machine
end

section
/-! SUPPORT. The form of memory under traps, translations, destinations and the end of an instruction. -/

namespace Sys2Proof.Machine

namespace State

@[simp] theorem takePermit_mem (s : State) (core : Nat) (x : Site) : (s.takePermit core x).mem = s.mem := by
  unfold takePermit
  grind [State.setCores_mem]

@[simp] theorem returnPermit_mem (s : State) (x : Site) : (s.returnPermit x).mem = s.mem := rfl

theorem wf_postDeleg {s : State} (src : DelegSrc) (idn : DWord) (t : TrapRec) (arg : Word) (direct double : Bool) (frame : Mask)
    (h : Memory.wf s.mem.bytes = true) :
    Memory.wf (s.postDeleg src idn t arg direct double frame).mem.bytes = true := by
  unfold postDeleg
  grind [State.setMem_mem, MemSys.wf_ringPost, State.freshId, State.setNextId_mem, State.setCtl_mem]

theorem wf_delegate {s : State} (x : Site) (t : TrapRec) (arg : Word) (direct double : Bool) (frame : Mask) (h : Memory.wf s.mem.bytes = true) :
    Memory.wf (s.delegate x t arg direct double frame).mem.bytes = true := by
  unfold delegate
  grind [State.wf_postDeleg]

theorem wf_dropDeleg {s : State} (id : Nat) (h : Memory.wf s.mem.bytes = true) : Memory.wf (s.dropDeleg id).mem.bytes = true := by
  unfold dropDeleg
  grind [State.setCtl_mem, State.setMem_mem, MemSys.wf_sysWrite]

theorem wf_doubleTrap {s : State} (x : Site) (t : TrapRec) (h : Memory.wf s.mem.bytes = true) :
    Memory.wf (s.doubleTrap x t).mem.bytes = true := by
  unfold doubleTrap
  grind [State.wf_delegate, State.wf_postEvent, State.updCtx_mem, State.returnPermit_mem, State.setAgenda_mem]

@[simp] theorem rollBack_mem (s : State) (x : Site) : (s.rollBack x).mem = s.mem := by
  unfold rollBack
  grind [State.updCtx_mem, State.updThread_mem]

@[simp] theorem nextLate_mem (s : State) (x : Site) : (s.nextLate x).mem = s.mem := by
  unfold nextLate
  grind [State.updCtx_mem, State.rollBack_mem]

theorem wf_takeWaiting {s : State} (x : Site) (h : Memory.wf s.mem.bytes = true) : Memory.wf (s.takeWaiting x).mem.bytes = true := by
  unfold takeWaiting
  grind [State.updCtx_mem, State.wf_stallAnchor, State.updLaunch_mem, State.wf_tryRetire, State.selectPath_mem, State.wf_endLanes, wf_foldl]

theorem wf_tryEnter {s : State} (x : Site) (h : Memory.wf s.mem.bytes = true) : Memory.wf (s.tryEnter x).mem.bytes = true := by
  unfold tryEnter
  grind [State.nextLate_mem, State.endGrant_mem, State.wf_doubleTrap, State.wf_takeWaiting, State.pmEvent_mem, State.updCtx_mem, State.takePermit_mem,
    State.wf_delegate, State.returnPermit_mem, State.wf_stallGang]

theorem wf_raise {s : State} (x : Site) (t : TrapRec) (h : Memory.wf s.mem.bytes = true) : Memory.wf (s.raise x t).mem.bytes = true := by
  unfold raise
  grind [State.rollBack_mem, State.updCtx_mem, State.wf_tryEnter]

end State

@[simp] theorem reissueHead_mem (k : Nat) (es : List QEnt) (s : State) : (reissueHead k es s).2.mem = s.mem := by
  fun_induction reissueHead k es s with grind [State.freshId, State.setNextId_mem]

namespace State

@[simp] theorem reissueTokens_mem (s : State) (x : Site) (ports : List Nat) (act : Mask) : (s.reissueTokens x ports act).mem = s.mem := by
  unfold reissueTokens
  exact foldl_mem _ _ fun s q => foldl_mem _ _ fun s n => by grind [reissueHead_mem, State.updGang_mem]

theorem wf_endTrap {s : State} (x : Site) (pc : DWord) (cur : Option Cursor) (resume : Option Resume) (h : Memory.wf s.mem.bytes = true) :
    Memory.wf (s.endTrap x pc cur resume).mem.bytes = true := by
  unfold endTrap
  grind [State.updCtx_mem, State.returnPermit_mem, State.updLaunch_mem, State.wf_endLanes, State.wf_unstallGang, State.reissueTokens_mem,
    State.wf_tryRetire, State.selectPath_mem, wf_foldl]

theorem wf_endTrapByExit {s : State} (x : Site) (h : Memory.wf s.mem.bytes = true) : Memory.wf (s.endTrapByExit x).mem.bytes = true := by
  unfold endTrapByExit
  grind [State.updCtx_mem, State.returnPermit_mem, State.updLaunch_mem, State.wf_unstallGang]

theorem wf_xlat {s : State} (x : Site) (core owner : Nat) (kind : AccKind) (va : DWord) (h : Memory.wf s.mem.bytes = true) :
    Memory.wf (s.xlat x core owner kind va).2.mem.bytes = true := by
  unfold xlat
  grind [MemSys.wf_translate, State.setMem_mem, State.pmEvent_mem]

theorem wf_fetchWord {s : State} (x : Site) (core owner : Nat) (va : DWord) (h : Memory.wf s.mem.bytes = true) :
    Memory.wf (s.fetchWord x core owner va).2.mem.bytes = true := by
  unfold fetchWord
  grind [State.wf_xlat, MemSys.wf_codeLine, State.setMem_mem]

theorem wf_fetchMore {s : State} (x : Site) (core owner : Nat) (va : DWord) (n : Nat) (ws : List Word) (h : Memory.wf s.mem.bytes = true) :
    Memory.wf (s.fetchMore x core owner va n ws).2.mem.bytes = true := by
  fun_induction State.fetchMore s x core owner va n ws with grind [State.wf_fetchWord]

theorem wf_fetchInstr {s : State} (x : Site) (core owner : Nat) (va : DWord) (h : Memory.wf s.mem.bytes = true) :
    Memory.wf (s.fetchInstr x core owner va).2.mem.bytes = true := by
  unfold fetchInstr
  grind [State.wf_fetchMore]

@[simp] theorem goLast_mem (s : State) (pipe level gang : Nat) : (s.goLast pipe level gang).mem = s.mem := rfl

end State

namespace Env

@[simp] theorem settle_mem (e : Env) (s : State) (m : Mask) (all : Bool) : (e.settle s m all).mem = s.mem := by
  unfold settle
  grind [State.updCtx_mem, State.updGang_mem, foldl_mem]

end Env

namespace State

@[simp] theorem writeReg_mem (s : State) (x : Site) (o : Opnd) (n : Nat) (lanes : List Nat) (nib : Option Nat) (vals : Nat → List Word) :
    (s.writeReg x o n lanes nib vals).mem = s.mem := by
  unfold writeReg
  grind [State.updGang_mem, State.updThread_mem, foldl_mem]

theorem wf_stopStepped {s : State} (x : Site) (split : Ctx → Ctx) (h : Memory.wf s.mem.bytes = true) :
    Memory.wf (s.stopStepped x split).mem.bytes = true := by
  unfold stopStepped
  grind [State.updCtx_mem, State.wf_stallAnchor, wf_foldl]

end State

namespace Env

@[simp] theorem writeDst_mem (e : Env) (s : State) (vals : Nat → List Word) : (e.writeDst s vals).mem = s.mem := by
  unfold writeDst
  grind [State.writeReg_mem]

@[simp] theorem writePred_mem (e : Env) (s : State) (n : BitVec 3) (p : Nat → Bool) : (e.writePred s n p).mem = s.mem := rfl

@[simp] theorem flags_mem (e : Env) (s : State) (f : Word) : (e.flags s f).mem = s.mem := by
  unfold flags
  grind [State.updCtx_mem]

@[simp] theorem event_mem (e : Env) (s : State) (code w : Nat) : (e.event s code w).mem = s.mem := rfl

@[simp] theorem passed_mem (e : Env) (s : State) : (e.passed s).mem = s.mem := rfl

theorem wf_issued (e : Env) {s : State} (h : Memory.wf s.mem.bytes = true) : Memory.wf (e.issued s).mem.bytes = true := by
  unfold issued
  grind [Env.event_mem, Env.passed_mem, State.setGangs_mem, State.updCtx_mem, State.goLast_mem]

theorem wf_closeClause (e : Env) {s : State} (f split : Ctx → Ctx) (h : Memory.wf s.mem.bytes = true) :
    Memory.wf (e.closeClause s f split).mem.bytes = true := by
  unfold closeClause
  grind [State.goLast_mem, State.endGrant_mem, State.updCtx_mem, State.setAgenda_mem, State.wf_stopStepped]

theorem wf_endClause (e : Env) {s : State} (pc : DWord) (h : Memory.wf s.mem.bytes = true) :
    Memory.wf (e.endClause s pc).mem.bytes = true := by
  unfold endClause
  grind [Env.wf_closeClause]

theorem wf_advance (e : Env) {s : State} (h : Memory.wf s.mem.bytes = true) : Memory.wf (e.advance s).mem.bytes = true := by
  unfold advance
  grind [State.updCtx_mem, Env.wf_endClause]

end Env

namespace State

@[simp] theorem blockPath_mem (s : State) (x : Site) (m : Mask) (w : WS) : (s.blockPath x m w).mem = s.mem := rfl

end State

end Sys2Proof.Machine
end

section
/-! SUPPORT. The form of memory under long forms, checks of lanes, loads, stores and the acts of home slices. -/

namespace Sys2Proof.Machine

namespace Env

@[simp] theorem issueOp_mem (e : Env) (s : State) (lanes left : Mask) (data : OpData) : (e.issueOp s lanes left data).2.mem = s.mem := by
  unfold issueOp
  grind [State.freshId, State.setNextId_mem, State.updCtx_mem, State.setOps_mem]

@[simp] theorem launchOp_mem (e : Env) (s : State) (lanes : Mask) : (e.launchOp s lanes).mem = s.mem := by
  unfold launchOp
  grind [Env.issueOp_mem]

end Env

namespace State

@[simp] theorem giveBack_mem (s : State) (o : Op) (m : Mask) : (s.giveBack o m).1.mem = s.mem := by
  unfold giveBack
  grind [State.updCtx_mem, State.updGang_mem, foldl_mem]

theorem wf_lateTrap {s : State} (o : Op) (h : Memory.wf s.mem.bytes = true) : Memory.wf (s.lateTrap o).mem.bytes = true := by
  unfold lateTrap
  grind [State.wf_tryEnter, State.giveBack_mem, State.wf_raise, State.updCtx_mem]

@[simp] theorem fenceAcquire_mem (s : State) (id : Nat) (o : Op) (rel : Bool) (sco : BitVec 3) : (s.fenceAcquire id o rel sco).mem = s.mem := by
  unfold fenceAcquire
  grind [State.updOp_mem, State.freshId, State.setNextId_mem, State.setHome_mem, foldl_mem]

theorem wf_finishOp {s : State} (id lat : Nat) (o : Op) (h : Memory.wf s.mem.bytes = true) :
    Memory.wf (s.finishOp id lat o).mem.bytes = true := by
  unfold finishOp
  grind [State.setOps_mem, State.updCtx_mem, State.pmSample_mem, State.wf_tryEnter, State.wf_lateTrap, State.wf_tryRetire, State.selectPath_mem,
    wf_foldl]

theorem wf_completeOp {s : State} (id lat : Nat) (h : Memory.wf s.mem.bytes = true) :
    Memory.wf (s.completeOp id lat).mem.bytes = true := by
  unfold completeOp
  grind [State.wf_finishOp, State.fenceAcquire_mem]

@[simp] theorem peerRefuses_mem (s : State) : (s.peerRefuses).2.mem = s.mem := rfl

theorem wf_checkVa {s : State} (x : Site) (core owner : Nat) (kind : AccKind) (n : Nat) (va : DWord) (hbm : optParam Bool false)
    (h : Memory.wf s.mem.bytes = true) :
    Memory.wf (s.checkVa x core owner kind n va hbm).2.mem.bytes = true := by
  unfold checkVa
  grind [State.wf_xlat, State.peerRefuses_mem]

end State

namespace Env

theorem wf_checkLane (e : Env) {s : State} (kind : AccKind) (n lane : Nat) (va : DWord) (hbm : optParam Bool false)
    (h : Memory.wf s.mem.bytes = true) :
    Memory.wf (e.checkLane s kind n lane va hbm).2.mem.bytes = true := by
  unfold checkLane
  grind [State.wf_checkVa]

theorem wf_checkLanes (e : Env) {s : State} (kind : AccKind) (n : Nat) (va : Nat → DWord) (hbm : Bool) (h : Memory.wf s.mem.bytes = true) :
    Memory.wf (e.checkLanes s kind n va hbm).2.mem.bytes = true :=
  wf_foldl_snd e.lanes (fun _ lane ht => e.wf_checkLane kind n lane (va lane) hbm ht) h

end Env

namespace State

@[simp] theorem wrote_mem (s : State) (x : Site) (lane k : Nat) : (s.wrote x lane k).mem = s.mem := rfl

@[simp] theorem noteRead_mem (s : State) (x : Site) (launch lane : Nat) (va : DWord) (pa : Nat) (r : RelRec) :
    (s.noteRead x launch lane va pa r).mem = s.mem := by
  unfold noteRead
  grind [State.setCores_mem]

@[simp] theorem noteLine_mem (s : State) (x : Site) (line : Nat) : (s.noteLine x line).mem = s.mem := by
  unfold noteLine
  grind [State.updGang_mem]

theorem wf_readLane {s : State} (x : Site) (core launch lane n : Nat) (va : DWord) (t : Xlat) (h : Memory.wf s.mem.bytes = true) :
    Memory.wf (s.readLane x core launch lane n va t).2.mem.bytes = true := by
  unfold readLane
  grind [State.setMem_mem, MemSys.homeFill_bytes, MemSys.l1Fill_bytes, State.noteLine_mem, State.noteRead_mem]

@[simp] theorem queueLoadDone_mem (s : State) (req : Nat) : (s.queueLoadDone req).mem = s.mem := rfl

theorem wf_fillEntry {s t : State} {gang core req q lane size : Nat} {g : Gang} {va src : DWord} {sgn pop : Bool} {v : QEnt}
    (h : Memory.wf s.mem.bytes = true) (ht : s.fillEntry gang g core req q lane va size sgn src pop = some (v, t)) :
      Memory.wf t.mem.bytes = true := by
  unfold fillEntry at ht
  grind [State.wf_checkVa, State.wf_readLane]

theorem wf_queueLoadFill {s : State} (req : Nat) (h : Memory.wf s.mem.bytes = true) :
    Memory.wf (s.queueLoadFill req).mem.bytes = true := by
  unfold queueLoadFill
  grind [State.queueLoadDone_mem, State.wf_fillEntry, State.updGang_mem]

end State

namespace Env

theorem wf_bufferStore (e : Env) {s : State} (id lane n : Nat) (va : DWord) (t : Xlat) (rel : Option (BitVec 3)) (wait : Bool)
    (h : Memory.wf s.mem.bytes = true) :
    Memory.wf (e.bufferStore s id lane n va t rel wait).mem.bytes = true := by
  unfold bufferStore
  grind [State.freshId, State.setNextId_mem, State.wrote_mem, State.setMem_mem, MemSys.l1Fill_bytes]

@[simp] theorem parkOn_mem (e : Env) (s : State) (ls : List (Nat × Nat)) : (e.parkOn s ls).mem = s.mem := rfl

end Env

namespace MemSys

theorem wf_cleanLine {m : MemSys} (core : Nat) (t : Xlat) (toMem : Bool) (h : Memory.wf m.bytes = true) :
    Memory.wf (m.cleanLine core t toMem).bytes = true := by
  unfold cleanLine
  grind [MemSys.homeFill_bytes]

end MemSys

namespace State

@[simp] theorem opLane_mem (s : State) (op lane : Nat) : (s.opLane op lane).mem = s.mem := rfl

@[simp] theorem opFail_mem (s : State) (op lane : Nat) (t : TrapRec) : (s.opFail op lane t).mem = s.mem := rfl

theorem wf_drain {s : State} (k : Nat) (h : Memory.wf s.mem.bytes = true) : Memory.wf (s.drain k).mem.bytes = true := by
  unfold drain
  grind [MemSys.wf_homeWrite, State.setMem_mem, State.opLane_mem]

theorem wf_drainAll {s : State} (p : WbEnt → Bool) (h : Memory.wf s.mem.bytes = true) : Memory.wf (s.drainAll p).mem.bytes = true := by
  unfold drainAll
  grind [State.wf_drain, wf_foldl]

theorem wf_promote {s : State} (k : Nat) (h : Memory.wf s.mem.bytes = true) : Memory.wf (s.promote k).mem.bytes = true := by
  unfold promote
  grind [State.wf_drainAll, State.setMem_mem, MemSys.setRel_bytes, State.setHome_mem, State.opLane_mem]

theorem wf_reqDone {s : State} (k : Nat) (r : Req) (h : Memory.wf s.mem.bytes = true) : Memory.wf (s.reqDone k r).mem.bytes = true := by
  unfold reqDone
  grind [State.opLane_mem, State.setHome_mem, State.wf_tryRetire]

@[simp] theorem opWrite_mem (s : State) (o : Op) (lane : Nat) (ws : List Word) : (s.opWrite o lane ws).mem = s.mem := by
  unfold opWrite
  grind [State.writeReg_mem]

theorem wf_reqWrite {s : State} (k : Nat) (o : Op) (r : Req) (bs : List Byte) (rmw : Bool) (h : Memory.wf s.mem.bytes = true) :
    Memory.wf (s.reqWrite k o r bs rmw).mem.bytes = true := by
  unfold reqWrite
  grind [State.wrote_mem, State.setMem_mem, MemSys.wf_homeWrite]

@[simp] theorem waiterGo_mem (s : State) (x : Site) (lane : Nat) : (s.waiterGo x lane).mem = s.mem := rfl

@[simp] theorem reqFail_mem (s : State) (k : Nat) (r : Req) (t : TrapRec) : (s.reqFail k r t).mem = s.mem := by
  unfold reqFail
  grind [State.setHome_mem, State.waiterGo_mem, State.opFail_mem]

theorem wf_reqRead {s : State} (o : Op) (r : Req) (n : Nat) (h : Memory.wf s.mem.bytes = true) :
    Memory.wf (s.reqRead o r n).2.mem.bytes = true := by
  unfold reqRead
  grind [State.setMem_mem, MemSys.homeFill_bytes, State.noteRead_mem]

theorem wf_rmwAct {s : State} (k : Nat) (o : Op) (r : Req) (n : Nat) (f : Nat → Option Nat) (out : Bool) (h : Memory.wf s.mem.bytes = true) :
    Memory.wf (s.rmwAct k o r n f out).mem.bytes = true := by
  unfold rmwAct
  grind [State.wf_reqRead, State.wf_reqWrite, State.opWrite_mem, State.wf_reqDone]

theorem wf_wake {s : State} (pa : Nat) (w : Waiter) (single : Bool) (req : Option Nat) (h : Memory.wf s.mem.bytes = true) :
    Memory.wf (s.wake pa w single req).mem.bytes = true := by
  unfold wake
  grind [State.setHome_mem, State.freshId, State.setNextId_mem, State.opFail_mem, State.waiterGo_mem, State.wf_reqRead, State.opWrite_mem,
    State.opLane_mem]

@[simp] theorem resumeWaiter_mem (s : State) (x : Site) (lane : Nat) : (s.resumeWaiter x lane).mem = s.mem := by
  unfold resumeWaiter
  grind [State.opLane_mem, State.setHome_mem, foldl_mem]

@[simp] theorem unspin_mem (s : State) (line : Nat) : (s.unspin line).mem = s.mem := rfl

theorem wf_notifyAct {s : State} (k : Nat) (o : Op) (r : Req) (all : Bool) (h : Memory.wf s.mem.bytes = true) :
    Memory.wf (s.notifyAct k o r all).mem.bytes = true := by
  unfold notifyAct
  grind [State.wrote_mem, State.setMem_mem, MemSys.setRel_bytes, State.wf_monTouch, State.spillEvent_mem, State.wf_wake, State.selectPath_mem,
    State.wf_reqDone, State.unspin_mem, wf_foldl]

theorem wf_waitvAct {s : State} (k : Nat) (o : Op) (r : Req) (h : Memory.wf s.mem.bytes = true) :
    Memory.wf (s.waitvAct k o r).mem.bytes = true := by
  unfold waitvAct
  grind [State.wf_reqRead, State.wf_reqDone, State.waiterGo_mem, State.opWrite_mem, State.reqFail_mem, State.spillEvent_mem, State.setHome_mem,
    State.updCtx_mem, State.selectPath_mem, State.wf_monTouch]

theorem wf_reqAct {s : State} (k : Nat) (o : Op) (r : Req) (h : Memory.wf s.mem.bytes = true) :
    Memory.wf (s.reqAct k o r).mem.bytes = true := by
  unfold reqAct
  grind [State.wf_reqRead, State.noteLine_mem, State.setMem_mem, MemSys.l1Fill_bytes, State.wf_reqDone, State.opWrite_mem, State.wf_reqWrite,
    State.wf_rmwAct, State.opLane_mem, State.setHome_mem, State.wf_waitvAct, State.wf_notifyAct]

theorem wf_reqOne {s : State} (k : Nat) (h : Memory.wf s.mem.bytes = true) : Memory.wf (s.reqOne k).mem.bytes = true := by
  unfold reqOne
  grind [State.setHome_mem, State.wf_reqAct, State.selectPath_mem, State.wf_wake, State.reqFail_mem]

theorem wf_homeAct {s : State} (k : Nat) (h : Memory.wf s.mem.bytes = true) : Memory.wf (s.homeAct k).mem.bytes = true := by
  unfold homeAct
  grind [State.wf_reqOne, wf_foldl]

theorem wf_lateWrite {s : State} (k : Nat) (o : Op) (r : Req) (h : Memory.wf s.mem.bytes = true) :
    Memory.wf (s.lateWrite k o r).mem.bytes = true := by
  unfold lateWrite
  grind [State.draw, State.setDraws_mem, State.wf_reqWrite]

theorem wf_queueTimeout {s : State} (req : Nat) (h : Memory.wf s.mem.bytes = true) : Memory.wf (s.queueTimeout req).mem.bytes = true := by
  unfold queueTimeout
  grind [State.wf_xlat, State.queueLoadDone_mem, State.updGang_mem]

end State

end Sys2Proof.Machine
end

section
/-! SUPPORT. The form of memory under barriers, clauses, capsules, dunes and copies. -/

namespace Sys2Proof.Machine

namespace State

theorem wf_arrive {s : State} (grp gang : Nat) (pair : Bool) (n count : Nat) (h : Memory.wf s.mem.bytes = true) :
    Memory.wf (s.arrive grp gang pair n count).mem.bytes = true := by
  unfold arrive
  grind [State.setBar_mem, State.wf_barTest, State.wf_barAct]

end State

namespace Env

@[simp] theorem barWait_mem (e : Env) (s : State) (d : OpData) : (e.barWait s d).mem = s.mem := by
  unfold barWait
  grind [State.updCtx_mem, Env.issueOp_mem, Env.settle_mem]

end Env

namespace State

@[simp] theorem requestClause_mem (s : State) (x : Site) (g : Gang) (c : Ctx) (core : Nat) : (s.requestClause x g c core).mem = s.mem := by
  unfold requestClause
  grind [State.freshId, State.setNextId_mem, State.arbRequest_mem, State.updCtx_mem, State.setAgenda_mem]

theorem wf_beginClause {s : State} (x : Site) (h : Memory.wf s.mem.bytes = true) : Memory.wf (s.beginClause x).mem.bytes = true := by
  have hp : Memory.wf (s.selectPath x).mem.bytes = true := by rwa [selectPath_mem]
  unfold beginClause
  dsimp only
  repeat' split
  all_goals grind [State.wf_fetchWord, State.wf_raise, State.selectPath_mem, State.updCtx_mem, State.requestClause_mem, State.setAgenda_mem,
    State.pmEvent_mem, State.updGang_mem]

@[simp] theorem setK7_mem (s : State) (g lane : Nat) (b : Bool) : (s.setK7 g lane b).mem = s.mem := rfl

@[simp] theorem holderTo_mem (s : State) (g lane : Nat) (pc : DWord) : (s.holderTo g lane pc).mem = s.mem := rfl

@[simp] theorem displaced_mem (s : State) (g lane : Nat) : (s.displaced g lane).mem = s.mem := by
  unfold displaced
  grind [State.holderTo_mem, State.updThread_mem, State.setK7_mem, State.updCtx_mem]

@[simp] theorem deliver_mem (s : State) (pa : Nat) (owner : DWord) (cp : List Word) : (s.deliver pa owner cp).mem = s.mem := by
  unfold deliver
  grind [State.updThread_mem, State.displaced_mem]

@[simp] theorem deliveredBack_mem (s : State) (g lane : Nat) : (s.deliveredBack g lane).mem = s.mem := by
  unfold deliveredBack
  grind [State.displaced_mem]

theorem wf_releaseLine {s : State} (g lane line : Nat) (h : Memory.wf s.mem.bytes = true) :
    Memory.wf (s.releaseLine g lane line).mem.bytes = true := by
  unfold releaseLine
  grind [State.setMem_mem, MemSys.setRel_bytes]

theorem wf_closeCapsule {s : State} (g lane : Nat) (k : Link) (next : DWord) (h : Memory.wf s.mem.bytes = true) :
    Memory.wf (s.closeCapsule g lane k next).mem.bytes = true := by
  unfold closeCapsule
  grind [State.setMem_mem, MemSys.wf_setCheckpoint, MemSys.wf_updAnc0, State.wf_releaseLine, State.deliver_mem, State.holderTo_mem, State.setK7_mem,
    State.updThread_mem, State.wf_releaseAnchor]

theorem wf_strokeOver {s : State} (x : Site) (h : Memory.wf s.mem.bytes = true) : Memory.wf (s.strokeOver x).mem.bytes = true := by
  unfold strokeOver
  grind [State.selectPath_mem, State.wf_stopStepped, State.updCtx_mem]

end State

namespace MemSys

theorem wf_ringPuts {m n : MemSys} {owner i : Nat} {d : Dune} {xs : List Item} (h : Memory.wf m.bytes = true)
    (hn : m.ringPuts owner d i xs = .ok n) : Memory.wf n.bytes = true := by
  fun_induction MemSys.ringPuts m owner d i xs with grind [MemSys.wf_dispXlat, MemSys.wf_homeWrite]

end MemSys

namespace State

@[simp] theorem updDune_mem (s : State) (l d : Nat) (f : Dune → Dune) : (s.updDune l d f).mem = s.mem := rfl

theorem wf_ringFails {s : State} (l d : Nat) (t : TrapRec) (h : Memory.wf s.mem.bytes = true) :
    Memory.wf (s.ringFails l d t).mem.bytes = true := by
  unfold ringFails
  grind [State.updDune_mem, State.wf_postDeleg]

@[simp] theorem unmark_mem (s : State) (l d : Nat) : (s.unmark l d).mem = s.mem := by
  unfold unmark
  grind [State.updDune_mem]

end State

namespace Env

@[simp] theorem spin_mem (e : Env) (s : State) (target : Option DWord) : (e.spin s target).mem = s.mem := by
  unfold spin
  grind [State.updGang_mem, State.setAgenda_mem]

end Env

namespace State

@[simp] theorem granted_mem (s : State) (x : Site) (op : Nat) : (s.granted x op).mem = s.mem := by
  unfold granted
  grind [State.draw, State.setDraws_mem, State.updGroup_mem, State.pmEvent_mem, State.updOp_mem, State.pmSample_mem]

end State

namespace Env

theorem wf_globalSpans (e : Env) {s : State} (lane : Nat) (kind : AccKind) (k : Nat) (va : DWord) (n : Nat) (h : Memory.wf s.mem.bytes = true) :
    Memory.wf (e.globalSpans lane kind k va n s).2.mem.bytes = true := by
  fun_induction Env.globalSpans e lane kind k va n s with grind [Env.wf_checkLane]

theorem wf_cpSpans (e : Env) {s : State} (lane : Nat) (kind : AccKind) (spad : Bool) (a : DWord) (n : Nat) (h : Memory.wf s.mem.bytes = true) :
    Memory.wf (e.cpSpans s lane kind spad a n).2.mem.bytes = true := by
  unfold cpSpans
  grind [Env.wf_globalSpans]

theorem wf_cpLane (e : Env) {s : State} (n : BitVec 2) (cv : BitVec 3) (lane : Nat) (h : Memory.wf s.mem.bytes = true) :
    Memory.wf (e.cpLane s n cv lane).2.mem.bytes = true := by
  unfold cpLane
  generalize decide (n = 1#2 ∨ n = 2#2) = fromSpad, decide (n = 0#2 ∨ n = 2#2) = toSpad
  grind [Env.wf_cpSpans]

theorem wf_cpLanes (e : Env) {s : State} (n : BitVec 2) (cv : BitVec 3) (h : Memory.wf s.mem.bytes = true) :
    Memory.wf (e.cpLanes s n cv).2.mem.bytes = true :=
  wf_foldl_snd e.lanes (fun _ lane ht => e.wf_cpLane n cv lane ht) h

end Env

namespace State

@[simp] theorem clearLines_mem (s : State) (ls : List (Nat × Nat)) : (s.clearLines ls).mem = s.mem := by
  unfold clearLines
  grind [State.updGroup_mem, foldl_mem]

theorem wf_landPart {s : State} (id : Nat) (o : Op) (p : CopyPart) (rest : List CopyPart) (h : Memory.wf s.mem.bytes = true) :
    Memory.wf (s.landPart id o p rest).mem.bytes = true := by
  unfold landPart
  grind [State.updGroup_mem, MemSys.wf_homeWrite, State.setMem_mem, wf_foldl]

end State

end Sys2Proof.Machine
end

section
/-! SUPPORT. The form of memory under evictions, placements, launches and the device. -/

namespace Sys2Proof.Machine

namespace State

theorem wf_noteEvictable {s : State} (n : Nat) (h : Memory.wf s.mem.bytes = true) : Memory.wf (s.noteEvictable n).mem.bytes = true := by
  unfold noteEvictable
  grind [State.updGang_mem]

theorem wf_writeSave {s : State} (base bytes : Nat) (h : Memory.wf s.mem.bytes = true) :
    Memory.wf (s.writeSave base bytes).mem.bytes = true := by
  unfold writeSave
  grind [State.draw, State.setDraws_mem, State.setMem_mem, MemSys.wf_writeArea]

theorem wf_saveContext {s : State} (n : Nat) (h : Memory.wf s.mem.bytes = true) : Memory.wf (s.saveContext n).mem.bytes = true := by
  unfold saveContext
  grind [State.wf_writeSave]

theorem wf_saveGroup {s : State} (grp core bytes : Nat) (h : Memory.wf s.mem.bytes = true) :
    Memory.wf (s.saveGroup grp core bytes).mem.bytes = true := by
  unfold saveGroup
  grind [State.updGroup_mem, State.setCores_mem, State.wf_writeSave, State.setLaunches_mem]

theorem wf_evictGang {s t : State} {n : Nat} (h : Memory.wf s.mem.bytes = true) (ht : s.evictGang n = some t) : Memory.wf t.mem.bytes = true := by
  unfold evictGang at ht
  grind [State.wf_drainAll, State.updGang_mem, State.wf_stallGang, State.wf_saveContext, State.wf_saveGroup]

theorem wf_evictFor {s t : State} {cluster cls : Nat} (h : Memory.wf s.mem.bytes = true) (ht : s.evictFor cluster cls = some t) :
    Memory.wf t.mem.bytes = true := by
  obtain ⟨n, -, hn⟩ := List.mem_filterMap.1 (List.mem_of_head? ht)
  exact State.wf_evictGang h hn

theorem wf_returnGroup {s : State} (grp core : Nat) (h : Memory.wf s.mem.bytes = true) :
    Memory.wf (s.returnGroup grp core).mem.bytes = true := by
  unfold returnGroup
  grind [State.setCores_mem, State.updGroup_mem, State.setLaunches_mem, State.wf_barTrim, wf_foldl]

theorem wf_returnGroups {s t : State} {grp core : Nat} (h : Memory.wf s.mem.bytes = true) (ht : s.returnGroups grp core = some t) :
    Memory.wf t.mem.bytes = true := by
  have hr := fun {s} grp core (h : Memory.wf s.mem.bytes = true) => State.wf_returnGroup (s := s) grp core h
  unfold returnGroups at ht
  repeat' split at ht
  all_goals grind

theorem wf_comeBack {s : State} (n : Nat) (h : Memory.wf s.mem.bytes = true) : Memory.wf (s.comeBack n).mem.bytes = true := by
  unfold comeBack
  grind [State.wf_wake, State.selectPath_mem, State.wf_unstallGang, State.deliveredBack_mem, State.wf_contenderBack, wf_foldl]

theorem wf_restoreGang {s : State} (n core : Nat) (h : Memory.wf s.mem.bytes = true) : Memory.wf (s.restoreGang n core).mem.bytes = true := by
  unfold restoreGang
  grind [State.wf_returnGroups, State.setAgenda_mem, State.setLaunches_mem, State.updGang_mem, State.setOps_mem, State.wf_comeBack]

@[simp] theorem placeGang_mem (s : State) (grp launch : Nat) (l : Launch) (num core : Nat) (dune : Option Nat) (prio : Nat) (threads : Assoc Thread)
    (cctx : Ctx) : (s.placeGang grp launch l num core dune prio threads cctx).mem = s.mem := rfl

@[simp] theorem placeGroup_mem (s : State) (launch : Nat) (l : Launch) (team grp core : Nat) : (s.placeGroup launch l team grp core).mem = s.mem := by
  unfold placeGroup
  grind [State.freshId, State.setNextId_mem, State.setGroups_mem, State.placeGang_mem, foldl_mem]

@[simp] theorem placeTeam_mem (s : State) (launch : Nat) (l : Launch) (team core : Nat) : (s.placeTeam launch l team core).mem = s.mem := by
  unfold placeTeam
  grind [State.placeGroup_mem]

theorem wf_fireDune {s : State} (launch d core : Nat) (h : Memory.wf s.mem.bytes = true) :
    Memory.wf (s.fireDune launch d core).mem.bytes = true := by
  unfold fireDune
  grind [State.wf_ringFails, State.unmark_mem, State.updDune_mem, State.updLaunch_mem, State.freshId, State.setNextId_mem, State.setGroups_mem,
    State.placeGang_mem, wf_foldl]

theorem wf_fireRanked {s : State} (cluster core : Nat) (r : Ranked) (h : Memory.wf s.mem.bytes = true) :
    Memory.wf (s.fireRanked cluster core r).mem.bytes = true := by
  unfold fireRanked
  grind [State.wf_fireDune, State.placeTeam_mem, State.updLaunch_mem]

theorem wf_engine {s : State} (cluster core : Nat) (pick : Ranked → Bool) (rs : List Ranked) (h : Memory.wf s.mem.bytes = true) :
    Memory.wf (s.engine cluster core pick rs).mem.bytes = true := by
  induction rs generalizing s with
  | nil => exact h
  | cons r rs ih =>
    unfold engine
    grind [State.wf_fireRanked, State.wf_evictFor]

@[simp] theorem engineLooks_mem (s : State) (cluster : Nat) : (s.engineLooks cluster).mem = s.mem := by
  unfold engineLooks
  grind [State.setAgenda_mem]

theorem wf_writeDone {s : State} (ring owner : Nat) (done : DWord) (word : Nat) (irq : Option Nat) (h : Memory.wf s.mem.bytes = true) :
    Memory.wf (s.writeDone ring owner done word irq).mem.bytes = true := by
  unfold writeDone
  grind [MemSys.wf_dispXlat, State.ringFlag_mem, State.setMem_mem, MemSys.wf_homeWrite, State.msi_mem]

theorem wf_finishLaunch {s : State} (n : Nat) (l : Launch) (outcome cause : Nat) (h : Memory.wf s.mem.bytes = true) :
    Memory.wf (s.finishLaunch n l outcome cause).mem.bytes = true := by
  unfold finishLaunch
  grind [State.wf_writeDone, State.setLaunches_mem]

@[simp] theorem ringTaken_mem (s : State) (ring : Nat) : (s.ringTaken ring).mem = s.mem := rfl

theorem wf_refuse {s : State} (ring : Nat) (r : List Byte) (cause : Nat) (h : Memory.wf s.mem.bytes = true) :
    Memory.wf (s.refuse ring r cause).mem.bytes = true := by
  unfold refuse
  grind [State.wf_writeDone]

theorem wf_takeRecord {s : State} (ring : Nat) (r : List Byte) (h : Memory.wf s.mem.bytes = true) :
    Memory.wf (s.takeRecord ring r).mem.bytes = true := by
  have hx := MemSys.wf_dispXlat (s.ringOwner ring) .write (fieldD r 0x30) h
  unfold takeRecord
  dsimp only
  split
  · simp_all
  · rename_i m e
    rw [e] at hx
    have hd := MemSys.wf_dispReads (s.ringOwner ring) 2 (fieldD r 0x00) 64 hx
    grind [State.ringFlag_mem, State.setMem_mem, MemSys.wf_dispReads, State.wf_refuse, State.setLaunches_mem]

@[simp] theorem endThreads_mem (s : State) (g : Nat) : (s.endThreads g).mem = s.mem := rfl

theorem wf_leaveTables {s : State} (gs : List Nat) (h : Memory.wf s.mem.bytes = true) :
    Memory.wf (s.leaveTables gs).mem.bytes = true := by
  unfold leaveTables
  grind [State.setHome_mem, State.wf_ancTouch, State.leaveFifo_mem, wf_foldl]

theorem wf_endLaunch {s : State} (n : Nat) (l : Launch) (cause : Nat) (h : Memory.wf s.mem.bytes = true) :
    Memory.wf (s.endLaunch n l cause).mem.bytes = true := by
  unfold endLaunch
  grind [State.wf_leaveTables, State.removeGang_mem, State.wf_releaseAnchor, State.wf_finishLaunch, wf_foldl]

@[simp] theorem writeCfg_mem (s : State) (ring : Nat) (w : DWord) : (s.writeCfg ring w).mem = s.mem := by
  unfold writeCfg
  grind [State.setRing_mem]

theorem wf_bindOwner {s : State} (ring root : Nat) (key : BitVec 10) (h : Memory.wf s.mem.bytes = true) :
    Memory.wf (s.bindOwner ring root key).mem.bytes = true := by
  unfold bindOwner
  grind [State.setMem_mem, State.setRing_mem]

@[simp] theorem writeSetting_mem (s : State) (offset : Nat) (w : DWord) : (s.writeSetting offset w).mem = s.mem := by
  unfold writeSetting
  grind [State.setDev_mem]

theorem wf_loadPair {s : State} (key : BitVec 10) (p : BitVec 512) (h : Memory.wf s.mem.bytes = true) :
    Memory.wf (s.loadPair key p).mem.bytes = true := by
  unfold loadPair
  grind [State.draw, State.setDraws_mem, State.setMem_mem, MemSys.wf_loadPair]

@[simp] theorem writeBar0_mem (s : State) (offset : Nat) (w : DWord) : (s.writeBar0 offset w).mem = s.mem := by
  unfold writeBar0
  split
  · exact State.setMbox_mem s _
  · rfl

theorem wf_afterReset {s : State} (h : Memory.wf s.mem.bytes = true) : Memory.wf s.afterReset.mem.bytes = true := Assoc.wf_filter _ h

@[simp] theorem stageSignals_mem (s : State) (n : Nat) : (s.stageSignals n).mem = s.mem := by
  unfold stageSignals
  grind [State.msi_mem, foldl_mem]

end State

namespace MemSys

theorem wf_flushLine {m : MemSys} (line : Nat) (h : Memory.wf m.bytes = true) : Memory.wf (m.flushLine line).bytes = true := by
  unfold flushLine
  grind []

theorem wf_dropLine {m : MemSys} (line : Nat) (h : Memory.wf m.bytes = true) : Memory.wf (m.dropLine line).bytes = true := by
  unfold dropLine
  grind []

end MemSys

namespace State

theorem wf_extAccess {s : State} (host : Bool) (key : BitVec 10) (pa : Nat) (acc : ExtAcc) (h : Memory.wf s.mem.bytes = true) :
    Memory.wf (s.extAccess host key pa acc).mem.bytes = true := by
  unfold extAccess
  grind [State.setDev_mem, MemSys.wf_extRead, State.setMem_mem, MemSys.wf_extWrite]

theorem wf_hostAccess {s : State} (pa : Nat) (acc : ExtAcc) (h : Memory.wf s.mem.bytes = true) :
    Memory.wf (s.hostAccess pa acc).mem.bytes = true := by
  unfold hostAccess
  grind [State.setDev_mem, State.setMem_mem, MemSys.hostRead_bytes, MemSys.wf_hostWrite]

@[simp] theorem spoil_mem (s : State) (g : Nat) (a : Bool) (n lane : Nat) : (s.spoil g a n lane).mem = s.mem := by
  simp [spoil, draw, apply_ite State.mem]

theorem duneFor_mem {s t : State} {l cluster d : Nat} {entry : DWord} {key : Word} {new : Bool}
    (h : s.duneFor l cluster entry key = some (d, new, t)) :
    t.mem = s.mem := by
  unfold duneFor at h
  grind [State.updLaunch_mem]

end State

end Sys2Proof.Machine
end

section
/-! SUPPORT. The form of memory under configurations of dunes, the matrix unit, queries, ticks and resolutions. -/

namespace Sys2Proof.Machine

namespace Env

theorem dsetLane_mem (e : Env) (s : State) (lane : Nat) : (e.dsetLane s lane).2.mem = s.mem := by
  unfold dsetLane
  grind [State.duneFor_mem, State.updDune_mem]

end Env

theorem eachLane_keeps {α : Type} {P : State → Prop} {f : State → Nat → Except TrapRec α × State} {s : State} (ns : List Nat) (vals : Assoc α)
    (fails : Assoc TrapRec) (hf : ∀ s n, P s → P (f s n).2) (h : P s) : P (eachLane f ns s vals fails).1 := by
  fun_induction eachLane f ns s vals fails with grind

namespace Env

@[simp] theorem ddrainLane_mem (e : Env) (s : State) (lane : Nat) : (e.ddrainLane s lane).mem = s.mem := by
  unfold ddrainLane
  grind [State.unmark_mem, State.updDune_mem]

theorem wf_pagesFail (e : Env) {s : State} (n : Nat) (va : DWord) (h : Memory.wf s.mem.bytes = true) :
    Memory.wf (e.pagesFail n va s).2.mem.bytes = true := by
  fun_induction Env.pagesFail e n va s with grind [State.wf_xlat]

theorem wf_dspillLane (e : Env) {s : State} (lane : Nat) (h : Memory.wf s.mem.bytes = true) :
    Memory.wf (e.dspillLane s lane).2.mem.bytes = true := by
  unfold dspillLane
  grind [State.duneFor_mem, Env.wf_pagesFail, State.setMem_mem, State.updDune_mem]

end Env

namespace State

theorem wf_endEmpty {s : State} (g : Nat) (h : Memory.wf s.mem.bytes = true) : Memory.wf (s.endEmpty g).mem.bytes = true := by
  unfold endEmpty
  grind [State.wf_tryRetire, State.wf_endLanes]

@[simp] theorem spadPuts_mem (s : State) (ws : List (Nat × Nat × Byte × Bool)) : (s.spadPuts ws).mem = s.mem := by
  unfold spadPuts
  grind [State.updGroup_mem, foldl_mem]

@[simp] theorem holdLines_mem (s : State) (id : Nat) (rs : List (Nat × Nat)) : (s.holdLines id rs).mem = s.mem := rfl

@[simp] theorem matDo_mem (s : State) (group : Nat) (m : MatOp) : (s.matDo group m).mem = s.mem := by
  unfold matDo
  split
  all_goals grind [State.updGroup_mem, State.spadPuts_mem]

theorem wf_stopLane {s : State} (x : Site) (lane : Nat) (h : Memory.wf s.mem.bytes = true) :
    Memory.wf (s.stopLane x lane).mem.bytes = true := by
  unfold stopLane
  grind [State.updCtx_mem, State.wf_stallAnchor]

@[simp] theorem resumeLane_mem (s : State) (x : Site) (lane : Nat) : (s.resumeLane x lane).mem = s.mem := by
  unfold resumeLane
  grind [State.resumeWaiter_mem, State.updCtx_mem]

theorem wf_resumeCapsule {s : State} (x : Site) (lane : Nat) (h : Memory.wf s.mem.bytes = true) :
    Memory.wf (s.resumeCapsule x lane).mem.bytes = true := by
  unfold resumeCapsule
  grind [State.wf_unstallAnchor, State.deliveredBack_mem, State.wf_contenderBack]

theorem wf_stepLane {s : State} (x : Site) (lane : Nat) (h : Memory.wf s.mem.bytes = true) :
    Memory.wf (s.stepLane x lane).mem.bytes = true := by
  unfold stepLane
  grind [State.updCtx_mem, State.wf_stopLane, State.wf_resumeCapsule, State.resumeLane_mem]

theorem wf_killLane {s : State} (x : Site) (lane : Nat) (h : Memory.wf s.mem.bytes = true) :
    Memory.wf (s.killLane x lane).mem.bytes = true := by
  unfold killLane
  grind [State.updCtx_mem, State.wf_stallAnchor, State.wf_endLanes, State.updLaunch_mem]

@[simp] theorem writeLane_mem (s : State) (x : Site) (lane sel : Nat) (v : Word) : (s.writeLane x lane sel v).mem = s.mem := by
  unfold writeLane
  grind [State.updCtx_mem, State.updThread_mem]

theorem wf_applyAction {s : State} (q : Query) (ms : List (Nat × Nat)) (h : Memory.wf s.mem.bytes = true) :
    Memory.wf (s.applyAction q ms).mem.bytes = true := by
  unfold applyAction
  grind [State.wf_resumeCapsule, State.wf_saveContext, State.wf_tryRetire, State.updGang_mem, State.selectPath_mem, State.wf_stopLane,
    State.wf_stepLane, State.resumeLane_mem, State.wf_killLane, State.writeLane_mem, wf_foldl]

theorem wf_sysStore {s : State} (ring : Nat) (va : DWord) (bs : List Byte) (rel : Bool) (h : Memory.wf s.mem.bytes = true) :
    Memory.wf (s.sysStore ring va bs rel).2.mem.bytes = true := by
  unfold sysStore
  grind [MemSys.wf_sysXlat, State.setMem_mem, MemSys.wf_homeWrite]

theorem wf_commandResult {s : State} (ring : Nat) (result : DWord) (tag status flags : Word) (h : Memory.wf s.mem.bytes = true) :
    Memory.wf (s.commandResult ring result tag status flags).mem.bytes = true := by
  unfold commandResult
  grind [State.wf_sysStore, State.msi_mem, State.ringFlag_mem]

@[simp] theorem queryResult_mem (s : State) (q : Query) (g op : Nat) (bytes : List Byte) (status : Word) (cycles : Nat) :
    (s.queryResult q g op bytes status cycles).mem = s.mem := by
  unfold queryResult
  grind [State.updGroup_mem, State.writeReg_mem, State.updOp_mem]

theorem wf_holdInstant {s : State} (id : Nat) (q : Hold) (h : Memory.wf s.mem.bytes = true) : Memory.wf (s.holdInstant id q).mem.bytes = true := by
  have ha : ∀ (q : Query) ms, Memory.wf ((s.draw.2).applyAction q ms).mem.bytes = true := fun q ms => State.wf_applyAction q ms h
  unfold holdInstant
  dsimp only
  split
  · rw [queryResult_mem]; exact ha _ _
  · exact State.wf_commandResult _ _ _ _ _ (wf_foldl _ (fun s p hs => State.wf_sysStore _ _ _ _ hs) (ha _ _))

theorem wf_takeCommand {s : State} (ring : Nat) (e : List Byte) (h : Memory.wf s.mem.bytes = true) :
    Memory.wf (s.takeCommand ring e).mem.bytes = true := by
  unfold takeCommand
  grind [State.ringFlag_mem, State.wf_commandResult, State.freshId, State.setNextId_mem, State.setCtl_mem]

theorem wf_queryEvent {s : State} (src : QSrc) (action : Nat) (h : Memory.wf s.mem.bytes = true) :
    Memory.wf (s.queryEvent src action).mem.bytes = true := by
  unfold queryEvent
  grind [State.wf_takeCommand, State.ringTaken_mem, State.wf_holdInstant]

@[simp] theorem noteDeadlock_mem (s : State) (n : Nat) : (s.noteDeadlock n).mem = s.mem := rfl

theorem wf_postDeadlock {s : State} (n : Nat) (h : Memory.wf s.mem.bytes = true) : Memory.wf (s.postDeadlock n).mem.bytes = true := by
  unfold postDeadlock
  grind [State.updGang_mem, State.wf_writeEvent]

@[simp] theorem tickCycles_mem (s : State) : (s.tickCycles).2.mem = s.mem := rfl

theorem wf_tickCounts {s : State} (cluster cycles : Nat) (h : Memory.wf s.mem.bytes = true) :
    Memory.wf (s.tickCounts cluster cycles).mem.bytes = true := by
  unfold tickCounts
  grind [State.setGroups_mem, State.pmEvent_mem, wf_foldl]

@[simp] theorem waitDelegated_mem (s : State) (x : Site) (f : Frame) : (s.waitDelegated x f).mem = s.mem := rfl

theorem wf_endDeleg {s : State} (id : Nat) (d : Deleg) (h : Memory.wf s.mem.bytes = true) :
    Memory.wf (s.endDeleg id d).mem.bytes = true := by
  unfold endDeleg
  grind [State.wf_dropDeleg, State.setAgenda_mem]

@[simp] theorem forgive_mem (s : State) (x : Site) (m : Mask) : (s.forgive x m).mem = s.mem := rfl

end State

namespace Env

@[simp] theorem writeMask_mem (e : Env) (s : State) (n : Nat) (w : DWord) : (e.writeMask s n w).mem = s.mem := rfl

end Env

end Sys2Proof.Machine
end

section
/-! SUPPORT. What an outcome keeps: the meaning of an instruction by the state in which it answers, and an instruction by its meaning. -/

namespace Sys2Proof.Machine

/-- A translation that is known keeps the form. -/
theorem State.wf_xlat_of {s t : State} {x : Site} {core owner : Nat} {kind : AccKind} {va : DWord} {r : Except XFault Xlat}
    (h : Memory.wf s.mem.bytes = true)
    (ht : s.xlat x core owner kind va = (r, t)) : Memory.wf t.mem.bytes = true := by
  have kept := State.wf_xlat x core owner kind va h
  rwa [ht] at kept

/-- The state in which a meaning answers, whether it issues, raises or waits. -/
def Res.state : Res → State
  | .done s | .raise s _ | .hold s | .moved s => s

/-- An outcome is a next state whose memory has its form where that of `s` has. -/
def GoesOn (s : State) (o : Host.Outcome State Fault Refusal) : Prop :=
  ∃ t, o = .next t ∧ (Memory.wf s.mem.bytes = true → Memory.wf t.mem.bytes = true)

/-- `cur` names a context of a resident gang that stands at an instruction: every instruction has an environment. -/
def State.Acts (s : State) : Prop := ∀ i, (env? i s).isSome = true

/-- An instruction whose own meaning keeps the form of memory goes on. -/
theorem run_goesOn {i : Instr} {s : State} {body : Env → State → Res} (acts : s.Acts)
    (keeps : ∀ e s, Memory.wf s.mem.bytes = true → Memory.wf (body e s).state.mem.bytes = true) : GoesOn s (run i s body) := by
  obtain ⟨e, he⟩ := Option.isSome_iff_exists.1 (acts i)
  have kept := keeps e (s.updCtx e.x fun c => c.wake c.path)
  simp only [run, he]
  split
  · exact ⟨_, rfl, State.wf_raise _ _⟩
  · refine ⟨_, rfl, fun h => ?_⟩
    split
    · rwa [State.blockPath_mem]
    · exact h
  · split <;> next hb =>
      rw [hb] at kept
      refine ⟨_, rfl, fun h => ?_⟩
      have kept := kept h
      grind [Res.state, State.selectPath_mem, Env.wf_advance, Env.wf_issued, Env.passed_mem, State.wf_raise]

/-- Of a choice of answers each keeps the form. -/
theorem Res.wf_ite {c : Prop} [Decidable c] {a b : Res} (ha : Memory.wf a.state.mem.bytes = true) (hb : Memory.wf b.state.mem.bytes = true) :
    Memory.wf (if c then a else b).state.mem.bytes = true := by
  split
  · exact ha
  · exact hb

theorem GoesOn.next {s t : State} (h : Memory.wf s.mem.bytes = true → Memory.wf t.mem.bytes = true) : GoesOn s (.next t) := ⟨t, rfl, h⟩

theorem GoesOn.stay (s : State) : GoesOn s (.next s) := .next id

theorem GoesOn.ite {s : State} {c : Prop} [Decidable c] {a b : Host.Outcome State Fault Refusal} (ha : GoesOn s a) (hb : GoesOn s b) :
    GoesOn s (if c then a else b) := by
  split
  · exact ha
  · exact hb

namespace Env

theorem wf_alu (e : Env) {s : State} (f : Nat → List Word × Word) (h : Memory.wf s.mem.bytes = true) :
    Memory.wf (e.alu s f).state.mem.bytes = true := by
  unfold alu
  grind [Res.state, Env.flags_mem, Env.writeDst_mem, Env.settle_mem, foldl_mem]

theorem wf_alu1 (e : Env) {s : State} (f : Nat → Word) (h : Memory.wf s.mem.bytes = true) :
    Memory.wf (e.alu1 s f).state.mem.bytes = true := by
  unfold alu1
  grind [Res.state, Env.wf_alu]

theorem wf_part (e : Env) {s : State} (fails : Assoc TrapRec) (h : Memory.wf s.mem.bytes = true) :
    Memory.wf (e.part s fails).state.mem.bytes = true := by
  unfold part
  grind [Res.state]

end Env

namespace State

theorem wf_allFail {s : State} (bad : Assoc TrapRec) (h : Memory.wf s.mem.bytes = true) :
    Memory.wf (s.allFail bad).state.mem.bytes = true := by
  unfold allFail
  grind [Res.state]

end State

namespace Env

theorem wf_longWrite (e : Env) {s : State} (vals : Nat → List Word) (h : Memory.wf s.mem.bytes = true) :
    Memory.wf (e.longWrite s vals).state.mem.bytes = true := by
  unfold longWrite
  grind [Res.state, Env.launchOp_mem, Env.writeDst_mem, Env.settle_mem]

theorem wf_access (e : Env) {s : State} (fails : Assoc TrapRec) (now more : Mask) (reqs : List (Nat × Xlat)) (va : Nat → DWord)
    (b c : Nat → List Word) {eff : Nat → State → State} (heff : ∀ id s, Memory.wf s.mem.bytes = true → Memory.wf (eff id s).mem.bytes = true)
    (h : Memory.wf s.mem.bytes = true) : Memory.wf (e.access s fails now more reqs va b c eff).state.mem.bytes = true := by
  unfold access
  dsimp only
  split
  · split
    · exact e.wf_part fails h
    · exact e.wf_part fails (heff _ _ (by rwa [issueOp_mem, settle_mem]))
  · refine heff _ _ (wf_foldl reqs (fun s p h => h) ?_)
    rwa [State.updOp_mem, issueOp_mem, settle_mem]

theorem wf_strokeLoad (e : Env) {s : State} (m : MemOp) (n : Nat) (signed : Bool) (h : Memory.wf s.mem.bytes = true) :
    Memory.wf (e.strokeLoad s m n signed).state.mem.bytes = true := by
  unfold strokeLoad
  grind [Res.state, State.noteRead_mem, Env.wf_longWrite]

theorem wf_strokeStore (e : Env) {s : State} (m : MemOp) (n : Nat) (h : Memory.wf s.mem.bytes = true) :
    Memory.wf (e.strokeStore s m n).state.mem.bytes = true := by
  unfold strokeStore
  grind [Res.state, State.updCtx_mem, Env.settle_mem, Env.launchOp_mem]

theorem wf_load (e : Env) {s : State} (m : MemOp) (n : Nat) (signed : Bool) (h : Memory.wf s.mem.bytes = true) :
    Memory.wf (e.load s m n signed).state.mem.bytes = true := by
  have checked := e.wf_checkLanes .read n (e.gaddr m 1) false h
  unfold load
  refine Res.wf_ite h (Res.wf_ite checked (Res.wf_ite checked (e.wf_access _ _ _ _ _ _ _ (fun _ s hs => ?_) checked)))
  have read := fun (ps : List (Nat × Xlat)) f => wf_foldl_snd (f := f) ps (r := (([] : Assoc (List Word)), s))
  dsimp only
  split
  · exact read _ _ (fun r p hr => State.wf_readLane _ _ _ _ _ _ _ hr) hs
  · rw [State.writeReg_mem]
    exact read _ _ (fun r p hr => State.wf_readLane _ _ _ _ _ _ _ hr) hs

theorem wf_store (e : Env) {s : State} (m : MemOp) (n : Nat) (h : Memory.wf s.mem.bytes = true) :
    Memory.wf (e.store s m n).state.mem.bytes = true := by
  unfold store
  grind [Res.state, Env.wf_checkLanes, Env.wf_access, Env.wf_bufferStore, wf_foldl]

theorem wf_spad (e : Env) {s : State} (m : MemOp) (kind : AccKind) (n k : Nat) {eff : List (Nat × SpadRef) → State → State}
    (heff : ∀ go s, Memory.wf s.mem.bytes = true → Memory.wf (eff go s).mem.bytes = true) (h : Memory.wf s.mem.bytes = true) :
    Memory.wf (e.spad s m kind n k eff).state.mem.bytes = true := by
  unfold spad
  grind [Res.state, Env.parkOn_mem, State.pmEvent_mem, State.wf_allFail, Env.wf_part, Env.launchOp_mem, Env.settle_mem]

theorem wf_homeIssue (e : Env) {s : State} (m : MemOp) (kind : AccKind) (n : Nat) (hbm : Bool) (b c : Option Nat) (h : Memory.wf s.mem.bytes = true) :
    Memory.wf (e.homeIssue s m kind n hbm b c).state.mem.bytes = true := by
  unfold homeIssue
  grind [Res.state, Env.wf_checkLanes, Env.wf_access]

theorem wf_barPool (e : Env) {s : State} (h : Memory.wf s.mem.bytes = true) : Memory.wf (e.barPool s).state.mem.bytes = true := by
  unfold barPool
  grind [Res.state, State.draw, State.setDraws_mem]

end Env

namespace State

theorem wf_placeItem {s t : State} {l d : Nat} {x : Item} (h : Memory.wf s.mem.bytes = true) (ht : s.placeItem l d x = .ok t) :
    Memory.wf t.mem.bytes = true := by
  unfold placeItem at ht
  grind [State.updDune_mem, MemSys.wf_ringPuts, State.setMem_mem]

theorem takeItems_mem {s t : State} {g : Nat} {lanes : List Nat} {xs : List Item} (ht : s.takeItems g lanes = .items xs t) : t.mem = s.mem := by
  unfold takeItems at ht
  split at ht
  · cases ht; rfl
  · split at ht
    · split at ht
      · cases ht; rfl
      · dsimp only at ht
        split at ht
        · cases ht
        · cases ht
          rw [foldl_mem _ _ fun _ _ => by rw [updGang_mem, updThread_mem], unmark_mem, updDune_mem]
    · cases ht; rfl

end State

namespace Env

theorem wf_transfer (e : Env) {s : State} (t : Nat → DWord) (go : Nat → Bool) (link : Option Opnd) (event : optParam Nat 0)
    (h : Memory.wf s.mem.bytes = true) :
    Memory.wf (e.transfer s t go link event).state.mem.bytes = true := by
  unfold transfer
  grind [Res.state, Env.settle_mem, State.pmEvent_mem, State.writeReg_mem, Env.spin_mem, Env.wf_closeClause]

theorem wf_exitLane {e : Env} {s t : State} {lane : Nat} (h : Memory.wf s.mem.bytes = true) (ht : e.exitLane s lane = .go t) :
    Memory.wf t.mem.bytes = true := by
  unfold exitLane at ht
  grind [State.wf_endLanes, State.takeItems_mem, State.updCtx_mem]

theorem wf_exitLanes {e : Env} {s t : State} {lanes : List Nat} (h : Memory.wf s.mem.bytes = true) (ht : e.exitLanes lanes s = .go t) :
    Memory.wf t.mem.bytes = true := by
  fun_induction Env.exitLanes e lanes s with grind [Env.wf_exitLane]

theorem wf_leave (e : Env) {s : State} (h : Memory.wf s.mem.bytes = true) : Memory.wf (e.leave s).state.mem.bytes = true := by
  unfold leave
  grind [Res.state, Env.wf_exitLanes, State.wf_ringFails, State.wf_tryRetire, State.wf_endTrapByExit, Env.wf_closeClause]

theorem wf_arith (e : Env) {s : State} (u sat : Bool) (b : RI) (f : ℤ → ℤ → ℤ) (h : Memory.wf s.mem.bytes = true) :
    Memory.wf (e.arith s u sat b f).state.mem.bytes = true := by
  unfold arith
  grind [Res.state, Env.wf_alu]

theorem wf_unary (e : Env) {s : State} (w : Bool) (f : ℤ → ℤ) (h : Memory.wf s.mem.bytes = true) :
    Memory.wf (e.unary s w f).state.mem.bytes = true := by
  unfold unary
  grind [Res.state, Env.wf_alu]

theorem wf_logic (e : Env) {s : State} (b : RI) (f : Word → Word → Word) (h : Memory.wf s.mem.bytes = true) :
    Memory.wf (e.logic s b f).state.mem.bytes = true := by
  unfold logic
  grind [Res.state, Env.wf_alu1]

theorem wf_select (e : Env) {s : State} (x : Bool) (n : BitVec 3) (f : Nat → Word) (h : Memory.wf s.mem.bytes = true) :
    Memory.wf (e.select s x n f).state.mem.bytes = true := by
  unfold select
  grind [Res.state, Env.settle_mem, State.writeReg_mem]

theorem wf_atHeads (e : Env) {s : State} (q : BitVec 3) (tokens : Bool) {eff : State → Res}
    (heff : ∀ s, Memory.wf s.mem.bytes = true → Memory.wf (eff s).state.mem.bytes = true) (h : Memory.wf s.mem.bytes = true) :
    Memory.wf (e.atHeads s q tokens eff).state.mem.bytes = true := by
  unfold atHeads
  grind [Res.state, State.blockPath_mem]

/-- The state of one lane of an enqueue that is accepted or fails. -/
theorem wf_enqueueLane {e : Env} {s t : State} {lane : Nat} {entry : DWord} {key : Word} {ws : List Word} (h : Memory.wf s.mem.bytes = true)
    (ht : e.enqueueLane s lane entry key ws = .ok t ∨ ∃ r, e.enqueueLane s lane entry key ws = .fail t r) : Memory.wf t.mem.bytes = true := by
  unfold enqueueLane at ht
  dsimp only at ht
  split at ht
  · grind
  · split at ht
    · grind
    · split at ht
      · grind
      · next made =>
        have hu := State.duneFor_mem made
        split at ht
        · grind
        · split at ht
          · grind
          · grind
          · next placed =>
            have hv := State.wf_placeItem (by rwa [hu]) placed
            grind [State.updThread_mem]

theorem wf_enqueueLanes {e : Env} {entry : Nat → DWord} {key : Nat → Word} {ws : Nat → List Word} {lanes : List Nat} {s t : State}
    {ok done : Mask}
    {fails failed : Assoc TrapRec} (h : Memory.wf s.mem.bytes = true) (ht : e.enqueueLanes entry key ws lanes s ok fails = .done t done failed) :
    Memory.wf t.mem.bytes = true := by
  fun_induction Env.enqueueLanes e entry key ws lanes s ok fails with grind [Env.wf_enqueueLane]

theorem wf_enqueue (e : Env) {s : State} (key : Nat → Word) (k n : Nat) (h : Memory.wf s.mem.bytes = true) :
    Memory.wf (e.enqueue s key k n).state.mem.bytes = true := by
  unfold enqueue
  grind [Res.state, Env.wf_enqueueLanes, State.wf_ringFails, Env.wf_part, Env.launchOp_mem, Env.settle_mem]

theorem wf_farith (e : Env) {s : State} (b : FSrc) (f : Rm → Ext → Ext → Ext × Word) (h : Memory.wf s.mem.bytes = true) :
    Memory.wf (e.farith s b f).state.mem.bytes = true := by
  unfold farith
  grind [Res.state, Env.wf_alu]

theorem wf_fminmax (e : Env) {s : State} (b : FSrc) (mx : Bool) (h : Memory.wf s.mem.bytes = true) :
    Memory.wf (e.fminmax s b mx).state.mem.bytes = true := by
  unfold fminmax
  grind [Res.state, Env.wf_alu]

theorem wf_fsign (e : Env) {s : State} (t : FTy) (f : Bool → Bool) (h : Memory.wf s.mem.bytes = true) :
    Memory.wf (e.fsign s t f).state.mem.bytes = true := by
  unfold fsign
  grind [Res.state, Env.wf_alu]

theorem wf_shfl (e : Env) {s : State} (h : Memory.wf s.mem.bytes = true) : Memory.wf (e.shfl s).state.mem.bytes = true := by
  unfold shfl
  grind [Res.state, Env.wf_alu1]

theorem wf_issueMat (e : Env) {s : State} (m : MatOp) (held : List (Nat × Nat)) (demand : Option Nat) (h : Memory.wf s.mem.bytes = true) :
    Memory.wf (e.issueMat s m held demand).state.mem.bytes = true := by
  unfold issueMat
  grind [Res.state, Env.issueOp_mem, Env.settle_mem, State.holdLines_mem, State.arbRequest_mem]

theorem wf_moveRect (e : Env) {s : State} (scl out tr : Bool) (h : Memory.wf s.mem.bytes = true) :
    Memory.wf (e.moveRect s scl out tr).state.mem.bytes = true := by
  have busy : ∀ k, Memory.wf (s.pmEvent e.x.gang e.x.access 0x0E k).mem.bytes = true := fun k => by rwa [State.pmEvent_mem]
  unfold moveRect
  split
  · exact h
  · refine Res.wf_ite h ?_
    split
    · exact h
    · refine Res.wf_ite h (Res.wf_ite h (Res.wf_ite h ?_))
      dsimp only
      split
      · exact h
      · exact Res.wf_ite (Res.wf_ite h (Res.wf_ite h (e.wf_issueMat _ _ _ (busy _)))) (Res.wf_ite h (Res.wf_ite h (e.wf_issueMat _ _ _ (busy _))))

theorem wf_mmac (e : Env) {s : State} (int : Bool) (h : Memory.wf s.mem.bytes = true) : Memory.wf (e.mmac s int).state.mem.bytes = true := by
  unfold mmac
  split
  · exact h
  · refine Res.wf_ite h ?_
    split
    · exact h
    · exact h
    · exact h
    · refine Res.wf_ite h ?_
      split
      · exact h
      · exact h
      · refine Res.wf_ite h ?_
        split
        · exact h
        · exact Res.wf_ite h (Res.wf_ite h (Res.wf_ite h (e.wf_issueMat _ _ _ h)))

theorem wf_special (e : Env) {s : State} (f : Word → Nat × Word) (h : Memory.wf s.mem.bytes = true) :
    Memory.wf (e.special s f).state.mem.bytes = true := by
  unfold special
  grind [Res.state, Env.wf_alu]

theorem wf_trapNow (e : Env) {s : State} (t : TrapRec) (h : Memory.wf s.mem.bytes = true) :
    Memory.wf (e.trapNow s t).state.mem.bytes = true := by
  unfold trapNow
  grind [Res.state, Env.settle_mem]

end Env

end Sys2Proof.Machine
end

section
/-! PROOF. Loads, stores, home slices, barriers, clauses, capsules and control go on. -/

namespace Sys2Proof.Machine

variable {s : State}

theorem goesOn_longFormComplete {op lat} : GoesOn s (execLongFormComplete op lat s) :=
  .next fun h => by grind [State.wf_completeOp]

theorem goesOn_ld {p l n d m} (here : s.Acts) : GoesOn s (execLd p l n d m s) :=
  run_goesOn here fun e s h => by grind [Res.state, Env.wf_strokeLoad, Env.wf_load]

theorem goesOn_ldToQueue {p l n q m} (here : s.Acts) : GoesOn s (execLdToQueue p l n q m s) := by
  refine run_goesOn here fun e s h => Res.wf_ite h (Res.wf_ite ?_ (Res.wf_ite h ?_))
  · simpa only [Res.state, State.blockPath_mem]
  · have pended := fun (f : State × List (Nat × Nat × QEnt) → Nat → State × List (Nat × Nat × QEnt)) =>
      List.foldlRecOn (motive := fun r : State × List (Nat × Nat × QEnt) => Memory.wf r.1.mem.bytes = true) e.lanes f
        (b := (e.settle s e.act true, [])) (by rwa [Env.settle_mem])
    simp only [Res.state, State.updOp_mem, Env.issueOp_mem]
    exact pended _ fun r hr k _ => hr

theorem goesOn_queueLoadFill {req} : GoesOn s (execQueueLoadFill req s) :=
  .next fun h => by grind [State.wf_queueLoadFill]

theorem goesOn_st {p l n m b} (here : s.Acts) : GoesOn s (execSt p l n m b s) :=
  run_goesOn here fun e s h => by grind [Res.state, Env.wf_strokeStore, Env.wf_store]

theorem goesOn_lds {p l n d m} (here : s.Acts) : GoesOn s (execLds p l n d m s) :=
  run_goesOn here fun e s h => by grind [Res.state, Env.wf_spad, State.writeReg_mem]

theorem goesOn_sts {p l n m b} (here : s.Acts) : GoesOn s (execSts p l n m b s) :=
  run_goesOn here fun e s h => by grind [Res.state, Env.wf_spad, State.updGroup_mem, wf_foldl, foldl_mem]

theorem goesOn_pref {p l slice m} (here : s.Acts) : GoesOn s (execPref p l slice m s) :=
  run_goesOn here fun e s h => by
    have checked := e.wf_checkLanes .read 1 (e.gaddr m 1) false h
    refine MemSys.wf_foldl _ (fun m p hm => ?_) (by rwa [Env.settle_mem])
    grind [MemSys.homeFill_bytes, MemSys.l1Fill_bytes]

theorem goesOn_cln {p l toMem m} (here : s.Acts) : GoesOn s (execCln p l toMem m s) := by
  refine run_goesOn here fun e s h => Res.wf_ite h (e.wf_access _ _ _ _ _ _ _ (fun _ s hs => ?_) (e.wf_checkLanes .read 1 (e.gaddr m 1) false h))
  exact MemSys.wf_foldl _ (fun m p hm => MemSys.wf_cleanLine _ _ _ hm) hs

theorem goesOn_fence {p l sco ord} (here : s.Acts) : GoesOn s (execFence p l sco ord s) :=
  run_goesOn here fun e s h => by grind [Res.state, State.updCtx_mem, Env.issueOp_mem, wf_foldl, foldl_mem]

theorem goesOn_atom {p l n op d m b} (here : s.Acts) : GoesOn s (execAtom p l n op d m b s) :=
  run_goesOn here fun e s h => by grind [Res.state, Env.wf_homeIssue]

theorem goesOn_acas {p l w d m b c} (here : s.Acts) : GoesOn s (execAcas p l w d m b c s) :=
  run_goesOn here fun e s h => by grind [Res.state, Env.wf_homeIssue]

theorem goesOn_ared {p l f op m b} (here : s.Acts) : GoesOn s (execAred p l f op m b s) :=
  run_goesOn here fun e s h => by grind [Res.state, Env.wf_homeIssue]

theorem goesOn_waitv {p l w d m b} (here : s.Acts) : GoesOn s (execWaitv p l w d m b s) :=
  run_goesOn here fun e s h => by grind [Res.state, Env.wf_homeIssue]

theorem goesOn_notify1 {p l m} (here : s.Acts) : GoesOn s (execNotify1 p l m s) :=
  run_goesOn here fun e s h => by grind [Res.state, Env.wf_homeIssue]

theorem goesOn_notifyall {p l m} (here : s.Acts) : GoesOn s (execNotifyall p l m s) :=
  run_goesOn here fun e s h => by grind [Res.state, Env.wf_homeIssue]

theorem goesOn_writeBufferDrain {entry} : GoesOn s (execWriteBufferDrain entry s) :=
  .next fun h => by grind [State.wf_drain]

theorem goesOn_hostWriteAcknowledgement {entry} : GoesOn s (execHostWriteAcknowledgement entry s) := by
  unfold execHostWriteAcknowledgement
  repeat' split
  all_goals exact .next fun h => by grind [State.setMem_mem, State.opLane_mem]

theorem goesOn_promotion {req} : GoesOn s (execPromotion req s) :=
  .next fun h => by grind [State.wf_promote]

theorem goesOn_homeSliceAct {req} : GoesOn s (execHomeSliceAct req s) :=
  .next fun h => by grind [State.wf_homeAct]

theorem goesOn_pageWalk {core owner va write} : GoesOn s (execPageWalk core owner va write s) := by
  unfold execPageWalk
  repeat' split
  all_goals exact .next fun h => by grind [State.setMem_mem, MemSys.wf_pageWalk]

theorem goesOn_peerTimeout {req} : GoesOn s (execPeerTimeout req s) := by
  unfold execPeerTimeout
  repeat' split
  all_goals exact .next fun h => by grind [State.reqFail_mem, State.wf_lateWrite, State.wf_queueTimeout, State.draw, State.setDraws_mem,
    MemSys.wf_homeWrite, State.setMem_mem, State.opFail_mem]

theorem goesOn_bar {p l cnt pair n} (here : s.Acts) : GoesOn s (execBar p l cnt pair n s) :=
  run_goesOn here fun e s h => by grind [Res.state, Env.wf_barPool, State.wf_arrive, Env.barWait_mem]

theorem goesOn_barr {p l cnt pair n d} (here : s.Acts) : GoesOn s (execBarr p l cnt pair n d s) :=
  run_goesOn here fun e s h => by grind [Res.state, Env.wf_barPool, State.wf_arrive, Env.writeDst_mem, Env.settle_mem]

theorem goesOn_barw {p l pair n a} (here : s.Acts) : GoesOn s (execBarw p l pair n a s) :=
  run_goesOn here fun e s h => by grind [Res.state, State.wf_barAct, Env.launchOp_mem, Env.settle_mem, Env.barWait_mem]

theorem goesOn_deferredStepClause {gang access} : GoesOn s (execDeferredStepClause gang access s) := by
  unfold execDeferredStepClause
  dsimp only
  split
  · exact .ite (.stay s) (.next id)
  · exact .stay s

theorem goesOn_clauseBegin {gang access} : GoesOn s (execClauseBegin gang access s) :=
  .next fun h => by grind [State.wf_beginClause]

theorem goesOn_capo {p l a i} (here : s.Acts) : GoesOn s (execCapo p l a i s) :=
  run_goesOn here fun e s h => by
    dsimp only
    split
    · exact h
    · refine Res.wf_ite h ?_
      split
      · next hx => exact State.wf_xlat_of h hx
      · next n _ _ t u hx =>
        have hs := State.wf_xlat_of h hx
        have hk := State.wf_onKey t.key t.pa hs
        refine Res.wf_ite hs (Res.wf_ite hs (Res.wf_ite hs (Res.wf_ite hs (Res.wf_ite hs (Res.wf_ite hk ?_)))))
        have settled : ∀ k, Memory.wf ((((e.settle (u.onKey t.key t.pa) e.act true).spillEvent e.x.gang false (ancEnt
          (t.pa / 128)) k).updCtx e.x fun c =>
            c.setPc c.path e.next)).mem.bytes = true := fun k => by rwa [State.updCtx_mem, State.spillEvent_mem, Env.settle_mem]
        refine Res.wf_ite (e.wf_closeClause _ _ ?_) (Res.wf_ite (e.wf_closeClause _ _ ?_) (e.wf_closeClause _ _ ?_))
        · rw [Env.launchOp_mem]; exact State.wf_acquire _ _ _ _ _ _ _ (settled _)
        · rw [Env.launchOp_mem]; exact State.wf_adopt _ _ _ _ _ _ (settled _)
        · exact State.wf_ancTouch _ (by
            rw [State.setHome_mem, State.updCtx_mem, State.updThread_mem, Env.issueOp_mem]; exact settled _)

theorem goesOn_capx {p l} (here : s.Acts) : GoesOn s (execCapx p l s) :=
  run_goesOn here fun e s h => by grind [Res.state, State.updCtx_mem, Env.issueOp_mem, Env.wf_closeClause, State.displaced_mem, State.wf_onKey,
    State.spillEvent_mem, Env.launchOp_mem, State.wf_closeCapsule]

theorem goesOn_strokeCommit {gang} : GoesOn s (execStrokeCommit gang s) := by
  have raised : ∀ x t, GoesOn s (.next (s.raise x t)) := fun x t => .next (State.wf_raise x t)
  unfold execStrokeCommit
  dsimp only
  split
  · exact .stay s
  · split
    · exact .stay s
    · split
      · exact .next (State.wf_strokeOver _)
      · refine .ite (.stay s) (.ite (.next fun h => State.wf_strokeOver _ (by rwa [State.displaced_mem]))
          (.ite (raised _ _) (.ite (raised _ _) (.ite (raised _ _) (.ite (.stay s) ?_)))))
        split
        · exact raised _ _
        · refine .next fun h => State.wf_ancTouch _ ?_
          rw [State.spillEvent_mem]
          refine State.wf_strokeOver _ ?_
          have released := fun (t : State) lane line {m : MemSys} (hm : Memory.wf m.bytes = true) => State.wf_releaseLine
            (s := t.setMem m) gang lane line hm
          rw [State.updThread_mem, apply_ite State.mem, State.wrote_mem, ite_self]
          exact released _ _ _ (MemSys.wf_setAncWord _ _ _ (MemSys.wf_updAnc0 _ _ (MemSys.wf_setCheckpoint _ _
            (MemSys.wf_foldl _ (fun m p hm => MemSys.wf_homeWrite _ _ _ _ _ _ _ _ hm) (State.wf_onKey _ _ h)))))

theorem goesOn_br {p i} (here : s.Acts) : GoesOn s (execBr p i s) :=
  run_goesOn here fun e s h => by grind [Res.state, Env.wf_transfer]

theorem goesOn_bk {p m x n i} (here : s.Acts) : GoesOn s (execBk p m x n i s) :=
  run_goesOn here fun e s h => by grind [Res.state, Env.wf_transfer]

theorem goesOn_bs {p c a i} (here : s.Acts) : GoesOn s (execBs p c a i s) :=
  run_goesOn here fun e s h => by grind [Res.state, Env.wf_transfer]

theorem goesOn_call {p d i} (here : s.Acts) : GoesOn s (execCall p d i s) :=
  run_goesOn here fun e s h => by grind [Res.state, Env.wf_transfer]

theorem goesOn_ret {p a} (here : s.Acts) : GoesOn s (execRet p a s) :=
  run_goesOn here fun e s h => by grind [Res.state, Env.wf_transfer]

theorem goesOn_jmpr {p link a} (here : s.Acts) : GoesOn s (execJmpr p link a s) :=
  run_goesOn here fun e s h => by grind [Res.state, Env.wf_transfer]

theorem goesOn_exit {p} (here : s.Acts) : GoesOn s (execExit p s) :=
  run_goesOn here fun e s h => by grind [Res.state, Env.wf_leave]

theorem goesOn_enrol {p n} (here : s.Acts) : GoesOn s (execEnrol p n s) :=
  run_goesOn here fun e s h => by grind [Res.state, State.updCtx_mem]

theorem goesOn_strike {p n} (here : s.Acts) : GoesOn s (execStrike p n s) :=
  run_goesOn here fun e s h => by grind [Res.state, State.updCtx_mem]

theorem goesOn_park {p n} (here : s.Acts) : GoesOn s (execPark p n s) :=
  run_goesOn here fun e s h => by grind [Res.state, Env.wf_closeClause]

theorem goesOn_yld {p} (here : s.Acts) : GoesOn s (execYld p s) :=
  run_goesOn here fun e s h => by grind [Res.state, State.goLast_mem]

theorem goesOn_nop {p} (here : s.Acts) : GoesOn s (execNop p s) :=
  run_goesOn here fun e s h => by grind [Res.state]

theorem goesOn_wait {p all fence sb} (here : s.Acts) : GoesOn s (execWait p all fence sb s) :=
  run_goesOn here fun e s h => by grind [Res.state]

end Sys2Proof.Machine
end

section
/-! PROOF. Integer instructions, conversions, power, copies, queues and evictions go on. -/

namespace Sys2Proof.Machine

variable {s : State}

theorem goesOn_add {p u d a b} (here : s.Acts) : GoesOn s (execAdd p u d a b s) :=
  run_goesOn here fun e s h => by grind [Res.state, Env.wf_arith]

theorem goesOn_sub {p u d a b} (here : s.Acts) : GoesOn s (execSub p u d a b s) :=
  run_goesOn here fun e s h => by grind [Res.state, Env.wf_arith]

theorem goesOn_mul {p u d a b} (here : s.Acts) : GoesOn s (execMul p u d a b s) :=
  run_goesOn here fun e s h => by grind [Res.state, Env.wf_arith]

theorem goesOn_mulhi {p u d a b} (here : s.Acts) : GoesOn s (execMulhi p u d a b s) :=
  run_goesOn here fun e s h => by grind [Res.state, Env.wf_arith]

theorem goesOn_mad {p u d a b} (here : s.Acts) : GoesOn s (execMad p u d a b s) :=
  run_goesOn here fun e s h => by grind [Res.state, Env.wf_alu]

theorem goesOn_madhi {p u d a b} (here : s.Acts) : GoesOn s (execMadhi p u d a b s) :=
  run_goesOn here fun e s h => by grind [Res.state, Env.wf_alu1]

theorem goesOn_min {p u d a b} (here : s.Acts) : GoesOn s (execMin p u d a b s) :=
  run_goesOn here fun e s h => by grind [Res.state, Env.wf_arith]

theorem goesOn_max {p u d a b} (here : s.Acts) : GoesOn s (execMax p u d a b s) :=
  run_goesOn here fun e s h => by grind [Res.state, Env.wf_arith]

theorem goesOn_neg {p w d a} (here : s.Acts) : GoesOn s (execNeg p w d a s) :=
  run_goesOn here fun e s h => by grind [Res.state, Env.wf_unary]

theorem goesOn_abs {p w d a} (here : s.Acts) : GoesOn s (execAbs p w d a s) :=
  run_goesOn here fun e s h => by grind [Res.state, Env.wf_unary]

theorem goesOn_lea {p d a b} (here : s.Acts) : GoesOn s (execLea p d a b s) :=
  run_goesOn here fun e s h => by grind [Res.state, Env.wf_alu]

theorem goesOn_shl {p d a b} (here : s.Acts) : GoesOn s (execShl p d a b s) :=
  run_goesOn here fun e s h => by grind [Res.state, Env.wf_logic]

theorem goesOn_shr {p d a b} (here : s.Acts) : GoesOn s (execShr p d a b s) :=
  run_goesOn here fun e s h => by grind [Res.state, Env.wf_logic]

theorem goesOn_sra {p d a b} (here : s.Acts) : GoesOn s (execSra p d a b s) :=
  run_goesOn here fun e s h => by grind [Res.state, Env.wf_logic]

theorem goesOn_rotl {p d a b} (here : s.Acts) : GoesOn s (execRotl p d a b s) :=
  run_goesOn here fun e s h => by grind [Res.state, Env.wf_logic]

theorem goesOn_and {p d a b} (here : s.Acts) : GoesOn s (execAnd p d a b s) :=
  run_goesOn here fun e s h => by grind [Res.state, Env.wf_logic]

theorem goesOn_or {p d a b} (here : s.Acts) : GoesOn s (execOr p d a b s) :=
  run_goesOn here fun e s h => by grind [Res.state, Env.wf_logic]

theorem goesOn_xor {p d a b} (here : s.Acts) : GoesOn s (execXor p d a b s) :=
  run_goesOn here fun e s h => by grind [Res.state, Env.wf_logic]

theorem goesOn_andn {p d a b} (here : s.Acts) : GoesOn s (execAndn p d a b s) :=
  run_goesOn here fun e s h => by grind [Res.state, Env.wf_logic]

theorem goesOn_not {p d a} (here : s.Acts) : GoesOn s (execNot p d a s) :=
  run_goesOn here fun e s h => by grind [Res.state, Env.wf_alu1]

theorem goesOn_clz {p d a} (here : s.Acts) : GoesOn s (execClz p d a s) :=
  run_goesOn here fun e s h => by grind [Res.state, Env.wf_alu1]

theorem goesOn_ctz {p d a} (here : s.Acts) : GoesOn s (execCtz p d a s) :=
  run_goesOn here fun e s h => by grind [Res.state, Env.wf_alu1]

theorem goesOn_popc {p d a} (here : s.Acts) : GoesOn s (execPopc p d a s) :=
  run_goesOn here fun e s h => by grind [Res.state, Env.wf_alu1]

theorem goesOn_brev {p d a} (here : s.Acts) : GoesOn s (execBrev p d a s) :=
  run_goesOn here fun e s h => by grind [Res.state, Env.wf_alu1]

theorem goesOn_bfx {p d a b} (here : s.Acts) : GoesOn s (execBfx p d a b s) :=
  run_goesOn here fun e s h => by grind [Res.state, Env.wf_alu1]

theorem goesOn_bfi {p d a b} (here : s.Acts) : GoesOn s (execBfi p d a b s) :=
  run_goesOn here fun e s h => by grind [Res.state, Env.wf_alu1]

theorem goesOn_cmp {p u c n a b} (here : s.Acts) : GoesOn s (execCmp p u c n a b s) :=
  run_goesOn here fun e s h => by grind [Res.state, Env.writePred_mem, Env.settle_mem]

theorem goesOn_sel {p d a x n} (here : s.Acts) : GoesOn s (execSel p d a x n s) :=
  run_goesOn here fun e s h => by grind [Res.state, Env.wf_select]

theorem goesOn_selImm {p d x n i} (here : s.Acts) : GoesOn s (execSelImm p d x n i s) :=
  run_goesOn here fun e s h => by grind [Res.state, Env.wf_select]

theorem goesOn_mov {p w d a} (here : s.Acts) : GoesOn s (execMov p w d a s) :=
  run_goesOn here fun e s h => by grind [Res.state, Env.wf_alu]

theorem goesOn_li {p w d i} (here : s.Acts) : GoesOn s (execLi p w d i s) :=
  run_goesOn here fun e s h => by grind [Res.state, Env.wf_alu]

theorem goesOn_req {p w d a b} (here : s.Acts) : GoesOn s (execReq p w d a b s) :=
  run_goesOn here fun e s h => by grind [Res.state, Env.wf_alu]

theorem goesOn_pack4 {p d a b} (here : s.Acts) : GoesOn s (execPack4 p d a b s) :=
  run_goesOn here fun e s h => by grind [Res.state, Env.wf_alu]

theorem goesOn_unpack4 {p q4 d a} (here : s.Acts) : GoesOn s (execUnpack4 p q4 d a s) :=
  run_goesOn here fun e s h => by grind [Res.state, Env.wf_alu]

theorem goesOn_dot4 {p n8 d a b} (here : s.Acts) : GoesOn s (execDot4 p n8 d a b s) :=
  run_goesOn here fun e s h => by grind [Res.state, Env.wf_alu]

theorem goesOn_cvt {p pk d a t sc} (here : s.Acts) : GoesOn s (execCvt p pk d a t sc s) :=
  run_goesOn here fun e s h => by grind [Res.state, Env.wf_alu, wf_foldl, foldl_mem]

theorem goesOn_currentReservationGrant {cluster} : GoesOn s (execCurrentReservationGrant cluster s) := by
  unfold execCurrentReservationGrant
  dsimp only
  split
  · exact .stay s
  · refine .ite (.stay s) ?_
    split
    · exact .next fun h => by simpa only [State.granted_mem, State.updOp_mem, State.setArb_mem]
    · split
      · exact .next fun h => by simpa only [State.setArb_mem]
      · exact .next fun h => by simpa only [State.setAgenda_mem, State.granted_mem, State.updCtx_mem, State.updOp_mem, State.setArb_mem]

theorem goesOn_clusterEnergyAdvance {cluster} : GoesOn s (execClusterEnergyAdvance cluster s) := by
  unfold execClusterEnergyAdvance
  repeat' split
  all_goals exact .next fun h => by grind [State.draw, State.setDraws_mem, State.setDev_mem]

theorem goesOn_deviceEnergyAdvance : GoesOn s (execDeviceEnergyAdvance s) := by
  unfold execDeviceEnergyAdvance
  repeat' split
  all_goals exact .next fun h => by grind [State.draw, State.setDraws_mem, State.setDev_mem]

theorem goesOn_cp {p l n d a b cv} (here : s.Acts) : GoesOn s (execCp p l n d a b cv s) :=
  run_goesOn here fun e s h => by grind [Res.state, Env.wf_cpLanes, Env.parkOn_mem, State.updCtx_mem, State.clearLines_mem, Env.wf_part,
    Env.issueOp_mem, Env.settle_mem, State.arbRequest_mem]

theorem goesOn_copyLineLands {op} : GoesOn s (execCopyLineLands op s) := by
  unfold execCopyLineLands
  repeat' split
  all_goals exact .next fun h => by grind [State.wf_landPart, State.arbEnd_mem, State.updOp_mem, State.arbRequest_mem]

theorem goesOn_pmrd {p l n sel clr d} (here : s.Acts) : GoesOn s (execPmrd p l n sel clr d s) :=
  run_goesOn here fun e s h => by grind [Res.state, Env.passed_mem, State.updGroup_mem, Env.wf_longWrite]

theorem goesOn_pmset {p l n a} (here : s.Acts) : GoesOn s (execPmset p l n a s) :=
  run_goesOn here fun e s h => by grind [Res.state, State.updGroup_mem, Env.settle_mem]

theorem goesOn_tick {p l w d} (here : s.Acts) : GoesOn s (execTick p l w d s) :=
  run_goesOn here fun e s h => by grind [Res.state, Env.wf_longWrite]

theorem goesOn_enrd {p l sel d} (here : s.Acts) : GoesOn s (execEnrd p l sel d s) :=
  run_goesOn here fun e s h => by grind [Res.state, Env.wf_longWrite]

theorem goesOn_qset {p l q depth} (here : s.Acts) : GoesOn s (execQset p l q depth s) :=
  run_goesOn here fun e s h => by grind [Res.state, State.updGang_mem]

theorem goesOn_qpeek {p l q d} (here : s.Acts) : GoesOn s (execQpeek p l q d s) :=
  run_goesOn here fun e s h => by grind [Res.state, Env.wf_atHeads, Env.wf_longWrite]

theorem goesOn_qdrain {p l q d} (here : s.Acts) : GoesOn s (execQdrain p l q d s) :=
  run_goesOn here fun e s h => by grind [Res.state, State.updGang_mem, Env.writeDst_mem]

theorem goesOn_qcount {p l q sel d} (here : s.Acts) : GoesOn s (execQcount p l q sel d s) :=
  run_goesOn here fun e s h => by grind [Res.state, Env.writeDst_mem]

theorem goesOn_qtokTest {p l q k} (here : s.Acts) : GoesOn s (execQtokTest p l q k s) :=
  run_goesOn here fun e s h => by grind [Res.state, Env.wf_atHeads, Env.launchOp_mem, Env.writePred_mem]

theorem goesOn_qtokTake {p l q d} (here : s.Acts) : GoesOn s (execQtokTake p l q d s) :=
  run_goesOn here fun e s h => by grind [Res.state, Env.wf_atHeads, State.updGang_mem, Env.wf_longWrite]

theorem goesOn_evictRequest {gang} : GoesOn s (execEvictRequest gang s) :=
  .next fun h => by grind [State.wf_evictGang, State.setCtl_mem]

theorem goesOn_gangRestore {gang core} : GoesOn s (execGangRestore gang core s) :=
  .next fun h => by grind [State.wf_restoreGang]

theorem goesOn_absentLineWake {gang access} : GoesOn s (execAbsentLineWake gang access s) := by
  unfold execAbsentLineWake
  dsimp only
  split
  · exact .ite (.stay s) (.next fun h => by rwa [State.selectPath_mem, State.updCtx_mem])
  · exact .stay s

theorem goesOn_absentLineLimit {gang} : GoesOn s (execAbsentLineLimit gang s) :=
  .next fun h => by grind [State.wf_noteEvictable]

end Sys2Proof.Machine
end

section
/-! PROOF. Placements, launches, the device and dunes go on. -/

namespace Sys2Proof.Machine

variable {s : State}

theorem goesOn_rootDuneFiring {launch cluster core} : GoesOn s (execRootDuneFiring launch cluster core s) :=
  .next fun h => by grind [State.wf_engine]

theorem goesOn_duneFiring {cluster core} : GoesOn s (execDuneFiring cluster core s) :=
  .next fun h => by grind [State.wf_engine]

theorem goesOn_rootDuneEnqueue {launch cluster} : GoesOn s (execRootDuneEnqueue launch cluster s) := by
  unfold execRootDuneEnqueue
  repeat' split
  all_goals exact .next fun h => by grind [State.updLaunch_mem]

theorem goesOn_evictionDelay {gang} : GoesOn s (execEvictionDelay gang s) := by
  have noted : GoesOn s (.next (s.noteEvictable gang)) := .next (State.wf_noteEvictable gang)
  unfold execEvictionDelay
  dsimp only
  split
  · exact noted
  · split
    · exact noted
    · refine .ite (.next fun h => ?_) noted
      have kept := State.wf_noteEvictable gang h
      split
      · exact kept
      · split <;> rwa [State.setAgenda_mem]

theorem goesOn_driftExpiry {launch dune} : GoesOn s (execDriftExpiry launch dune s) := by
  unfold execDriftExpiry
  repeat' split
  all_goals exact .next fun h => by grind [State.engineLooks_mem]

theorem goesOn_starving {launch dune} : GoesOn s (execStarving launch dune s) := by
  unfold execStarving
  repeat' split
  all_goals exact .next fun h => by grind [State.engineLooks_mem]

theorem goesOn_finalDrain {launch} : GoesOn s (execFinalDrain launch s) := by
  unfold execFinalDrain
  repeat' split
  all_goals exact .next fun h => by grind [State.updLaunch_mem]

theorem goesOn_ringItemMove {launch dune} : GoesOn s (execRingItemMove launch dune s) := by
  unfold execRingItemMove
  repeat' split
  all_goals exact .next fun h => by grind [State.wf_ringFails, State.updDune_mem]

theorem goesOn_duneRingFaultResolution {launch dune} : GoesOn s (execDuneRingFaultResolution launch dune s) :=
  .next fun h => by rw [State.updDune_mem]; exact wf_foldl _ (fun s n hs => State.wf_dropDeleg n hs) h

theorem goesOn_launchRecordTake {ring} : GoesOn s (execLaunchRecordTake ring s) := by
  unfold execLaunchRecordTake
  repeat' split
  all_goals exact .next fun h => by grind [State.wf_takeRecord, State.ringTaken_mem]

theorem goesOn_allotmentFill {group line} : GoesOn s (execAllotmentFill group line s) := by
  unfold execAllotmentFill
  repeat' split
  all_goals exact .next fun h => by grind [State.updGroup_mem]

theorem goesOn_accessContextEnd {gang} : GoesOn s (execAccessContextEnd gang s) := by
  unfold execAccessContextEnd
  split
  · exact .stay s
  · split
    · exact .stay s
    · exact .ite (.stay s) (.next fun h => State.wf_tryRetire _ (by rw [State.selectPath_mem]; exact State.wf_endLanes _ _ _ h))

theorem goesOn_launchCompletion {launch} : GoesOn s (execLaunchCompletion launch s) := by
  unfold execLaunchCompletion
  repeat' split
  all_goals exact .next fun h => by grind [State.wf_finishLaunch]

theorem goesOn_launchEndEarly {launch cause} : GoesOn s (execLaunchEndEarly launch cause s) := by
  unfold execLaunchEndEarly
  dsimp only
  split
  · exact .stay s
  · split
    · exact .next id
    · exact .ite (.ite (.next fun h => by rwa [foldl_mem _ _ State.endThreads_mem]) (.stay s)) (.ite (.next (State.wf_endLaunch _ _ _)) (.stay s))

theorem goesOn_tail {ring t} : GoesOn s (execTail ring t s) :=
  .ite (.stay s) (.ite (.next id) (.next fun h => by rwa [State.ringFlag_mem]))

theorem goesOn_rstat {ring w} : GoesOn s (execRstat ring w s) := by
  unfold execRstat
  repeat' split
  all_goals exact .next fun h => by grind [State.setRing_mem]

theorem goesOn_ringConfigure {ring cfg owner} : GoesOn s (execRingConfigure ring cfg owner s) := by
  unfold execRingConfigure
  repeat' split
  all_goals exact .next fun h => by grind [State.wf_bindOwner, State.writeCfg_mem]

theorem goesOn_ringDisable {ring cfg} : GoesOn s (execRingDisable ring cfg s) := by
  unfold execRingDisable
  repeat' split
  all_goals exact .next fun h => by grind [State.writeCfg_mem]

theorem goesOn_deviceSettingWrite {r w} : GoesOn s (execDeviceSettingWrite r w s) :=
  .next fun h => by grind [State.writeSetting_mem, State.wf_loadPair, State.setDev_mem, State.setHome_mem, State.setLaunches_mem, State.setCtl_mem]

theorem goesOn_registerWrite {r w} : GoesOn s (execRegisterWrite r w s) :=
  .next fun h => by grind [State.setLaunches_mem, State.writeBar0_mem, State.setDev_mem]

theorem goesOn_attestation : GoesOn s (execAttestation s) := .ite (.stay s) (.next fun h => by rwa [State.setMbox_mem])

theorem goesOn_recoveryProgramming : GoesOn s (execRecoveryProgramming s) := .ite (.stay s) (.next fun h => by rwa [State.setMbox_mem])

theorem goesOn_attestationDone {ok} : GoesOn s (execAttestationDone ok s) := by
  unfold execAttestationDone
  repeat' split
  all_goals exact .next fun h => by grind [State.msi_mem, State.setMbox_mem, State.draw, State.setDraws_mem, State.setDev_mem]

theorem goesOn_mlogExtend {d} : GoesOn s (execMlogExtend d s) :=
  .next fun h => by grind [State.setMbox_mem]

theorem goesOn_deviceReset : GoesOn s (execDeviceReset s) := by
  have reset : Memory.wf s.mem.bytes = true → Memory.wf s.afterReset.mem.bytes = true := State.wf_afterReset
  unfold execDeviceReset
  dsimp only
  split <;> exact .next fun h => by rw [State.stageSignals_mem]; exact reset h

theorem goesOn_fuseBlow {n} : GoesOn s (execFuseBlow n s) := by
  unfold execFuseBlow
  repeat' split
  all_goals exact .next fun h => by grind [State.setDev_mem]

theorem goesOn_functionLevelReset : GoesOn s (execFunctionLevelReset s) :=
  .next fun h => by grind [State.setMem_mem, State.setLaunches_mem]

theorem goesOn_hostAccess {addr acc} : GoesOn s (execHostAccess addr acc s) :=
  .next fun h => by grind [State.wf_extAccess, State.wf_hostAccess]

theorem goesOn_peerAccess {port addr acc} : GoesOn s (execPeerAccess port addr acc s) := by
  unfold execPeerAccess
  repeat' split
  all_goals exact .next fun h => by grind [State.setDev_mem, State.wf_extAccess]

theorem goesOn_peerLinkDown {port} : GoesOn s (execPeerLinkDown port s) := by
  unfold execPeerLinkDown
  repeat' split
  all_goals exact .next fun h => by grind [State.setDev_mem]

theorem goesOn_peerLinkUp {port} : GoesOn s (execPeerLinkUp port s) :=
  .next fun h => by grind [State.setDev_mem]

theorem goesOn_flitCrcRetry {_port} : GoesOn s (execFlitCrcRetry _port s) :=
  .next fun h => by grind

theorem goesOn_tlbInvalidation {owner lo hi} : GoesOn s (execTlbInvalidation owner lo hi s) :=
  .next fun h => by grind [State.setCtl_mem, State.setMem_mem]

theorem goesOn_icacheInvalidation {lo hi} : GoesOn s (execIcacheInvalidation lo hi s) :=
  .next fun h => by grind [State.setMem_mem]

theorem goesOn_uncorrectableError {e} : GoesOn s (execUncorrectableError e s) := by
  unfold execUncorrectableError
  repeat' split
  all_goals exact .next fun h => by grind [State.updCtx_mem, State.spoil_mem, State.setMem_mem, State.updGroup_mem, State.pmEvent_mem]

theorem goesOn_contextStoreError {gang access} : GoesOn s (execContextStoreError gang access s) := by
  unfold execContextStoreError
  repeat' split
  all_goals exact .next fun h => by grind [State.setAgenda_mem]

theorem goesOn_spawn {p l pw a c} (here : s.Acts) : GoesOn s (execSpawn p l pw a c s) :=
  run_goesOn here fun e s h => by grind [Res.state, Env.wf_enqueue]

theorem goesOn_tokput {p l pw a b c} (here : s.Acts) : GoesOn s (execTokput p l pw a b c s) :=
  run_goesOn here fun e s h => by grind [Res.state, Env.wf_enqueue]

theorem goesOn_dset {p l d a b c} (here : s.Acts) : GoesOn s (execDset p l d a b c s) :=
  run_goesOn here fun e s h => by
    have kept := eachLane_keeps (P := fun t => t.mem = s.mem) (f := e.dsetLane) e.lanes [] [] (fun t n ht => (e.dsetLane_mem t n).trans ht) rfl
    grind [Res.state, Env.settle_mem, State.writeReg_mem, Env.wf_part, Env.launchOp_mem]

theorem goesOn_dget {p l d a b} (here : s.Acts) : GoesOn s (execDget p l d a b s) :=
  run_goesOn here fun e s h => by grind [Res.state, Env.wf_longWrite]

theorem goesOn_ddrain {p l a b} (here : s.Acts) : GoesOn s (execDdrain p l a b s) :=
  run_goesOn here fun e s h => by grind [Res.state, Env.settle_mem, Env.ddrainLane_mem, wf_foldl, foldl_mem]

theorem goesOn_dspill {p l a b c} (here : s.Acts) : GoesOn s (execDspill p l a b c s) :=
  run_goesOn here fun e s h => by
    have kept := eachLane_keeps (P := fun t => Memory.wf t.mem.bytes = true) (f := e.dspillLane) e.lanes [] [] (fun t n ht => e.wf_dspillLane n ht) h
    grind [Res.state, Env.settle_mem, Env.wf_part, Env.launchOp_mem]

theorem goesOn_itemfin {p l} (here : s.Acts) : GoesOn s (execItemfin p l s) :=
  run_goesOn here fun e s h => by grind [Res.state, State.updThread_mem, wf_foldl, foldl_mem]

theorem goesOn_refill {p l} (here : s.Acts) : GoesOn s (execRefill p l s) := by
  refine run_goesOn here fun e s h => Res.wf_ite h (Res.wf_ite h ?_)
  dsimp only
  split
  · exact State.wf_ringFails _ _ _ h
  · next taken =>
    rw [← State.takeItems_mem taken] at h
    have emptied := fun (t : State) (ns : List Nat) => foldl_mem t ns fun t n => t.updThread_mem e.x.gang n fun t => { t with item := .empty }
    grind [Res.state, State.updCtx_mem, Env.launchOp_mem, State.wf_endEmpty]

end Sys2Proof.Machine
end

section
/-! PROOF. Floating-point, lane, matrix and special instructions, queries, ticks and traps go on. -/

namespace Sys2Proof.Machine

variable {s : State}

theorem goesOn_fadd {p d a b} (here : s.Acts) : GoesOn s (execFadd p d a b s) :=
  run_goesOn here fun e s h => by grind [Res.state, Env.wf_farith]

theorem goesOn_fsub {p d a b} (here : s.Acts) : GoesOn s (execFsub p d a b s) :=
  run_goesOn here fun e s h => by grind [Res.state, Env.wf_farith]

theorem goesOn_fmul {p d a b} (here : s.Acts) : GoesOn s (execFmul p d a b s) :=
  run_goesOn here fun e s h => by grind [Res.state, Env.wf_farith]

theorem goesOn_ffma {p d a b} (here : s.Acts) : GoesOn s (execFfma p d a b s) :=
  run_goesOn here fun e s h => by grind [Res.state, Env.wf_alu]

theorem goesOn_fmin {p d a b} (here : s.Acts) : GoesOn s (execFmin p d a b s) :=
  run_goesOn here fun e s h => by grind [Res.state, Env.wf_fminmax]

theorem goesOn_fmax {p d a b} (here : s.Acts) : GoesOn s (execFmax p d a b s) :=
  run_goesOn here fun e s h => by grind [Res.state, Env.wf_fminmax]

theorem goesOn_fabs {p t d a} (here : s.Acts) : GoesOn s (execFabs p t d a s) :=
  run_goesOn here fun e s h => by grind [Res.state, Env.wf_fsign]

theorem goesOn_fneg {p t d a} (here : s.Acts) : GoesOn s (execFneg p t d a s) :=
  run_goesOn here fun e s h => by grind [Res.state, Env.wf_fsign]

theorem goesOn_fcmp {p c n a b} (here : s.Acts) : GoesOn s (execFcmp p c n a b s) :=
  run_goesOn here fun e s h => by grind [Res.state, Env.flags_mem, Env.writePred_mem, Env.settle_mem, wf_foldl, foldl_mem]

theorem goesOn_fcls {p y n a b} (here : s.Acts) : GoesOn s (execFcls p y n a b s) :=
  run_goesOn here fun e s h => by grind [Res.state, Env.writePred_mem, Env.settle_mem]

theorem goesOn_rng {p f d} (here : s.Acts) : GoesOn s (execRng p f d s) :=
  run_goesOn here fun e s h => by grind [Res.state, Env.writeDst_mem, Env.settle_mem, State.updThread_mem, wf_foldl, foldl_mem]

theorem goesOn_shflIdx {p d a b} (here : s.Acts) : GoesOn s (execShflIdx p d a b s) :=
  run_goesOn here fun e s h => by grind [Res.state, Env.wf_shfl]

theorem goesOn_shflUp {p d a b} (here : s.Acts) : GoesOn s (execShflUp p d a b s) :=
  run_goesOn here fun e s h => by grind [Res.state, Env.wf_shfl]

theorem goesOn_shflDown {p d a b} (here : s.Acts) : GoesOn s (execShflDown p d a b s) :=
  run_goesOn here fun e s h => by grind [Res.state, Env.wf_shfl]

theorem goesOn_shflXor {p d a b} (here : s.Acts) : GoesOn s (execShflXor p d a b s) :=
  run_goesOn here fun e s h => by grind [Res.state, Env.wf_shfl]

theorem goesOn_vote {p m n x k} (here : s.Acts) : GoesOn s (execVote p m n x k s) :=
  run_goesOn here fun e s h => by grind [Res.state, Env.writePred_mem, Env.settle_mem]

theorem goesOn_voteBallot {p d x k} (here : s.Acts) : GoesOn s (execVoteBallot p d x k s) :=
  run_goesOn here fun e s h => by grind [Res.state, Env.wf_alu]

theorem goesOn_bcast {p d a n} (here : s.Acts) : GoesOn s (execBcast p d a n s) :=
  run_goesOn here fun e s h => by grind [Res.state, Env.wf_alu1, Env.settle_mem]

theorem goesOn_bcastNib {p d a} (here : s.Acts) : GoesOn s (execBcastNib p d a s) :=
  run_goesOn here fun e s h => by grind [Res.state, Env.wf_alu1]

theorem goesOn_red {p t o d a} (here : s.Acts) : GoesOn s (execRed p t o d a s) :=
  run_goesOn here fun e s h => by grind [Res.state, Env.flags_mem, State.writeReg_mem, Env.wf_alu]

theorem goesOn_scan {p t x o d a} (here : s.Acts) : GoesOn s (execScan p t x o d a s) :=
  run_goesOn here fun e s h => by grind [Res.state, Env.flags_mem, Env.wf_alu]

theorem goesOn_fmtres {p l fmt swz blk d a} (here : s.Acts) : GoesOn s (execFmtres p l fmt swz blk d a s) :=
  run_goesOn here fun e s h => by grind [Res.state, State.setCores_mem, Env.writeDst_mem, Env.settle_mem]

theorem goesOn_fmtrel {p l a} (here : s.Acts) : GoesOn s (execFmtrel p l a s) :=
  run_goesOn here fun e s h => by grind [Res.state, State.setCores_mem, Env.settle_mem]

theorem goesOn_mld {p l scl d a b c} (here : s.Acts) : GoesOn s (execMld p l scl d a b c s) :=
  run_goesOn here fun e s h => by grind [Res.state, Env.wf_moveRect]

theorem goesOn_mldT {p l scl d a b c} (here : s.Acts) : GoesOn s (execMldT p l scl d a b c s) :=
  run_goesOn here fun e s h => by grind [Res.state, Env.wf_moveRect]

theorem goesOn_mso {p l scl d a b c} (here : s.Acts) : GoesOn s (execMso p l scl d a b c s) :=
  run_goesOn here fun e s h => by grind [Res.state, Env.wf_moveRect]

theorem goesOn_mmac {p l a b} (here : s.Acts) : GoesOn s (execMmac p l a b s) :=
  run_goesOn here fun e s h => by grind [Res.state, Env.wf_mmac]

theorem goesOn_mmacI {p l a b} (here : s.Acts) : GoesOn s (execMmacI p l a b s) :=
  run_goesOn here fun e s h => by grind [Res.state, Env.wf_mmac]

theorem goesOn_mrd {p l w t d a} (here : s.Acts) : GoesOn s (execMrd p l w t d a s) :=
  run_goesOn here fun e s h => by grind [Res.state, State.wf_allFail, Env.wf_part, State.writeReg_mem, Env.settle_mem, Env.launchOp_mem]

theorem goesOn_mclr {p l st t} (here : s.Acts) : GoesOn s (execMclr p l st t s) :=
  run_goesOn here fun e s h => by grind [Res.state, Env.launchOp_mem, State.updGroup_mem]

theorem goesOn_mstat {p l keep t d} (here : s.Acts) : GoesOn s (execMstat p l keep t d s) :=
  run_goesOn here fun e s h => by grind [Res.state, State.updGroup_mem, Env.wf_longWrite]

theorem goesOn_mqnt {p l t e4 sat col a b c} (here : s.Acts) : GoesOn s (execMqnt p l t e4 sat col a b c s) :=
  run_goesOn here fun e s h => by
    have parked : ∀ ls, Memory.wf (e.parkOn s ls).mem.bytes = true := fun ls => by rwa [Env.parkOn_mem]
    dsimp only
    split
    · exact h
    · refine Res.wf_ite h (Res.wf_ite h (Res.wf_ite h (Res.wf_ite h ?_)))
      split
      · exact h
      · exact h
      · exact h
      · split
        · exact h
        · exact parked _
        · exact h
        · refine Res.wf_ite (parked _) (Res.wf_ite h (Res.wf_ite h ?_))
          split
          · exact e.wf_issueMat _ _ _ h
          · exact h

theorem goesOn_spick {p l a b c} (here : s.Acts) : GoesOn s (execSpick p l a b c s) :=
  run_goesOn here fun e s h => by grind [Res.state, Env.parkOn_mem, Env.wf_issueMat]

theorem goesOn_matrixOpComplete {op} : GoesOn s (execMatrixOpComplete op s) := by
  unfold execMatrixOpComplete
  repeat' split
  all_goals exact .next fun h => by grind [State.updOp_mem, State.matDo_mem, State.setCores_mem, State.pmSample_mem, State.arbEnd_mem]

theorem goesOn_queryStop {src} : GoesOn s (execQueryStop src s) :=
  .next fun h => by grind [State.wf_queryEvent]

theorem goesOn_queryStep {src} : GoesOn s (execQueryStep src s) :=
  .next fun h => by grind [State.wf_queryEvent]

theorem goesOn_queryResume {src} : GoesOn s (execQueryResume src s) :=
  .next fun h => by grind [State.wf_queryEvent]

theorem goesOn_queryKill {src} : GoesOn s (execQueryKill src s) :=
  .next fun h => by grind [State.wf_queryEvent]

theorem goesOn_queryRead {src} : GoesOn s (execQueryRead src s) :=
  .next fun h => by grind [State.wf_queryEvent]

theorem goesOn_queryWrite {src} : GoesOn s (execQueryWrite src s) :=
  .next fun h => by grind [State.wf_queryEvent]

theorem goesOn_rcq {p l d a} (here : s.Acts) : GoesOn s (execRcq p l d a s) :=
  run_goesOn here fun e s h => by
    have parked : ∀ ls, Memory.wf (e.parkOn s ls).mem.bytes = true := fun ls => by rwa [Env.parkOn_mem]
    have held : ∀ (d : OpData) ctl, Memory.wf (((e.issueOp (e.settle s e.act true) e.act e.act d).2.freshId.2).setCtl ctl).mem.bytes = true :=
      fun d ctl => by
        change Memory.wf (e.issueOp _ _ _ d).2.mem.bytes = true
        rwa [Env.issueOp_mem, Env.settle_mem]
    dsimp only
    split
    · exact h
    · refine Res.wf_ite h ?_
      split
      · exact h
      · exact parked _
      · exact h
      · split
        · exact h
        · refine Res.wf_ite (held _ _) (Res.wf_ite h ?_)
          split
          · exact h
          · exact Res.wf_ite (parked _) (Res.wf_ite h (held _ _))

theorem goesOn_rcrd {p l sel acc d a} (here : s.Acts) : GoesOn s (execRcrd p l sel acc d a s) :=
  run_goesOn here fun e s h => by grind [Res.state, Env.wf_longWrite, State.draw, State.setDraws_mem]

theorem goesOn_famset {p l d} (here : s.Acts) : GoesOn s (execFamset p l d s) :=
  run_goesOn here fun e s h => by grind [Res.state, State.updThread_mem, Env.wf_longWrite, wf_foldl, foldl_mem]

theorem goesOn_queueDeadlockLimit {gang} : GoesOn s (execQueueDeadlockLimit gang s) :=
  .next fun h => by grind [State.wf_postDeadlock]

theorem goesOn_gangAgeing {gang access} : GoesOn s (execGangAgeing gang access s) := by
  unfold execGangAgeing
  split
  · exact .ite (.stay s) (.next id)
  · exact .stay s

theorem goesOn_spinDemotion {gang} : GoesOn s (execSpinDemotion gang s) := by
  unfold execSpinDemotion
  repeat' split
  all_goals exact .next fun h => by grind [State.pmEvent_mem, State.updGang_mem]

theorem goesOn_referenceTick {cluster} : GoesOn s (execReferenceTick cluster s) := by
  refine .ite (.stay s) (.ite (.next fun h => ?_) (.next fun h => ?_))
  · split
    · rwa [State.setAgenda_mem]
    · exact h
  · rw [State.setAgenda_mem]
    refine wf_foldl _ (fun s k hs => ?_) (State.wf_tickCounts cluster _ (s := (State.tickCycles _).2) (by rwa [State.tickCycles_mem]))
    rw [State.noteDeadlock_mem]
    split
    · exact State.wf_noteEvictable k hs
    · exact hs

theorem goesOn_pendingEventPost : GoesOn s (execPendingEventPost s) :=
  .next fun h => by grind [State.wf_writeEvent, State.setCtl_mem, State.wf_postDeadlock, State.wf_tryEnter, State.wf_ringFails, State.updDune_mem]

theorem goesOn_rcp {p d a} (here : s.Acts) : GoesOn s (execRcp p d a s) :=
  run_goesOn here fun e s h => by grind [Res.state, Env.wf_special]

theorem goesOn_rsq {p d a} (here : s.Acts) : GoesOn s (execRsq p d a s) :=
  run_goesOn here fun e s h => by grind [Res.state, Env.wf_special]

theorem goesOn_sqrt {p d a} (here : s.Acts) : GoesOn s (execSqrt p d a s) :=
  run_goesOn here fun e s h => by grind [Res.state, Env.wf_special]

theorem goesOn_exp2 {p d a} (here : s.Acts) : GoesOn s (execExp2 p d a s) :=
  run_goesOn here fun e s h => by grind [Res.state, Env.wf_special]

theorem goesOn_log2 {p d a} (here : s.Acts) : GoesOn s (execLog2 p d a s) :=
  run_goesOn here fun e s h => by grind [Res.state, Env.wf_special]

theorem goesOn_sin {p d a} (here : s.Acts) : GoesOn s (execSin p d a s) :=
  run_goesOn here fun e s h => by grind [Res.state, Env.wf_special]

theorem goesOn_cos {p d a} (here : s.Acts) : GoesOn s (execCos p d a s) :=
  run_goesOn here fun e s h => by grind [Res.state, Env.wf_special]

theorem goesOn_tanh {p d a} (here : s.Acts) : GoesOn s (execTanh p d a s) :=
  run_goesOn here fun e s h => by grind [Res.state, Env.wf_special]

theorem goesOn_trapSoft {p l code a} (here : s.Acts) : GoesOn s (execTrapSoft p l code a s) :=
  run_goesOn here fun e s h => by grind [Res.state, Env.wf_trapNow]

theorem goesOn_trapLink {p l a} (here : s.Acts) : GoesOn s (execTrapLink p l a s) :=
  run_goesOn here fun e s h => by grind [Res.state, Env.wf_trapNow]

theorem goesOn_trapGst {p l mask} (here : s.Acts) : GoesOn s (execTrapGst p l mask s) :=
  run_goesOn here fun e s h => by grind [Res.state, Env.wf_trapNow]

theorem goesOn_tret {p l} (here : s.Acts) : GoesOn s (execTret p l s) :=
  run_goesOn here fun e s h => by grind [Res.state, State.wf_endTrap]

theorem goesOn_tdel {p l a} (here : s.Acts) : GoesOn s (execTdel p l a s) :=
  run_goesOn here fun e s h => by grind [Res.state, State.waitDelegated_mem, State.wf_delegate, Env.settle_mem]

theorem goesOn_retry {entry} : GoesOn s (execRetry entry s) := by
  unfold execRetry
  split
  · exact .stay s
  · exact goesOn_duneRingFaultResolution
  · exact .next fun h => State.wf_endTrap _ _ _ _ (State.wf_dropDeleg entry h)

theorem goesOn_skip {entry} : GoesOn s (execSkip entry s) := by
  unfold execSkip
  repeat' split
  all_goals exact .next fun h => by grind [State.wf_endDeleg, State.forgive_mem, State.wf_endTrap, State.wf_dropDeleg]

theorem goesOn_endRes {entry} : GoesOn s (execEndRes entry s) := by
  unfold execEndRes
  repeat' split
  all_goals exact .next fun h => by grind [State.wf_endDeleg]

theorem goesOn_trapEntry {gang access} : GoesOn s (execTrapEntry gang access s) :=
  .next fun h => by grind [State.wf_tryEnter]

theorem goesOn_directDelegation {gang access} : GoesOn s (execDirectDelegation gang access s) :=
  .next fun h => by grind [State.wf_tryEnter]

theorem goesOn_doubleTrap {gang access} : GoesOn s (execDoubleTrap gang access s) :=
  .next fun h => by grind [State.wf_tryEnter]

theorem goesOn_permitBackoffExpiry {gang access} : GoesOn s (execPermitBackoffExpiry gang access s) := by
  unfold execPermitBackoffExpiry
  dsimp only
  split
  · exact .stay s
  · split
    · exact .stay s
    · exact .ite (.stay s) (.next id)

theorem goesOn_sysrd {p l n d} (here : s.Acts) : GoesOn s (execSysrd p l n d s) :=
  run_goesOn here fun e s h => by grind [Res.state, Env.wf_longWrite]

theorem goesOn_syswr {p l n a} (here : s.Acts) : GoesOn s (execSyswr p l n a s) :=
  run_goesOn here fun e s h => by grind [Res.state, Env.settle_mem, State.updCtx_mem, State.updThread_mem, Env.writeMask_mem, Env.launchOp_mem,
    wf_foldl, foldl_mem]

theorem goesOn_brk {p l code} (here : s.Acts) : GoesOn s (execBrk p l code s) :=
  run_goesOn here fun e s h => by grind [Res.state, State.wf_postEvent, State.wf_stopLane, Env.wf_advance, wf_foldl, foldl_mem]

end Sys2Proof.Machine
end

section
/-! PROOF. Every step goes on and keeps the form of memory (16:R379, log 2, log 14): what an issue executes finds its context. -/

namespace Sys2Proof.Machine

/-- Every instruction and event goes on; an instruction where `cur` names a context that stands at one. -/
theorem exec_goesOn {s : State} : ∀ i : Instr, (i.isEvent = false → s.Acts) → GoesOn s (exec i s)
  | .add .., here => goesOn_add (here rfl)
  | .sub .., here => goesOn_sub (here rfl)
  | .mul .., here => goesOn_mul (here rfl)
  | .mulhi .., here => goesOn_mulhi (here rfl)
  | .mad .., here => goesOn_mad (here rfl)
  | .madhi .., here => goesOn_madhi (here rfl)
  | .neg .., here => goesOn_neg (here rfl)
  | .abs .., here => goesOn_abs (here rfl)
  | .min .., here => goesOn_min (here rfl)
  | .max .., here => goesOn_max (here rfl)
  | .lea .., here => goesOn_lea (here rfl)
  | .shl .., here => goesOn_shl (here rfl)
  | .shr .., here => goesOn_shr (here rfl)
  | .sra .., here => goesOn_sra (here rfl)
  | .rotl .., here => goesOn_rotl (here rfl)
  | .and .., here => goesOn_and (here rfl)
  | .or .., here => goesOn_or (here rfl)
  | .xor .., here => goesOn_xor (here rfl)
  | .andn .., here => goesOn_andn (here rfl)
  | .not .., here => goesOn_not (here rfl)
  | .clz .., here => goesOn_clz (here rfl)
  | .ctz .., here => goesOn_ctz (here rfl)
  | .popc .., here => goesOn_popc (here rfl)
  | .brev .., here => goesOn_brev (here rfl)
  | .bfx .., here => goesOn_bfx (here rfl)
  | .bfi .., here => goesOn_bfi (here rfl)
  | .cmp .., here => goesOn_cmp (here rfl)
  | .sel .., here => goesOn_sel (here rfl)
  | .selImm .., here => goesOn_selImm (here rfl)
  | .mov .., here => goesOn_mov (here rfl)
  | .li .., here => goesOn_li (here rfl)
  | .cvt .., here => goesOn_cvt (here rfl)
  | .req .., here => goesOn_req (here rfl)
  | .pack4 .., here => goesOn_pack4 (here rfl)
  | .unpack4 .., here => goesOn_unpack4 (here rfl)
  | .dot4 .., here => goesOn_dot4 (here rfl)
  | .fadd .., here => goesOn_fadd (here rfl)
  | .fsub .., here => goesOn_fsub (here rfl)
  | .fmul .., here => goesOn_fmul (here rfl)
  | .ffma .., here => goesOn_ffma (here rfl)
  | .fmin .., here => goesOn_fmin (here rfl)
  | .fmax .., here => goesOn_fmax (here rfl)
  | .fabs .., here => goesOn_fabs (here rfl)
  | .fneg .., here => goesOn_fneg (here rfl)
  | .fcmp .., here => goesOn_fcmp (here rfl)
  | .fcls .., here => goesOn_fcls (here rfl)
  | .rcp .., here => goesOn_rcp (here rfl)
  | .rsq .., here => goesOn_rsq (here rfl)
  | .sqrt .., here => goesOn_sqrt (here rfl)
  | .exp2 .., here => goesOn_exp2 (here rfl)
  | .log2 .., here => goesOn_log2 (here rfl)
  | .sin .., here => goesOn_sin (here rfl)
  | .cos .., here => goesOn_cos (here rfl)
  | .tanh .., here => goesOn_tanh (here rfl)
  | .rng .., here => goesOn_rng (here rfl)
  | .shflIdx .., here => goesOn_shflIdx (here rfl)
  | .shflUp .., here => goesOn_shflUp (here rfl)
  | .shflDown .., here => goesOn_shflDown (here rfl)
  | .shflXor .., here => goesOn_shflXor (here rfl)
  | .vote .., here => goesOn_vote (here rfl)
  | .voteBallot .., here => goesOn_voteBallot (here rfl)
  | .red .., here => goesOn_red (here rfl)
  | .scan .., here => goesOn_scan (here rfl)
  | .bcast .., here => goesOn_bcast (here rfl)
  | .bcastNib .., here => goesOn_bcastNib (here rfl)
  | .br .., here => goesOn_br (here rfl)
  | .bk .., here => goesOn_bk (here rfl)
  | .bs .., here => goesOn_bs (here rfl)
  | .call .., here => goesOn_call (here rfl)
  | .ret .., here => goesOn_ret (here rfl)
  | .jmpr .., here => goesOn_jmpr (here rfl)
  | .exit .., here => goesOn_exit (here rfl)
  | .enrol .., here => goesOn_enrol (here rfl)
  | .park .., here => goesOn_park (here rfl)
  | .strike .., here => goesOn_strike (here rfl)
  | .yld .., here => goesOn_yld (here rfl)
  | .nop .., here => goesOn_nop (here rfl)
  | .wait .., here => goesOn_wait (here rfl)
  | .ld .., here => goesOn_ld (here rfl)
  | .ldToQueue .., here => goesOn_ldToQueue (here rfl)
  | .st .., here => goesOn_st (here rfl)
  | .lds .., here => goesOn_lds (here rfl)
  | .sts .., here => goesOn_sts (here rfl)
  | .cp .., here => goesOn_cp (here rfl)
  | .pref .., here => goesOn_pref (here rfl)
  | .cln .., here => goesOn_cln (here rfl)
  | .atom .., here => goesOn_atom (here rfl)
  | .acas .., here => goesOn_acas (here rfl)
  | .ared .., here => goesOn_ared (here rfl)
  | .waitv .., here => goesOn_waitv (here rfl)
  | .notify1 .., here => goesOn_notify1 (here rfl)
  | .notifyall .., here => goesOn_notifyall (here rfl)
  | .fence .., here => goesOn_fence (here rfl)
  | .fmtres .., here => goesOn_fmtres (here rfl)
  | .fmtrel .., here => goesOn_fmtrel (here rfl)
  | .mld .., here => goesOn_mld (here rfl)
  | .mldT .., here => goesOn_mldT (here rfl)
  | .mso .., here => goesOn_mso (here rfl)
  | .mrd .., here => goesOn_mrd (here rfl)
  | .mclr .., here => goesOn_mclr (here rfl)
  | .mmac .., here => goesOn_mmac (here rfl)
  | .mmacI .., here => goesOn_mmacI (here rfl)
  | .mqnt .., here => goesOn_mqnt (here rfl)
  | .spick .., here => goesOn_spick (here rfl)
  | .mstat .., here => goesOn_mstat (here rfl)
  | .qset .., here => goesOn_qset (here rfl)
  | .qpeek .., here => goesOn_qpeek (here rfl)
  | .qdrain .., here => goesOn_qdrain (here rfl)
  | .qcount .., here => goesOn_qcount (here rfl)
  | .qtokTest .., here => goesOn_qtokTest (here rfl)
  | .qtokTake .., here => goesOn_qtokTake (here rfl)
  | .spawn .., here => goesOn_spawn (here rfl)
  | .tokput .., here => goesOn_tokput (here rfl)
  | .dset .., here => goesOn_dset (here rfl)
  | .dget .., here => goesOn_dget (here rfl)
  | .refill .., here => goesOn_refill (here rfl)
  | .itemfin .., here => goesOn_itemfin (here rfl)
  | .ddrain .., here => goesOn_ddrain (here rfl)
  | .dspill .., here => goesOn_dspill (here rfl)
  | .rcq .., here => goesOn_rcq (here rfl)
  | .rcrd .., here => goesOn_rcrd (here rfl)
  | .famset .., here => goesOn_famset (here rfl)
  | .capo .., here => goesOn_capo (here rfl)
  | .capx .., here => goesOn_capx (here rfl)
  | .bar .., here => goesOn_bar (here rfl)
  | .barr .., here => goesOn_barr (here rfl)
  | .barw .., here => goesOn_barw (here rfl)
  | .trapSoft .., here => goesOn_trapSoft (here rfl)
  | .trapLink .., here => goesOn_trapLink (here rfl)
  | .trapGst .., here => goesOn_trapGst (here rfl)
  | .tret .., here => goesOn_tret (here rfl)
  | .tdel .., here => goesOn_tdel (here rfl)
  | .sysrd .., here => goesOn_sysrd (here rfl)
  | .syswr .., here => goesOn_syswr (here rfl)
  | .brk .., here => goesOn_brk (here rfl)
  | .pmrd .., here => goesOn_pmrd (here rfl)
  | .pmset .., here => goesOn_pmset (here rfl)
  | .tick .., here => goesOn_tick (here rfl)
  | .enrd .., here => goesOn_enrd (here rfl)
  | .clauseBegin .., _ => goesOn_clauseBegin
  | .longFormComplete .., _ => goesOn_longFormComplete
  | .queueLoadFill .., _ => goesOn_queueLoadFill
  | .copyLineLands .., _ => goesOn_copyLineLands
  | .matrixOpComplete .., _ => goesOn_matrixOpComplete
  | .homeSliceAct .., _ => goesOn_homeSliceAct
  | .writeBufferDrain .., _ => goesOn_writeBufferDrain
  | .promotion .., _ => goesOn_promotion
  | .pageWalk .., _ => goesOn_pageWalk
  | .strokeCommit .., _ => goesOn_strokeCommit
  | .absentLineWake .., _ => goesOn_absentLineWake
  | .allotmentFill .., _ => goesOn_allotmentFill
  | .accessContextEnd .., _ => goesOn_accessContextEnd
  | .trapEntry .., _ => goesOn_trapEntry
  | .permitBackoffExpiry .., _ => goesOn_permitBackoffExpiry
  | .directDelegation .., _ => goesOn_directDelegation
  | .doubleTrap .., _ => goesOn_doubleTrap
  | .retry .., _ => goesOn_retry
  | .skip .., _ => goesOn_skip
  | .endRes .., _ => goesOn_endRes
  | .queryStop .., _ => goesOn_queryStop
  | .queryStep .., _ => goesOn_queryStep
  | .queryResume .., _ => goesOn_queryResume
  | .queryKill .., _ => goesOn_queryKill
  | .queryRead .., _ => goesOn_queryRead
  | .queryWrite .., _ => goesOn_queryWrite
  | .deferredStepClause .., _ => goesOn_deferredStepClause
  | .launchRecordTake .., _ => goesOn_launchRecordTake
  | .rootDuneEnqueue .., _ => goesOn_rootDuneEnqueue
  | .rootDuneFiring .., _ => goesOn_rootDuneFiring
  | .duneFiring .., _ => goesOn_duneFiring
  | .driftExpiry .., _ => goesOn_driftExpiry
  | .starving .., _ => goesOn_starving
  | .finalDrain .., _ => goesOn_finalDrain
  | .ringItemMove .., _ => goesOn_ringItemMove
  | .launchCompletion .., _ => goesOn_launchCompletion
  | .launchEndEarly .., _ => goesOn_launchEndEarly
  | .evictRequest .., _ => goesOn_evictRequest
  | .evictionDelay .., _ => goesOn_evictionDelay
  | .absentLineLimit .., _ => goesOn_absentLineLimit
  | .gangRestore .., _ => goesOn_gangRestore
  | .queueDeadlockLimit .., _ => goesOn_queueDeadlockLimit
  | .gangAgeing .., _ => goesOn_gangAgeing
  | .spinDemotion .., _ => goesOn_spinDemotion
  | .referenceTick .., _ => goesOn_referenceTick
  | .clusterEnergyAdvance .., _ => goesOn_clusterEnergyAdvance
  | .deviceEnergyAdvance, _ => goesOn_deviceEnergyAdvance
  | .currentReservationGrant .., _ => goesOn_currentReservationGrant
  | .peerTimeout .., _ => goesOn_peerTimeout
  | .peerAccess .., _ => goesOn_peerAccess
  | .hostAccess .., _ => goesOn_hostAccess
  | .tail .., _ => goesOn_tail
  | .rstat .., _ => goesOn_rstat
  | .ringConfigure .., _ => goesOn_ringConfigure
  | .ringDisable .., _ => goesOn_ringDisable
  | .deviceSettingWrite .., _ => goesOn_deviceSettingWrite
  | .registerWrite .., _ => goesOn_registerWrite
  | .attestation, _ => goesOn_attestation
  | .recoveryProgramming, _ => goesOn_recoveryProgramming
  | .attestationDone .., _ => goesOn_attestationDone
  | .mlogExtend .., _ => goesOn_mlogExtend
  | .fuseBlow .., _ => goesOn_fuseBlow
  | .deviceReset, _ => goesOn_deviceReset
  | .tlbInvalidation .., _ => goesOn_tlbInvalidation
  | .icacheInvalidation .., _ => goesOn_icacheInvalidation
  | .pendingEventPost, _ => goesOn_pendingEventPost
  | .uncorrectableError .., _ => goesOn_uncorrectableError
  | .contextStoreError .., _ => goesOn_contextStoreError
  | .hostWriteAcknowledgement .., _ => goesOn_hostWriteAcknowledgement
  | .peerLinkDown .., _ => goesOn_peerLinkDown
  | .peerLinkUp .., _ => goesOn_peerLinkUp
  | .flitCrcRetry n, _ => goesOn_flitCrcRetry (_port := n)
  | .functionLevelReset, _ => goesOn_functionLevelReset
  | .duneRingFaultResolution .., _ => goesOn_duneRingFaultResolution

/-- Where `cur` names a context with a path inside a clause, in a resident gang of a live launch, every instruction has an environment. -/
theorem State.acts_of {s : State} {x : Site} {g : Gang} {c : Ctx} {core : Nat} {l : Launch} {cur : Cursor} (here : s.cur = some x)
    (gang : s.gang? x.gang = some g) (ctx : g.ctx? x.access = some c) (home : g.core = some core) (launch : s.launch? g.launch = some l)
    (stands : c.cur = some cur) (path : c.path ≠ 0#64) : s.Acts := by
  intro i
  simp [env?, here, gang, ctx, home, launch, stands, path]

/-- What the events of a translation and its result in memory leave as it was, a fetch leaves. -/
theorem State.fetchInstr_keeps {β : Type} (φ : State → β) (mem : ∀ s m, φ (s.setMem m) = φ s)
    (event : ∀ s g a k w, φ (pmEvent s g a k w) = φ s)
    (s : State) (x : Site) (core owner : Nat) (va : DWord) : φ (s.fetchInstr x core owner va).2 = φ s := by
  suffices h : ∀ n ws, φ (s.fetchMore x core owner va n ws).2 = φ s from h 5 []
  intro n ws
  fun_induction State.fetchMore s x core owner va n ws with
  | case1 => rfl
  | case2 s n ws more f t fetched => exact fetchWord_keeps φ mem event fetched
  | case3 s n ws more w t fetched ih => exact ih.trans (fetchWord_keeps φ mem event fetched)
  | case4 => rfl

/-- What comes of an issue keeps the form of memory; an instruction that it executes finds its context. -/
def Issue.Keeps (s : State) : Issue → Prop
  | .state t => Memory.wf s.mem.bytes = true → Memory.wf t.mem.bytes = true
  | .exec _ t => (Memory.wf s.mem.bytes = true → Memory.wf t.mem.bytes = true) ∧ t.Acts

theorem Issue.Keeps.ite {s : State} {c : Prop} [Decidable c] {a b : Issue} (ha : a.Keeps s) (hb : b.Keeps s) : (if c then a else b).Keeps s := by
  split
  · exact ha
  · exact hb

theorem State.pmEvent_launches (s : State) (g : Nat) (a : Bool) (code w : Nat) : (s.pmEvent g a code w).launches = s.launches := by
  unfold pmEvent
  split <;> rfl

theorem State.issue_keeps (s : State) (x : Site) : (s.issue x).Keeps s := by
  have path : Memory.wf s.mem.bytes = true → Memory.wf (s.selectPath x).mem.bytes = true := fun h => by rwa [selectPath_mem]
  unfold issue
  dsimp only
  split
  · exact path
  · next g gang =>
    split
    · next c core l ctx home launch =>
      split
      · exact path
      · next able =>
        split
        · exact fun h => wf_beginClause x (path h)
        · next cur stands =>
          have kept := fun h => wf_fetchInstr x core l.owner cur.ip (path h)
          have gangs := fetchInstr_keeps State.gangs (fun _ _ => rfl) pmEvent_gangs (s.selectPath x) x core l.owner cur.ip
          have launches := fetchInstr_keeps State.launches (fun _ _ => rfl) pmEvent_launches (s.selectPath x) x core l.owner cur.ip
          split
          · next t fetched =>
            rw [fetched] at kept
            exact fun h => wf_raise x _ (kept h)
          · next ws r t fetched =>
            rw [fetched] at kept gangs launches
            have raised : ∀ r, Issue.Keeps s (.state (t.raise x r)) := fun r h => wf_raise x r (kept h)
            have raisedHere : ∀ r, Issue.Keeps s (.state ((t.setCur (some x)).raise x r)) := fun r h => wf_raise x r (kept h)
            have staysHere : Issue.Keeps s (.state (t.setCur (some x))) := kept
            have acts : (t.setCur (some x)).Acts := acts_of (x := x) rfl (by rw [gang?, setCur_gangs, gangs]; exact gang) ctx home
              (by rw [launch?, setCur_launches, launches]; exact launch) stands (by simp [Ctx.pathAble] at able; exact able.2.1)
            have executes : ∀ i, Issue.Keeps s (.exec i (t.setCur (some x))) := fun i => ⟨kept, acts⟩
            split
            · exact kept
            · split
              · exact kept
              · exact raised _
            · split
              · split
                · exact kept
                · next e _ =>
                  refine .ite (raised _) (.ite (raised _) (.ite (fun h => ?_) (raised _)))
                  rw [selectPath_mem]
                  exact e.wf_advance (e.wf_issued (kept h))
              · split
                · exact kept
                · exact raised _
              · refine .ite (executes _) ?_
                split
                · exact kept
                · split
                  · exact executes _
                  · exact .ite (raisedHere _) (.ite staysHere (raisedHere _))
    · exact path

/-- A happening goes on. -/
theorem perform_goesOn (h : Happening) (s : State) : GoesOn s (perform h s) := by
  unfold perform
  split
  · next g a =>
    have kept := s.issue_keeps ⟨g, a⟩
    split
    · next t issued =>
      rw [issued] at kept
      exact .next kept
    · next i t issued =>
      rw [issued] at kept
      obtain ⟨u, hu, keeps⟩ := exec_goesOn i fun _ => kept.2
      exact ⟨u, hu, fun h => keeps (kept.1 h)⟩
  · next i =>
    split
    · next event => exact exec_goesOn i fun ordinary => absurd event (by simp [ordinary])
    · exact .stay s

/-- A step goes on, whether the agenda or the scheduler names it. -/
theorem step_goesOn (s : State) : GoesOn s (step s) := by
  unfold step
  split
  · next h rest _ => exact perform_goesOn h (s.setAgenda rest)
  · exact perform_goesOn _ (s.setTurn (s.turn + 1))

/-- Settles O53: an instruction is stepped in its context alone, and every other outcome is a next state. -/
theorem stepsAlwaysGoOn : Obligations.StepsAlwaysGoOn := by
  intro s
  obtain ⟨t, ht, -⟩ := step_goesOn s
  exact ⟨t, ht⟩

/-- Settles O54: every operation of every step writes memory through updates that keep its form. -/
theorem memoryKeepsItsForm : Obligations.MemoryKeepsItsForm := by
  intro s t form stepped
  obtain ⟨u, hu, keeps⟩ := step_goesOn s
  cases hu.symm.trans stepped
  exact keeps form

end Sys2Proof.Machine
end

section
/-! PROOF. Trap control that is refused (16:R382): where reason 29 stands among an instruction's reasons, and that it is raised. -/

namespace Sys2Proof.Machine

theorem mem_guarded {b : Bool} {x y : Reason} : y ∈ (if b then [x] else []) ↔ b = true ∧ y = x := by
  cases b <;> simp

/-- Reason 29 of an instruction that is no jump and names no queue is the last of its reasons. -/
theorem Env.trapReturn_mem_dynamic (e : Env) : Reason.trapReturn ∈ e.dynamic ↔
    (match e.i with
     | .tret .. | .tdel .. => !e.last || decide (e.c.tcg = 0#32)
     | .brk .. => !e.last
     | _ => false) = true := by
  unfold Env.dynamic
  simp only [List.mem_append, mem_guarded, reduceCtorEq, and_false, false_or, and_true]
    <;> exact Iff.rfl

/-- An instruction whose lowest reason is 29 raises it. -/
theorem exec_trapReturn {i : Instr} {s : State} {e : Env} (instr : i.isEvent = false) (env : env? i s = some e)
    (lowest : Reason.lowest (i.static e.stroke ++ e.dynamic) = some .trapReturn) (live : e.undead s = true)
    (rounds : (i.pfx.md.any fun m => decide (6 ≤ m.rnd.toNat)) = false) :
    exec i s = .next (s.raise e.x (e.insn .trapReturn)) ∧ (e.insn .trapReturn).reason = 29 := by
  obtain ⟨body, runs⟩ := exec_eq_run instr
  obtain rfl : e.i = i := (env?_spec env).instr
  exact ⟨(runs s).trans (run_of_raise env (Env.gate_lowest rounds lowest (.inr live)) body), rfl⟩

/-- Settles O58: reason 29 stands by the clause position and, for `tret` and `tdel`, by `tcg`; the gate raises the lowest reason. -/
theorem trapControlIsChecked : Obligations.TrapControlIsChecked := by
  unfold Obligations.TrapControlIsChecked
  refine ⟨fun p l s e env => ⟨?_, exec_trapReturn rfl env⟩, fun p l a s e env => ⟨?_, exec_trapReturn rfl env⟩,
    fun p l k s e env => ⟨?_, exec_trapReturn rfl env⟩⟩
  all_goals rw [e.trapReturn_mem_dynamic, (env?_spec env).instr]
  · simp [or_comm]
  · simp [or_comm]
  · simp

end Sys2Proof.Machine
end

section
/-! PROOF. Family words (14:R324, 03:R73): how they are made of an identity, and who writes them. -/

namespace Sys2Proof.Machine

/-! ### The bits of a family word -/

theorem derive_getLsbD (x : DWord) (i : Nat) : (derive x).getLsbD i = if i < 31 then x.getLsbD (11 + i) else decide (i = 31) := by
  have top : ∀ j < 32, (0x80000000#32).getLsbD j = decide (j = 31) := by decide
  by_cases inside : i < 32
  · simp only [derive, BitVec.getLsbD_or, top i inside, BitVec.getLsbD_shiftLeft, BitVec.getLsbD_setWidth, BitVec.getLsbD_extractLsb']
    by_cases low : i < 11
    · have : i < 31 ∧ i ≠ 31 := by omega
      simp [low, this, inside]
    · by_cases high : i = 31
      · subst high; simp
      · have at_ : i < 31 ∧ i - 11 < 20 ∧ i - 11 < 32 ∧ 22 + (i - 11) = 11 + i := by omega
        simp [low, high, at_, inside]
  · rw [BitVec.getLsbD_of_ge _ i (by omega)]
    have : ¬ i < 31 ∧ i ≠ 31 := by omega
    simp [this]

theorem derive_ne_zero (x : DWord) : derive x ≠ 0#32 := fun zero => by
  have := derive_getLsbD x 31
  simp [zero] at this

/-- Family words are equal where the identities agree in the bits that they take. -/
theorem derive_eq_iff (x y : DWord) : derive x = derive y ↔ ∀ i < 31, x.getLsbD (11 + i) = y.getLsbD (11 + i) := by
  refine ⟨fun same i low => ?_, fun same => BitVec.eq_of_getLsbD_eq fun i _ => ?_⟩
  · have := congrArg (BitVec.getLsbD · i) same
    simpa only [derive_getLsbD, if_pos low] using this
  · rw [derive_getLsbD, derive_getLsbD]
    split
    · next low => exact same i low
    · rfl

/-- Those bits as a number. -/
theorem derive_eq_iff_toNat (x y : DWord) : derive x = derive y ↔ x.toNat / 2 ^ 11 % 2 ^ 31 = y.toNat / 2 ^ 11 % 2 ^ 31 := by
  rw [derive_eq_iff]
  refine ⟨fun same => Nat.eq_of_testBit_eq fun i => ?_, fun same i low => ?_⟩
  · simp only [Nat.testBit_mod_two_pow, Nat.testBit_div_two_pow]
    by_cases low : i < 31
    · simpa [BitVec.getLsbD, low, Nat.add_comm] using same i low
    · simp [low]
  · have := congrArg (Nat.testBit · i) same
    simpa only [BitVec.getLsbD, low, Nat.testBit_mod_two_pow, Nat.testBit_div_two_pow, decide_true, Bool.true_and, Nat.add_comm] using this

/-- The bits of an identity that a family word takes. -/
theorem identity_div (l : Nat) {t g n k : Nat} (ht : t < 2 ^ 26) (hg : g < 2) (hn : n < 16) (hk : k < 64) :
    (identity l t g n k false).toNat / 2 ^ 11 % 2 ^ 31 = (t % 2 ^ 20) * 2 ^ 11 + g * 2 ^ 10 + n * 2 ^ 6 + k := by
  have value : (identity l t g n k false).toNat = ((((((l % 2 ^ 16) * 2 ^ 26 + t) * 2 + g) * 16 + n) * 64 + k) * 2 + 0) * 2 ^ 10 + 0 := by
    simp only [identity, BitVec.toNat_append, BitVec.toNat_ofNat, BitVec.toNat_ofBool, Bool.toNat_false]
    rw [← Nat.shiftLeft_add_eq_or_of_lt (by decide), ← Nat.shiftLeft_add_eq_or_of_lt (by decide),
      ← Nat.shiftLeft_add_eq_or_of_lt (by omega), ← Nat.shiftLeft_add_eq_or_of_lt (by omega), ← Nat.shiftLeft_add_eq_or_of_lt (by omega),
      ← Nat.shiftLeft_add_eq_or_of_lt (by omega)]
    simp only [Nat.shiftLeft_eq]
    omega
  rw [value]
  omega

/-- Family words of one launch name the thread, up to the upper bits of its team. -/
theorem derive_identity_eq_iff (l : Nat) {t t' g g' n n' k k' : Nat} (ht : t < 2 ^ 26) (ht' : t' < 2 ^ 26) (hg : g < 2) (hg' : g' < 2)
    (hn : n < 16) (hn' : n' < 16) (hk : k < 64) (hk' : k' < 64) :
    derive (identity l t g n k false) = derive (identity l t' g' n' k' false) ↔ t % 2 ^ 20 = t' % 2 ^ 20 ∧ g = g' ∧ n = n' ∧ k = k' := by
  rw [derive_eq_iff_toNat, identity_div l ht hg hn hk, identity_div l ht' hg' hn' hk']
  omega

/-! ### `famset` -/

/-- A change of threads of the gang does not see that the path wakes. -/
theorem Env.awake_updThread (e : Env) (s : State) (k : Nat) (f : Thread → Thread) :
    (e.awake s).updThread e.x.gang k f = e.awake (s.updThread e.x.gang k f) := (s.updCtx_updThread e.x _ k f).symm

theorem Env.awake_updThreads (e : Env) (s : State) (ks : List Nat) (f : Nat → Thread → Thread) :
    ks.foldl (fun s k => s.updThread e.x.gang k (f k)) (e.awake s) = e.awake (ks.foldl (fun s k => s.updThread e.x.gang k (f k)) s) :=
  List.foldl_hom e.awake fun s k => e.awake_updThread s k (f k)

theorem exec_famset (p : Pfx) (l : Lf) (d : Opnd) (s : State) : exec (.famset p l d) s = run (.famset p l d) s fun e s =>
    if (s.opsOf e.x).vals.any fun o => (match o.i with | .spawn .. | .tokput .. => true | _ => false) then .hold s
    else e.longWrite (e.lanes.foldl (fun t k => t.updThread e.x.gang k fun h => { h with fam := derive (s.idnSeen e.x k) }) s)
      fun k => [derive (s.idnSeen e.x k)] := rfl

theorem deliversTo_famset (p : Pfx) (l : Lf) (d : Opnd) : DeliversTo (.famset p l d)
    (fun s e => ∀ o ∈ (s.opsOf e.x).vals, (match o.i with | .spawn .. | .tokput .. => true | _ => false) = false)
    (fun e s => e.lanes.foldl (fun t k => t.updThread e.x.gang k fun h => { h with fam := derive (s.idnSeen e.x k) }) s)
    fun s e => e.longResult d 1 fun k => [derive (s.idnSeen e.x k)] := by
  refine deliversTo_at (exec_famset p l d) (fun s e ready spec apart => ?_)
    (fun _ e ready _ => (Env.Base.of_ready ready).foldl e.lanes _ fun _ k base => base.updThread e.x.gang k _)
    (fun _ _ => .inl rfl) fun _ _ _ => Option.some_ne_none l
  have last : e.uses.getLast? = some (.dst d 1 .vOnly) := by rw [Env.uses, spec.instr]; rfl
  have free : ¬ ((e.awake s).opsOf e.x).vals.any (fun o => match o.i with | .spawn .. | .tokput .. => true | _ => false) = true := by
    rw [List.any_eq_true]
    rintro ⟨o, on, spawns⟩
    exact Bool.false_ne_true ((apart o on).symm.trans spawns)
  rw [if_neg free, Env.longWrite_eq last]
  simp only [State.idnSeen_awake]
  rw [e.awake_updThreads s e.lanes fun k h => { h with fam := derive (s.idnSeen e.x k) }]
  rfl

/-! ### `syswr` of a register that it does not write, and the writes of a query -/

/-- Lanes that are active have a lowest, also beside lanes that completed the instruction before. -/
theorem Env.nib_of_active {i : Instr} {s : State} {e : Env} (spec : EnvSpec i s e) (active : e.act ≠ 0#64) : ∃ n, e.nib = some n := by
  unfold Env.nib lowest
  cases lanes : lanesOf e.full with
  | cons n _ => exact ⟨n, rfl⟩
  | nil =>
    refine absurd (BitVec.eq_of_getLsbD_eq fun n _ => ?_) active
    have out : e.full.getLsbD n = false := by
      rw [← Bool.not_eq_true, ← mem_lanesOf, lanes]
      exact List.not_mem_nil
    simp [spec.act, out]

/-- What `syswr` writes beside its flight. -/
def Env.sysWritten (e : Env) (n : BitVec 8) (nib : Nat) (s : State) : State :=
  if n = 0x00#8 then s.updCtx e.x fun c => { c with gst := c.gst &&& ~~~e.word 0 nib }
  else if n = 0x0C#8 then e.lanes.foldl (fun s k => s.updThread e.x.gang k fun t => { t with rngc := e.pair 0 k }) s
  else if 0x10 ≤ n.toNat ∧ n.toNat < 0x18 then e.writeMask s (n.toNat - 0x10) (e.pair 0 nib)
  else s

theorem exec_syswr (p : Pfx) (l : Lf) (n : BitVec 8) (a : Hs) (s : State) : exec (.syswr p l n a) s = run (.syswr p l n a) s fun e s =>
    match e.nib with
    | none => .done s
    | some nib => .done (e.launchOp (e.sysWritten n nib (e.settle s e.act true)) e.act) := rfl

/-- A `syswr` whose write may as well be made before its sources are consumed. -/
theorem deliversTo_syswr {p : Pfx} {l : Lf} {n : BitVec 8} {a : Hs} {ok : State → Env → Prop} {f : Env → State → State}
    (nib : ∀ s e, EnvSpec (.syswr p l n a) s e → ok s e → ∃ k, e.nib = some k ∧
      e.sysWritten n k (e.settle (e.awake s) e.act true) = e.settle (e.awake (f e s)) e.act true)
    (base : ∀ s e, ok s e → e.Base s → e.Base (f e s)) : DeliversTo (.syswr p l n a) ok f fun _ _ => { long := true } := by
  refine deliversTo_at (exec_syswr p l n a) (fun s e _ spec holds => ?_) (fun s e ready holds => base s e holds (.of_ready ready))
    (fun _ _ => .inr rfl) fun _ _ _ => Option.some_ne_none l
  obtain ⟨k, here, written⟩ := nib s e spec holds
  rw [here]
  show Res.done _ = _
  rw [written, Env.launchOp_eq, Env.deliver]
  simp only [Env.flags_zero, if_true]
  rfl

theorem deliversTo_syswr_other {p : Pfx} {l : Lf} {n : BitVec 8} {a : Hs} (gst : n ≠ 0x00#8) (rngc : n ≠ 0x0C#8)
    (pred : ¬ (0x10 ≤ n.toNat ∧ n.toNat < 0x18)) :
    DeliversTo (.syswr p l n a) (fun _ e => e.act ≠ 0#64) (fun _ s => s) fun _ _ => { long := true } := by
  refine deliversTo_syswr (fun s e spec active => ?_) fun _ _ _ base => base
  obtain ⟨k, nib⟩ := Env.nib_of_active spec active
  exact ⟨k, nib, by rw [Env.sysWritten, if_neg gst, if_neg rngc, if_neg pred]⟩

theorem State.fam_writeLane (s : State) (x : Site) (lane sel : Nat) (v : Word) (g k : Nat) :
    ((s.writeLane x lane sel v).thread? g k).map (·.fam) = (s.thread? g k).map (·.fam) := by
  have context (F : Ctx → Ctx) : ((s.updCtx x F).thread? g k).map (·.fam) = (s.thread? g k).map (·.fam) := by
    rw [State.thread?_of_gang?, State.thread?_of_gang?, State.updCtx, State.gang?_updGang']
    split
    · cases s.gang? g <;> cases x.access <;> rfl
    · rfl
  unfold State.writeLane
  cases s.ctx? x with
  | none => rfl
  | some c =>
    dsimp only
    split
    · rfl
    split
    · exact context _
    split
    · exact context _
    split
    · rw [State.thread?_of_gang?, State.thread?_of_gang?, State.updThread_eq, State.gang?_updGang']
      split
      · cases s.gang? g with
        | none => rfl
        | some y =>
          simp only [Option.map_some, Option.bind_some, Gang.updThread, Assoc.get?_upd]
          split
          · next same => rw [same, Option.map_map]; rfl
          · rfl
      · rfl
    · exact context _

/-- Settles O60: the bits of a family word are those of the identity above the access bit; `famset` alone writes it. -/
theorem familyWords : Obligations.FamilyWords := by
  unfold Obligations.FamilyWords
  refine ⟨derive_getLsbD, derive_ne_zero, fun l t t' g g' n n' k k' => derive_identity_eq_iff l, deliversTo_famset, fun p l a => ?_,
    fun s x lane sel v g t fam => (s.fam_writeLane x lane sel v g lane).trans fam⟩
  exact deliversTo_syswr_other (by decide) (by decide) (by decide)

end Sys2Proof.Machine
end

section
/-! PROOF. System registers (16:R398, 03:R73 to R77): what `syswr` writes may as well be written before its sources are consumed. -/

namespace Sys2Proof.Machine

/-! ### A change of the gang before an instruction consumes its sources -/

theorem Gang.hashWrites_updCtx (a b : Bool) (ws : List Word) (F : Ctx → Ctx) (g : Gang) :
    Env.hashWrites (g.updCtx b F) a ws = (Env.hashWrites g a ws).updCtx b F := by
  unfold Env.hashWrites Gang.updCtx
  cases a with
  | true => rfl
  | false => cases b <;> cases spin : g.spin <;> simp only [spin, if_true, Bool.false_eq_true, if_false]

theorem Gang.popLanes_updCtx (q n : Nat) (ls : List Nat) (a : Bool) (F : Ctx → Ctx) (g : Gang) :
    Env.popLanes (g.updCtx a F) q n ls = (Env.popLanes g q n ls).updCtx a F := by
  cases a <;> rfl

theorem Gang.popLanes_hashWrites (q n : Nat) (ls : List Nat) (a : Bool) (ws : List Word) (g : Gang) :
    Env.popLanes (Env.hashWrites g a ws) q n ls = Env.hashWrites (Env.popLanes g q n ls) a ws := by
  unfold Env.hashWrites Env.popLanes
  cases a with
  | true => rfl
  | false => cases spin : g.spin <;> simp only [spin]

/-- A change of the gang that commutes with what `settle` does to its context and its queues. -/
theorem Env.settle_updGang {e : Env} {m : Mask} {all : Bool} {f : Gang → Gang}
    (ctx : ∀ g : Gang, (f g).updCtx e.x.access (e.settleCtx m all) = f (g.updCtx e.x.access (e.settleCtx m all)))
    (pop : ∀ g q, Env.popLanes (f g) q 1 (lanesOf m) = f (Env.popLanes g q 1 (lanesOf m))) (s : State) :
    e.settle (s.updGang e.x.gang f) m all = (e.settle s m all).updGang e.x.gang f := by
  have pops : ∀ g, e.popList.foldl (fun g q => Env.popLanes g q 1 (lanesOf m)) (f g) =
      f (e.popList.foldl (fun g q => Env.popLanes g q 1 (lanesOf m)) g) := fun g => List.foldl_hom f fun g q => pop g q
  rw [Env.settle_eq, Env.settle_eq]
  split
  · rfl
  dsimp only [State.updCtx]
  rw [State.updGang_updGang, funext ctx, ← State.updGang_updGang]
  split
  · rfl
  · rw [State.updGang_updGang _ _ f, funext pops, ← State.updGang_updGang _ _ _ f]

/-- A change of the context beside its v and s registers commutes with the kill of a last-use hint. -/
theorem killUse_comm {F : Ctx → Ctx} (v : ∀ c x, F { c with v := x } = { F c with v := x }) (s : ∀ c x, F { c with s := x } = { F c with s := x })
    (sameV : ∀ c, (F c).v = c.v) (sameS : ∀ c, (F c).s = c.s) (rep : Bool → Nat → Bool) (ls : List Nat) (all : Bool) (c : Ctx) (u : Use) :
    killUse rep ls all (F c) u = F (killUse rep ls all c u) := by
  unfold killUse
  split
  · rfl
  · cases u.o with
    | v n => exact ((v c _).trans (by rw [sameV])).symm
    | s n =>
      dsimp only
      split
      · exact ((s c _).trans (by rw [sameS])).symm
      · rfl
    | c n => rfl
    | q n => rfl

theorem Env.settleCtx_comm {F : Ctx → Ctx} (v : ∀ c x, F { c with v := x } = { F c with v := x })
    (s : ∀ c x, F { c with s := x } = { F c with s := x }) (sameV : ∀ c, (F c).v = c.v) (sameS : ∀ c, (F c).s = c.s) {e : Env} {m : Mask}
    (dead : (lanesOf m).any e.deadIn = true → ∀ c, F { c with gst := c.gst ||| 0x40#32 } = { F c with gst := (F c).gst ||| 0x40#32 })
    (all : Bool) (c : Ctx) : e.settleCtx m all (F c) = F (e.settleCtx m all c) := by
  unfold Env.settleCtx
  rw [← List.foldl_hom F fun c u => killUse_comm v s sameV sameS e.replayed (lanesOf m) all c u]
  split
  · next any => rw [dead any]
  · rfl

/-- An instruction has its effect on a state that differs from the one before it in what gangs keep for their pipes only. -/
theorem Effect.before {e : Env} {r s t : State} {o : Out} {k : Mask} (effect : Effect e r t o) (m : Moves e.x k s r)
    (ctxs : ∀ y, r.ctx? y = s.ctx? y) : Effect e s t o where
  vregs y n j small := by rw [← m.vreg]; exact effect.vregs y n j small
  sregs y n := by rw [← m.sreg]; exact effect.sregs y n
  preds y n := by rw [← m.pred]; exact effect.preds y n
  status y := by rw [← m.gst]; exact effect.status y
  cregs g n j := by rw [← m.creg]; exact effect.cregs g n j
  queues g q n := by rw [← m.queues]; exact effect.queues g q n
  ops := by rw [← m.ops, ← m.nextId]; exact effect.ops
  sb y n := by rw [← m.sbCount]; exact effect.sb y n
  rest :=
    { mem := effect.rest.mem.trans m.mem, home := effect.rest.home.trans m.home, launches := effect.rest.launches.trans m.launches
      ctl := effect.rest.ctl.trans m.ctl, dev := effect.rest.dev.trans m.dev, turn := effect.rest.turn.trans m.turn
      cur := effect.rest.cur.trans m.cur, draws := effect.rest.draws.trans m.draws, recs := effect.rest.recs.trans m.recs
      permits := effect.rest.permits.trans m.permits, heldLines := effect.rest.heldLines.trans m.heldLines
      reads := effect.rest.reads.trans m.reads, gangs := fun k => (effect.rest.gangs k).trans (m.gangs k)
      groups := fun k => (effect.rest.groups k).trans (m.groups k)
      threads := fun k n => (effect.rest.threads k n).trans (congrArg _ (m.threads k n))
      lanes := fun y n => (effect.rest.lanes y n).trans (m.lanes y n)
      outside := fun y n away => (effect.rest.outside y n (by rwa [ctxs])).trans (by rw [State.lane?, State.lane?, ctxs]) }

theorem DeliversTo.before {i : Instr} {ok : State → Env → Prop} {f h : Env → State → State} {o : State → Env → Out} (delivers : DeliversTo i ok h o)
    (moves : ∀ s e, Moves e.x 0#64 (f e s) (h e s) ∧ (∀ y, (h e s).ctx? y = (f e s).ctx? y)) : DeliversTo i ok f o := by
  intro s e ready holds
  obtain ⟨t, runs, effect⟩ := delivers s e ready holds
  exact ⟨t, runs, effect.before (moves s e).1 (moves s e).2⟩

/-! ### `sysrd` -/

/-- A system register reads as it does once the path has woken. -/
theorem Env.sysReg_awake (e : Env) (s : State) (n lane : Nat) : e.sysReg (e.awake s) n lane = e.sysReg s n lane := by
  unfold Env.sysReg
  rw [Env.awake, State.idn_updCtx]

theorem delivers_sysrd (p : Pfx) (l : Lf) (n : BitVec 8) (d : Opnd) :
    Delivers (.sysrd p l n d) fun s e => e.longResult d (sysWords n d) fun k => dwords (e.sysReg s n.toNat k) :=
  delivers_long (.dst d (sysWords n d) .plain) rfl rfl rfl (Option.some_ne_none l) (fun _ => rfl)
    fun s e => funext fun k => congrArg dwords (e.sysReg_awake s n.toNat k)

/-! ### `syswr` -/

/-- Flags of `gst` written as 1 are clear. -/
def Ctx.clearGst (w : Word) (c : Ctx) : Ctx := { c with gst := c.gst &&& ~~~w }

/-- A change of the context that is no change of the places of its lanes, made before the path wakes or after. -/
theorem Env.awake_updCtx {e : Env} {F : Ctx → Ctx} (wake : ∀ c m, F (c.wake m) = (F c).wake m) (path : ∀ c, (F c).path = c.path) (s : State) :
    (e.awake s).updCtx e.x F = e.awake (s.updCtx e.x F) := by
  unfold Env.awake State.updCtx
  rw [State.updGang_updGang, State.updGang_updGang]
  congr 1
  funext g
  unfold Gang.updCtx
  cases e.x.access
  · simp [wake, path]
  · simp [wake, path, Function.comp_def]

/-- A change of the context beside places and registers, made before the sources are consumed or after. -/
theorem Env.settle_awake_updCtx {e : Env} {F : Ctx → Ctx} (wake : ∀ c m, F (c.wake m) = (F c).wake m) (path : ∀ c, (F c).path = c.path)
    {m : Mask} {all : Bool} (settles : ∀ c, e.settleCtx m all (F c) = F (e.settleCtx m all c)) (s : State) :
    (e.settle (e.awake s) m all).updCtx e.x F = e.settle (e.awake (s.updCtx e.x F)) m all := by
  rw [← Env.awake_updCtx wake path]
  refine (Env.settle_updGang (fun g => ?_) (fun g q => ?_) _).symm
  · unfold Gang.updCtx
    cases e.x.access
    · simp [settles]
    · simp [settles, Function.comp_def]
  · exact Gang.popLanes_updCtx q 1 _ _ _ g

theorem deliversTo_syswr_gst (p : Pfx) (l : Lf) (a : Hs) (k : Nat) :
    DeliversTo (.syswr p l 0x00#8 a) (fun _ e => e.nib = some k ∧ e.pz = 0#32)
      (fun e s => s.updCtx e.x fun c => { c with gst := c.gst &&& ~~~e.word 0 k }) fun _ _ => { long := true } := by
  refine deliversTo_syswr (fun s e _ ⟨nib, undead⟩ => ⟨k, nib, ?_⟩) fun s e _ base => base.updCtx e.x _ (fun _ => rfl) fun _ _ calm => calm
  have alive : ¬ (lanesOf e.act).any e.deadIn = true := fun dead => absurd undead (by rw [Env.pz, Env.lanes, if_pos dead]; decide)
  exact Env.settle_awake_updCtx (F := Ctx.clearGst (e.word 0 k)) (fun _ _ => rfl) (fun _ => rfl)
    (Env.settleCtx_comm (F := Ctx.clearGst _) (fun _ _ => rfl) (fun _ _ => rfl) (fun _ => rfl) (fun _ => rfl) (fun dead => absurd dead alive) true) s

theorem deliversTo_syswr_rngc (p : Pfx) (l : Lf) (a : Hs) :
    DeliversTo (.syswr p l 0x0C#8 a) (fun _ e => e.act ≠ 0#64)
      (fun e s => e.lanes.foldl (fun s k => s.updThread e.x.gang k fun t => { t with rngc := e.pair 0 k }) s) fun _ _ => { long := true } := by
  refine deliversTo_syswr (fun s e spec active => ?_) fun s e _ base => base.foldl e.lanes _ fun _ k base => base.updThread e.x.gang k _
  obtain ⟨k, nib⟩ := Env.nib_of_active spec active
  refine ⟨k, nib, ?_⟩
  rw [← e.awake_updThreads s e.lanes fun k t => { t with rngc := e.pair 0 k }]
  exact List.foldl_hom (fun t => e.settle t e.act true) fun t n => (State.settle_updThread e t e.act true n _).symm

/-- The context whose predicate `syswr` sets; its frame keeps its path. -/
theorem Ctx.putK_wake (n : Nat) (w : DWord) (c : Ctx) (m : Mask) : (c.wake m).putK n w = (c.putK n w).wake m := by
  have ready : (c.putK n w).readyOf = c.readyOf := by
    funext lane
    unfold Ctx.readyOf Ctx.putK
    cases frame : c.frame <;> by_cases outside : c.tcg = 0#32 <;> simp [outside, Frame.putK]
  simp only [Ctx.wake, ready]
  rfl

/-- The predicate numbers of system registers. -/
theorem predReg_range (n : BitVec 3) : (0x10#8 + n.setWidth 8).toNat = 0x10 + n.toNat := by
  have := n.isLt
  simp only [BitVec.toNat_add, BitVec.toNat_ofNat, BitVec.toNat_setWidth]
  omega

/-- A gang with the words of a written mask in its spin hash. -/
def Env.hashMask (e : Env) (w : DWord) (s : State) : State := s.updGang e.x.gang fun g => Env.hashWrites g e.x.access (dwords w)

theorem Env.writeMask_eq (e : Env) (s : State) (n : Nat) (w : DWord) :
    e.writeMask s n w = (e.hashMask (w &&& widthMask e.width) s).updCtx e.x fun c => c.putK n (w &&& widthMask e.width) := by
  unfold Env.writeMask Env.hashMask State.updCtx
  rw [State.updGang_updGang]
  rfl

theorem Env.hashMask_moves (e : Env) (w : DWord) (s : State) :
    Moves e.x 0#64 s (e.hashMask w s) ∧ ∀ y, (e.hashMask w s).ctx? y = s.ctx? y := by
  have same {β : Type} (φ : Gang → β) (keeps : ∀ (g : Gang) p, φ { g with spin := p } = φ g) (g : Gang) :
      φ (Env.hashWrites g e.x.access (dwords w)) = φ g := by
    unfold Env.hashWrites
    split
    · rfl
    · rfl
    · exact keeps g _
  exact Moves.updGang s e.x 0#64 e.x.gang _ (fun g a => same (·.ctx? a) (fun _ _ => rfl) g) (same Gang.still fun _ _ => rfl)
    (same Gang.threads fun _ _ => rfl) (same Gang.queues fun _ _ => rfl)

theorem Env.hashMask_updCtx (e : Env) (w : DWord) (F : Ctx → Ctx) (s : State) :
    e.hashMask w (s.updCtx e.x F) = (e.hashMask w s).updCtx e.x F := by
  unfold Env.hashMask State.updCtx
  rw [State.updGang_updGang, State.updGang_updGang]
  exact congrArg _ (funext fun g => Gang.hashWrites_updCtx e.x.access e.x.access _ F g)

theorem Env.hashMask_settle_awake (e : Env) (w : DWord) (s : State) :
    e.hashMask w (e.settle (e.awake s) e.act true) = e.settle (e.awake (e.hashMask w s)) e.act true := by
  rw [Env.awake, Env.awake, ← e.hashMask_updCtx]
  exact (Env.settle_updGang (fun g => (Gang.hashWrites_updCtx ..).symm) (fun g q => Gang.popLanes_hashWrites ..) _).symm

theorem deliversTo_syswr_pred (p : Pfx) (l : Lf) (n : BitVec 3) (a : Hs) (k : Nat) :
    DeliversTo (.syswr p l (0x10#8 + n.setWidth 8) a) (fun _ e => e.nib = some k)
      (fun e s => s.updCtx e.x fun c => c.putK n.toNat (e.pair 0 k &&& widthMask e.width)) fun _ _ => { long := true } := by
  have number := predReg_range n
  have small := n.isLt
  have gst : (0x10#8 + n.setWidth 8) ≠ 0x00#8 := fun same => by rw [same, BitVec.toNat_ofNat] at number; omega
  have rngc : (0x10#8 + n.setWidth 8) ≠ 0x0C#8 := fun same => by rw [same, BitVec.toNat_ofNat] at number; omega
  have pred : 0x10 ≤ (0x10#8 + n.setWidth 8).toNat ∧ (0x10#8 + n.setWidth 8).toNat < 0x18 := by omega
  refine DeliversTo.before
    (h := fun e s => e.hashMask (e.pair 0 k &&& widthMask e.width) (s.updCtx e.x fun c => c.putK n.toNat (e.pair 0 k &&& widthMask e.width)))
    (deliversTo_syswr (fun s e _ nib => ⟨k, nib, ?_⟩) fun s e _ base => ?_) fun s e => e.hashMask_moves _ _
  · rw [Env.sysWritten, if_neg gst, if_neg rngc, if_pos pred, number, Nat.add_sub_cancel_left, Env.writeMask_eq, ← Env.hashMask_updCtx,
      ← Env.hashMask_settle_awake]
    congr 1
    exact Env.settle_awake_updCtx (F := fun c => c.putK _ _) (fun c m => c.putK_wake _ _ m) (fun _ => rfl)
      (Env.settleCtx_comm (F := fun c => c.putK _ _) (fun _ _ => rfl) (fun _ _ => rfl) (fun _ => rfl) (fun _ => rfl) (fun _ _ => rfl) true) s
  · have put : e.Base (s.updCtx e.x fun c => c.putK n.toNat (e.pair 0 k &&& widthMask e.width)) :=
      base.updCtx e.x _ (fun _ => rfl) fun _ _ calm => calm
    refine put.updGang _ _ (fun g b => ?_) fun g q => ?_
    all_goals
      unfold Env.hashWrites
      split <;> rfl

/-- Settles O37: a system register reads as before the path woke; the write of one commutes with the consumption of the sources. -/
theorem systemRegisters : Obligations.SystemRegisters := by
  unfold Obligations.SystemRegisters
  exact ⟨delivers_sysrd, deliversTo_syswr_gst, deliversTo_syswr_rngc, deliversTo_syswr_pred,
    fun _ _ _ _ gst rngc pred => deliversTo_syswr_other gst rngc pred⟩

end Sys2Proof.Machine
end

section
/-! PROOF. A query of a thread that the lanes of its path have all completed before (14:R344): a counterexample. -/

namespace Sys2Proof.Machine

/-- `rcq` with the record's scratchpad address in s6. -/
def askThreads : Instr := .rcq ⟨none, none⟩ ⟨0, 0⟩ (.v 4) ⟨.s 6, .none⟩

/-- Lane 0, alone in the path, has completed the query; its record at 0x200 is 64 bytes of zeros, which stops the threads of its core that match
no term. -/
def queryCompleted : State := matrixCompleted [(6, ⟨0x200#32, false, false⟩)]

/-- The environment of that query. -/
def queryEnv : Env := (env? askThreads queryCompleted).get (by decide +kernel)

theorem queryEnv_ready : Ready askThreads queryCompleted queryEnv := ⟨(Option.some_get _).symm, by decide +kernel, by decide +kernel⟩

theorem queryEnv_lanes : queryEnv.nib = some 0 ∧ queryEnv.act = 0#64 := by decide +kernel

/-- The record, with an address that is a multiple of 64. -/
def queryRecord : List Byte := List.replicate 64 0#8

theorem queryEnv_record : (queryEnv.word 0 0).toNat % 64 = 0 ∧
    queryEnv.readBlock queryCompleted (queryEnv.word 0 0).toNat 64 true = .ok queryRecord := ⟨by decide +kernel, rfl⟩

/-- It is a good record, and its action is not to read. -/
theorem queryEnv_good : (Query.ofBytes queryRecord).refused queryEnv.l.kern = none ∧ (Query.ofBytes queryRecord).action ≠ 4 := by decide +kernel

theorem queryCompleted_flies {t : State} (run : exec askThreads queryCompleted = .next t) : t.flying = true :=
  nextPasses_spec (by decide +kernel) run

/-- Refutes O32: a good record and a nib do not make a lane active. The model's nib is the lowest of all lanes of the instruction, those that have
completed it before among them. Where they all have, no lane is active, and `rcq` enters flight and requests its hold nevertheless; the
statement's effect has no flight without an active lane. -/
theorem not_runControlInstructions : ¬ Obligations.RunControlInstructions := by
  unfold Obligations.RunControlInstructions
  rintro ⟨queries, -⟩
  obtain ⟨nib, inactive⟩ := queryEnv_lanes
  obtain ⟨aligned, record⟩ := queryEnv_record
  obtain ⟨good, other⟩ := queryEnv_good
  obtain ⟨t, run, effect⟩ := queries _ _ _ _ 0 queryRecord queryCompleted queryEnv queryEnv_ready
    ⟨nib, aligned, record, good, fun read => absurd read other⟩
  exact absurd (queryCompleted_flies run) (by rw [grounded_of_delivers effect inactive rfl]; exact Bool.false_ne_true)

end Sys2Proof.Machine
end

section
/-! PROOF. Items in a running gang (13:R311, R318): what lanes that take items become, and where their context stands after a `refill`. -/

namespace Sys2Proof.Machine

/-! ### An item for a lane -/

/-- A thread that has taken an item. -/
def Thread.given (x : Item) (t : Thread) : Thread := { t with lin := x.lin, cnt := 0, item := .live }

/-- A lane of a gang receives an item. -/
def State.give (g vregs : Nat) (s : State) (p : Item × Nat) : State :=
  ((s.updThread g p.2 (Thread.given p.1)).updGang g fun q => Env.hashWrites q false (p.1.words vregs)).updCtx ⟨g, false⟩ fun c =>
    c.deliverItem vregs p.2 p.1

theorem State.unmark_setLaunches (s : State) (l d : Nat) : ∃ L, s.unmark l d = s.setLaunches L := by
  unfold State.unmark
  split
  · split
    · exact ⟨s.launches, rfl⟩
    · split
      · exact ⟨s.launches, rfl⟩
      · exact ⟨_, rfl⟩
  · exact ⟨s.launches, rfl⟩

/-- What a take is: none, or items that leave their dune for lanes of the gang in order. -/
theorem State.takeItems_items {s u : State} {g : Nat} {lanes : List Nat} {xs : List Item} (take : s.takeItems g lanes = .items xs u) :
    (xs = [] ∧ u = s) ∨ ∃ x w L, s.gang? g = some x ∧ s.launch? x.launch = some w ∧
      u = (xs.zip lanes).foldl (State.give g w.kern.vregs) (s.setLaunches L) := by
  have nothing {s : State} (same : Take.items [] s = .items xs u) : xs = [] ∧ u = s := by cases same; exact ⟨rfl, rfl⟩
  unfold State.takeItems at take
  split at take
  · exact .inl (nothing take)
  next x gang =>
  split at take
  · next d w _ launch =>
    split at take
    · exact .inl (nothing take)
    next v _ =>
    dsimp only at take
    split at take
    · cases take
    next ys _ =>
    obtain ⟨L, left⟩ := (s.updDune x.launch d fun u => u.dropHead (s.takeSize g x.launch w d v lanes)).unmark_setLaunches x.launch d
    rw [left] at take
    obtain ⟨rfl, rfl⟩ : ys = xs ∧ _ = u := Take.items.inj take
    refine .inr ⟨x, w, L, gang, launch, ?_⟩
    refine congrArg (fun f => List.foldl f (s.setLaunches L) (ys.zip lanes)) (funext fun t => funext fun p => ?_)
    exact (State.updGang_updGang (t.updThread g p.2 (Thread.given p.1)) g (fun q => Env.hashWrites q false (p.1.words w.kern.vregs))
      fun q => q.updCtx false fun c => c.deliverItem w.kern.vregs p.2 p.1).symm
  · exact .inl (nothing take)

namespace State

/-- A change of a gang that keeps its contexts. -/
theorem ctx?_updGang_same (s : State) (k : Nat) {f : Gang → Gang} (keeps : ∀ g a, (f g).ctx? a = g.ctx? a) (y : Site) :
    (s.updGang k f).ctx? y = s.ctx? y := by
  rw [ctx?_updGang]
  split
  · next here => rw [ctx?_of_gang?, here]; cases s.gang? k <;> simp [keeps]
  · rfl

variable (s : State) (g vregs : Nat) (p : Item × Nat)

theorem give_mem : (s.give g vregs p).mem = s.mem := rfl

theorem give_thread? (n : Nat) :
    (s.give g vregs p).thread? g n = if n = p.2 then (s.thread? g n).map (Thread.given p.1) else s.thread? g n := by
  have hash (q : Gang) (n : Nat) : (Env.hashWrites q false (p.1.words vregs)).threads.get? n = q.threads.get? n := by
    unfold Env.hashWrites
    split <;> rfl
  unfold give updThread updCtx
  rw [thread?_of_gang?, thread?_of_gang?, gang?_updGang, gang?_updGang, gang?_updGang]
  cases s.gang? g with
  | none => simp
  | some q =>
    simp only [Option.map_some, Option.bind_some, Gang.updCtx, Bool.false_eq_true, if_false, hash, Assoc.get?_upd]
    split
    · next same => rw [same]
    · rfl

theorem give_ctx? (y : Site) :
    (s.give g vregs p).ctx? y = if y = ⟨g, false⟩ then (s.ctx? y).map fun c => c.deliverItem vregs p.2 p.1 else s.ctx? y := by
  have same : ((s.updThread g p.2 (Thread.given p.1)).updGang g fun q => Env.hashWrites q false (p.1.words vregs)).ctx? y = s.ctx? y := by
    rw [ctx?_updGang_same _ _ fun q a => by unfold Env.hashWrites; split <;> rfl, updThread_eq,
      ctx?_updGang_same (f := Gang.updThread _ _) _ _ fun _ _ => rfl]
  unfold give
  rw [ctx?_updCtx, same]

end State

/-! ### All the lanes that take -/

section
variable {g vregs : Nat} {s : State}

/-- Lanes that take no item keep what they have. -/
theorem State.gives_thread?_of_not_mem (ps : List (Item × Nat)) {n : Nat} (out : n ∉ ps.map (·.2)) :
    (ps.foldl (State.give g vregs) s).thread? g n = s.thread? g n := by
  induction ps generalizing s with
  | nil => rfl
  | cons p ps ih =>
    rw [List.map_cons, List.mem_cons, not_or] at out
    rw [List.foldl_cons, ih out.2, State.give_thread?, if_neg out.1]

theorem State.gives_thread? {ps : List (Item × Nat)} (nodup : (ps.map (·.2)).Nodup) {p : Item × Nat} (on : p ∈ ps) :
    (ps.foldl (State.give g vregs) s).thread? g p.2 = (s.thread? g p.2).map (Thread.given p.1) := by
  induction ps generalizing s with
  | nil => cases on
  | cons q ps ih =>
    rw [List.map_cons, List.nodup_cons] at nodup
    rw [List.foldl_cons]
    rcases List.mem_cons.1 on with rfl | on
    · rw [State.gives_thread?_of_not_mem ps nodup.1, State.give_thread?, if_pos rfl]
    · have other : p.2 ≠ q.2 := fun same => nodup.1 (same ▸ List.mem_map_of_mem on)
      rw [ih nodup.2 on, State.give_thread?, if_neg other]

theorem State.gives_mem (ps : List (Item × Nat)) : (ps.foldl (State.give g vregs) s).mem = s.mem :=
  foldl_mem s ps fun s p => s.give_mem g vregs p

/-- Words that a lane receives from a register on. -/
theorem get?_foldl_zipIdx (ws : List Word) (k : Nat) (t : Assoc Reg) {lane n r : Nat} (small : lane < 64) (hn : n < 64) :
    ((ws.zipIdx k).foldl (fun t p => t.put (64 * p.2 + lane) (⟨p.1, false, false⟩ : Reg)) t).get? (64 * r + n) =
      if n = lane ∧ k ≤ r ∧ r < k + ws.length then some ⟨ws.getD (r - k) 0#32, false, false⟩ else t.get? (64 * r + n) := by
  induction ws generalizing k t with
  | nil => simp
  | cons w ws ih =>
    rw [List.zipIdx_cons, List.foldl_cons, ih, Assoc.get?_put]
    by_cases here : n = lane
    · subst here
      by_cases first : r = k
      · subst first; simp
      · have away : ¬ 64 * r + n = 64 * k + n := by omega
        have same : (k + 1 ≤ r ∧ r < k + 1 + ws.length) ↔ (k ≤ r ∧ r < k + (w :: ws).length) := by
          rw [List.length_cons]; omega
        simp only [true_and, same, if_neg away]
        split
        · next within => rw [show r - k = (r - (k + 1)) + 1 by omega, List.getD_cons_succ]
        · rfl
    · have away : ¬ 64 * r + n = 64 * k + lane := by omega
      simp [here, away]

theorem Ctx.deliverItem_v (c : Ctx) (vregs : Nat) (x : Item) {lane n r : Nat} (small : lane < 64) (hn : n < 64) :
    (c.deliverItem vregs lane x).v.get? (64 * r + n) =
      if n = lane ∧ r < (x.words vregs).length then some ⟨(x.words vregs).getD r 0#32, false, false⟩ else c.v.get? (64 * r + n) := by
  have := get?_foldl_zipIdx (x.words vregs) 0 c.v (r := r) small hn
  simp only [Nat.zero_le, true_and, Nat.zero_add, Nat.sub_zero] at this
  exact this

/-- Registers of lanes that take no item are as they were. -/
theorem State.gives_vreg_of_not_mem (ps : List (Item × Nat)) (small : ∀ p ∈ ps, p.2 < 64) {n r : Nat} (hn : n < 64) (out : n ∉ ps.map (·.2)) :
    (ps.foldl (State.give g vregs) s).vreg ⟨g, false⟩ r n = s.vreg ⟨g, false⟩ r n := by
  induction ps generalizing s with
  | nil => rfl
  | cons p ps ih =>
    rw [List.map_cons, List.mem_cons, not_or] at out
    rw [List.foldl_cons, ih (fun q on => small q (List.mem_cons_of_mem _ on)) out.2, State.vreg, State.vreg, State.give_ctx?, if_pos rfl]
    cases s.ctx? ⟨g, false⟩ with
    | none => rfl
    | some c =>
      rw [Option.map_some, Option.bind_some, Option.bind_some, c.deliverItem_v vregs p.1 (small p (List.mem_cons_self ..)) hn,
        if_neg fun here => out.1 here.1]

/-- A lane that takes an item has its words. -/
theorem State.gives_vreg {ps : List (Item × Nat)} (nodup : (ps.map (·.2)).Nodup) (small : ∀ p ∈ ps, p.2 < 64) {p : Item × Nat} (on : p ∈ ps)
    {r : Nat} {y : Word} (word : (p.1.words vregs)[r]? = some y) (live : (s.ctx? ⟨g, false⟩).isSome = true) :
    (ps.foldl (State.give g vregs) s).vreg ⟨g, false⟩ r p.2 = some ⟨y, false, false⟩ := by
  induction ps generalizing s with
  | nil => cases on
  | cons q ps ih =>
    rw [List.map_cons, List.nodup_cons] at nodup
    have rest : ∀ p ∈ ps, p.2 < 64 := fun q on => small q (List.mem_cons_of_mem _ on)
    rw [List.foldl_cons]
    rcases List.mem_cons.1 on with rfl | on
    · have hn := small p (List.mem_cons_self ..)
      obtain ⟨c, ctx⟩ := Option.isSome_iff_exists.1 live
      obtain ⟨within, value⟩ := List.getElem?_eq_some_iff.1 word
      rw [State.gives_vreg_of_not_mem ps rest hn nodup.1, State.vreg, State.give_ctx?, if_pos rfl, ctx, Option.map_some, Option.bind_some,
        c.deliverItem_v vregs p.1 hn hn, if_pos ⟨rfl, within⟩, List.getD_eq_getElem?_getD, word, Option.getD_some]
    · exact ih nodup.2 rest on (by rw [State.give_ctx?, if_pos rfl, Option.isSome_map]; exact live)

/-- Takes keep where contexts stand. -/
theorem State.gives_place (ps : List (Item × Nat)) (y : Site) :
    ((ps.foldl (State.give g vregs) s).ctx? y).map Ctx.place = (s.ctx? y).map Ctx.place := by
  induction ps generalizing s with
  | nil => rfl
  | cons p ps ih =>
    rw [List.foldl_cons, ih, State.give_ctx?]
    split
    · rw [Option.map_map]; rfl
    · rfl

end

/-! ### Takes of a path that has woken -/

theorem Env.awake_give {e : Env} {s : State} (awake : e.awake s = s) (vregs : Nat) (p : Item × Nat) :
    e.awake (s.give e.x.gang vregs p) = s.give e.x.gang vregs p := by
  have deliver (c : Ctx) (m : Mask) : (c.wake m).deliverItem vregs p.2 p.1 = (c.deliverItem vregs p.2 p.1).wake m := rfl
  have words : ∀ g : Gang, Gang.updCtx (Gang.updCtx g false fun c => c.deliverItem vregs p.2 p.1) e.x.access (fun c => c.wake c.path) =
      Gang.updCtx (Gang.updCtx g e.x.access fun c => c.wake c.path) false fun c => c.deliverItem vregs p.2 p.1 := fun g => by
    cases e.x.access <;> rfl
  have hash : ∀ g : Gang, Gang.updCtx (Env.hashWrites g false (p.1.words vregs)) e.x.access (fun c => c.wake c.path) =
      Env.hashWrites (Gang.updCtx g e.x.access fun c => c.wake c.path) false (p.1.words vregs) := fun g =>
    (Gang.hashWrites_updCtx false e.x.access _ _ g).symm
  calc e.awake (s.give e.x.gang vregs p)
      = (e.awake ((s.updThread e.x.gang p.2 (Thread.given p.1)).updGang e.x.gang fun q => Env.hashWrites q false (p.1.words vregs))).updCtx
          ⟨e.x.gang, false⟩ fun c => c.deliverItem vregs p.2 p.1 := e.awake_updGang _ _ words
    _ = s.give e.x.gang vregs p := by rw [e.awake_updGang _ _ hash, ← e.awake_updThread, awake]; rfl

theorem Env.awake_gives {e : Env} {vregs : Nat} (ps : List (Item × Nat)) {s : State} (awake : e.awake s = s) :
    e.awake (ps.foldl (State.give e.x.gang vregs) s) = ps.foldl (State.give e.x.gang vregs) s := by
  induction ps generalizing s with
  | nil => exact awake
  | cons p ps ih => exact ih (Env.awake_give awake vregs p)

theorem Env.Base.give {e : Env} {s : State} (base : e.Base s) (vregs : Nat) (p : Item × Nat) : e.Base (s.give e.x.gang vregs p) := by
  refine ((base.updThread e.x.gang p.2 _).updGang e.x.gang _ (fun g a => ?_) fun g q => ?_).updCtx _ _ (fun _ => rfl) fun _ _ calm => calm
  all_goals
    unfold Env.hashWrites
    split <;> rfl

theorem Env.awake_setLaunches {e : Env} {s : State} (L : LaunchSys) (awake : e.awake s = s) : e.awake (s.setLaunches L) = s.setLaunches L :=
  congrArg (fun t : State => t.setLaunches L) awake

/-- A take of a gang whose path has woken: the path is awake, and its context stands as before. -/
theorem Env.takeItems_awake {e : Env} {s u : State} {xs : List Item} {lanes : List Nat} (base : e.Base s) (awake : e.awake s = s)
    (take : s.takeItems e.x.gang lanes = .items xs u) : e.awake u = u ∧ e.Base u := by
  rcases State.takeItems_items take with ⟨-, rfl⟩ | ⟨x, w, L, -, -, rfl⟩
  · exact ⟨awake, base⟩
  · exact ⟨Env.awake_gives _ (Env.awake_setLaunches L awake),
      Env.Base.foldl _ _ (fun s p base => base.give w.kern.vregs p) (base.of_gangs rfl)⟩

/-! ### `itemfin` -/

theorem exec_itemfin (p : Pfx) (l : Lf) (s : State) : exec (.itemfin p l) s = run (.itemfin p l) s fun e s =>
    if e.act = 0#64 then .done s
    else if e.g.dune.isNone then .raise s (e.insn .duneOperand)
    else .done (e.lanes.foldl (fun s n => s.updThread e.x.gang n Thread.finish) s) := rfl

theorem deliversTo_itemfin (p : Pfx) (l : Lf) : DeliversTo (.itemfin p l) (fun _ e => e.act ≠ 0#64 ∧ e.g.dune.isSome = true)
    (fun e s => e.lanes.foldl (fun s k => s.updThread e.x.gang k fun t => t.finish) s) fun _ _ => {} := by
  refine deliversTo_at (exec_itemfin p l) (fun s e _ spec ⟨active, fired⟩ => ?_)
    (fun _ e ready _ => (Env.Base.of_ready ready).foldl e.lanes _ fun _ k base => base.updThread e.x.gang k _) (fun _ _ => .inr rfl)
    fun _ _ long => nomatch long
  have uses : e.uses = [] := by rw [Env.uses, spec.instr]; rfl
  rw [if_neg active, if_neg (by simp [Option.isSome_iff_ne_none.1 fired]), e.awake_updThreads s e.lanes fun _ => Thread.finish,
    e.deliver_empty_awake uses]

/-! ### `refill` -/

/-- What a `refill` does to its context, with the NONE lanes that it fills and the lanes that leave the path. -/
def Env.refillCtx (e : Env) (filled : List Nat) (out : Mask) (c : Ctx) : Ctx := (filled.foldl e.fillNone c).leavePath out

/-- After the take: lanes left without an item are NONE and leave the path, filled ones are ready, the long form is in flight. -/
def Env.refilled (e : Env) (want : List Nat) (n : Nat) (s : State) : State :=
  let out := (e.lanes.filter (e.itemIs .finished)).filter fun k => !(want.take n).contains k
  e.launchOp ((out.foldl (fun s k => s.updThread e.x.gang k fun t => { t with item := .empty }) s).updCtx e.x
    (e.refillCtx (e.noneHere.filter fun k => (want.take n).contains k) (maskOf out))) (maskOf (want.take n))

/-- The end of a `refill` whose lanes have all left the path. -/
def Env.refillEnd (e : Env) (s : State) : Res :=
  match s.ctx? e.x with
  | none => .moved s
  | some c => if c.path ≠ 0#64 then .done s else .moved ((s.updCtx e.x fun c => { c with cur := none }.stepBack).endEmpty e.x.gang)

/-- The meaning of `refill`. -/
def Env.refillBody (e : Env) (s : State) : Res :=
  if e.act = 0#64 then .done s
  else if e.g.dune.isNone then .raise s (e.insn .duneOperand)
  else match s.takeItems e.x.gang e.wants with
    | .fault l d t => .hold (s.ringFails l d t)
    | .items xs s => e.refillEnd (e.refilled e.wants xs.length s)

theorem exec_refill (p : Pfx) (l : Lf) (s : State) : exec (.refill p l) s = run (.refill p l) s Env.refillBody := rfl

theorem Env.refillBody_items {e : Env} {s u : State} {xs : List Item} (active : e.act ≠ 0#64) (fired : e.g.dune.isSome = true)
    (take : s.takeItems e.x.gang e.wants = .items xs u) : e.refillBody s = e.refillEnd (e.refilled e.wants xs.length u) := by
  unfold Env.refillBody
  rw [if_neg active, if_neg (by simp [Option.isSome_iff_ne_none.1 fired]), take]

/-! ### The context of a `refill` -/

theorem Assoc.mem_put {α : Type} {t : Assoc α} {k : Nat} {y : α} {p : Nat × α} (on : p ∈ t.put k y) : p ∈ t ∨ p = (k, y) := by
  induction t with
  | nil => exact .inr (List.mem_singleton.1 on)
  | cons q t ih =>
    unfold Assoc.put at on
    split at on
    · exact (List.mem_cons.1 on).symm.imp_left (List.mem_cons_of_mem _)
    · split at on
      · exact (List.mem_cons.1 on).symm
      · rcases List.mem_cons.1 on with here | later
        · exact .inl (here ▸ List.mem_cons_self ..)
        · exact (ih later).imp_left (List.mem_cons_of_mem _)

theorem Assoc.mem_upd {α : Type} {t : Assoc α} {k : Nat} {f : α → α} {p : Nat × α} (on : p ∈ t.upd k f) :
    p ∈ t ∨ ∃ x, (k, x) ∈ t ∧ p = (k, f x) := by
  unfold Assoc.upd at on
  split at on
  · exact .inl on
  · next x here => exact (Assoc.mem_put on).imp_right fun same => ⟨x, Assoc.mem_of_get? here, same⟩

/-- A lane off the path that a `refill` fills: its context keeps its path and its registers, and no lane stops or wakes on the path. -/
theorem Env.fillNone_keeps (e : Env) (c : Ctx) (k : Nat) :
    (e.fillNone c k).path = c.path ∧ (e.fillNone c k).v = c.v ∧ ∀ p ∈ (e.fillNone c k).lanes, ∃ l, (p.1, l) ∈ c.lanes ∧ l.pstep = p.2.pstep ∧
      (p.1 = k ∧ (p.2.ws = l.ws ∨ p.2.ws = c.readyOf k) ∨ p.2.ws = l.ws) := by
  have lanes (f : LaneSt → LaneSt) (step : ∀ l, (f l).pstep = l.pstep) (ws : ∀ l, (f l).ws = l.ws ∨ (f l).ws = c.readyOf k) :
      ∀ p ∈ ((c.setPc (bit k) e.next).updLane k f).lanes, ∃ l, (p.1, l) ∈ c.lanes ∧ l.pstep = p.2.pstep ∧
        (p.1 = k ∧ (p.2.ws = l.ws ∨ p.2.ws = c.readyOf k) ∨ p.2.ws = l.ws) := fun p on => by
    have moved {q : Nat × LaneSt} (on : q ∈ (c.setPc (bit k) e.next).lanes) : ∃ l, (q.1, l) ∈ c.lanes ∧ l.pstep = q.2.pstep ∧ l.ws = q.2.ws := by
      obtain ⟨r, there, rfl⟩ := List.mem_map.1 on
      refine ⟨r.2, there, ?_⟩
      dsimp only
      split <;> exact ⟨rfl, rfl⟩
    rcases Assoc.mem_upd on with same | ⟨x, there, rfl⟩
    · obtain ⟨l, at_, pstep, wait⟩ := moved same
      exact ⟨l, at_, pstep, .inr wait.symm⟩
    · obtain ⟨l, at_, pstep, wait⟩ := moved there
      exact ⟨l, at_, pstep.trans (step x).symm, .inl ⟨rfl, (ws x).imp_left fun same => same.trans wait.symm⟩⟩
  unfold Env.fillNone
  dsimp only
  have filled := lanes (fun l => if l.ws = .stopped then { l with under := .ready } else { l with ws := (c.setPc (bit k) e.next).readyOf k })
    (fun l => by split <;> rfl) fun l => by split; exacts [.inl rfl, .inr rfl]
  split
  · exact ⟨rfl, rfl, filled⟩
  · exact ⟨rfl, rfl, filled⟩

/-- Where the filled lanes are off a mask, its lanes stay awake and no lane stops. -/
theorem Env.fillNone_awake (e : Env) {c : Ctx} {k : Nat} {m : Mask} (off : m.getLsbD k = false) :
    (c.alert m → (e.fillNone c k).alert m) ∧ (c.calm m → (e.fillNone c k).calm m) := by
  obtain ⟨-, -, lanes⟩ := e.fillNone_keeps c k
  refine ⟨fun alert p on path => ?_, fun calm p on => ?_⟩
  · obtain ⟨l, there, -, ⟨here, -⟩ | same⟩ := lanes p on
    · rw [here, off] at path; cases path
    · rw [same]; exact alert _ there path
  · obtain ⟨l, there, step, waits⟩ := lanes p on
    obtain ⟨running, unstepped⟩ := calm _ there
    refine ⟨?_, fun path => step ▸ unstepped path⟩
    rcases waits with ⟨-, same | ready⟩ | same
    · rw [same]; exact running
    · rw [ready]; exact c.readyOf_ne_stopped k
    · rw [same]; exact running

theorem Env.refillCtx_keeps (e : Env) (filled : List Nat) (out : Mask) {c : Ctx} {m : Mask} (off : ∀ k ∈ filled, m.getLsbD k = false) :
    (e.refillCtx filled out c).path = c.path &&& ~~~out ∧ (e.refillCtx filled out c).v = c.v ∧
      (c.alert m → (e.refillCtx filled out c).alert m) ∧ (c.calm m → (e.refillCtx filled out c).calm m) := by
  unfold Env.refillCtx
  induction filled generalizing c with
  | nil => exact ⟨rfl, rfl, id, id⟩
  | cons k ks ih =>
    obtain ⟨path, v, -⟩ := e.fillNone_keeps c k
    obtain ⟨alert, calm⟩ := e.fillNone_awake (c := c) (off k (List.mem_cons_self ..))
    obtain ⟨paths, vs, alerts, calms⟩ := ih (c := e.fillNone c k) fun j on => off j (List.mem_cons_of_mem _ on)
    exact ⟨paths.trans (by rw [path]), vs.trans v, alerts ∘ alert, calms ∘ calm⟩

theorem Env.noneHere_off {e : Env} {k : Nat} (on : k ∈ e.noneHere) : e.c.path.getLsbD k = false := by
  unfold Env.noneHere at on
  obtain ⟨p, there, rfl⟩ := List.mem_map.1 on
  have := List.mem_filter.1 there
  simp_all

/-! ### The state of a `refill` before its end -/

/-- Lanes left without an item become NONE. -/
def Env.emptied (e : Env) (out : List Nat) (s : State) : State :=
  out.foldl (fun s k => s.updThread e.x.gang k fun t => { t with item := .empty }) s

theorem Env.emptied_ctx? (e : Env) (out : List Nat) (s : State) (y : Site) : (e.emptied out s).ctx? y = s.ctx? y := by
  unfold Env.emptied
  induction out generalizing s with
  | nil => rfl
  | cons k ks ih =>
    rw [List.foldl_cons, ih, State.updThread_eq, State.ctx?_updGang_same (f := Gang.updThread _ _) _ _ fun _ _ => rfl]

theorem Env.emptied_thread? (e : Env) (out : List Nat) (s : State) (k : Nat) : (e.emptied out s).thread? e.x.gang k =
    if k ∈ out then (s.thread? e.x.gang k).map fun t => { t with item := .empty } else s.thread? e.x.gang k := by
  unfold Env.emptied
  induction out generalizing s with
  | nil => simp
  | cons j js ih =>
    have one : (s.updThread e.x.gang j fun t => { t with item := .empty }).thread? e.x.gang k =
        if k = j then (s.thread? e.x.gang k).map fun t => { t with item := .empty } else s.thread? e.x.gang k := by
      rw [State.thread?_of_gang?, State.thread?_of_gang?, State.updThread_eq, State.gang?_updGang]
      cases s.gang? e.x.gang with
      | none => simp
      | some g =>
        simp only [Option.map_some, Option.bind_some, Gang.updThread, Assoc.get?_upd]
        split
        · next same => rw [same]
        · rfl
    rw [List.foldl_cons, ih, one]
    by_cases first : k = j <;> by_cases later : k ∈ js <;> simp [first, later, Function.comp_def]

theorem Env.launchOp_of_zero (e : Env) (s : State) : e.launchOp s 0#64 = s := rfl

/-- What the end of a `refill`'s act leaves: its context, its threads but for their capsule registers, memory. -/
structure Env.Refilled (e : Env) (out : List Nat) (F : Ctx → Ctx) (m : Mask) (s d : State) : Prop where
  ctx : d.ctx? e.x = (s.ctx? e.x).map fun c => if m = 0#64 then F c else e.sbCtx (F c)
  threads : ∀ k, (d.thread? e.x.gang k).map Thread.still = ((e.emptied out s).thread? e.x.gang k).map Thread.still
  mem : d.mem = s.mem

theorem Env.refilled_spec (e : Env) (out : List Nat) (F : Ctx → Ctx) (m : Mask) (s : State) :
    e.Refilled out F m s (e.launchOp ((e.emptied out s).updCtx e.x F) m) := by
  have flight := (e.enterOp_does ((e.emptied out s).updCtx e.x F) m 0#64 .none).1
  refine ⟨?_, fun k => ?_, ?_⟩
  · rw [e.launchOp_eq, flight.ctx?, if_pos rfl, State.ctx?_updCtx, if_pos rfl, e.emptied_ctx?, Option.map_map]
    refine congrArg (fun f => Option.map f (s.ctx? e.x)) (funext fun c => ?_)
    dsimp only [Function.comp]
  · rw [e.launchOp_eq, flight.thread, State.thread?_of_gang?, State.thread?_of_gang?, State.updCtx, State.gang?_updGang]
    cases (e.emptied out s).gang? e.x.gang with
    | none => rfl
    | some g => cases e.x.access <;> rfl
  · rw [Env.launchOp_mem, State.updCtx_mem]
    exact foldl_mem s out fun _ _ => rfl

/-! ### An act that fills every lane of the path -/

theorem Assoc.upd_congr {α : Type} {t : Assoc α} {k : Nat} {f h : α → α} (same : ∀ x, t.get? k = some x → f x = h x) : t.upd k f = t.upd k h := by
  unfold Assoc.upd
  split
  · rfl
  · next x here => rw [same x here]

/-- A change that keeps the context of a path that has woken is none. -/
theorem Env.updCtx_of_awake {e : Env} {s : State} {F : Ctx → Ctx} (awake : e.awake s = s) (same : ∀ c, s.ctx? e.x = some c → F c = c) :
    s.updCtx e.x F = s := by
  refine Eq.trans (congrArg (fun t : State => t.updCtx e.x F) awake.symm) (Eq.trans ?_ awake)
  unfold Env.awake State.updCtx
  rw [State.updGang_updGang]
  refine congrArg s.setGangs (Assoc.upd_congr fun g gang => ?_)
  have keeps (c : Ctx) (ctx : g.ctx? e.x.access = some c) : F (c.wake c.path) = c.wake c.path := by
    have here : s.ctx? e.x = some c := by rw [State.ctx?_of_gang?, show s.gang? e.x.gang = some g from gang]; exact ctx
    have woken : c.wake c.path = c := Option.some.inj ((Env.ctx?_awake here).symm.trans (by rw [awake, here]))
    rw [woken, same c here]
  unfold Gang.updCtx
  unfold Gang.ctx? at keeps
  cases access : e.x.access with
  | false =>
    simp only [access, Bool.false_eq_true, if_false] at keeps ⊢
    rw [keeps _ rfl]
  | true =>
    simp only [access, if_true, Option.map_map] at keeps ⊢
    cases actx : g.actx with
    | none => rfl
    | some c => simp only [Option.map_some, Function.comp, keeps c actx]

/-- A path that no lane leaves. -/
theorem Ctx.leavePath_zero {c : Ctx} (on : c.path ≠ 0#64) : c.leavePath 0#64 = c := by
  have all (m : Mask) : m &&& ~~~0#64 = m := by rw [BitVec.not_zero, BitVec.and_allOnes]
  have keep (t : Assoc Cursor) (k : Option Cursor) : keepMid t 0#64 k = t := by
    have none : lanesOf 0#64 = [] := by decide
    unfold keepMid
    rw [none]
    cases k <;> rfl
  have same (a : Option (Mask × Option Cursor)) (aside : c.aside = a) : ({ c with aside := a } : Ctx) = c := by rw [← aside]
  unfold Ctx.leavePath
  cases aside : c.aside with
  | none =>
    simp only [all, if_neg on, BitVec.and_zero, keep, Option.map_none]
    exact same _ aside
  | some a =>
    simp only [all, if_neg on, BitVec.and_zero, keep, Option.map_some]
    exact same _ aside

theorem deliversTo_refill (p : Pfx) (l : Lf) (xs : List Item) (u : State) : DeliversTo (.refill p l)
    (fun s e => e.act ≠ 0#64 ∧ e.g.dune.isSome = true ∧ e.wants = e.lanes ∧ e.noneHere = [] ∧
      (e.awake s).takeItems e.x.gang e.wants = .items xs u ∧ xs.length = e.lanes.length)
    (fun _ _ => u) fun _ _ => { long := true } := by
  refine deliversTo_at (exec_refill p l) (fun s e ready spec ⟨active, fired, wants, nobody, take, all⟩ => ?_)
    (fun s e ready ⟨_, _, _, _, take, _⟩ => (Env.takeItems_awake (Env.Base.of_ready ready).awake (e.awake_awake s) take).2)
    (fun _ _ => .inr rfl) fun _ _ _ => Option.some_ne_none l
  obtain ⟨awake, c, ctx, path, -⟩ : e.awake u = u ∧ ∃ c, u.ctx? e.x = some c ∧ c.path = e.c.path ∧ _ := by
    obtain ⟨awake, base⟩ := Env.takeItems_awake (Env.Base.of_ready ready).awake (e.awake_awake s) take
    exact ⟨awake, base.ctx⟩
  have onPath : c.path ≠ 0#64 := path ▸ spec.path
  have out : (e.lanes.filter (e.itemIs .finished)).filter (fun k => !(e.wants.take xs.length).contains k) = [] := by
    rw [wants, all, List.take_length]
    exact List.filter_eq_nil_iff.2 fun k on => by simpa using List.mem_of_mem_filter on
  have act : e.refilled e.wants xs.length u = e.enterOp u e.act 0#64 .none := by
    unfold Env.refilled
    dsimp only
    rw [out, nobody, wants, all, List.take_length, maskOf_lanes, e.launchOp_eq]
    refine congrArg (fun t => e.enterOp t e.act 0#64 .none) (Env.updCtx_of_awake awake fun d here => ?_)
    obtain rfl : c = d := Option.some.inj (ctx.symm.trans here)
    exact Ctx.leavePath_zero onPath
  have after : (e.enterOp u e.act 0#64 .none).ctx? e.x = some (e.sbCtx c) := by
    rw [(e.enterOp_does u e.act 0#64 .none).1.ctx?, if_pos rfl, ctx, Option.map_some, if_neg active]
  have still : (e.sbCtx c).path ≠ 0#64 := by
    have := congrArg Prod.snd (sbCtx_place e c)
    exact fun zero => onPath (this.symm.trans zero)
  have uses : ∀ v ∈ e.uses, v.role = .dst ∧ v.last = false := by
    rw [Env.uses, spec.instr]
    exact fun _ on => nomatch on
  have settled : e.settle u e.act true = u := by
    have := e.settle_awake_of_dst uses u e.act true
    rwa [awake] at this
  rw [Env.refillBody_items active fired take, act, Env.refillEnd, after]
  dsimp only
  rw [if_pos still, Env.deliver]
  simp only [Env.flags_zero, if_true, Env.putPred, Env.putDst, settled, awake]

/-! ### The end of a `refill` -/

theorem Thread.map_still {α : Type} {φ : Thread → α} (keeps : ∀ t, φ t.still = φ t) {a b : Option Thread} (same : a.map Thread.still = b.map Thread.still) :
    a.map φ = b.map φ := by
  have := congrArg (Option.map φ) same
  simpa only [Option.map_map, Function.comp_def, keeps] using this

/-- A `refill` at whose act lanes stay in the path: its end only moves the context. -/
theorem Env.Refilled.ends {e : Env} {out : List Nat} {filled : List Nat} {mask m : Mask} {s d : State} {c : Ctx}
    (r : e.Refilled out (e.refillCtx filled mask) m s d) (off : ∀ k ∈ filled, c.path.getLsbD k = false) (ctx : s.ctx? e.x = some c)
    (awake : c.alert c.path) (calm : e.c.resume.isSome = true ∨ e.last = false ∨ c.calm c.path) (stays : c.path &&& ~~~mask ≠ 0#64) :
    e.refillEnd d = .done d ∧ ∃ k, Moves e.x k d (e.finish d) := by
  obtain ⟨path, -, alert, calms⟩ := e.refillCtx_keeps filled mask off
  generalize fc : e.refillCtx filled mask c = f at path alert calms
  obtain ⟨g, after, place⟩ : ∃ g, d.ctx? e.x = some g ∧ g.place = f.place := by
    refine ⟨_, by rw [r.ctx, ctx, Option.map_some], ?_⟩
    split
    · rw [fc]
    · rw [sbCtx_place, fc]
  obtain ⟨lanes, stands⟩ := Prod.mk.inj place
  have within (n : Nat) (on : (c.path &&& ~~~mask).getLsbD n = true) : c.path.getLsbD n = true := by
    rw [BitVec.getLsbD_and, Bool.and_eq_true] at on
    exact on.1
  have same : g.path = c.path &&& ~~~mask := stands.trans path
  constructor
  · rw [Env.refillEnd, after]
    exact if_pos (same ▸ stays)
  · refine ⟨c.path &&& ~~~mask, e.finish_moves_at d after same stays (fun p on path => ?_) (calm.imp_right (.imp_right fun calm p on => ?_))⟩
    · exact alert awake p (lanes ▸ on) (within _ path)
    · obtain ⟨running, unstepped⟩ := calms calm p (lanes ▸ on)
      exact ⟨running, fun path => unstepped (within _ path)⟩

/-- A `refill` at whose act every lane leaves the path, in a gang of which a thread holds an item: its context steps back. -/
theorem Env.Refilled.leaves {e : Env} {out : List Nat} {mask m : Mask} {s d : State} {c : Ctx} (r : e.Refilled out (e.refillCtx [] mask) m s d)
    (ctx : s.ctx? e.x = some c) (empty : c.path &&& ~~~mask = 0#64) {k : Nat} {t : Thread} (thread : d.thread? e.x.gang k = some t)
    (holds : t.item.inMask = true) : e.refillEnd d = .moved (d.updCtx e.x fun c => { c with cur := none }.stepBack) := by
  obtain ⟨g, after, path⟩ : ∃ g, d.ctx? e.x = some g ∧ g.path = 0#64 := by
    refine ⟨_, by rw [r.ctx, ctx, Option.map_some], ?_⟩
    split
    · exact empty
    · exact (congrArg Prod.snd (sbCtx_place e _)).trans empty
  rw [Env.refillEnd, after]
  simp only [path, ne_eq, not_true_eq_false, if_false, State.endEmpty]
  rw [State.updCtx, State.gang?_updGang]
  rw [State.thread?_of_gang?] at thread
  cases gang : d.gang? e.x.gang with
  | none => rfl
  | some x =>
    rw [gang, Option.bind_some] at thread
    have same : (x.updCtx e.x.access fun c => { c with cur := none }.stepBack).threads = x.threads := by cases e.x.access <;> rfl
    simp only [Option.map_some, same]
    have some : (x.threads.vals.any fun t => t.item.inMask) = true :=
      List.any_eq_true.2 ⟨t, List.mem_map.2 ⟨(k, t), Assoc.mem_of_get? thread, rfl⟩, holds⟩
    rw [if_pos some]

/-- A context that steps back keeps its lanes' places and its registers. -/
theorem Env.stepBack_moves (e : Env) (d : State) : Moves e.x 0#64 d (d.updCtx e.x fun c => { c with cur := none }.stepBack) := by
  have keeps (c : Ctx) : ({ c with cur := none }.stepBack).kept = c.kept ∧ ({ c with cur := none }.stepBack).lanes = c.lanes := by
    unfold Ctx.stepBack
    split <;> exact ⟨rfl, rfl⟩
  exact Moves.updCtx d e.x 0#64 (fun _ c => { c with cur := none }.stepBack) (fun _ c _ _ => (keeps c).1) fun _ c _ _ n => by
    rw [(keeps c).2]; exact ⟨rfl, fun _ => rfl⟩

/-- A register after a `refill`'s act, which changes none. -/
theorem Env.Refilled.vreg {e : Env} {out : List Nat} {filled : List Nat} {mask m : Mask} {s d : State}
    (r : e.Refilled out (e.refillCtx filled mask) m s d) (n k : Nat) : d.vreg e.x n k = s.vreg e.x n k := by
  have same (c : Ctx) : (if m = 0#64 then e.refillCtx filled mask c else e.sbCtx (e.refillCtx filled mask c)).v = c.v := by
    have keeps := (e.refillCtx_keeps (c := c) (m := 0#64) filled mask fun _ _ => BitVec.getLsbD_zero).2.1
    split
    · exact keeps
    · unfold Env.sbCtx
      split <;> exact keeps
  rw [State.vreg, State.vreg, r.ctx]
  cases s.ctx? e.x with
  | none => rfl
  | some c => rw [Option.map_some, Option.bind_some, Option.bind_some, same]

theorem Env.awake_thread? (e : Env) (s : State) (g k : Nat) : (e.awake s).thread? g k = s.thread? g k := by
  rw [State.thread?_of_gang?, State.thread?_of_gang?, Env.awake, State.updCtx, State.gang?_updGang']
  split
  · cases s.gang? g with
    | none => rfl
    | some y => cases e.x.access <;> rfl
  · rfl

theorem EnvSpec.thread? {i : Instr} {s : State} {e : Env} (spec : EnvSpec i s e) (k : Nat) : s.thread? e.x.gang k = e.g.threads.get? k := by
  rw [State.thread?_of_gang?, spec.gang, Option.bind_some]

theorem Env.itemIs_iff {e : Env} {st : ItemSt} {k : Nat} : e.itemIs st k = true ↔ ∃ t, e.g.threads.get? k = some t ∧ t.item = st := by
  unfold Env.itemIs
  cases e.g.threads.get? k <;> simp

/-- The lanes that a `refill` fills have threads. -/
theorem Env.thread_of_wants {e : Env} {k : Nat} (on : k ∈ e.wants) : k < 64 ∧ (e.g.threads.get? k).isSome = true := by
  unfold Env.wants at on
  rw [mem_lanesOf, getLsbD_maskOf, Bool.and_eq_true, decide_eq_true_eq, List.contains_iff_mem, List.mem_append] at on
  obtain ⟨small, finished | none⟩ := on
  · obtain ⟨t, thread, -⟩ := Env.itemIs_iff.1 (List.mem_filter.1 finished).2
    exact ⟨small, by rw [thread]; rfl⟩
  · unfold Env.noneHere at none
    obtain ⟨p, there, rfl⟩ := List.mem_map.1 none
    have holds := (List.mem_filter.1 there).2
    simp only [Bool.and_eq_true] at holds
    obtain ⟨t, thread, -⟩ := Env.itemIs_iff.1 holds.1.1
    exact ⟨small, by rw [thread]; rfl⟩

/-- The act of a `refill` that leaves lanes `out` without an item. -/
theorem Env.refilled_acts (e : Env) (want : List Nat) (n : Nat) (s : State) :
    e.Refilled ((e.lanes.filter (e.itemIs .finished)).filter fun k => !(want.take n).contains k)
      (e.refillCtx (e.noneHere.filter fun k => (want.take n).contains k)
        (maskOf ((e.lanes.filter (e.itemIs .finished)).filter fun k => !(want.take n).contains k))) (maskOf (want.take n)) s (e.refilled want n s) :=
  e.refilled_spec ..

/-- The words that a take of the gang delivers to a lane, and its thread. -/
theorem Env.takeItems_gives {i : Instr} {s u : State} {e : Env} {xs : List Item} (spec : EnvSpec i s e) (compute : e.x.access = false)
    (take : (e.awake s).takeItems e.x.gang e.wants = .items xs u) (all : xs.length = e.wants.length) {j : Nat} {x : Item} {n : Nat}
    (item : xs[j]? = some x) (lane : e.wants[j]? = some n) :
    (u.thread? e.x.gang n).map (fun a => (a.item, a.lin, a.cnt)) = some (ItemSt.live, x.lin, 0) ∧
      ∀ (r : Nat) y, (x.words e.l.kern.vregs)[r]? = some y → u.vreg e.x r n = some ⟨y, false, false⟩ := by
  rcases State.takeItems_items take with ⟨rfl, -⟩ | ⟨g, w, L, gang, launch, rfl⟩
  · cases item
  obtain rfl : w = e.l := by
    have woken : (e.awake s).gang? e.x.gang = some (e.g.updCtx e.x.access fun c => c.wake c.path) := by
      rw [Env.awake, State.updCtx, State.gang?_updGang, spec.gang, Option.map_some]
    obtain rfl := Option.some.inj (woken.symm.trans gang)
    have same : (e.g.updCtx e.x.access fun c => c.wake c.path).launch = e.g.launch := by cases e.x.access <;> rfl
    exact (Option.some.inj (spec.launch.symm.trans (same ▸ launch))).symm
  have on : (x, n) ∈ xs.zip e.wants := List.mem_of_getElem? (i := j) (by rw [List.getElem?_zip_eq_some]; exact ⟨item, lane⟩)
  have nodup : ((xs.zip e.wants).map (·.2)).Nodup := by
    rw [List.map_snd_zip (by omega)]
    exact nodup_lanesOf _
  have small : ∀ p ∈ xs.zip e.wants, p.2 < 64 := fun p on => (Env.thread_of_wants (List.of_mem_zip on).2).1
  have site : e.x = ⟨e.x.gang, false⟩ := by rw [← compute]
  constructor
  · obtain ⟨t, thread⟩ := Option.isSome_iff_exists.1 (Env.thread_of_wants (List.mem_of_getElem? lane)).2
    have before : ((e.awake s).setLaunches L).thread? e.x.gang n = some t := (e.awake_thread? s _ n).trans ((spec.thread? n).trans thread)
    rw [State.gives_thread? nodup on, before]
    rfl
  · intro r y word
    obtain ⟨c, v, m, ctx, -⟩ := spec.ctx
    rw [site]
    refine State.gives_vreg nodup small on word ?_
    rw [← site]
    exact Option.isSome_of_eq_some (Env.ctx?_awake ctx)

/-- 13:R311: each lane that a `refill` fills has its item. -/
theorem refill_fills {p : Pfx} {l : Lf} {s u : State} {e : Env} {xs : List Item} (ready : Ready (.refill p l) s e) (active : e.act ≠ 0#64)
    (fired : e.g.dune.isSome = true) (compute : e.x.access = false) (take : (e.awake s).takeItems e.x.gang e.wants = .items xs u)
    (all : xs.length = e.wants.length) : ∃ t, exec (.refill p l) s = .next t ∧ t.mem = s.mem ∧
      ∀ (i : Nat) (x : Item) n, xs[i]? = some x → e.wants[i]? = some n →
        (t.thread? e.x.gang n).map (fun a => (a.item, a.lin, a.cnt)) = some (ItemSt.live, x.lin, 0) ∧
        ∀ (r : Nat) y, (x.words e.l.kern.vregs)[r]? = some y → t.vreg e.x r n = some ⟨y, false, false⟩ := by
  have spec := env?_spec ready.env
  obtain ⟨awake, c, ctx, path, calm⟩ : e.awake u = u ∧ ∃ c, u.ctx? e.x = some c ∧ c.path = e.c.path ∧ _ := by
    obtain ⟨awake, base⟩ := Env.takeItems_awake (Env.Base.of_ready ready).awake (e.awake_awake s) take
    exact ⟨awake, base.ctx⟩
  have woken : c.wake c.path = c := Option.some.inj ((Env.ctx?_awake ctx).symm.trans (by rw [awake, ctx]))
  have out : (e.lanes.filter (e.itemIs .finished)).filter (fun k => !(e.wants.take xs.length).contains k) = [] := by
    rw [all, List.take_length]
    refine List.filter_eq_nil_iff.2 fun k on => ?_
    have within : k ∈ e.wants := by
      unfold Env.wants
      rw [mem_lanesOf, getLsbD_maskOf, Bool.and_eq_true, decide_eq_true_eq, List.contains_iff_mem]
      exact ⟨e.lanes_lt k (List.mem_of_mem_filter on), List.mem_append_left _ on⟩
    simpa using within
  have acts := e.refilled_acts e.wants xs.length u
  rw [out] at acts
  have stays : c.path &&& ~~~(maskOf []) ≠ 0#64 := by
    rw [show maskOf [] = 0#64 from rfl, BitVec.not_zero, BitVec.and_allOnes, path]
    exact spec.path
  obtain ⟨done, k, moves⟩ := acts.ends (fun k on => path ▸ Env.noneHere_off (List.mem_of_mem_filter on)) ctx
    (woken ▸ c.wake_alert c.path) calm stays
  have memory : u.mem = s.mem := by
    rcases State.takeItems_items take with ⟨-, rfl⟩ | ⟨g, w, L, -, -, rfl⟩
    · rfl
    · exact State.gives_mem _
  refine ⟨_, (exec_refill p l s).trans (run_done ready.env ready.goes ((Env.refillBody_items active fired take).trans done)),
    (moves.mem.trans acts.mem).trans memory, fun j x n item lane => ?_⟩
  obtain ⟨thread, words⟩ := Env.takeItems_gives spec compute take all item lane
  refine ⟨?_, fun r y word => ?_⟩
  · rw [moves.threads, Thread.map_still (fun _ => rfl) (acts.threads n)]
    exact thread
  · rw [moves.vreg, acts.vreg]
    exact words r y word

/-! ### A dune without items -/

/-- A gang whose dune is empty takes none. -/
theorem State.takeItems_empty {s : State} {g d : Nat} {x : Gang} {u : Dune} (gang : s.gang? g = some x) (fired : x.dune = some d)
    (dune : s.dune? x.launch d = some u) (empty : u.items = []) (lanes : List Nat) : ∃ L, s.takeItems g lanes = .items [] (s.setLaunches L) := by
  obtain ⟨store, ringed⟩ : u.store = [] ∧ u.ringed = [] := List.append_eq_nil_iff.1 empty
  unfold State.dune? at dune
  split at dune
  · cases dune
  next w launch =>
  have size : s.takeSize g x.launch w d u lanes = 0 := by
    unfold State.takeSize Dune.count
    rw [empty]
    simp
  have heads : s.mem.headItems w.owner u 0 = .ok [] := by
    unfold MemSys.headItems
    rw [store, ringed]
    rfl
  obtain ⟨L, left⟩ := (s.updDune x.launch d fun u => u.dropHead 0).unmark_setLaunches x.launch d
  refine ⟨L, ?_⟩
  unfold State.takeItems
  simp only [gang, fired, launch, dune, size, heads, List.zip_nil_left, List.foldl_nil, left]
  rfl

/-- 13:R318: where the dune is empty, active lanes with finished items hold none afterwards. -/
theorem refill_empties {p : Pfx} {l : Lf} {s : State} {e : Env} {d : Nat} {u : Dune} (ready : Ready (.refill p l) s e) (active : e.act ≠ 0#64)
    (fired : e.g.dune = some d) (dune : s.dune? e.g.launch d = some u) (empty : u.items = [])
    (live : ∃ k, e.act.getLsbD k = true ∧ e.itemIs .live k = true) : ∃ t, exec (.refill p l) s = .next t ∧ t.mem = s.mem ∧
      ∀ k, e.act.getLsbD k = true → e.itemIs .finished k = true → (t.thread? e.x.gang k).map (·.item) = some .empty := by
  have spec := env?_spec ready.env
  have gang : (e.awake s).gang? e.x.gang = some (e.g.updCtx e.x.access fun c => c.wake c.path) := by
    rw [Env.awake, State.updCtx, State.gang?_updGang, spec.gang, Option.map_some]
  obtain ⟨firedFrom, launched⟩ : (e.g.updCtx e.x.access fun c => c.wake c.path).dune = e.g.dune ∧
      (e.g.updCtx e.x.access fun c => c.wake c.path).launch = e.g.launch := by cases e.x.access <;> exact ⟨rfl, rfl⟩
  obtain ⟨L, take⟩ := State.takeItems_empty gang (firedFrom.trans fired) (by rw [launched]; exact dune) empty e.wants
  obtain ⟨c, ctx, path, calm⟩ := (Env.Base.of_ready ready).awake.ctx
  have acts := e.refilled_acts e.wants 0 ((e.awake s).setLaunches L)
  have nobody : e.noneHere.filter (fun k => (e.wants.take 0).contains k) = [] := List.filter_eq_nil_iff.2 fun k _ => by simp
  have out : (e.lanes.filter (e.itemIs .finished)).filter (fun k => !(e.wants.take 0).contains k) = e.lanes.filter (e.itemIs .finished) :=
    List.filter_eq_self.2 fun k _ => by simp
  rw [nobody, out] at acts
  have thread (k : Nat) : ((e.awake s).setLaunches L).thread? e.x.gang k = e.g.threads.get? k :=
    (e.awake_thread? s e.x.gang k).trans (spec.thread? k)
  have emptied (k : Nat) (on : e.act.getLsbD k = true) (finished : e.itemIs .finished k = true) :
      ((e.refilled e.wants 0 ((e.awake s).setLaunches L)).thread? e.x.gang k).map (·.item) = some .empty := by
    obtain ⟨t, here, -⟩ := Env.itemIs_iff.1 finished
    have out : k ∈ e.lanes.filter (e.itemIs .finished) := List.mem_filter.2 ⟨mem_lanesOf.2 on, finished⟩
    rw [Thread.map_still (fun _ => rfl) (acts.threads k), e.emptied_thread?, if_pos out, thread, here]
    rfl
  have fires : e.g.dune.isSome = true := Option.isSome_of_eq_some fired
  by_cases stays : c.path &&& ~~~(maskOf (e.lanes.filter (e.itemIs .finished))) = 0#64
  · obtain ⟨k, on, alive⟩ := live
    obtain ⟨t, here, item⟩ := Env.itemIs_iff.1 alive
    have apart : k ∉ e.lanes.filter (e.itemIs .finished) := fun on => by
      obtain ⟨t', here', item'⟩ := Env.itemIs_iff.1 (List.mem_filter.1 on).2
      rw [Option.some.inj (here'.symm.trans here), item] at item'
      cases item'
    have kept := acts.threads k
    rw [e.emptied_thread?, if_neg apart, thread, here] at kept
    obtain ⟨t', here', same⟩ := Option.map_eq_some_iff.1 kept
    have holds : t'.item.inMask = true := by
      rw [show t'.item = t.item from (congrArg Thread.item same : t'.still.item = t.still.item), item]
      rfl
    have moves := ((e.stepBack_moves (e.refilled e.wants 0 ((e.awake s).setLaunches L))).trans (e.issued_moves _ 0#64)).trans (State.selectPath_stands _ e.x 0#64)
    refine ⟨_, (exec_refill p l s).trans (run_moved ready.env ready.goes
      ((Env.refillBody_items active fires take).trans (acts.leaves ctx stays here' holds))), moves.mem.trans acts.mem, fun j on finished => ?_⟩
    rw [moves.threads]
    exact emptied j on finished
  · obtain ⟨done, k, moves⟩ := acts.ends (fun k on => nomatch on) ctx (by
      obtain ⟨d, before⟩ := (Env.Base.of_ready ready).ctx
      rw [← Option.some.inj ((Env.ctx?_awake before.1).symm.trans ctx)]
      exact d.wake_alert d.path) calm stays
    refine ⟨_, (exec_refill p l s).trans (run_done ready.env ready.goes ((Env.refillBody_items active fires take).trans done)),
      moves.mem.trans acts.mem, fun j on finished => ?_⟩
    rw [moves.threads]
    exact emptied j on finished

/-- Settles O31: `itemfin` changes the items of its threads; `refill` makes lanes LIVE with the items of one take, or NONE where there are none. -/
theorem itemInstructions : Obligations.ItemInstructions := by
  unfold Obligations.ItemInstructions
  exact ⟨deliversTo_itemfin, deliversTo_refill, fun _ _ _ _ _ _ ready active fired compute take all => refill_fills ready active fired compute take all,
    fun _ _ _ _ _ _ ready active fired _ dune empty live => refill_empties ready active fired dune empty live⟩

end Sys2Proof.Machine
end

section
/-! PROOF. Dunes (13:R300 to R320): enqueues, configurations, spill rings, reads and drain marks change launches, memory and threads, and do not see that
the path wakes. -/

namespace Sys2Proof.Machine

/-! ### What keeps an awake path -/

/-- A change after which the path is awake, and the base of an effect stands, as before. -/
structure Env.Keeps (e : Env) (s t : State) : Prop where
  awake : e.awake s = s → e.awake t = t
  base : e.Base s → e.Base t

namespace Env.Keeps
variable {e : Env} {s t u : State}

theorem refl (e : Env) (s : State) : e.Keeps s s := ⟨id, id⟩

theorem trans (h : e.Keeps s t) (h' : e.Keeps t u) : e.Keeps s u := ⟨h'.awake ∘ h.awake, h'.base ∘ h.base⟩

theorem of_gangs (same : t.gangs = s.gangs) : e.Keeps s t where
  awake awake := by
    show t.setGangs (e.awake t).gangs = t
    rw [Env.awake_gangs same, awake, ← same]
    rfl
  base base := base.of_gangs same

theorem updThread (s : State) (k : Nat) (f : Thread → Thread) : e.Keeps s (s.updThread e.x.gang k f) where
  awake awake := by rw [← e.awake_updThread, awake]
  base base := base.updThread _ _ _

end Env.Keeps

/-! ### Enqueues -/

theorem State.duneFor_gangs {s t : State} {l cluster d : Nat} {entry : DWord} {key : Word} {new : Bool}
    (found : s.duneFor l cluster entry key = some (d, new, t)) : t.gangs = s.gangs := by
  unfold State.duneFor at found
  split at found
  · cases found
  · split at found
    · cases found; rfl
    · dsimp only at found
      split at found
      · cases found
      · cases found; rfl

theorem State.placeItem_gangs {s t : State} {l d : Nat} {x : Item} (placed : s.placeItem l d x = .ok t) : t.gangs = s.gangs := by
  unfold State.placeItem at placed
  split at placed
  · dsimp only at placed
    split at placed
    · cases placed
    · split at placed
      · cases placed; rfl
      · split at placed
        · cases placed
        · split at placed
          · cases placed
          · split at placed
            · cases placed
            · cases placed; rfl
  · cases placed

/-- What holds of the state that a lane of an enqueue leaves, accepted or not. -/
def Enq.Holds (p : State → Prop) : Enq → Prop
  | .ok t => p t
  | .fail t _ => p t
  | .wait .. => True

theorem Env.enqueueLane_keeps (e : Env) (s : State) (lane : Nat) (entry : DWord) (key : Word) (ws : List Word) :
    (e.enqueueLane s lane entry key ws).Holds (e.Keeps s) := by
  unfold Env.enqueueLane
  split
  · exact .refl e s
  split
  · exact .refl e s
  split
  · exact .refl e s
  next d new t found =>
  have first := Env.Keeps.of_gangs (e := e) (State.duneFor_gangs found)
  split
  · exact first
  dsimp only
  split
  · exact first
  · trivial
  · next u placed => exact (first.trans (.of_gangs (State.placeItem_gangs placed))).trans (.updThread u lane _)

theorem Env.enqueueLanes_keeps {e : Env} {entry : Nat → DWord} {key : Nat → Word} {ws : Nat → List Word} {lanes : List Nat} {s t : State}
    {ok done : Mask} {fails failed : Assoc TrapRec} (h : e.enqueueLanes entry key ws lanes s ok fails = .done t done failed) : e.Keeps s t := by
  induction lanes generalizing s ok fails with
  | nil => cases h; exact .refl e _
  | cons n ns ih =>
    have one := e.enqueueLane_keeps s n (entry n) (key n) (ws n)
    unfold Env.enqueueLanes at h
    split at h
    · next same => rw [same] at one; exact one.trans (ih h)
    · next same => rw [same] at one; exact one.trans (ih h)
    · cases h

/-- A state in which all items are accepted. -/
theorem Env.enqueued_spec {e : Env} {s u : State} {key : Nat → Word} {k n : Nat} (h : e.enqueued s key k n = some u) :
    e.enqueueLanes (e.pair 0) key (fun lane => e.words k n lane) e.lanes s 0#64 [] = .done u e.act [] := by
  unfold Env.enqueued at h
  split at h
  · next same =>
    split at h
    · next all => cases h; rw [same, all]
    · cases h
  · cases h

theorem exec_spawn (p : Pfx) (l : Lf) (pw : BitVec 4) (a c : Hs) (s : State) : exec (.spawn p l pw a c) s =
    run (.spawn p l pw a c) s fun e s => e.enqueue s (fun _ => 0#32) 1 pw.toNat := rfl
theorem exec_tokput (p : Pfx) (l : Lf) (pw : BitVec 4) (a b c : Hs) (s : State) : exec (.tokput p l pw a b c) s =
    run (.tokput p l pw a b c) s fun e s => e.enqueue s (e.word 1) 2 pw.toNat := rfl

/-- Sources that are consumed, and a long form that enters flight. -/
theorem Env.deliver_flight (e : Env) (s : State) : e.deliver s { long := true } = e.launchOp (e.settle s e.act true) e.act := by
  rw [Env.launchOp_eq, Env.deliver]
  simp only [Env.flags_zero, if_true]
  rfl

/-- An instruction whose items are all accepted. -/
theorem deliversTo_enqueue {i : Instr} {key : Env → Nat → Word} {k n : Nat} (runs : ∀ s, exec i s = run i s fun e s => e.enqueue s (key e) k n)
    (form : i.lf ≠ none) (u : State) :
    DeliversTo i (fun s e => e.enqueued (e.awake s) (key e) k n = some u) (fun _ _ => u) fun _ _ => { long := true } := by
  refine deliversTo_at runs (fun s e ready _ accepted => ?_) (fun s e ready accepted => ?_) (fun _ _ => .inr rfl) fun _ _ _ => form
  · have lanes := Env.enqueued_spec accepted
    have awake := (Env.enqueueLanes_keeps lanes).awake (e.awake_awake s)
    unfold Env.enqueue
    rw [lanes, awake, e.deliver_flight]
    simp only [decide_true]
    rfl
  · exact (Env.enqueueLanes_keeps (Env.enqueued_spec accepted)).base (Env.Base.of_ready ready).awake

/-! ### An enqueue by one lane -/

/-- The dune of an entry that holds items already. -/
theorem State.duneFor_found {s : State} {l cluster d : Nat} {entry : DWord} {key : Word} {w : Launch} (launch : s.launch? l = some w)
    (found : w.findDune entry key = some d) : s.duneFor l cluster entry key = some (d, false, s) := by
  unfold State.duneFor
  rw [launch]
  dsimp only
  rw [found]

theorem State.dune?_of_launch {s : State} {l d : Nat} {w : Launch} (launch : s.launch? l = some w) : s.dune? l d = w.dunes.get? d := by
  unfold State.dune?
  rw [launch]

/-- An item for a dune outside ordered mode with an empty ring and a free slot is the last of its store. -/
theorem State.placeItem_last {s : State} {l d : Nat} {x : Item} {w : Launch} {u : Dune} (launch : s.launch? l = some w) (ordered : w.ordered = false)
    (dune : w.dunes.get? d = some u) (sound : u.ringFault = none) (ringed : u.ringed = []) (room : 0 < s.freeSlots u.home) :
    s.placeItem l d x = .ok (s.updDune l d fun v =>
      { v with store := insertAt u.store.length { x with serial := u.nextSerial } v.store, nextSerial := v.nextSerial + 1 }) := by
  have count : u.count = u.store.length := by rw [Dune.count, Dune.items, ringed, List.append_nil]
  unfold State.placeItem
  simp only [launch, State.dune?_of_launch launch, dune, sound, ringed, ordered, count, room, List.isEmpty_nil, Bool.false_eq_true, if_false,
    and_self, if_true]

theorem insertAt_length {α : Type} (x : α) (xs : List α) : insertAt xs.length x xs = xs ++ [x] := by
  simp [insertAt]

/-- Where one lane enqueues one item, it is accepted. -/
theorem Env.enqueued_one {i : Instr} {s : State} {e : Env} {k n lane d : Nat} {key : Nat → Word} {t : Thread} {w : Launch} {u : Dune}
    (spec : EnvSpec i s e) (one : e.enqueuesOne s lane d (key lane) t w u) : ∃ v, e.enqueued (e.awake s) key k n = some v ∧ v.mem = s.mem ∧
      v.dune? e.g.launch d =
        some { u with store := u.store ++ [s.itemOf t u (e.pair 0 lane) (key lane) (e.words k n lane)], nextSerial := u.nextSerial + 1 } ∧
      (v.thread? e.x.gang lane).map (·.cnt) = some (t.cnt + 1) := by
  obtain ⟨lanes, entry, thread, launch, ordered, found, dune, sound, ringed, room⟩ := one
  obtain rfl : w = e.l := Option.some.inj (launch.symm.trans spec.launch)
  have awakeThread : (e.awake s).thread? e.x.gang lane = some t := (e.awake_thread? s _ _).trans thread
  have awakeLaunch : (e.awake s).launch? e.g.launch = some e.l := launch
  have all : e.act = 0#64 ||| bit lane := by
    rw [← maskOf_lanes, lanes]
    rfl
  have placed : e.enqueueLane (e.awake s) lane (e.pair 0 lane) (key lane) (e.words k n lane) =
      .ok (((e.awake s).updDune e.g.launch d fun v =>
        { v with store := insertAt u.store.length (s.itemOf t u (e.pair 0 lane) (key lane) (e.words k n lane)) v.store
                 nextSerial := v.nextSerial + 1 }).updThread e.x.gang lane fun t => { t with cnt := t.cnt + 1 }) := by
    unfold Env.enqueueLane
    rw [awakeThread]
    simp only [entry, Bool.false_eq_true, if_false, State.duneFor_found awakeLaunch found, ordered, false_and,
      State.dune?_of_launch awakeLaunch, dune]
    rw [State.placeItem_last awakeLaunch ordered dune sound ringed room]
    rfl
  have accepted := fun v (one : e.enqueueLane (e.awake s) lane (e.pair 0 lane) (key lane) (e.words k n lane) = .ok v) =>
    show e.enqueued (e.awake s) key k n = some v by
      unfold Env.enqueued
      rw [lanes, Env.enqueueLanes, one]
      simp only [Env.enqueueLanes, ← all, if_true]
  refine ⟨_, accepted _ placed, rfl, ?_, ?_⟩
  · show ((e.awake s).updDune e.g.launch d _).dune? e.g.launch d = _
    rw [State.dune?_updDune, State.dune?_of_launch awakeLaunch, dune, Option.map_some, insertAt_length]
  · rw [State.thread?_of_gang?, State.updThread_eq, State.gang?_updGang]
    have before : ((e.awake s).gang? e.x.gang).bind (fun g => g.threads.get? lane) = some t := by
      rw [← State.thread?_of_gang?]; exact awakeThread
    show ((((e.awake s).gang? e.x.gang).map _).bind _).map _ = _
    cases gang : (e.awake s).gang? e.x.gang with
    | none => rw [gang] at before; cases before
    | some g =>
      rw [gang] at before
      simp only [Option.bind_some] at before
      simp [Gang.updThread, before]

/-- The item of one lane in its dune, once the instruction has been executed. -/
theorem exec_enqueue_one {i : Instr} {key : Env → Nat → Word} {k n : Nat} (runs : ∀ s, exec i s = run i s fun e s => e.enqueue s (key e) k n)
    (form : i.lf ≠ none) {s : State} {e : Env} {lane d : Nat} {t : Thread} {w : Launch} {u : Dune} (ready : Ready i s e)
    (one : e.enqueuesOne s lane d (key e lane) t w u) : ∃ v, exec i s = .next v ∧ v.mem = s.mem ∧
      v.dune? e.g.launch d =
        some { u with store := u.store ++ [s.itemOf t u (e.pair 0 lane) (key e lane) (e.words k n lane)], nextSerial := u.nextSerial + 1 } ∧
      (v.thread? e.x.gang lane).map (·.cnt) = some (t.cnt + 1) := by
  obtain ⟨a, accepted, mem, dune, count⟩ := Env.enqueued_one (k := k) (n := n) (env?_spec ready.env) one
  obtain ⟨v, next, effect⟩ := deliversTo_enqueue runs form a s e ready accepted
  refine ⟨v, next, effect.rest.mem.trans mem, ?_, (Thread.map_still (fun _ => rfl) (effect.rest.threads _ _)).trans count⟩
  rw [← dune]
  unfold State.dune? State.launch?
  rw [effect.rest.launches]

/-! ### A function of each lane (13:R316, R320) -/

theorem Assoc.put_last {α : Type} {t : Assoc α} {k : Nat} (above : ∀ j ∈ t.keys, j < k) (x : α) : t.put k x = t ++ [(k, x)] := by
  induction t with
  | nil => rfl
  | cons p t ih =>
    have first : p.1 < k := above p.1 (List.mem_cons_self ..)
    unfold Assoc.put
    rw [if_neg (by omega), if_neg (by omega), ih fun j on => above j (List.mem_cons_of_mem _ on)]
    rfl

theorem Assoc.put_ne_nil {α : Type} (t : Assoc α) (k : Nat) (x : α) : t.put k x ≠ [] := by
  cases t with
  | nil => exact List.cons_ne_nil _ _
  | cons p t =>
    unfold Assoc.put
    split
    · exact List.cons_ne_nil _ _
    · split <;> exact List.cons_ne_nil _ _

theorem pairwise_lanesOf (m : Mask) : (lanesOf m).Pairwise (· < ·) := List.Pairwise.filter _ List.pairwise_lt_range

section
variable {α : Type} {f : State → Nat → Except TrapRec α × State}

theorem eachLane_fails (ns : List Nat) {s : State} {vals : Assoc α} {fails : Assoc TrapRec} (some : fails ≠ []) :
    (eachLane f ns s vals fails).2.2 ≠ [] := by
  induction ns generalizing s vals fails with
  | nil => exact some
  | cons n ns ih =>
    unfold eachLane
    split
    · exact ih some
    · exact ih (Assoc.put_ne_nil _ _ _)

/-- Where no lane fails, all lanes have a value. -/
theorem eachLane_keys {ns : List Nat} (rising : ns.Pairwise (· < ·)) {s : State} {vals : Assoc α} (above : ∀ j ∈ vals.keys, ∀ n ∈ ns, j < n)
    {fails : Assoc TrapRec} (pass : (eachLane f ns s vals fails).2.2 = []) : (eachLane f ns s vals fails).2.1.keys = vals.keys ++ ns := by
  induction ns generalizing s vals fails with
  | nil => rw [List.append_nil]; rfl
  | cons n ns ih =>
    rw [List.pairwise_cons] at rising
    unfold eachLane at pass ⊢
    split at pass
    · next v t one =>
      have last : vals.put n v = vals ++ [(n, v)] := Assoc.put_last (fun j on => above j on n (List.mem_cons_self ..)) v
      have keys : (vals.put n v).keys = vals.keys ++ [n] := by rw [last, Assoc.keys, List.map_append]; rfl
      rw [ih rising.2 (fun j on m later => ?_) pass, keys, List.append_assoc]
      · rfl
      · rw [keys, List.mem_append, List.mem_singleton] at on
        rcases on with on | rfl
        · exact above j on m (List.mem_cons_of_mem _ later)
        · exact rising.1 m later
    · exact absurd pass (eachLane_fails ns (Assoc.put_ne_nil _ _ _))

theorem Env.eachLane_keys {e : Env} {s : State} (pass : (eachLane f e.lanes s [] []).2.2 = []) : (eachLane f e.lanes s [] []).2.1.keys = e.lanes :=
  Sys2Proof.Machine.eachLane_keys (pairwise_lanesOf e.act) (fun _ on => nomatch (show _ ∈ [] from on)) pass

theorem eachLane_sound {P : State → State → Prop} (refl : ∀ s, P s s) (trans : ∀ {s t u}, P s t → P t u → P s u)
    (one : ∀ s n, P s (f s n).2) (ns : List Nat) (s : State) (vals : Assoc α) (fails : Assoc TrapRec) : P s (eachLane f ns s vals fails).1 := by
  induction ns generalizing s vals fails with
  | nil => exact refl s
  | cons n ns ih =>
    have first := one s n
    unfold eachLane
    split
    · next same => rw [same] at first; exact trans first (ih ..)
    · next same => rw [same] at first; exact trans first (ih ..)

end

theorem Env.dsetLane_gangs (e : Env) (s : State) (lane : Nat) : (e.dsetLane s lane).2.gangs = s.gangs := by
  unfold Env.dsetLane
  dsimp only
  split
  · rfl
  split
  · rfl
  next d new t found =>
  have first := State.duneFor_gangs found
  split
  · exact first
  · split
    · rfl
    · exact first

theorem Env.dset_keeps (e : Env) (ns : List Nat) (s : State) (vals : Assoc Word) (fails : Assoc TrapRec) :
    e.Keeps s (eachLane e.dsetLane ns s vals fails).1 :=
  eachLane_sound (.refl e) .trans (fun s n => .of_gangs (e.dsetLane_gangs s n)) ..

theorem exec_dset (p : Pfx) (l : Lf) (d : Opnd) (a b c : Hs) (s : State) : exec (.dset p l d a b c) s = run (.dset p l d a b c) s fun e s =>
    if e.lanes.any fun n => badConfig e.width (e.pair 2 n) then .raise s (e.insn .duneOperand)
    else
      let r := eachLane e.dsetLane e.lanes s [] []
      e.part (e.launchOp ((e.settle r.1 (maskOf r.2.1.keys) r.2.2.isEmpty).writeReg e.x d 1 r.2.1.keys e.nib fun n => [r.2.1.getD n 0#32])
        (maskOf r.2.1.keys)) r.2.2 := rfl

/-- No lane's operand is bad. -/
theorem Env.none_bad {e : Env} {bad : Nat → Bool} (good : ∀ k, e.act.getLsbD k = true → bad k = false) : ¬ (e.lanes.any bad) = true := by
  rw [List.any_eq_true]
  rintro ⟨k, on, wrong⟩
  rw [good k (mem_lanesOf.1 on)] at wrong
  cases wrong

theorem deliversTo_dset (p : Pfx) (l : Lf) (d : Opnd) (a b c : Hs) : DeliversTo (.dset p l d a b c)
    (fun s e => (∀ k, e.act.getLsbD k = true → badConfig e.width (e.pair 2 k) = false) ∧ (eachLane e.dsetLane e.lanes (e.awake s) [] []).2.2 = [])
    (fun e s => (eachLane e.dsetLane e.lanes (e.awake s) [] []).1)
    fun s e => e.longResult d 1 fun k => [(eachLane e.dsetLane e.lanes (e.awake s) [] []).2.1.getD k 0#32] := by
  refine deliversTo_at (exec_dset p l d a b c) (fun s e _ _ ⟨good, pass⟩ => ?_)
    (fun s e ready _ => (e.dset_keeps ..).base (Env.Base.of_ready ready).awake) (fun _ _ => .inl rfl) fun _ _ _ => Option.some_ne_none l
  have awake := (e.dset_keeps e.lanes (e.awake s) [] []).awake (e.awake_awake s)
  rw [if_neg (Env.none_bad good), awake]
  dsimp only
  rw [Env.eachLane_keys pass, pass, maskOf_lanes, Env.launchOp_eq, Env.deliver]
  simp only [Env.flags_zero, Env.longResult, Env.putDst, Env.putPred, if_true, List.isEmpty_nil]
  rfl

/-! ### Spill rings (13:R320) -/

theorem State.xlat_gangs (s : State) (x : Site) (core owner : Nat) (kind : AccKind) (va : DWord) :
    (s.xlat x core owner kind va).2.gangs = s.gangs :=
  State.xlat_keeps State.gangs (fun _ _ => rfl) State.pmEvent_gangs s x core owner kind va

/-- Translations of the pages of a ring keep a part of the state that memory and event counters have no part in. -/
theorem Env.pagesFail_keeps {β : Type} (φ : State → β) (mem : ∀ s m, φ (s.setMem m) = φ s) (event : ∀ s g a k w, φ (State.pmEvent s g a k w) = φ s)
    (e : Env) (n : Nat) (va : DWord) (s : State) : φ (e.pagesFail n va s).2 = φ s := by
  induction n generalizing va s with
  | zero => rfl
  | succ n ih =>
    have one := State.xlat_keeps φ mem event s e.x e.core e.l.owner .write va
    unfold Env.pagesFail
    split
    · next same => rw [same] at one; exact one
    · next same => rw [same] at one; exact (ih _ _).trans one

theorem Env.dspillLane_gangs (e : Env) (s : State) (lane : Nat) : (e.dspillLane s lane).2.gangs = s.gangs := by
  unfold Env.dspillLane
  dsimp only
  split
  · rfl
  split
  · rfl
  next d new t found =>
  have first := State.duneFor_gangs found
  have pages {n : Nat} {va : DWord} {r : Option (XFault × DWord) × State} (same : e.pagesFail n va t = r) : r.2.gangs = s.gangs := by
    rw [← same, e.pagesFail_keeps State.gangs (fun _ _ => rfl) State.pmEvent_gangs, first]
  split
  · rfl
  split
  · rfl
  split
  · rfl
  · next same =>
    split <;> exact pages same

theorem Env.dspill_keeps (e : Env) (ns : List Nat) (s : State) (vals : Assoc Unit) (fails : Assoc TrapRec) :
    e.Keeps s (eachLane e.dspillLane ns s vals fails).1 :=
  eachLane_sound (.refl e) .trans (fun s n => .of_gangs (e.dspillLane_gangs s n)) ..

theorem exec_dspill (p : Pfx) (l : Lf) (a b c : Hs) (s : State) : exec (.dspill p l a b c) s = run (.dspill p l a b c) s fun e s =>
    if e.lanes.any fun n => badRing (e.pair 2 n) then .raise s (e.insn .duneOperand)
    else
      let r := eachLane e.dspillLane e.lanes s [] []
      e.part (e.launchOp (e.settle r.1 (maskOf r.2.1.keys) r.2.2.isEmpty) (maskOf r.2.1.keys)) r.2.2 := rfl

theorem deliversTo_dspill (p : Pfx) (l : Lf) (a b c : Hs) : DeliversTo (.dspill p l a b c)
    (fun s e => (∀ k, e.act.getLsbD k = true → badRing (e.pair 2 k) = false) ∧ (eachLane e.dspillLane e.lanes (e.awake s) [] []).2.2 = [])
    (fun e s => (eachLane e.dspillLane e.lanes (e.awake s) [] []).1) fun _ _ => { long := true } := by
  refine deliversTo_at (exec_dspill p l a b c) (fun s e _ _ ⟨good, pass⟩ => ?_)
    (fun s e ready _ => (e.dspill_keeps ..).base (Env.Base.of_ready ready).awake) (fun _ _ => .inr rfl) fun _ _ _ => Option.some_ne_none l
  have awake := (e.dspill_keeps e.lanes (e.awake s) [] []).awake (e.awake_awake s)
  rw [if_neg (Env.none_bad good), awake]
  dsimp only
  rw [Env.eachLane_keys pass, pass, maskOf_lanes, e.deliver_flight]
  rfl

/-! ### Configuration and ring of one lane's dune -/

theorem Effect.dune? {e : Env} {s t : State} {o : Out} (effect : Effect e s t o) (l d : Nat) : t.dune? l d = s.dune? l d := by
  unfold State.dune? State.launch?
  rw [effect.rest.launches]

/-- A condition of the one active lane. -/
theorem Env.of_one_lane {e : Env} {k : Nat} (one : e.lanes = [k]) {p : Nat → Prop} (here : p k) : ∀ j, e.act.getLsbD j = true → p j := fun j on => by
  have : j ∈ e.lanes := mem_lanesOf.2 on
  rw [one, List.mem_singleton] at this
  rwa [this]

/-- 13:R316. A dune without items takes its configuration word. -/
theorem exec_dset_one {p : Pfx} {l : Lf} {d : Opnd} {a b c : Hs} {s : State} {e : Env} {k n : Nat} {w : Launch} {u : Dune}
    (ready : Ready (.dset p l d a b c) s e) (one : e.lanes = [k]) (entry : badEntry (e.pair 0 k) = false)
    (good : badConfig e.width (e.pair 2 k) = false) (launch : s.launch? e.g.launch = some w)
    (found : w.findDune (e.pair 0 k) (e.word 1 k) = some n) (dune : w.dunes.get? n = some u) (empty : u.items = []) :
    ∃ v, exec (.dset p l d a b c) s = .next v ∧ v.mem = s.mem ∧ v.dune? e.g.launch n = some { u with cfg := e.pair 2 k } := by
  have awakeLaunch : (e.awake s).launch? e.g.launch = some w := launch
  have lane : e.dsetLane (e.awake s) k =
      (.ok (0#1 ++ BitVec.ofNat 31 n), (e.awake s).updDune e.g.launch n fun u => { u with cfg := e.pair 2 k }) := by
    unfold Env.dsetLane
    simp only [entry, Bool.false_eq_true, if_false, State.duneFor_found awakeLaunch found, State.dune?_of_launch awakeLaunch, dune, Dune.count, empty,
      List.length_nil, ne_eq, not_true_eq_false, decide_false, Bool.false_and]
    rfl
  have all : eachLane e.dsetLane e.lanes (e.awake s) [] [] =
      ((e.awake s).updDune e.g.launch n (fun u => { u with cfg := e.pair 2 k }), [(k, 0#1 ++ BitVec.ofNat 31 n)], []) := by
    rw [one, eachLane, lane]
    rfl
  obtain ⟨v, runs, effect⟩ := deliversTo_dset p l d a b c s e ready
    ⟨Env.of_one_lane (p := fun j => badConfig e.width (e.pair 2 j) = false) one good, by rw [all]⟩
  beta_reduce at effect
  rw [all] at effect
  refine ⟨v, runs, effect.rest.mem, ?_⟩
  rw [effect.dune?, State.dune?_updDune, State.dune?_of_launch awakeLaunch, dune]
  rfl

/-- 13:R320. A dune without items takes its ring word, once every page of the ring can be written. -/
theorem exec_dspill_one {p : Pfx} {l : Lf} {a b c : Hs} {s m : State} {e : Env} {k n : Nat} {w : Launch} {u : Dune}
    (ready : Ready (.dspill p l a b c) s e) (one : e.lanes = [k]) (entry : badEntry (e.pair 0 k) = false) (good : badRing (e.pair 2 k) = false)
    (launch : s.launch? e.g.launch = some w) (found : w.findDune (e.pair 0 k) (e.word 1 k) = some n) (dune : w.dunes.get? n = some u)
    (empty : u.items = []) (pages : e.pagesFail (if ((e.pair 2 k).extractLsb' 0 5).toNat = 0 then 0
      else (64 * 2 ^ ((e.pair 2 k).extractLsb' 0 5).toNat + 4095) / 4096) (e.pair 2 k &&& ~~~0xFFF#64) (e.awake s) = (none, m)) :
    ∃ v, exec (.dspill p l a b c) s = .next v ∧ v.mem = m.mem ∧
      v.dune? e.g.launch n = some { u with ring := e.pair 2 k, ringPos := 0, ringFault := none } := by
  have awakeLaunch : (e.awake s).launch? e.g.launch = some w := launch
  have ringed : u.ringed = [] := (List.append_eq_nil_iff.1 empty).2
  have after : m.launches = s.launches := by
    rw [show m = _ from (congrArg Prod.snd pages).symm, e.pagesFail_keeps State.launches (fun _ _ => rfl) State.pmEvent_launches]
    rfl
  have lane : e.dspillLane (e.awake s) k =
      (.ok (), m.updDune e.g.launch n fun u => { u with ring := e.pair 2 k, ringPos := 0, ringFault := none }) := by
    unfold Env.dspillLane
    simp only [entry, Bool.false_eq_true, if_false, State.duneFor_found awakeLaunch found, State.dune?_of_launch awakeLaunch, dune, ringed,
      List.isEmpty_nil, Bool.not_true, false_and, pages]
  have all : eachLane e.dspillLane e.lanes (e.awake s) [] [] =
      (m.updDune e.g.launch n (fun u => { u with ring := e.pair 2 k, ringPos := 0, ringFault := none }), [(k, ())], []) := by
    rw [one, eachLane, lane]
    rfl
  obtain ⟨v, runs, effect⟩ := deliversTo_dspill p l a b c s e ready
    ⟨Env.of_one_lane (p := fun j => badRing (e.pair 2 j) = false) one good, by rw [all]⟩
  beta_reduce at effect
  rw [all] at effect
  have before : m.dune? e.g.launch n = some u := by
    rw [← dune, ← State.dune?_of_launch launch]
    unfold State.dune? State.launch?
    rw [after]
  refine ⟨v, runs, effect.rest.mem, ?_⟩
  rw [effect.dune?, State.dune?_updDune, before]
  rfl

/-! ### Reads (13:R317) -/

/-- The entries of a table after a change of one: the others, and that one changed. -/
theorem Assoc.mem_of_upd {α : Type} {t : Assoc α} {k : Nat} {f : α → α} {p : Nat × α} (on : p ∈ t) :
    p ∈ t.upd k f ∨ (p.1 = k ∧ (k, f p.2) ∈ t.upd k f) := by
  unfold Assoc.upd
  split
  · exact .inl on
  · next x here =>
    suffices h : ∀ y, p ∈ t.put k y ∨ (p = (k, x) ∧ (k, y) ∈ t.put k y) by
      rcases h (f x) with kept | ⟨rfl, there⟩
      · exact .inl kept
      · exact .inr ⟨rfl, there⟩
    intro y
    induction t with
    | nil => cases on
    | cons q t ih =>
      unfold Assoc.put
      unfold Assoc.get? at here
      split
      · next first =>
        rw [if_pos first] at here
        rcases List.mem_cons.1 on with rfl | later
        · exact .inr ⟨Prod.ext first.symm (Option.some.inj here), List.mem_cons_self ..⟩
        · exact .inl (List.mem_cons_of_mem _ later)
      · next other =>
        rw [if_neg other] at here
        split
        · exact .inl (List.mem_cons_of_mem _ on)
        · rcases List.mem_cons.1 on with rfl | later
          · exact .inl (List.mem_cons_self ..)
          · exact (ih later here).imp (List.mem_cons_of_mem _) fun ⟨same, there⟩ => ⟨same, List.mem_cons_of_mem _ there⟩

/-- Gangs and their threads are as before the path woke. -/
theorem Env.mem_gangs_awake {e : Env} {s : State} (φ : Nat × Gang → Bool) (ψ : Nat × Gang → List (List Nat))
    (keepsφ : ∀ n (g : Gang), φ (n, g.updCtx e.x.access fun c => c.wake c.path) = φ (n, g))
    (keepsψ : ∀ n (g : Gang), ψ (n, g.updCtx e.x.access fun c => c.wake c.path) = ψ (n, g)) (l : List Nat) :
    l ∈ (((e.awake s).gangs.filter φ).map ψ).flatten ↔ l ∈ ((s.gangs.filter φ).map ψ).flatten := by
  simp only [List.mem_flatten, List.mem_map, List.mem_filter]
  have gangs : (e.awake s).gangs = s.gangs.upd e.x.gang fun g => g.updCtx e.x.access fun c => c.wake c.path := rfl
  constructor
  · rintro ⟨_, ⟨⟨n, g⟩, ⟨on, holds⟩, rfl⟩, within⟩
    rcases Assoc.mem_upd (gangs ▸ on) with kept | ⟨x, there, same⟩
    · exact ⟨_, ⟨_, ⟨kept, holds⟩, rfl⟩, within⟩
    · cases same
      exact ⟨_, ⟨_, ⟨there, (keepsφ ..).symm.trans holds⟩, rfl⟩, (keepsψ ..) ▸ within⟩
  · rintro ⟨_, ⟨⟨n, g⟩, ⟨on, holds⟩, rfl⟩, within⟩
    rcases Assoc.mem_of_upd (k := e.x.gang) (f := fun g => g.updCtx e.x.access fun c => c.wake c.path) on with kept | ⟨rfl, there⟩
    · exact ⟨_, ⟨_, ⟨gangs ▸ kept, holds⟩, rfl⟩, within⟩
    · exact ⟨_, ⟨_, ⟨gangs ▸ there, (keepsφ ..).trans holds⟩, rfl⟩, (keepsψ ..).symm ▸ within⟩

/-- Whether an item may leave its dune does not depend on whether the path is awake. -/
theorem Env.itemPasses_awake (e : Env) (s : State) (l : Nat) (w : Launch) (d : Nat) (skip : Nat → Nat → Bool) (x : Item) :
    (e.awake s).itemPasses l w d skip x = s.itemPasses l w d skip x := by
  unfold State.itemPasses
  rw [Bool.eq_iff_iff, List.all_eq_true, List.all_eq_true]
  refine forall_congr' fun p => imp_congr_left ?_
  unfold State.pendingLins
  dsimp only
  rw [List.mem_append, List.mem_append, List.mem_append, List.mem_append]
  refine or_congr_left (or_congr_right (e.mem_gangs_awake (fun g => decide (g.2.launch = l)) _ (fun n g => ?_) (fun n g => ?_) p))
  · cases e.x.access <;> rfl
  · cases e.x.access <;> rfl

theorem Env.duneReady_awake (e : Env) (s : State) (l : Nat) (w : Launch) (d : Nat) (u : Dune) :
    (e.awake s).duneReady l w d u = s.duneReady l w d u := by
  have batch : (e.awake s).batchSize l w d u = s.batchSize l w d u := by
    unfold State.batchSize
    simp only [e.itemPasses_awake]
  unfold State.duneReady
  rw [batch]
  rfl

theorem Env.duneWords_awake (e : Env) (s : State) (l : Nat) (entry : DWord) (key : Word) :
    (e.awake s).duneWords l entry key = s.duneWords l entry key := by
  have aged (w : Launch) (d : Nat) (u : Dune) : (e.awake s).duneAged l w d u = s.duneAged l w d u := by
    unfold State.duneAged
    rw [e.duneReady_awake]
    rfl
  unfold State.duneWords
  simp only [e.duneReady_awake, aged]
  rfl

theorem delivers_dget (p : Pfx) (l : Lf) (d : Opnd) (a b : Hs) :
    Delivers (.dget p l d a b) fun s e => e.longResult d 4 fun k => s.duneWords e.g.launch (e.pair 0 k) (e.word 1 k) :=
  delivers_long (.dst d 4 .addr) rfl rfl rfl (Option.some_ne_none l) (fun _ => rfl) fun s e => funext fun _ => e.duneWords_awake s ..

/-! ### Drain marks (13:R319) -/

theorem State.unmark_setGangs (s : State) (l d : Nat) (t : Assoc Gang) : (s.setGangs t).unmark l d = (s.unmark l d).setGangs t := by
  have dune : (s.setGangs t).dune? l d = s.dune? l d := rfl
  have launch : (s.setGangs t).launch? l = s.launch? l := rfl
  unfold State.unmark
  rw [dune, launch]
  split
  · split
    · rfl
    · split <;> rfl
  · rfl

theorem Env.ddrainLane_awake (e : Env) (s : State) (k : Nat) : e.ddrainLane (e.awake s) k = e.awake (e.ddrainLane s k) := by
  have launch : (e.awake s).launch? e.g.launch = s.launch? e.g.launch := rfl
  have unmark (t : State) (l d : Nat) : (e.awake t).unmark l d = e.awake (t.unmark l d) := by
    have gangs : (t.unmark l d).gangs = t.gangs := by
      obtain ⟨L, same⟩ := t.unmark_setLaunches l d
      rw [same]
      rfl
    show (t.setGangs _).unmark l d = (t.unmark l d).setGangs ((t.unmark l d).gangs.upd _ _)
    rw [State.unmark_setGangs, gangs]
  unfold Env.ddrainLane
  rw [launch, e.awake_thread?]
  split
  · split
    · rfl
    · split
      · exact unmark (s.updDune ..) ..
      · rfl
  · rfl

theorem Env.ddrainLane_gangs (e : Env) (s : State) (k : Nat) : (e.ddrainLane s k).gangs = s.gangs := by
  unfold Env.ddrainLane
  split
  · split
    · rfl
    · split
      · obtain ⟨L, same⟩ := State.unmark_setLaunches (s.updDune e.g.launch _ _) e.g.launch _
        dsimp only
        rw [same]
        rfl
      · rfl
  · rfl

theorem exec_ddrain (p : Pfx) (l : Lf) (a b : Hs) (s : State) : exec (.ddrain p l a b) s =
    run (.ddrain p l a b) s fun e s => .done (e.settle (e.lanes.foldl e.ddrainLane s) e.act true) := rfl

theorem deliversTo_ddrain (p : Pfx) (l : Lf) (a b : Hs) :
    DeliversTo (.ddrain p l a b) (fun _ _ => True) (fun e s => e.lanes.foldl e.ddrainLane s) fun _ _ => {} := by
  refine deliversTo_at (exec_ddrain p l a b) (fun s e _ _ _ => ?_)
    (fun s e ready _ => (Env.Base.of_ready ready).foldl e.lanes _ fun s k base => base.of_gangs (e.ddrainLane_gangs s k))
    (fun _ _ => .inr rfl) fun _ _ long => nomatch long
  rw [e.deliver_empty, List.foldl_hom e.awake fun s k => e.ddrainLane_awake s k]

/-- Settles O30: enqueues, configurations and rings change what lies beside the gang before their sources are consumed; one lane's item, configuration
and ring are read off that change. -/
theorem duneInstructions : Obligations.DuneInstructions := by
  unfold Obligations.DuneInstructions
  refine ⟨fun p l pw a c u => ?spawn, fun p l pw a b c u => ?tokput, deliversTo_dset, deliversTo_dspill, delivers_dget, deliversTo_ddrain,
    fun p l pw a c s e k n t w u ready one => ?spawnOne, fun p l pw a b c s e k n t w u ready one => ?tokputOne,
    fun p l d a b c s e k n w u ready one entry good launch found dune empty => ?config,
    fun p l a b c s e k n w u ready one entry good none launch found dune empty => ?ringless,
    fun p l a b c s e k n w u m ready one entry good some launch found dune empty pages => ?ring⟩
  case spawn => exact deliversTo_enqueue (key := fun _ _ => 0#32) (exec_spawn p l pw a c) (Option.some_ne_none l) u
  case tokput => exact deliversTo_enqueue (key := fun e => e.word 1) (exec_tokput p l pw a b c) (Option.some_ne_none l) u
  case spawnOne => exact exec_enqueue_one (key := fun _ _ => 0#32) (exec_spawn p l pw a c) (Option.some_ne_none l) ready one
  case tokputOne => exact exec_enqueue_one (key := fun e => e.word 1) (exec_tokput p l pw a b c) (Option.some_ne_none l) ready one
  case config => exact exec_dset_one ready one entry good launch found dune empty
  case ringless =>
    have zero : ((e.pair 2 k).extractLsb' 0 5).toNat = 0 := by rw [none]; rfl
    exact exec_dspill_one (m := e.awake s) ready one entry good launch found dune empty (by rw [if_pos zero]; rfl)
  case ring =>
    have large : ((e.pair 2 k).extractLsb' 0 5).toNat ≠ 0 := fun zero => some (BitVec.eq_of_toNat_eq zero)
    exact exec_dspill_one ready one entry good launch found dune empty (by rw [if_neg large]; exact pages)

end Sys2Proof.Machine
end

section
/-! PROOF. Counters (17:R403 to R412): what the end of an instruction counts, and what counter instructions change of their group. -/

namespace Sys2Proof.Machine

/-! ### Groups through the end of an instruction -/

theorem foldl_keeps {α β : Type} (φ : State → β) {f : State → α → State} (keeps : ∀ s x, φ (f s x) = φ s) (xs : List α) (s : State) :
    φ (xs.foldl f s) = φ s := by
  induction xs generalizing s with
  | nil => rfl
  | cons x xs ih => exact (ih _).trans (keeps s x)

namespace State
variable (s : State)

@[simp] theorem onKey_groups (key : BitVec 10) (pa : Nat) : (s.onKey key pa).groups = s.groups := setMem_groups ..
@[simp] theorem ancFlags_groups (pa : Nat) : (s.ancFlags pa).groups = s.groups := setMem_groups ..
@[simp] theorem spillWalk_groups : s.spillWalk.groups = s.groups := setMem_groups ..
@[simp] theorem monTouch_groups (slice ent : Nat) : (s.monTouch slice ent).groups = s.groups := by
  unfold monTouch
  grind [freshId, setNextId_groups, spillWalk_groups, setHome_groups, ancFlags_groups]
@[simp] theorem ancTouch_groups (pa : Nat) : (s.ancTouch pa).groups = s.groups := by
  unfold ancTouch
  grind [ancFlags_groups, setHome_groups, monTouch_groups]
@[simp] theorem acquire_groups (pa : Nat) (va : DWord) (g lane : Nat) (capa exit resume : DWord) :
    (s.acquire pa va g lane capa exit resume).groups = s.groups := by
  unfold acquire
  grind [setMem_groups, updThread_groups, ancTouch_groups]
@[simp] theorem adopt_groups (pa : Nat) (va : DWord) (g lane : Nat) (capa exit : DWord) : (s.adopt pa va g lane capa exit).groups = s.groups := by
  unfold adopt
  grind [setMem_groups, updThread_groups, updCtx_groups, ancTouch_groups]
@[simp] theorem selectPath_groups (x : Site) : (s.selectPath x).groups = s.groups := rfl
@[simp] theorem leaveFifo_groups (pa : Nat) (c : Contender) : (s.leaveFifo pa c).groups = s.groups := rfl
@[simp] theorem holderDone_groups (g lane : Nat) : (s.holderDone g lane).groups = s.groups := rfl
@[simp] theorem grant_groups (pa : Nat) (c : Contender) (adopting : Bool) : (s.grant pa c adopting).groups = s.groups := by
  unfold grant
  grind [leaveFifo_groups, onKey_groups, updCtx_groups, adopt_groups, acquire_groups, selectPath_groups, holderDone_groups]
@[simp] theorem stallAnchor_groups (g lane : Nat) : (s.stallAnchor g lane).groups = s.groups := by
  unfold stallAnchor
  grind [setMem_groups, ancTouch_groups, grant_groups]
@[simp] theorem stopStepped_groups (x : Site) (split : Ctx → Ctx) : (s.stopStepped x split).groups = s.groups := by
  unfold stopStepped
  dsimp only
  split
  · rfl
  · split
    · rfl
    · exact foldl_keeps State.groups (fun s h => s.stallAnchor_groups x.gang h) _ _
@[simp] theorem endGrant_groups (x : Site) : (s.endGrant x).groups = s.groups := by
  unfold endGrant
  split <;> rfl

end State

namespace Env
variable (e : Env) (s : State)

@[simp] theorem closeClause_groups (f split : Ctx → Ctx) : (e.closeClause s f split).groups = s.groups := by
  have yield : (if e.cur.hdr.yld then s.goLast e.pipe (e.g.level e.x.access) e.x.gang else s).groups = s.groups := by split <;> rfl
  unfold closeClause
  grind [State.endGrant_groups, State.updCtx_groups, State.setAgenda_groups, State.stopStepped_groups]

@[simp] theorem advance_groups : (e.advance s).groups = s.groups := by
  unfold advance
  split
  · rfl
  · split
    · exact e.closeClause_groups s _ _
    · rfl

/-- The events of an instruction's issue are all that its end counts (17:R404). -/
theorem finish_group? : (e.finish s).group? e.g.group = (s.group? e.g.group).map fun g => g.issueEvents e := by
  have spun (t : State) : (if Env.spinning e.g then t else t.updCtx e.x fun c => { c with since := 0, aged := false }).groups = t.groups := by
    split <;> rfl
  have issued : (e.issued s).groups = (e.event (e.passed s) 0x08 (if e.act = 0#64 then 0 else e.losses)).groups := by
    unfold Env.issued
    dsimp only
    exact (spun _).trans rfl
  have counted : (e.finish s).groups = (e.event (e.passed s) 0x08 (if e.act = 0#64 then 0 else e.losses)).groups := by
    unfold finish
    rw [State.selectPath_groups, e.advance_groups, issued]
  rw [State.group?, counted]
  show ((e.passed s).updGroup e.g.group _).group? e.g.group = _
  rw [State.group?_updGroup]
  unfold Env.passed Env.event
  rw [State.group?_updGroup, Option.map_map]
  rfl

end Env

/-! ### Deliveries leave groups alone -/

theorem Does.group? {x : Site} {F : Ctx → Ctx} {Q : Nat → Nat → List QEnt → List QEnt} {C : Nat → Nat → Word → Word} {s t : State}
    (does : Does x F Q C s t) (k : Nat) : t.group? k = s.group? k := by
  obtain ⟨f, one, -⟩ := does
  unfold State.group?
  rw [one.groups]

/-- A counter of a group is set. -/
def State.setCounter (s : State) (k n : Nat) (p : PerfCtr) : State := s.updGroup k fun g => { g with pm := g.pm.put n p }

theorem State.setCounter_moves (s : State) (k n : Nat) (p : PerfCtr) (x : Site) (m : Mask) : Moves x m s (s.setCounter k n p) := by
  constructor
  case groups =>
    intro j
    unfold State.setCounter
    by_cases here : j = k
    · subst here
      rw [State.group?_updGroup, Option.map_map]
      rfl
    · rw [State.group?_updGroup_ne _ _ here]
  all_goals intros; rfl

theorem State.setCounter_group? (s : State) (k n : Nat) (p : PerfCtr) :
    (s.setCounter k n p).group? k = (s.group? k).map fun g => { g with pm := g.pm.put n p } := State.group?_updGroup ..

/-! ### Reads -/

theorem delivers_tick (p : Pfx) (l : Lf) (w : Bool) (d : Opnd) : Delivers (.tick p l w d) fun s e =>
    e.longResult d (if w then 2 else 1) fun _ => dwords (BitVec.ofNat 64 (s.tick (clusterOf e.core))) :=
  delivers_long (.dst d (if w then 2 else 1) .plain) rfl rfl rfl (Option.some_ne_none l) (fun _ => rfl) fun _ _ => rfl

theorem delivers_enrd (p : Pfx) (l : Lf) (sel : BitVec 2) (d : Opnd) :
    Delivers (.enrd p l sel d) fun s e => e.longResult d 2 fun _ => dwords (e.energyOf s sel) :=
  delivers_long (.dst d 2 .plain) rfl rfl rfl (Option.some_ne_none l) (fun _ => rfl) fun _ _ => rfl

/-- The meaning of `pmrd`. -/
def Env.pmrdBody (n : BitVec 2) (sel : BitVec 4) (clr : Bool) (e : Env) (s : State) : Res :=
  match e.nib, (if clr then s else e.passed s).group? e.g.group with
  | some _, some g =>
    e.longWrite (if clr then s.updGroup e.g.group fun h => { h with pm := h.pm.put n.toNat (PerfCtr.clear (g.counter n.toNat).sel) } else s)
      fun _ => dwords ((g.counter n.toNat).field sel.toNat)
  | _, _ => .done s

theorem exec_pmrd (p : Pfx) (l : Lf) (n : BitVec 2) (sel : BitVec 4) (clr : Bool) (d : Opnd) (s : State) :
    exec (.pmrd p l n sel clr d) s = run (.pmrd p l n sel clr d) s (Env.pmrdBody n sel clr) := rfl

/-- 17:R407. A read without CLR sees the passes of its own instruction. -/
theorem deliversTo_pmrd (p : Pfx) (l : Lf) (n : BitVec 2) (sel : BitVec 4) (d : Opnd) (g : Group) :
    DeliversTo (.pmrd p l n sel false d) (fun s e => e.act ≠ 0#64 ∧ s.group? e.g.group = some g) (fun _ s => s)
      fun _ e => e.longResult d 2 fun _ => dwords (((g.event 0x04 e.passes (some e.x.access)).counter n.toNat).field sel.toNat) := by
  refine deliversTo_at (exec_pmrd p l n sel false d) (fun s e _ spec ⟨active, group⟩ => ?_) (fun _ _ ready _ => .of_ready ready)
    (fun _ _ => .inl rfl) fun _ _ _ => Option.some_ne_none l
  obtain ⟨k, nib⟩ := Env.nib_of_active spec active
  have last : e.uses.getLast? = some (.dst d 2 .plain) := by rw [Env.uses, spec.instr]; rfl
  have passed : (e.passed (e.awake s)).group? e.g.group = some (g.event 0x04 e.passes (some e.x.access)) := by
    unfold Env.passed Env.event
    rw [State.group?_updGroup, show (e.awake s).group? e.g.group = some g from group]
    rfl
  unfold Env.pmrdBody
  simp only [nib, Bool.false_eq_true, if_false, passed]
  rw [Env.longWrite_eq last]
  rfl

/-- Without lanes nothing is delivered. -/
theorem deliversTo_none {i : Instr} {body : Env → State → Res} (runs : ∀ s, exec i s = run i s body)
    (idle : ∀ (e : Env) (s : State), e.nib = none → body e s = .done s) : DeliversTo i (fun _ e => e.nib = none) (fun _ s => s) fun _ _ => {} := by
  refine deliversTo_at runs (fun s e _ spec nib => ?_) (fun _ _ ready _ => .of_ready ready) (fun _ _ => .inr rfl) fun _ _ long => nomatch long
  have inactive : e.act = 0#64 := by
    by_contra active
    obtain ⟨k, here⟩ := Env.nib_of_active spec active
    rw [nib] at here
    cases here
  rw [idle e _ nib, e.deliver_empty, Env.settle_of_act_zero inactive]

/-! ### Counters that change -/

/-- The counters of the group of an instruction that changes them, once its own issue is counted. -/
theorem Env.pm_of_finish {e : Env} {s d : State} {g : Group} {pm : Assoc PerfCtr} (group : s.group? e.g.group = some g)
    (same : d.group? e.g.group = (s.group? e.g.group).map fun g => { g with pm := pm }) :
    ((e.finish d).group? e.g.group).map (·.pm) = some (({ g with pm := pm }).issueEvents e).pm := by
  rw [e.finish_group?, same, group]
  rfl

/-- 17:R406, R407. A read with CLR comes before its own passes, and clears all but the selector. -/
theorem exec_pmrd_clear {p : Pfx} {l : Lf} {n : BitVec 2} {sel : BitVec 4} {d : Opnd} {g : Group} {s : State} {e : Env}
    (ready : Ready (.pmrd p l n sel true d) s e) (active : e.act ≠ 0#64) (group : s.group? e.g.group = some g) :
    ∃ t, exec (.pmrd p l n sel true d) s = .next t ∧ Effect e s t (e.longResult d 2 fun _ => dwords ((g.counter n.toNat).field sel.toNat)) ∧
      (t.group? e.g.group).map (·.pm) = some (({ g with pm := g.pm.put n.toNat (PerfCtr.clear (g.counter n.toNat).sel) }).issueEvents e).pm := by
  have spec := env?_spec ready.env
  obtain ⟨k, nib⟩ := Env.nib_of_active spec active
  have last : e.uses.getLast? = some (.dst d 2 .plain) := by rw [Env.uses, spec.instr]; rfl
  have body : Env.pmrdBody n sel true e (e.awake s) =
      .done (e.deliver (e.awake (s.setCounter e.g.group n.toNat (PerfCtr.clear (g.counter n.toNat).sel))) (e.longResult d 2 fun _ => dwords ((g.counter n.toNat).field sel.toNat))) := by
    unfold Env.pmrdBody
    simp only [nib, if_true, show (e.awake s).group? e.g.group = some g from group]
    rw [Env.longWrite_eq last]
    rfl
  have base : e.Base (s.setCounter e.g.group n.toNat (PerfCtr.clear (g.counter n.toNat).sel)) := (Env.Base.of_ready ready).of_gangs rfl
  have effect := e.effect_at spec base (e.longResult d 2 fun _ => dwords ((g.counter n.toNat).field sel.toNat)) e.lanes_nodup e.lanes_lt
    fun _ => by rw [spec.instr]; exact Option.some_ne_none l
  refine ⟨_, (exec_pmrd p l n sel true d s).trans (run_done ready.env ready.goes body), ?_, ?_⟩
  · exact effect.before (s.setCounter_moves e.g.group n.toNat _ e.x 0#64) fun _ => rfl
  · refine Env.pm_of_finish group ?_
    rw [(e.deliver_does _ _ e.lanes_nodup).group?]
    exact (s.setCounter_group? ..).trans (by rw [group]; rfl)

theorem exec_pmset (p : Pfx) (l : Lf) (n : BitVec 2) (a : Hs) (s : State) : exec (.pmset p l n a) s = run (.pmset p l n a) s fun e s =>
    match e.nib with
    | none => .done s
    | some k =>
      if !selectorOk (e.word 0 k) then .raise s { e.insn .reservedField with lanes := bit k }
      else .done ((e.settle s e.act true).updGroup e.g.group fun g => { g with pm := g.pm.put n.toNat (PerfCtr.clear (e.word 0 k)) }) := rfl

/-- 17:R405. A good selector gives the counter that selector, with the other fields reset. -/
theorem exec_pmset_sets {p : Pfx} {l : Lf} {n : BitVec 2} {a : Hs} {g : Group} {s : State} {e : Env} {k : Nat} (ready : Ready (.pmset p l n a) s e)
    (nib : e.nib = some k) (good : selectorOk (e.word 0 k) = true) (group : s.group? e.g.group = some g) :
    ∃ t, exec (.pmset p l n a) s = .next t ∧ Effect e s t {} ∧
      (t.group? e.g.group).map (·.pm) = some (({ g with pm := g.pm.put n.toNat (PerfCtr.clear (e.word 0 k)) }).issueEvents e).pm := by
  have spec := env?_spec ready.env
  have settled : (e.settle (e.awake s) e.act true).setCounter e.g.group n.toNat (PerfCtr.clear (e.word 0 k)) = e.deliver (e.awake (s.setCounter e.g.group n.toNat (PerfCtr.clear (e.word 0 k)))) {} := by
    rw [e.deliver_empty]
    exact (e.settle_updGroup (e.awake s) e.g.group _ e.act true).symm
  have base : e.Base (s.setCounter e.g.group n.toNat (PerfCtr.clear (e.word 0 k))) := (Env.Base.of_ready ready).of_gangs rfl
  have effect := e.effect_at spec base {} List.nodup_nil (fun _ on => nomatch on) fun long => nomatch long
  rw [← settled] at effect
  refine ⟨_, (exec_pmset p l n a s).trans (run_done ready.env ready.goes ?_),
    effect.before (s.setCounter_moves e.g.group n.toNat _ e.x 0#64) fun _ => rfl, Env.pm_of_finish group ?_⟩
  · simp only [nib, good, Bool.not_true, Bool.false_eq_true, if_false]
    rfl
  · rw [State.setCounter_group?, (e.settle_does (e.awake s) e.act true).group?]
    show (s.group? e.g.group).map _ = _
    rw [group]
    rfl

/-- 17:R406. The fields of a clear counter. -/
theorem PerfCtr.clear_field (w : Word) (sel : Nat) :
    (PerfCtr.clear w).field sel = if sel = 2 then BitVec.allOnes 64 else if sel = 12 then w.setWidth 64 else 0#64 := by
  unfold PerfCtr.field PerfCtr.clear
  split
  · rfl
  · rfl
  · rfl
  · rfl
  · rfl
  · next h0 h1 h2 h3 h12 =>
    rw [if_neg h2, if_neg h12]
    simp [Assoc.getD]

/-- Settles O38: the end of an instruction counts its issue in its group alone; counters are read before or after, and set before. -/
theorem counterInstructions : Obligations.CounterInstructions := by
  unfold Obligations.CounterInstructions
  refine ⟨delivers_tick, delivers_enrd, deliversTo_pmrd, fun p l n sel d g s e ready active group => exec_pmrd_clear ready active group,
    fun p l n sel clr d => deliversTo_none (exec_pmrd p l n sel clr d) fun e s nib => ?_,
    fun p l n a => deliversTo_none (exec_pmset p l n a) fun e s nib => ?_, fun p l n a s e k g ready nib good group => exec_pmset_sets ready nib good group,
    PerfCtr.clear_field⟩
  · unfold Env.pmrdBody
    rw [nib]
  · rw [nib]

end Sys2Proof.Machine
end


section
/-! PROOF. A wait at a barrier that the lanes of its path have all completed before (15:R376): a counterexample. -/

namespace Sys2Proof.Machine

/-- `barw` at barrier 0 of the group, with the phase that it waits for to pass in s6. -/
def awaitPhase : Instr := .barw ⟨none, none⟩ ⟨0, 0⟩ false 0 ⟨.s 6, .none⟩

/-- Lane 0, alone in the path, has completed the wait; the barrier's phase is 0, which does not lie after the operand 0. -/
def waitCompleted : State := matrixCompleted [(6, ⟨0#32, false, false⟩)]

/-- The environment of that wait. -/
def waitEnv : Env := (env? awaitPhase waitCompleted).get (by decide +kernel)

theorem waitEnv_ready : Ready awaitPhase waitCompleted waitEnv := ⟨(Option.some_get _).symm, by decide +kernel, by decide +kernel⟩

theorem waitEnv_lanes : waitEnv.nib = some 0 ∧ waitEnv.act = 0#64 := by decide +kernel

theorem waitEnv_waits : phasePast (waitCompleted.barOf waitEnv.g.group false (0#4).toNat).phase (waitEnv.word 0 0) = false := by decide +kernel

/-- The long form that the statement has on the barrier's entry, with the lanes that the wait has active: none. -/
def waitOp : Op := { loneOp 0 awaitPhase .none with lanes := 0#64, left := 0#64 }

theorem waitOp_matches : waitOp.gang = waitEnv.x.gang ∧ waitOp.left = waitEnv.act := by decide +kernel

theorem waitCompleted_flies {t : State} (run : exec awaitPhase waitCompleted = .next t) : t.flying = true :=
  nextPasses_spec (by decide +kernel) run

/-- Refutes O34: a nib and a phase that is not past do not make a lane active. The model's nib is the lowest of all lanes of the instruction, those
that have completed it before among them. Where they all have, no lane is active, and `barw` enters flight nevertheless; the statement's effect has
no flight without an active lane. -/
theorem not_barrierInstructions : ¬ Obligations.BarrierInstructions := by
  unfold Obligations.BarrierInstructions
  rintro ⟨-, -, -, -, -, waits, -⟩
  obtain ⟨nib, inactive⟩ := waitEnv_lanes
  obtain ⟨own, left⟩ := waitOp_matches
  obtain ⟨t, run, effect⟩ := waits _ _ _ _ _ 0 waitOp rfl waitCompleted waitEnv waitEnv_ready ⟨nib, waitEnv_waits, own, left⟩
  exact absurd (waitCompleted_flies run) (by rw [grounded_of_delivers effect inactive rfl]; exact Bool.false_ne_true)

end Sys2Proof.Machine
end


section
/-! PROOF. A load of a stroke whose context's wake is not the state's own table of gangs (12:R277): a counterexample. -/

namespace Sys2Proof.Machine

/-- A load of the word at c0 of the capsule page into c4. -/
def pageLoad : Instr := .ld ⟨none, none⟩ ⟨0, 0⟩ 4 (.c 4) ⟨⟨.c 0, .none⟩, none, 0, 0, 0⟩

/-- The stroke, without a store of its own. -/
def emptyStroke : Stroke := ⟨0, 0x100000#64, [], []⟩

/-- Lane 0 of the gang, alone in the path and in the stroke, holds the anchor at the end of a page; its offset is 0. The table of gangs is that of
`loadUnordered`, whose loads in flight have the numbers below 31. -/
def strokeUnordered : State :=
  (loadUnordered.setNextId 31).setGangs (loadUnordered.gangs.mapVal fun _ g =>
    { g with
      threads := [(0, { Thread.fresh 0#32 (linRoot 0 0 0 0) .no with link := { Link.zero with role := .owner, anc := 0x200F80, key := 1#10 } })]
      cctx := { g.cctx with stroke := some emptyStroke, cur := g.cctx.cur.map fun k => { k with hdr := { k.hdr with cap := true } } } })

/-- The environment of that load, and its thread. -/
def strokeEnv : Env := (env? pageLoad strokeUnordered).get (by decide +kernel)
def strokeThread : Thread := (strokeEnv.g.threads.get? 0).get (by decide +kernel)

theorem strokeEnv_ready : Ready pageLoad strokeUnordered strokeEnv := ⟨(Option.some_get _).symm, by decide +kernel, by decide +kernel⟩

theorem strokeEnv_active : strokeEnv.act ≠ 0#64 := by decide +kernel

theorem strokeEnv_strokes : strokeEnv.strokes strokeUnordered .read ⟨⟨.c 0, .none⟩, none, 0, 0, 0⟩ (ldSize 4) 0 0 emptyStroke strokeThread where
  on := by decide +kernel
  nib := by decide +kernel
  thread := (Option.some_get _).symm
  inside := by decide +kernel
  aligned := rfl
  relaxed := rfl
  clean := Or.inr (by decide +kernel)

theorem strokeEnv_room : strokeUnordered.lineOwned (lineOf 0#2 (strokeThread.pagePa 0)) = false ∧
    strokeUnordered.queueRecords strokeEnv.core < 2048 := by decide +kernel

theorem strokeEnv_offset : 0 = strokeEnv.strokeOfs ⟨⟨.c 0, .none⟩, none, 0, 0, 0⟩ 1 0 := by decide +kernel

/-- The wake of the path puts the gang where it belongs in the table and leaves the entry that it had: its records count twice, and the load waits. -/
theorem strokeUnordered_holds {t : State} (run : exec pageLoad strokeUnordered = .next t) : t.op? strokeUnordered.nextId = none :=
  Option.isNone_iff_eq_none.1 (nextPasses_spec (p := fun t => (t.op? strokeUnordered.nextId).isNone) (by decide +kernel) run)

/-- Refutes O33: as a load outside strokes, a load of a stroke counts the request records once its path has woken (12:R277), which in a table of gangs
whose keys do not rise, as no machine that starts from reset has it, are more than those of the state before, of which the statement speaks. It
waits for a record, and does not enter flight. -/
theorem not_capsulesOpenAndClose : ¬ Obligations.CapsulesOpenAndClose := by
  unfold Obligations.CapsulesOpenAndClose
  rintro ⟨-, -, -, loads, -⟩
  obtain ⟨owned, room⟩ := strokeEnv_room
  obtain ⟨t, run, effect⟩ := loads _ _ 4 _ _ 0 0 emptyStroke strokeThread strokeUnordered strokeEnv strokeEnv_ready
    ⟨strokeEnv_strokes, strokeEnv_offset, owned, room⟩
  obtain ⟨p, ops, -⟩ := (if_pos ⟨rfl, strokeEnv_active⟩).mp effect.ops
  have flies : t.op? strokeUnordered.nextId = some p := by
    rw [State.op?, ops]
    exact Assoc.get?_put_self _ strokeUnordered.nextId p
  rw [strokeUnordered_holds run] at flies
  cases flies

end Sys2Proof.Machine
end


section
/-! SUPPORT. The entry of a pending trap with nothing in flight: by its handler, by direct delegation, as a double trap (16:R383 to R386). -/

namespace Sys2Proof.Machine

namespace State

variable {s : State} {x : Site} {g : Gang} {c : Ctx} {t : TrapRec} {core n : Nat} {l : Launch}

/-- No thread of a gang holds an open capsule. -/
def unheld (s : State) (n : Nat) : Prop := ∀ g, s.gang? n = some g → g.holder? = none

theorem unheld_of_gang (gang : s.gang? n = some g) (none : g.holder? = none) : s.unheld n := fun _ same => by
  rw [gang] at same
  cases same
  exact none

theorem unheld.of_threads {u : State} (held : s.unheld n) (same : (u.gang? n).map Gang.threads = (s.gang? n).map Gang.threads) : u.unheld n := by
  intro g gang
  rw [gang] at same
  obtain ⟨g', gang', threads⟩ := Option.map_eq_some_iff.1 same.symm
  rw [Gang.holder?, Gang.holders, ← threads]
  exact held g' gang'

theorem stallGang_of_unheld (held : s.unheld n) : s.stallGang n = s := by
  unfold stallGang
  cases gang : s.gang? n with
  | none => rfl
  | some g =>
    have empty : g.holders = [] := List.head?_eq_none_iff.1 (held g gang)
    simp only [empty]
    rfl

theorem unstallGang_of_unheld (held : s.unheld n) : s.unstallGang n = s := by
  unfold unstallGang
  cases gang : s.gang? n with
  | none => rfl
  | some g =>
    have empty : g.holders = [] := List.head?_eq_none_iff.1 (held g gang)
    simp only [empty]
    rfl

theorem threads_updCtx (s : State) (x : Site) (F : Ctx → Ctx) (n : Nat) :
    ((s.updCtx x F).gang? n).map Gang.threads = (s.gang? n).map Gang.threads := by
  unfold updCtx
  rw [gang?_updGang']
  split
  · cases s.gang? n with
    | none => rfl
    | some g => simp only [Option.map_some, Gang.updCtx]; split <;> rfl
  · rfl

/-! ### The end of a reservation -/

theorem endGrant_keeps {β : Type} (φ : State → β) (dev : ∀ s d, φ (s.setDev d) = φ s) (ctx : ∀ s F, φ (s.updCtx x F) = φ s) (s : State) :
    φ (s.endGrant x) = φ s := by
  unfold endGrant
  split
  · rfl
  · exact (ctx _ _).trans (dev _ _)

theorem endGrant_ctx? (s : State) (x y : Site) :
    (s.endGrant x).ctx? y = if y = x then (s.ctx? y).map fun c => { c with vgrant := none } else s.ctx? y := by
  split
  · next same =>
    subst same
    exact (s.endGrant_moves y 0#64).2
  · next other =>
    unfold endGrant
    split
    · rfl
    · rw [ctx?_updCtx, if_neg other]
      rfl

theorem endGrant_quiet (s : State) (x : Site) : Quiet s (s.endGrant x) := by
  unfold endGrant
  split
  · exact .of_gangs rfl
  · next k _ _ =>
    have ended : Quiet s (s.arbEnd (s.clusterOfGang x.gang) k) := .of_gangs rfl
    exact ended.trans (.updCtx _ x fun _ => rfl)

theorem endGrant_gang (gang : s.gang? x.gang = some g) :
    ∃ h, (s.endGrant x).gang? x.gang = some h ∧ h.core = g.core ∧ h.launch = g.launch := by
  have core : ((s.endGrant x).gang? x.gang).map (fun g => (g.core, g.launch)) = some (g.core, g.launch) := by
    refine (endGrant_keeps (fun s => (s.gang? x.gang).map fun g => (g.core, g.launch)) (fun _ _ => rfl) (fun s F => ?_) s).trans (congrArg (Option.map fun g => (g.core, g.launch)) gang)
    unfold updCtx
    rw [gang?_updGang', if_pos rfl]
    cases s.gang? x.gang with
    | none => rfl
    | some g => simp only [Option.map_some, Gang.updCtx]; split <;> rfl
  obtain ⟨h, found, same⟩ := Option.map_eq_some_iff.1 core
  obtain ⟨hcore, hlaunch⟩ := Prod.mk.inj same
  exact ⟨h, found, hcore, hlaunch⟩

/-! ### Which trap comes first -/

theorem nextLate_of_late_nil (ctx : s.ctx? x = some c) (none : c.late = []) : s.nextLate x = s := by
  unfold nextLate
  simp only [ctx, none]

theorem nextLate_of_resume (ctx : s.ctx? x = some c) (replay : c.resume.isSome = true) : s.nextLate x = s := by
  unfold nextLate
  simp only [ctx]
  split
  · rfl
  · simp [replay]

/-! ### How it is taken -/

/-- A state in which a context has a permit and its handler, or is changed otherwise where it takes its trap. -/
def enters (s : State) (x : Site) (core : Nat) (F : Ctx → Ctx) : State :=
  (((s.endGrant x).takePermit core x).updCtx x F).pmEvent x.gang x.access 0x0B 1

theorem takePermit_gangs (s : State) (core : Nat) (x : Site) : (s.takePermit core x).gangs = s.gangs := by
  unfold takePermit
  split <;> rfl

theorem takePermit_launches (s : State) (core : Nat) (x : Site) : (s.takePermit core x).launches = s.launches := by
  unfold takePermit
  split <;> rfl

theorem takePermit_has (s : State) (core : Nat) (x : Site) : (s.takePermit core x).hasPermit x = true := by
  unfold takePermit
  split
  · assumption
  · simp [hasPermit]

theorem ctx?_of_gangs {u : State} (same : u.gangs = s.gangs) (y : Site) : u.ctx? y = s.ctx? y := by
  unfold ctx? gang?
  rw [same]

theorem pmEvent_cores (s : State) (g : Nat) (a : Bool) (code w : Nat) : (s.pmEvent g a code w).cores = s.cores := by
  unfold pmEvent
  split <;> rfl

theorem enters_ctx? (s : State) (x : Site) (core : Nat) (F : Ctx → Ctx) (y : Site) :
    (s.enters x core F).ctx? y = if y = x then (s.ctx? y).map fun c => F { c with vgrant := none } else s.ctx? y := by
  rw [enters, pmEvent_ctx?, ctx?_updCtx, ctx?_of_gangs (takePermit_gangs ..), endGrant_ctx?]
  split
  · exact Option.map_map ..
  · rfl

theorem enters_quiet (s : State) (x : Site) (core : Nat) {F : Ctx → Ctx} (regs : ∀ c, (F c).regs = c.regs) : Quiet s (s.enters x core F) :=
  (((s.endGrant_quiet x).trans (.of_gangs (takePermit_gangs ..))).trans (.updCtx _ x regs)).trans (.of_gangs (pmEvent_gangs ..))

theorem enters_mem (s : State) (x : Site) (core : Nat) (F : Ctx → Ctx) : (s.enters x core F).mem = s.mem := by
  rw [enters, pmEvent_mem, updCtx_mem, takePermit_mem]
  exact s.endGrant_keeps State.mem (fun _ _ => rfl) fun _ _ => rfl

theorem enters_permit (s : State) (x : Site) (core : Nat) (F : Ctx → Ctx) : (s.enters x core F).hasPermit x = true := by
  rw [enters, hasPermit, pmEvent_cores]
  exact takePermit_has ..

/-- Step 4 of 16:R384: a pending trap outside a trap enters its handler where a permit is free. -/
theorem tryEnter_handler (late : s.nextLate x = s) (gang : s.gang? x.gang = some g) (ctx : s.ctx? x = some c) (pend : c.pend = some t)
    (here : g.core = some core) (launch : s.launch? g.launch = some l) (held : s.unheld x.gang) (quiet : s.quiet x = true) (outside : c.tcg = 0#32)
    (permit : s.noPermit x core = false) (handler : ¬ (t.cause = 2 ∨ x.access = true)) :
    s.tryEnter x = s.enters x core fun c => c.enter t l.kern.tentry := by
  obtain ⟨h, gang', core', launch'⟩ := endGrant_gang gang
  have ctx' : (s.endGrant x).ctx? x = some { c with vgrant := none } := by rw [endGrant_ctx?, if_pos rfl, ctx]; rfl
  have quiet' : (s.endGrant x).quiet x = true := (s.endGrant_keeps (fun s => s.quiet x) (fun _ _ => rfl) fun _ _ => rfl).trans quiet
  have permit' : (s.endGrant x).noPermit x core = false :=
    (s.endGrant_keeps (fun s => s.noPermit x core) (fun _ _ => rfl) fun _ _ => rfl).trans permit
  have launch'' : (s.endGrant x).launch? h.launch = some l := by
    rw [launch']
    exact (s.endGrant_keeps (fun s => s.launch? g.launch) (fun _ _ => rfl) fun _ _ => rfl).trans launch
  have unheld : (s.enters x core fun c => c.enter t l.kern.tentry).unheld x.gang := held.of_threads (by
    rw [enters, gang?, pmEvent_gangs, ← gang?, threads_updCtx, gang?, takePermit_gangs, ← gang?]
    exact s.endGrant_keeps (fun s => (s.gang? x.gang).map Gang.threads) (fun _ _ => rfl) fun s F => threads_updCtx ..)
  unfold tryEnter
  simp only [late, ctx, Option.any_some, pend, Option.isSome_some, if_true, gang', ctx', core', here, quiet', outside, ne_eq, not_true_eq_false,
    if_false, permit', handler, launch'', Bool.not_true, Bool.false_eq_true]
  split
  · rfl
  · exact stallGang_of_unheld unheld

/-! ### Delegation -/

theorem delegRoom_ring (room : s.delegRoom = true) : ∃ cb, s.ctl.dring = some cb := by
  unfold delegRoom at room
  split at room
  · cases room
  · exact ⟨_, ‹_›⟩

theorem postDeleg_delegs (room : s.delegRoom = true) (src : DelegSrc) (idn : DWord) (t : TrapRec) (arg : Word) (direct double : Bool) (frame : Mask) :
    (s.postDeleg src idn t arg direct double frame).ctl.delegs = s.ctl.delegs.put s.nextId ⟨src, t, arg, direct, double⟩ := by
  obtain ⟨cb, ring⟩ := delegRoom_ring room
  unfold postDeleg
  simp only [ring]
  rfl

theorem postDeleg_keeps {β : Type} (φ : State → β) (mem : ∀ s m, φ (s.setMem m) = φ s) (next : ∀ s n, φ (s.setNextId n) = φ s)
    (ctl : ∀ s c, φ (s.setCtl c) = φ s) (s : State) (src : DelegSrc) (idn : DWord) (t : TrapRec) (arg : Word) (direct double : Bool) (frame : Mask) :
    φ (s.postDeleg src idn t arg direct double frame) = φ s := by
  unfold postDeleg
  split
  · rfl
  · exact (ctl _ _).trans ((next _ _).trans (mem _ _))

theorem postDeleg_gangs (s : State) (src : DelegSrc) (idn : DWord) (t : TrapRec) (arg : Word) (direct double : Bool) (frame : Mask) :
    (s.postDeleg src idn t arg direct double frame).gangs = s.gangs :=
  postDeleg_keeps State.gangs (fun _ _ => rfl) (fun _ _ => rfl) (fun _ _ => rfl) ..

theorem returnPermit_gone (s : State) (x : Site) : (s.returnPermit x).hasPermit x = false := by
  simp [returnPermit, hasPermit]

/-- A state in which a pending trap has been delegated at once. -/
def delegatesNow (s : State) (x : Site) (t : TrapRec) (path : Mask) : State :=
  (((s.endGrant x).delegate x t 0#32 true false path).updCtx x fun c => c.enterDelegated t).returnPermit x

/-- 16:R385. A pending trap outside a trap that only system software handles, or of an access context, is delegated at once. -/
theorem tryEnter_direct (late : s.nextLate x = s) (gang : s.gang? x.gang = some g) (ctx : s.ctx? x = some c) (pend : c.pend = some t)
    (here : g.core = some core) (held : s.unheld x.gang) (quiet : s.quiet x = true) (outside : c.tcg = 0#32)
    (permit : s.noPermit x core = false) (direct : t.cause = 2 ∨ x.access = true) (room : s.delegRoom = true) :
    s.tryEnter x = s.delegatesNow x t c.path := by
  obtain ⟨h, gang', core', -⟩ := endGrant_gang gang
  have ctx' : (s.endGrant x).ctx? x = some { c with vgrant := none } := by rw [endGrant_ctx?, if_pos rfl, ctx]; rfl
  have quiet' : (s.endGrant x).quiet x = true := (s.endGrant_keeps (fun s => s.quiet x) (fun _ _ => rfl) fun _ _ => rfl).trans quiet
  have permit' : (s.endGrant x).noPermit x core = false :=
    (s.endGrant_keeps (fun s => s.noPermit x core) (fun _ _ => rfl) fun _ _ => rfl).trans permit
  have room' : (s.endGrant x).delegRoom = true := (s.endGrant_keeps State.delegRoom (fun _ _ => rfl) fun _ _ => rfl).trans room
  have unheld : (s.delegatesNow x t c.path).unheld x.gang := held.of_threads (by
    refine (threads_updCtx ((s.endGrant x).delegate x t 0#32 true false c.path) x (fun c => c.enterDelegated t) x.gang).trans ?_
    rw [delegate, gang?, postDeleg_gangs]
    exact s.endGrant_keeps (fun s => (s.gang? x.gang).map Gang.threads) (fun _ _ => rfl) fun s F => threads_updCtx ..)
  unfold tryEnter
  simp only [late, ctx, Option.any_some, pend, Option.isSome_some, if_true, gang', ctx', core', here, quiet', outside, ne_eq, not_true_eq_false,
    if_false, permit', direct, room', Bool.not_true, Bool.false_eq_true]
  split
  · rfl
  · exact stallGang_of_unheld unheld

/-- 16:R386. A trap inside a trap. -/
theorem tryEnter_double (late : s.nextLate x = s) (gang : s.gang? x.gang = some g) (ctx : s.ctx? x = some c) (pend : c.pend = some t)
    (here : g.core = some core) (quiet : s.quiet x = true) (inside : c.tcg ≠ 0#32) : s.tryEnter x = (s.endGrant x).doubleTrap x t := by
  obtain ⟨h, gang', core', -⟩ := endGrant_gang gang
  have ctx' : (s.endGrant x).ctx? x = some { c with vgrant := none } := by rw [endGrant_ctx?, if_pos rfl, ctx]; rfl
  have quiet' : (s.endGrant x).quiet x = true := (s.endGrant_keeps (fun s => s.quiet x) (fun _ _ => rfl) fun _ _ => rfl).trans quiet
  unfold tryEnter
  simp only [late, ctx, Option.any_some, pend, Option.isSome_some, if_true, gang', ctx', core', here, quiet', inside, ne_eq, not_false_eq_true,
    Bool.not_true, Bool.false_eq_true, if_false]

end State

end Sys2Proof.Machine
end


section
/-! SUPPORT. An instruction that has consumed its sources, before what it does itself (02:R51, 12:R281). -/

namespace Sys2Proof.Machine

theorem State.thread?_of_threads (s : State) (g n : Nat) : s.thread? g n = ((s.gang? g).map Gang.threads).bind fun ts => ts.get? n := by
  rw [State.thread?_of_gang?]
  cases s.gang? g <;> rfl

namespace Env

variable (e : Env) (s : State)

/-- The state in which an instruction's path has woken and its sources are consumed. -/
def consumed : State := e.settle (e.awake s) e.act true

/-- Its context. -/
def consumedCtx (c : Ctx) : Ctx := if e.act = 0#64 then c.wake c.path else e.settleCtx e.act true (c.wake c.path)

theorem consumed_does : Does e.x (fun c => if e.act = 0#64 then c else e.settleCtx e.act true c)
    (fun k n es => es.drop (if e.act.getLsbD n then e.popList.count k else 0)) (fun _ _ w => w) (e.awake s) (e.consumed s) :=
  e.settle_does (e.awake s) e.act true

theorem consumed_ctx? (y : Site) : (e.consumed s).ctx? y = if y = e.x then (s.ctx? y).map e.consumedCtx else s.ctx? y := by
  rw [(e.consumed_does s).ctx?, awake, State.ctx?_updCtx]
  split
  · exact Option.map_map ..
  · rfl

theorem consumedCtx_keeps {β : Type} (φ : Ctx → β) (v : ∀ c x, φ { c with v := x } = φ c) (sreg : ∀ c x, φ { c with s := x } = φ c)
    (gst : ∀ c x, φ { c with gst := x } = φ c) (c : Ctx) : φ (e.consumedCtx c) = φ (c.wake c.path) := by
  unfold consumedCtx
  split
  · rfl
  · unfold settleCtx
    rw [foldl_killUse_keeps φ v sreg]
    split
    · exact gst ..
    · rfl

theorem consumedCtx_v (c : Ctx) {r n : Nat} (small : n < 64) :
    (e.consumedCtx c).v.get? (64 * r + n) = if e.killsV r n then none else c.v.get? (64 * r + n) := settled_v e (c.wake c.path) r n small

theorem consumedCtx_s (c : Ctx) (r : Nat) : (e.consumedCtx c).s.get? r = if e.killsS r then none else c.s.get? r :=
  settled_s e (c.wake c.path) r

theorem consumed_vreg (y : Site) (r : Nat) {n : Nat} (small : n < 64) :
    (e.consumed s).vreg y r n = if y = e.x ∧ e.killsV r n then none else s.vreg y r n := by
  unfold State.vreg
  rw [consumed_ctx?]
  by_cases here : y = e.x
  · simp only [here, if_true, true_and]
    cases s.ctx? e.x with
    | none => simp
    | some c => exact e.consumedCtx_v c small
  · simp only [here, if_false, false_and]

theorem consumed_sreg (y : Site) (r : Nat) : (e.consumed s).sreg y r = if y = e.x ∧ e.killsS r then none else s.sreg y r := by
  unfold State.sreg
  rw [consumed_ctx?]
  by_cases here : y = e.x
  · simp only [here, if_true, true_and]
    cases s.ctx? e.x with
    | none => simp
    | some c => exact e.consumedCtx_s c r
  · simp only [here, if_false, false_and]

/-- Sources are consumed in one gang: what only reads other parts of the state does not see it. -/
theorem consumed_keeps {β : Type} (φ : State → β) (gang : ∀ s f, φ (s.updGang e.x.gang f) = φ s) : φ (e.consumed s) = φ s := by
  have awake : φ (e.awake s) = φ s := gang s _
  unfold consumed
  rw [settle_eq]
  split
  · exact awake
  · dsimp only
    split
    · exact (gang ..).trans awake
    · exact (gang ..).trans ((gang ..).trans awake)

theorem consumed_threads (n : Nat) : ((e.consumed s).gang? n).map Gang.threads = (s.gang? n).map Gang.threads := by
  have pops : ∀ (ls : List Nat) (g : Gang), (e.popList.foldl (fun g q => popLanes g q 1 ls) g).threads = g.threads := by
    intro ls
    induction e.popList with
    | nil => exact fun _ => rfl
    | cons q qs ih => exact fun g => ih _
  have awake : ((e.awake s).gang? n).map Gang.threads = (s.gang? n).map Gang.threads := State.threads_updCtx ..
  unfold consumed
  rw [settle_eq]
  split
  · exact awake
  · dsimp only
    split
    · exact (State.threads_updCtx ..).trans awake
    · rw [State.gang?_updGang', ← awake, ← State.threads_updCtx (e.awake s) e.x (e.settleCtx e.act true) n]
      split
      · simp only [Option.map_map, Function.comp_def, pops]
      · rfl

theorem consumed_creg (g n r : Nat) : (e.consumed s).creg g n r = s.creg g n r := by
  have threads := e.consumed_threads s g
  unfold State.creg
  rw [State.thread?_of_threads, threads, ← State.thread?_of_threads]

theorem consumed_gang {g : Gang} (gang : s.gang? e.x.gang = some g) :
    ∃ h, (e.consumed s).gang? e.x.gang = some h ∧ h.core = g.core ∧ h.launch = g.launch := by
  have still := (e.consumed_does s).still e.x.gang
  have wake : ((e.awake s).gang? e.x.gang).map Gang.still = (s.gang? e.x.gang).map Gang.still :=
    (Does.updCtx s e.x (fun c => c.wake c.path) fun _ => rfl).still e.x.gang
  rw [wake, gang] at still
  obtain ⟨h, found, same⟩ := Option.map_eq_some_iff.1 still
  have core : h.still.core = g.still.core := congrArg Gang.core same
  have launch : h.still.launch = g.still.launch := congrArg Gang.launch same
  exact ⟨h, found, core, launch⟩

end Env

/-- A trap of an instruction issued earlier does not come before one that issues outside traps (16:R384). -/
theorem Env.late_of_goes {e : Env} {s : State} (goes : e.goes s = true) (outside : e.c.tcg = 0#32) : e.c.late = [] ∨ e.c.resume.isSome = true := by
  have gate := (e.goes_iff s).1 goes
  have ready : e.mustWait s = false := by
    by_contra wait
    unfold Env.gate at gate
    simp only [Bool.not_eq_false] at wait
    split at gate
    · split at gate
      · cases gate
      · split at gate <;> cases gate
    · split at gate
      · cases gate
      · simp [wait] at gate
  have coming : e.trapComing s = false := by
    simp only [Env.mustWait, Bool.or_eq_false_iff] at ready
    tauto
  simp only [Env.trapComing, Bool.or_eq_false_iff, Bool.and_eq_false_iff, outside] at coming
  rcases coming.2 with (none | some) | other
  · exact Or.inl (by simpa using none)
  · exact Or.inr (by simpa [Option.isSome_iff_ne_none] using some)
  · simp at other

end Sys2Proof.Machine
end


section
/-! PROOF. Traps as instructions (16:R384, R387). -/

namespace Sys2Proof.Machine

/-- A context that raises a trap: its path waits for the entry. -/
def Ctx.raises (t : TrapRec) (c : Ctx) : Ctx := { c.setWs c.path .trapped with pend := some t }

/-- A trap that nothing holds enters its handler at once. -/
theorem State.raise_handler {s : State} {x : Site} {g : Gang} {c : Ctx} {core : Nat} {l : Launch} (t : TrapRec) (gang : s.gang? x.gang = some g)
    (ctx : s.ctx? x = some c) (first : c.late = [] ∨ c.resume.isSome = true) (noStroke : c.stroke = none) (here : g.core = some core)
    (launch : s.launch? g.launch = some l) (held : s.unheld x.gang) (quiet : s.quiet x = true) (outside : c.tcg = 0#32)
    (permit : s.noPermit x core = false) (handler : ¬ (t.cause = 2 ∨ x.access = true)) :
    s.raise x t = (s.updCtx x (Ctx.raises t)).enters x core fun c => c.enter t l.kern.tentry := by
  have rolled : s.rollBack x = s := by
    unfold State.rollBack
    simp only [ctx, noStroke]
  have raised : (s.updCtx x (Ctx.raises t)).ctx? x = some (c.raises t) := by rw [State.ctx?_updCtx, if_pos rfl, ctx]; rfl
  have late : (s.updCtx x (Ctx.raises t)).nextLate x = s.updCtx x (Ctx.raises t) := by
    rcases first with none | replay
    · exact State.nextLate_of_late_nil raised none
    · exact State.nextLate_of_resume raised replay
  have gang' : (s.updCtx x (Ctx.raises t)).gang? x.gang = some (g.updCtx x.access (Ctx.raises t)) := by
    rw [State.updCtx, State.gang?_updGang, gang]; rfl
  have core' : (g.updCtx x.access (Ctx.raises t)).core = some core := by rw [← here]; unfold Gang.updCtx; split <;> rfl
  have launch' : (s.updCtx x (Ctx.raises t)).launch? (g.updCtx x.access (Ctx.raises t)).launch = some l := by
    rw [← launch]; unfold Gang.updCtx; split <;> rfl
  unfold State.raise
  rw [rolled]
  exact State.tryEnter_handler late gang' raised rfl core' launch' (held.of_threads (State.threads_updCtx ..)) quiet outside permit handler

/-! ### What a trap of an instruction leaves -/

theorem Env.canEnter_spec {e : Env} {s : State} (can : e.canEnter s = true) : e.x.access = false ∧ e.c.tcg = 0#32 ∧ s.quiet e.x = true ∧
    s.noPermit e.x e.core = false ∧ e.c.stroke = none ∧ e.g.holder? = none := by
  simp only [Env.canEnter, Bool.and_eq_true, Bool.not_eq_true', decide_eq_true_eq, Option.isNone_iff_eq_none] at can
  tauto

/-- The trap of an instruction that has consumed its sources, where it enters at once. -/
theorem Env.raise_consumed {i : Instr} {s : State} {e : Env} {t : TrapRec} (ready : Ready i s e) (can : e.canEnter s = true) (handler : t.cause ≠ 2) :
    (e.passed (e.consumed s)).raise e.x t =
      ((e.passed (e.consumed s)).updCtx e.x (Ctx.raises t)).enters e.x e.core fun c => c.enter t e.l.kern.tentry := by
  obtain ⟨compute, outside, quiet, permit, noStroke, free⟩ := Env.canEnter_spec can
  have spec := env?_spec ready.env
  obtain ⟨c, v, r, ctx, issued⟩ := spec.ctx
  obtain ⟨g, gang, core, launch⟩ := e.consumed_gang s spec.gang
  have first := Env.late_of_goes ready.goes outside
  rw [issued] at first outside noStroke
  have ctx' : (e.passed (e.consumed s)).ctx? e.x = some (e.consumedCtx c) :=
    (e.consumed_ctx? s e.x).trans (by rw [if_pos rfl, ctx]; rfl)
  have kept : ∀ {β : Type} (φ : Ctx → β), (∀ c x, φ { c with v := x } = φ c) → (∀ c x, φ { c with s := x } = φ c) →
      (∀ c x, φ { c with gst := x } = φ c) → (∀ c x, φ { c with lanes := x } = φ c) → φ (e.consumedCtx c) = φ c :=
    fun φ hv hs hg hl => (e.consumedCtx_keeps φ hv hs hg c).trans (hl _ _)
  refine State.raise_handler t gang ctx' ?_ ?_ (core.trans spec.core) ?_ ?_ ?_ ?_ ?_ ?_
  · rw [kept Ctx.late (fun _ _ => rfl) (fun _ _ => rfl) (fun _ _ => rfl) fun _ _ => rfl,
      kept Ctx.resume (fun _ _ => rfl) (fun _ _ => rfl) (fun _ _ => rfl) fun _ _ => rfl]
    exact first
  · rw [kept Ctx.stroke (fun _ _ => rfl) (fun _ _ => rfl) (fun _ _ => rfl) fun _ _ => rfl]
    exact noStroke
  · rw [launch]
    exact (e.consumed_keeps s (fun s => s.launch? e.g.launch) fun _ _ => rfl).trans spec.launch
  · exact (State.unheld_of_gang spec.gang free).of_threads (e.consumed_threads s e.x.gang)
  · exact (e.consumed_keeps s (fun s => s.quiet e.x) fun _ _ => rfl).trans quiet
  · rw [kept Ctx.tcg (fun _ _ => rfl) (fun _ _ => rfl) (fun _ _ => rfl) fun _ _ => rfl]
    exact outside
  · exact (e.consumed_keeps s (fun s => s.noPermit e.x e.core) fun _ _ => rfl).trans permit
  · rw [compute]
    simpa using handler

/-- The context of an instruction whose trap has entered. -/
def Env.enteredCtx (e : Env) (t : TrapRec) (c : Ctx) : Ctx := Ctx.enter { (e.consumedCtx c).raises t with vgrant := none } t e.l.kern.tentry

/-- Where an instruction's trap puts its context. -/
theorem Env.entered_ctx? {i : Instr} {s : State} {e : Env} {t : TrapRec} (ready : Ready i s e) (can : e.canEnter s = true) (handler : t.cause ≠ 2)
    (y : Site) : ((e.passed (e.consumed s)).raise e.x t).ctx? y =
      if y = e.x then (s.ctx? y).map (e.enteredCtx t) else s.ctx? y := by
  rw [Env.raise_consumed ready can handler, State.enters_ctx?, State.ctx?_updCtx, show (e.passed (e.consumed s)).ctx? y = _ from e.consumed_ctx? s y]
  by_cases here : y = e.x
  · simp only [here, if_true]
    cases s.ctx? e.x <;> rfl
  · simp only [here, if_false]

/-- The entry into a handler keeps registers, and puts the lanes of the path at TENTRY. -/
theorem Ctx.enter_lane (c : Ctx) (t : TrapRec) (tentry : DWord) {n : Nat} (on : c.path.getLsbD n = true) :
    ((c.enter t tentry).lanes.get? n).map (fun l => (l.pc, l.ws)) = (c.lanes.get? n).map fun _ => (tentry, .trapped) := by
  have lanes : (c.enter t tentry).lanes = (c.lanes.mapVal fun n l => if c.path.getLsbD n then { l with ws := .trapped } else l).mapVal fun n l =>
      if c.path.getLsbD n then { l with pc := tentry } else l := rfl
  rw [lanes, Assoc.get?_mapVal, Assoc.get?_mapVal]
  cases c.lanes.get? n with
  | none => rfl
  | some l => simp only [Option.map_some, on, if_true]

/-- The detail word of a trap that is no token's. -/
theorem TrapRec.d0_eq {t : TrapRec} (real : t.tok = false) :
    t.d0 = BitVec.ofNat 8 t.reason ++ (0#1 ++ BitVec.ofNat 6 ((lowest t.lanes).getD 0) ++ t.x : BitVec 24) := by
  unfold TrapRec.d0
  rw [real]
  exact congrArg (fun w : BitVec 24 => BitVec.ofNat 8 t.reason ++ w)
    (BitVec.append_assoc (x₁ := 0#1) (x₂ := BitVec.ofNat 6 ((lowest t.lanes).getD 0)) (x₃ := t.x)).symm

theorem Ctx.enter_same (c : Ctx) (t : TrapRec) (tentry : DWord) : (c.enter t tentry).regs = c.regs := rfl

theorem Env.raised_quiet {i : Instr} {s : State} {e : Env} {t : TrapRec} (ready : Ready i s e) (can : e.canEnter s = true) (handler : t.cause ≠ 2) :
    Quiet (e.consumed s) ((e.passed (e.consumed s)).raise e.x t) := by
  rw [Env.raise_consumed ready can handler]
  have passed : Quiet (e.consumed s) (e.passed (e.consumed s)) := .of_gangs rfl
  have raised : Quiet (e.passed (e.consumed s)) ((e.passed (e.consumed s)).updCtx e.x (Ctx.raises t)) := .updCtx _ _ fun _ => rfl
  exact (passed.trans raised).trans (State.enters_quiet _ e.x e.core fun c => c.enter_same t e.l.kern.tentry)

/-- What the entry writes beside lanes (16:R379, R384). -/
theorem Ctx.enter_regs (c : Ctx) (t : TrapRec) (tentry : DWord) :
    (c.enter t tentry).tcg = BitVec.ofNat 32 t.cause ∧ (c.enter t tentry).tlm = t.lanes ∧ (c.enter t tentry).d0 = t.d0 ∧
      (c.enter t tentry).d1 = t.d1 ∧ (c.enter t tentry).d2 = t.d2 ∧ (c.enter t tentry).tra = t.tra ∧ (c.enter t tentry).path = c.path ∧
      (c.enter t tentry).frame = some (c.frameOf t false) ∧ (c.enter t tentry).pend = none := ⟨rfl, rfl, rfl, rfl, rfl, rfl, rfl, rfl, rfl⟩

/-- What a trap of `trap`, `trap.link` or `trap.gst` leaves where it can enter. -/
theorem Env.entered {i : Instr} {s : State} {e : Env} (ready : Ready i s e) (can : e.canEnter s = true) {cause : Nat} (handler : cause ≠ 2)
    (reason : Nat) (lanes : Mask) (x : BitVec 17) (d1 d2 : Word) :
    Entered e s ((e.passed (e.consumed s)).raise e.x (e.afterTrap (e.trap cause reason lanes x d1 d2))) cause reason lanes x d1 d2 := by
  have place := Env.entered_ctx? ready can (t := e.afterTrap (e.trap cause reason lanes x d1 d2)) handler
  obtain ⟨c, v, regs, ctx, issued⟩ := (env?_spec ready.env).ctx
  have path : (e.consumedCtx c).path = e.c.path := by
    rw [issued]
    exact e.consumedCtx_keeps Ctx.path (fun _ _ => rfl) (fun _ _ => rfl) (fun _ _ => rfl) c
  have preds : (e.consumedCtx c).k = e.c.k := by
    rw [issued]
    exact e.consumedCtx_keeps Ctx.k (fun _ _ => rfl) (fun _ _ => rfl) (fun _ _ => rfl) c
  have lane : ∀ n, ((e.consumedCtx c).lanes.get? n).map (fun _ => (e.l.kern.tentry, WS.trapped)) = (c.lanes.get? n).map fun _ => (e.l.kern.tentry, WS.trapped) := by
    intro n
    rw [e.consumedCtx_keeps Ctx.lanes (fun _ _ => rfl) (fun _ _ => rfl) (fun _ _ => rfl) c, Ctx.wake, Assoc.get?_mapVal, Option.map_map]
    rfl
  have detail := TrapRec.d0_eq (t := e.afterTrap (e.trap cause reason lanes x d1 d2)) rfl
  have quiet := Env.raised_quiet ready can (t := e.afterTrap (e.trap cause reason lanes x d1 d2)) handler
  generalize htrap : e.afterTrap (e.trap cause reason lanes x d1 d2) = t at place quiet ⊢
  have here : ((e.passed (e.consumed s)).raise e.x t).ctx? e.x = some (e.enteredCtx t c) := by rw [place, if_pos rfl, ctx, Option.map_some]
  refine ⟨⟨e.enteredCtx t c, ((e.consumedCtx c).raises t).frameOf t false, here, ?_⟩, fun n on => ?_, ?_, ?_, fun y r n small => ?_,
    fun y r => ?_, fun y other => (place y).trans (if_neg other)⟩
  · obtain ⟨tcg, tlm, d0, d1', d2', tra, path', frame, -⟩ :=
      Ctx.enter_regs { (e.consumedCtx c).raises t with vgrant := none } t e.l.kern.tentry
    subst htrap
    exact ⟨tcg, tlm, d0.trans detail, d1', d2', tra, path'.trans path, frame, path, preds, rfl, rfl⟩
  · unfold State.lane?
    rw [here, ctx]
    have on' : ((e.consumedCtx c).raises t).path.getLsbD n = true := by
      rw [show ((e.consumedCtx c).raises t).path = e.c.path from path]
      exact on
    refine (Ctx.enter_lane { (e.consumedCtx c).raises t with vgrant := none } t e.l.kern.tentry on').trans ?_
    rw [show ({ (e.consumedCtx c).raises t with vgrant := none } : Ctx).lanes =
      (e.consumedCtx c).lanes.mapVal fun n l => if (e.consumedCtx c).path.getLsbD n then { l with ws := .trapped } else l from rfl,
      Assoc.get?_mapVal, Option.map_map]
    exact lane n
  · rw [Env.raise_consumed ready can (by rw [← htrap]; exact handler)]
    exact State.enters_permit ..
  · rw [Env.raise_consumed ready can (by rw [← htrap]; exact handler), State.enters_mem]
    exact e.consumed_keeps s State.mem fun _ _ => rfl
  · exact (quiet.vregs y r n).trans (e.consumed_vreg s y r small)
  · exact (quiet.sregs y r).trans (e.consumed_sreg s y r)

/-! ### The instructions -/

theorem exec_trapSoft (p : Pfx) (l : Lf) (code : BitVec 12) (a : Option Hs) (s : State) : exec (.trapSoft p l code a) s =
    run (.trapSoft p l code a) s fun e s =>
      match e.nib with
      | none => .done s
      | some n =>
        let w (j : Nat) : Word := if a.isSome then e.val 0 j n else 0#32
        e.trapNow s (e.trap 14 0 e.act (code.setWidth 17) (w 0) (w 1)) := rfl

theorem exec_trapLink (p : Pfx) (l : Lf) (a : Hs) (s : State) : exec (.trapLink p l a) s = run (.trapLink p l a) s fun e s =>
    match e.nib with
    | none => .done s
    | some n =>
      let r := e.pair 0 n
      e.trapNow s (e.trap 11 0 (maskOf (e.lanes.filter fun k => decide (e.pair 0 k = r))) 0#17 (e.val 0 0 n) (e.val 0 1 n)) := rfl

theorem exec_trapGst (p : Pfx) (l : Lf) (mask : BitVec 8) (s : State) : exec (.trapGst p l mask) s = run (.trapGst p l mask) s fun e s =>
    if e.act = 0#64 ∨ e.c.gst &&& mask.setWidth 32 = 0#32 then .done s
    else e.trapNow s (e.trap 10 0 e.act ((e.c.gst.extractLsb' 0 8).setWidth 17) (mask.setWidth 32) 0#32) := rfl

/-- Where a trap can enter, a permit is free: the operands are consumed before it. -/
theorem Env.trapNow_consumed {e : Env} {s : State} (can : e.canEnter s = true) (t : TrapRec) :
    e.trapNow (e.awake s) t = .raise (e.consumed s) (e.afterTrap t) := by
  obtain ⟨-, -, -, permit, -⟩ := Env.canEnter_spec can
  have permit : (e.awake s).noPermit e.x e.core = false := permit
  unfold Env.trapNow Env.consumed
  rw [permit, if_neg (by simp)]

/-- An instruction whose body is a trap enters it. -/
theorem exec_enters {i : Instr} {s : State} {e : Env} {b : Env → State → Res} (runs : exec i s = run i s b) (ready : Ready i s e)
    (can : e.canEnter s = true) {cause reason : Nat} {lanes : Mask} {x : BitVec 17} {d1 d2 : Word} (handler : cause ≠ 2)
    (body : b e (e.awake s) = e.trapNow (e.awake s) (e.trap cause reason lanes x d1 d2)) :
    ∃ t, exec i s = .next t ∧ Entered e s t cause reason lanes x d1 d2 :=
  ⟨_, runs.trans (run_raise ready.env ready.goes (body.trans (Env.trapNow_consumed can _))), Env.entered ready can handler ..⟩

/-- Settles O35: each raises one trap with its sources consumed, and a trap that nothing holds enters its handler at once. -/
theorem trapInstructions : Obligations.TrapInstructions := by
  unfold Obligations.TrapInstructions
  refine ⟨fun p l code a s e k ready can nib => exec_enters (exec_trapSoft p l code a s) ready can (by decide) (by rw [nib]),
    fun p l a s e k ready can nib => exec_enters (exec_trapLink p l a s) ready can (by decide) (by rw [nib]),
    fun p l mask s e ready can active flagged => exec_enters (exec_trapGst p l mask s) ready can (by decide) ?_,
    fun p l mask => ?_⟩
  · exact if_neg fun idle => idle.elim active flagged
  · refine deliversTo_at (exec_trapGst p l mask) (fun s e _ spec idle => ?_) (fun _ _ ready _ => .of_ready ready) (fun _ _ => .inr rfl)
      fun _ _ long => nomatch long
    rw [Env.deliver_empty_awake (by rw [Env.uses, spec.instr]; rfl)]
    exact if_pos idle

end Sys2Proof.Machine
end


section
/-! SUPPORT. The end of a trap whose lanes have no stop and no kill pending (16:R388, R390). -/

namespace Sys2Proof.Machine

theorem Assoc.keep_true {α : Type} (t : Assoc α) {p : Nat → α → Bool} (all : ∀ k x, p k x = true) : t.keep p = t :=
  List.filter_eq_self.2 fun e _ => all e.1 e.2

theorem Assoc.mapVal_same {α : Type} (t : Assoc α) {f : Nat → α → α} (same : ∀ k x, f k x = x) : t.mapVal f = t := by
  unfold Assoc.mapVal
  simp only [same]
  exact List.map_id' t

namespace Ctx

variable (c : Ctx)

theorem updLanes_zero (f : LaneSt → LaneSt) : c.updLanes 0#64 f = c := by
  unfold updLanes
  rw [Assoc.mapVal_same _ fun _ _ => by simp]

theorem strike_zero (keepHeld : Bool) : c.strike 0#64 keepHeld = c := by
  unfold strike
  refine List.foldlRecOn (motive := fun d : Ctx => d = c) _ _ rfl fun d same n _ => ?_
  subst same
  cases keepHeld <;> simp

theorem dropLanes_zero : c.dropLanes 0#64 = c.leavePath 0#64 := by
  unfold dropLanes
  rw [updLanes_zero, strike_zero]
  simp only [BitVec.getLsbD_zero, Bool.not_false]
  rw [Assoc.keep_true _ fun _ _ => rfl, Assoc.keep_true _ fun _ _ => rfl, Assoc.keep_true _ fun _ _ => rfl,
    List.filter_eq_self.2 fun _ _ => rfl]

theorem laneMask_none {p : Nat → LaneSt → Bool} (none : ∀ e ∈ c.lanes, p e.1 e.2 = false) : c.laneMask p = 0#64 := by
  have empty : c.lanes.keep p = [] := List.filter_eq_nil_iff.2 fun e on => by rw [none e on]; exact Bool.false_ne_true
  unfold laneMask
  rw [empty]
  rfl

/-- A live lane of a mask is in the mask of live lanes. -/
theorem laneMask_live {m : Mask} {n : Nat} {l : LaneSt} (on : m.getLsbD n = true) (live : c.lanes.get? n = some l) :
    (c.laneMask fun n _ => m.getLsbD n).getLsbD n = true := by
  have small : n < 64 := by
    by_contra large
    rw [BitVec.getLsbD_of_ge _ _ (by omega)] at on
    cases on
  rw [laneMask, getLsbD_maskOf, Bool.and_eq_true, decide_eq_true_eq, List.contains_iff_mem]
  exact ⟨small, List.mem_map.2 ⟨(n, l), List.mem_filter.2 ⟨Assoc.mem_of_get? live, on⟩, rfl⟩⟩

end Ctx

theorem Gang.dropEntries_zero (g : Gang) : g.dropEntries 0#64 = g := by
  unfold Gang.dropEntries
  rw [Assoc.mapVal_same _ fun _ q => by rw [Assoc.keep_true _ fun _ _ => by simp]]

namespace State

/-- The end of no lanes. -/
theorem endLanes_zero (s : State) (g : Nat) (access : Bool) :
    ∃ ops, s.endLanes g access 0#64 = (s.setOps ops).updCtx ⟨g, access⟩ fun c => c.leavePath 0#64 := by
  have lanes : lanesOf 0#64 = [] := by decide
  unfold endLanes forgetLanes
  rw [lanes]
  refine ⟨_, congrArg (updGang _ g) (funext fun x => ?_)⟩
  have drop : (fun c : Ctx => c.dropLanes 0#64) = fun c => c.leavePath 0#64 := funext Ctx.dropLanes_zero
  cases access with
  | true =>
    simp only [if_true, drop, BitVec.zero_and]
    exact Gang.dropEntries_zero _
  | false =>
    simp only [Bool.false_eq_true, if_false, drop, BitVec.zero_and, BitVec.getLsbD_zero, Bool.not_false]
    rw [Gang.dropEntries_zero, Assoc.keep_true _ fun _ _ => rfl]

/-- The context after a selection of its path. -/
theorem selectPath_ctx? {s : State} {x : Site} {c : Ctx} (ctx : s.ctx? x = some c) :
    ∃ g, s.gang? x.gang = some g ∧ (s.selectPath x).ctx? x = some (g.selectPath c) := by
  rw [ctx?_of_gang?] at ctx
  obtain ⟨g, gang, here⟩ := Option.bind_eq_some_iff.1 ctx
  refine ⟨g, gang, ?_⟩
  rw [selectPath, ctx?_updGang, if_pos rfl, gang, Option.bind_some, Gang.ctx?_updCtx, if_pos rfl, here]
  rfl

/-- A gang with a lane does not retire. -/
theorem tryRetire_of_lane {s : State} {x : Site} {c : Ctx} (ctx : s.ctx? x = some c) (lane : c.lanes ≠ []) : s.tryRetire x.gang = s := by
  rw [ctx?_of_gang?] at ctx
  obtain ⟨g, gang, here⟩ := Option.bind_eq_some_iff.1 ctx
  have stays : g.over = false := by
    unfold Gang.over
    unfold Gang.ctx? at here
    split at here
    · simp [here, lane]
    · cases here
      simp [lane]
  unfold tryRetire
  simp only [gang, stays, Bool.false_and, Bool.false_eq_true, if_false]

end State

/-- A context back from a trap at `pc`, its live lanes of the frame ready as its path. -/
def Ctx.back (live : Mask) (f : Frame) (pc : DWord) (cur : Option Cursor) (resume : Option Resume) (c : Ctx) : Ctx :=
  let c := (c.setPc live pc).updLanes live fun l => { l with ws := .ready, held := none }
  let c := { c with path := live, cur := if live = 0#64 then none else cur, k := f.k, tcg := 0#32, frame := none
                    resume := if live = 0#64 then none else resume }
  { c with spoiled := c.spoiled.del 0x01 }.mend f.trap

theorem Ctx.back_regs (live : Mask) (f : Frame) (pc : DWord) (cur : Option Cursor) (resume : Option Resume) (c : Ctx) :
    (c.back live f pc cur resume).regs = c.regs := rfl

theorem Ctx.back_ended (live : Mask) (f : Frame) (pc : DWord) (cur : Option Cursor) (resume : Option Resume) (c : Ctx) :
    (c.back live f pc cur resume).tcg = 0#32 ∧ (c.back live f pc cur resume).frame = none ∧ (c.back live f pc cur resume).k = f.k := ⟨rfl, rfl, rfl⟩

theorem Ctx.back_lane {live : Mask} (f : Frame) (pc : DWord) (cur : Option Cursor) (resume : Option Resume) (c : Ctx) {n : Nat}
    (on : ∀ l, c.lanes.get? n = some l → live.getLsbD n = true) :
    ((c.back live f pc cur resume).lanes.get? n).map (fun l => (l.pc, l.ws)) = (c.lanes.get? n).map fun _ => (pc, .ready) := by
  have lanes : (c.back live f pc cur resume).lanes = (c.lanes.mapVal fun n l => if live.getLsbD n then { l with pc := pc } else l).mapVal fun n l =>
      if live.getLsbD n then { l with ws := .ready, held := none } else l := rfl
  rw [lanes, Assoc.get?_mapVal, Assoc.get?_mapVal]
  cases lane : c.lanes.get? n with
  | none => rfl
  | some l => simp only [Option.map_some, on l lane, if_true]

/-- The live lanes of a trap's frame. -/
def Frame.live (f : Frame) (c : Ctx) : Mask := c.laneMask fun n _ => f.path.getLsbD n

namespace State

variable {s : State} {x : Site} {c : Ctx} {f : Frame} (pc : DWord) (cur : Option Cursor) (resume : Option Resume)

/-- 16:R388, R390. Without stops and kills the end of a trap only brings its context back. -/
theorem endTrap_eq (ctx : s.ctx? x = some c) (frame : c.frame = some f) (real : f.trap.tok = false)
    (calm : ∀ a ∈ c.lanes, f.path.getLsbD a.1 = true → a.2.pstop = false ∧ a.2.pkill = false) (live : c.lanes ≠ []) (held : s.unheld x.gang) :
    ∃ ops, s.endTrap x pc cur resume =
      ((((s.updCtx x (Ctx.back (f.live c) f pc cur resume)).returnPermit x).setOps ops).updCtx x fun c => c.leavePath 0#64).selectPath x := by
  have dead : (c.laneMask fun n l => f.path.getLsbD n && l.pkill) = 0#64 := c.laneMask_none fun a on => by
    cases inside : f.path.getLsbD a.1
    · rfl
    · simp [(calm a on inside).2]
  have stop : (c.laneMask fun n l => f.path.getLsbD n && l.pstop && !l.pkill && !l.pstep) = 0#64 := c.laneMask_none fun a on => by
    cases inside : f.path.getLsbD a.1
    · rfl
    · simp [(calm a on inside).1]
  have step : (c.laneMask fun n l => f.path.getLsbD n && l.pstop && !l.pkill && l.pstep) = 0#64 := c.laneMask_none fun a on => by
    cases inside : f.path.getLsbD a.1
    · rfl
    · simp [(calm a on inside).1]
  have lanes : lanesOf 0#64 = [] := by decide
  unfold endTrap
  simp only [ctx, frame, dead, stop, step, Ctx.updLanes_zero, Ctx.strike_zero, or_true, if_true, real, Bool.false_eq_true, if_false,
    BitVec.or_self, lanes, List.foldl_nil, BitVec.not_zero, BitVec.and_allOnes]
  obtain ⟨ops, ended⟩ := endLanes_zero ((s.updCtx x (Ctx.back (f.live c) f pc cur resume)).returnPermit x) x.gang x.access
  suffices brought : ∀ F : Ctx → Ctx, (∀ d, F d = d.back (f.live c) f pc cur resume) →
      (State.selectPath (if x.access = true then ((s.updCtx x F).returnPermit x).endLanes x.gang x.access 0#64
        else (((s.updCtx x F).returnPermit x).endLanes x.gang x.access 0#64).unstallGang x.gang) x).tryRetire x.gang =
      ((((s.updCtx x (Ctx.back (f.live c) f pc cur resume)).returnPermit x).setOps ops).updCtx x fun c => c.leavePath 0#64).selectPath x from
    ⟨ops, brought _ fun d => by cases cur <;> rfl⟩
  intro F same
  obtain rfl : F = Ctx.back (f.live c) f pc cur resume := funext same
  rw [ended]
  generalize hreturned : ((s.updCtx x (Ctx.back (f.live c) f pc cur resume)).returnPermit x).setOps ops = returned
  have unheld : (returned.updCtx x fun c => c.leavePath 0#64).unheld x.gang := held.of_threads (by
    rw [threads_updCtx, ← hreturned]
    exact threads_updCtx ..)
  have ctx' : (returned.updCtx x fun c => c.leavePath 0#64).ctx? x = some ((c.back (f.live c) f pc cur resume).leavePath 0#64) := by
    have back : returned.ctx? x = some (c.back (f.live c) f pc cur resume) := by
      rw [← hreturned]
      show (s.updCtx x _).ctx? x = _
      rw [ctx?_updCtx, if_pos rfl, ctx]
      rfl
    rw [ctx?_updCtx, if_pos rfl, back]
    rfl
  obtain ⟨g, -, selected⟩ := selectPath_ctx? ctx'
  rw [show (⟨x.gang, x.access⟩ : Site) = x from rfl, unstallGang_of_unheld unheld, ite_self]
  refine tryRetire_of_lane selected ?_
  rw [Gang.selectPath_lanes]
  exact fun none => live (List.map_eq_nil_iff.1 (List.map_eq_nil_iff.1 none))

/-- What the end of a trap leaves: its context outside traps, with the predicates of its frame `f`, whose lanes are ready at `pc`. -/
structure Returned (s u : State) (x : Site) (c : Ctx) (f : Frame) (pc : DWord) : Prop where
  mem : u.mem = s.mem
  ctl : u.ctl = s.ctl
  permit : u.hasPermit x = false
  quiet : Quiet s u
  ctx : ∃ d, u.ctx? x = some d ∧ d.tcg = 0#32 ∧ d.frame = none ∧ d.k = f.k ∧
    ∀ n, f.path.getLsbD n = true → (d.lanes.get? n).map (fun l => (l.pc, l.ws)) = (c.lanes.get? n).map fun _ => (pc, .ready)

theorem endTrap_returns (ctx : s.ctx? x = some c) (frame : c.frame = some f) (real : f.trap.tok = false)
    (calm : ∀ a ∈ c.lanes, f.path.getLsbD a.1 = true → a.2.pstop = false ∧ a.2.pkill = false) (live : c.lanes ≠ []) (held : s.unheld x.gang) :
    Returned s (s.endTrap x pc cur resume) x c f pc := by
  obtain ⟨ops, same⟩ := endTrap_eq pc cur resume ctx frame real calm live held
  rw [same]
  have back : (((s.updCtx x (Ctx.back (f.live c) f pc cur resume)).returnPermit x).setOps ops).ctx? x =
      some (c.back (f.live c) f pc cur resume) := by
    show (s.updCtx x _).ctx? x = _
    rw [ctx?_updCtx, if_pos rfl, ctx]
    rfl
  have quiet : Quiet s (((s.updCtx x (Ctx.back (f.live c) f pc cur resume)).returnPermit x).setOps ops) := by
    have context : Quiet s (s.updCtx x (Ctx.back (f.live c) f pc cur resume)) := .updCtx s x fun _ => rfl
    exact context.trans (.of_gangs rfl)
  have gone : (((s.updCtx x (Ctx.back (f.live c) f pc cur resume)).returnPermit x).setOps ops).hasPermit x = false := returnPermit_gone ..
  have mem : (((s.updCtx x (Ctx.back (f.live c) f pc cur resume)).returnPermit x).setOps ops).mem = s.mem := rfl
  have ctl : (((s.updCtx x (Ctx.back (f.live c) f pc cur resume)).returnPermit x).setOps ops).ctl = s.ctl := rfl
  generalize ((s.updCtx x (Ctx.back (f.live c) f pc cur resume)).returnPermit x).setOps ops = t at back quiet gone mem ctl ⊢
  have left : (t.updCtx x fun c => c.leavePath 0#64).ctx? x = some ((c.back (f.live c) f pc cur resume).leavePath 0#64) := by
    rw [ctx?_updCtx, if_pos rfl, back]
    rfl
  obtain ⟨g, -, selected⟩ := selectPath_ctx? left
  have kept := g.selectPath_kept ((c.back (f.live c) f pc cur resume).leavePath 0#64)
  have stays : Quiet t (t.updCtx x fun c => c.leavePath 0#64) := .updCtx t x fun _ => rfl
  refine ⟨mem, ctl, gone, (quiet.trans stays).trans (.selectPath _ x), _, selected, ?_, ?_, ?_, fun n on => ?_⟩
  · exact congrArg Ctx.tcg kept
  · exact congrArg Ctx.frame kept
  · exact congrArg Ctx.k kept
  · rw [Gang.selectPath_lanes]
    exact Ctx.back_lane f pc cur resume c fun l lane => c.laneMask_live on lane

end State

end Sys2Proof.Machine
end


section
/-! PROOF. Trap entry, delegation, double traps, the end of a back-off, and resolutions (16:R383 to R386, R390). -/

namespace Sys2Proof.Machine

/-- A context whose double trap has been delegated. -/
def Ctx.doubled (c : Ctx) : Ctx := { c with pend := none, frame := c.frame.map fun f => { f with delegated := true } }

namespace State

variable {s : State} {x : Site} {g : Gang} {c : Ctx} {t : TrapRec} {core : Nat} {l : Launch}

/-! ### The way in which a pending trap is taken -/

theorem taking_eq (ctx : s.ctx? x = some c) (late : c.late = []) (pend : c.pend = some t) :
    s.taking x = some (if c.tcg ≠ 0#32 then .double else if t.cause = 2 ∨ x.access then .direct else .handler) := by
  unfold taking
  simp only [ctx, late, pend]
  by_cases inside : c.tcg = 0#32
  · simp [inside]
  · simp [inside]

theorem of_taking_handler (ctx : s.ctx? x = some c) (late : c.late = []) (pend : c.pend = some t) (taken : s.taking x = some .handler) :
    c.tcg = 0#32 ∧ ¬ (t.cause = 2 ∨ x.access = true) := by
  rw [taking_eq ctx late pend] at taken
  split at taken
  · cases taken
  · next outside =>
    split at taken
    · cases taken
    · next other => exact ⟨not_not.1 outside, other⟩

theorem of_taking_direct (ctx : s.ctx? x = some c) (late : c.late = []) (pend : c.pend = some t) (taken : s.taking x = some .direct) :
    c.tcg = 0#32 ∧ (t.cause = 2 ∨ x.access = true) := by
  rw [taking_eq ctx late pend] at taken
  split at taken
  · cases taken
  · next outside =>
    split at taken
    · next direct => exact ⟨not_not.1 outside, direct⟩
    · cases taken

theorem of_taking_double (ctx : s.ctx? x = some c) (late : c.late = []) (pend : c.pend = some t) (taken : s.taking x = some .double) :
    c.tcg ≠ 0#32 := by
  rw [taking_eq ctx late pend] at taken
  split at taken
  · assumption
  · split at taken <;> cases taken

/-! ### What taking it leaves -/

/-- 16:R384. -/
theorem trapEntry_enters (gang : s.gang? x.gang = some g) (ctx : s.ctx? x = some c) (late : c.late = []) (pend : c.pend = some t)
    (here : g.core = some core) (launch : s.launch? g.launch = some l) (free : g.holder? = none) (taken : s.taking x = some .handler)
    (quiet : s.quiet x = true) (permit : s.noPermit x core = false) :
    exec (.trapEntry x.gang x.access) s = .next (s.enters x core fun c => c.enter t l.kern.tentry) := by
  obtain ⟨outside, handler⟩ := of_taking_handler ctx late pend taken
  show Host.Outcome.next (if s.taking x = some .handler then s.tryEnter x else s) = _
  rw [if_pos taken, tryEnter_handler (nextLate_of_late_nil ctx late) gang ctx pend here launch (unheld_of_gang gang free) quiet outside permit handler]

/-- 16:R385. -/
theorem directDelegation_delegates (gang : s.gang? x.gang = some g) (ctx : s.ctx? x = some c) (late : c.late = []) (pend : c.pend = some t)
    (here : g.core = some core) (free : g.holder? = none) (taken : s.taking x = some .direct) (quiet : s.quiet x = true)
    (permit : s.noPermit x core = false) (room : s.delegRoom = true) :
    exec (.directDelegation x.gang x.access) s = .next (s.delegatesNow x t c.path) := by
  obtain ⟨outside, direct⟩ := of_taking_direct ctx late pend taken
  show Host.Outcome.next (if s.taking x = some .direct then s.tryEnter x else s) = _
  rw [if_pos taken, tryEnter_direct (nextLate_of_late_nil ctx late) gang ctx pend here (unheld_of_gang gang free) quiet outside permit direct room]

theorem endGrant_delegates (room : s.delegRoom = true) (idn : DWord) (arg : Word) (direct double : Bool) (frame : Mask) :
    ((s.endGrant x).postDeleg (.context x) idn t arg direct double frame).ctl.delegs = s.ctl.delegs.put s.nextId ⟨.context x, t, arg, direct, double⟩ := by
  have room' : (s.endGrant x).delegRoom = true := (s.endGrant_keeps delegRoom (fun _ _ => rfl) fun _ _ => rfl).trans room
  rw [postDeleg_delegs room']
  exact s.endGrant_keeps (fun s => s.ctl.delegs.put s.nextId ⟨.context x, t, arg, direct, double⟩) (fun _ _ => rfl) fun _ _ => rfl

theorem delegatesNow_ctx? (ctx : s.ctx? x = some c) (path : Mask) :
    (s.delegatesNow x t path).ctx? x = some (Ctx.enterDelegated { c with vgrant := none } t) := by
  have posted : ((s.endGrant x).delegate x t 0#32 true false path).ctx? x = some { c with vgrant := none } := by
    rw [delegate, ctx?_of_gangs (postDeleg_gangs ..), endGrant_ctx?, if_pos rfl, ctx]
    rfl
  show (((s.endGrant x).delegate x t 0#32 true false path).updCtx x fun c => c.enterDelegated t).ctx? x = _
  rw [ctx?_updCtx, if_pos rfl, posted]
  rfl

theorem delegatesNow_quiet (s : State) (x : Site) (t : TrapRec) (path : Mask) : Quiet s (s.delegatesNow x t path) := by
  have posted : Quiet s ((s.endGrant x).delegate x t 0#32 true false path) := (s.endGrant_quiet x).trans (.of_gangs (postDeleg_gangs ..))
  have entered : Quiet ((s.endGrant x).delegate x t 0#32 true false path)
      (((s.endGrant x).delegate x t 0#32 true false path).updCtx x fun c => c.enterDelegated t) := .updCtx _ x fun _ => rfl
  exact (posted.trans entered).trans (.of_gangs rfl)

theorem postEvent_keeps {β : Type} (φ : State → β) (mem : ∀ s m, φ (s.setMem m) = φ s) (launches : ∀ s y, φ (s.setLaunches y) = φ s)
    (pending : ∀ s y, φ (s.setCtl { s.ctl with pending := y }) = φ s) (s : State) (e : Event) : φ (s.postEvent e) = φ s := by
  unfold postEvent writeEvent
  split
  · split
    · rfl
    · exact (launches _ _).trans (mem _ _)
  · exact pending _ _

/-- 16:R386. -/
theorem doubleTrap_execs (gang : s.gang? x.gang = some g) (ctx : s.ctx? x = some c) (late : c.late = []) (pend : c.pend = some t)
    (here : g.core = some core) (taken : s.taking x = some .double) (quiet : s.quiet x = true) :
    exec (.doubleTrap x.gang x.access) s = .next ((s.endGrant x).doubleTrap x t) := by
  show Host.Outcome.next (if s.taking x = some .double then s.tryEnter x else s) = _
  rw [if_pos taken, tryEnter_double (nextLate_of_late_nil ctx late) gang ctx pend here quiet (of_taking_double ctx late pend taken)]

/-- A state in which a double trap has been delegated with an event, before its context waits. -/
def doublePosted (s : State) (x : Site) (t : TrapRec) (frame : Mask) : State :=
  let s := s.delegate x t 0#32 false true frame
  s.postEvent ⟨3, BitVec.ofNat 32 t.cause, s.idnSeen x ((lowest t.lanes).getD 0), t.tra, t.lanes⟩

theorem doubleTrap_eq (s : State) (room : s.delegRoom = true) (gang : s.gang? x.gang = some g) :
    ∃ frame, s.doubleTrap x t = (((s.doublePosted x t frame).returnPermit x).updCtx x Ctx.doubled).setAgenda
      (.event (.launchEndEarly g.launch t.cause) :: (s.doublePosted x t frame).agenda) := by
  unfold doubleTrap
  simp only [room, Bool.not_true, Bool.false_eq_true, if_false, gang]
  exact ⟨_, rfl⟩

theorem doublePosted_keeps {β : Type} (φ : State → β) (mem : ∀ s m, φ (s.setMem m) = φ s) (next : ∀ s n, φ (s.setNextId n) = φ s)
    (ctl : ∀ s c, φ (s.setCtl c) = φ s) (launches : ∀ s y, φ (s.setLaunches y) = φ s) (s : State) (x : Site) (t : TrapRec) (frame : Mask) :
    φ (s.doublePosted x t frame) = φ s :=
  (postEvent_keeps φ mem launches (fun _ _ => ctl _ _) _ _).trans (postDeleg_keeps φ mem next ctl ..)

theorem doublePosted_delegs (s : State) (x : Site) (t : TrapRec) (frame : Mask) (room : s.delegRoom = true) :
    (s.doublePosted x t frame).ctl.delegs = s.ctl.delegs.put s.nextId ⟨.context x, t, 0#32, false, true⟩ :=
  (postEvent_keeps (fun s => s.ctl.delegs) (fun _ _ => rfl) (fun _ _ => rfl) (fun _ _ => rfl) _ _).trans (postDeleg_delegs room ..)

/-- What a double trap leaves. -/
theorem doubleTrap_leaves (gang : s.gang? x.gang = some g) (ctx : s.ctx? x = some c) (room : s.delegRoom = true) :
    ∃ d, (s.doubleTrap x t).ctx? x = some d ∧ d.pend = none ∧ (s.doubleTrap x t).hasPermit x = false ∧
      (s.doubleTrap x t).ctl.delegs = s.ctl.delegs.put s.nextId ⟨.context x, t, 0#32, false, true⟩ ∧
      (s.doubleTrap x t).agenda = .event (.launchEndEarly g.launch t.cause) :: s.agenda ∧ Quiet s (s.doubleTrap x t) := by
  obtain ⟨frame, same⟩ := doubleTrap_eq (x := x) (t := t) s room gang
  rw [same]
  have delegs : ((s.doublePosted x t frame).returnPermit x).ctl.delegs = _ := doublePosted_delegs s x t frame room
  have gangs : ((s.doublePosted x t frame).returnPermit x).gangs = s.gangs :=
    doublePosted_keeps State.gangs (fun _ _ => rfl) (fun _ _ => rfl) (fun _ _ => rfl) (fun _ _ => rfl) s x t frame
  have agenda : (s.doublePosted x t frame).agenda = s.agenda :=
    doublePosted_keeps State.agenda (fun _ _ => rfl) (fun _ _ => rfl) (fun _ _ => rfl) (fun _ _ => rfl) s x t frame
  have permit := (s.doublePosted x t frame).returnPermit_gone x
  rw [agenda]
  generalize (s.doublePosted x t frame).returnPermit x = w at delegs gangs permit ⊢
  have here : (w.updCtx x Ctx.doubled).ctx? x = some c.doubled := by
    rw [ctx?_updCtx, if_pos rfl, ctx?_of_gangs gangs, ctx]
    rfl
  have doubled : Quiet w (w.updCtx x Ctx.doubled) := .updCtx w x fun _ => rfl
  exact ⟨c.doubled, here, rfl, permit, delegs, rfl, ((Quiet.of_gangs gangs).trans doubled).trans (.of_gangs rfl)⟩

/-! ### Resolutions -/

/-- The end of a launch by a resolution. -/
theorem endDeleg_leaves {n : Nat} {d : Deleg} {k : Nat} (ends : s.endDeleg n d = (s.dropDeleg n).setAgenda (.event (.launchEndEarly k d.trap.cause) :: (s.dropDeleg n).agenda)) :
    (s.endDeleg n d).ctl.delegs = s.ctl.delegs.del n ∧ (s.endDeleg n d).agenda = .event (.launchEndEarly k d.trap.cause) :: s.agenda ∧
      Quiet s (s.endDeleg n d) := by
  rw [ends]
  have agenda : (s.dropDeleg n).agenda = s.agenda := by
    unfold dropDeleg
    dsimp only
    split <;> rfl
  exact ⟨s.delegs_dropDeleg n, by rw [agenda]; rfl, .of_gangs (s.dropDeleg_gangs n)⟩

theorem endDeleg_context {n : Nat} {d : Deleg} (src : d.src = .context x) (gang : s.gang? x.gang = some g) :
    s.endDeleg n d = (s.dropDeleg n).setAgenda (.event (.launchEndEarly g.launch d.trap.cause) :: (s.dropDeleg n).agenda) := by
  have gang' : (s.dropDeleg n).gang? x.gang = some g := by
    unfold gang?
    rw [dropDeleg_gangs]
    exact gang
  unfold endDeleg
  simp only [src, gang', Option.map_some]

theorem endDeleg_ring {n k q m : Nat} {d : Deleg} {w : Launch} (src : d.src = .ring k q m) (launch : s.launch? k = some w) (seq : w.seq = q) :
    s.endDeleg n d = (s.dropDeleg n).setAgenda (.event (.launchEndEarly k d.trap.cause) :: (s.dropDeleg n).agenda) := by
  have launch' : (s.dropDeleg n).launch? k = some w := by
    unfold launch?
    rw [dropDeleg_launches]
    exact launch
  unfold endDeleg
  simp only [src, launch', Option.any_some, seq, decide_true, if_true]

/-- SKIP of a ring fault acts as END (log 48). -/
theorem delegOf_ring {n k q m : Nat} {d : Deleg} {w : Launch} (entry : s.ctl.delegs.get? n = some d) (src : d.src = .ring k q m)
    (launch : s.launch? k = some w) (seq : w.seq = q) : s.delegOf n = .ring k m d := by
  have listed : (s.ringDelegs k m).contains n = true := by
    rw [List.contains_iff_mem]
    refine List.mem_map.2 ⟨(n, d), List.mem_filter.2 ⟨Assoc.mem_of_get? entry, ?_⟩, rfl⟩
    simp [src, launch, seq]
  unfold delegOf
  simp only [entry, src, listed, if_true]

theorem delegOf_context {n : Nat} {d : Deleg} {f : Frame} (waits : s.delegOf n = .context x d f) : ∃ c, s.ctx? x = some c ∧ c.frame = some f := by
  unfold delegOf at waits
  split at waits
  · cases waits
  · split at waits
    · split at waits <;> cases waits
    · split at waits
      · cases waits
      · next c ctx =>
        split at waits
        · cases waits
        · next f' frame =>
          split at waits
          · cases waits
          · cases waits
            exact ⟨c, ctx, frame⟩

/-- 16:R383. The end of a back-off. -/
theorem backoff_expires {k : Nat} (ctx : s.ctx? x = some c) (retry : c.retryAt = some k) (due : k ≤ s.tick (s.clusterOfGang x.gang)) :
    exec (.permitBackoffExpiry x.gang x.access) s =
      .next ((s.updCtx x fun c => { c.wake c.path with retryAt := none }).setAgenda (.issue x.gang x.access :: s.agenda)) := by
  show execPermitBackoffExpiry x.gang x.access s = _
  unfold execPermitBackoffExpiry
  simp only [show (⟨x.gang, x.access⟩ : Site) = x from rfl, ctx, retry, if_neg (Nat.not_lt.2 due)]

/-- The end of a trap by a resolution: the delegation leaves the queue. -/
theorem dropDeleg_returns {f : Frame} (n : Nat) (pc : DWord) (cur : Option Cursor) (resume : Option Resume) (ctx : s.ctx? x = some c)
    (frame : c.frame = some f) (real : f.trap.tok = false)
    (calm : ∀ a ∈ c.lanes, f.path.getLsbD a.1 = true → a.2.pstop = false ∧ a.2.pkill = false) (live : c.lanes ≠ []) (held : s.unheld x.gang) :
    Returned (s.dropDeleg n) ((s.dropDeleg n).endTrap x pc cur resume) x c f pc :=
  endTrap_returns pc cur resume ((ctx?_of_gangs (s.dropDeleg_gangs n) x).trans ctx) frame real calm live
    (held.of_threads (by rw [gang?, dropDeleg_gangs]; rfl))

theorem forgive_ctx? (s : State) (x : Site) (m : Mask) :
    (s.forgive x m).ctx? x = (s.ctx? x).map fun c => { c with owed := c.owed.filter fun p => !m.getLsbD p.1 } := by
  rw [forgive, ctx?_updCtx, if_pos rfl]

theorem Returned.forgive {u : State} {f : Frame} {pc : DWord} (r : Returned s u x c f pc) (m : Mask) : Returned s (u.forgive x m) x c f pc := by
  obtain ⟨d, ctx, outside, frame, preds, lanes⟩ := r.ctx
  have quiet : Quiet u (u.forgive x m) := .updCtx u x fun _ => rfl
  have forgiven := (forgive_ctx? u x m).trans (congrArg (Option.map _) ctx)
  exact ⟨r.mem, r.ctl, r.permit, r.quiet.trans quiet, _, forgiven, outside, frame, preds, lanes⟩

/-- What a resolution's observers see of a trap that has ended. -/
theorem Returned.sees {u : State} {f : Frame} {pc : DWord} {n : Nat} (r : Returned (s.dropDeleg n) u x c f pc) :
    u.ctl.delegs = s.ctl.delegs.del n ∧ u.hasPermit x = false ∧ (u.ctx? x).map (fun a => (a.tcg, a.frame, a.k)) = some (0#32, none, f.k) := by
  obtain ⟨d, ctx, outside, frame, preds, -⟩ := r.ctx
  refine ⟨?_, r.permit, ?_⟩
  · rw [r.ctl]
    exact s.delegs_dropDeleg n
  · rw [ctx, Option.map_some, outside, frame, preds]

theorem Returned.lane {u : State} {f : Frame} {pc : DWord} (r : Returned s u x c f pc) {t : State} (ctx : t.ctx? x = some c) {n : Nat}
    (on : f.path.getLsbD n = true) : (u.lane? x n).map (fun a => (a.pc, a.ws)) = (t.lane? x n).map fun _ => (pc, .ready) := by
  obtain ⟨d, there, -, -, -, lanes⟩ := r.ctx
  unfold lane?
  rw [there, ctx]
  exact lanes n on

end State

theorem exec_skip_context {s : State} {n : Nat} {x : Site} {d : Deleg} {f : Frame} {pc : DWord} (waits : s.delegOf n = .context x d f)
    (free : s.frameHolder x f = false) (skip : f.trap.skip = some pc) (fresh : f.trap.resume = none) :
    exec (.skip n) s = .next (((s.dropDeleg n).endTrap x pc f.trap.skipCur none).forgive x f.trap.lanes) := by
  show execSkip n s = _
  unfold execSkip
  simp only [waits, free, skip, fresh, Bool.false_eq_true, if_false]

/-- Settles O43: each event of a trap, by the way in which the trap is taken or resolved. -/
theorem trapEventsHappen : Obligations.TrapEventsHappen := by
  unfold Obligations.TrapEventsHappen
  have site (s : State) {x : Site} {g : Gang} {c : Ctx} (gang : s.gang? x.gang = some g) (here : g.ctx? x.access = some c) : s.ctx? x = some c := by
    rw [State.ctx?_of_gang?, gang]
    exact here
  refine ⟨fun s x g c l t core gang here late pend core' launch free taken quiet permit => ?_,
    fun s x g c t core gang here late pend core' free taken quiet permit room => ?_,
    fun s x g c t core gang here late pend core' taken quiet room => ?_, fun s x c k ctx retry due => ?_,
    fun s n x d f c pc waits ctx free real fresh skip calm live held => ?_, fun s n x d g entry src gang => ?_,
    fun s n d l q k w entry src launch seq => ?_⟩
  case refine_1 =>
    have ctx := site s gang here
    have entered : (s.enters x core fun c => c.enter t l.kern.tentry).ctx? x = some (Ctx.enter { c with vgrant := none } t l.kern.tentry) := by
      rw [State.enters_ctx?, if_pos rfl, ctx]
      rfl
    obtain ⟨tcg, tlm, d0, d1, d2, tra, -, frame, entry⟩ := Ctx.enter_regs { c with vgrant := none } t l.kern.tentry
    refine ⟨_, _, _, State.trapEntry_enters gang ctx late pend core' launch free taken quiet permit, entered, tcg, tlm, d0, d1, d2, tra, frame, rfl,
      rfl, rfl, rfl, entry, State.enters_permit .., fun n on => ?_, (s.enters_quiet x core fun c => c.enter_same t l.kern.tentry).vregs⟩
    unfold State.lane?
    rw [entered, ctx]
    exact Ctx.enter_lane { c with vgrant := none } t l.kern.tentry on
  case refine_2 =>
    have ctx := site s gang here
    exact ⟨_, _, _, State.directDelegation_delegates gang ctx late pend core' free taken quiet permit room, State.delegatesNow_ctx? ctx c.path, rfl, rfl,
      rfl, rfl, rfl, rfl, rfl, rfl, State.returnPermit_gone .., State.endGrant_delegates room .., (s.delegatesNow_quiet x t c.path).vregs⟩
  case refine_3 =>
    have ctx := site s gang here
    obtain ⟨h, gang', -, launch⟩ := State.endGrant_gang gang
    have ctx' : (s.endGrant x).ctx? x = some { c with vgrant := none } := by rw [State.endGrant_ctx?, if_pos rfl, ctx]; rfl
    have room' : (s.endGrant x).delegRoom = true := (s.endGrant_keeps State.delegRoom (fun _ _ => rfl) fun _ _ => rfl).trans room
    obtain ⟨d, there, gone, permit, delegs, agenda, same⟩ := State.doubleTrap_leaves (t := t) gang' ctx' room'
    refine ⟨_, d, State.doubleTrap_execs gang ctx late pend core' taken quiet, there, gone, permit, delegs.trans ?_, agenda.trans ?_,
      ((s.endGrant_quiet x).trans same).vregs⟩
    · exact s.endGrant_keeps (fun s => s.ctl.delegs.put s.nextId ⟨.context x, t, 0#32, false, true⟩) (fun _ _ => rfl) fun _ _ => rfl
    · rw [launch]
      exact congrArg _ (s.endGrant_keeps State.agenda (fun _ _ => rfl) fun _ _ => rfl)
  case refine_4 =>
    have woken : Quiet s (s.updCtx x fun c => { c.wake c.path with retryAt := none }) := .updCtx s x fun _ => rfl
    refine ⟨_, State.backoff_expires ctx retry due, ?_, rfl, rfl, woken.trans (.of_gangs rfl)⟩
    rw [State.ctx?_setAgenda, State.ctx?_updCtx, if_pos rfl, ctx]
    rfl
  case refine_5 =>
    obtain ⟨c', ctx', frame⟩ := State.delegOf_context waits
    obtain rfl : c = c' := Option.some.inj (ctx.symm.trans ctx')
    have lanes : c.lanes ≠ [] := fun empty => by simp [empty] at live
    have back := State.dropDeleg_returns (s := s) n f.trap.ret f.trap.cur f.trap.resume ctx frame real calm lanes held
    have past := (State.dropDeleg_returns (s := s) n pc f.trap.skipCur none ctx frame real calm lanes held).forgive f.trap.lanes
    refine ⟨_, _, ?_, exec_skip_context waits free skip fresh, fun t on => ?_, fun k on => back.lane ctx on, fun k on => past.lane ctx on⟩
    · show execRetry n s = _
      unfold execRetry
      simp only [waits]
    · rcases List.mem_cons.1 on with rfl | on
      · exact back.sees
      · rw [List.mem_singleton.1 on]
        exact past.sees
  case refine_6 =>
    obtain ⟨delegs, agenda, quiet⟩ := State.endDeleg_leaves (State.endDeleg_context (n := n) src gang)
    refine ⟨_, ?_, delegs, agenda, quiet⟩
    show execEndRes n s = _
    unfold execEndRes
    simp only [entry]
  case refine_7 =>
    have leaves := State.endDeleg_leaves (State.endDeleg_ring (n := n) src launch seq)
    refine ⟨s.endDeleg n d, s.endDeleg n d, ?_, ?_, fun t on => ?_⟩
    · show execEndRes n s = _
      unfold execEndRes
      simp only [entry]
    · show execSkip n s = _
      unfold execSkip
      simp only [State.delegOf_ring entry src launch seq]
    · have one : t = s.endDeleg n d := by simpa using on
      rw [one]
      exact leaves

end Sys2Proof.Machine
end


section
/-! PROOF. A `brk` of a replay some of whose lanes stand outside its path (02:R55, 16:R399): a counterexample. -/

namespace Sys2Proof.Machine

/-- `brk` with the code 0. -/
def breakZero : Instr := .brk ⟨none, none⟩ ⟨0, 0⟩ 0

/-- An empty event ring of 2^8 entries at 0x21000 behind the control block that reset names (16:R401). Lane 0 is alone in the path; the replay at
which it stands is one of lanes 0 and 1, of which lane 1 waits in a trap. -/
def replayApart : State :=
  let s := State.reset.placeWord []
  let s := s.setMem (s.mem.sysWrite 0x20000 (leBytes 8 0 ++ leBytes 8 0 ++ leBytes 8 0x21000 ++ leBytes 8 8) false)
  (s.setCur (some ⟨0, false⟩)).updCtx ⟨0, false⟩ fun c =>
    { c.setWs 2#64 .trapped with path := 1#64, resume := some ⟨none, 0x100004#64, 3#64, [], []⟩ }

/-- The environment of that `brk`. -/
def breakEnv : Env := (env? breakZero replayApart).get (by decide +kernel)

theorem breakEnv_ready : Ready breakZero replayApart breakEnv := ⟨(Option.some_get _).symm, by decide +kernel, by decide +kernel⟩

theorem breakEnv_breaks : replayApart.eventRoom = true ∧ breakEnv.c.frame = none ∧ breakEnv.g.holder? = none ∧ breakEnv.atEase = true := by
  decide +kernel

theorem breakEnv_lanes : breakEnv.act = 3#64 ∧ ((replayApart.lane? breakEnv.x 1).map fun _ => WS.stopped) = some .stopped := by decide +kernel

/-- Lane 1 keeps its stop for the end of its trap. -/
theorem replayApart_waits {t : State} (run : exec breakZero replayApart = .next t) : (t.lane? breakEnv.x 1).map (·.ws) = some .trapped :=
  of_decide_eq_true (nextPasses_spec (p := fun t => decide ((t.lane? breakEnv.x 1).map (·.ws) = some .trapped)) (by decide +kernel) run)

/-- Refutes O36: the active lanes of a replay are those that its instruction had left, wherever they stand. One that is not on the path and waits in a
trap, as no lane of a replay does in a machine that starts from reset, is active at a `brk`; its stop waits for the end of the trap (14:R338). -/
theorem not_trapsEndAndBreak : ¬ Obligations.TrapsEndAndBreak := by
  unfold Obligations.TrapsEndAndBreak
  rintro ⟨-, -, breaks⟩
  obtain ⟨room, outside, free, ease⟩ := breakEnv_breaks
  obtain ⟨active, there⟩ := breakEnv_lanes
  obtain ⟨t, run, stopped, -⟩ :=
    breaks _ _ 0 replayApart breakEnv breakEnv_ready (by rw [active]; decide) room outside free ease
  have now := stopped 1 (by rw [active]; rfl)
  rw [replayApart_waits run, there] at now
  cases now

end Sys2Proof.Machine
end


section
/-! SUPPORT. The stop of a lane outside traps (07:R160, 14:R338). -/

namespace Sys2Proof.Machine

/-- A lane that at most a rejoin has released (07:R157). -/
structure LaneSt.Loosened (l l' : LaneSt) : Prop where
  ws : l'.ws = l.ws ∨ l.ws = .parked ∧ l'.ws = .ready
  under : l'.under = l.under ∨ l.under = .parked ∧ l'.under = .ready

namespace LaneSt.Loosened

theorem refl (l : LaneSt) : l.Loosened l := ⟨.inl rfl, .inl rfl⟩

/-- A wait on a rejoin mask is released once. -/
theorem released_trans {a b c : WS} (h : b = a ∨ a = .parked ∧ b = .ready) (h' : c = b ∨ b = .parked ∧ c = .ready) : c = a ∨ a = .parked ∧ c = .ready := by
  rcases h' with rfl | ⟨parked, ready⟩
  · exact h
  · rcases h with same | ⟨-, ready'⟩
    · exact .inr ⟨same.symm.trans parked, ready⟩
    · rw [ready'] at parked
      cases parked

theorem trans {a b c : LaneSt} (h : a.Loosened b) (h' : b.Loosened c) : a.Loosened c :=
  ⟨released_trans h.ws h'.ws, released_trans h.under h'.under⟩

end LaneSt.Loosened

/-- Every lane of a context has at most been released. -/
def Ctx.Loosens (c d : Ctx) : Prop := ∀ k, Option.Rel LaneSt.Loosened (c.lanes.get? k) (d.lanes.get? k)

namespace Ctx

theorem Loosens.refl (c : Ctx) : c.Loosens c := fun k => by
  cases c.lanes.get? k with
  | none => exact .none
  | some l => exact .some (.refl l)

theorem Loosens.trans {a b c : Ctx} (h : a.Loosens b) (h' : b.Loosens c) : a.Loosens c := fun k => by
  have first := h k
  have second := h' k
  generalize a.lanes.get? k = x at first
  generalize b.lanes.get? k = y at first second
  generalize c.lanes.get? k = z at second
  cases first with
  | none => cases second; exact .none
  | some one => cases second with | some two => exact .some (one.trans two)

variable (c : Ctx)

theorem testRejoin_keeps {β : Type} (φ : Ctx → β) (lanes : ∀ c x, φ { c with lanes := x } = φ c) (j : ∀ c x, φ { c with j := x } = φ c) (n : Nat) :
    φ (c.testRejoin n) = φ c := by
  have both (x : Assoc LaneSt) (y : Assoc DWord) : φ { c with lanes := x, j := y } = φ c := (j { c with lanes := x } y).trans (lanes c x)
  unfold testRejoin
  exact (apply_ite φ _ _ _).trans (ite_eq_iff'.2 ⟨fun _ => rfl, fun _ => both _ _⟩)

/-- What the rejoin of each mask keeps, a strike keeps. -/
theorem strike_induction {P : Ctx → Prop} (m : Mask) (keepHeld : Bool) (start : P c)
    (step : ∀ (d : Ctx) (n : Nat) (j : Assoc DWord), P d → P ({ d with j := j }.testRejoin n)) : P (c.strike m keepHeld) := by
  unfold strike
  exact List.foldlRecOn (motive := P) _ _ start fun d held n _ => iteInduction (motive := P) (fun _ => held) fun _ => step d n _ held

theorem strike_keeps {β : Type} (φ : Ctx → β) (lanes : ∀ c x, φ { c with lanes := x } = φ c) (j : ∀ c x, φ { c with j := x } = φ c) (m : Mask)
    (keepHeld : Bool) : φ (c.strike m keepHeld) = φ c :=
  strike_induction (P := fun d => φ d = φ c) c m keepHeld rfl fun d n y same =>
    (testRejoin_keeps { d with j := y } φ lanes j n).trans ((j d y).trans same)

variable {c}

theorem testRejoin_loosens (outside : c.frame = none) (n : Nat) : c.Loosens (c.testRejoin n) := by
  unfold testRejoin
  dsimp only
  split
  · exact .refl c
  · intro k
    rw [Assoc.get?_mapVal]
    cases c.lanes.get? k with
    | none => exact .none
    | some l =>
      have ready : c.readyOf k = .ready := by
        unfold readyOf
        rw [outside]
      have under : (if l.under = .parked then .ready else l.under) = l.under ∨ l.under = .parked ∧ (if l.under = .parked then .ready else l.under) = WS.ready := by
        split
        · next parked => exact .inr ⟨parked, rfl⟩
        · exact .inl rfl
      refine .some (iteInduction (motive := l.Loosened) (fun _ => .refl l) fun _ => ?_)
      exact iteInduction (motive := l.Loosened) (fun parked => ⟨.inr ⟨parked, ready⟩, .inl rfl⟩) fun _ => ⟨.inl rfl, under⟩

theorem strike_loosens (outside : c.frame = none) (m : Mask) (keepHeld : Bool) : c.Loosens (c.strike m keepHeld) := by
  have both : (c.strike m keepHeld).frame = none ∧ c.Loosens (c.strike m keepHeld) :=
    strike_induction (P := fun d => d.frame = none ∧ c.Loosens d) c m keepHeld ⟨outside, .refl c⟩ fun d n y held => by
      obtain ⟨clear, loose⟩ := held
      have apart : ({ d with j := y } : Ctx).frame = none := clear
      have same := testRejoin_keeps { d with j := y } Ctx.frame (fun _ _ => rfl) (fun _ _ => rfl) n
      exact ⟨same.trans clear, loose.trans (testRejoin_loosens apart n)⟩
  exact both.2

/-- The wait state under a stop. -/
def underOf (w : WS) : WS :=
  match w with
  | .parked => .parked | .queueWait => .queueWait | .barrier => .barrier | .waitv => .waitv | .capsuleWait => .capsuleWait
  | _ => .ready

/-- A context one of whose lanes stops. -/
def stops (under : WS) (lane : Nat) (c : Ctx) : Ctx :=
  { ((c.updLane lane fun l => { l with ws := .stopped, under := under }).leave (bit lane)).strike (bit lane) true with due := c.due &&& ~~~bit lane }

theorem leave_keeps {β : Type} (φ : Ctx → β) (path : ∀ c x, φ { c with path := x } = φ c) (cur : ∀ c x, φ { c with cur := x } = φ c)
    (mid : ∀ c x, φ { c with mid := x } = φ c) (aside : ∀ c x, φ { c with aside := x } = φ c) (retry : ∀ c x, φ { c with retryAt := x } = φ c)
    (resume : ∀ c x, φ { c with resume := x } = φ c) (c : Ctx) (m : Mask) : φ (c.leave m) = φ c := by
  have all (p : Mask) (k : Option Cursor) (a : Option (Mask × Option Cursor)) (t : Assoc Cursor) :
      φ { c with path := p, cur := k, aside := a, mid := t } = φ c :=
    (mid { c with path := p, cur := k, aside := a } t).trans ((aside { c with path := p, cur := k } a).trans
      ((cur { c with path := p } k).trans (path c p)))
  have left : φ (c.leavePath m) = φ c := all _ _ _ _
  unfold leave
  refine iteInduction (motive := fun d => φ d = φ c) (fun _ => ?_) fun _ => left
  exact (resume { c.leavePath m with retryAt := none } none).trans ((retry (c.leavePath m) none).trans left)

theorem stops_frame (under : WS) (lane : Nat) (c : Ctx) : (c.stops under lane).frame = c.frame :=
  (strike_keeps _ Ctx.frame (fun _ _ => rfl) (fun _ _ => rfl) (bit lane) true).trans
    (leave_keeps Ctx.frame (fun _ _ => rfl) (fun _ _ => rfl) (fun _ _ => rfl) (fun _ _ => rfl) (fun _ _ => rfl) (fun _ _ => rfl) _ (bit lane))

/-- The stopped lane is stopped; others have at most been released. -/
theorem stops_lane (outside : c.frame = none) (under : WS) {lane : Nat} (k : Nat) :
    Option.Rel LaneSt.Loosened ((c.lanes.get? k).map fun l => if k = lane then { l with ws := .stopped, under := under } else l)
      ((c.stops under lane).lanes.get? k) := by
  have left : ((c.updLane lane fun l => { l with ws := .stopped, under := under }).leave (bit lane)).lanes =
      c.lanes.upd lane fun l => { l with ws := .stopped, under := under } :=
    leave_keeps Ctx.lanes (fun _ _ => rfl) (fun _ _ => rfl) (fun _ _ => rfl) (fun _ _ => rfl) (fun _ _ => rfl) (fun _ _ => rfl) _ (bit lane)
  have frame : ((c.updLane lane fun l => { l with ws := .stopped, under := under }).leave (bit lane)).frame = none :=
    (leave_keeps Ctx.frame (fun _ _ => rfl) (fun _ _ => rfl) (fun _ _ => rfl) (fun _ _ => rfl) (fun _ _ => rfl) (fun _ _ => rfl) _ (bit lane)).trans outside
  have loose := strike_loosens frame (bit lane) true k
  rw [left, Assoc.get?_upd] at loose
  refine Eq.mp ?_ loose
  congr 1
  split
  · next same =>
    rw [same]
  · cases c.lanes.get? k <;> rfl

end Ctx

namespace State

variable {s : State} {x : Site} {c : Ctx} {n : Nat} {l : LaneSt}

/-- No anchor of an unheld gang has a runner to stall. -/
theorem stallAnchor_of_unheld (held : s.unheld x.gang) (lane : Nat) : s.stallAnchor x.gang lane = s := by
  unfold stallAnchor
  split
  · rfl
  · next t thread =>
    have idle : ¬ (t.link.role = .owner ∨ t.link.role = .adopter) := fun role => by
      rw [thread?_of_gang?] at thread
      obtain ⟨g, gang, here⟩ := Option.bind_eq_some_iff.1 thread
      have empty : g.holders = [] := List.head?_eq_none_iff.1 (held g gang)
      have on : lane ∈ g.holders := List.mem_map.2 ⟨(lane, t), List.mem_filter.2 ⟨Assoc.mem_of_get? here, by simpa using role⟩, rfl⟩
      rw [empty] at on
      cases on
    dsimp only
    rw [if_neg fun both => idle both.1]

/-- 14:R338. The stop of a lane outside a trap. -/
theorem stopLane_eq (ctx : s.ctx? x = some c) (lane : c.lanes.get? n = some l) (running : l.ws ≠ .stopped) (free : l.ws ≠ .trapped)
    (outside : c.frame = none) (held : s.unheld x.gang) : s.stopLane x n = s.updCtx x (Ctx.stops (Ctx.underOf l.ws) n) := by
  have trap : c.inTrap n l = false := by simp [Ctx.inTrap, Ctx.inFrame, free, outside]
  unfold stopLane
  simp only [ctx, lane, running, trap, if_false, Bool.false_eq_true]
  split
  · rfl
  · exact stallAnchor_of_unheld (held.of_threads (threads_updCtx ..)) n

end State

end Sys2Proof.Machine
end


section
/-! SUPPORT. What follows the action of a query on one thread (14:R336, R343): the next path, the retirement of its gang, the result. -/

namespace Sys2Proof.Machine

namespace State

/-! ### Parts of the state that acts leave alone -/

theorem setBar_ctl (s : State) (b : Barrier) (grp : Nat) (pair : Bool) (n : Nat) : (s.setBar grp pair n b).ctl = s.ctl := by
  unfold setBar
  split
  · rfl
  · split <;> rfl

theorem barTouch_ctl (s : State) (grp : Nat) (pair : Bool) (n : Nat) : (s.barTouch grp pair n).ctl = s.ctl := by
  have trim (s : State) (core : Nat) : (s.barTrim core).ctl = s.ctl := by
    unfold barTrim
    dsimp only
    split
    · rfl
    · split
      · rfl
      · exact setBar_ctl ..
  unfold barTouch
  dsimp only
  split
  · rw [setBar_ctl]
    split <;> rfl
  · rw [trim, setBar_ctl]
    split <;> rfl

theorem barTest_ctl (s : State) (grp : Nat) (pair : Bool) (n : Nat) : (s.barTest grp pair n).ctl = s.ctl := by
  have release (s : State) (gs : List Nat) (phase : Word) : (s.barRelease gs pair n phase).ctl = s.ctl := by
    unfold barRelease
    refine List.foldlRecOn (motive := fun t : State => t.ctl = s.ctl) _ _ ?_ fun t same _ _ => same
    exact List.foldlRecOn (motive := fun t : State => t.ctl = s.ctl) _ _ rfl fun t same _ _ => same
  unfold barTest
  dsimp only
  split
  · split
    · rw [barTouch_ctl, release, setBar_ctl]
    · rw [setBar_ctl, release, setBar_ctl]
  · rfl

theorem endGroup_ctl (s : State) (grp : Nat) : (s.endGroup grp).ctl = s.ctl := by
  unfold endGroup
  split
  · rfl
  · extract_lets area t u stays both v
    split <;> rfl

theorem tryRetire_ctl (s : State) (n : Nat) : (s.tryRetire n).ctl = s.ctl := by
  have removed : (s.removeGang n).ctl = s.ctl := by
    unfold removeGang
    split
    · rfl
    · extract_lets bytes t u v
      split
      · exact endGroup_ctl ..
      · rfl
  unfold tryRetire
  split
  · rfl
  · split
    · exact List.foldlRecOn (motive := fun t : State => t.ctl = s.ctl) _ _ removed fun t same k _ =>
        (barTest_ctl ..).trans ((barTest_ctl ..).trans same)
    · rfl

/-- What is saved of a context is saved in memory. -/
theorem saveContext_keeps {β : Type} (φ : State → β) (mem : ∀ s m, φ (s.setMem m) = φ s) (draws : ∀ s d, φ (s.setDraws d) = φ s) (s : State) (n : Nat) :
    φ (s.saveContext n) = φ s := by
  unfold saveContext
  split
  · rfl
  · split
    · rfl
    · exact (mem _ _).trans (draws _ _)

/-- The result word of a command goes to memory, or a flag to its ring. -/
theorem commandResult_keeps {β : Type} (φ : State → β) (mem : ∀ s m, φ (s.setMem m) = φ s) (launches : ∀ s l, φ (s.setLaunches l) = φ s) (s : State)
    (ring : Nat) (result : DWord) (tag status flags : Word) : φ (s.commandResult ring result tag status flags) = φ s := by
  have stored : φ (s.sysStore ring result (leBytes 8 (dword status tag).toNat) true).2 = φ s := by
    unfold sysStore
    split <;> exact mem _ _
  unfold commandResult
  split
  · next t here =>
    rw [here] at stored
    split
    · exact (launches _ _).trans stored
    · exact stored
  · next t here =>
    rw [here] at stored
    rw [ringFlag_eq]
    split
    · exact (launches _ _).trans stored
    · exact (launches _ _).trans ((launches _ _).trans stored)

/-! ### The end of an action -/

/-- What follows an action on a gang, before the gang may retire. -/
def reselected (s : State) (n : Nat) : State :=
  let s := if (s.coreOf n).isNone then s.saveContext n else s
  ((s.selectPath ⟨n, false⟩).selectPath ⟨n, true⟩).updGang n fun g => { g with deadlock := none }

/-- What follows an action keeps the lanes and the registers of the compute context. -/
structure Follows (s t : State) (n : Nat) : Prop where
  ctl : t.ctl = s.ctl
  ctx : (t.ctx? ⟨n, false⟩).map Ctx.kept = (s.ctx? ⟨n, false⟩).map Ctx.kept
  lane : ∀ k, t.lane? ⟨n, false⟩ k = s.lane? ⟨n, false⟩ k
  thread : ∀ k, t.thread? n k = s.thread? n k

namespace Follows

variable {s t u : State} {n : Nat}

theorem trans (a : Follows s t n) (b : Follows t u n) : Follows s u n where
  ctl := b.ctl.trans a.ctl
  ctx := b.ctx.trans a.ctx
  lane k := (b.lane k).trans (a.lane k)
  thread k := (b.thread k).trans (a.thread k)

theorem of_gangs (gangs : t.gangs = s.gangs) (ctl : t.ctl = s.ctl) : Follows s t n where
  ctl := ctl
  ctx := by rw [ctx?_of_gangs gangs]
  lane k := by unfold lane?; rw [ctx?_of_gangs gangs]
  thread k := by rw [thread?_of_gang?, thread?_of_gang?]; unfold gang?; rw [gangs]

theorem of_moves {x : Site} (moves : Moves x 0#64 s t) : Follows s t n where
  ctl := moves.ctl
  ctx := moves.ctxs _
  lane k := moves.outside _ k (.inr BitVec.getLsbD_zero)
  thread k := moves.threads n k

end Follows

theorem reselected_follows (s : State) (n : Nat) : Follows s (s.reselected n) n := by
  unfold reselected
  extract_lets t
  have saved : Follows s t n := by
    have gangs : t.gangs = s.gangs := by
      unfold t
      split
      · exact saveContext_keeps State.gangs (fun _ _ => rfl) (fun _ _ => rfl) s n
      · rfl
    have ctl : t.ctl = s.ctl := by
      unfold t
      split
      · exact saveContext_keeps State.ctl (fun _ _ => rfl) (fun _ _ => rfl) s n
      · rfl
    exact .of_gangs gangs ctl
  have compute : Follows t (t.selectPath ⟨n, false⟩) n := .of_moves (selectPath_stands t ⟨n, false⟩ 0#64)
  have access : Follows (t.selectPath ⟨n, false⟩) ((t.selectPath ⟨n, false⟩).selectPath ⟨n, true⟩) n :=
    .of_moves (selectPath_stands _ ⟨n, true⟩ 0#64)
  refine (saved.trans compute).trans (access.trans ?_)
  generalize (t.selectPath ⟨n, false⟩).selectPath ⟨n, true⟩ = u
  have ctx : (u.updGang n fun g => { g with deadlock := none }).ctx? ⟨n, false⟩ = u.ctx? ⟨n, false⟩ := by
    rw [ctx?_updGang, if_pos rfl, ctx?_of_gang?]
    rfl
  refine ⟨rfl, congrArg _ ctx, fun k => ?_, fun k => ?_⟩
  · unfold lane?
    rw [ctx]
  · rw [thread?_of_gang?, thread?_of_gang?, gang?_updGang]
    cases u.gang? n <;> rfl

/-- What follows an action on a gang. -/
def afterAction (s : State) (n : Nat) : State := (s.reselected n).tryRetire n

theorem afterAction_ctl (s : State) (n : Nat) : (s.afterAction n).ctl = s.ctl := (tryRetire_ctl ..).trans (s.reselected_follows n).ctl

/-- A gang with a lane in its compute context goes on. -/
theorem afterAction_follows {s : State} {n k : Nat} {l : LaneSt} (lane : s.lane? ⟨n, false⟩ k = some l) : Follows s (s.afterAction n) n := by
  have follows := s.reselected_follows n
  have lane' := (follows.lane k).trans lane
  unfold lane? at lane'
  obtain ⟨c, ctx, there⟩ := Option.bind_eq_some_iff.1 lane'
  have stays : (s.reselected n).tryRetire n = s.reselected n := tryRetire_of_lane ctx fun empty => by
    rw [empty] at there
    cases there
  unfold afterAction
  rw [stays]
  exact follows

/-- A lane that has ended and its thread are gone, whether or not their gang retires. -/
theorem afterAction_gone {s : State} {n k : Nat} (lane : s.lane? ⟨n, false⟩ k = none) (thread : s.thread? n k = none) :
    (s.afterAction n).lane? ⟨n, false⟩ k = none ∧ (s.afterAction n).thread? n k = none := by
  have follows := s.reselected_follows n
  rcases tryRetire_cases (s.reselected n) n with gone | same
  · unfold afterAction lane?
    rw [ctx?_of_gang?, thread?_of_gang?, gone]
    exact ⟨rfl, rfl⟩
  · unfold afterAction
    rw [same]
    exact ⟨(follows.lane k).trans lane, (follows.thread k).trans thread⟩

/-! ### The instant of a hold -/

variable {s : State} {id : Nat} {h : Hold} {q : Query} {n lane : Nat}

/-- The event of a query whose hold has come to its instant. -/
theorem queryEvent_ready {action : Nat} (hold : s.ctl.holds.get? id = some h) (of : Query.ofBytes h.rec_ = q) (ready : s.holdReady id h = true)
    (is : q.action = action) (known : action < 6) : s.queryEvent (.hold id) action = s.holdInstant id h := by
  unfold queryEvent
  simp only [hold, of, is, ready, known, if_true, decide_true, Bool.true_and]

/-- The state in which a hold is over. -/
def released (s : State) (id : Nat) : State := s.setCtl { s.ctl with holds := s.ctl.holds.del id }

/-- The instant of a command's hold ends the hold; what follows its action is told in memory and to the host. -/
theorem holdInstant_keeps {β : Type} (φ : State → β) (mem : ∀ s m, φ (s.setMem m) = φ s) (launches : ∀ s l, φ (s.setLaunches l) = φ s)
    (of : Query.ofBytes h.rec_ = q) (command : h.q = none) :
    φ (s.holdInstant id h) = φ ((s.draw.2.applyAction q (s.matched h q)).released id) := by
  unfold holdInstant
  simp only [of, command]
  refine (commandResult_keeps φ mem launches ..).trans ?_
  refine List.foldlRecOn (motive := fun t : State => φ t = φ _) _ _ rfl fun t same p _ => ?_
  refine Eq.trans ?_ same
  unfold sysStore
  split <;> exact mem _ _

end State

end Sys2Proof.Machine
end


section
/-! PROOF. What a query does at the instant of its hold (14:R333, R336, R338 to R342). -/

namespace Sys2Proof.Machine

namespace State

variable {s : State} {x : Site} {c : Ctx} {n : Nat} {l : LaneSt}

/-! ### Capsules of threads without a link -/

/-- A thread that has no part in a capsule. -/
def unlinked (s : State) (g lane : Nat) : Prop := ∀ t, s.thread? g lane = some t → t.link.role = .none

theorem unlinked.of_thread {t : State} {g lane : Nat} (free : s.unlinked g lane) (same : t.thread? g lane = s.thread? g lane) : t.unlinked g lane := by
  unfold unlinked
  rw [same]
  exact free

theorem contenderBack_of_unlinked {g lane : Nat} (free : s.unlinked g lane) : s.contenderBack g lane = s := by
  unfold contenderBack
  split
  · rfl
  · next t here => simp [free t here]

theorem deliveredBack_of_unlinked {g lane : Nat} (free : s.unlinked g lane) : s.deliveredBack g lane = s := by
  unfold deliveredBack
  split
  · next t l here _ => simp [free t here]
  · rfl

theorem unstallAnchor_of_unlinked {g lane : Nat} (free : s.unlinked g lane) : s.unstallAnchor g lane = s := by
  unfold unstallAnchor
  split
  · rfl
  · next t here => simp [free t here]

theorem resumeCapsule_of_unlinked {lane : Nat} (free : s.unlinked x.gang lane) : s.resumeCapsule x lane = s := by
  unfold resumeCapsule
  split
  · rfl
  · rw [contenderBack_of_unlinked free, deliveredBack_of_unlinked free, unstallAnchor_of_unlinked free]

/-! ### Actions on one lane -/

theorem resumeWaiter_gangs (s : State) (x : Site) (lane : Nat) : (s.resumeWaiter x lane).gangs = s.gangs := by
  unfold resumeWaiter
  refine List.foldlRecOn (motive := fun t : State => t.gangs = s.gangs) _ _ rfl fun t same e _ => ?_
  split
  · exact same
  · split <;> exact same

theorem resumeWaiter_ctl (s : State) (x : Site) (lane : Nat) : (s.resumeWaiter x lane).ctl = s.ctl := by
  unfold resumeWaiter
  refine List.foldlRecOn (motive := fun t : State => t.ctl = s.ctl) _ _ rfl fun t same e _ => ?_
  split
  · exact same
  · split <;> exact same

/-- What an action on the lane `n` of the context `x` leaves: a lane of which `test` holds, outside traps still; threads and controls are as they
were. -/
structure Acted (s t : State) (x : Site) (n : Nat) (test : LaneSt → Prop) : Prop where
  ctl : t.ctl = s.ctl
  thread : ∀ g k, t.thread? g k = s.thread? g k
  ctx : ∃ d l, t.ctx? x = some d ∧ d.frame = none ∧ d.lanes.get? n = some l ∧ test l

/-- 14:R338. -/
theorem stopLane_acts (ctx : s.ctx? x = some c) (lane : c.lanes.get? n = some l) (running : l.ws ≠ .stopped) (free : l.ws ≠ .trapped)
    (outside : c.frame = none) (held : s.unheld x.gang) :
    Acted s (s.stopLane x n) x n fun b => b.ws = .stopped ∧ (Ctx.underOf l.ws = .ready → b.under = .ready) := by
  rw [stopLane_eq ctx lane running free outside held]
  have stopped := Ctx.stops_lane outside (Ctx.underOf l.ws) (lane := n) n
  rw [lane, Option.map_some, if_pos rfl] at stopped
  obtain ⟨b, there, loose⟩ : ∃ b, (c.stops (Ctx.underOf l.ws) n).lanes.get? n = some b ∧
      LaneSt.Loosened { l with ws := .stopped, under := Ctx.underOf l.ws } b := by
    generalize (c.stops (Ctx.underOf l.ws) n).lanes.get? n = r at stopped
    cases stopped with
    | some loose => exact ⟨_, rfl, loose⟩
  refine ⟨rfl, fun g k => ?_, c.stops (Ctx.underOf l.ws) n, b, ?_, (Ctx.stops_frame ..).trans outside, there, ?_, fun under => ?_⟩
  · rw [thread?_of_threads, thread?_of_threads, threads_updCtx]
  · rw [ctx?_updCtx, if_pos rfl, ctx]
    rfl
  · rcases loose.ws with same | ⟨parked, -⟩
    · exact same
    · cases parked
  · rcases loose.under with same | ⟨parked, -⟩
    · exact same.trans under
    · exact absurd (parked.symm.trans under) (by decide)

/-- 14:R339. A stopped lane under which nothing waits is ready again. -/
theorem resumeLane_acts (ctx : s.ctx? x = some c) (lane : c.lanes.get? n = some l) (stopped : l.ws = .stopped) (under : l.under = .ready)
    (outside : c.frame = none) : Acted s (s.resumeLane x n) x n fun b => b = { l with ws := .ready } := by
  have ready (u : State) (d : Ctx) (frame : d.frame = none) : u.resumeWs x d n l = .ready := by
    unfold resumeWs Ctx.readyOf
    rw [under, frame]
  have still : (s.resumeWaiter x n).ctx? x = some c := (ctx?_of_gangs (s.resumeWaiter_gangs x n) x).trans ctx
  unfold resumeLane
  simp only [ctx, lane, stopped, ne_eq, not_true_eq_false, if_false]
  refine ⟨s.resumeWaiter_ctl x n, fun g k => ?_, { c.updLane n fun l => { l with ws := (s.resumeWaiter x n).resumeWs x c n l } with due := c.due &&& ~~~bit n },
    { l with ws := .ready }, ?_, outside, ?_, rfl⟩
  · rw [thread?_of_threads, threads_updCtx, ← thread?_of_threads, thread?_of_gang?, thread?_of_gang?]
    unfold gang?
    rw [resumeWaiter_gangs]
  · rw [ctx?_updCtx, if_pos rfl, still]
    rfl
  · show (c.lanes.upd n _).get? n = _
    rw [Assoc.get?_upd, if_pos rfl, lane, Option.map_some, ready _ c outside]

theorem Acted.trans {t u : State} {P Q : LaneSt → Prop} (a : Acted s t x n P) (b : Acted t u x n Q) : Acted s u x n Q :=
  ⟨b.ctl.trans a.ctl, fun g k => (b.thread g k).trans (a.thread g k), b.ctx⟩

/-- 14:R340. A lane that has stopped goes on for a clause of its own. -/
theorem stepLane_of_stopped (ctx : s.ctx? x = some c) (lane : c.lanes.get? n = some l) (free : l.ws ≠ .trapped) (outside : c.frame = none)
    (alone : s.unlinked x.gang n) (stops : Acted s (s.stopLane x n) x n fun b => b.ws = .stopped ∧ b.under = .ready) :
    Acted s (s.stepLane x n) x n fun b => b.ws = .ready ∧ b.pstep = true := by
  have trap : c.inTrap n l = false := by simp [Ctx.inTrap, Ctx.inFrame, free, outside]
  obtain ⟨d, b, ctx', outside', lane', stopped, under⟩ := stops.ctx
  have within : d.waitsAtEnd n = false := by simp [Ctx.waitsAtEnd, lane', under]
  have resumes := resumeLane_acts ctx' lane' stopped under outside'
  have alone' := (alone.of_thread (stops.thread x.gang n)).of_thread (resumes.thread x.gang n)
  unfold stepLane
  simp only [ctx, lane, trap, Bool.false_eq_true, if_false, ctx', Option.any_some, within, Bool.false_and]
  rw [resumeCapsule_of_unlinked alone']
  refine (stops.trans resumes).trans ⟨rfl, fun g k => ?_, ?_⟩
  · rw [thread?_of_threads, threads_updCtx, ← thread?_of_threads]
  · obtain ⟨e, -, ctx'', outside'', lane'', rfl⟩ := resumes.ctx
    refine ⟨(e.updLane n fun l => { l with pstep := true }).leavePath (bit n), { b with ws := .ready, pstep := true }, ?_, outside'', ?_, rfl, rfl⟩
    · rw [ctx?_updCtx, if_pos rfl, ctx'']
      rfl
    · show (e.lanes.upd n _).get? n = _
      rw [Assoc.get?_upd, if_pos rfl, lane'']
      rfl

theorem stopLane_of_stopped (ctx : s.ctx? x = some c) (lane : c.lanes.get? n = some l) (stopped : l.ws = .stopped) : s.stopLane x n = s := by
  unfold stopLane
  simp only [ctx, lane, stopped, if_true]

/-! ### A killed lane -/

theorem killWaiter_ctl (s : State) (g : Nat) (access : Bool) (lane : Nat) : (s.killWaiter g access lane).ctl = s.ctl :=
  List.foldlRecOn (motive := fun t : State => t.ctl = s.ctl) _ _ rfl fun t same pa _ => by
    refine Eq.trans ?_ same
    unfold wakeNext
    split <;> rfl

/-- Lanes of threads without a link wait for nothing that their gang or the controls keep. -/
theorem forgetLanes_unlinked {g : Nat} {m : Mask} (alone : ∀ k, m.getLsbD k = true → s.unlinked g k) :
    (s.forgetLanes g false m).gangs = s.gangs ∧ (s.forgetLanes g false m).ctl = s.ctl := by
  unfold forgetLanes
  refine List.foldlRecOn (motive := fun t : State => t.gangs = s.gangs ∧ t.ctl = s.ctl) _ _ ⟨rfl, rfl⟩ fun t same k on => ?_
  obtain ⟨gangs, ctl⟩ := same
  have gangs' := (t.killWaiter_gangs g false k).trans gangs
  have ctl' := (t.killWaiter_ctl g false k).trans ctl
  dsimp only
  split
  · exact ⟨gangs', ctl'⟩
  · next w here =>
    have thread : s.thread? g k = some w := by
      rw [thread?_of_gang?] at here ⊢
      unfold gang? at here ⊢
      rwa [gangs'] at here
    simp [alone k (mem_lanesOf.1 on) w thread, gangs', ctl']

/-- Lanes that end are gone, and their threads with them. -/
theorem endLanes_gone {g : Nat} {m : Mask} (alone : ∀ k, m.getLsbD k = true → s.unlinked g k) :
    (s.endLanes g false m).ctl = s.ctl ∧
      ∀ k, m.getLsbD k = true → (s.endLanes g false m).lane? ⟨g, false⟩ k = none ∧ (s.endLanes g false m).thread? g k = none := by
  obtain ⟨gangs, ctl⟩ := forgetLanes_unlinked alone
  refine ⟨ctl, fun k on => ?_⟩
  have gone (x : Gang) : (x.threads.keep fun k _ => !m.getLsbD k).get? k = none := Assoc.get?_keep_eq_none _ fun _ => by simp [on]
  unfold endLanes lane?
  rw [ctx?_updGang, if_pos rfl, thread?_of_gang?, gang?_updGang]
  cases (s.forgetLanes g false m).gang? g with
  | none => exact ⟨rfl, rfl⟩
  | some x => exact ⟨x.cctx.dropLanes_lane on, gone _⟩

theorem bit_on {n : Nat} (small : n < 64) : (bit n).getLsbD n = true := by
  simp [bit, small]

theorem of_bit {n k : Nat} (on : (bit n).getLsbD k = true) : k = n := by
  simp [bit, BitVec.getLsbD_twoPow] at on
  omega

/-- 14:R341. The kill of a lane outside traps and capsules. -/
theorem killLane_gone {g n : Nat} {x : Gang} (gang : s.gang? g = some x) (lane : x.cctx.lanes.get? n = some l) (free : l.ws ≠ .trapped)
    (outside : x.cctx.frame = none) (held : s.unheld g) (alone : s.unlinked g n) (small : n < 64) :
    (s.killLane ⟨g, false⟩ n).ctl = s.ctl ∧ (s.killLane ⟨g, false⟩ n).lane? ⟨g, false⟩ n = none ∧ (s.killLane ⟨g, false⟩ n).thread? g n = none := by
  have trap : x.cctx.inTrap n l = false := by simp [Ctx.inTrap, Ctx.inFrame, free, outside]
  have ctx : s.ctx? ⟨g, false⟩ = some x.cctx := by
    rw [ctx?_of_gang?, gang]
    rfl
  have unstalled : s.stallAnchor g n = s := stallAnchor_of_unheld (x := ⟨g, false⟩) held n
  unfold killLane
  simp only [gang, ctx, lane, trap, Bool.false_eq_true, if_false, unstalled]
  have alone' : ∀ k, (bit n).getLsbD k = true → (s.updCtx ⟨g, false⟩ fun c => c.leave (bit n)).unlinked g k := fun k on => by
    rw [of_bit on]
    refine alone.of_thread ?_
    rw [thread?_of_threads, threads_updCtx, ← thread?_of_threads]
  obtain ⟨ctl, gone⟩ := endLanes_gone alone'
  exact ⟨ctl, gone n (bit_on small)⟩

/-! ### A register that is written -/

theorem has_of_get? {t : Assoc LaneSt} {n : Nat} (here : t.get? n = some l) : t.has n = true := by
  unfold Assoc.has
  rw [here]
  rfl

/-- What a write on one lane leaves: controls, and the lanes of its context. -/
theorem writeLane_keeps (ctx : s.ctx? x = some c) (sel : Nat) (v : Word) :
    (s.writeLane x n sel v).ctl = s.ctl ∧ ∀ k, (s.writeLane x n sel v).lane? x k = s.lane? x k := by
  have context (F : Ctx → Ctx) (lanes : ∀ c, (F c).lanes = c.lanes) : (s.updCtx x F).ctl = s.ctl ∧ ∀ k, (s.updCtx x F).lane? x k = s.lane? x k := by
    refine ⟨rfl, fun k => ?_⟩
    unfold lane?
    rw [ctx?_updCtx, if_pos rfl, ctx, Option.map_some, Option.bind_some, lanes]
    rfl
  have thread (f : Thread → Thread) : (s.updThread x.gang n f).ctl = s.ctl ∧ ∀ k, (s.updThread x.gang n f).lane? x k = s.lane? x k := by
    refine ⟨rfl, fun k => ?_⟩
    unfold lane?
    rw [updThread_eq, ctx?_updGang, if_pos rfl, ctx?_of_gang?]
    rfl
  unfold writeLane
  simp only [ctx]
  split
  · exact ⟨rfl, fun _ => rfl⟩
  · split
    · exact context _ fun _ => rfl
    · split
      · exact context _ fun _ => rfl
      · split
        · exact thread _
        · exact context _ fun _ => rfl

section

variable (ctx : s.ctx? x = some c) (lane : c.lanes.get? n = some l) {sel : Nat} (v : Word)
include ctx lane

theorem writeLane_vreg (low : sel < 0x40) : (s.writeLane x n sel v).vreg x sel n = some ⟨v, false, false⟩ := by
  unfold writeLane vreg
  simp only [ctx, has_of_get? lane, Bool.not_true, Bool.false_eq_true, if_false, low, if_true]
  rw [ctx?_updCtx, if_pos rfl, ctx]
  exact Assoc.get?_put_self ..

theorem writeLane_sreg (low : 0x40 ≤ sel) (high : sel < 0x70) : (s.writeLane x n sel v).sreg x (sel - 0x40) = some ⟨v, false, false⟩ := by
  unfold writeLane sreg
  simp only [ctx, has_of_get? lane, Bool.not_true, Bool.false_eq_true, if_false, Nat.not_lt.2 low, high, if_true]
  rw [ctx?_updCtx, if_pos rfl, ctx]
  exact Assoc.get?_put_self ..

theorem writeLane_creg (low : 0x70 ≤ sel) (high : sel < 0x78) :
    (s.writeLane x n sel v).creg x.gang n (sel - 0x70) = (s.thread? x.gang n).map fun _ => v := by
  have notV : ¬ sel < 0x40 := by omega
  unfold writeLane creg
  simp only [ctx, has_of_get? lane, Bool.not_true, Bool.false_eq_true, if_false, notV, Nat.not_lt.2 low, high, if_true]
  rw [updThread_eq, thread?_of_gang?, thread?_of_gang?, gang?_updGang]
  cases s.gang? x.gang with
  | none => rfl
  | some g =>
    show ((g.threads.upd n _).get? n).map _ = (g.threads.get? n).map _
    rw [Assoc.get?_upd, if_pos rfl, Option.map_map]
    congr 1
    funext t
    exact (Assoc.getD_putD ..).trans (if_pos rfl)

theorem writeLane_pred (low : 0x90 ≤ sel) : (s.writeLane x n sel v).pred x (sel - 0x90) =
    (s.pred x (sel - 0x90)).map fun m => if v.getLsbD 0 then m ||| bit n else m &&& ~~~bit n := by
  have notV : ¬ sel < 0x40 := by omega
  have notS : ¬ sel < 0x70 := by omega
  have notC : ¬ sel < 0x78 := by omega
  unfold writeLane pred
  simp only [ctx, has_of_get? lane, Bool.not_true, Bool.false_eq_true, if_false, notV, notS, notC]
  rw [ctx?_updCtx, if_pos rfl, ctx]
  exact congrArg some ((Assoc.getD_putD ..).trans (if_pos rfl))

end

/-! ### What a query of an instruction reads -/

theorem writeReg_keeps {β : Type} (φ : State → β) (gang : ∀ s g f, φ (s.updGang g f) = φ s) (s : State) (x : Site) (o : Opnd) (k : Nat) (lanes : List Nat)
    (nib : Option Nat) (vals : Nat → List Word) : φ (s.writeReg x o k lanes nib vals) = φ s := by
  cases o with
  | v r => exact gang ..
  | s r =>
    cases nib with
    | none => rfl
    | some j =>
      unfold writeReg
      dsimp only
      split
      · rfl
      · exact gang ..
  | c r => exact List.foldlRecOn (motive := fun t : State => φ t = φ s) _ _ rfl fun t same j _ => (gang ..).trans same
  | q r => exact gang ..

/-- The pairs of a query go to the scratchpad, its status to registers. -/
theorem queryResult_keeps {β : Type} (φ : State → β) (gang : ∀ s g f, φ (s.updGang g f) = φ s) (ops : ∀ s k f, φ (s.updOp k f) = φ s) {s : State}
    {g op : Nat} {x : Gang} {q : Query} {r : SpadRef} {bytes : List Byte} (here : s.gang? g = some x) (some_ : bytes.isEmpty = false)
    (place : s.spadRef x.group q.low = some r) (status : Word) (cycles : Nat) :
    φ (s.queryResult q g op bytes status cycles) = φ (s.updGroup r.group fun b => b.spadWrite r.ofs bytes) := by
  unfold queryResult
  simp only [here, some_, place, Bool.false_eq_true, if_false]
  split
  · rfl
  · refine (ops ..).trans ?_
    split
    · rfl
    · exact writeReg_keeps φ gang ..

end State

theorem Group.spadBytes_eq (g : Group) (a n : Nat) : g.spadBytes a n = (List.range n).map fun i => g.spadByte (a + i) := by
  induction n generalizing a with
  | zero => rfl
  | succ n ih =>
    rw [List.range_succ_eq_map, List.map_cons, List.map_map, spadBytes, ih]
    simp only [Function.comp_def, Nat.add_zero, Nat.succ_eq_add_one, Nat.add_assoc, Nat.add_comm 1]

/-- A scratchpad reads back what has been written. -/
theorem Group.spadBytes_spadWrite (g : Group) (a : Nat) (bs : List Byte) : (g.spadWrite a bs).spadBytes a bs.length = bs := by
  rw [spadBytes_eq]
  refine List.ext_getElem (by simp) fun i _ inside => ?_
  rw [List.getElem_map, List.getElem_range, spadByte_spadWrite, if_pos ⟨Nat.le_add_right .., by omega⟩, Nat.add_sub_cancel_left]
  exact (List.getElem_eq_getD _).symm

/-! ### The statement -/

/-- The hold `id` of the query `q` has come to its instant; it matches the thread `lane` of the gang `n` alone, whose compute context is outside
traps and capsules. -/
structure Instant (s : State) (id : Nat) (h : Hold) (q : Query) (n lane : Nat) (g : Gang) (a : LaneSt) : Prop where
  hold : s.ctl.holds.get? id = some h
  of : Query.ofBytes h.rec_ = q
  ready : s.holdReady id h = true
  ctxs : q.ctxs = [false]
  one : s.matched h q = [(n, lane)]
  gang : s.gang? n = some g
  there : g.cctx.lanes.get? lane = some a
  free : g.holder? = none
  outside : g.cctx.frame = none
  alone : ∀ t, g.threads.get? lane = some t → t.link.role = .none
  small : lane < 64

namespace Instant

variable {s : State} {id : Nat} {h : Hold} {q : Query} {n lane : Nat} {g : Gang} {a : LaneSt} (at_ : Instant s id h q n lane g a)
include at_

/-- The state in which the query acts. -/
theorem ctx : s.draw.2.ctx? ⟨n, false⟩ = some g.cctx := by
  show s.ctx? ⟨n, false⟩ = _
  rw [State.ctx?_of_gang?, at_.gang]
  rfl

theorem unheld : s.draw.2.unheld n := State.unheld_of_gang (s := s.draw.2) at_.gang at_.free

theorem unlinked : s.draw.2.unlinked n lane := fun t here => at_.alone t (by
  have thread : s.thread? n lane = g.threads.get? lane := by
    rw [State.thread?_of_gang?, at_.gang]
    rfl
  exact thread.symm.trans here)

/-- A command whose action leaves `t`, and what follows it. -/
theorem acts {action : Nat} {t : State} (command : h.q = none) (is : q.action = action) (known : action < 6)
    (does : s.draw.2.applyAction q [(n, lane)] = t.afterAction n) (ctl : t.ctl = s.ctl) :
    (s.queryEvent (.hold id) action).gangs = (t.afterAction n).gangs ∧ (s.queryEvent (.hold id) action).ctl.holds = s.ctl.holds.del id := by
  rw [State.queryEvent_ready at_.hold at_.of at_.ready is known]
  refine ⟨(State.holdInstant_keeps State.gangs (fun _ _ => rfl) (fun _ _ => rfl) at_.of command).trans ?_,
    (State.holdInstant_keeps (fun s => s.ctl.holds) (fun _ _ => rfl) (fun _ _ => rfl) at_.of command).trans ?_⟩
  · rw [at_.one, does]
    rfl
  · rw [at_.one, does]
    show (t.afterAction n).ctl.holds.del id = _
    rw [State.afterAction_ctl, ctl]

/-- A command that acts on the lane, and what is seen of the lane afterwards. -/
theorem acts_lane {action : Nat} {t : State} {P : LaneSt → Prop} (command : h.q = none) (is : q.action = action) (known : action < 6)
    (does : s.draw.2.applyAction q [(n, lane)] = t.afterAction n) (acted : State.Acted s.draw.2 t ⟨n, false⟩ lane P) :
    (s.queryEvent (.hold id) action).ctl.holds = s.ctl.holds.del id ∧ ∃ l, (s.queryEvent (.hold id) action).lane? ⟨n, false⟩ lane = some l ∧ P l := by
  obtain ⟨gangs, holds⟩ := at_.acts command is known does acted.ctl
  obtain ⟨d, l, ctx, -, there, seen⟩ := acted.ctx
  have lane : t.lane? ⟨n, false⟩ lane = some l := by
    unfold State.lane?
    rw [ctx]
    exact there
  refine ⟨holds, l, ?_, seen⟩
  unfold State.lane?
  rw [State.ctx?_of_gangs gangs]
  exact ((State.afterAction_follows lane).lane _).trans lane

/-- 14:R338. -/
theorem stops (command : h.q = none) (is : q.action = 0) (running : a.ws ≠ .stopped) (free : a.ws ≠ .trapped) :
    ∃ u, exec (.queryStop (.hold id)) s = .next u ∧ u.ctl.holds = s.ctl.holds.del id ∧ (u.lane? ⟨n, false⟩ lane).map (·.ws) = some .stopped := by
  have acted := State.stopLane_acts at_.ctx at_.there running free at_.outside at_.unheld
  have does : s.draw.2.applyAction q [(n, lane)] = (s.draw.2.stopLane ⟨n, false⟩ lane).afterAction n := by
    unfold State.applyAction
    rw [is, at_.ctxs]
    rfl
  obtain ⟨holds, l, there, stopped, -⟩ := at_.acts_lane command is (by decide) does acted
  exact ⟨_, rfl, holds, by rw [there, Option.map_some, stopped]⟩

/-- 14:R340. -/
theorem steps (command : h.q = none) (is : q.action = 1) (free : a.ws ≠ .trapped)
    (stopped : State.Acted s.draw.2 (s.draw.2.stopLane ⟨n, false⟩ lane) ⟨n, false⟩ lane fun b => b.ws = .stopped ∧ b.under = .ready) :
    ∃ u, exec (.queryStep (.hold id)) s = .next u ∧ u.ctl.holds = s.ctl.holds.del id ∧
      (u.lane? ⟨n, false⟩ lane).map (fun b => (b.ws, b.pstep)) = some (.ready, true) := by
  have acted := State.stepLane_of_stopped at_.ctx at_.there free at_.outside at_.unlinked stopped
  have does : s.draw.2.applyAction q [(n, lane)] = (s.draw.2.stepLane ⟨n, false⟩ lane).afterAction n := by
    unfold State.applyAction
    rw [is, at_.ctxs]
    rfl
  obtain ⟨holds, l, there, ready, stepped⟩ := at_.acts_lane command is (by decide) does acted
  exact ⟨_, rfl, holds, by rw [there, Option.map_some, ready, stepped]⟩

theorem steps_ready (command : h.q = none) (is : q.action = 1) (ready : a.ws = .ready) :
    ∃ u, exec (.queryStep (.hold id)) s = .next u ∧ u.ctl.holds = s.ctl.holds.del id ∧
      (u.lane? ⟨n, false⟩ lane).map (fun b => (b.ws, b.pstep)) = some (.ready, true) := by
  obtain ⟨ctl, thread, d, b, ctx, outside, there, stopped, under⟩ :=
    State.stopLane_acts at_.ctx at_.there (by rw [ready]; decide) (by rw [ready]; decide) at_.outside at_.unheld
  exact at_.steps command is (by rw [ready]; decide) ⟨ctl, thread, d, b, ctx, outside, there, stopped, under (by rw [ready]; rfl)⟩

theorem steps_stopped (command : h.q = none) (is : q.action = 1) (stopped : a.ws = .stopped) (under : a.under = .ready) :
    ∃ u, exec (.queryStep (.hold id)) s = .next u ∧ u.ctl.holds = s.ctl.holds.del id ∧
      (u.lane? ⟨n, false⟩ lane).map (fun b => (b.ws, b.pstep)) = some (.ready, true) := by
  refine at_.steps command is (by rw [stopped]; decide) ?_
  rw [State.stopLane_of_stopped at_.ctx at_.there stopped]
  exact ⟨rfl, fun _ _ => rfl, g.cctx, a, at_.ctx, at_.outside, at_.there, stopped, under⟩

/-- 14:R339. -/
theorem resumes (command : h.q = none) (is : q.action = 2) (stopped : a.ws = .stopped) (under : a.under = .ready) :
    ∃ u, exec (.queryResume (.hold id)) s = .next u ∧ u.ctl.holds = s.ctl.holds.del id ∧ (u.lane? ⟨n, false⟩ lane).map (·.ws) = some .ready := by
  have acted := State.resumeLane_acts at_.ctx at_.there stopped under at_.outside
  have does : s.draw.2.applyAction q [(n, lane)] = (s.draw.2.resumeLane ⟨n, false⟩ lane).afterAction n := by
    have alone := at_.unlinked.of_thread (acted.thread n lane)
    have whole : s.draw.2.applyAction q [(n, lane)] = ((s.draw.2.resumeLane ⟨n, false⟩ lane).resumeCapsule ⟨n, false⟩ lane).afterAction n := by
      unfold State.applyAction
      rw [is, at_.ctxs]
      rfl
    rw [whole, State.resumeCapsule_of_unlinked alone]
  obtain ⟨holds, l, there, rfl⟩ := at_.acts_lane command is (by decide) does acted
  exact ⟨_, rfl, holds, by rw [there]; rfl⟩

/-- 14:R341. -/
theorem kills (command : h.q = none) (is : q.action = 3) (free : a.ws ≠ .trapped) :
    ∃ u, exec (.queryKill (.hold id)) s = .next u ∧ u.ctl.holds = s.ctl.holds.del id ∧ u.lane? ⟨n, false⟩ lane = none ∧ u.thread? n lane = none := by
  obtain ⟨ctl, noLane, noThread⟩ := State.killLane_gone (s := s.draw.2) at_.gang at_.there free at_.outside at_.unheld at_.unlinked at_.small
  have does : s.draw.2.applyAction q [(n, lane)] = (s.draw.2.killLane ⟨n, false⟩ lane).afterAction n := by
    unfold State.applyAction
    rw [is, at_.ctxs]
    rfl
  obtain ⟨gangs, holds⟩ := at_.acts command is (by decide) does ctl
  obtain ⟨lane', thread'⟩ := State.afterAction_gone noLane noThread
  refine ⟨_, rfl, holds, ?_, ?_⟩
  · unfold State.lane?
    rw [State.ctx?_of_gangs gangs]
    exact lane'
  · rw [State.thread?_of_gang?] at thread' ⊢
    unfold State.gang? at thread' ⊢
    rw [gangs]
    exact thread'

/-- 14:R342. A write: controls and threads' places as they were, the contexts' registers as the write leaves them. -/
theorem writes (command : h.q = none) (is : q.action = 5) :
    ∃ u, exec (.queryWrite (.hold id)) s = .next u ∧ u.ctl.holds = s.ctl.holds.del id ∧
      (u.ctx? ⟨n, false⟩).map Ctx.kept = ((s.draw.2.writeLane ⟨n, false⟩ lane q.sel (BitVec.ofNat 32 q.low)).ctx? ⟨n, false⟩).map Ctx.kept ∧
      u.thread? n lane = (s.draw.2.writeLane ⟨n, false⟩ lane q.sel (BitVec.ofNat 32 q.low)).thread? n lane := by
  obtain ⟨ctl, lanes⟩ := State.writeLane_keeps (n := lane) at_.ctx q.sel (BitVec.ofNat 32 q.low)
  have does : s.draw.2.applyAction q [(n, lane)] =
      (s.draw.2.writeLane ⟨n, false⟩ lane q.sel (BitVec.ofNat 32 q.low)).afterAction n := by
    unfold State.applyAction
    rw [is, at_.ctxs]
    rfl
  have there : (s.draw.2.writeLane ⟨n, false⟩ lane q.sel (BitVec.ofNat 32 q.low)).lane? ⟨n, false⟩ lane = some a := by
    rw [lanes]
    unfold State.lane?
    rw [at_.ctx]
    exact at_.there
  obtain ⟨gangs, holds⟩ := at_.acts command is (by decide) does ctl
  have follows := State.afterAction_follows there
  refine ⟨_, rfl, holds, ?_, ?_⟩
  · rw [State.ctx?_of_gangs gangs]
    exact follows.ctx
  · rw [← follows.thread, State.thread?_of_gang?, State.thread?_of_gang?]
    unfold State.gang?
    rw [gangs]

/-- What the instant of a read of an instruction in the gang `n` is. -/
theorem reading {k : Nat × Nat} {op : Nat} (is : q.action = 4) (by_ : h.q = some k) (in_ : h.op = some op) (own : k.1 = n) (cap : 1 ≤ q.cap) :
    ∃ status cycles, s.queryEvent (.hold id) 4 = (s.draw.2.released id).queryResult q n op
      (leBytes 8 (s.idn n lane false).toNat ++ leBytes 8 (s.selVal n g false lane q.sel).toNat) status cycles := by
  have pairs : s.readPairs q [(n, lane)] = [(s.idn n lane false, s.selVal n g false lane q.sel)] := by
    unfold State.readPairs
    simp only [List.map_cons, List.map_nil, at_.gang, at_.ctxs, List.flatten_cons, List.flatten_nil, List.append_nil]
  have does : s.draw.2.applyAction q [(n, lane)] = s.draw.2 := by
    unfold State.applyAction
    rw [is]
    rfl
  obtain ⟨m, cap⟩ : ∃ m, q.cap = m + 1 := ⟨q.cap - 1, by omega⟩
  obtain ⟨i, j⟩ := k
  obtain rfl : i = n := own
  rw [State.queryEvent_ready at_.hold at_.of at_.ready is (by decide)]
  unfold State.holdInstant
  simp only [at_.of, by_, in_, at_.one, is, if_true, pairs, does, cap, List.take_succ_cons, List.take_nil, List.map_cons, List.map_nil,
    List.flatten_cons, List.flatten_nil, List.append_nil]
  exact ⟨_, _, rfl⟩

/-- 14:R336. A read of an instruction: the identity and the value are in the scratchpad. -/
theorem reads {k : Nat × Nat} {op : Nat} {r : SpadRef} (is : q.action = 4) (by_ : h.q = some k) (in_ : h.op = some op)
    (place : s.spadRef g.group q.low = some r) (group : (s.group? r.group).isSome = true) (own : k.1 = n) (cap : 1 ≤ q.cap) :
    ∃ u, exec (.queryRead (.hold id)) s = .next u ∧ u.ctl.holds = s.ctl.holds.del id ∧ u.mem = s.mem ∧
      (u.group? r.group).map (fun b => b.spadBytes r.ofs 16) =
        some (leBytes 8 (s.idn n lane false).toNat ++ leBytes 8 (s.selVal n g false lane q.sel).toNat) := by
  obtain ⟨status, cycles, reading⟩ := at_.reading is by_ in_ own cap
  have sized : (leBytes 8 (s.idn n lane false).toNat ++ leBytes 8 (s.selVal n g false lane q.sel).toNat).length = 16 := by
    rw [List.length_append, MemSys.leBytes_length, MemSys.leBytes_length]
  generalize leBytes 8 (s.idn n lane false).toNat ++ leBytes 8 (s.selVal n g false lane q.sel).toNat = bytes at reading sized ⊢
  have some_ : bytes.isEmpty = false := by
    cases bytes with
    | nil => cases sized
    | cons _ _ => rfl
  have keeps {β : Type} (φ : State → β) (gang : ∀ s g f, φ (s.updGang g f) = φ s) (ops : ∀ s k f, φ (s.updOp k f) = φ s) :
      φ (s.queryEvent (.hold id) 4) = φ ((s.draw.2.released id).updGroup r.group fun b => b.spadWrite r.ofs bytes) := by
    rw [reading]
    exact State.queryResult_keeps φ gang ops (s := s.draw.2.released id) at_.gang some_ place status cycles
  refine ⟨_, rfl, keeps (fun s => s.ctl.holds) (fun _ _ _ => rfl) fun _ _ _ => rfl, keeps State.mem (fun _ _ _ => rfl) fun _ _ _ => rfl, ?_⟩
  rw [keeps (fun s => s.group? r.group) (fun _ _ _ => rfl) fun _ _ _ => rfl, State.group?_updGroup]
  obtain ⟨b, here⟩ := Option.isSome_iff_exists.1 group
  rw [show (s.draw.2.released id).group? r.group = some b from here, Option.map_some, Option.map_some, ← sized, Group.spadBytes_spadWrite]

end Instant

theorem State.vreg_of_kept (s : State) (x : Site) (r k : Nat) : s.vreg x r k = ((s.ctx? x).map Ctx.kept).bind fun c => c.v.get? (64 * r + k) := by
  unfold State.vreg
  cases s.ctx? x <;> rfl

theorem State.sreg_of_kept (s : State) (x : Site) (r : Nat) : s.sreg x r = ((s.ctx? x).map Ctx.kept).bind fun c => c.s.get? r := by
  unfold State.sreg
  cases s.ctx? x <;> rfl

theorem State.pred_of_kept (s : State) (x : Site) (r : Nat) : s.pred x r = ((s.ctx? x).map Ctx.kept).map fun c => c.k.getD r 0#64 := by
  unfold State.pred
  cases s.ctx? x <;> rfl

/-- The low bit of a word is whether it is odd. -/
theorem ofNat_odd (m : Nat) : (BitVec.ofNat 32 m).getLsbD 0 = decide (m % 2 = 1) := by
  rw [BitVec.getLsbD_ofNat, Nat.testBit_zero]
  rfl

/-- Settles O47: at its instant a hold does its action on the one lane that it matches, each a rule of its own; the next path, the gang's retirement
and the result leave what it has done. -/
theorem queriesAct : Obligations.QueriesAct := by
  unfold Obligations.QueriesAct
  intro s id h q n lane g c a hold of ready ctxs one gang cctx there free outside alone small
  subst cctx
  have at_ : Instant s id h q n lane g a := ⟨hold, of, ready, ctxs, one, gang, there, free, outside, alone, small⟩
  refine ⟨fun is command running free => at_.stops command is running free, fun is command ready => ?_,
    fun is command stopped under => at_.steps_stopped command is stopped under, fun is command stopped under => at_.resumes command is stopped under,
    fun is command ready => at_.kills command is (by rw [ready]; decide),
    fun k op o r is by_ in_ _ place group own cap => at_.reads is by_ in_ place group own cap,
    fun is command low => ?_, fun is command low high => ?_, fun is command low high => ?_, fun is command low high => ?_⟩
  · obtain ⟨u, run, holds, lane'⟩ := at_.steps_ready command is ready
    refine ⟨u, run, holds, ?_⟩
    obtain ⟨b, here, seen⟩ := Option.map_eq_some_iff.1 lane'
    rw [here]
    exact congrArg some (congrArg Prod.snd seen)
  · obtain ⟨u, run, holds, ctx, -⟩ := at_.writes command is
    exact ⟨u, run, holds, by rw [State.vreg_of_kept, ctx, ← State.vreg_of_kept]; exact State.writeLane_vreg at_.ctx there _ low⟩
  · obtain ⟨u, run, holds, ctx, -⟩ := at_.writes command is
    exact ⟨u, run, holds, by rw [State.sreg_of_kept, ctx, ← State.sreg_of_kept]; exact State.writeLane_sreg at_.ctx there _ low high⟩
  · obtain ⟨u, run, holds, -, thread⟩ := at_.writes command is
    exact ⟨u, run, holds, by unfold State.creg; rw [thread]; exact State.writeLane_creg at_.ctx there _ low high⟩
  · obtain ⟨u, run, holds, ctx, -⟩ := at_.writes command is
    refine ⟨u, run, holds, ?_⟩
    rw [State.pred_of_kept, ctx, ← State.pred_of_kept, State.writeLane_pred at_.ctx there _ low, ofNat_odd]
    simp only [decide_eq_true_eq]
    rfl

end Sys2Proof.Machine
end
